-- ==== Sys2Proof/Word.lean ====
section
/-! DEFINITION. The plain words of the device (R6, R7, R9): bytes, 32-bit registers, 64-bit counters. -/

namespace Sys2Proof

abbrev Byte := BitVec 8
abbrev Word := BitVec 32
abbrev DWord := BitVec 64

/-- A sparse table by number: unlisted numbers hold the default that the reader names. -/
abbrev Tab (α : Type) := List (Nat × α)

end Sys2Proof
end

