-- ==== Sys2Proof/Syntax.lean ====
section
/-! DEFINITION. The commands of the block: one constructor of Instr per row of spec/opcode_table.json, with the
operands the row's step needs. Numbers that the manual counts (halls, ports, pages, lengths) are Nat; words that
software writes are bit vectors. -/

namespace Sys2Proof

/-- A PCIe function: 0 is the physical function, 1 to 8 are virtual functions (R308). -/
abbrev Fn := Nat
/-- A doorbell page, 16 × (v − 1) + j (R145): it names one job of one partition. -/
abbrev Page := Nat

/-- A 64-byte descriptor as the Vestibule reads it from a ring (R150, Table 05-5), its OPCODE byte apart. -/
structure Desc where
  flags   : Byte
  rsv2    : Nat            -- bytes 2–3
  tag     : Word
  timeout : Nat
  rsv12   : Nat            -- bytes 12–15
  slots   : List Word      -- SLOT0–SLOT3
  body    : List Byte      -- bytes 32–63
deriving DecidableEq, Repr

/-- The two steps of a queue command's own row: submission of a descriptor (R173), and the work of the dispatched
command in the given ring slot. -/
inductive CmdStep where
  | submit (d : Desc)
  | work (slot : Nat)
deriving DecidableEq, Repr

/-- The two parts of the commit sequence (Table 05-14): steps 1–3 up to the open commit window, steps 4–5. -/
inductive CommitStep where
  | window
  | point
deriving DecidableEq, Repr

/-- The grant of the mutual-exclusion arbiter (R169): who won, and whether the loser came within 16 beats. -/
structure Arb where
  timer : Bool
  close : Bool
deriving DecidableEq, Repr

/-- Where an operation runs: the job's page, the ring slot of its RUN, and the physical hall. -/
structure Site where
  page : Page
  slot : Nat
  hall : Nat
deriving DecidableEq, Repr

/-- What the hardware's checks observed while an operation ran (an upset is an event, not a consequence of the data):
galleries whose witness comparison failed by a fault (R88), galleries in which a bay failed its parity once or twice (R80),
and the lane
whose residue check failed (R265). -/
structure Upset where
  mismatch : List Nat
  parity   : List (Nat × Bool)
  residue  : Option Nat
deriving DecidableEq, Repr

/-- The transfer header of a DATA frame (Table 07-5). -/
structure XHdr where
  kind    : Nat
  job     : Nat
  first   : Bool
  last    : Bool
  epoch   : Nat
  key     : Nat
  round   : Nat
  shard   : Nat
  node    : Nat
  offset  : Nat
  attempt : Nat
  code    : Nat
  reason  : Nat
deriving DecidableEq, Repr

/-- A frame on a port (Table 07-4, Table 09-11). `fcs` is the received CRC. -/
structure Frame where
  typ     : Nat
  vc      : Nat
  seq     : Nat            -- SEQ, or SB_OP of a SIDEBAND frame
  ackseq  : Nat
  crVc    : Nat
  crUnits : Nat
  dest    : Nat
  src     : Nat
  hopIdx  : Nat            -- bytes 16–17 as one number in a SIDEBAND frame's low byte
  hops    : Nat
  ports   : List Nat       -- outgoing port of each hop; SB_ID in a SIDEBAND frame is sbId
  ret     : List Nat       -- ingress port of each hop passed
  sbId    : Nat
  hdr     : Option XHdr
  payload : List Byte
  fcs     : Word
deriving DecidableEq, Repr

/-- A chain frame (Table 10-9) with its received CRC-16. -/
structure ChainFrame where
  typ     : Byte
  flags   : Byte
  dest    : BitVec 24
  src     : BitVec 24
  payload : List Byte
  crc     : BitVec 16
deriving DecidableEq, Repr

/-- A PCIe configuration request: a read, a write of the SR-IOV capability, or a write of a base address register (R308,
R309). -/
inductive CfgReq where
  | read (reg : Nat)
  | bar (reg : Nat) (v : Word)
  | sriov (numVFs : Nat) (enable : Bool)
deriving DecidableEq, Repr

/-- The arrays of a hall that MBIST runs over (R294). -/
inductive ArrayId where
  | galData (g : Nat)
  | galSide (g : Nat)
  | undercroftBank (b : Nat)
  | undercroftTags (b : Nat)
  | planStore
  | concourseBuffer (n : Nat)
  | retryBuffer (port : Nat)
  | newelLane (lane : Nat)
  | riserLane (lane : Nat)
deriving DecidableEq, Repr

/-- What a hall's MBIST, LBIST, stack training and power-up observe (R294 to R296): what they make of it is the test's rules. -/
structure HallTest where
  failing  : List (ArrayId × Nat) -- columns or rows of an array that fail after the factory repair
  misr     : DWord          -- signature of the common logic
  galMisr  : List DWord     -- signature of each gallery
  hbm      : Bool           -- the stack did not train or clear
  power    : Bool           -- a domain did not reach its level
deriving DecidableEq, Repr

/-- What the other leg says of itself beside its digest and its counters (R135, R279): its halls' committed sampler counters,
its STATE, and whether a queue of it is enabled. -/
structure LegWord where
  samplers : List DWord
  state    : Nat
  enabled  : Bool
deriving DecidableEq, Repr

/-- Porter's measurements of one 100 µs interval (R330, R331): target voltages in mV of the power and thermal ceilings,
the VCORE voltage and current that AVSBus reads back, the sensed voltages and temperatures. -/
structure Sensors where
  powerCeil   : Nat
  thermalCeil : Nat
  vcoreMv     : Nat
  vcoreMa     : Nat
  vsramMv     : Nat
  tjMax       : Int
  tjHall      : Nat
  hbmMax      : Int
  avsOk       : Bool
deriving DecidableEq, Repr

/-- One row of the table each. -/
inductive Instr where
  -- commands of a queue
  | run (q : Page) (st : CmdStep)
  | load (q : Page) (st : CmdStep)
  | planLoad (q : Page) (st : CmdStep)
  | store (q : Page) (st : CmdStep)
  | copy (q : Page) (st : CmdStep)
  | fence (q : Page) (st : CmdStep)
  | checkpoint (q : Page) (st : CmdStep)
  | gangReduceToOwner (q : Page) (st : CmdStep)
  | gangAllReduce (q : Page) (st : CmdStep)
  | gangGather (q : Page) (st : CmdStep)
  | gangBroadcast (q : Page) (st : CmdStep)
  -- dispatch, commit, doorbell pages
  | commandDispatch (q : Page)
  | commit (q : Page) (st : CommitStep)
  | semaphoreEarlyRelease (q : Page) (slot : Nat)
  | doorbell (fn : Fn) (q : Page) (v : Word)
  | cqHeadWrite (fn : Fn) (q : Page) (v : Word)
  | queueEnable (fn : Fn) (q : Page) (irqAll : Bool)
  | queueDisable (fn : Fn) (q : Page) (irqAll : Bool)
  | resume (fn : Fn) (q : Page) (enable irqAll : Bool)
  | drain (fn : Fn) (q : Page) (enable irqAll : Bool)
  | semaphoreTimeout (q : Page) (arb : Arb)
  | linkArrivalTimeout (q : Page) (slot : Nat) (arb : Arb)
  -- operations of a pass
  | bayload (at_ : Site) (u : Upset)
  | matpassL (at_ : Site) (u : Upset)
  | matpassWideSum (at_ : Site) (u : Upset)
  | matpassT (at_ : Site) (u : Upset)
  | matpassB (at_ : Site) (u : Upset)
  | eMul (at_ : Site) (u : Upset)
  | eDiv (at_ : Site) (u : Upset)
  | recip (at_ : Site) (u : Upset)
  | eSqrt (at_ : Site) (u : Upset)
  | rsqrt (at_ : Site) (u : Upset)
  | pow (at_ : Site) (u : Upset)
  | scale (at_ : Site) (u : Upset)
  | exp (at_ : Site) (u : Upset)
  | log2 (at_ : Site) (u : Upset)
  | ln (at_ : Site) (u : Upset)
  | abs (at_ : Site) (u : Upset)
  | neg (at_ : Site) (u : Upset)
  | eMax (at_ : Site) (u : Upset)
  | eMin (at_ : Site) (u : Upset)
  | cmpgt (at_ : Site) (u : Upset)
  | cmpeq (at_ : Site) (u : Upset)
  | func (at_ : Site) (u : Upset)
  | newelAdd (at_ : Site) (u : Upset)
  | newelMul (at_ : Site) (u : Upset)
  | fma (at_ : Site) (u : Upset)
  | newelDiv (at_ : Site) (u : Upset)
  | newelSqrt (at_ : Site) (u : Upset)
  | maximum (at_ : Site) (u : Upset)
  | minimum (at_ : Site) (u : Upset)
  | maxnum (at_ : Site) (u : Upset)
  | minnum (at_ : Site) (u : Upset)
  | cmp (at_ : Site) (u : Upset)
  | rowmax (at_ : Site) (u : Upset)
  | xent (at_ : Site) (u : Upset)
  | sample (at_ : Site) (u : Upset)
  | verify (at_ : Site) (u : Upset)
  | hold (at_ : Site) (u : Upset)
  | apply (at_ : Site) (u : Upset)
  | save (at_ : Site)
  | reblock (at_ : Site)
  | storeOperation (at_ : Site)
  | hbmcopy (at_ : Site)
  | hallwait (at_ : Site)
  | send (at_ : Site)
  | recv (at_ : Site)
  | pull (at_ : Site)
  | mezzRestore (at_ : Site)
  | reduceToRiserHold (at_ : Site)
  | reduceToOwnerRows (at_ : Site)
  | allReduce (at_ : Site)
  | normPacket (at_ : Site)
  -- link timers
  | deadlineExpiry (at_ : Site) (shard node : Nat) (arb : Arb)
  | unanswered (hall : Nat) (job : Nat) (key round shard node : Nat) (kind : Nat)
  | downValueTimeout (at_ : Site)
  | holdResend (hall : Nat) (job : Nat) (key round shard node : Nat) (kind : Nat)
  -- frames
  | frameTransmit (hall port : Nat)
  | dataFrame (hall port : Nat) (f : Frame)
  | lack (hall port : Nat) (f : Frame)
  | lnak (hall port : Nat) (f : Frame)
  | credit (hall port : Nat) (f : Frame)
  | ackseqReport (hall port : Nat)
  | transitForward (hall port : Nat)
  -- transfers taken from a receive buffer
  | push (hall port : Nat)
  | pullreq (hall port : Nat)
  | pulldata (hall port : Nat)
  | up (hall port : Nat)
  | down (hall port : Nat)
  | receipt (hall port : Nat)
  | mezz (hall port : Nat)
  | mezzreq (hall port : Nat)
  | mezzdata (hall port : Nat)
  -- Scissor
  | digestCommit (hall port : Nat)
  | digestAlive (hall port : Nat)
  | aliveSend (v : Fn)
  | digestPropose (hall port : Nat) (taken : Bool)
  | digestAnswer (hall port : Nat)
  | digestRelay (hall port : Nat)
  | digestRetire (hall port : Nat)
  | digestPause (hall port : Nat)
  | scissorSilence (v : Fn)
  | relayTimeout (hall : Nat) (job : Nat) (key round shard node : Nat) (kind : Nat)
  -- sideband and cabling check
  | sidebandFreeze (hall port : Nat) (f : Frame)
  | sidebandThaw (hall port : Nat) (f : Frame)
  | echoReq (hall port : Nat) (f : Frame)
  | echoReply (hall port : Nat) (f : Frame)
  | echoTimeout
  | echoGo (fn : Fn) (port : BitVec 6)
  -- ports
  | laneDegrade (hall port : Nat) (lane : Nat)
  | portRetrainComplete (hall port : Nat) (lanes : Byte) (peerAck : Nat)
  | retrain (fn : Fn) (hall port : Nat) (holdDown : Bool)
  | holdDown (fn : Fn) (hall port : Nat) (on : Bool)
  -- slices
  | sliceEnd (v : Fn)
  | overrunWatchdog (v : Fn)
  | commitWindowOverrun (q : Page) (hall : Nat)
  -- faults
  | hallLoss (hall : Nat)
  | hbmUncorrectableError (hall : Nat) (addr : Nat)
  | hbmInterfaceError (hall : Nat) (target : Nat)
  | undercroftEccError (hall : Nat) (row : Nat) (corrected : Bool)
  | patrolScrub (hall : Nat) (granule : Nat) (flipped : Nat)
  | hbmConcWindow (hall : Nat) (counts : List Nat)
  -- power
  | vcoreCeilingUpdate (m : Sensors)
  | throttleN (low : Bool)
  | supplyThermalTrip (cause : Nat)
  | powerOn
  | sysResetN (high : Bool)
  | perst (high : Bool)
  | pfFlr (hot : Bool)
  | vfFlr (v : Fn)
  -- self-test, configuration, identity
  -- how far a reset's self-test has come (Table 10-2): the outcome of the shared blocks (step 6), then that of the next pair of
  -- halls (step 8, the lower hall first); with neither, its end (step 9)
  | selftestComplete (sharedOk : Option Bool) (halls : Option (HallTest × HallTest))
  | selftestGo (fn : Fn) (halls : Byte)
  -- a test of one hall: it ends with a result; with none, Porter starts its own of a hall that it suspects
  | hallTestComplete (hall : Nat) (r : Option HallTest)
  | configRequest (fn : Fn) (r : CfgReq)
  | spdmRequest (code : Nat) (param : List Byte)
  -- management chain
  | walk (f : ChainFrame)
  | chainRead (f : ChainFrame)
  | chainWrite (f : ChainFrame)
  | chainReset (f : ChainFrame)
  | chainForward (f : ChainFrame)
  -- keys
  | keyProvision (fn : Fn)
  | keyRevoke (fn : Fn)
  | keyRaiseMin (fn : Fn)
  -- freeze and window
  | freeze (fn : Fn) (scope pinScope sbAccept : Bool)
  | freezeNFall
  | freezeNRise
  | thaw (fn : Fn) (scope pinScope sbAccept : Bool)
  | freezeComplete
  | rdwinDataRead (fn : Fn)
  | counterLowRead (fn : Fn) (off : Nat)
  | bar2Access (fn : Fn) (off : Nat) (wr : Option (List Byte)) (len : Nat)
  -- binding, jobs, control registers
  | bound (fn v : Fn) (base : BitVec 3) (size : BitVec 2)
  | rekey (fn v : Fn) (base : BitVec 3) (size : BitVec 2)
  | bindingTakesEffect (v : Fn)
  | unbind (fn v : Fn)
  | retire (fn v : Fn)
  | solo (fn v : Fn)
  | rejoin (fn v : Fn)
  | residentSet (fn : Fn) (q : Page) (wcommon : Bool)
  | residentClear (fn : Fn) (q : Page) (wcommon : Bool)
  | epochWrite (fn : Fn) (hall job : Nat) (epoch : BitVec 16)
  | mezzEnable (fn : Fn) (hall : Nat) (peerHall : BitVec 3) (peerAddr : BitVec 18)
  | planBankSwap (v : Fn)
  | invalidRegisterAccess (fn : Fn) (off width : Nat) (wr : Option Word)
  | registerWrite (fn : Fn) (off : Nat) (v : Word)
  | pairingDigest (v : Fn) (digest record : List Byte) (steps : List DWord) (riser : List DWord) (leg : LegWord)
deriving DecidableEq, Repr

end Sys2Proof
end

