-- ==== Sys2Proof/Decode.lean ====
section
/-! DEFINITION. The block has no encoding of its own commands: no row of the opcode table has bits, so that no word
spells a command. -/

namespace Sys2Proof

/-- The command that a word spells by the table's bits: the table gives no row any. -/
def decodeTableWord (_nbits _w : Nat) : Option Instr := none

end Sys2Proof
end

