-- ==== Sys2Proof/Config.lean ====
section
/-! DEFINITION. Values the manual leaves to the implementation (fuses, keys, mask ROM) and free values.
Every constant here is opaque: no proof can lean on its value. -/

namespace Sys2Proof.Config

/-- A fresh unconstrained byte for each value of the state's free-value counter (log 2). -/
opaque freeByte : Nat → Byte
/-- A fresh unconstrained number, for choices the manual leaves open (log 2). -/
opaque freeNat : Nat → Nat
/-- The interleave key Porter draws, per draw (R102). -/
opaque interleaveKey : Nat → DWord × DWord
/-- The key-command nonce Porter draws, per draw (R305). -/
opaque nonce : Nat → DWord
/-- The 64-bit unique identifier in fuses (R304). -/
opaque devid : DWord
/-- SHA-384 digest of Nimdulo's plan key in slot 0 as shipped (R305). -/
opaque nimduloKeyDigest : List Byte
/-- Library digest in mask ROM of the function table with this LIBID (R115). -/
opaque libraryDigest : Nat → List Byte
/-- SHA-384 of Porter's mask ROM, the first SPDM measurement (R304). -/
opaque maskRomDigest : List Byte
/-- Body of an SPDM answer that DMTF's specification, not the manual, lays out (R304), by request code and parameters. -/
opaque spdmBody : Nat → List Byte → List Byte
/-- Which value XENT gives on a binary32 row with this index, among those that its roundings leave open (Table 09-3). -/
opaque xent32 : List Word → Nat → Word
/-- The same on a binary64 row. -/
opaque xent64 : List DWord → Nat → DWord
/-- Which binary32 number a bias correction 1 − c^t of AdamW is, among those that the evaluation in FP64 leaves open (R199). -/
opaque biasStep : Word → Nat → Nat
/-- Which of several equally loaded interleave targets TARGET names (R104). -/
opaque tieTarget : List Nat → Nat
/-- Result of an E-mode or Newel case, or element of a source beyond its tensor, to which the manual gives no value, by operation code and operands. -/
opaque openWord : Nat → List Word → Word
/-- A fresh unconstrained 32-bit word (elements of a result row that the manual does not state). -/
opaque freeWord : Nat → Word

/-- A word of configuration space that the manual leaves to the implementation (R308), by function and byte offset. -/
opaque cfgWord : Nat → Nat → Word
/-- Bytes of the key-slot fuses whose digest is the second SPDM measurement (R304), from what the slots hold. -/
opaque fuseImage : List (Bool × Bool × Nat × List Byte) → List Byte
/-- A burned fuse reads back (R306, ERR_SEC_FUSE), per burn. -/
opaque fuseOk : Nat → Bool

/-- A word of configuration space's extended capabilities that PCI-SIG's specifications lay out (R308), by function and offset. -/
opaque capWord : Nat → Nat → Word
/-- The LBIST generator after a number of patterns from a seed: R295 gives its width, not its polynomial. -/
opaque prpgAfter : DWord → Nat → DWord
/-- The LBIST seed in fuses (R295). -/
opaque lbistSeed : DWord
/-- The expected signature of a hall's common logic (R295). -/
opaque commonMisr : DWord
/-- The expected signature of a gallery (R295). -/
opaque galleryMisr : DWord
/-- Spares that the factory repair used, by hall and array (R294). -/
opaque factoryRepair : List (Nat × ArrayId × Nat)
/-- The private half of the device's identity key (R304). -/
opaque identityPrivate : List Byte
/-- Its public half, X then Y. -/
opaque identityPublic : List Byte
/-- The X.509 chain that certifies it (R304). -/
opaque certChain : List Byte
/-- An ECDSA P-384 signature with SHA-384 by a private key over a message; its random number is the signer's (R304). -/
opaque ecdsaSign : List Byte → List Byte → List Byte

end Sys2Proof.Config
end

