-- ==== Sys2Proof/Machine/Bits.lean ====
section
/-! DEFINITION. Byte order (R7), bit fields, sign extension, and the two rounding rules of 01_log_formats.md. -/

namespace Sys2Proof.Machine

/-- Little-endian value of a byte list (R7). -/
def leNat : List Byte → Nat
  | [] => 0
  | b :: r => b.toNat + 256 * leNat r

/-- The `len` little-endian bytes of n. -/
def natLE : Nat → Nat → List Byte
  | _, 0 => []
  | n, len + 1 => BitVec.ofNat 8 n :: natLE (n / 256) len

/-- Big-endian value of a byte list (R108). -/
def beNat (l : List Byte) : Nat := leNat l.reverse

def bytesAt (l : List Byte) (off len : Nat) : List Byte := (l.drop off).take len
def u8 (l : List Byte) (off : Nat) : Nat := leNat (bytesAt l off 1)
def u16 (l : List Byte) (off : Nat) : Nat := leNat (bytesAt l off 2)
def u32 (l : List Byte) (off : Nat) : Nat := leNat (bytesAt l off 4)
def u64 (l : List Byte) (off : Nat) : Nat := leNat (bytesAt l off 8)

/-- Field [lo + w − 1 : lo] of n (R6). -/
def fld (n lo w : Nat) : Nat := n / 2 ^ lo % 2 ^ w
def bit (n i : Nat) : Bool := n / 2 ^ i % 2 == 1

/-- Two's-complement value of a w-bit field. -/
def sext (w n : Nat) : Int := if n < 2 ^ (w - 1) then (n : Int) else (n : Int) - (2 ^ w : Nat)

/-- Two's-complement w-bit field of an integer. -/
def tc (w : Nat) (i : Int) : Nat := (i % (2 ^ w : Nat)).toNat

def allZero (l : List Byte) : Bool := l.all (· == 0)

/-- Saturating count at `top`. -/
def satAdd (top a b : Nat) : Nat := min top (a + b)

def ceilDiv (a b : Nat) : Nat := (a + b - 1) / b
def roundUp (a b : Nat) : Nat := ceilDiv a b * b

def clampI (lo hi x : Int) : Int := max lo (min hi x)

/-- q | 1 on a two's-complement integer. -/
def odd (q : Int) : Int := if q % 2 = 0 then q + 1 else q

/-- t / 2^n rounded to odd (01, Rounding). -/
def rto (t : Int) (n : Nat) : Int :=
  let q := t / (2 ^ n : Nat)
  if q * (2 ^ n : Nat) = t then q else odd q

/-- t / d rounded to nearest, ties to even, for d > 0. -/
def rneDiv (t : Int) (d : Nat) : Int :=
  let q := t / (d : Int)
  let r := t - q * d
  if 2 * r > d ∨ (2 * r = d ∧ q % 2 = 1) then q + 1 else q

/-- t / 2^n rounded to nearest, ties to even (01, Rounding). -/
def rne (t : Int) (n : Nat) : Int := rneDiv t (2 ^ n)

/-- n^(2^k), by k squarings. -/
def sqN : Nat → Nat → Nat
  | 0, n => n
  | k + 1, n => sqN k (n * n)

/-- ⌊log2 n⌋ for 1 ≤ n < 2^(2^k), by halving the range. -/
def log2By : Nat → Nat → Nat
  | 0, _ => 0
  | k + 1, n => if n < 2 ^ 2 ^ k then log2By k n else 2 ^ k + log2By k (n / 2 ^ 2 ^ k)

/-- ⌊log2 n × 2^k⌋ for n ≥ 1: the binary length of n^(2^k). -/
def log2Floor (k n : Nat) : Nat := log2By (k + Nat.log2 (Nat.log2 n) + 1) (sqN k n)

def isPow2 (n : Nat) : Bool := n == 2 ^ Nat.log2 n

/-- rto_real(log2(n × 2^e) × 2^k), n ≥ 1 (log2 is irrational for every n that is no power of two). -/
def rtoLog2 (k n : Nat) (e : Int) : Int :=
  let q := (log2Floor k n : Int) + e * (2 ^ k : Nat)
  if isPow2 n then q else odd q

/-- log2(n × 2^e) × 2^k rounded to the nearest integer (no tie arises). -/
def rneLog2 (k n : Nat) (e : Int) : Int :=
  if isPow2 n then (Nat.log2 n : Int) * (2 ^ k : Nat) + e * (2 ^ k : Nat)
  else ((log2Floor (k + 1) n : Int) + 1) / 2 + e * (2 ^ k : Nat)

/-- ⌊2^p × 2^(f / 2^k)⌋ for 0 ≤ f < 2^k, one bit at a time: c^(2^k) < 2^(p 2^k + f) decides each bit. -/
def pow2Mant (k p f : Nat) : Nat :=
  if f = 0 then 2 ^ p
  else (List.range p).foldl
    (fun x i => let c := x + 2 ^ (p - 1 - i)
                if log2Floor k c < p * 2 ^ k + f then c else x) (2 ^ p)

end Sys2Proof.Machine
end

