-- ==== Sys2Proof/Machine/Crypto.lean ====
section
/-! DEFINITION. Digests and signatures the manual names by their standards: SHA-384 and ECDSA over P-384 (R108, R109),
the CRCs of frames (R211, R239, R298), and the counter-based generators (R130). -/

namespace Sys2Proof.Machine

/-! ### SHA-384 -/

/-- The largest r below 2^n with r^e ≤ x, bit by bit from the top; `r` holds the bits found so far. -/
def rootFrom (e x : Nat) : Nat → Nat → Nat
  | 0, r => r
  | n + 1, r => rootFrom e x n (if (r + 2 ^ n) ^ e ≤ x then r + 2 ^ n else r)

/-- The first 64 bits of the fraction of the e-th root of p, for p below 512. -/
def rootFrac (e p : Nat) : DWord := BitVec.ofNat 64 (rootFrom e (p * 2 ^ (64 * e)) 69 0)

/-- The primes below 410: the first eighty. -/
def smallPrimes : List Nat :=
  (List.range' 2 408).filter fun n => (List.range' 2 19).all fun d => n % d != 0 || n == d

/-- The round constants come from the cube roots of the first eighty primes, the initial digest from the square roots of the
ninth to the sixteenth (FIPS 180-4). -/
def shaConsts : List DWord := smallPrimes.map (rootFrac 3)
def shaStart : List DWord := ((smallPrimes.drop 8).take 8).map (rootFrac 2)

/-- The exclusive or of rotations of a word to the right by each amount. -/
def spins (x : DWord) (ns : List Nat) : DWord := ns.foldl (fun y n => y ^^^ x.rotateRight n) 0

/-- The word that follows sixteen words of the schedule. -/
def shaNext (w : List DWord) : DWord :=
  let at_ := fun (i : Nat) => w.getD i 0
  at_ 0 + at_ 9 + (spins (at_ 1) [1, 8] ^^^ (at_ 1 >>> 7)) + (spins (at_ 14) [19, 61] ^^^ (at_ 14 >>> 6))

/-- One round on the eight working words, with its constant and schedule word added up in `x`. -/
def shaTurn (x : DWord) (v : List DWord) : List DWord :=
  let at_ := fun (i : Nat) => v.getD i 0
  let choice := at_ 6 ^^^ (at_ 4 &&& (at_ 5 ^^^ at_ 6))
  let major := (at_ 0 &&& (at_ 1 ||| at_ 2)) ||| (at_ 1 &&& at_ 2)
  let up := x + at_ 7 + choice + spins (at_ 4) [14, 18, 41]
  (up + major + spins (at_ 0) [28, 34, 39]) :: (v.take 3 ++ (at_ 3 + up) :: (v.drop 4).take 3)

/-- The rounds of a block: the schedule moves on by one word a round. -/
def shaRounds : List DWord → List DWord → List DWord → List DWord
  | [], _, v => v
  | k :: ks, w, v => shaRounds ks (w.drop 1 ++ [shaNext w]) (shaTurn (k + w.headD 0) v)

/-- Blocks of a padded message, `n` of them: each is folded into the digest so far. -/
def shaBlocks : Nat → List Byte → List DWord → List DWord
  | 0, _, h => h
  | n + 1, m, h =>
    let w := (List.range 16).map fun i => BitVec.ofNat 64 (beNat (bytesAt m (8 * i) 8))
    shaBlocks n (m.drop 128) (List.zipWith (fun a b => a + b) h (shaRounds shaConsts w h))

/-- SHA-384 of a message: a one bit, zeros and the 128-bit length fill its last block; six words of the digest count. -/
def sha384 (m : List Byte) : List Byte :=
  let n := (m.length + 17 + 127) / 128
  let zeros := 128 * n - 17 - m.length
  let padded := m ++ 0x80 :: List.replicate zeros 0 ++ (natLE (8 * m.length) 16).reverse
  ((shaBlocks n padded shaStart).take 6).flatMap fun w => (natLE w.toNat 8).reverse

/-! ### ECDSA over P-384 (FIPS 186-5) -/

def p384P : Nat := 2 ^ 384 - 2 ^ 128 - 2 ^ 96 + 2 ^ 32 - 1
def p384B : Nat := 0xb3312fa7e23ee7e4988e056be3f82d19181d9c6efe8141120314088f5013875ac656398d8a2ed19d2a85c8edd3ec2aef
def p384N : Nat := 0xffffffffffffffffffffffffffffffffffffffffffffffffc7634d81f4372ddf581a0db248b0a77aecec196accc52973
def p384G : Nat × Nat := (0xaa87ca22be8b05378eb1c71ef320ad746e1d3b628ba79b9859f741e082542a385502f25dbf55296c3a545e3872760ab7,
  0x3617de4a96262c6f5d9e98bf9292dc29f8f41dbd289a147ce9da3113b5f0b8c00a60b1ce1d7e819d7a431d7c90ea0e5f)

/-- b^e mod m over the low `fuel` bits of e. -/
def powMod (m : Nat) : Nat → Nat → Nat → Nat
  | 0, _, _ => 1 % m
  | fuel + 1, b, e =>
    let r := powMod m fuel (b * b % m) (e / 2)
    if e % 2 = 1 then b * r % m else r

def invMod (m a : Nat) : Nat := powMod m 384 (a % m) (m - 2)

/-- Affine point addition; none is the point at infinity. -/
def p384Add (a b : Option (Nat × Nat)) : Option (Nat × Nat) :=
  match a, b with
  | none, b => b
  | a, none => a
  | some (x1, y1), some (x2, y2) =>
    let P := p384P
    if x1 = x2 ∧ (y1 + y2) % P = 0 then none
    else
      let l := if x1 = x2 then (3 * x1 * x1 + P - 3) % P * invMod P (2 * y1) % P
               else (y2 + P - y1) % P * invMod P (x2 + P - x1) % P
      let x3 := (l * l + 2 * P - x1 - x2) % P
      some (x3, (l * (x1 + P - x3) + P - y1) % P)

def p384Mul : Nat → Nat → Option (Nat × Nat) → Option (Nat × Nat)
  | 0, _, _ => none
  | fuel + 1, k, a =>
    let r := p384Mul fuel (k / 2) (p384Add a a)
    if k % 2 = 1 then p384Add a r else r

def p384OnCurve (x y : Nat) : Bool :=
  x < p384P && y < p384P && (y * y) % p384P == (x * x * x + 3 * (p384P - x) + p384B) % p384P

/-- The signature (r, s) over the SHA-384 of a message verifies under the public key (x, y). -/
def ecdsaVerify (x y r s : Nat) (digest : List Byte) : Bool :=
  let N := p384N
  if r = 0 || r ≥ N || s = 0 || s ≥ N || !p384OnCurve x y then false
  else
    let w := invMod N s
    match p384Add (p384Mul 384 (beNat digest * w % N) (some p384G)) (p384Mul 384 (r * w % N) (some (x, y))) with
    | none => false
    | some (vx, _) => vx % N == r

/-! ### CRCs -/

/-- One byte into an unreflected CRC of width w. -/
def crcByte (w poly : Nat) (crc : Nat) (b : Byte) : Nat :=
  (List.range 8).foldl (fun c _ =>
    if bit c (w - 1) then (2 * c % 2 ^ w) ^^^ poly else 2 * c % 2 ^ w) (crc ^^^ (b.toNat * 2 ^ (w - 8)))

/-- R239: CRC-64, ECMA-182 polynomial, initial value zero, no reflection, no final XOR. -/
def crc64 (m : List Byte) : DWord := BitVec.ofNat 64 (m.foldl (crcByte 64 0x42F0E1EBA9EA3693) 0)

/-- R298: CRC-16, polynomial 0x1021, initial value 0xFFFF. -/
def crc16 (m : List Byte) : BitVec 16 := BitVec.ofNat 16 (m.foldl (crcByte 16 0x1021) 0xFFFF)

/-- R211: the IEEE 802.3 frame check sequence. -/
def crc32 (m : List Byte) : Word :=
  BitVec.ofNat 32 ((m.foldl (fun c (b : Byte) =>
    (List.range 8).foldl (fun c _ => if c % 2 = 1 then (c / 2) ^^^ 0xEDB88320 else c / 2) (c ^^^ b.toNat))
    0xFFFFFFFF) ^^^ 0xFFFFFFFF)

/-! ### Generators (R129, R130) -/

def mix64 (x : DWord) : DWord :=
  let x := (x ^^^ (x >>> 31)) * 0x9E3779B97F4A7C15
  let x := (x ^^^ (x >>> 29)) * 0xD6E8FEB86659FD93
  x ^^^ (x >>> 32)

def genKey (m : List DWord) (phys : DWord) : DWord :=
  let b := mix64 (m.getD 0 0)
  let b := mix64 (b ^^^ m.getD 1 0)
  let b := mix64 (b ^^^ m.getD 2 0)
  let b := mix64 (b ^^^ m.getD 3 0)
  mix64 (b ^^^ phys)

def genWord (key salt ctr : DWord) : DWord := mix64 (mix64 (key + ctr * 0x9E3779B97F4A7C15) ^^^ salt)

/-- PHYS of R129: chain address, physical hall, unit class, unit index. -/
def genPhys (chain hall cls idx : Nat) : DWord :=
  BitVec.ofNat 64 (chain * 2 ^ 40 + hall * 2 ^ 37 + cls * 2 ^ 32 + idx)

/-- The mixing function of the keyed interleave (R101): 5 bits. -/
def interleave (k : DWord × DWord) (u : Nat) : Nat :=
  let h := (BitVec.ofNat 64 u ^^^ k.1) * 0x9E3779B97F4A7C15
  let h := h ^^^ (h >>> 31)
  let h := (h + k.2) * 0xD6E8FEB86659FD93
  (h >>> 59).toNat

/-- R101: the interleave target of a granule. -/
def granuleTarget (k : DWord × DWord) (g : Nat) : Nat := (g % 32) ^^^ interleave k (g / 32)

end Sys2Proof.Machine
end

