-- ==== Sys2Proof/Machine/Float.lean ====
section
/-! DEFINITION. IEEE 754-2019 binary32 and binary64 on their bit patterns, with rounding to nearest even and to odd. -/

namespace Sys2Proof.Machine

/-- A binary format: precision with the hidden bit, and exponent field width. -/
structure FpFmt where
  prec  : Nat
  ebits : Nat
deriving DecidableEq, Repr

def b32 : FpFmt := ⟨24, 8⟩
def b64 : FpFmt := ⟨53, 11⟩

def FpFmt.bias (F : FpFmt) : Nat := 2 ^ (F.ebits - 1) - 1
/-- Exponent of the unit in the last place of the subnormals. -/
def FpFmt.qmin (F : FpFmt) : Int := 2 - (F.bias : Int) - F.prec
def FpFmt.infBits (F : FpFmt) : Nat := (2 ^ F.ebits - 1) * 2 ^ (F.prec - 1)
def FpFmt.signBit (F : FpFmt) : Nat := 2 ^ (F.ebits + F.prec - 1)
def FpFmt.nan (F : FpFmt) : Nat := F.infBits + 2 ^ (F.prec - 2)

/-- An exact value: (−1)^s × m × 2^e, an infinity, or NaN. -/
inductive Fp where
  | nan
  | inf (s : Bool)
  | fin (s : Bool) (m : Nat) (e : Int)
deriving DecidableEq, Repr

inductive Rm where
  | rne
  | rto
deriving DecidableEq, Repr

def FpFmt.withSign (F : FpFmt) (s : Bool) (n : Nat) : Nat := if s then n + F.signBit else n

def FpFmt.dec (F : FpFmt) (x : Nat) : Fp :=
  let s := bit x (F.ebits + F.prec - 1)
  let ex := fld x (F.prec - 1) F.ebits
  let fr := fld x 0 (F.prec - 1)
  if ex = 2 ^ F.ebits - 1 then (if fr = 0 then .inf s else .nan)
  else if ex = 0 then .fin s fr F.qmin
  else .fin s (fr + 2 ^ (F.prec - 1)) (F.qmin + ex - 1)

/-- Round (−1)^s × m × 2^e into the format; a magnitude of 2^(emax+1) or more after rounding is an infinity. -/
def FpFmt.rnd (F : FpFmt) (rm : Rm) (s : Bool) (m : Nat) (e : Int) : Nat :=
  if m = 0 then F.withSign s 0
  else
    let q := max ((Nat.log2 m : Int) + e - (F.prec - 1)) F.qmin
    let f : Nat :=
      if q ≤ e then m * 2 ^ (e - q).toNat
      else match rm with
        | .rne => (rne m (q - e).toNat).toNat
        | .rto => (rto m (q - e).toNat).toNat
    let n : Nat := if f < 2 ^ (F.prec - 1) then f
      else (q - F.qmin).toNat * 2 ^ (F.prec - 1) + f
    F.withSign s (min n F.infBits)

/-- Encode an exact value. -/
def FpFmt.enc (F : FpFmt) (rm : Rm) : Fp → Nat
  | .nan => F.nan
  | .inf s => F.withSign s F.infBits
  | .fin s m e => F.rnd rm s m e

def Fp.neg : Fp → Fp
  | .nan => .nan
  | .inf s => .inf (!s)
  | .fin s m e => .fin (!s) m e

def Fp.abs : Fp → Fp
  | .nan => .nan
  | .inf _ => .inf false
  | .fin _ m e => .fin false m e

def sgnI (s : Bool) (m : Nat) : Int := if s then -(m : Int) else m

def Fp.isZero : Fp → Bool
  | .fin _ 0 _ => true
  | _ => false
def Fp.isNan : Fp → Bool
  | .nan => true
  | _ => false
def Fp.isInf : Fp → Bool
  | .inf _ => true
  | _ => false
def Fp.isFin : Fp → Bool
  | .fin .. => true
  | _ => false
def Fp.sign : Fp → Bool
  | .nan => false
  | .inf s => s
  | .fin s _ _ => s

/-- Exact sum; the sign of a zero sum is that of round-to-nearest. -/
def Fp.add : Fp → Fp → Fp
  | .nan, _ => .nan
  | _, .nan => .nan
  | .inf s, .inf t => if s = t then .inf s else .nan
  | .inf s, _ => .inf s
  | _, .inf t => .inf t
  | .fin s m e, .fin t n f =>
    let g := min e f
    let v := sgnI s (m * 2 ^ (e - g).toNat) + sgnI t (n * 2 ^ (f - g).toNat)
    if v = 0 then .fin (s && t) 0 g else .fin (v < 0) v.natAbs g

def Fp.mul : Fp → Fp → Fp
  | .nan, _ => .nan
  | _, .nan => .nan
  | .inf s, y => if y.isZero then .nan else .inf (s ^^ y.sign)
  | x, .inf t => if x.isZero then .nan else .inf (x.sign ^^ t)
  | .fin s m e, .fin t n f => .fin (s ^^ t) (m * n) (e + f)

def Fp.sub (a b : Fp) : Fp := a.add b.neg

/-- Compare exact values: none when unordered. -/
def Fp.cmp : Fp → Fp → Option Ordering
  | .nan, _ => none
  | _, .nan => none
  | .inf s, .inf t => some (if s = t then .eq else if s then .lt else .gt)
  | .inf s, _ => some (if s then .lt else .gt)
  | _, .inf t => some (if t then .gt else .lt)
  | .fin s m e, .fin t n f =>
    let g := min e f
    some (compare (sgnI s (m * 2 ^ (e - g).toNat)) (sgnI t (n * 2 ^ (f - g).toNat)))

/-- Exact comparison that is false when unordered. -/
def Fp.lt (a b : Fp) : Bool := a.cmp b == some .lt
def Fp.le (a b : Fp) : Bool := a.cmp b == some .lt || a.cmp b == some .eq
def Fp.eq (a b : Fp) : Bool := a.cmp b == some .eq

namespace FpFmt
variable (F : FpFmt)

def add (rm : Rm) (x y : Nat) : Nat := F.enc rm ((F.dec x).add (F.dec y))
def sub (rm : Rm) (x y : Nat) : Nat := F.enc rm ((F.dec x).sub (F.dec y))
def mul (rm : Rm) (x y : Nat) : Nat := F.enc rm ((F.dec x).mul (F.dec y))

/-- fusedMultiplyAdd: a × b + c, rounded once. -/
def fma (rm : Rm) (a b c : Nat) : Nat := F.enc rm (((F.dec a).mul (F.dec b)).add (F.dec c))

/-- Division; the quotient keeps two bits below the format and a sticky bit. -/
def div (rm : Rm) (x y : Nat) : Nat :=
  match F.dec x, F.dec y with
  | .nan, _ => F.nan
  | _, .nan => F.nan
  | .inf s, .inf _ => let _ := s; F.nan
  | .inf s, .fin t _ _ => F.withSign (s ^^ t) F.infBits
  | .fin s _ _, .inf t => F.withSign (s ^^ t) 0
  | .fin s m e, .fin t n f =>
    if n = 0 then (if m = 0 then F.nan else F.withSign (s ^^ t) F.infBits)
    else
      let k := Nat.log2 n + F.prec + 3
      let q := m * 2 ^ k / n
      let st := if m * 2 ^ k % n = 0 then 0 else 1
      F.rnd rm (s ^^ t) (2 * q + st) (e - f - k - 1)

/-- Square root with two bits below the format and a sticky bit. -/
def sqrt (rm : Rm) (x : Nat) : Nat :=
  match F.dec x with
  | .nan => F.nan
  | .inf s => if s then F.nan else F.infBits
  | .fin s m e =>
    if m = 0 then F.withSign s 0
    else if s then F.nan
    else
      let k := 2 * (F.prec + 3)
      let k := if (e - k) % 2 = 0 then k else k + 1
      let r := Nat.sqrt (m * 2 ^ k)
      let st := if r * r = m * 2 ^ k then 0 else 1
      F.rnd rm false (2 * r + st) ((e - k) / 2 - 1)

/-- IEEE maximum: NaN propagates, −0 < +0. -/
def maximum (x y : Nat) : Nat :=
  match (F.dec x).cmp (F.dec y) with
  | none => F.nan
  | some .lt => y
  | some .gt => x
  | some .eq => if (F.dec x).sign then y else x

def minimum (x y : Nat) : Nat :=
  match (F.dec x).cmp (F.dec y) with
  | none => F.nan
  | some .lt => x
  | some .gt => y
  | some .eq => if (F.dec x).sign then x else y

/-- IEEE maximumNumber: a NaN operand is missing data. -/
def maxNum (x y : Nat) : Nat :=
  if (F.dec x).isNan then (if (F.dec y).isNan then F.nan else y)
  else if (F.dec y).isNan then x else F.maximum x y

def minNum (x y : Nat) : Nat :=
  if (F.dec x).isNan then (if (F.dec y).isNan then F.nan else y)
  else if (F.dec y).isNan then x else F.minimum x y

end FpFmt

/-- FP32 and FP64 to one another (Table 01-11); both canonicalise NaN. -/
def f32to64 (x : Nat) : Nat := b64.enc .rne (b32.dec x)
def f64to32 (rm : Rm) (x : Nat) : Nat := b32.enc rm (b64.dec x)

/-- +0.0 and 1.0 in binary32. -/
def f32one : Nat := 0x3F800000

end Sys2Proof.Machine
end

