-- ==== Sys2Proof/Machine/WForm.lean ====
section
/-! DEFINITION. The stored formats, the W-form and every conversion (01_log_formats.md, R15 to R43, R352). -/

namespace Sys2Proof.Machine

/-- Classes of a W-form value (Table 01-7). -/
inductive WCls where
  | zero
  | fin
  | inf
  | nan
deriving DecidableEq, Repr

/-- A W-form value: sign, class, and log2 of the magnitude in units of 2^−14 octave (R22). -/
structure W where
  cls : WCls
  s   : Bool
  log : Int
deriving DecidableEq, Repr

namespace W
def zero : W := ⟨.zero, false, 0⟩
def nan : W := ⟨.nan, false, 0⟩
def inf (s : Bool) : W := ⟨.inf, s, 0⟩
def one : W := ⟨.fin, false, 0⟩
/-- The canonical values of R22. -/
def canonical (w : W) : Bool :=
  match w.cls with
  | .fin => -2097152 ≤ w.log && w.log ≤ 2097151
  | .inf => w.log == 0
  | .zero => !w.s && w.log == 0
  | .nan => !w.s && w.log == 0
/-- The 32-bit notation of R22. -/
def bits (w : W) : Nat :=
  (if w.s then 2 ^ 24 else 0) + (match w.cls with | .zero => 0 | .fin => 1 | .inf => 2 | .nan => 3) * 2 ^ 22
    + tc 22 w.log
/-- A 25-bit W-form constant (Table 01-7), made canonical. -/
def ofBits (n : Nat) : W :=
  match fld n 22 2 with
  | 0 => zero
  | 1 => ⟨.fin, bit n 24, sext 22 (fld n 0 22)⟩
  | 2 => inf (bit n 24)
  | _ => nan
end W

/-- R23: the range of the finite class. -/
def wFinite (s : Bool) (t : Int) : W :=
  if t > 2097151 then W.inf s else if t < -2097152 then W.zero else ⟨.fin, s, t⟩

/-- FMT codes (Table 01-1). -/
abbrev fmtZL8 : Nat := 1
abbrev fmtZL16 : Nat := 2
abbrev fmtZT2 : Nat := 3
abbrev fmtZI4 : Nat := 4
abbrev fmtZI8 : Nat := 5
abbrev fmtZI16 : Nat := 6
abbrev fmtRem : Nat := 7
abbrev fmtFP32 : Nat := 8
abbrev fmtFP64 : Nat := 9

def fmtReserved (f : Nat) : Bool := f = 0 || f > 9
def fmtIsZI (f : Nat) : Bool := f = fmtZI4 || f = fmtZI8 || f = fmtZI16
def fmtIsZL (f : Nat) : Bool := f = fmtZL8 || f = fmtZL16
def fmtGallery (f : Nat) : Bool := 1 ≤ f && f ≤ 6
/-- Bits of one element. -/
def fmtBits (f : Nat) : Nat :=
  if f = fmtZT2 then 2 else if f = fmtZI4 then 4 else if f = fmtZL8 || f = fmtZI8 || f = fmtRem then 8
  else if f = fmtZL16 || f = fmtZI16 then 16 else if f = fmtFP32 then 32 else 64

/-- The tensor format word (Table 01-8). -/
structure FmtWord where
  fmt    : Nat
  block  : Nat
  plane  : Bool
  side   : Bool
  sat    : Bool
  role   : Nat
  matrix : Bool
  derive_ : Bool
  rsv    : Nat
  coarse : Int
  outthr : Int
deriving DecidableEq, Repr

def FmtWord.ofNat (n : Nat) : FmtWord :=
  { fmt := fld n 0 4, block := fld n 4 2, plane := bit n 6, side := bit n 7, sat := bit n 8, role := fld n 9 2,
    matrix := bit n 11, derive_ := bit n 12, rsv := fld n 13 3, coarse := sext 8 (fld n 16 8),
    outthr := sext 8 (fld n 24 8) }

/-- Elements of one block. -/
def FmtWord.blk (w : FmtWord) : Nat := 16 * 2 ^ w.block
def FmtWord.zl (w : FmtWord) : Bool := fmtIsZL w.fmt
def FmtWord.zi (w : FmtWord) : Bool := fmtIsZI w.fmt

/-- ERR_FMT_ codes of Table 01-13. -/
abbrev errFmtCode : Nat := 0x0301
abbrev errFmtBlock : Nat := 0x0302
abbrev errFmtPlane : Nat := 0x0303
abbrev errFmtSide : Nat := 0x0304
abbrev errFmtZp : Nat := 0x0305
abbrev errFmtScale : Nat := 0x0306
abbrev errFmtRole : Nat := 0x0307

/-- R44, items 1 to 5: the first breach of R15, R24 and Table 01-9. -/
def FmtWord.check (w : FmtWord) : Option Nat :=
  let zl := w.zl
  let planeOk : Bool :=
    if w.fmt = fmtZL8 then w.plane else if w.fmt = fmtZL16 || w.fmt = fmtZT2 then true else !w.plane
  let blockOk : Bool :=
    if !w.plane then w.block == 0
    else if zl then (if w.matrix then w.block ≥ 1 else true) else w.block ≥ 2
  let roleOk : Bool :=
    if zl then true else if w.fmt = fmtZT2 then w.role == 0
    else if w.zi then w.role ≤ 1 else if w.fmt = fmtRem then w.role == 3 else w.role ≥ 1
  if fmtReserved w.fmt || w.rsv ≠ 0 then some errFmtCode
  else if !planeOk then some errFmtPlane
  else if !blockOk then some errFmtBlock
  else if w.side && w.fmt ≠ fmtZL8 then some errFmtSide
  else if w.sat && w.fmt ≠ fmtZL16 then some errFmtRole
  else if !roleOk then some errFmtRole
  else if w.matrix && !fmtGallery w.fmt then some errFmtRole
  else if w.derive_ && !(w.zi && w.role = 1 && !w.matrix) then some errFmtRole
  else none

/-- The affine word (Table 01-10): scale code and zero point. -/
structure Affine where
  scale : Nat
  zp    : Int
deriving DecidableEq, Repr

def Affine.ofNat (n : Nat) : Affine := ⟨fld n 0 16, sext 16 (fld n 16 16)⟩
def Affine.toNat (a : Affine) : Nat := a.scale + tc 16 a.zp * 2 ^ 16

/-- R44, items 6 and 7, for a ZI format. -/
def affineCheck (w : FmtWord) (a : Affine) : Option Nat :=
  if !w.zi then none
  else if a.scale < 1 || a.scale > 0x7FFE then some errFmtScale
  else if a.zp ≠ 0 && w.role ≠ 1 then some errFmtZp
  else none

/-! ### Decoders (R38) -/

/-- log2 of a finite non-zero value in units of 2^−14 octave, rounded to odd. -/
def fpLog (m : Nat) (e : Int) : Int := rtoLog2 14 m e

def fpToW (x : Fp) : W :=
  match x with
  | .nan => W.nan
  | .inf s => W.inf s
  | .fin s m e => if m = 0 then W.zero else wFinite s (fpLog m e)

def fp32ToW (x : Nat) : W := fpToW (b32.dec x)
/-- FP64 reaches the W-form through FP32 by round to odd (Table 01-11). -/
def fp64ToW (x : Nat) : W := fp32ToW (f64to32 .rto x)

/-- Scale part of a log: c × 16384 + fine × 2048. -/
def scaleLog (c fine : Int) : Int := c * 16384 + fine * 2048

/-- `fine` is the fine-scale byte of the block; 0x80 marks an empty block (R27). -/
def zl16ToW (code : Nat) (c : Int) (fine : Nat) : W :=
  if fine = 0x80 then W.zero
  else if code = 0x8000 then W.nan
  else
    let s := bit code 15
    let e := fld code 0 15
    if e = 0 then W.zero
    else if e = 0x7FFF then W.inf s
    else wFinite s (((e : Int) - 16384) * 32 + scaleLog c (sext 8 fine))

/-- `entry` is the side-list value of the element's index (R31), for a tensor with SIDE. -/
def zl8ToW (code : Nat) (c : Int) (fine : Nat) (side : Bool) (entry : Option Nat) : W :=
  if fine = 0x80 then W.zero
  else if code = 0 then W.zero
  else if code = 0x80 then W.nan
  else if side && code = 0xFF then
    match entry with
    | none => W.nan
    | some v => fp32ToW v
  else wFinite (bit code 7) (((fld code 0 7 : Nat) : Int) * 2048 - 64 * 2048 + scaleLog c (sext 8 fine))

/-- R28; the code 0b10 decodes as zero (R18). -/
def zt2ToW (code : Nat) (c : Int) (fine : Nat) : W :=
  if fine = 0x80 then W.zero
  else if code = 1 then wFinite false (scaleLog c (sext 8 fine))
  else if code = 3 then wFinite true (scaleLog c (sext 8 fine))
  else W.zero

def ziToW (q : Int) (a : Affine) : W :=
  let n := q + a.zp
  if n = 0 then W.zero
  else wFinite (n < 0) (rtoLog2 14 n.natAbs 0 + (((a.scale % 2 ^ 15 : Nat) : Int) - 16384) * 32)

/-! ### Encoders (R39, R40) -/

/-- A stored code and whether a saturation is counted. -/
structure Enc where
  code : Nat
  sat  : Bool
deriving DecidableEq, Repr

def sgn16 (s : Bool) (n : Nat) : Nat := if s then n + 2 ^ 15 else n
def sgn8 (s : Bool) (n : Nat) : Nat := if s then n + 2 ^ 7 else n

def wToZl16 (w : W) (c fine : Int) (sat : Bool) : Enc :=
  let top : Enc := if sat then ⟨sgn16 w.s 0x7FFE, true⟩ else ⟨sgn16 w.s 0x7FFF, false⟩
  match w.cls with
  | .nan => ⟨0x8000, false⟩
  | .zero => ⟨0, false⟩
  | .inf => top
  | .fin =>
    let k := rne (w.log - scaleLog c fine) 5
    if k < -16383 then ⟨0, false⟩
    else if k > 16382 then top
    else ⟨sgn16 w.s (k + 16384).toNat, false⟩

def wToZl8 (w : W) (c fine : Int) (side : Bool) : Enc :=
  let top : Int := if side && w.s then 62 else 63
  match w.cls with
  | .nan => ⟨0x80, false⟩
  | .zero => ⟨0, false⟩
  | .inf => ⟨sgn8 w.s (top + 64).toNat, true⟩
  | .fin =>
    let k := rne (rto (w.log - scaleLog c fine) 5) 6
    if k < -63 then ⟨0, false⟩
    else if k > top then ⟨sgn8 w.s (top + 64).toNat, true⟩
    else ⟨sgn8 w.s (k + 64).toNat, false⟩

/-- (−1)^s × 2^(l / 2^k) rounded into a binary format: the mantissa is exact to p + 8 bits with a sticky bit, and the
value is irrational unless 2^k divides l. -/
def pow2ToFp (F : FpFmt) (rm : Rm) (s : Bool) (k : Nat) (l : Int) : Nat :=
  let f := (l % (2 ^ k : Nat)).toNat
  let e := l / (2 ^ k : Nat)
  let p := F.prec + 8
  let m := pow2Mant k p f
  F.rnd rm s (2 * m + (if f = 0 then 0 else 1)) (e - p - 1)

/-- R40. -/
def wToFp (F : FpFmt) (rm : Rm) (w : W) : Nat :=
  match w.cls with
  | .nan => F.nan
  | .zero => 0
  | .inf => F.withSign w.s F.infBits
  | .fin => pow2ToFp F rm w.s 14 w.log

def wToFp32 (w : W) : Nat := wToFp b32 .rne w
def wToFp64 (w : W) : Nat := wToFp b64 .rne w

/-- Code range of an integer format (R19). -/
def ziRange (fmt : Nat) : Int × Int :=
  let h : Int := (2 ^ (fmtBits fmt - 1) : Nat)
  (-h, h - 1)

/-- Exact quotient of two finite values, rounded once to an integer with ties to even; the divisor is not zero. -/
def quotRne (a b : Fp) : Int :=
  match a, b with
  | .fin s m e, .fin t n f =>
    if n = 0 then 0
    else
      let g := min e f
      let num := m * 2 ^ (e - g).toNat
      let den := n * 2 ^ (f - g).toNat
      rneDiv (sgnI (s ^^ t) num) den
  | _, _ => 0

/-- fp64(S) of a scale code (R34): the ZL16 code converted by the W-form → FP64 rule of R40. -/
def scaleF64 (code : Nat) : Nat := wToFp64 (zl16ToW code 0 0)

/-- R36, R41 and R352: a binary32 value (as exact) to an integer code; saturation and non-finite flags. -/
def fpToZi (x : Fp) (fmt : Nat) (a : Affine) : Enc × Bool :=
  let (lo, hi) := ziRange fmt
  let u := fun (i : Int) => tc (fmtBits fmt) i
  match x with
  | .nan => (⟨u (clampI lo hi (-a.zp)), false⟩, true)
  | .inf s => (⟨u (if s then lo else hi), true⟩, true)
  | .fin .. =>
    let q := quotRne x (b64.dec (scaleF64 a.scale)) - a.zp
    let r := clampI lo hi q
    (⟨u r, r ≠ q⟩, false)

/-! ### Deriving an affine word (R34, R35) -/

/-- The smallest scale code from 0x0001 that meets a monotone condition, or 0x7FFE: fifteen halvings. -/
def smallestCode (cond : Nat → Bool) : Nat :=
  let r := (List.range 15).foldl
    (fun (p : Nat × Nat) _ =>
      if p.1 < p.2 then let m := (p.1 + p.2) / 2
                        if cond m then (p.1, m) else (m + 1, p.2)
      else p) (1, 0x7FFE)
  r.1

/-- A derived word; whether the range is degenerate, whether every finite element then stores q = 0 without R36, and
whether each of these counts as a saturation (R35). -/
structure Derived where
  word   : Affine
  degen  : Bool
  flat   : Bool
  satAll : Bool
deriving DecidableEq, Repr

/-- Integer value of a finite binary value, when it is one. -/
def fpInt? : Fp → Option Int
  | .fin s m e =>
    if e ≥ 0 then some (sgnI s (m * 2 ^ e.toNat))
    else if m % 2 ^ (-e).toNat = 0 then some (sgnI s (m / 2 ^ (-e).toNat)) else none
  | _ => none

def degenerateAffine (v : Fp) : Derived :=
  let s := (wToZl16 (fpToW v.abs) 0 0 false).code
  let d : Derived := ⟨⟨max 1 (min 0x7FFE s), if v.sign then -1 else 1⟩, true, true, s < 1 || s > 0x7FFE⟩
  match fpInt? v with
  | some n => if -32768 ≤ n ∧ n ≤ 32767 then ⟨⟨0x4000, n⟩, true, false, false⟩ else d
  | none => d

def fpMin (a b : Fp) : Fp := if b.lt a then b else a
def fpMax (a b : Fp) : Fp := if a.lt b then b else a

/-- binary64 value of a small integer. -/
def intF64 (i : Int) : Nat := b64.rnd .rne (i < 0) i.natAbs 0

/-- A binary32 value of a face encoded with its derived word. -/
def Derived.code (d : Derived) (fmt : Nat) (x : Fp) : Enc :=
  if d.flat && x.isFin then ⟨0, d.satAll⟩ else (fpToZi x fmt d.word).1

/-- `values` are the binary32 bit patterns of the whole face. -/
def deriveAffine (values : List Nat) (fmt : Nat) : Derived :=
  let (qmin, qmax) := ziRange fmt
  match (values.map b32.dec).filter Fp.isFin with
  | [] => ⟨⟨0x4000, 0⟩, true, false, false⟩
  | v :: r =>
    let lo := r.foldl fpMin v
    let hi := r.foldl fpMax v
    if hi.eq lo then degenerateAffine lo
    else
      let f64 := fun (x : Fp) => b64.enc .rne x
      let d := b64.dec (b64.sub .rne (f64 hi) (f64 lo))
      let s := smallestCode fun c => d.le (b64.dec (b64.mul .rne (scaleF64 c) (intF64 (qmax - qmin))))
      let z := quotRne lo (b64.dec (scaleF64 s)) - qmin
      if z < -32768 ∨ z > 32767 then
        let m := fpMax lo.abs hi.abs
        ⟨⟨smallestCode fun c => m.le (b64.dec (b64.mul .rne (scaleF64 c) (intF64 qmax))), 0⟩, false, false, false⟩
      else ⟨⟨s, z⟩, false, false, false⟩

/-! ### Choosing the fine scale (R32, R42) -/

/-- R32: finite with |x| ≥ 2^(c + OUTTHR). -/
def isOutlier (w : W) (c thr : Int) : Bool := w.cls == .fin && (c + thr) * 16384 ≤ w.log

/-- Top of the format in W-form units (R42, R186). -/
def fmtTop (fmt : Nat) (side : Bool) : Int :=
  if fmt = fmtZL8 then (if side then 62 else 63) * 2048 else 16382 * 32

/-- Largest log among the finite elements that are not outliers. -/
def maxLog (block : List W) (out : W → Bool) : Option Int :=
  block.foldl (fun m x => if x.cls == .fin && !out x then
    (match m with | none => some x.log | some y => some (max y x.log)) else m) none

/-- R42: the fine-scale byte of a block. The second part says whether a clamp at 127 took place. -/
def chooseFine (block : List W) (fmt : Nat) (c : Int) (side : Bool) (thr : Int) : Nat :=
  if block.all (fun x => x.cls == .zero) then 0x80
  else match maxLog block (fun x => side && isOutlier x c thr) with
    | none => 0
    | some m => tc 8 (clampI (-127) 127 (-(-(m - c * 16384 - fmtTop fmt side) / 2048)))

/-- R43: every element of the block is zero, or all carry one finite value. -/
def degenerateBlock (block : List W) : Bool :=
  match block with
  | [] => false
  | x :: r => (x.cls == .zero || x.cls == .fin) && r.all (· == x)

/-- log2(e) and ln 2 to 1024 fraction bits. -/
def log2e1024 : Nat := 0x171547652b82fe1777d0ffda0d23a7d11d6aef551bad2b4b1164a2cd9a342648fbc3887eeaa2ed9ac49b25eeb82d7c167d52173cc1895213f897f5e06a7be73665fc529264c2fb3ab643687aaf3ab440c16bd777e75050a8d1a39e8af56c64a7833352906deb692ce4f199e108cf392819cfc406b19abb71ec25e11f75c6142e6
def ln2_1024 : Nat := 0xb17217f7d1cf79abc9e3b39803f2f6af40f343267298b62d8a0d175b8baafa2be7b876206debac98559552fb4afa1b10ed2eae35c138214427573b291169b8253e96ca16224ae8c51acbda11317c387eb9ea9bc3b136603b256fa0ec7657f74b72ce87b19d6548caf5dfa6bd38303248655fa1872f20e3a2da2d97c50f3fd5c6

/-- rto_real(d × log2(e) × 16384) for the exact value d = (−1)^s m 2^e (R72); irrational unless d is 0. -/
def expLog (s : Bool) (m : Nat) (e : Int) : Int :=
  if m = 0 then 0
  else
    let n := sgnI s (m * log2e1024 * 2 ^ 14)
    odd (if e ≥ 0 then n * (2 ^ e.toNat : Nat) / (2 ^ 1024 : Nat) else n / (2 ^ (1024 + (-e).toNat) : Nat))

end Sys2Proof.Machine
end

