-- ==== Sys2Proof/Machine/Tables.lean ====
section
/-! DEFINITION. The tables of the pair stage and the antilog (R49, Table 02-3, Table 04-5): canonical node values,
each rounded to nearest from the exact real value that Table 02-3 gives, and the byte layout of TABLES. -/

namespace Sys2Proof.Machine

/-- Node words of 32 bits, eight to a row, the first word leftmost. -/
def rowWords (signed : Bool) (n : Nat) (rows : List Nat) : List Int :=
  (rows.flatMap fun r => (List.range 8).map fun i =>
    let w := r / 2 ^ (32 * (7 - i)) % 2 ^ 32
    if signed then sext 32 w else (w : Int)).take n

def canonSBRows0 : List Nat := [
  0x000100000000F0590000E1620000D31C0000C5850000B8990000AC570000A0BA,
  0x000095C000008B64000081A00000787000006FCF000067B7000060220000590A,
  0x0000526A00004C3B000046780000411B00003C1F0000377C0000332F00002F32,
  0x00002B8000002814000024EA000021FC00001F4800001CC900001A7A0000185A,
  0x0000166400001495000012EB0000116200000FF900000EAC00000D7A00000C60,
  0x00000B5D00000A6F00000994000008CB0000081200000769000006CD0000063D,
  0x000005BA00000541000004D20000046C0000040F000003B90000036A00000322,
  0x000002E0000002A30000026B0000023800000209000001DE000001B600000192,
  0x0000017100000152000001360000011C00000105000000EF000000DB000000C9,
  0x000000B8000000A90000009B0000008E00000082000000780000006E00000065,
  0x0000005C000000550000004E00000047000000410000003C0000003700000032,
  0x0000002E0000002A0000002700000024000000210000001E0000001B00000019,
  0x00000017000000150000001300000012000000100000000F0000000E0000000D,
  0x0000000C0000000B0000000A0000000900000008000000070000000700000006,
  0x0000000600000005000000050000000400000004000000040000000300000003,
  0x0000000300000003000000020000000200000002000000020000000200000002,
  0x0000000100000000000000000000000000000000000000000000000000000000]
/-- rne(log2(1 + 2^(−j/8)) × 65536), j = 0–128. -/
def canonSB : List Int := rowWords false 129 (canonSBRows0)

def canonDB1Rows0 : List Nat := [
  0xFFF976A3FFF9C88DFFFA0B64FFFA43D3FFFA74A5FFFA9FA5FFFAC610FFFAE8C4,
  0xFFFB0867FFFB2578FFFB4057FFFB5953FFFB70AAFFFB868FFFFB9B2CFFFBAEA5,
  0xFFFBC118FFFBD29EFFFBE34EFFFBF33AFFFC0274FFFC1109FFFC1F06FFFC2C78,
  0xFFFC3968FFFC45E0FFFC51E7FFFC5D85FFFC68C0FFFC73A0FFFC7E28FFFC885F,
  0xFFFC9248FFFC9BE9FFFCA545FFFCAE5FFFFCB73BFFFCBFDCFFFCC845FFFCD078,
  0xFFFCD878FFFCE047FFFCE7E8FFFCEF5CFFFCF6A5FFFCFDC6FFFD04BFFFFD0B92,
  0xFFFD1241FFFD18CDFFFD1F37FFFD2581FFFD2BACFFFD31B9FFFD37A9FFFD3D7C,
  0xFFFD4335FFFD48D3FFFD4E58FFFD53C4FFFD5919FFFD5E57FFFD637EFFFD6890,
  0xFFFD6D8CFFFD7274FFFD7749FFFD7C0AFFFD80B9FFFD8555FFFD89E0FFFD8E59,
  0xFFFD92C2FFFD971AFFFD9B63FFFD9F9CFFFDA3C5FFFDA7E1FFFDABEDFFFDAFEC,
  0xFFFDB3DDFFFDB7C1FFFDBB98FFFDBF62FFFDC320FFFDC6D1FFFDCA77FFFDCE11,
  0xFFFDD19FFFFDD523FFFDD89BFFFDDC09FFFDDF6DFFFDE2C6FFFDE616FFFDE95B,
  0xFFFDEC97FFFDEFCAFFFDF2F3FFFDF613FFFDF92BFFFDFC3AFFFDFF40FFFE023E,
  0xFFFE0534FFFE0821FFFE0B07FFFE0DE5FFFE10BCFFFE138BFFFE1652FFFE1912,
  0xFFFE1BCCFFFE1E7EFFFE2129FFFE23CEFFFE266CFFFE2904FFFE2B95FFFE2E20,
  0xFFFE30A5FFFE3323FFFE359CFFFE380FFFFE3A7BFFFE3CE3FFFE3F44FFFE41A0,
  0xFFFE43F7FFFE4648FFFE4894FFFE4ADBFFFE4D1CFFFE4F59FFFE5190FFFE53C3,
  0xFFFE55F1FFFE581AFFFE5A3EFFFE5C5EFFFE5E79FFFE6090FFFE62A2FFFE64B0,
  0xFFFE66B9FFFE68BFFFFE6AC0FFFE6CBCFFFE6EB5FFFE70AAFFFE729BFFFE7488,
  0xFFFE7671FFFE7856FFFE7A37FFFE7C15FFFE7DEFFFFE7FC5FFFE8198FFFE8367,
  0xFFFE8533FFFE86FBFFFE88C0FFFE8A81FFFE8C3FFFFE8DFAFFFE8FB2FFFE9166,
  0xFFFE9317FFFE94C5FFFE9670FFFE9818FFFE99BDFFFE9B5FFFFE9CFEFFFE9E9A,
  0xFFFEA033FFFEA1C9FFFEA35CFFFEA4EDFFFEA67BFFFEA806FFFEA98EFFFEAB14,
  0xFFFEAC97FFFEAE17FFFEAF95FFFEB110FFFEB289FFFEB3FFFFFEB573FFFEB6E4,
  0xFFFEB853FFFEB9C0FFFEBB2AFFFEBC92FFFEBDF7FFFEBF5AFFFEC0BBFFFEC219,
  0xFFFEC376FFFEC4D0FFFEC628FFFEC77DFFFEC8D1FFFECA22FFFECB72FFFECCBF,
  0xFFFECE0AFFFECF53FFFED09BFFFED1E0FFFED323FFFED464FFFED5A3FFFED6E0,
  0xFFFED81CFFFED955FFFEDA8DFFFEDBC2FFFEDCF6FFFEDE28FFFEDF59FFFEE087,
  0xFFFEE1B4FFFEE2DFFFFEE408FFFEE52FFFFEE655FFFEE779FFFEE89BFFFEE9BC,
  0xFFFEEADBFFFEEBF8FFFEED14FFFEEE2EFFFEEF46FFFEF05DFFFEF173FFFEF287,
  0xFFFEF399FFFEF4AAFFFEF5B9FFFEF6C6FFFEF7D3FFFEF8DDFFFEF9E7FFFEFAEE,
  0xFFFEFBF5FFFEFCFAFFFEFDFDFFFEFEFFFFFF0000000000000000000000000000]
/-- rne(log2(1 − 2^(−j/256)) × 65536), j = 4–256. -/
def canonDB1 : List Int := rowWords true 253 (canonDB1Rows0)

def canonDB2Rows0 : List Nat := [
  0xFFFF0000FFFF07D5FFFF0F56FFFF1689FFFF1D72FFFF2417FFFF2A79FFFF309E,
  0xFFFF3688FFFF3C3AFFFF41B8FFFF4704FFFF4C20FFFF510FFFFF55D2FFFF5A6D,
  0xFFFF5EE0FFFF632DFFFF6757FFFF6B5FFFFF6F45FFFF730CFFFF76B5FFFF7A41,
  0xFFFF7DB1FFFF8106FFFF8442FFFF8765FFFF8A70FFFF8D64FFFF9042FFFF930B,
  0xFFFF95C0FFFF9861FFFF9AEFFFFF9D6AFFFF9FD4FFFFA22DFFFFA475FFFFA6AD,
  0xFFFFA8D6FFFFAAF0FFFFACFBFFFFAEF8FFFFB0E8FFFFB2CBFFFFB4A1FFFFB66A,
  0xFFFFB828FFFFB9DAFFFFBB81FFFFBD1DFFFFBEAEFFFFC035FFFFC1B2FFFFC326,
  0xFFFFC490FFFFC5F1FFFFC749FFFFC899FFFFC9E0FFFFCB20FFFFCC57FFFFCD87,
  0xFFFFCEAFFFFFCFD0FFFFD0EAFFFFD1FDFFFFD309FFFFD40FFFFFD50FFFFFD608,
  0xFFFFD6FCFFFFD7E9FFFFD8D1FFFFD9B4FFFFDA91FFFFDB69FFFFDC3CFFFFDD09,
  0xFFFFDDD2FFFFDE97FFFFDF56FFFFE011FFFFE0C8FFFFE17BFFFFE229FFFFE2D3,
  0xFFFFE37AFFFFE41CFFFFE4BBFFFFE556FFFFE5EEFFFFE682FFFFE713FFFFE7A0,
  0xFFFFE82AFFFFE8B1FFFFE935FFFFE9B6FFFFEA34FFFFEAAFFFFFEB27FFFFEB9D,
  0xFFFFEC10FFFFEC80FFFFECEEFFFFED59FFFFEDC2FFFFEE28FFFFEE8DFFFFEEEF,
  0xFFFFEF4EFFFFEFACFFFFF008FFFFF061FFFFF0B9FFFFF10EFFFFF162FFFFF1B3,
  0xFFFFF203FFFFF252FFFFF29EFFFFF2E9FFFFF332FFFFF379FFFFF3BFFFFFF403,
  0xFFFFF446FFFFF488FFFFF4C7FFFFF506FFFFF543FFFFF57FFFFFF5B9FFFFF5F2,
  0xFFFFF62AFFFFF661FFFFF696FFFFF6CBFFFFF6FEFFFFF730FFFFF761FFFFF791,
  0xFFFFF7BFFFFFF7EDFFFFF81AFFFFF846FFFFF870FFFFF89AFFFFF8C3FFFFF8EB,
  0xFFFFF913FFFFF939FFFFF95EFFFFF983FFFFF9A7FFFFF9CAFFFFF9EDFFFFFA0E,
  0xFFFFFA2FFFFFFA4FFFFFFA6FFFFFFA8DFFFFFAABFFFFFAC9FFFFFAE6FFFFFB02,
  0xFFFFFB1DFFFFFB38FFFFFB53FFFFFB6DFFFFFB86FFFFFB9FFFFFFBB7FFFFFBCE,
  0xFFFFFBE6FFFFFBFCFFFFFC12FFFFFC28FFFFFC3DFFFFFC52FFFFFC66FFFFFC7A,
  0xFFFFFC8DFFFFFCA0FFFFFCB3FFFFFCC5FFFFFCD7FFFFFCE8FFFFFCF9FFFFFD0A,
  0xFFFFFD1AFFFFFD2AFFFFFD3AFFFFFD49FFFFFD58FFFFFD67FFFFFD75FFFFFD83,
  0xFFFFFD91FFFFFD9EFFFFFDABFFFFFDB8FFFFFDC5FFFFFDD1FFFFFDDDFFFFFDE9,
  0xFFFFFDF4FFFFFDFFFFFFFE0BFFFFFE15FFFFFE20FFFFFE2AFFFFFE34FFFFFE3E,
  0xFFFFFE48FFFFFE51FFFFFE5AFFFFFE64FFFFFE6CFFFFFE75FFFFFE7EFFFFFE86,
  0xFFFFFE8EFFFFFE96FFFFFE9EFFFFFEA5FFFFFEADFFFFFEB4FFFFFEBBFFFFFEC2,
  0xFFFFFEC9FFFFFED0FFFFFED6FFFFFEDDFFFFFEE3FFFFFEE9FFFFFEEFFFFFFEF5,
  0xFFFFFEFAFFFFFF00FFFFFF06FFFFFF0BFFFFFF10FFFFFF15FFFFFF1AFFFFFF1F,
  0xFFFFFF24FFFFFF29FFFFFF2DFFFFFF32FFFFFF36FFFFFF3BFFFFFF3FFFFFFF43]
def canonDB2Rows1 : List Nat := [
  0xFFFFFF47FFFFFF4BFFFFFF4FFFFFFF53FFFFFF57FFFFFF5AFFFFFF5EFFFFFF61,
  0xFFFFFF65FFFFFF68FFFFFF6BFFFFFF6EFFFFFF71FFFFFF75FFFFFF78FFFFFF7A,
  0xFFFFFF7DFFFFFF80FFFFFF83FFFFFF86FFFFFF88FFFFFF8BFFFFFF8DFFFFFF90,
  0xFFFFFF92FFFFFF94FFFFFF97FFFFFF99FFFFFF9BFFFFFF9DFFFFFFA0FFFFFFA2,
  0xFFFFFFA4FFFFFFA6FFFFFFA8FFFFFFA9FFFFFFABFFFFFFADFFFFFFAFFFFFFFB1,
  0xFFFFFFB2FFFFFFB4FFFFFFB6FFFFFFB7FFFFFFB9FFFFFFBAFFFFFFBCFFFFFFBD,
  0xFFFFFFBFFFFFFFC0FFFFFFC1FFFFFFC3FFFFFFC4FFFFFFC5FFFFFFC7FFFFFFC8,
  0xFFFFFFC9FFFFFFCAFFFFFFCBFFFFFFCDFFFFFFCEFFFFFFCFFFFFFFD0FFFFFFD1,
  0xFFFFFFD2FFFFFFD3FFFFFFD4FFFFFFD5FFFFFFD6FFFFFFD7FFFFFFD7FFFFFFD8,
  0xFFFFFFD9FFFFFFDAFFFFFFDBFFFFFFDCFFFFFFDCFFFFFFDDFFFFFFDEFFFFFFDF,
  0xFFFFFFDFFFFFFFE0FFFFFFE1FFFFFFE1FFFFFFE2FFFFFFE3FFFFFFE3FFFFFFE4,
  0xFFFFFFE5FFFFFFE5FFFFFFE6FFFFFFE6FFFFFFE7FFFFFFE7FFFFFFE8FFFFFFE8,
  0xFFFFFFE9FFFFFFE9FFFFFFEAFFFFFFEAFFFFFFEBFFFFFFEBFFFFFFECFFFFFFEC,
  0xFFFFFFEDFFFFFFEDFFFFFFEDFFFFFFEEFFFFFFEEFFFFFFEFFFFFFFEFFFFFFFEF,
  0xFFFFFFF0FFFFFFF0FFFFFFF0FFFFFFF1FFFFFFF1FFFFFFF1FFFFFFF2FFFFFFF2,
  0xFFFFFFF2FFFFFFF3FFFFFFF3FFFFFFF3FFFFFFF3FFFFFFF4FFFFFFF4FFFFFFF4,
  0xFFFFFFF4FFFFFFF5FFFFFFF5FFFFFFF5FFFFFFF5FFFFFFF6FFFFFFF6FFFFFFF6,
  0xFFFFFFF6FFFFFFF7FFFFFFF7FFFFFFF7FFFFFFF7FFFFFFF7FFFFFFF7FFFFFFF8,
  0xFFFFFFF8FFFFFFF8FFFFFFF8FFFFFFF8FFFFFFF9FFFFFFF9FFFFFFF9FFFFFFF9,
  0xFFFFFFF9FFFFFFF9FFFFFFF9FFFFFFFAFFFFFFFAFFFFFFFAFFFFFFFAFFFFFFFA,
  0xFFFFFFFAFFFFFFFAFFFFFFFAFFFFFFFBFFFFFFFBFFFFFFFBFFFFFFFBFFFFFFFB,
  0xFFFFFFFBFFFFFFFBFFFFFFFBFFFFFFFBFFFFFFFCFFFFFFFCFFFFFFFCFFFFFFFC,
  0xFFFFFFFCFFFFFFFCFFFFFFFCFFFFFFFCFFFFFFFCFFFFFFFCFFFFFFFCFFFFFFFC,
  0xFFFFFFFDFFFFFFFDFFFFFFFDFFFFFFFDFFFFFFFDFFFFFFFDFFFFFFFDFFFFFFFD,
  0xFFFFFFFDFFFFFFFDFFFFFFFDFFFFFFFDFFFFFFFDFFFFFFFDFFFFFFFDFFFFFFFE,
  0xFFFFFFFEFFFFFFFEFFFFFFFEFFFFFFFEFFFFFFFEFFFFFFFEFFFFFFFEFFFFFFFE,
  0xFFFFFFFEFFFFFFFEFFFFFFFEFFFFFFFEFFFFFFFEFFFFFFFEFFFFFFFEFFFFFFFE,
  0xFFFFFFFEFFFFFFFEFFFFFFFEFFFFFFFEFFFFFFFEFFFFFFFEFFFFFFFEFFFFFFFF,
  0xFFFFFFFF00000000000000000000000000000000000000000000000000000000]
/-- rne(log2(1 − 2^(−1 − j/32)) × 65536), j = 0–480. -/
def canonDB2 : List Int := rowWords true 481 (canonDB2Rows0 ++ canonDB2Rows1)

def canonALRows0 : List Nat := [
  0x40000000400B18184016321B40214E0C402C6BE940378BB44042AD6D404DD113,
  0x4058F6A840641E2B406F479E407A73004085A0514090CF92409C00C440A733E6,
  0x40B268FA40BD9FFF40C8D8F540D413DD40DF50B840EA8F8640F5D046410112FA,
  0x410C57A241179E3D4122E6CD412E315241397DCC4144CC3B41501CA0415B6EFB,
  0x4166C34C41721995417D71D44188CC0A41942839419F866041AAE67F41B64896,
  0x41C1ACA741CD12B241D87AB641E3E4B541EF50AE41FABEA242062E914211A07B,
  0x421D146242288A4542340224423F7C00424AF7DA425675B14261F586426D7759,
  0x4278FB2B428480FC429008CC429B929C42A71E6C42B2AC3D42BE3C0E42C9CDE0,
  0x42D561B442E0F78942EC8F6142F8293B4303C518430F62F8431B02DB4326A4C2,
  0x433248AE433DEE9E434996934355408D4360EC8D436C9A9343784A9F4383FCB2,
  0x438FB0CB439B66EC43A71F1543B2D94643BE957F43CA53C243D6140D43E1D661,
  0x43ED9AC043F961294405299C4410F41A441CC0A344288F3844345FD944403286,
  0x444C07404457DE074463B6DB446F91BD447B6EAD44874DAC44932EB9449F11D6,
  0x44AAF70244B6DE3E44C2C78A44CEB2E644DAA05444E68FD344F2816344FE7506,
  0x450A6ABB4516628245225C5D452E584B453A564D454656634552588E455E5CCE,
  0x456A632345766B8D4582760E458E82A4459A915245A6A21645B2B4F245BEC9E6,
  0x45CAE0F245D6FA1645E3155445EF32AA45FB521A460773A446139749461FBD08,
  0x462BE4E246380ED846443AE946506917465C99614668CBC84675004C468136EE,
  0x468D6FAE4699AA8C46A5E78946B226A546BE67E046CAAB3C46D6F0B746E33853,
  0x46EF821046FBCDEE47081BEE47146C104720BE55472D12BC473969464745C1F4,
  0x47521CC6475E79BC476AD8D647773A1647839D7B47900306479C6AB647A8D48E,
  0x47B5408C47C1AEB147CE1EFE47DA917347E7061147F37CD747FFF5C6480C70DF,
  0x4818EE2248256D8E4831EF26483E72E8484AF8D6485780EF48640B35487097A7,
  0x487D26464889B71248964A0C48A2DF3448AF768A48BC100F48C8ABC348D549A6,
  0x48E1E9BA48EE8BFE48FB30724907D71749147FEE49212AF7492DD831493A879F,
  0x4947393F4953ED124960A319496D5B55497A15C44986D2694993914349A05252,
  0x49AD159849B9DB1349C6A2C649D36CAF49E038D049ED072949F9D7BB4A06AA85,
  0x4A137F884A2056C44A2D303B4A3A0BEB4A46E9D64A53C9FC4A60AC5E4A6D90FB,
  0x4A7A77D44A8760EA4A944C3D4AA139CD4AAE299B4ABB1BA74AC80FF24AD5067B,
  0x4AE1FF434AEEFA4C4AFBF7944B08F71C4B15F8E64B22FCF14B30033D4B3D0BCB,
  0x4B4A169C4B5723AF4B6433054B7144A04B7E587E4B8B6EA04B9887074BA5A1B3,
  0x4BB2BEA54BBFDDDD4BCCFF5B4BDA231F4BE7492B4BF4717E4C019C194C0EC8FD]
def canonALRows1 : List Nat := [
  0x4C1BF8294C29299E4C365D5D4C4393654C50CBB84C5E06554C6B433E4C788271,
  0x4C85C3F14C9307BD4CA04DD64CAD963C4CBAE0EF4CC82DF04CD57D3F4CE2CEDD,
  0x4CF022CA4CFD79064D0AD1924D182C6E4D25899C4D32E91A4D404AE94D4DAF0B,
  0x4D5B157E4D687E454D75E95E4D8356CB4D90C68B4D9E38A04DABAD0A4DB923C9,
  0x4DC69CDD4DD418474DE196074DEF161E4DFC988C4E0A1D524E17A4704E252DE6,
  0x4E32B9B44E4047DC4E4DD85D4E5B6B384E69006E4E7697FE4E8431EA4E91CE31,
  0x4E9F6CD44EAD0DD34EBAB12F4EC856E94ED5FF004EE3A9754EF156484EFF057B,
  0x4F0CB70C4F1A6AFE4F28214F4F35DA014F4395144F5152884F5F125E4F6CD496,
  0x4F7A99304F88602E4F96298F4FA3F5534FB1C37C4FBF940A4FCD66FD4FDB3C55,
  0x4FE914134FF6EE375004CAC25012A9B450208B0E502E6ECF503C54F9504A3D8C,
  0x50582888506615ED507405BD5081F7F7508FEC9C509DE3AC50ABDD2850B9D911,
  0x50C7D76550D5D82750E3DB5650F1E0F350FFE8FE510DF378511C0061512A0FB9,
  0x51382182514635BA51544C645162657E5170810B517E9F09518CBF7A519AE25D,
  0x51A907B451B72F7F51C559BE51D3867251E1B59A51EFE73851FE1B4C520C51D6,
  0x521A8AD75228C64F5237043F524544A6525387865261CCDF527014B1527E5EFD,
  0x528CABC3529AFB0452A94CC052B7A0F752C5F7AA52D450D952E2AC8552F10AAE,
  0x52FF6B55530DCE7A531C341D532A9C3F533906E0534774025355E3A3536455C5,
  0x5372CA685381418D538FBB33539E375C53ACB60753BB373653C9BAE953D8411F,
  0x53E6C9DA53F5551B5403E2E05412732B542105FD542F9B55543E3335544CCD9C,
  0x545B6A8B546A0A035478AC035487508D5495F7A154A4A13F54B34D6754C1FC1B,
  0x54D0AD5A54DF612654EE177D54FCD062550B8BD4551A49D455290A615537CD7E,
  0x5546932955555B65556426305572F38B5581C378559095F5559F6B0555AE42A7,
  0x55BD1CDB55CBF9A255DAD8FD55E9BAEC55F89F70560786885616703556255C79,
  0x56344B5256433CC3565230CA56612769567020A0567F1C6F568E1AD8569D1BDA,
  0x56AC1F7556BB25AB56CA2E7C56D939E756E847EF56F7589257066BD2571581AF,
  0x57249A295733B5425742D2F85751F34E5761164257703BD7577F640B578E8EE0,
  0x579DBC5757ACEC6E57BC1F2857CB548457DA8C8357E9C72657F9046C58084457,
  0x581786E65826CC1A583613F458455E745854AB9B5863FB6958734DDE5882A2FB,
  0x5891FAC158A1552F58B0B24758C0120958CF747458DED98B58EE414D58FDABBA,
  0x590D18D3591C8899592BFB0C593B702D594AE7FB595A62785969DFA359795F7E,
  0x5988E2095998674459A7EF3059B779CD59C7071C59D6971D59E629D159F5BF37,
  0x5A0557515A14F21F5A248FA25A342FD95A43D2C65A5378695A6320C35A72CBD3]
def canonALRows2 : List Nat := [
  0x5A82799A5A922A195AA1DD505AB193415AC14BEA5AD1074D5AE0C56A5AF08641,
  0x5B0049D45B1010225B1FD92D5B2FA4F45B3F73775B4F44B95B5F18B85B6EEF75,
  0x5B7EC8F25B8EA52D5B9E84295BAE65E55BBE4A615BCE319F5BDE1B9F5BEE0861,
  0x5BFDF7E55C0DEA2D5C1DDF385C2DD7085C3DD19C5C4DCEF55C5DCF145C6DD1F8,
  0x5C7DD7A45C8DE0165C9DEB505CADF9515CBE0A1C5CCE1DAF5CDE340B5CEE4D32,
  0x5CFE69235D0E87DE5D1EA9655D2ECDB85D3EF4D75D4F1EC35D5F4B7D5D6F7B04,
  0x5D7FAD595D8FE27D5DA01A705DB055335DC092C75DD0D32B5DE116605DF15C67,
  0x5E01A53F5E11F0EB5E223F6A5E3290BC5E42E4E35E533BDE5E6395AE5E73F254,
  0x5E8451D05E94B4225EA5194C5EB5814D5EC5EC265ED659D85EE6CA625EF73DC6,
  0x5F07B4055F182D1E5F28A9115F3927E15F49A98C5F5A2E145F6AB5795F7B3FBB,
  0x5F8BCCDB5F9C5CDA5FACEFB85FBD85755FCE1E125FDEB9905FEF57EF5FFFF92F,
  0x60109D51602144566031EE3D60429B0860534AB76063FD4B6074B2C360856B21,
  0x6096266560A6E49060B7A5A160C8699A60D9307B60E9FA4460FAC6F7610B9693,
  0x611C6919612D3E89613E16E4614EF22B615FD05E6170B17E6181958B61927C85,
  0x61A3666D61B4534461C5430A61D635BF61E72B6561F823FB62091F82621A1DFB,
  0x622B1F66623C23C4624D2B15625E3559626F4292628052BF629165E262A27BFA,
  0x62B3950962C4B10E62D5D00A62E6F1FF62F816EB63093ED1631A69AF632B9788,
  0x633CC85B634DFC29635F32F263706CB76381A9786392E93663A42BF263B571AC,
  0x63C6BA6463D8061C63E954D263FAA689640BFB41641D52F9642EADB364400B6F,
  0x64516C2E6462CFF0647436B66485A08064970D4F64A87D2364B9EFFC64CB65DC,
  0x64DCDEC364EE5AB164FFD9A865115BA66522E0AD653468BE6545F3D9655781FF,
  0x6569132F657AA76B658C3EB3659DD90865AF766A65C116D965D2BA5765E460E4,
  0x65F60A7F6607B72B661966E7662B19B4663CCF92664E8882666044856672039A,
  0x6683C5C366958B0066A7535266B91EB966CAED3566DCBEC866EE937167006B32,
  0x6712460B672423FB673605056747E9286759D065676BBABD677DA82F678F98BD,
  0x67A18C6867B3832E67C57D1267D77A1467E97A3467FB7D73680D83D1681F8D4F,
  0x683199ED6843A9AD6855BC8E6867D2916879EBB6688C07FF689E276B68B049FC,
  0x68C26FB168D4988C68E6C48C68F8F3B3690B2601691D5B76692F94146941CFDA,
  0x69540EC9696650E269789625698ADE93699D2A2C69AF78F169C1CAE269D42001,
  0x69E6784D69F8D3C76A0B32706A1D94476A2FF94F6A4261876A54CCF06A673B8A,
  0x6A79AD566A8C22546A9E9A866AB115EB6AC394856AD616536AE89B566AFB2390,
  0x6B0DAEFF6B203DA66B32CF846B45649A6B57FCE96B6A98716B7D37336B8FD92F]
def canonALRows3 : List Nat := [
  0x6BA27E656BB526D86BC7D2866BDA81716BED33996BFFE8FE6C12A1A26C255D84,
  0x6C381CA66C4ADF086C5DA4AA6C706D8E6C8339B26C9609196CA8DBC36CBBB1B0,
  0x6CCE8AE16CE167576CF447116D072A116D1A10576D2CF9E46D3FE6B86D52D6D3,
  0x6D65CA386D78C0E56D8BBADB6D9EB81C6DB1B8A86DC4BC7F6DD7C3A16DEACE10,
  0x6DFDDBCC6E10ECD56E24012D6E3718D36E4A33C96E5D520E6E7073A46E83988A,
  0x6E96C0C36EA9EC4D6EBD1B2A6ED04D5A6EE382DE6EF6BBB76F09F7E56F1D3768,
  0x6F307A416F43C0716F5709F96F6A56D86F7DA7106F90FAA16FA4518B6FB7ABD0,
  0x6FCB096F6FDE6A6A6FF1CEC1700536757018A185702C0FF3703F81C07052F6EB,
  0x70666F767079EB61708D6AAD70A0ED5970B4736870C7FCD970DB89AD70EF19E4,
  0x7102AD80711644807129DEE6713D7CB271511DE47164C27D71786A7E718C15E7,
  0x719FC4B971B376F571C72C9A71DAE5AB71EEA2267202620D721625617229EC22,
  0x723DB650725183ED726554F872792973728D015D72A0DCB972B4BB8572C89DC3,
  0x72DC837472F06C977304592E7318493A732C3CBA734033AF73542E1A73682BFC,
  0x737C2D557390322673A43A7073B8463273CC556D73E0682373F47E5474089800,
  0x741CB5287430D5CD7444F9EF7459218E746D4CAC74817B497495AD6674A9E303,
  0x74BE1C2074D258BF74E698E074FADC84750F23AB75236E567537BC85754C0E3A,
  0x756063747574BC347589187C759D784B75B1DBA275C6428175DAACEA75EF1ADD,
  0x76038C5B76180164762C79F97640F61A765575C87669F904767E7FCE76930A27,
  0x76A7980F76BC298876D0BE9176E5572C76F9F359770E93187723366B7737DD51,
  0x774C87CC776135DC7775E782778A9CBE779F559077B411FB77C8D1FE77DD9599,
  0x77F25CCE7807279D781BF6077830C80C78459DAC785A76EA786F53C47884343D,
  0x7899185478AE000A78C2EB5F78D7DA5578ECCCEC7901C3257916BD00792BBA7D,
  0x7940BB9E7955C063796AC8CD797FD4DC7994E49279A9F7ED79BF0EF179D4299C,
  0x79E947EF79FE69EC7A138F927A28B8E37A3DE5DF7A5316877A684ADB7A7D82DC,
  0x7A92BE8B7AA7FDE77ABD40F37AD287AE7AE7D21A7AFD20367B1272047B27C784,
  0x7B3D20B67B527D9C7B67DE367B7D42857B92AA887BA816427BBD85B37BD2F8DA,
  0x7BE86FBA7BFDEA517C1368A37C28EAAD7C3E70737C53F9F37C69872F7C7F1828,
  0x7C94ACDE7CAA45517CBFE1837CD581737CEB25237D00CC947D1677C57D2C26B8,
  0x7D41D96E7D578FE67D6D4A227D8308217D98C9E67DAE8F707DC458C17DDA25D8,
  0x7DEFF6B67E05CB5D7E1BA3CD7E3180067E4760097E5D43D67E732B6F7E8916D5,
  0x7E9F06067EB4F9067ECAEFD37EE0EA6F7EF6E8DA7F0CEB167F22F1227F38FAFF,
  0x7F4F08AE7F651A307F7B2F857F9148AF7FA765AD7FBD86807FD3AB297FE9D3A9]
def canonALRows4 : List Nat := [
  0x8000000000000000000000000000000000000000000000000000000000000000]
/-- rne(2^(j/1024) × 2^30), j = 0–1024. -/
def canonAL : List Int := rowWords false 1025 (canonALRows0 ++ canonALRows1 ++ canonALRows2 ++ canonALRows3 ++ canonALRows4)

/-- TD[j] = T[j+1] − T[j] (R49). -/
def diffs : List Int → List Int
  | a :: b :: r => (b - a) :: diffs (b :: r)
  | _ => []

/-- The tables of one plan (Table 04-5): nodes and differences. -/
structure Tables where
  sb   : List Int
  sbd  : List Int
  db1  : List Int
  db1d : List Int
  db2  : List Int
  db2d : List Int
  al   : List Int
  ald  : List Int
deriving DecidableEq, Repr

def Tables.canonical : Tables :=
  ⟨canonSB, diffs canonSB, canonDB1, diffs canonDB1, canonDB2, diffs canonDB2, canonAL, diffs canonAL⟩

def Tables.empty : Tables := ⟨[], [], [], [], [], [], [], []⟩

/-- The bytes of the SB, DB and AL digest groups (Table 04-5). -/
def wordsLE (l : List Int) : List Byte := l.flatMap fun i => natLE (tc 32 i) 4
def Tables.sbImage (t : Tables) : List Byte := wordsLE (t.sb ++ t.sbd)
def Tables.dbImage (t : Tables) : List Byte := wordsLE (t.db1 ++ t.db1d ++ t.db2 ++ t.db2d)
def Tables.alImage (t : Tables) : List Byte := wordsLE (t.al ++ t.ald)

/-- Read n 32-bit words, two's complement, from a byte offset. -/
def wordsAt (b : List Byte) (off n : Nat) : List Int :=
  (List.range n).map fun i => sext 32 (u32 b (off + 4 * i))

/-- TABLES as Table 04-5 lays it out. SB and AL node words are unsigned. -/
def Tables.parse (b : List Byte) : Tables :=
  let un := fun (off n : Nat) => (List.range n).map fun i => ((u32 b (off + 4 * i) : Nat) : Int)
  { sb := un 0 129, sbd := wordsAt b 0x204 128, db1 := wordsAt b 0x404 253, db1d := wordsAt b 0x7F8 252,
    db2 := wordsAt b 0xBE8 481, db2d := wordsAt b 0x136C 480, al := un 0x1AEC 1025, ald := wordsAt b 0x2AF0 1024 }

/-- R113: every word in its range. -/
def Tables.inRange (t : Tables) : Bool :=
  let within := fun (lo hi : Int) (l : List Int) => l.all fun x => lo ≤ x && x ≤ hi
  let al : Int × Int := (2 ^ 29, 2 ^ 31)
  within 0 131071 t.sb && within (-524288) 524287 t.db1 && within (-524288) 524287 t.db2
    && within (-2097152) 2097151 (t.sbd ++ t.db1d ++ t.db2d ++ t.ald) && within al.1 al.2 t.al
    && within al.1 al.2 (List.zipWith (· + ·) t.al t.ald)

/-- G[i] = rne(2^(i/8) × 2^24), fixed in the device (R56). -/
def gConst : List Int := [16777216, 18295684, 19951585, 21757357, 23726566, 25874004, 28215802, 30769550]

end Sys2Proof.Machine
end

