-- ==== Sys2Proof/Machine/Flight.lean ====
section
/-! DEFINITION. Products, the pair stage, the antilog, the reduction tree, wide sum, T-mode and B-mode
(02_products_and_sums.md, R47 to R59) and the flags they raise (R48, R59). -/

namespace Sys2Proof.Machine

/-- The event flags of the tile status word (Table 02-6, bits 0 to 5). -/
structure Flags where
  nan   : Bool
  inf   : Bool
  sat   : Bool
  tern  : Bool
  isum  : Bool
  iprod : Bool
deriving DecidableEq, Repr

/-- A position: K-chunk, row, column (R68). -/
abbrev Pos := Nat × Nat × Nat

/-- Flags raised at a position. -/
abbrev Event := Pos × Flags

def Flags.none : Flags := ⟨false, false, false, false, false, false⟩
def Flags.or (a b : Flags) : Flags :=
  ⟨a.nan || b.nan, a.inf || b.inf, a.sat || b.sat, a.tern || b.tern, a.isum || b.isum, a.iprod || b.iprod⟩
def Flags.any (a : Flags) : Bool := a.nan || a.inf || a.sat || a.tern || a.isum || a.iprod
def Flags.bits (a : Flags) : Nat :=
  a.nan.toNat + 2 * a.inf.toNat + 4 * a.sat.toNat + 8 * a.tern.toNat + 16 * a.isum.toNat + 32 * a.iprod.toNat
def Flags.ofBits (n : Nat) : Flags := ⟨bit n 0, bit n 1, bit n 2, bit n 3, bit n 4, bit n 5⟩
/-- Highest-numbered flag raised (R68), 7 for none. -/
def Flags.kind (a : Flags) : Nat :=
  if a.iprod then 5 else if a.isum then 4 else if a.tern then 3 else if a.sat then 2 else if a.inf then 1
  else if a.nan then 0 else 7

/-- R47: a product keeps an exact log; the flags are those of R48. -/
def product (w x : W) : W × Flags :=
  if w.cls = .nan ∨ x.cls = .nan then (W.nan, { Flags.none with nan := true })
  else if (w.cls = .zero ∧ x.cls = .inf) ∨ (w.cls = .inf ∧ x.cls = .zero) then
    (W.nan, { Flags.none with nan := true, iprod := true })
  else if w.cls = .zero ∨ x.cls = .zero then (W.zero, Flags.none)
  else if w.cls = .inf ∨ x.cls = .inf then (W.inf (w.s ^^ x.s), { Flags.none with inf := true })
  else (⟨.fin, w.s ^^ x.s, w.log + x.log⟩, Flags.none)

def tabAt (l : List Int) (i : Nat) : Int := l.getD i 0

/-- sb(u) of R50. -/
def Tables.sbOf (t : Tables) (u : Nat) : Int :=
  if u ≥ 262144 then 0
  else
    let j := u / 2048
    tabAt t.sb j + rne (tabAt t.sbd j * (u % 2048 : Nat)) 11

/-- db(u) of R50, 256 ≤ u; DB1 starts at node 4. -/
def Tables.dbOf (t : Tables) (u : Nat) : Int :=
  if u ≥ 262144 then 0
  else if u < 16384 then
    let j := u / 64
    tabAt t.db1 (j - 4) + rne (tabAt t.db1d (j - 4) * (u % 64 : Nat)) 6
  else
    let j := (u - 16384) / 512
    tabAt t.db2 j + rne (tabAt t.db2d j * ((u - 16384) % 512 : Nat)) 9

/-- The antilog of R52: exponent and mantissa with 30 fraction bits; lp is in units of 2^−16 octave. -/
def Tables.antilog (t : Tables) (lp : Int) : Int × Int :=
  let e := lp / 65536
  let f := (lp % 65536).toNat
  let j := f / 64
  (e, tabAt t.al j + rne (tabAt t.ald j * (f % 64 : Nat)) 6)

/-- The result of a pair (R50, R51). -/
inductive PairR where
  | log (s : Bool) (lp : Int)
  | lin (s : Bool) (e m : Int)
  | zero
deriving DecidableEq, Repr

/-- R50 and R51, for products of the finite and zero classes; p comes from tread 2i. -/
def Tables.pair (t : Tables) (p q : W) : PairR :=
  match p.cls, q.cls with
  | .fin, .fin =>
    let (hi, lo) := if p.log ≥ q.log then (p, q) else (q, p)
    let u := (hi.log - lo.log).toNat
    if hi.s = lo.s then .log hi.s (hi.log * 4 + t.sbOf u)
    else if u < 256 then
      let (eh, mh) := t.antilog (hi.log * 4)
      let (el, ml0) := t.antilog (lo.log * 4)
      let ml := if el < eh then rto ml0 1 else ml0
      if mh = ml then .zero else .lin hi.s eh (mh - ml)
    else .log hi.s (hi.log * 4 + t.dbOf u)
  | .fin, _ => .log p.s (p.log * 4)
  | _, .fin => .log q.s (q.log * 4)
  | _, _ => .zero

/-- A term of the fixed-point tree: sign, exponent, mantissa. -/
structure Term where
  s : Bool
  e : Int
  m : Int
deriving DecidableEq, Repr

def Tables.termOf (t : Tables) : PairR → Option Term
  | .log s lp => let (e, m) := t.antilog lp; some ⟨s, e, m⟩
  | .lin s e m => if m = 0 then none else some ⟨s, e, m⟩
  | .zero => none

/-- Largest exponent of a list of terms. -/
def maxExp : List Term → Int
  | [] => 0
  | x :: r => r.foldl (fun a y => max a y.e) x.e

/-- A term aligned to emax with g guard places, rounded to odd when it is shifted further (R52, R55). -/
def alignTerm (g : Nat) (emax : Int) (x : Term) : Int :=
  let sh := (emax - x.e).toNat
  let a := if sh ≤ g then x.m * (2 ^ (g - sh) : Nat) else rto x.m (sh - g)
  if x.s then -a else a

/-- `fp32_rto(T, x)`: T × 2^x rounded to odd into FP32 (R53); a zero gives +0.0. The flag is INF_SEEN. -/
def fp32Rto (t : Int) (x : Int) : Nat × Flags :=
  if t = 0 then (0, Flags.none)
  else
    let r := b32.rnd .rto (t < 0) t.natAbs x
    (r, { Flags.none with inf := (b32.dec r).isInf })

/-- The tree sum of aligned terms: g = 11 for L-mode (R52), 10 for wide sum (R55). -/
def treeSum (g : Nat) (terms : List Term) : Nat × Flags :=
  match terms with
  | [] => (0, Flags.none)
  | _ =>
    let emax := maxExp terms
    fp32Rto ((terms.map (alignTerm g emax)).sum) (emax - 30 - g)

/-- Table 02-5, applied once to the whole chunk: none when every product is finite or zero. -/
def specialSum (ps : List W) : Option (Nat × Flags) :=
  let nanP := ps.any (·.cls == .nan)
  let pos := ps.any fun p => p.cls == .inf && !p.s
  let neg := ps.any fun p => p.cls == .inf && p.s
  if nanP then some (b32.nan, { Flags.none with nan := true })
  else if pos && neg then some (b32.nan, { Flags.none with nan := true, isum := true })
  else if pos || neg then some (b32.withSign neg b32.infBits, { Flags.none with inf := true })
  else none

/-- Treads 2i and 2i+1 form pair i. -/
def Tables.pairs (t : Tables) : List W → List PairR
  | p :: q :: r => t.pair p q :: t.pairs r
  | [p] => [t.pair p W.zero]
  | [] => []

/-- The 64 products of a chunk with their flags. -/
def products (ws xs : List W) : List W × Flags :=
  let r := List.zipWith product ws xs
  (r.map (·.1), r.foldl (fun f p => f.or p.2) Flags.none)

/-- One L-mode chunk: flight output and the flags of the position (R50 to R53, R59). -/
def Tables.chunkL (t : Tables) (ws xs : List W) : Nat × Flags :=
  let (ps, f) := products ws xs
  match specialSum ps with
  | some (o, g) => (o, f.or g)
  | none => let (o, g) := treeSum 11 ((t.pairs ps).filterMap t.termOf); (o, f.or g)

/-- One wide-sum chunk (R55). -/
def Tables.chunkWide (t : Tables) (ws xs : List W) : Nat × Flags :=
  let (ps, f) := products ws xs
  match specialSum ps with
  | some (o, g) => (o, f.or g)
  | none =>
    let terms := ps.filterMap fun p => if p.cls = .fin then
      (let (e, m) := t.antilog (p.log * 4); some (Term.mk p.s e m)) else none
    let (o, g) := treeSum 10 terms
    (o, f.or g)

/-- A ternary weight: −1, 0 or +1. -/
def ternOf (code : Nat) : Int := if code = 1 then 1 else if code = 3 then -1 else 0

/-- One T-mode chunk (R56). `wt` are the weight codes of the flight, `fine` the fine code of each weight's block,
`blk` the block size, `cw` the weight tensor's coarse scale. -/
def Tables.chunkT (t : Tables) (wt : List Nat) (xs : List W) (fines : List Nat) (blk : Nat) (cw : Int) : Nat × Flags :=
  let ws := (List.range wt.length).map fun i => zt2ToW (wt.getD i 0) 0 (if fines.getD (i / blk) 0 = 0x80 then 0x80 else 0)
  let bad := (List.range wt.length).any fun i => wt.getD i 0 == 2 && fines.getD (i / blk) 0 != 0x80
  let (ps, f0) := products ws xs
  let f := { f0 with tern := bad }
  match specialSum ps with
  | some (o, g) => (o, f.or g)
  | none =>
    if ps.all (·.cls == .zero) then (0, f)
    else
      let fx := xs.filter (·.cls == .fin)
      let ex := fx.map fun x => Term.mk x.s (t.antilog (x.log * 4)).1 (t.antilog (x.log * 4)).2
      let emax := maxExp ex
      let A := xs.map fun x => if x.cls = .fin then
        alignTerm 8 emax ⟨x.s, (t.antilog (x.log * 4)).1, (t.antilog (x.log * 4)).2⟩ else 0
      let live := (List.range fines.length).filter fun b => fines.getD b 0x80 != 0x80
      let fb := fun b => sext 8 (fines.getD b 0)
      let fmax := live.foldl (fun m b => max m (fb b)) (-127)
      let s := live.foldl (fun s b =>
        let bs := ((List.range blk).map fun i => ternOf (wt.getD (b * blk + i) 0) * A.getD (b * blk + i) 0).sum
        let dl := (fmax - fb b).toNat
        if dl = 0 then s + bs
        else s + rto (bs * tabAt gConst ((8 - dl % 8) % 8)) (24 + (dl + 7) / 8)) 0
      let (o, g) := fp32Rto (s * tabAt gConst (fmax % 8).toNat) (emax - 38 - 24 + fmax / 8 + cw)
      (o, f.or g)

/-- The exact sum of one B-mode chunk (R57). -/
def chunkB (ws xs : List Int) : Int := (List.zipWith (· * ·) ws xs).sum

/-- R58. -/
def bRescale (acc corr mult : Int) (shift : Nat) : Int :=
  let p := (acc + corr) * mult
  if shift = 0 then p else rne p shift

/-- R54: FP32 addition of partials, older on the left, with its flags. -/
def addF (a b : Nat) : Nat × Flags :=
  let x := b32.dec a
  let y := b32.dec b
  let r := b32.add .rne a b
  (r, if x.isNan || y.isNan then Flags.none
      else if x.isInf && y.isInf && x.sign != y.sign then { Flags.none with nan := true, isum := true }
      else if (b32.dec r).isInf && x.isFin && y.isFin then { Flags.none with inf := true } else Flags.none)

end Sys2Proof.Machine
end

