-- ==== Sys2Proof/Machine/EArith.lean ====
section
/-! DEFINITION. Elementwise operations of the log domain (R70 to R73, Table 04-18) and of the Newel (R258, R266). -/

namespace Sys2Proof.Machine

/-- An E-mode result: a W-form value, or the FP32 value of LOG2 and LN, rounded to nearest and to odd (R40). -/
inductive EVal where
  | w (v : W)
  | f (bits odd : Nat)
deriving DecidableEq, Repr

def EVal.toW : EVal → W
  | .w v => v
  | .f b _ => fp32ToW b
def EVal.toF32 : EVal → Nat
  | .w v => wToFp32 v
  | .f b _ => b
def EVal.isNan : EVal → Bool
  | .w v => v.cls == .nan
  | .f b _ => (b32.dec b).isNan
def EVal.isInf : EVal → Bool
  | .w v => v.cls == .inf
  | .f b _ => (b32.dec b).isInf

/-- Order of two W-form values that are not NaN, as extended reals. -/
def W.key (w : W) : Int × Int :=
  match w.cls with
  | .zero => (0, 0)
  | .nan => (0, 0)
  | .fin => if w.s then (-1, -w.log) else (1, w.log)
  | .inf => if w.s then (-2, 0) else (2, 0)
def W.lt (a b : W) : Bool := a.key.1 < b.key.1 || (a.key.1 == b.key.1 && a.key.2 < b.key.2)

/-- A function table of the plan (Table 04-6). -/
structure FuncTab where
  log  : Bool
  sym  : Nat
  q    : Int
  x0   : Nat
  libid : Nat
  raw  : List Byte           -- bytes 0x00–0x0F + 4N, for the library digest
  y    : List Nat
deriving DecidableEq, Repr

/-- An exact rational num / 2^sh with num an integer, and whether bits were dropped below. -/
structure Dyad where
  num : Int
  sh  : Nat
  inexact : Bool
deriving DecidableEq, Repr

/-- 2^(l/16384) to 256 fraction bits below its leading bit, signed; exact when 16384 divides l. -/
def pow2Dyad (s : Bool) (l : Int) : Fp × Bool :=
  let f := (l % 16384).toNat
  (.fin s (pow2Mant 14 256 f) (l / 16384 - 256), f ≠ 0)

/-- Interpolate at the exact (or 256-bit) position t = tn × 2^te ≥ 0 (R73). -/
def FuncTab.interp (tab : FuncTab) (t : Fp) (inexact : Bool) : Nat :=
  let n := tab.y.length
  match t with
  | .fin s m e =>
    if m = 0 || s then tab.y.getD 0 0
    else
      let j := if e ≥ 0 then m * 2 ^ e.toNat else m / 2 ^ (-e).toNat
      if j ≥ n - 1 then tab.y.getD (n - 1) 0
      else
        let r : Fp := if e ≥ 0 then .fin false 0 0 else .fin false (m % 2 ^ (-e).toNat) e
        let a := b32.dec (tab.y.getD j 0)
        let d := (b32.dec (tab.y.getD (j + 1) 0)).sub a
        match a.add (d.mul r) with
        | .fin s m e => b32.rnd .rto s (if inexact && !d.isZero then 4 * m + 1 else m) (if inexact && !d.isZero then e - 2 else e)
        | x => b32.enc .rto x
  | .inf s => if s then tab.y.getD 0 0 else tab.y.getD (n - 1) 0
  | .nan => b32.nan

def shiftExp (x : Fp) (q : Int) : Fp :=
  match x with
  | .fin s m e => .fin s m (e - q)
  | y => y

/-- Evaluation of a table at a value that is not NaN and has no symmetry left to apply. -/
def FuncTab.at_ (tab : FuncTab) (a : W) : Nat :=
  if tab.log then
    match a.cls with
    | .zero => tab.y.getD 0 0
    | .inf => tab.y.getD (tab.y.length - 1) 0
    | .nan => b32.nan
    | .fin =>
      let d := a.log - sext 32 tab.x0
      tab.interp (shiftExp (.fin (d < 0) d.natAbs 0) tab.q) false
  else
    match a.cls with
    | .zero => tab.interp (shiftExp ((Fp.fin false 0 0).sub (b32.dec tab.x0)) tab.q) false
    | .inf => tab.interp (.inf a.s) false
    | .nan => b32.nan
    | .fin =>
      let (x, inex) := pow2Dyad a.s a.log
      tab.interp (shiftExp (x.sub (b32.dec tab.x0)) tab.q) inex

/-- FUNC (R73): for a negative a the symmetry setting decides. -/
def FuncTab.eval (tab : FuncTab) (a : W) : W :=
  if a.cls = .nan then W.nan
  else if a.s then
    let r := fp32ToW (tab.at_ { a with s := false })
    match tab.sym with
    | 1 => r
    | 2 => if r.cls = .fin ∨ r.cls = .inf then { r with s := !r.s } else r
    | _ => W.nan
  else fp32ToW (tab.at_ a)

/-- E-mode operation codes (Table 04-18). -/
abbrev eMUL : Nat := 0x01
abbrev eDIV : Nat := 0x02
abbrev eRECIP : Nat := 0x03
abbrev eSQRT : Nat := 0x04
abbrev eRSQRT : Nat := 0x05
abbrev ePOW : Nat := 0x06
abbrev eSCALE : Nat := 0x07
abbrev eEXP : Nat := 0x08
abbrev eLOG2 : Nat := 0x09
abbrev eLN : Nat := 0x0A
abbrev eABS : Nat := 0x0B
abbrev eNEG : Nat := 0x0C
abbrev eMAX : Nat := 0x0D
abbrev eMIN : Nat := 0x0E
abbrev eCMPGT : Nat := 0x0F
abbrev eCMPEQ : Nat := 0x10
abbrev eFUNC : Nat := 0x11

/-- Raise NAN_SEEN and INF_SEEN by the result's class (R71). -/
def withFlags (v : EVal) (f : Flags) : EVal × Flags :=
  (v, { f with nan := f.nan || v.isNan, inf := f.inf || v.isInf })

def eMulV (a b : W) : EVal × Flags :=
  let (p, f) := product a b
  withFlags (.w (if p.cls = .fin then wFinite p.s p.log else p)) f

/-- DIV of Table 02-7. DESIGN CHOICE: the table names no infinity by a finite value. By zero it gives an infinity with the sign of a,
by any other an infinity with sign a.s xor b.s, and neither raises INVALID_PRODUCT (log 94). -/
def eDivV (a b : W) : EVal × Flags :=
  match a.cls, b.cls with
  | .nan, _ => withFlags (.w W.nan) Flags.none
  | _, .nan => withFlags (.w W.nan) Flags.none
  | .zero, .zero => withFlags (.w W.nan) { Flags.none with iprod := true }
  | .inf, .inf => withFlags (.w W.nan) { Flags.none with iprod := true }
  | .zero, _ => withFlags (.w W.zero) Flags.none
  | _, .inf => withFlags (.w W.zero) Flags.none
  | .inf, _ => withFlags (.w (W.inf (a.s ^^ b.s))) Flags.none
  | _, .zero => withFlags (.w (W.inf a.s)) Flags.none
  | .fin, .fin => withFlags (.w (wFinite (a.s ^^ b.s) (a.log - b.log))) Flags.none

def eRecipV (a : W) : W :=
  match a.cls with
  | .nan => W.nan
  | .zero => W.inf false
  | .inf => W.zero
  | .fin => wFinite a.s (-a.log)

def eSqrtV (a : W) : W :=
  match a.cls with
  | .nan => W.nan
  | .zero => W.zero
  | .inf => if a.s then W.nan else W.inf false
  | .fin => if a.s then W.nan else wFinite false (rto a.log 1)

def eRsqrtV (a : W) : W :=
  match a.cls with
  | .nan => W.nan
  | .zero => W.inf false
  | .inf => if a.s then W.nan else W.zero
  | .fin => if a.s then W.nan else wFinite false (rto (-a.log) 1)

/-- POW (P), P with 8 fraction bits. -/
def ePowV (p : Int) (a : W) : W :=
  let whole := p % 256 == 0
  let oddP := whole && (p / 256) % 2 == 1
  match a.cls with
  | .nan => W.nan
  | .zero => if p > 0 then W.zero else if p = 0 then W.one else W.inf false
  | .inf =>
    if a.s && !whole then W.nan
    else if p > 0 then W.inf (a.s && oddP) else if p = 0 then W.one else W.zero
  | .fin =>
    if a.s && !whole then W.nan else wFinite (a.s && oddP) (rto (a.log * p) 8)

def eScaleV (n : Int) (a : W) : W := if a.cls = .fin then wFinite a.s (a.log + n) else a

/-- EXP of FP32 values y and β (R72). -/
def eExpV (y beta : Nat) : W :=
  match (b32.dec y).sub (b32.dec beta) with
  | .nan => W.nan
  | .inf s => if s then W.zero else W.inf false
  | .fin s m e =>
    -- beyond 2^8 octaves either way R23 decides alone
    if m = 0 then W.one
    else if (Nat.log2 m : Int) + e ≥ 9 then (if s then W.zero else W.inf false)
    else wFinite false (expLog s m e)

/-- LOG2 as FP32: a.log / 16384, exact. -/
def eLog2V (a : W) : Nat :=
  match a.cls with
  | .nan => b32.nan
  | .zero => b32.withSign true b32.infBits
  | .inf => if a.s then b32.nan else b32.infBits
  | .fin => if a.s then b32.nan else b32.rnd .rne (a.log < 0) a.log.natAbs (-14)

/-- LN as FP32: (a.log / 16384) × ln 2, rounded; irrational unless a.log is 0. -/
def eLnV (rm : Rm) (a : W) : Nat :=
  match a.cls with
  | .nan => b32.nan
  | .zero => b32.withSign true b32.infBits
  | .inf => if a.s then b32.nan else b32.infBits
  | .fin =>
    if a.s then b32.nan
    else if a.log = 0 then 0
    else b32.rnd rm (a.log < 0) (2 * (a.log.natAbs * ln2_1024) + 1) (-(1024 + 14 + 1))

def eAbsV (a : W) : W := if a.cls = .fin ∨ a.cls = .inf then { a with s := false } else a
def eNegV (a : W) : W := if a.cls = .fin ∨ a.cls = .inf then { a with s := !a.s } else a

def eSelV (gt : Bool) (a b : W) : W :=
  if a.cls = .nan ∨ b.cls = .nan then W.nan
  else if gt then (if a.lt b then b else a) else (if b.lt a then b else a)

def eCmpV (eq : Bool) (a b : W) : W :=
  if a.cls = .nan ∨ b.cls = .nan then W.nan
  else if (if eq then a == b else b.lt a) then W.one else W.zero

/-- Table 02-7 by operation code. `ya`, `yb` are the FP32 values that EXP takes in place of W-forms. -/
def eOp (mode : Nat) (const : Nat) (tab : FuncTab) (a b : W) (ya yb : Nat) : EVal × Flags :=
  if mode = eMUL then eMulV a b
  else if mode = eDIV then eDivV a b
  else if mode = eRECIP then withFlags (.w (eRecipV a)) Flags.none
  else if mode = eSQRT then withFlags (.w (eSqrtV a)) Flags.none
  else if mode = eRSQRT then withFlags (.w (eRsqrtV a)) Flags.none
  else if mode = ePOW then withFlags (.w (ePowV (sext 16 (fld const 0 16)) a)) Flags.none
  else if mode = eSCALE then withFlags (.w (eScaleV (sext 22 (fld const 0 22)) a)) Flags.none
  else if mode = eEXP then withFlags (.w (eExpV ya yb)) Flags.none
  else if mode = eLOG2 then withFlags (.f (eLog2V a) (eLog2V a)) Flags.none
  else if mode = eLN then withFlags (.f (eLnV .rne a) (eLnV .rto a)) Flags.none
  else if mode = eABS then withFlags (.w (eAbsV a)) Flags.none
  else if mode = eNEG then withFlags (.w (eNegV a)) Flags.none
  else if mode = eMAX then withFlags (.w (eSelV true a b)) Flags.none
  else if mode = eMIN then withFlags (.w (eSelV false a b)) Flags.none
  else if mode = eCMPGT then withFlags (.w (eCmpV false a b)) Flags.none
  else if mode = eCMPEQ then withFlags (.w (eCmpV true a b)) Flags.none
  else withFlags (.w (tab.eval a)) Flags.none

/-! ### The Newel (Table 09-3) -/

abbrev nADD : Nat := 0x01
abbrev nMUL : Nat := 0x02
abbrev nFMA : Nat := 0x03
abbrev nDIV : Nat := 0x04
abbrev nSQRT : Nat := 0x05
abbrev nMAXIMUM : Nat := 0x06
abbrev nMINIMUM : Nat := 0x07
abbrev nMAXNUM : Nat := 0x08
abbrev nMINNUM : Nat := 0x09
abbrev nCMP : Nat := 0x0A
abbrev nROWMAX : Nat := 0x0B
abbrev nXENT : Nat := 0x0C
abbrev nSAMPLE : Nat := 0x0D
abbrev nVERIFY : Nat := 0x0E

/-- compareQuiet by CONST[2:0]: equal, less, less-equal, unordered, not-equal; none for a code Table 09-3 does not name. -/
def cmpPred (F : FpFmt) (pred x y : Nat) : Option Bool :=
  let c := (F.dec x).cmp (F.dec y)
  match pred with
  | 0 => some (c == some .eq)
  | 1 => some (c == some .lt)
  | 2 => some (c == some .lt || c == some .eq)
  | 3 => some c.isNone
  | 4 => some (c != some .eq)
  | _ => none

/-- The value 1.0 of a format. -/
def FpFmt.one (F : FpFmt) : Nat := F.bias * 2 ^ (F.prec - 1)

/-- Operations that act element by element. `const` is the FP32 constant. -/
def newelEl (F : FpFmt) (mode const a b : Nat) : Nat :=
  if mode = nADD then F.add .rne a b
  else if mode = nMUL then F.mul .rne a b
  else if mode = nFMA then F.fma .rne a (F.enc .rne (b32.dec const)) b
  else if mode = nDIV then F.div .rne a b
  else if mode = nSQRT then F.sqrt .rne a
  else if mode = nMAXIMUM then F.maximum a b
  else if mode = nMINIMUM then F.minimum a b
  else if mode = nMAXNUM then F.maxNum a b
  else if mode = nMINNUM then F.minNum a b
  else match cmpPred F (fld const 0 3) a b with
    | some true => F.one
    | some false => 0
    | none => (Config.openWord mode [BitVec.ofNat 32 a, BitVec.ofNat 32 b]).toNat

/-- ROWMAX: maximum over the row in ascending element order. -/
def rowMax (F : FpFmt) : List Nat → Nat
  | [] => F.nan
  | x :: r => r.foldl F.maximum x

/-- uniform(w) = (w >> 40) × 2^−24 as FP32 (R258). -/
def uniform (w : DWord) : Nat := b32.rnd .rne false (w >>> 40).toNat (-24)

/-- sample(d, u): the first token whose running sum exceeds u times the total (R258), in FP32. -/
def sampleFrom (d : List Nat) (u : Nat) : Nat :=
  let total := d.foldl (b32.add .rne) 0
  let lim := b32.dec (b32.mul .rne u total)
  let go := d.foldl (fun (st : Nat × Nat × Option Nat) x =>
    let (i, sum, r) := st
    let sum := b32.add .rne sum x
    (i + 1, sum, match r with
      | some t => some t
      | none => if lim.lt (b32.dec sum) then some i else none)) (0, 0, none)
  match go.2.2 with
  | some t => t
  | none => (Config.openWord nSAMPLE (d.map (BitVec.ofNat 32))).toNat % d.length

/-- verify(p, q, x, D) of R258. `words` gives the lane's n-th word; the result is the accepted tokens, the sampled
token last, and the words drawn. -/
def verifyLoop (p q : List (List Nat)) (words : Nat → DWord) : Nat → List Nat → Nat → List Nat → List Nat × Nat
  | i, x :: xs, n, acc =>
    let u := uniform (words n)
    let pi := p.getD i []
    let qi := q.getD i []
    if (b32.dec (b32.mul .rne u (qi.getD x 0))).le (b32.dec (pi.getD x 0)) then
      verifyLoop p q words (i + 1) xs (n + 1) (acc ++ [x])
    else
      let r := List.zipWith (fun a b => b32.maximum (b32.sub .rne a b) 0) pi qi
      (acc ++ [sampleFrom r (uniform (words (n + 1)))], n + 2)
  | i, [], n, acc => (acc ++ [sampleFrom (p.getD i []) (uniform (words n))], n + 1)

end Sys2Proof.Machine
end

