-- ==== Sys2Proof/Machine/PlanTypes.lean ====
section
/-! DEFINITION. The contents of a Stairplan as plain data (04_stairplan.md): one structure per record. -/

namespace Sys2Proof.Machine

/-- STRUCTURE, one hall (R110). `gals` are the 64 gallery bytes. -/
structure HallRec where
  lhall  : Nat
  stages : Nat
  spares : Nat
  gals   : List Nat
deriving DecidableEq, Repr

/-- TENSORS record (R112). -/
structure TensorRec where
  tensor : Nat
  policy : Nat
  fmtRaw : Nat
  rows   : Nat
  cols   : Nat
  dogleg : Bool
  flags  : Nat
deriving DecidableEq, Repr

/-- RESCALE record (R116). -/
structure RescaleRec where
  corr  : Int
  mult  : Nat
  shift : Nat
deriving DecidableEq, Repr

/-- Pass record (Table 04-7). -/
structure PassRec where
  pass    : Nat
  twins   : Nat
  firstOp : Nat
  count   : Nat
  sems    : Nat
  semRel  : Nat
  early   : Nat
  gang    : Bool
  update  : Bool
deriving DecidableEq, Repr

/-- A chunk position of a bay: output group, K-chunk, KTILES (R355). -/
structure ChunkPos where
  (og ck ktiles : Nat)
deriving DecidableEq, Repr

/-- A bay that keeps its contents under a plan (R139), by the gallery and bay that the plan's records would name, with its tensor and the
chunks at its positions. -/
structure KeptBay where
  (tensor gal bay : Nat)
  chunks : List ChunkPos
deriving DecidableEq, Repr

/-- BAYLOAD (Table 04-16). -/
structure BayloadOp where
  ktiles : Nat
  gals   : Nat
  tensor : Nat
  bay    : Nat
  (ogFirst ogCount : Nat)
  (ckFirst ckCount : Nat)
deriving DecidableEq, Repr

/-- MATPASS (Table 04-9). `kind` is MODE[1:0]. -/
structure MatOp where
  kind    : Nat
  column  : Bool
  slots   : Nat
  release : Bool
  gals    : Nat
  wtensor : Nat
  xsrc    : Nat
  (ckFirst ckCount : Nat)
  tiles   : Nat
  chunks  : Nat
  ubase   : Nat
  xrow    : Nat
  rescale : Nat
  sfmt    : Nat
deriving DecidableEq, Repr

/-- EPASS (Table 04-17). -/
structure EOp where
  mode    : Nat
  (asrc bsrc : Nat)
  dest    : Bool
  release : Bool
  slots   : Nat
  szero   : Bool
  gals    : Nat
  (atensor btensor : Nat)
  (arow brow drow : Nat)
  dtensor : Nat
  const   : Nat
  tiles   : Nat
  sfmt    : Nat
deriving DecidableEq, Repr

/-- NEWEL (Table 09-2). -/
structure NewelOp where
  mode  : Nat
  fp64  : Bool
  loss  : Bool
  (srcA srcB : Nat)
  drow  : Nat
  rows  : Nat
  const : Nat
deriving DecidableEq, Repr

/-- RISER (Table 06-7). -/
structure RiserOp where
  apply   : Bool
  (ptensor mtensor vtensor : Nat)
  scalars : Nat
  tree    : Nat
  layer   : Nat
  (elFirst elCount : Nat)
  seg     : Nat
deriving DecidableEq, Repr

/-- SAVE (Table 06-2). -/
structure SaveOp where
  mode    : Nat
  (release audit : Bool)
  (target source : Nat)
  urow    : Nat
  (rowFirst rowCount : Nat)
deriving DecidableEq, Repr

/-- STORE (Table 04-19). -/
structure StoreOp where
  release : Bool
  slots   : Nat
  tensor  : Nat
  urow    : Nat
  (rowFirst rowCount : Nat)
  (colFirst ncols : Nat)
deriving DecidableEq, Repr

/-- HBMCOPY (Table 04-20). -/
structure CopyOp where
  (src dst : Nat)
  (srow drow nrows : Nat)
  (scol dcol ncols : Nat)
deriving DecidableEq, Repr

/-- SEND (Table 07-8). -/
structure SendOp where
  tensorRows : Bool
  release : Bool
  (route vc : Nat)
  tensor  : Nat
  urow    : Nat
  (first count : Nat)
  tkey    : Nat
deriving DecidableEq, Repr

/-- RECV (Table 07-9). -/
structure RecvOp where
  mode    : Nat
  state   : Bool
  slot    : Nat
  (route vc : Nat)
  tensor  : Nat
  urow    : Nat
  (first count : Nat)
  tkey    : Nat
  (ptensor pfirst : Nat)
deriving DecidableEq, Repr

/-- REDUCE (Table 07-11). -/
structure ReduceOp where
  mode    : Nat
  (release force : Bool)
  tree    : Nat
  abslist : Nat
  (shFirst shCount : Nat)
  (urow drow : Nat)
  srows   : Nat
  deadline : Nat
deriving DecidableEq, Repr

/-- An operation record by OPCODE (Table 04-8). -/
inductive Op where
  | bayload (o : BayloadOp)
  | matpass (o : MatOp)
  | epass (o : EOp)
  | newel (o : NewelOp)
  | riser (o : RiserOp)
  | save (o : SaveOp)
  | store (o : StoreOp)
  | hbmcopy (o : CopyOp)
  | send (o : SendOp)
  | recv (o : RecvOp)
  | reduce (o : ReduceOp)
  | hallwait (lhall opindex : Nat)
  | bad
deriving DecidableEq, Repr

/-- SCHEDULE of one hall (R117). -/
structure Sched where
  passes : List PassRec
  ops    : List Op
deriving DecidableEq, Repr

/-- A tree (Table 04-10). -/
structure TreeRec where
  num      : Nat
  carry    : Bool
  vgroup   : Nat
  shards   : Nat
  deadline : Nat
  tdigest  : List Byte
  ranks    : List Nat
  nodes    : List (Nat × Nat)
deriving DecidableEq, Repr

/-- A route (R127). -/
structure RouteRec where
  dest  : Nat
  ports : List Nat
deriving DecidableEq, Repr

/-- A virtual-channel entry (R128). -/
structure VcEnt where
  group   : Nat
  credits : Nat
deriving DecidableEq, Repr

/-- A generator stream (R130). -/
structure Stream where
  salt  : DWord
  cls   : Nat
  units : Nat
deriving DecidableEq, Repr

/-- A tensor policy record (R132). Coefficients are FP32 bit patterns. -/
structure TPolicy where
  round   : Nat
  hist    : Nat
  backoff : Nat
  opt     : Nat
  rem     : Nat
  coef    : List Nat
deriving DecidableEq, Repr

/-- BOUNDS (R134). -/
structure Bounds where
  (sliceMin sliceMax : Nat)
  overrun  : Nat
  commit   : Nat
deriving DecidableEq, Repr

/-- SCISSOR (R135), with its 16 raw bytes. -/
structure ScissorRec where
  form  : Nat
  leg   : Nat
  partner : Nat
  primHall : Nat
  primAddr : Nat
  raw   : List Byte
deriving DecidableEq, Repr

/-- A Stairplan that has been read. Lists over halls are in logical hall order. -/
structure Plan where
  planId  : DWord
  strict  : Bool
  scissorF : Bool
  test    : Bool
  phalls  : Nat
  struct_ : List HallRec
  tables  : Tables
  funcs   : List FuncTab
  tensors : List TensorRec
  sched   : List Sched
  rescale : List RescaleRec
  trees   : List TreeRec
  routes  : List (List RouteRec)
  vchans  : List (List VcEnt)          -- 80 entries a hall: 16 for each of five ports
  seedM   : List DWord
  streams : List Stream
  tau     : Nat
  strikeWin : Nat
  staging : Nat
  pols    : List TPolicy
  bounds  : Bounds
  scissor : Option ScissorRec
  pairDigest : List Byte               -- the pairing digest of R135
  ledgers : List Nat                   -- ledger size of each hall in units of 64 KiB (R251)
  canon   : Bool × Bool × Bool         -- SB, DB and AL match their canonical digests (R66)
  funcNc  : Nat                        -- library tables whose digest differs (R115)
  kept    : List (List KeptBay)        -- by logical hall, bays that keep an earlier plan's contents (R139)
deriving DecidableEq, Repr

end Sys2Proof.Machine
end

