-- ==== Sys2Proof/Machine/PlanFmt.lean ====
section
/-! DEFINITION. Reading the Stairplan container and its sections (04_stairplan.md, 06, 07 and 09 for the records of
other units). Nothing here judges a value; Machine/PlanVal.lean does. -/

namespace Sys2Proof.Machine

/-! ### Header, directory, trailer (Tables 04-1, 04-2, 04-4) -/

/-- A directory entry (Table 04-2). -/
structure DirEnt where
  typ    : Nat
  mask   : Nat
  off    : Nat
  len    : Nat
  digest : List Byte
  rsvOk  : Bool
deriving DecidableEq, Repr

def planTotal (c : List Byte) : Nat := u32 c 0x1C
def planNsect (c : List Byte) : Nat := u16 c 0x20
def planFlags (c : List Byte) : Nat := u32 c 0x0C
def planPhalls (c : List Byte) : Nat := u8 c 8

def dirEnt (c : List Byte) (i : Nat) : DirEnt :=
  let r := bytesAt c (0x100 + 64 * i) 64
  { typ := u16 r 0, mask := u8 r 2, off := u32 r 4, len := u32 r 8, digest := bytesAt r 16 48,
    rsvOk := u8 r 3 == 0 && u32 r 12 == 0 }

def dirEnts (c : List Byte) : List DirEnt := (List.range (planNsect c)).map (dirEnt c)

def trailer (c : List Byte) : List Byte := bytesAt c (planTotal c - 256) 256

/-- The signed message of R108. -/
def signedMessage (c : List Byte) : List Byte := c.take (planTotal c - 256) ++ (trailer c).take 0x70

/-- A section of the container: type, hall mask, content, and what the directory says of its digest. -/
structure Sect where
  typ    : Nat
  mask   : Nat
  body   : List Byte
  digest : List Byte
deriving DecidableEq, Repr

def sections (c : List Byte) : List Sect :=
  (dirEnts c).map fun e => ⟨e.typ, e.mask, bytesAt c e.off e.len, e.digest⟩

/-- The one section of a type, or nothing. Every hall of the partition is served by it. DESIGN CHOICE: R106 lets its HALLMASK leave
a hall out, and does not say what that hall then does (log 116). -/
def sectOnce (ss : List Sect) (t : Nat) : Option (List Byte) := (ss.find? (·.typ == t)).map Sect.body

/-- The section of a type that logical hall i receives. -/
def sectHall (ss : List Sect) (t i : Nat) : Option (List Byte) :=
  (ss.find? fun x => x.typ == t && bit x.mask i).map Sect.body

/-- Consecutive records of n bytes. -/
def records (n : Nat) (b : List Byte) : List (List Byte) := (List.range (b.length / n)).map fun i => bytesAt b (n * i) n

/-! ### STRUCTURE, TENSORS, RESCALE, FUNCTIONS -/

def parseHall (r : List Byte) : HallRec :=
  ⟨u8 r 0, u8 r 1, u8 r 2, (bytesAt r 16 64).map BitVec.toNat⟩

def parseTensor (r : List Byte) : TensorRec :=
  { tensor := u16 r 0, policy := u16 r 2, fmtRaw := u32 r 4, rows := u32 r 8, cols := u32 r 12,
    dogleg := bit (u8 r 16) 0, flags := u8 r 16 }

def parseRescale (r : List Byte) : RescaleRec := ⟨sext 64 (u64 r 0), u16 r 8, u8 r 10⟩

/-- The function table that starts at a byte of FUNCTIONS (Table 04-6). -/
def parseFunc (b : List Byte) (off : Nat) : FuncTab :=
  let n := u16 b off
  let inp := u8 b (off + 2)
  { log := bit inp 0, sym := fld inp 1 2, q := sext 8 (u8 b (off + 3)), x0 := u32 b (off + 4), libid := u16 b (off + 8),
    raw := bytesAt b off (16 + 4 * n), y := (List.range n).map fun i => u32 b (off + 16 + 4 * i) }

/-- Bytes a function table takes, with its padding to 16 bytes. -/
def funcLen (n : Nat) : Nat := 16 + roundUp (4 * n) 16

/-- The tables of FUNCTIONS in order, by count and offset. -/
def parseFuncs (b : List Byte) : Nat → Nat → List FuncTab
  | 0, _ => []
  | k + 1, off => parseFunc b off :: parseFuncs b k (off + funcLen (u16 b off))

/-! ### SCHEDULE -/

def parsePass (r : List Byte) : PassRec :=
  { pass := fld (u16 r 0) 0 14, twins := u16 r 2, firstOp := u32 r 4, count := u16 r 8, sems := u8 r 10,
    semRel := u8 r 11, early := u16 r 12, gang := bit (u8 r 14) 0, update := bit (u8 r 14) 1 }

/-- Consecutive pieces of n. -/
def chunksOf {α : Type} (n : Nat) (l : List α) : List (List α) :=
  (List.range (ceilDiv l.length n)).map fun i => (l.drop (n * i)).take n

/-- Galleries named by a mask, in ascending order. -/
def maskList (n width : Nat) : List Nat := (List.range width).filter (bit n)

def parseOp (r : List Byte) : Op :=
  let mode := u8 r 1
  let fl := u16 r 2
  match u8 r 0 with
  | 0x01 => .bayload
      { ktiles := fld mode 0 3, gals := u64 r 4, tensor := u16 r 12, bay := u16 r 14, ogFirst := u16 r 16,
        ogCount := u16 r 18, ckFirst := u16 r 20, ckCount := u16 r 22 }
  | 0x02 => .matpass
      { kind := fld mode 0 2, column := bit mode 2, slots := fld fl 0 2, release := bit fl 2,
        gals := u64 r 4, wtensor := u16 r 12, xsrc := u16 r 14, ckFirst := u16 r 16, ckCount := u16 r 18,
        tiles := u16 r 20, chunks := u16 r 22, ubase := u16 r 24, xrow := u16 r 26, rescale := u16 r 28,
        sfmt := fld (u8 r 30) 0 4 }
  | 0x03 => .epass
      { mode := mode, asrc := fld fl 0 2, bsrc := fld fl 2 2, dest := bit fl 4, release := bit fl 5,
        slots := fld fl 6 2, szero := bit fl 8, gals := u64 r 4, atensor := u16 r 12, btensor := u16 r 14,
        arow := u16 r 16, brow := u16 r 18, drow := u16 r 20, dtensor := u16 r 22, const := u32 r 24, tiles := u16 r 28,
        sfmt := fld (u8 r 30) 0 4 }
  | 0x04 => .newel
      { mode := mode, fp64 := bit fl 0, loss := bit fl 1, srcA := u16 r 4, srcB := u16 r 6, drow := u16 r 8,
        rows := u16 r 10, const := u32 r 12 }
  | 0x05 => .riser
      { apply := bit mode 0, ptensor := u16 r 4, mtensor := u16 r 6, vtensor := u16 r 8, scalars := u16 r 10,
        tree := u16 r 12, layer := u16 r 14, elFirst := u32 r 16, elCount := u32 r 20, seg := u32 r 24 }
  | 0x06 => .save
      { mode := fld mode 0 2, release := bit fl 0, audit := bit fl 1, target := u16 r 4, source := u16 r 6,
        urow := u16 r 8, rowFirst := u32 r 12, rowCount := u32 r 16 }
  | 0x07 => .store
      { release := bit fl 0, slots := fld fl 1 2, tensor := u16 r 4, urow := u16 r 6, rowFirst := u32 r 8,
        rowCount := u32 r 12, colFirst := u32 r 16, ncols := u32 r 20 }
  | 0x08 => .hbmcopy
      { src := u16 r 4, dst := u16 r 6, srow := u32 r 8, drow := u32 r 12, nrows := u32 r 16,
        scol := u32 r 20, dcol := u32 r 24, ncols := u32 r 28 }
  | 0x09 => .send
      { tensorRows := bit mode 0, release := bit fl 0, route := u16 r 4, vc := fld (u8 r 6) 0 4,
        tensor := u16 r 8, urow := u16 r 10, first := u32 r 12, count := u32 r 16, tkey := u16 r 20 }
  | 0x0A => .recv
      { mode := fld mode 0 2, state := bit mode 2, slot := fld mode 3 1, route := u16 r 4,
        vc := fld (u8 r 6) 0 4, tensor := u16 r 8, urow := u16 r 10, first := u32 r 12, count := u32 r 16,
        tkey := u16 r 20, ptensor := u16 r 22, pfirst := u32 r 24 }
  | 0x0B => .reduce
      { mode := fld mode 0 2, release := bit fl 0, force := bit fl 1, tree := u16 r 4, abslist := u16 r 6,
        shFirst := u32 r 8, shCount := u32 r 12, urow := u16 r 16, drow := u16 r 18, srows := u32 r 20,
        deadline := u16 r 24 }
  | 0x0C => .hallwait (u8 r 4) (u32 r 8)
  | _ => .bad

/-- Reserved bits and bytes of an operation record are zero (Tables 04-9, 04-16 to 04-21, 06-2, 06-7, 07-8, 07-9, 07-11,
09-2). -/
def opRsvOk (r : List Byte) : Bool :=
  let mode := u8 r 1
  let fl := u16 r 2
  let z := fun (o n : Nat) => allZero (bytesAt r o n)
  match u8 r 0 with
  | 0x01 => mode < 8 && fl == 0 && z 24 8
  | 0x02 => mode < 8 && fl < 8 && u8 r 30 < 16 && z 31 1
  | 0x03 => fl < 512 && fld fl 0 2 < 2 && u8 r 30 < 16 && z 31 1
  | 0x04 => fl < 4 && z 16 16
  | 0x05 => mode < 2 && fl == 0 && z 28 4
  | 0x06 => mode < 3 && fl < 4 && z 10 2 && z 20 12
  | 0x07 => mode == 0 && fl < 8 && z 24 8
  | 0x08 => mode == 0 && fl == 0
  | 0x09 => mode < 2 && fl < 2 && u8 r 6 < 16 && z 7 1 && z 22 10
  | 0x0A => mode < 16 && fl == 0 && u8 r 6 < 16 && z 7 1 && z 28 4
  | 0x0B => mode < 4 && fl < 4 && z 26 6
  | 0x0C => mode == 0 && fl == 0 && z 5 3 && z 12 20
  | _ => false

/-- Pass and operation records of a SCHEDULE section (R117). -/
def schedPassBytes (b : List Byte) : List (List Byte) := records 16 (bytesAt b 16 (16 * u16 b 0))
def schedOpBytes (b : List Byte) : List (List Byte) := records 32 (bytesAt b (16 + 16 * u16 b 0) (32 * u32 b 4))
def parseSched (b : List Byte) : Sched := ⟨(schedPassBytes b).map parsePass, (schedOpBytes b).map parseOp⟩

/-! ### TREES, ROUTES, VCHANNELS, SEEDS, POLICY, BOUNDS, SCISSOR -/

def treeLen (nranks : Nat) : Nat := 32 + roundUp (4 * nranks + 8 * (nranks - 1)) 16

/-- A tree record from its first byte (Table 04-10). A node is the pair of its child words. -/
def parseTree (b : List Byte) (off : Nat) : TreeRec :=
  let n := u32 b (off + 4)
  { num := u16 b off, carry := bit (u8 b (off + 2)) 0, vgroup := u8 b (off + 3), shards := u32 b (off + 8),
    deadline := u16 b (off + 12), tdigest := bytesAt b (off + 16) 16,
    ranks := (List.range n).map fun i => u32 b (off + 32 + 4 * i),
    nodes := (List.range (n - 1)).map fun i =>
      (u32 b (off + 32 + 4 * n + 8 * i), u32 b (off + 32 + 4 * n + 8 * i + 4)) }

def treeOffs (b : List Byte) : Nat → Nat → List Nat
  | 0, _ => []
  | k + 1, off => off :: treeOffs b k (off + treeLen (u32 b (off + 4)))

def parseTrees (b : List Byte) : List TreeRec := (treeOffs b (u16 b 0) 16).map (parseTree b)

/-- A route record: destination, HOPS, hop bytes (R127; DEST in bytes 0–3, HOPS in byte 4, hops from byte 5, log 8). -/
def parseRoute (r : List Byte) : RouteRec :=
  ⟨u32 r 0, (bytesAt r 5 (u8 r 4)).map fun x => fld x.toNat 0 6⟩

def parseVc (r : List Byte) : VcEnt := ⟨fld (u16 r 0) 0 4, u16 r 2⟩

def parseStream (r : List Byte) : Stream := ⟨BitVec.ofNat 64 (u64 r 0), u8 r 8, u32 r 12⟩

def parsePolicy (r : List Byte) : TPolicy :=
  ⟨u8 r 0, u8 r 1, u8 r 2, u8 r 3, u16 r 4, (List.range 6).map fun i => u32 r (8 + 4 * i)⟩

def parseBounds (b : List Byte) : Bounds := ⟨u32 b 0, u32 b 4, u16 b 8, u8 b 10⟩

def parseScissor (b : List Byte) : ScissorRec :=
  { form := u8 b 0, leg := u8 b 1, partner := fld (u32 b 2) 0 18, primHall := u16 b 6, primAddr := u32 b 8,
    raw := b.take 16 }

/-- A run of bytes of the container replaced by zeros. -/
def zeroAt (c : List Byte) (off len : Nat) : List Byte :=
  c.take off ++ List.replicate (min len (c.length - off)) 0 ++ c.drop (off + len)

/-- The pairing digest of R135: the signed message with the SCISSOR section's bytes and its DIGEST field zero. -/
def pairingDigest (c : List Byte) : List Byte :=
  let m := signedMessage c
  let ents := dirEnts c
  sha384 ((List.range ents.length).foldl (fun m i =>
    match ents[i]? with
    | some e => if e.typ = 0x0D then zeroAt (zeroAt m e.off e.len) (0x100 + 64 * i + 16) 48 else m
    | none => m) m)

/-! ### What a plan says -/

def Plan.tensor? (p : Plan) (t : Nat) : Option TensorRec := p.tensors.find? (·.tensor == t)
def Plan.fmtOf (p : Plan) (t : Nat) : FmtWord := FmtWord.ofNat ((p.tensor? t).map TensorRec.fmtRaw |>.getD 0)
def Plan.policyOf (p : Plan) (t : Nat) : Option TPolicy := do
  let r ← p.tensor? t
  p.pols[r.policy]?
def Plan.tree? (p : Plan) (n : Nat) : Option TreeRec := p.trees.find? (·.num == n)
def Plan.sched? (p : Plan) (lh : Nat) : Option Sched := p.sched[lh]?
def Sched.pass? (s : Sched) (pass : Nat) : Option PassRec := s.passes.find? (·.pass == pass)
def Plan.pass? (p : Plan) (lh pass : Nat) : Option PassRec := (p.sched? lh).bind (·.pass? pass)

/-- The operations of logical hall lh's share of a pass, in record order. -/
def Plan.passOps (p : Plan) (lh pass : Nat) : List Op :=
  match p.sched? lh with
  | none => []
  | some s => match s.pass? pass with
    | none => []
    | some r => (s.ops.drop r.firstOp).take r.count

/-- A pass exists when some hall of the plan holds a share of it (R117). -/
def Plan.hasPass (p : Plan) (pass : Nat) : Bool := (List.range p.phalls).any fun i => (p.pass? i pass).isSome

def Plan.allOps (p : Plan) : List Op := p.sched.flatMap Sched.ops

/-- Managed tensors (R185): those the plan writes with SAVE, REBLOCK, STORE or RISER. -/
def Op.managedTargets (pol : Nat → Option Nat) : Op → List Nat
  | .save o => [o.target]
  | .store o => [o.tensor]
  | .riser o =>
    if o.apply then ([o.ptensor, o.mtensor, o.vtensor] ++ (pol o.ptensor).toList).filter (· != 0xFFFF) else []
  | _ => []

/-- The remainder tensor of a parameter with ROUND 2 (R133). -/
def Plan.remOf (p : Plan) (t : Nat) : Option Nat :=
  match p.policyOf t with
  | some pol => if pol.round = 2 then some pol.rem else none
  | none => none

def Plan.managed (p : Plan) (t : Nat) : Bool := p.allOps.any fun o => (o.managedTargets p.remOf).contains t

/-- Packed tensors (R180): targets of SAVE in modes 0b00 and 0b01. -/
def Plan.packed (p : Plan) (t : Nat) : Bool :=
  p.allOps.any fun o => match o with
    | .save s => s.mode != 2 && s.target == t
    | _ => false

end Sys2Proof.Machine
end

