-- ==== Sys2Proof/Machine/Tree.lean ====
section
/-! DEFINITION. Reduction trees (R124 to R126): child words, heights, leaves, and the rank that computes a node. -/

namespace Sys2Proof.Machine

/-- A child word names a leaf when bit 31 is set; [20:0] is the leaf or node index. -/
def isLeaf (w : Nat) : Bool := bit w 31
def wordIdx (w : Nat) : Nat := w % 2 ^ 21
def leafWord (i : Nat) : Nat := 2 ^ 31 + i

def TreeRec.left (t : TreeRec) (n : Nat) : Nat := (t.nodes.getD n (leafWord 0, leafWord 0)).1
def TreeRec.right (t : TreeRec) (n : Nat) : Nat := (t.nodes.getD n (leafWord 0, leafWord 0)).2

/-- Fuel for a walk down the tree: a child's index exceeds its parent's (R125). -/
def TreeRec.fuel (t : TreeRec) : Nat := t.nodes.length + 1

def heightAux (t : TreeRec) : Nat → Nat → Nat
  | 0, _ => 0
  | f + 1, w => if isLeaf w then 0
    else 1 + max (heightAux t f (t.left (wordIdx w))) (heightAux t f (t.right (wordIdx w)))
/-- Height of a leaf is 0 (R229). -/
def TreeRec.height (t : TreeRec) (w : Nat) : Nat := heightAux t t.fuel w

def leavesAux (t : TreeRec) : Nat → Nat → List Nat
  | 0, _ => []
  | f + 1, w => if isLeaf w then [wordIdx w]
    else leavesAux t f (t.left (wordIdx w)) ++ leavesAux t f (t.right (wordIdx w))
def TreeRec.leavesOf (t : TreeRec) (w : Nat) : List Nat := leavesAux t t.fuel w

/-- Leftmost leaf of a subtree: its rank computes the node (R126). -/
def TreeRec.leftLeaf (t : TreeRec) (w : Nat) : Nat := (t.leavesOf w).headD 0

/-- The rank word that leaf i stands for in shard s. -/
def TreeRec.rankOf (t : TreeRec) (s leaf : Nat) : Nat := t.ranks.getD ((leaf + s) % t.ranks.length) 0

/-- The rank that computes a subtree's value in shard s, and the shard's owner. -/
def TreeRec.computedBy (t : TreeRec) (s w : Nat) : Nat := t.rankOf s (t.leftLeaf w)
def TreeRec.owner (t : TreeRec) (s : Nat) : Nat := t.rankOf s 0

/-- The leaf a rank stands for in shard s. -/
def TreeRec.leafOf? (t : TreeRec) (s rank : Nat) : Option Nat :=
  (t.ranks.findIdx? (· == rank)).map fun i => (i + t.ranks.length - s % t.ranks.length) % t.ranks.length

/-- Nodes in ascending order whose leftmost leaf is the given one; the first is the highest. -/
def TreeRec.nodesAt (t : TreeRec) (leaf : Nat) : List Nat :=
  (List.range t.nodes.length).filter fun n => t.leftLeaf n == leaf

/-- `top(s)` of R229 as a child word. -/
def TreeRec.top (t : TreeRec) (leaf : Nat) : Nat :=
  match t.nodesAt leaf with
  | n :: _ => n
  | [] => leafWord leaf

/-- The node whose right child a subtree is. -/
def TreeRec.parentOf? (t : TreeRec) (w : Nat) : Option Nat :=
  (List.range t.nodes.length).find? fun n => t.right n == w

/-- The tree's depth H (R236). -/
def TreeRec.depth (t : TreeRec) : Nat := t.height 0

/-- Right children that a leaf's rank awaits, from the lowest node up. -/
def TreeRec.awaits (t : TreeRec) (leaf : Nat) : List Nat := (t.nodesAt leaf).reverse.map t.right

/-- Rank table and node table as stored, over which TDIGEST is taken. -/
def TreeRec.tableBytes (t : TreeRec) : List Byte :=
  t.ranks.flatMap (natLE · 4) ++ t.nodes.flatMap fun n => natLE n.1 4 ++ natLE n.2 4

/-- The shards whose owner a rank is, within a range. -/
def TreeRec.owned (t : TreeRec) (rank first count : Nat) : List Nat :=
  ((List.range count).map (first + ·)).filter fun s => t.owner s == rank

/-- A rank word: chain address and hall (R124). -/
def rankWord (chain hall : Nat) : Nat := chain * 8 + hall
def rankChain (r : Nat) : Nat := r / 8
def rankHall (r : Nat) : Nat := r % 8

/-- The ranks a rank exchanges values with over the given shards: those of its awaited children, and its parent's. -/
def TreeRec.peers (t : TreeRec) (rank first count : Nat) : List Nat :=
  (((List.range count).map (first + ·)).flatMap fun s =>
    match t.leafOf? s rank with
    | none => []
    | some l => ((t.awaits l).map (t.computedBy s)) ++
        (match t.parentOf? (t.top l) with
         | some n => [t.computedBy s n]
         | none => [])).eraseDups

end Sys2Proof.Machine
end

