-- ==== Sys2Proof/Machine/OpRows.lean ====
section
/-! DEFINITION. The Undercroft rows, tensors and galleries that an operation reads and writes (R92, R121, R122, R354 to
R357), worked out from its record. -/

namespace Sys2Proof.Machine

/-- A run of logical rows: first, length. -/
abbrev Span := Nat × Nat

/-- Two runs have a member in common; an empty run has none. -/
def Span.overlaps (a b : Span) : Bool := a.2 != 0 && b.2 != 0 && decide (a.1 < b.1 + b.2) && decide (b.1 < a.1 + a.2)
def Span.top (a : Span) : Nat := a.1 + a.2

/-- Runs of consecutive numbers in a rising list. -/
def runsOf : List Nat → List Span
  | [] => []
  | a :: r => match runsOf r with
    | (b, n) :: t => if b = a + 1 then (a, n + 1) :: t else (a, 1) :: (b, n) :: t
    | [] => [(a, 1)]

/-- Row groups of one token row with C columns (R354). -/
def rowGroups (c : Nat) : Nat := ceilDiv c 64

/-- Level slots of a SLOTS code (Table 03-8). -/
def slotCount (code : Nat) : Nat := 2 ^ code

/-- Tiles per bay and reduction width of one tile (Table 03-1). -/
def tilesPerBay (fmt : Nat) : Nat :=
  if fmt = fmtZL8 ∨ fmt = fmtZT2 ∨ fmt = fmtZI8 then 2 else if fmt = fmtZI4 then 4 else 1
def tileWidth (fmt : Nat) : Nat := if fmt = fmtZT2 then 256 else 64

/-- Tiles read per K-chunk for a mode, a weight format and an activation format (Table 03-1). -/
def tilesPerChunk (kind wfmt xfmt : Nat) : Nat :=
  if kind = 3 then
    (if wfmt = fmtZI8 then (if xfmt = fmtZI4 then 2 else 1)
     else if wfmt = fmtZI4 then (if xfmt = fmtZI4 then 4 else if xfmt = fmtZI8 then 2 else 1) else 1)
  else 1

/-- Elements of one K-chunk (Table 02-1). -/
def chunkLen (kind wfmt xfmt : Nat) : Nat :=
  if kind = 2 then 256 else if kind = 3 then tilesPerChunk kind wfmt xfmt * 64 else 64

def Plan.rowsOf (p : Plan) (t : Nat) : Nat := ((p.tensor? t).map TensorRec.rows).getD 0
def Plan.colsOf (p : Plan) (t : Nat) : Nat := ((p.tensor? t).map TensorRec.cols).getD 0
def Plan.fmt (p : Plan) (t : Nat) : Nat := (p.fmtOf t).fmt

/-- Output count and reduction length of a MATPASS (R354). -/
def MatOp.outputs (p : Plan) (o : MatOp) : Nat := if o.column then p.colsOf o.wtensor else p.rowsOf o.wtensor
def MatOp.reduction (p : Plan) (o : MatOp) : Nat := if o.column then p.rowsOf o.wtensor else p.colsOf o.wtensor

def MatOp.target (p : Plan) (o : MatOp) : Span :=
  (o.ubase, 64 * o.tiles * rowGroups (o.outputs p) * slotCount o.slots)

/-- Format of the activations; binary32 rows count as none of the stored formats. -/
def MatOp.xfmt (p : Plan) (o : MatOp) : Nat := if o.xsrc = 0xFFFF then fmtFP32 else p.fmt o.xsrc

/-- Elements of one of the pass's K-chunks. -/
def MatOp.klen (p : Plan) (o : MatOp) : Nat := chunkLen o.kind (p.fmt o.wtensor) (o.xfmt p)

/-- Row groups of a token row of activations that hold the chunks of the pass (R354): first, count. -/
def MatOp.xgroups (p : Plan) (o : MatOp) : Nat × Nat :=
  let k := o.klen p
  let g0 := o.ckFirst * k / 64
  (g0, min (rowGroups (o.reduction p)) (ceilDiv ((o.ckFirst + o.ckCount) * k) 64) - g0)

/-- Logical rows of the activations that a pass reads, with S slots a group. -/
def MatOp.xspans (p : Plan) (o : MatOp) (S : Nat) : List Span :=
  let g := rowGroups (o.reduction p)
  let r := o.xgroups p
  if r.2 = 0 then []
  else if r = (0, g) then [(o.xrow, 64 * o.tiles * g * S)]
  else (List.range (64 * o.tiles)).map fun t => (o.xrow + (t * g + r.1) * S, r.2 * S)

/-- What the target rows' tags carry: ACC, SFMT, SLOTS code, CHUNKS. -/
abbrev RowSig := Nat × Nat × Nat × Nat

/-- Rows at DROW that a REDUCE fills in a hall of the given rank: with mode 0b01 those of the shards that the rank owns, with mode 0b10
those of every shard (R231). -/
def ReduceOp.rows (p : Plan) (rank : Nat) (o : ReduceOp) : List Span :=
  if o.mode = 1 then (match p.tree? o.tree with
    | none => []
    | some t => (runsOf (t.owned rank o.shFirst o.shCount)).map fun r => (o.drow + (r.1 - o.shFirst) * o.srows, r.2 * o.srows))
  else if o.mode = 2 then [(o.drow, o.shCount * o.srows)]
  else []

/-- Rows an operation writes in a hall of the given rank, with the tag they take. Results of the Newel, of RECV and of REDUCE enter as single
partials of ACC 0x6 with SFMT 0x8 and one slot (R98, R231, R266; the SFMT is log 9). -/
def Op.rowWrites (p : Plan) (rank : Nat) : Op → List (Span × RowSig)
  | .matpass o => [(o.target p, (o.kind + 1, o.sfmt, o.slots, o.chunks))]
  | .epass o => if o.dest then [] else [((o.drow, 64 * o.tiles * slotCount o.slots), (5, o.sfmt, o.slots, 1))]
  | .newel o => [((o.drow, o.rows), (6, 8, 0, 1))]
  | .recv o => if o.mode = 0 then [((o.urow, o.count), (6, 8, 0, 1))] else []
  | .reduce o => (o.rows p rank).map fun r => (r, (6, 8, 0, 1))
  | _ => []

/-- Rows an operation reads; `S` gives the slot count of the groups at a row whose record does not give it. -/
def Op.rowReads (p : Plan) (S : Nat → Nat) : Op → List Span
  | .matpass o => if o.xsrc = 0xFFFF then o.xspans p (S o.xrow) else []
  | .epass o =>
    (if o.asrc = 1 then [(o.arow, 64 * o.tiles * slotCount o.slots)] else []) ++
    (if o.bsrc ≤ 1 ∧ o.btensor = 0xFFFF then [(o.brow, o.tiles * slotCount o.slots)] else [])
  | .newel o => (o.srcA, o.rows * S o.srcA) :: (if o.srcB = 0xFFFF then [] else [(o.srcB, o.rows * S o.srcB)])
  | .save o => if o.mode = 0 then [(o.urow, o.rowCount * rowGroups (p.colsOf o.target) * S o.urow)] else []
  | .store o => [(o.urow, o.rowCount * rowGroups o.ncols * slotCount o.slots)]
  | .send o => if o.tensorRows then [] else [(o.urow, o.count * S o.urow)]
  | .reduce o => if o.mode = 3 then [] else [(o.urow, o.shCount * o.srows * S o.urow)]
  | _ => []

/-- Tensors an operation reads from their committed faces. -/
def Op.reads (p : Plan) : Op → List Nat
  | .bayload o => [o.tensor]
  | .matpass o => o.wtensor :: (if o.xsrc = 0xFFFF then [] else [o.xsrc])
  | .epass o => (if o.asrc = 0 then [o.atensor] else []) ++ (if o.bsrc ≤ 1 ∧ o.btensor ≠ 0xFFFF then [o.btensor] else [])
  | .riser o =>
    if o.apply then
      ([o.ptensor, o.mtensor, o.vtensor, o.scalars].filter (· != 0xFFFF)) ++ (p.remOf o.ptensor).toList
    else []
  | .save o => if o.source = 0xFFFF ∨ o.mode = 0 then [] else [o.source]
  | .hbmcopy o => [o.src]
  | .send o => if o.tensorRows then [o.tensor] else []
  | .reduce o => if o.abslist = 0xFFFF then [] else [o.abslist]
  | _ => []

/-- Tensors an operation writes into staging faces. A MEZZ restore of every tensor writes those of the image. -/
def Op.writes (p : Plan) : Op → List Nat
  | .epass o => if o.dest then [o.dtensor] else []
  | .riser o =>
    if o.apply then ([o.ptensor, o.mtensor, o.vtensor].filter (· != 0xFFFF)) ++ (p.remOf o.ptensor).toList else []
  | .save o => [o.target]
  | .store o => [o.tensor]
  | .hbmcopy o => [o.dst]
  | .recv o => if o.mode = 0 ∨ o.tensor = 0xFFFF then [] else [o.tensor]
  | _ => []

/-- Distinct logical rows of a list of spans. -/
def distinctRows (l : List Span) : Nat := ((l.flatMap fun s => (List.range s.2).map (s.1 + ·)).eraseDups).length

/-- The twin need of a share of a pass in a hall of the given rank (R122). -/
def twinNeed (p : Plan) (rank : Nat) (ops : List Op) : Nat :=
  distinctRows ((ops.flatMap (Op.rowWrites p rank)).map (·.1))

/-- Level slots of the row group at a logical row as operation k of a share finds it: those of the last earlier operation of the share
that writes the row, else those that the row has before the pass. -/
def slotsBefore (p : Plan) (rank : Nat) (ops : List Op) (before : Nat → Nat) (k l : Nat) : Nat :=
  match ((ops.take k).flatMap (Op.rowWrites p rank)).reverse.find? fun w => w.1.overlaps (l, 1) with
  | some w => slotCount w.2.2.2.1
  | none => before l

/-- Rows that operation k of a share reads and writes. -/
def rowsUsed (p : Plan) (rank : Nat) (ops : List Op) (before : Nat → Nat) (k : Nat) : List Span :=
  match ops[k]? with
  | none => []
  | some o => (o.rowWrites p rank).map (·.1) ++ o.rowReads p (slotsBefore p rank ops before k)

/-- The highest logical row, plus one, that a share of a pass uses (R249). -/
def rowTop (p : Plan) (rank : Nat) (before : Nat → Nat) (ops : List Op) : Nat :=
  ((((List.range ops.length).flatMap (rowsUsed p rank ops before)).filter (·.2 != 0)).map Span.top).foldl max 0

/-- The bays a BAYLOAD fills in the gallery that receives most: the last bay index plus one (R355). -/
def BayloadOp.bayTop (p : Plan) (o : BayloadOp) : Nat :=
  let ng := (maskList o.gals 64).length
  let per := o.ogCount * min (ceilDiv o.ckCount ng) o.ckCount
  let cpb := tilesPerBay (p.fmt o.tensor) / o.ktiles
  o.bay + ceilDiv per cpb

/-- The highest bay index, plus one, that a share of a pass names. -/
def bayTop (p : Plan) (ops : List Op) : Nat :=
  (ops.map fun o => match o with
    | .bayload b => b.bayTop p
    | _ => 0).foldl max 0

/-- Index of a port among its hall's five, in ascending number (R127). -/
def portIdx (port : Nat) : Nat := if port < 24 then port % 3 else 3 + (port - 32) % 2

/-- The virtual channel of a group on a port of logical hall i. -/
def Plan.groupChan? (p : Plan) (i port group : Nat) : Option Nat :=
  (((p.vchans.getD i []).drop (16 * portIdx port)).take 16).findIdx? (·.group == group)

/-- The route that logical hall i takes to a rank: its first one. -/
def Plan.routeTo? (p : Plan) (i rank : Nat) : Option RouteRec := (p.routes.getD i []).find? (·.dest == rank)

/-- First port of a route. -/
def RouteRec.port (r : RouteRec) : Nat := r.ports.getD 0 0

/-- Port and virtual channel of a route that an operation names. -/
def Plan.named (p : Plan) (i route vc : Nat) : List (Nat × Nat) :=
  (((p.routes.getD i [])[route]?).map fun r => (r.port, vc)).toList

/-- Ports of logical hall i, of the given rank, over which a tree exchanges the values of some shards. -/
def Plan.treePorts (p : Plan) (i rank : Nat) (t : TreeRec) (first count : Nat) : List Nat :=
  ((t.peers rank first count).filterMap fun d => (p.routeTo? i d).map RouteRec.port).eraseDups

/-- The virtual channels, each with its port, on which an operation of logical hall i sends (R121, R128). -/
def Op.channels (p : Plan) (i rank : Nat) : Op → List (Nat × Nat)
  | .send o => p.named i o.route o.vc
  | .recv o => if o.mode < 2 then [] else p.named i o.route o.vc
  | .reduce o => match p.tree? o.tree with
    | none => []
    | some t => (p.treePorts i rank t o.shFirst o.shCount).map fun k => (k, (p.groupChan? i k t.vgroup).getD 0)
  | _ => []

/-- A Mezzanine restore of every tensor of its image, which may write any. -/
def Op.restoresAll : Op → Bool
  | .recv r => r.mode == 3 && r.tensor == 0xFFFF
  | _ => false

/-! ### Resources that two operations share (R121) -/

/-- Segments of the hold that a RISER names. -/
def RiserOp.segs (o : RiserOp) : List Nat := (List.range (ceilDiv o.elCount 16384)).map (o.seg + ·)

/-- Operation records of logical hall i, of every pass. -/
def Plan.hallOps (p : Plan) (i : Nat) : List Op := ((p.sched? i).map Sched.ops).getD []

/-- Level slots that a record of another pass gives the row group at a logical row. DESIGN CHOICE: where records differ the fewest
count, since of two operations that can meet only with more, none waits for the other in every run (log 144). -/
def Plan.slotsElse (p : Plan) (i rank pass l : Nat) : Nat :=
  let ws := ((p.sched? i).map fun s => (s.passes.filter (·.pass != pass)).flatMap fun r =>
    (p.passOps i r.pass).flatMap (Op.rowWrites p rank)).getD []
  (((ws.filter fun w => w.1.overlaps (l, 1)).map fun w => slotCount w.2.2.2.1).min?).getD 1

/-- A bay by gallery and index, with the chunks at its positions. -/
abbrev BayAt := Nat × Nat × List ChunkPos

/-- K-chunks that the i-th of n galleries receives, in stored order (R355). -/
def BayloadOp.share (o : BayloadOp) (n i : Nat) : List ChunkPos :=
  let l := ceilDiv o.ckCount n
  (List.range o.ogCount).flatMap fun k => ((List.range l).filterMap fun m =>
    if i * l + m < o.ckCount then some ⟨o.ogFirst + k, o.ckFirst + i * l + m, o.ktiles⟩ else none)

/-- Bays that a BAYLOAD fills. -/
def BayloadOp.fills (p : Plan) (o : BayloadOp) : List BayAt :=
  let gs := maskList o.gals 64
  gs.zipIdx.flatMap fun (g, i) =>
    (chunksOf (tilesPerBay (p.fmt o.tensor) / o.ktiles) (o.share gs.length i)).zipIdx.map fun (c, m) => (g, o.bay + m, c)

/-- Bays in some galleries that may hold a tensor: those that BAYLOADs of the hall's plan fill with it, and those that kept it from an
earlier plan (R139). -/
def Plan.baysOf (p : Plan) (i t gals : Nat) : List BayAt :=
  ((p.hallOps i).flatMap fun
    | .bayload b => if b.tensor = t then b.fills p else []
    | _ => []).filter (fun e => bit gals e.1)
  ++ ((p.kept.getD i []).filter fun k => k.tensor == t && bit gals k.gal).map fun k => (k.gal, k.bay, k.chunks)

/-- The stored chunk that holds K-chunk c of output group g, and how many of its 64-position quarters lie before: a ZT2 tile
holds four chunks of L-mode. -/
def MatOp.stored (p : Plan) (o : MatOp) (g c : Nat) : ChunkPos × Nat :=
  if o.column then (⟨c, g, 1⟩, 0)
  else if o.kind ≠ 2 ∧ p.fmt o.wtensor = fmtZT2 then (⟨g, c / 4, 1⟩, c % 4)
  else (⟨g, c, tilesPerChunk o.kind (p.fmt o.wtensor) (o.xfmt p)⟩, 0)

def MatOp.chunkList (o : MatOp) : List Nat := (List.range o.ckCount).map (o.ckFirst + ·)
def MatOp.groups (p : Plan) (o : MatOp) : Nat := rowGroups (o.outputs p)

/-- Every stored chunk of the pass. -/
def MatOp.needs (p : Plan) (o : MatOp) : List ChunkPos :=
  ((List.range (o.groups p)).flatMap fun g => o.chunkList.map fun c => (o.stored p g c).1).eraseDups

/-- Bays that an operation of logical hall i fills, and those that it may read. -/
def Op.bayWrites (p : Plan) : Op → List BayAt
  | .bayload o => o.fills p
  | _ => []
def Op.bayReads (p : Plan) (i : Nat) : Op → List BayAt
  | .matpass o => let need := o.needs p; (p.baysOf i o.wtensor o.gals).filter fun e => e.2.2.any need.contains
  | .epass o => if o.asrc = 0 then p.baysOf i o.atensor o.gals else []
  | _ => []

def baysMeet (x y : List BayAt) : Bool := x.any fun a => y.any fun b => a.1 == b.1 && a.2.1 == b.2.1

def rowsMeet (x y : List Span) : Bool := x.any fun a => y.any a.overlaps

/-- A rectangle of a tensor: its number, rows, columns. -/
structure TBox where
  t : Nat
  rows : Span
  cols : Span
deriving DecidableEq, Repr

def TBox.meets (a b : TBox) : Bool := a.t == b.t && a.rows.overlaps b.rows && a.cols.overlaps b.cols

/-- A rectangle of a tensor that a write reaches: whole blocks of its rows, since a block has one fine code; all of the tensor where its
affine word follows its codes (R352). -/
def Plan.box (p : Plan) (t : Nat) (rows cols : Span) : TBox :=
  let w := p.fmtOf t
  if w.derive_ then ⟨t, (0, 2 ^ 32), (0, 2 ^ 32)⟩
  else if w.plane ∧ cols.2 ≠ 0 then ⟨t, rows, (cols.1 / w.blk * w.blk, ceilDiv cols.top w.blk * w.blk - cols.1 / w.blk * w.blk)⟩
  else ⟨t, rows, cols⟩

/-- Whole rows of a tensor that a write reaches. -/
def Plan.rowBox (p : Plan) (t first n : Nat) : TBox := p.box t (first, n) (0, 2 ^ 32)

/-- Positions of DTENSOR that an EPASS with DEST 1 writes (R356): for A from rows, of the first 64 × TILES row groups; for A from bays,
those of the spans in the bays that may hold ATENSOR. -/
def EOp.boxes (p : Plan) (i : Nat) (o : EOp) : List TBox :=
  if o.asrc = 1 then
    let n := 64 * o.tiles
    let g := max 1 (rowGroups (p.colsOf o.dtensor))
    [p.rowBox o.dtensor 0 (n / g), p.box o.dtensor (n / g, 1) (0, 64 * (n % g))]
  else
    let w := tileWidth (p.fmt o.atensor)
    (p.baysOf i o.atensor o.gals).flatMap fun e => e.2.2.map fun c =>
      p.box o.dtensor (64 * c.og, 64) (c.ck * c.ktiles * w, c.ktiles * w)

/-- Ranges of tensors that an operation of logical hall i writes into staging faces (R121). An APPLY's elements are whole rows (R192); a
REBLOCK's rows are columns of its target (Table 06-2). -/
def Op.boxes (p : Plan) (i : Nat) : Op → List TBox
  | .epass o => if o.dest then o.boxes p i else []
  | .riser o =>
    let c := max 1 (p.colsOf o.ptensor)
    ((Op.riser o).writes p).map fun t => p.rowBox t (o.elFirst / c) (o.elCount / c)
  | .save o =>
    if o.mode = 2 then [p.box o.target (0, 2 ^ 32) (o.rowFirst, o.rowCount)] else [p.rowBox o.target o.rowFirst o.rowCount]
  | .store o => [p.box o.tensor (o.rowFirst, o.rowCount) (o.colFirst, o.ncols)]
  | .hbmcopy o => [p.box o.dst (o.drow, o.nrows) (o.dcol, o.ncols)]
  | .recv o =>
    if o.mode = 3 then ((Op.recv o).writes p).map fun t => p.rowBox t 0 (2 ^ 32)
    else ((Op.recv o).writes p).map fun t => p.rowBox t o.first o.count
  | o => (o.writes p).map fun t => p.rowBox t 0 (2 ^ 32)

/-- Two operations of logical hall i write one range of a tensor. -/
def Op.writesMeet (p : Plan) (i : Nat) (a b : Op) : Bool :=
  (a.boxes p i).any (fun x => (b.boxes p i).any x.meets) || (a.restoresAll && (b.restoresAll || !(b.boxes p i).isEmpty))
    || (b.restoresAll && !(a.boxes p i).isEmpty)

/-- Two passes add to one reduction: their partials carry the same tag and cover different chunks. A row accepts these in chunk
order, whatever the order of the records (R95). Of passes whose chunks overlap, R95 orders none, and R121 keeps the order of the
records (log 71). -/
def Op.sameSum : Op → Op → Bool
  | .matpass a, .matpass b => a.kind == b.kind && a.sfmt == b.sfmt && a.slots == b.slots && a.chunks == b.chunks
      && !Span.overlaps (a.ckFirst, a.ckCount) (b.ckFirst, b.ckCount)
  | _, _ => false

/-- A Newel operation that draws words of sampler lanes: each one draws on lane 0 (R257, R258). -/
def NewelOp.draws (o : NewelOp) : Bool := o.mode == nSAMPLE || o.mode == nVERIFY

/-- What the units beside bays, rows, tensors and channels keep for a command: HOLDs take the values of one tree in order (R193), a
HOLD and an APPLY meet in a hold segment, values of one tree are handed over in order (R231), an APPLY follows the REDUCE of its norm
tree (R192), and draws of a sampler lane follow one another (R257). -/
def Op.unitsMeet : Op → Op → Bool
  | .riser x, .riser y =>
    !(x.apply && y.apply) && (x.segs.any y.segs.contains || (!x.apply && !y.apply && x.tree == y.tree))
  | .reduce x, .riser y => x.mode == 3 && y.apply && x.tree == y.tree
  | .reduce x, .reduce y => x.tree == y.tree && x.mode == y.mode && (x.mode == 0 || x.mode == 3)
  | .newel x, .newel y => x.draws && y.draws
  | _, _ => false

/-- Operation k of a share in logical hall i, of the given rank, meets a resource of the earlier operation j, so that they take effect in
record order (R121); `before` gives the level slots of a row group before the pass. Reads of committed faces see nothing that the
command writes, so that only writes of a tensor meet. -/
def opsMeet (p : Plan) (i rank : Nat) (ops : List Op) (before : Nat → Nat) (j k : Nat) : Bool :=
  match ops[j]?, ops[k]? with
  | some a, some b =>
    let wa := (a.rowWrites p rank).map (·.1)
    let wb := (b.rowWrites p rank).map (·.1)
    (!a.sameSum b && rowsMeet wa wb) || rowsMeet wa (b.rowReads p (slotsBefore p rank ops before k))
      || rowsMeet (a.rowReads p (slotsBefore p rank ops before j)) wb
      || baysMeet (a.bayWrites p) (b.bayWrites p) || baysMeet (a.bayWrites p) (b.bayReads p i)
      || baysMeet (a.bayReads p i) (b.bayWrites p) || a.writesMeet p i b
      || (a.channels p i rank).any (b.channels p i rank).contains || a.unitsMeet b
  | _, _ => false

end Sys2Proof.Machine
end

