-- ==== Sys2Proof/Machine/State.lean ====
section
/-! DEFINITION. Everything the manual gives the device, as plain data, and the device after power-on reset. -/

namespace Sys2Proof.Machine

/-- Memory: (address, byte) pairs with strictly rising addresses and no zero byte. -/
abbrev Mem := List Host.Cell

/-- Reasons a step stops. -/
inductive Fault where
  /-- Raised by the supply and sensor commands when a measured value lies beyond the absolute maximum ratings of
  Table 12-6: R335 guarantees no behaviour then. Safe: nothing is claimed of the device afterwards. -/
  | stressBeyondRatings
deriving DecidableEq, Repr

/-- Reasons a command has no meaning. -/
inductive Refusal where
  /-- Raised for a row that has no meaning yet. Safe. -/
  | notModelled (mnemonic : String)
deriving DecidableEq, Repr

/-! ### Tensors and staging -/

/-- A tensor descriptor (Table 05-12). Addresses are as written: a host bus address, or an HBM address of R147. -/
structure TDesc where
  fmtRaw : Nat
  affRaw : Nat
  tensor : Nat
  host   : Bool
  dogleg : Bool
  rsv    : Bool            -- some reserved bit or byte is set
  (rows cols pitch : Nat)
  (addr0 addr1 : Nat)
  (plane side : Nat)
deriving DecidableEq, Repr

/-- Undercroft tag (Table 03-8); `occ` lists the occupied level slots. -/
structure Tag where
  pass   : Nat
  acc    : Nat
  sfmt   : Nat
  slots  : Nat
  state  : Nat             -- 0 free, 1 open, 2 final
  occ    : List Nat
  chunks : Nat
  count  : Nat
deriving DecidableEq, Repr

/-- A physical Undercroft row: 64 FP32 values and the tag. -/
structure URow where
  tag  : Tag
  data : List Word
deriving DecidableEq, Repr

/-- Where an output element stands among the tiles of a hall (R68): operation, pass, token-row tile, output group, row and
column. -/
structure TilePos where
  (op pass trow og row col : Nat)
deriving DecidableEq, Repr

/-- An outlier candidate that a command wrote (R32): its element, its FP32 value, its W-form value (R22), and the output
tile it came from. A later write of the element ends it. -/
structure Cand where
  idx  : Nat
  bits : Nat
  w    : Nat
  at_  : Option TilePos
deriving DecidableEq, Repr

/-- A value kept for a derived affine word (R35): its element, FP32 value and output tile. -/
structure Kept where
  idx  : Nat
  bits : Nat
  at_  : Option TilePos
deriving DecidableEq, Repr

/-- A staged face: a command's writes stand in the face `face` of a descriptor, the one that is not committed, in a
physical hall. The face starts as the committed one (R159). `old` is the committed face's coarse scale. -/
structure Staged where
  hall   : Nat
  d      : TDesc
  face   : Nat
  old    : Int
  coarse : Int             -- coarse scale the face is written with
  aff    : Nat             -- affine word of the staged face
  affs   : List (Nat × Nat × Nat) -- DERIVE: runs of elements with the word that their codes carry, newest first (R352)
  perRow : Bool            -- the write that goes on uses per-row scales (R188)
  packed : Bool
  vals   : List Kept        -- DERIVE: the values written, oldest first
  cands  : List Cand        -- outlier candidates of the elements as last written (R32)
  wrote  : List (Nat × Nat) -- runs of elements that the command wrote: first, length
  wplane : List (Nat × Nat) -- runs of blocks that the command encoded or moved, by their scale-plane bytes
  lplane : List (Nat × Nat) -- runs of scale-plane bytes that stand as loaded (R185)
  wside  : Bool            -- the side list, as loaded
  refit  : List (Nat × Bool × Bool) -- elements of the committed face encoded again by the fill: index, saturated, underflowed
  clears : Bool            -- the write clears the tensor's history (R185, R244)
deriving DecidableEq, Repr

/-- A twin row (R92). -/
structure Twin where
  hall : Nat
  lrow : Nat
  phys : Nat
  row  : URow
deriving DecidableEq, Repr

/-- A tile status word with its place in tile order (R69). -/
structure Tile where
  hall : Nat
  pass : Nat
  op   : Nat
  trow : Nat
  og   : Nat
  ev   : List Event         -- the events in it; its word is formed from them (R67)
deriving DecidableEq, Repr

/-- Statistics of one tensor (Table 06-5). -/
structure Stat where
  tensor : Nat
  coarse : Int
  (written zeros underflow sats nonfinite degenerate invalidT : Nat)
  sqerr  : Nat             -- FP64 bits
  nconv  : Nat
  (packed raw audited : Nat)
  (auditErr auditSq : Nat)   -- FP64 bits
  wrote  : Bool            -- a write made the entry, or came to it
deriving DecidableEq, Repr

/-- A per-layer norm entry (Table 06-6): elements updated, elements held, and sums as FP64 bits. -/
structure Norm where
  (layer elems held : Nat)
  (wsq gsq usq : Nat)
deriving DecidableEq, Repr

/-- What one link operation records (Table 07-14). -/
structure Coll where
  hall    : Nat
  key     : Nat
  opcode  : Nat
  round   : Nat
  (sent recv : DWord)
  (absent carried late stray unanswered : Nat)
  absList : List (Nat × Nat)
deriving DecidableEq, Repr

/-- A norm packet (Table 06-8); SUMSQ is FP64 bits. -/
structure NormPkt where
  sumsq : Nat
  (nf lossNf halls carried absent : Nat)
  normAbsent : Bool
deriving DecidableEq, Repr

/-- The verdict of an update RUN in one hall (R196). -/
structure Verdict where
  apply : Bool
  k     : Nat              -- clip factor, FP32 bits
  pkt   : NormPkt
  scalarBad : Bool
deriving DecidableEq, Repr

/-- Values awaited of a reduction by one hall: the root or node value of a shard. -/
structure NodeVal where
  hall   : Nat
  tree   : Nat
  shard  : Nat
  data   : List Word       -- FP32 values; for mode 0b11 empty
  raw    : List Byte       -- the stored bytes that a gather or a broadcast carries
  (cols rows : Nat)        -- COLS and ROWS of the lead block
  pkt    : Option NormPkt
  (leaves absent carried : Nat)
  list   : List Nat
  format : Nat
  coarse : Int
  aff    : Nat
deriving DecidableEq, Repr

/-- A descriptor as a dispatched command uses it: the physical hall, the face committed at dispatch with its generation,
coarse scale and affine word (R78, R159, R185), and whether the command reads and writes the tensor. -/
structure Use where
  hall   : Nat
  d      : TDesc
  face   : Nat
  scope  : Option Nat       -- the job whose binding it is; none: the common region
  gen    : Nat
  coarse : Int
  aff    : Nat
  wcoarse : Int             -- coarse scale of a write of the tensor by this command, fixed at dispatch (R186)
  wrows  : Bool             -- an encoded write is in per-row mode (R188), fixed at dispatch
  reads  : Bool
  writes : Bool
deriving DecidableEq, Repr

/-- The identity of a transfer (R216). -/
structure XferId where
  (kind job epoch key round shard node : Nat)
deriving DecidableEq, Repr

/-- The committed counters of a hall as a command sees them, those of its dispatch (R161): the step counter, the lane
counters, and the leaf packet that the step accumulators give (R195, Table 06-9). -/
structure Seen where
  step    : DWord
  riser   : Tab DWord
  sampler : Tab Nat
  pkt     : NormPkt
deriving DecidableEq, Repr

/-- A committed row that has been replaced since a running command was dispatched (R161). -/
structure OldRow where
  (hall lrow : Nat)
  row    : URow
  poison : Bool
deriving DecidableEq, Repr

/-- A partial in a bank's reorder buffer (R95): its row, the tag that it carries, its first chunk index, the chunks it covers,
and the operation, token row and output group that it comes from. -/
structure Early where
  (hall row : Nat)
  tag  : Tag
  (chunk count : Nat)
  (op tok og : Nat)
  data : List Word
deriving DecidableEq, Repr

/-- What one attempt of a command holds; a kill discards all of it (R162). -/
structure Attempt where
  uses     : List Use       -- one for each descriptor, in order
  holdClaims : List (Nat × Nat) -- hall, hold segment claimed (R194)
  done     : Tab (List Nat) -- physical hall → offsets of the operations of its share that have completed
  staged   : List Staged
  twins    : List Twin
  early    : List Early     -- partials that wait in the reorder buffers
  seen     : Tab Seen       -- physical hall → the counters of the dispatch
  oldRows  : List OldRow
  hostOut  : List (Nat × List Byte) -- STORE: host address and bytes, seen with the completion (R163)
  reserved : List (Nat × Nat) -- hall, twin rows reserved
  freed    : List (Nat × Nat) -- (hall, logical row) released at commit
  tiles    : List Tile
  stats    : List (Nat × Stat)   -- hall, entry: its counts
  sqs      : List (Nat × Nat × Nat × Nat) -- hall, tensor, element, squared error as FP64 bits (R189)
  auds     : List (Nat × Nat × Nat × Nat × Nat) -- hall, tensor, element, the two squares of an audit (R182)
  hist     : List (Nat × Nat × Int)  -- hall, tensor, largest log written
  holdSegs : List (Nat × Nat)    -- hall, segment
  holdQ    : List (Nat × Nat × List Word) -- hall, tree, values the Concourse handed to the Riser
  norms    : List (Nat × Nat × Norm) -- hall, offset of a RISER operation in the share, what it adds
  normOps  : List (Nat × Nat × Nat)  -- hall, offset of a HOLD, its sum of squares (FP64 bits)
  nf       : List (Nat × Nat)    -- hall, non-finite reduced values
  lossNf   : List Nat
  riserDraw : List (Nat × Nat × Nat)   -- hall, lane, words drawn
  sampDraw  : List (Nat × Nat × Nat)
  colls    : List Coll
  acquired : List Nat       -- semaphores held
  collective : Bool         -- in a collective window (R238)
  verdict  : List (Nat × Verdict)
  carryNew : List (Nat × Nat × NodeVal) -- hall, tree, staged carry value
  carryUse : List (Nat × Nat × Nat)     -- hall, tree, shard folded
  absents  : List (Nat × Nat × Nat)     -- hall, absent, carried at owned roots
  sent     : List (Nat × XferId)        -- hall, transfer that this attempt has sent
  stateBlk : List (Nat × DWord × List DWord) -- hall, STEP, Riser counters to restore
  rsrElems : List (Nat × Nat)
  perRow   : List Nat       -- halls with a write in per-row mode (R188)
  evidence : Nat
  hits     : List (Nat × Nat × Nat) -- hall, first byte, length of BAR2 writes that met bytes of this command (R164)
  digestOut : Bool          -- commit digest sent to the partner
  ownDigest : DWord         -- the digest sent (R272)
  digestOk  : Bool          -- partner's digest equal, or single-leg
deriving DecidableEq, Repr

/-- Where a command stands between fetch and completion. -/
inductive CPhase where
  | waiting
  | running
  | window
  | failed (code : Nat) (detail : Nat)
deriving DecidableEq, Repr

/-- A fetched command that has no completion yet. -/
structure Cmd where
  slot    : Nat             -- its ring slot; plus a multiple of 2^16 where an entry in flight has the slot (R148)
  seq     : Nat             -- the model's own: its number among the queue's fetched commands
  opcode  : Nat
  desc    : Desc
  tds     : List TDesc      -- the body's descriptors, or the bindings, in order
  tens    : List Nat        -- CHECKPOINT: the listed tensor numbers
  known   : Bool            -- the plan that it names was active at its submission (R156, R249)
  phase   : CPhase
  kills   : Nat
  faultKills : Nat
  race    : Bool
  absentF : Bool
  firstT  : Option Nat
  mism    : Nat             -- consecutive commit digest mismatches (R273)
  evid    : Nat             -- evidence of those attempts, here
  evidP   : Nat             -- and at the partner
  tauTest : Bool            -- the witness tolerance is 0x2E00 in this attempt (R273)
  att     : Attempt
deriving DecidableEq, Repr

/-! ### Jobs, partitions, functions -/

/-- A doorbell page and Porter job block: one job (Tables 05-1 to 05-4, 08-1 to 08-4). -/
structure Job where
  (sqTail sqHead cqHead cqTail : Nat)
  fetch   : Nat             -- next slot to fetch
  fetched : Nat             -- the model's own: commands fetched so far
  (enable irqAll : Bool)
  (halted cfgErr : Bool)
  haltCode : Nat
  (sqLog2 cqLog2 : Nat)
  (sqHbm cqHbm : Bool)
  msix    : Nat
  (sqBase cqBase : Nat)
  timeoutDef : Nat
  commits : Nat
  raceCnt : Nat
  phaseBit : Bool
  cmds    : List Cmd
  (resident wcommon resErr overrun : Bool)
  slice   : Nat
  preempts : Nat
  lastOverrun : Nat
  watchdog : Bool
  sliceCut : Nat            -- overrun to take off the next slice (R255), µs
deriving DecidableEq, Repr

structure Sem where
  value  : BitVec 16
  holder : Option (Nat × Nat)    -- page and ring slot
deriving DecidableEq, Repr

/-- A plan load between steps 1 and 8 of Table 04-13. -/
structure Loading where
  page : Nat
  slot : Nat
  plan : Plan
  paired : Bool             -- the partner exchange of step 5 is done, or not needed
  alone  : Bool             -- the partner answered as a single leg (R279)
deriving DecidableEq, Repr

/-- A partner's COMMIT digest that has arrived (R273). -/
structure PDigest where
  job : Nat
  qseq : Nat
  digest : DWord
  (evidence attempt : Nat)
deriving DecidableEq, Repr

/-- A DIGEST transfer that has no receipt yet: the hall and first port that it left by, its header, its data, and the SRC and
DEST of a RELAY. -/
structure DigOut where
  (hall port : Nat)
  hdr   : XHdr
  data  : List Byte
  relay : Option (Nat × Nat)
deriving DecidableEq, Repr

/-- A partner's RELAY that waits for the receipt of this leg's own copy (R277): the transfer, the hall that sends the copy,
the hall that the RELAY reached, its SRC and RET. -/
structure RelayAsk where
  id   : XferId
  (own hall src : Nat)
  ret  : List Nat
deriving DecidableEq, Repr

/-- A partition (Tables 11-3, 11-4, 09-6). -/
structure Part where
  (base size : Nat)
  (bindReq bound bindErr : Bool)
  plan    : Option Plan
  loading : Option Loading
  sems    : Tab Sem
  holder  : Option Nat      -- job number
  last    : Nat             -- last holder, for the round robin
  sliceOver : Bool          -- the holder's slice has ended and protected commands run
  overrunFrom : Nat         -- time at which the slice ended
  overran : Bool            -- protected commands ran on when it ended (R255)
  (scState scLeg scCause : Nat)
  (mismatch relays : Nat)
  paused  : Bool            -- the partner sent PAUSE
  digests : List PDigest
  rejoining : Bool
  altRoute : Bool           -- next DIGEST leaves on the second route (R270)
  digOut  : List DigOut     -- DIGEST transfers without a receipt
  routeBad : List Nat       -- first ports of digest routes that failed further on (R270)
  relayAsks : List RelayAsk
  relayDue : List (Nat × XferId) -- hall, transfer promised to the partner by an ANSWER, once it is FULL (R274)
  newLeg  : Bool            -- its plan came up against a single leg (R279)
deriving DecidableEq, Repr

structure FnRegs where
  accessErr : Nat
  bar2Hall  : Nat
  latch     : Tab Word      -- low-half offset → latched high half (R10)
deriving DecidableEq, Repr

/-! ### Links -/

/-- Ledger state of an arrived transfer (R217); `late` stands for a DOWN transfer that lost to R169's timer. -/
inductive LState where
  | open_
  | full
  | absent
  | late
deriving DecidableEq, Repr

structure RxEnt where
  id    : XferId
  st    : LState
  data  : List Byte
  src   : Nat
  vc    : Nat
  port  : Nat
  ret   : List Nat
  owed  : Bool              -- frames came before it became ABSENT: the next one is answered LATE (R170, R218)
deriving DecidableEq, Repr

/-- A transfer sent and its receipt: code and reason. -/
structure TxEnt where
  id    : XferId
  dest  : Nat
  ports : List Nat
  vc    : Nat
  data  : List Byte
  receipt : Option (Nat × Nat)
  held  : Bool              -- HOLD received, to be resent (R218)
  tries : Nat
  relay : Bool
  slot  : Nat               -- ring slot of the sending command
  late  : Bool              -- no receipt came in time (R219)
  acked : Bool              -- the receiver has answered TAKEN (R165)
deriving DecidableEq, Repr

/-- Carry buffer of (tree, shard) (R234). -/
structure Carry where
  (tree shard : Nat)
  v : NodeVal
deriving DecidableEq, Repr

/-- A job's state in one hall (Table 08-3, R217, R247). -/
structure HJob where
  (hbmBase hbmSize rows bayBase bayCount ledger : Nat)
  epoch  : Nat
  rowMap : Tab Nat          -- logical row → physical row
  (rndK rndT : Tab Nat)       -- round counters per TKEY and per tree
  rx     : List RxEnt
  tx     : List TxEnt
  past   : List (XferId × Bool)
  unacked : List XferId     -- transfers of finished commands that are not acknowledged (R165)
  served : List TxEnt       -- a paired leg's PULLDATA and MEZZDATA, which no command sent, with their receipts (R277)
  badTree : List (Nat × Nat × List Byte) -- tree, round, and the TDIGEST that came instead of the plan's (R230)
  proposed : List XferId    -- children whose absence this leg has proposed (R274)
  carry  : List Carry
  (stray late : Nat)        -- frames discarded, and LATE receipts sent, since the last record (R240)
deriving DecidableEq, Repr

/-- One of a hall's five ports (R207 to R215, Table 07-3). -/
structure Port where
  lanes    : Byte           -- lanes that carry traffic
  offer    : Byte           -- lanes offered in the training under way (Table 07-2, R322)
  (up degraded downEvt holdDown training : Bool)
  retries  : Nat
  txSeq    : Nat            -- next SEQ to send
  acked    : Nat            -- SEQ after the last one acknowledged by the peer
  rxNext   : Nat            -- next SEQ expected
  retry    : List Frame     -- sent and unacknowledged, oldest first
  txq      : List Frame     -- waiting to be sent
  credits  : Tab Nat        -- units held on each channel of the peer
  rxbuf    : List Frame     -- received in order, oldest first
  crcRun   : Nat            -- CRC failures in a row
  outQ     : List Frame     -- frames put on the wire
  withheld : Tab Nat        -- units on each channel that a lower CREDITS keeps back (R214)
  downSaid : List (Nat × XferId) -- transfers, with their SRC, that were answered DOWN here (R209)
deriving DecidableEq, Repr

/-! ### Galleries and halls -/

/-- A bay with its side arrays (Tables 03-1 to 03-5). `gen` and `bind` are those it was loaded under (R77, R78); a binding
is named by its job, or by none in the common region. -/
structure Bay where
  valid  : Bool
  fmt    : Nat
  coarse : Int
  tensor : Nat
  gen    : Nat
  fmax   : List Int         -- FMAX0, FMAX1
  bind   : Option Nat
  chunks : List ChunkPos
  codes  : List (List Nat)  -- per tile, element codes, output row by output row
  fines  : List (List Nat)  -- per tile, fine codes by output row and block of that row
  blk    : Nat
  width  : Nat              -- reduction width of a tile
  wit    : List (List Nat)  -- per tile, the witness entries
  side   : Bool
deriving DecidableEq, Repr

structure Gal where
  strikes : Nat
  (fenced powered : Bool)
  serves  : Option Nat       -- the fenced gallery whose place it takes (R89, R111)
  (skip parity mismatch : Nat)
  (role stage : Nat)
  firstStrike : Nat         -- commits of the hall at the first strike
  misr : DWord              -- its MISR, as its last LBIST left it (R295)
  byTest : Bool             -- a self-test fenced it (Table 10-6, GAL_FENCED)
  bays : Tab Bay
  escape : List (Nat × Nat × Nat)   -- bay, element, FP32 value (R79)
deriving DecidableEq, Repr

/-- A scale-table entry (R185). -/
structure ScaleEnt where
  (c0 c1 : Int)
  (a0 a1 : Nat)
  hist  : List Int          -- oldest first
  face  : Nat
  written : Bool
deriving DecidableEq, Repr

/-- A binding of a plan tensor (R78): its job (none: the common region), the last descriptor that bound it, and its face
generation. -/
structure GenEnt where
  tensor : Nat
  job    : Option Nat
  d      : TDesc
  gen    : Nat
deriving DecidableEq, Repr

/-- What PRT_HALL_TEST holds of a hall's last test, and what it left: galleries fenced, columns and rows repaired, the MISR of
the common logic (R294 to R297). -/
structure TestOut where
  result : Nat
  (mbist lbist hbm power : Bool)
  (galFailed repairs : Nat)
  misr   : DWord
deriving DecidableEq, Repr

/-- A face that serves a pull until its last PULLDATA frame has left (R226). -/
structure Serving where
  (pair : Nat × Nat)
  face : Nat
  id   : XferId
  port : Nat
  req  : Nat               -- rank word of the requester
deriving DecidableEq, Repr

/-- One hall. -/
structure Hall where
  present : Bool            -- powered and not lost or fenced
  test    : TestOut
  domains : Nat             -- how many of Table 10-4's nine domains are raised, in its order
  raising : List Nat        -- galleries whose domains are still to be raised, one at a time (R293)
  prpg    : DWord           -- the LBIST generator, loaded with the fused seed at a test's start (R295)
  patterns : Nat            -- patterns that the last LBIST gave to the common logic, and to each gallery
  galPatterns : Nat
  hbm     : Mem
  key     : DWord × DWord
  (concCount concTarget : Nat)
  concAlert : Bool
  poison  : List Nat        -- poisoned 32-byte granules
  poisonRows : List Nat
  (hbmCorr hbmUncorr uncCorr uncUncorr : Nat)
  step    : DWord
  tableStat : Word
  (baySplit scaleSel : Nat)
  scale   : Tab ScaleEnt
  faces1  : List (Nat × Nat)        -- pairs of face addresses whose committed face is 1
  gens    : List GenEnt
  (shrBase shrSlot shrHead : Nat)
  (xlogBase xlogSize xlogHead : Nat)
  (clogBase clogSize clogHead : Nat)
  (holdBase holdSegs : Nat)
  holdValid : List Nat
  (mezzBase mezzSize : Nat)
  mezzOn  : Bool
  (mezzHall mezzAddr : Nat)
  mezzIn  : Option Nat      -- slot that an arriving image is written into
  serving : List Serving
  stats   : List Stat
  norms   : List Norm
  normSum : Nat             -- FP64 bits (R190, R193)
  (nfAcc lossAcc carriedAcc absentAcc : Nat)
  stepTiles : DWord
  stepReruns : Tab Nat      -- job → kills of its RUNs since its last step (R204)
  stepStrikes : Nat
  perRowF : Bool
  stepFrom : Tab Nat        -- job → time of the first dispatch of its step (R204)
  riser   : Tab DWord       -- lane counters
  rsrElems : Nat
  (nwlResidue rsrResidue : Nat)
  resStrike : List (Nat × Nat)      -- unit × 64 + lane, commits when it struck
  sampler : Tab Nat         -- job × 32 + lane → counter C
  commits : Nat             -- RUN commands committed (R89)
  allCommits : Nat          -- commands committed (R265)
  gals    : Tab Gal
  unc     : Tab URow        -- physical rows
  taken   : List Nat        -- physical rows drawn by jobs
  jobs    : Tab HJob
  ports   : Tab Port
deriving DecidableEq, Repr

/-! ### Porter and the whole device -/

structure KeySlot where
  (provisioned revoked : Bool)
  minver : Nat
  digest : List Byte
deriving DecidableEq, Repr

/-- How far the chain interface is (R300): held in reset, steps 3 to 6, serving, bypass. -/
inductive ChainStage where
  | held
  | starting
  | serving
  | bypass
deriving DecidableEq, Repr

/-- An answer of Porter's SPDM responder (R304): the request code and the measurement values or the open body. -/
structure SpdmRsp where
  code : Nat
  ok   : Bool
  meas : List (List Byte)
  body : List Byte
  algs : Nat × Nat          -- signature and hash algorithm that the answer selects, as SPDM numbers them; zero: none
  digest : List Byte        -- of the certificate chain
  chain  : List Byte
  signature : List Byte
deriving DecidableEq, Repr

/-- What one leg's firmware sends the other in an exchange (R135, R279). -/
structure ExchMsg where
  v       : Fn
  digest  : List Byte
  record  : List Byte
  steps   : List DWord      -- hall by hall
  riser   : List DWord
  state   : Nat             -- STATE of Table 09-6
  enabled : Bool            -- some queue of the partition is enabled
deriving DecidableEq, Repr

/-- The fuse bank beside the key slots (R294, R295, R304): the LBIST seed, the two expected signatures, the spares that the
factory repair used, by hall and array, and the identity with its certificate chain. -/
structure Fuses where
  (seed misr galMisr : DWord)
  factory   : List (Nat × ArrayId × Nat)
  (idPrivate idPublic certChain : List Byte)
deriving DecidableEq, Repr

structure State where
  -- Porter
  time : DWord
  resetCause : Nat
  frozenAt : Bool
  warmCnt : Nat
  (selfDone selfBusy : Bool)
  hallFail : Byte
  (galFenced repairs : Nat)
  (selfHalls testing : Byte)
  hallmap : Byte
  chainAddr : BitVec 18
  chainValid : Bool
  chainStage : ChainStage
  heldWalks : List ChainFrame
  chainOut : List ChainFrame
  echoPort : BitVec 6
  echoAsk : BitVec 6        -- the port on which the last GO asked
  (echoBusy echoDone echoTimeout echoUnaddr : Bool)
  echoIn : Nat
  echoSrc : Nat
  slots : List KeySlot
  keyAddr : DWord
  keyWait : Bool
  keyDone : Bool
  keyCode : Nat
  keyDraws : Nat
  keyBurn : Option (List Byte) -- a burn in progress: its command block (R305)
  fuses : Fuses
  selfPair : Nat               -- pairs of halls that self-test has done (Table 10-2, step 7)
  devDomains : Nat             -- device-level domains raised (R293)
  (frozen holding : Bool)
  frzSource : Nat
  frzLanding : Bool
  frzOrigin : Bool             -- a FREEZE of this device's own landing has left it
  frzCount : Nat
  (scope pinScope sbAccept : Bool)
  pinLow : Bool
  (byPin byPorter : Bool)
  bySide : List Nat            -- devices whose sideband FREEZE holds this one
  held : List (Fn × Nat × Word)
  sbSeen : List (Nat × Nat × Nat) -- source, SB_ID, time of the first copy
  sbNext : Nat
  rdwSel : Word
  rdwAddr : DWord
  vcoreMv : Nat
  vcoreMa : Nat                -- VCORE current as AVSBus last read it back (R330)
  tjMax : Int
  tjHall : Nat
  target : Nat
  throttle : Bool
  avsFails : Nat
  tripped : Bool
  (vcoreEn tripLow : Bool)
  (sysHigh perstHigh : Bool)
  linkStat : Word
  clkreqLow : Bool             -- the pin CLKREQ#
  bars : Tab Word              -- base address registers as the host wrote them, by byte offset (R308)
  numVFs : Nat
  vfEnable : Bool
  msixOut : List (Fn × Nat)
  exchOut : List ExchMsg
  rdata : Option (List Byte)
  cfgRetry : Bool
  spdm : Option SpdmRsp
  keyDrawsHbm : Nat
  -- functions, partitions, jobs, halls
  fns : Tab FnRegs
  parts : Tab Part
  jobs : Tab Job
  halls : Tab Hall
  /-- System memory outside the device, as its bus master reaches it. -/
  host : Mem
  /-- The model's own: the next free value (log 2). -/
  free : Nat
  pending : List Instr
deriving DecidableEq, Repr

/-! ### Reset values -/

def Desc.empty : Desc := ⟨0, 0, 0, 0, 0, [], []⟩

def Attempt.empty : Attempt :=
  { uses := [], holdClaims := [], done := [], staged := [], twins := [], early := [], seen := [], oldRows := [], hostOut := [], reserved := [], freed := [], tiles := [], stats := [], sqs := [], auds := [], hist := [], holdSegs := [],
    holdQ := [], norms := [], normOps := [], nf := [], lossNf := [], riserDraw := [], sampDraw := [], colls := [], acquired := [],
    collective := false, verdict := [], carryNew := [], carryUse := [], absents := [], sent := [],
    stateBlk := [], rsrElems := [], perRow := [], evidence := 0, hits := [], digestOut := false,
    ownDigest := 0, digestOk := false }

/-- Table 05-1 and Tables 08-1 to 08-4 at reset. -/
def Job.reset : Job :=
  { sqTail := 0, sqHead := 0, cqHead := 0, cqTail := 0, fetch := 0, fetched := 0, enable := false, irqAll := false, halted := false,
    cfgErr := false, haltCode := 0, sqLog2 := 6, cqLog2 := 6, sqHbm := false, cqHbm := false, msix := 0, sqBase := 0,
    cqBase := 0, timeoutDef := 0x000F4240, commits := 0, raceCnt := 0, phaseBit := true, cmds := [], resident := false,
    wcommon := false, resErr := false, overrun := false, slice := 0x2710, preempts := 0, lastOverrun := 0,
    watchdog := false, sliceCut := 0 }

def Sem.reset : Sem := ⟨0, none⟩

def Part.reset : Part :=
  { base := 0, size := 0, bindReq := false, bound := false, bindErr := false, plan := none, loading := none, sems := [],
    holder := none, last := 15, sliceOver := false, overrunFrom := 0, overran := false, scState := 0, scLeg := 0, scCause := 0,
    mismatch := 0, relays := 0, paused := false, digests := [], rejoining := false, altRoute := false, digOut := [],
    routeBad := [], relayAsks := [], relayDue := [], newLeg := false }

def FnRegs.reset : FnRegs := ⟨0, 0, []⟩

def HJob.reset : HJob :=
  { hbmBase := 0, hbmSize := 0, rows := 0, bayBase := 0, bayCount := 0, ledger := 0, epoch := 0, rowMap := [], rndK := [],
    rndT := [], rx := [], tx := [], past := [], unacked := [], served := [], badTree := [], proposed := [], carry := [],
    stray := 0, late := 0 }

def Port.reset : Port :=
  { lanes := 0, offer := 0, up := false, degraded := false, downEvt := false, holdDown := false, training := false, retries := 0,
    txSeq := 0, acked := 0, rxNext := 0, retry := [], txq := [], credits := [], rxbuf := [], crcRun := 0, outQ := [],
    withheld := [], downSaid := [] }

def Gal.reset : Gal :=
  { strikes := 0, fenced := false, serves := none, powered := false, skip := 0, parity := 0, mismatch := 0, role := 0,
    stage := 0, firstStrike := 0, misr := 0, byTest := false, bays := [], escape := [] }

def Tag.free : Tag := ⟨0, 0, 0, 0, 0, [], 0, 0⟩
/-- A physical row that nothing has written, or that is released. DESIGN CHOICE: the manual gives STATE 0b00 and neither the data nor
the other tag fields, which read-out shows; all are zero (log 136). -/
def URow.free : URow := ⟨Tag.free, List.replicate 64 0⟩
def TestOut.none : TestOut := ⟨0, false, false, false, false, 0, 0, 0⟩

/-- A hall after reset. DESIGN CHOICE: R102 draws its interleave key at a self-test; before the first one the key is (0, 0)
(log 135). -/
def Hall.reset : Hall :=
  { present := false, test := TestOut.none, domains := 0, raising := [], prpg := 0, patterns := 0, galPatterns := 0, hbm := [], key := (0, 0), concCount := 0, concTarget := 0,
    concAlert := false, poison := [], poisonRows := [], hbmCorr := 0, hbmUncorr := 0, uncCorr := 0, uncUncorr := 0,
    step := 0, tableStat := 0, baySplit := 0x200, scaleSel := 0xFFFF, scale := [], faces1 := [], gens := [],
    shrBase := 0, shrSlot := 0, shrHead := 0, xlogBase := 0, xlogSize := 0, xlogHead := 0, clogBase := 0, clogSize := 0,
    clogHead := 0, holdBase := 0, holdSegs := 0, holdValid := [], mezzBase := 0, mezzSize := 0, mezzOn := false,
    mezzHall := 0, mezzAddr := 0, mezzIn := none, serving := [], stats := [], norms := [], normSum := 0, nfAcc := 0, lossAcc := 0, carriedAcc := 0, absentAcc := 0,
    stepTiles := 0x700, stepReruns := [], stepStrikes := 0, perRowF := false, stepFrom := [], riser := [],
    rsrElems := 0, nwlResidue := 0, rsrResidue := 0, resStrike := [], sampler := [], commits := 0, allCommits := 0, gals := [], unc := [],
    taken := [], jobs := [], ports := [] }

/-- The fuses as shipped (R305): slot 0 holds Nimdulo's plan key at MINVER 0, slots 1 to 3 are empty. -/
def KeySlot.empty : KeySlot := ⟨false, false, 0, []⟩
def shippedSlots : List KeySlot :=
  [⟨true, false, 0, Config.nimduloKeyDigest⟩, KeySlot.empty, KeySlot.empty, KeySlot.empty]

/-- The fuse bank that this device was made with. -/
def fusesMade : Fuses :=
  ⟨Config.lbistSeed, Config.commonMisr, Config.galleryMisr, Config.factoryRepair, Config.identityPrivate,
   Config.identityPublic, Config.certChain⟩

/-- The device at power-on, SYS_RESET_N still low (Table 10-2, step 1; Table 12-4). -/
def State.reset : State :=
  { time := 0, resetCause := 0, frozenAt := false, warmCnt := 0, selfDone := false, selfBusy := false, hallFail := 0,
    galFenced := 0, repairs := 0, selfHalls := 0, testing := 0, hallmap := 0, chainAddr := 0, chainValid := false,
    chainStage := .held, heldWalks := [], chainOut := [], echoPort := 0, echoAsk := 0, echoBusy := false, echoDone := false,
    echoTimeout := false, echoUnaddr := false, echoIn := 0, echoSrc := 0, slots := shippedSlots, keyAddr := 0,
    keyWait := false, keyDone := false, keyCode := 0, keyDraws := 0, keyBurn := none, fuses := fusesMade,
    selfPair := 0, devDomains := 1, frozen := false, holding := false, frzSource := 0,
    frzLanding := false, frzOrigin := false, frzCount := 0, scope := false, pinScope := false, sbAccept := true, pinLow := false,
    byPin := false, byPorter := false, bySide := [], held := [], sbSeen := [], sbNext := 0, rdwSel := 0, rdwAddr := 0,
    vcoreMv := 0, vcoreMa := 0, tjMax := 0, tjHall := 0, target := 800, throttle := false, avsFails := 0, tripped := false,
    vcoreEn := true, tripLow := false, sysHigh := false, perstHigh := false, linkStat := 0, clkreqLow := false, bars := [], numVFs := 0,
    vfEnable := false, msixOut := [], exchOut := [], rdata := none, cfgRetry := false, spdm := none, keyDrawsHbm := 0, fns := [],
    parts := [], jobs := [], halls := [], host := [], free := 0, pending := [] }

end Sys2Proof.Machine
end

