-- ==== Sys2Proof/Machine/Ops.lean ====
section
/-! DEFINITION. The named operations over tables, memory and the units of State. Everything else reads and writes the
state through these. -/

namespace Sys2Proof.Machine

/-! ### Tables by number -/

def tabGet {α : Type} (d : α) : Tab α → Nat → α
  | [], _ => d
  | (k, v) :: t, n => if n = k then v else tabGet d t n

/-- Entries stay in rising order of their numbers. -/
def tabSet {α : Type} : Tab α → Nat → α → Tab α
  | [], n, x => [(n, x)]
  | (k, v) :: t, n, x =>
    if n < k then (n, x) :: (k, v) :: t
    else if n = k then (n, x) :: t
    else (k, v) :: tabSet t n x

def tabDel {α : Type} (t : Tab α) (n : Nat) : Tab α := t.filter (fun e => e.1 != n)

def tabHas {α : Type} (t : Tab α) (n : Nat) : Bool := t.any (fun e => e.1 == n)

/-! ### Memory: one byte, and runs of bytes -/

/-- An unlisted byte reads 0x00: self-test clears the stacks (R288); host memory is a choice (log 1). -/
def memRead (m : Mem) (a : Nat) : Byte := tabGet 0 m a

/-- Writing zero removes the entry, so that equal memories are equal lists. -/
def memWrite (m : Mem) (a : Nat) (b : Byte) : Mem := if b = 0 then tabDel m a else tabSet m a b

def memReads (m : Mem) (a n : Nat) : List Byte := (List.range n).map fun i => memRead m (a + i)

def memWrites (m : Mem) (a : Nat) : List Byte → Mem
  | [] => m
  | b :: bs => memWrites (memWrite m a b) (a + 1) bs

/-- The canonical form: addresses strictly rising, no zero byte listed. -/
def Mem.wf : Mem → Bool
  | [] => true
  | [c] => c.2 != 0
  | c :: d :: m => c.2 != 0 && decide (c.1 < d.1) && Mem.wf (d :: m)

/-! ### Units of the state -/

def State.hall (s : State) (h : Nat) : Hall := tabGet Hall.reset s.halls h
def State.putHall (s : State) (h : Nat) (x : Hall) : State := { s with halls := tabSet s.halls h x }
def State.part (s : State) (v : Nat) : Part := tabGet Part.reset s.parts v
def State.putPart (s : State) (v : Nat) (x : Part) : State := { s with parts := tabSet s.parts v x }
def State.job (s : State) (q : Page) : Job := tabGet Job.reset s.jobs q
def State.putJob (s : State) (q : Page) (x : Job) : State := { s with jobs := tabSet s.jobs q x }
def State.fn (s : State) (f : Fn) : FnRegs := tabGet FnRegs.reset s.fns f
def State.putFn (s : State) (f : Fn) (x : FnRegs) : State := { s with fns := tabSet s.fns f x }

def State.modHall (s : State) (h : Nat) (f : Hall → Hall) : State := s.putHall h (f (s.hall h))
def State.modPart (s : State) (v : Nat) (f : Part → Part) : State := s.putPart v (f (s.part v))
def State.modJob (s : State) (q : Page) (f : Job → Job) : State := s.putJob q (f (s.job q))
def State.modFn (s : State) (g : Fn) (f : FnRegs → FnRegs) : State := s.putFn g (f (s.fn g))

def Hall.gal (H : Hall) (g : Nat) : Gal := tabGet Gal.reset H.gals g
def Hall.putGal (H : Hall) (g : Nat) (x : Gal) : Hall := { H with gals := tabSet H.gals g x }
def Hall.job (H : Hall) (j : Nat) : HJob := tabGet HJob.reset H.jobs j
def Hall.putJob (H : Hall) (j : Nat) (x : HJob) : Hall := { H with jobs := tabSet H.jobs j x }
def Hall.port (H : Hall) (p : Nat) : Port := tabGet Port.reset H.ports p
def Hall.putPort (H : Hall) (p : Nat) (x : Port) : Hall := { H with ports := tabSet H.ports p x }
def Hall.row (H : Hall) (r : Nat) : URow := tabGet URow.free H.unc r
def Hall.putRow (H : Hall) (r : Nat) (x : URow) : Hall := { H with unc := tabSet H.unc r x }

def State.modHJob (s : State) (h j : Nat) (f : HJob → HJob) : State :=
  s.modHall h fun H => H.putJob j (f (H.job j))
def State.modPort (s : State) (h p : Nat) (f : Port → Port) : State :=
  s.modHall h fun H => H.putPort p (f (H.port p))
def State.modGal (s : State) (h g : Nat) (f : Gal → Gal) : State :=
  s.modHall h fun H => H.putGal g (f (H.gal g))

/-- The next free value: its number, and the state that has used it (log 2). -/
def State.fresh (s : State) : Nat × State := (s.free, { s with free := s.free + 1 })

/-! ### Pages, partitions and physical halls -/

/-- Virtual function and job of a doorbell page (R145). -/
def pageFn (q : Page) : Fn := q / 16 + 1
def pageJob (q : Page) : Nat := q % 16
def pageOf (v : Fn) (j : Nat) : Page := 16 * (v - 1) + j

/-- Halls of a bound partition. -/
def Part.count (p : Part) : Nat := if p.bound then 2 ^ p.size else 0
/-- Physical halls of the partition, in the order of its logical halls 0, 1, … as bound (Table 11-3). -/
def Part.halls (p : Part) : List Nat := (List.range p.count).map (p.base + ·)

def State.pageHalls (s : State) (q : Page) : List Nat := (s.part (pageFn q)).halls

/-- Bit h of HALL_OK. -/
def State.hallOk (s : State) (h : Nat) : Bool := s.hallmap.getLsbD h

/-- The virtual function whose bound partition holds a hall. -/
def State.ownerOf (s : State) (h : Nat) : Option Fn :=
  (List.range 8).map (· + 1) |>.find? fun v => (s.part v).bound && (s.part v).halls.contains h

/-- A freeze has started: every handshake holds, or is about to (Table 09-10). -/
def State.freezing (s : State) : Bool := s.frozen || s.holding

/-! ### Access errors, messages, random words -/

/-- One access handled under R9 or R312: the function's counter, saturating. -/
def State.accessErr (s : State) (f : Fn) : State :=
  s.modFn f fun r => { r with accessErr := min (r.accessErr + 1) 0xFFFFFFFF }

def State.msix (s : State) (f : Fn) (vec : Nat) : State := { s with msixOut := s.msixOut ++ [(f, vec)] }

/-- Bytes a register read or window access returns. -/
def State.answer (s : State) (b : List Byte) : State := { s with rdata := some b }

end Sys2Proof.Machine
end

