-- ==== Sys2Proof/Machine/Operands.lean ====
section
/-! DEFINITION. Tensor descriptors and the tensors they describe (R21, R27 to R31, R147, R155, R156, R180, R181, R351):
where an element lies, how a face is read, and how values become stored codes. -/

namespace Sys2Proof.Machine

/-! ### Descriptors -/

/-- The 64 bytes of Table 05-12. -/
def TDesc.parse (b : List Byte) : TDesc :=
  let loc := u8 b 10
  { fmtRaw := u32 b 0, affRaw := u32 b 4, tensor := u16 b 8, host := bit loc 0, dogleg := bit loc 1,
    rsv := fld loc 2 6 != 0 || u8 b 11 != 0 || !allZero (bytesAt b 56 8), rows := u32 b 12, cols := u32 b 16,
    pitch := u32 b 20, addr0 := u64 b 24, addr1 := u64 b 32, plane := u64 b 40, side := u64 b 48 }

/-- Bytes of one hall's stack (R147). -/
def stackBytes : Nat := 0xC00000000
/-- Logical hall and stack byte of an HBM address (R147). -/
def hbmHall (a : Nat) : Nat := fld a 36 3
def hbmOff (a : Nat) : Nat := a % 2 ^ 36
/-- Beyond the stack, or a higher bit set. -/
def hbmBad (a : Nat) : Bool := decide (2 ^ 39 ≤ a) || decide (stackBytes ≤ hbmOff a)

namespace TDesc


def w (d : TDesc) : FmtWord := FmtWord.ofNat d.fmtRaw
def aff (d : TDesc) : Affine := Affine.ofNat d.affRaw
def elems (d : TDesc) : Nat := d.rows * d.cols
/-- Packed bytes of one row of COLS elements. -/
def rowBytes (d : TDesc) : Nat := ceilDiv (d.cols * fmtBits d.w.fmt) 8
/-- Blocks of a row (R26). -/
def blocks (d : TDesc) : Nat := ceilDiv d.cols d.w.blk
/-- Plane length of one face (R27, R155). -/
def planeLen (d : TDesc) : Nat := roundUp (d.rows * d.blocks) 64
/-- One full side list, rounded up (R155). -/
def sideLen : Nat := 32832
def faceLen (d : TDesc) : Nat := d.pitch * d.rows
/-- Logical hall of an HBM descriptor. -/
def lhall (d : TDesc) : Nat := hbmHall d.addr0

def offOf (d : TDesc) (a : Nat) : Nat := if d.host then a else hbmOff a
/-- First byte of face k, of its plane and of its side list. -/
def base (d : TDesc) (k : Nat) : Nat := d.offOf (if k = 0 then d.addr0 else d.addr1)
def planeBase (d : TDesc) (k : Nat) : Nat := d.offOf d.plane + k * d.planeLen
def sideBase (d : TDesc) (k : Nat) : Nat := d.offOf d.side + k * sideLen

/-- Byte runs of face k, its plane and its side list. -/
def faceSpans (d : TDesc) (k : Nat) : List Span :=
  (d.base k, d.faceLen) :: (if d.w.plane then [(d.planeBase k, d.planeLen)] else []) ++
    (if d.w.side then [(d.sideBase k, sideLen)] else [])
def spans (d : TDesc) : List Span := d.faceSpans 0 ++ if d.dogleg then d.faceSpans 1 else []

/-- Addresses that the descriptor names (R155). -/
def addrs (d : TDesc) : List Nat :=
  d.addr0 :: (if d.dogleg then [d.addr1] else []) ++ (if d.w.plane then [d.plane] else []) ++
    (if d.w.side then [d.side] else [])

/-- The identity of a dogleg tensor: its pair of faces. -/
def pair (d : TDesc) : Nat × Nat := (hbmOff d.addr0, hbmOff d.addr1)

end TDesc

def spansMeet (l : List Span) : Bool :=
  (List.range l.length).any fun i => (List.range i).any fun j => match l[i]?, l[j]? with
    | some a, some b => a.overlaps b
    | _, _ => false

/-- Items 1 to 5 and 7 of R351, which need no plan; `target` marks a write target known at submission. -/
def TDesc.checkEarly (d : TDesc) (target : Bool) : Option Nat :=
  let w := d.w
  match w.check with
  | some e => some e
  | none => match affineCheck w d.aff with
    | some e => some e
    | none =>
      if d.rsv || (!w.zi && d.affRaw != 0) || (!d.dogleg && d.addr1 != 0) || (!w.plane && d.plane != 0)
          || (!w.side && d.side != 0) then some 0x0102
      else if d.rows < 1 || d.rows > 2 ^ 24 || d.cols < 1 || d.cols > 2 ^ 24 then some 0x0201
      else if d.pitch < 64 || d.pitch > 2 ^ 30 then some 0x0201
      else if d.pitch % 64 ≠ 0 then some 0x0204
      else if d.pitch < d.rowBytes then some 0x0202
      else if d.addrs.any (fun a => a % 64 != 0) then some 0x0103
      else if !d.host && (d.addrs.any hbmBad || d.addrs.any (fun a => hbmHall a != d.lhall)) then some 0x0103
      else if (d.dogleg && d.host) || (target && !d.dogleg) then some 0x030E
      else none

/-- Item 6 of R351: the plan record (R156). -/
def TDesc.planOk (d : TDesc) (p : Plan) : Bool :=
  d.tensor == 0xFFFF || match p.tensor? d.tensor with
    | none => false
    | some r => r.fmtRaw == d.fmtRaw && r.rows == d.rows && r.cols == d.cols && r.dogleg == d.dogleg

/-- The PITCH a packed tensor needs (R180). -/
def TDesc.packedPitchOk (d : TDesc) (p : Plan) : Bool :=
  d.tensor == 0xFFFF || !p.packed d.tensor || decide (roundUp (33 * ceilDiv d.cols 32) 64 ≤ d.pitch)

/-- Items 7 and 8 of R351. -/
def TDesc.checkLate (d : TDesc) (p : Option Plan) : Option Nat :=
  let lim := if d.host then 2 ^ 64 else stackBytes
  if spansMeet d.spans then some 0x0205
  else if d.spans.any (fun x => decide (lim < x.top)) then some 0x0202
  else match p with
    | some q => if d.packedPitchOk q then none else some 0x0202
    | none => none

/-- R351 for one descriptor; `p` is the plan with which it is compared at submission, if any. -/
def TDesc.check (d : TDesc) (p : Option Plan) (target : Bool) : Option Nat :=
  match d.checkEarly target with
  | some e => some e
  | none =>
    if (match p with | some q => !d.planOk q | none => false) then some 0x030D
    else d.checkLate p

/-! ### Stored elements -/

/-- The code of element i of a packed run (Table 01-6). -/
def codeAt (m : Mem) (fmt base i : Nat) : Nat :=
  let b := fmtBits fmt
  if b < 8 then fld (memRead m (base + i * b / 8)).toNat (i * b % 8) b
  else leNat (memReads m (base + i * (b / 8)) (b / 8))

def putCode (m : Mem) (fmt base i code : Nat) : Mem :=
  let b := fmtBits fmt
  if b < 8 then
    let a := base + i * b / 8
    let lo := i * b % 8
    let old := (memRead m a).toNat
    memWrite m a (BitVec.ofNat 8 (old - fld old lo b * 2 ^ lo + code % 2 ^ b * 2 ^ lo))
  else memWrites m (base + i * (b / 8)) (natLE code (b / 8))

def putCodes (m : Mem) (fmt base : Nat) : Nat → List Nat → Mem
  | _, [] => m
  | i, c :: cs => putCodes (putCode m fmt base i c) fmt base (i + 1) cs

/-- Entries of the side list at a byte, or nothing when it breaks R29 (R30). -/
def readSide (m : Mem) (a elems : Nat) : Option (List (Nat × Nat)) :=
  let n := leNat (memReads m a 4)
  if n > 4096 || leNat (memReads m (a + 4) 4) ≠ 0 then none
  else
    let es := (List.range n).map fun i => (leNat (memReads m (a + 8 + 8 * i) 4), leNat (memReads m (a + 12 + 8 * i) 4))
    if es.all (fun e => decide (e.1 < elems)) && (List.zip es (es.drop 1)).all (fun (x, y) => decide (x.1 < y.1)) then
      some es
    else none

def sideBytes (es : List (Nat × Nat)) : List Byte :=
  natLE es.length 4 ++ natLE 0 4 ++ es.flatMap fun e => natLE e.1 4 ++ natLE e.2 4

/-- A tensor's face as a command reads it: memory, descriptor, face number, coarse scale and affine word of the face. -/
structure Face where
  m      : Mem
  d      : TDesc
  k      : Nat
  coarse : Int
  aff    : Affine
  side   : List (Nat × Nat)
deriving DecidableEq, Repr

namespace Face

def code (f : Face) (r c : Nat) : Nat := codeAt f.m f.d.w.fmt (f.d.base f.k + r * f.d.pitch) c
/-- The fine-scale byte of block j of row r; 0x00 without a plane (R28). -/
def fine (f : Face) (r j : Nat) : Nat :=
  if f.d.w.plane then (memRead f.m (f.d.planeBase f.k + r * f.d.blocks + j)).toNat else 0
def fineAt (f : Face) (r c : Nat) : Nat := f.fine r (c / f.d.w.blk)
def entry (f : Face) (i : Nat) : Option Nat := (f.side.find? (·.1 == i)).map (·.2)

end Face

/-- A source value of a conversion chain (Table 01-11). -/
inductive Val where
  | w (v : W)
  | f32 (b : Nat)
  | f64 (b : Nat)
deriving DecidableEq, Repr

namespace Val
def toW : Val → W
  | .w v => v
  | .f32 b => fp32ToW b
  | .f64 b => fp64ToW b
/-- FP32, rounded last to nearest. DESIGN CHOICE: Table 01-11 has no chain from FP32 to FP32 or from FP64 to FP64, so a value that goes
into a tensor of its own format keeps its bits, those of a NaN and of −0.0 among them (log 122). -/
def toF32 : Val → Nat
  | .w v => wToFp32 v
  | .f32 b => b
  | .f64 b => f64to32 .rne b
def toF64 : Val → Nat
  | .w v => wToFp64 v
  | .f32 b => f32to64 b
  | .f64 b => b
/-- FP32 as a ZI encoding takes it: rounded to odd where a rounding precedes it. -/
def toZiSrc : Val → Nat
  | .w v => wToFp b32 .rto v
  | .f32 b => b
  | .f64 b => f64to32 .rto b
/-- A value other than zero that is finite. -/
def live : Val → Bool
  | .w v => v.cls == .fin
  | .f32 b => (b32.dec b).isFin && !(b32.dec b).isZero
  | .f64 b => (b64.dec b).isFin && !(b64.dec b).isZero
def isZero : Val → Bool
  | .w v => v.cls == .zero
  | .f32 b => (b32.dec b).isZero
  | .f64 b => (b64.dec b).isZero
end Val

/-- The value of a stored code (R38). A remainder byte has no value of its own (R20). -/
def decodeVal (w : FmtWord) (coarse : Int) (a : Affine) (fine : Nat) (entry : Option Nat) (code : Nat) : Val :=
  if w.fmt = fmtZL8 then .w (zl8ToW code coarse fine w.side entry)
  else if w.fmt = fmtZL16 then .w (zl16ToW code coarse fine)
  else if w.fmt = fmtZT2 then .w (zt2ToW code coarse fine)
  else if w.zi then .w (ziToW (sext (fmtBits w.fmt) code) a)
  else if w.fmt = fmtFP32 then .f32 code
  else if w.fmt = fmtFP64 then .f64 code
  else .w W.zero

def Face.val (f : Face) (r c : Nat) : Val :=
  decodeVal f.d.w f.coarse f.aff (f.fineAt r c) (f.entry (r * f.d.cols + c)) (f.code r c)
def Face.rowVals (f : Face) (r : Nat) : List Val := (List.range f.d.cols).map (f.val r)

/-! ### Encoding -/

/-- What writing one element leaves and counts (Table 06-5). `sq` is (k − ℓ)² as FP64 bits. -/
structure ElOut where
  code   : Nat
  sat    : Bool
  zero   : Bool
  under  : Bool
  nonfin : Bool
  inv    : Bool            -- the ZT2 code 0b10 (R18)
  sq     : Option Nat
  log    : Option Int
deriving DecidableEq, Repr

/-- How a face is written: format word, coarse scale and affine word. -/
structure Enc1 where
  w      : FmtWord
  coarse : Int
  aff    : Affine
deriving DecidableEq, Repr

/-- The ZT2 code 0b10; an empty block, whose fine code is 0x80, raises nothing and counts nothing (R18, R27). -/
def invalidCode (fmt fine code : Nat) : Bool := fmt == fmtZT2 && code % 4 == 2 && fine != 0x80

/-- What storing a value as a code leaves and counts. A finite value other than zero that the W-form flushes to zero is an
underflow where it is stored as zero (R23). -/
def elOut (e : Enc1) (fine : Nat) (listed : Bool) (v : Val) (enc : Enc) : ElOut :=
  let x := v.toW
  let back := decodeVal e.w e.coarse e.aff fine (if listed then some v.toF32 else none) enc.code
  let fin := x.cls == .fin
  let d := (back.toW.log - x.log).natAbs
  { code := enc.code, sat := enc.sat, zero := back.isZero, under := v.live && back.isZero,
    nonfin := x.cls == .nan || x.cls == .inf, inv := invalidCode e.w.fmt fine enc.code,
    sq := if fin && back.toW.cls == .fin && !enc.sat then some (b64.rnd .rne false (d * d) (-28)) else none,
    log := if fin && !(e.w.side && isOutlier x e.coarse e.w.outthr) then some x.log else none }

/-- What a stored code counts that is moved as it stands: it is written, but nothing is converted (log 81). -/
def codeOut (e : Enc1) (fine : Nat) (entry : Option Nat) (code : Nat) : ElOut :=
  let v := decodeVal e.w e.coarse e.aff fine entry code
  let x := v.toW
  { code := code, sat := false, zero := if e.w.fmt = fmtRem then code == 0 else v.isZero, under := false,
    nonfin := x.cls == .nan || x.cls == .inf, inv := invalidCode e.w.fmt fine code, sq := none,
    log := if x.cls == .fin && !(e.w.side && isOutlier x e.coarse e.w.outthr) then some x.log else none }

/-- The stored code of one value under a block's fine code; `listed` says that its side list holds an entry for it.
Table 01-11 gives no chain into ZT2 or the remainder byte, and R153 refuses only a COPY: DESIGN CHOICE, any other writer of
values stores the low bits of the FP32 pattern there (log 82). -/
def encOf (e : Enc1) (fine : Nat) (listed : Bool) (v : Val) : Enc :=
  let fc := sext 8 fine
  if e.w.fmt = fmtZL8 then (if listed then ⟨0xFF, false⟩ else wToZl8 v.toW e.coarse fc e.w.side)
  else if e.w.fmt = fmtZL16 then wToZl16 v.toW e.coarse fc e.w.sat
  else if e.w.zi then (fpToZi (b32.dec v.toZiSrc) e.w.fmt e.aff).1
  else if e.w.fmt = fmtFP64 then ⟨v.toF64, false⟩
  else ⟨v.toF32, false⟩

def encodeEl (e : Enc1) (fine : Nat) (listed : Bool) (v : Val) : ElOut := elOut e fine listed v (encOf e fine listed v)

/-- A written block: its fine code, elements, and whether it is degenerate (R43). -/
structure BlockOut where
  fine  : Nat
  els   : List ElOut
  degen : Bool
deriving DecidableEq, Repr

def chooseFineOf (e : Enc1) (vs : List Val) : Nat :=
  if e.w.plane && e.w.zl then chooseFine (vs.map Val.toW) e.w.fmt e.coarse e.w.side e.w.outthr else 0

/-- R42 for a block. Degenerate blocks (R43) are counted in groups of 16 where a ZL16 tensor has no plane and so no fine codes:
DESIGN CHOICE (log 83). `seg` is the fine code of the row segment in per-row mode (R188). `listed` are the elements of the
block that receive a side-list entry. -/
def encodeBlock (e : Enc1) (seg : Option Nat) (listed : List Bool) (vs : List Val) : BlockOut :=
  let own := chooseFineOf e vs
  let fine := match seg with
    | none => own
    | some f => if own = 0x80 then 0x80 else f
  { fine := fine, els := (vs.zip (listed ++ List.replicate vs.length false)).map fun p => encodeEl e fine p.2 p.1,
    degen := e.w.zl && degenerateBlock (vs.map Val.toW) }

/-- The outlier candidates among values (R32). -/
def candidates (e : Enc1) (vs : List (Nat × Val)) : List (Nat × Val) :=
  if e.w.side then vs.filter fun p => isOutlier p.2.toW e.coarse e.w.outthr else []

/-- Pieces of n, counted from `pad` places before the list. -/
def chunksFrom {α : Type} (pad n : Nat) (l : List α) : List (List α) :=
  if pad = 0 then chunksOf n l else l.take (n - pad) :: chunksOf n (l.drop (n - pad))

/-- The written blocks of one row from block-aligned values that start at column col0; in per-row mode one fine code
serves a segment of 16,384 elements of the row (R188). `first` is the index of the first element. DESIGN CHOICE: of a write that
meets only part of a segment, the fine code is chosen from the elements of that write, whatever another write gave the rest
(log 129). -/
def encodeRow (e : Enc1) (perRow : Bool) (entries : List (Nat × Val)) (first col0 : Nat) (vs : List Val) :
    List BlockOut :=
  let b := e.w.blk
  let pad := col0 % 16384
  let segs := if perRow then (chunksFrom pad 16384 vs).map (chooseFineOf e) else []
  (chunksOf b vs).zipIdx.map fun (blk, j) =>
    encodeBlock e (if perRow then some (segs.getD ((pad + b * j) / 16384) 0) else none)
      ((List.range blk.length).map fun i => e.w.side && entries.any (·.1 == first + b * j + i)) blk

def rowCodes (bs : List BlockOut) : List Nat := bs.flatMap fun b => b.els.map ElOut.code

/-- The counts that written elements add to a tensor's entry (R189). Its squared errors are summed at the commit. -/
def statAdd (st : Stat) (els : List ElOut) : Stat :=
  let n := fun (f : ElOut → Bool) => (els.filter f).length
  let add := satAdd 0xFFFFFFFF
  { st with
    written := add st.written els.length, zeros := add st.zeros (n ElOut.zero), underflow := add st.underflow (n ElOut.under),
    sats := add st.sats (n ElOut.sat), nonfinite := add st.nonfinite (n ElOut.nonfin), invalidT := add st.invalidT (n ElOut.inv) }

def Stat.empty (t : Nat) (coarse : Int) : Stat :=
  { tensor := t, coarse := coarse, written := 0, zeros := 0, underflow := 0, sats := 0, nonfinite := 0, degenerate := 0,
    invalidT := 0, sqerr := 0, nconv := 0, packed := 0, raw := 0, audited := 0, auditErr := 0, auditSq := 0, wrote := false }

/-- Two entries of one tensor, the older first: counts saturate, and COARSE is that of the last face written (R189). -/
def Stat.merge (a b : Stat) : Stat :=
  let add := fun (x y : Nat) => satAdd 0xFFFFFFFF x y
  { a with
    coarse := if b.wrote then b.coarse else a.coarse, wrote := a.wrote || b.wrote, written := add a.written b.written, zeros := add a.zeros b.zeros,
    underflow := add a.underflow b.underflow, sats := add a.sats b.sats, nonfinite := add a.nonfinite b.nonfinite,
    degenerate := add a.degenerate b.degenerate, invalidT := add a.invalidT b.invalidT, packed := add a.packed b.packed,
    raw := add a.raw b.raw }

/-- Entries stay in ascending tensor order. -/
def putStat (x : Stat) : List Stat → List Stat
  | [] => [x]
  | y :: r => if x.tensor < y.tensor then x :: y :: r else if x.tensor = y.tensor then y.merge x :: r else y :: putStat x r

/-- Largest log written that counts for the history (R187). -/
def maxWritten (els : List ElOut) : Option Int :=
  (els.filterMap ElOut.log).foldl (fun m x => some (match m with
    | none => x
    | some y => max x y)) none

/-! ### Packed rows (R180, R181) -/

/-- One block: header, body. `prev` are the codes of the row's previous block. -/
def packBlock (prev : Option (List Nat)) (fine : Nat) (codes : List Nat) : List Byte :=
  let nz := codes.filter (· != 0)
  if fine = 0x80 then [1]
  else if prev = some codes then [2]
  else if codes.length - nz.length ≥ 5 then
    3 :: natLE ((codes.zipIdx.map fun (c, i) => if c ≠ 0 then 2 ^ i else 0).sum) 4 ++ nz.map (BitVec.ofNat 8)
  else 0 :: codes.map (BitVec.ofNat 8)

/-- A row of 32-code blocks with their fine codes. -/
def packRow (bs : List (Nat × List Nat)) : List Byte :=
  (bs.foldl (fun (st : List Byte × Option (List Nat)) b => (st.1 ++ packBlock st.2 b.1 b.2, some b.2)) ([], none)).1

/-- Unpack n blocks from a row's bytes; nothing when a header bit is reserved, a REPEAT has no block before it, or a body
runs past the row. DESIGN CHOICE: R181 names the first and the last as malformed; Table 06-3 never writes a REPEAT in a row's first
block, and the model has it malformed too (log 140). -/
def unpackBlocks : Nat → List Byte → Option (List Nat) → Option (List (List Nat))
  | 0, _, _ => some []
  | n + 1, bs, prev =>
    match bs with
    | [] => none
    | h :: r =>
      match h.toNat with
      | 1 => (unpackBlocks n r (some (List.replicate 32 0))).map (List.replicate 32 0 :: ·)
      | 2 => match prev with
        | none => none
        | some p => (unpackBlocks n r (some p)).map (p :: ·)
      | 3 =>
        let mask := u32 r 0
        let nz := (maskList mask 32).length
        if r.length < 4 + nz then none
        else
          let body := bytesAt r 4 nz
          let codes := ((List.range 32).foldl (fun (st : List Nat × Nat) i =>
            if bit mask i then (st.1 ++ [u8 body st.2], st.2 + 1) else (st.1 ++ [0], st.2)) ([], 0)).1
          (unpackBlocks n (r.drop (4 + nz)) (some codes)).map (codes :: ·)
      | 0 =>
        if r.length < 32 then none
        else
          let codes := (r.take 32).map BitVec.toNat
          (unpackBlocks n (r.drop 32) (some codes)).map (codes :: ·)
      | _ => none

/-- Codes of row r of a packed face. -/
def Face.unpackRow (f : Face) (r : Nat) : Option (List Nat) :=
  (unpackBlocks f.d.blocks (memReads f.m (f.d.base f.k + r * f.d.pitch) f.d.pitch) none).map fun bs =>
    bs.flatten.take f.d.cols

/-- Codes of row r, unpacked where the tensor is packed. -/
def Face.rowCodes (f : Face) (packed : Bool) (r : Nat) : Option (List Nat) :=
  if packed then f.unpackRow r else some ((List.range f.d.cols).map (f.code r))

/-- Values of row r, unpacked where the tensor is packed. -/
def Face.rowVals? (f : Face) (packed : Bool) (r : Nat) : Option (List Val) :=
  (f.rowCodes packed r).map fun cs => cs.zipIdx.map fun (c, i) =>
    decodeVal f.d.w f.coarse f.aff (f.fineAt r i) (f.entry (r * f.d.cols + i)) c

end Sys2Proof.Machine
end

