-- ==== Sys2Proof/Machine/PlanVal.lean ====
section
/-! DEFINITION. Porter's checks of a Stairplan in the order of Table 04-14, and the plan that a good container gives. -/

namespace Sys2Proof.Machine

/-- What the checks need of the device (R109, R111, R136, R302). `fenced` lists fenced galleries by logical hall. -/
structure PlanCtx where
  slots     : List KeySlot
  count     : Nat
  hallsOk   : Bool
  chainOk   : Bool
  chain     : Nat
  base      : Nat
  fenced    : List (List Nat)
  jobs      : List (List (Nat × Nat))   -- by logical hall, HBM_SIZE and ROWS of each resident job
  holdBase  : List Nat
  areas     : List (List Span)          -- by logical hall, what a gradient hold must not meet (R319)
  old       : Option Plan               -- the plan in force
  bays      : List (List KeptBay)       -- by logical hall, the bays that hold a tensor, with their physical galleries
deriving DecidableEq, Repr

def distinct {α : Type} [BEq α] (l : List α) : Bool := l.length == l.eraseDups.length

/-- Rule #1. -/
def okMagic (c : List Byte) : Bool :=
  u32 c 0 == 0x4C50535A && u16 c 4 == 1 && u8 c 7 == 0x5A && u64 c 0x10 != 0 && planFlags c < 8 && u16 c 0x22 == 0
    && allZero (bytesAt c 0x30 208)

/-- Rule #2. `len` is the length of the LOAD: a container longer than it is refused, a shorter one is taken from its start
(DESIGN CHOICE, log 95). -/
def okLength (c : List Byte) (len : Nat) : Bool :=
  let total := planTotal c
  let n := planNsect c
  let dirEnd := 0x100 + 64 * n
  let ents := dirEnts c
  total % 64 == 0 && 2 ^ 20 ≤ total && total ≤ 2 ^ 28 && total ≤ len && 1 ≤ n && n ≤ 1024 && u32 c 0x24 == 0x100
    && dirEnd ≤ total - 256
    && ents.all (fun e => e.rsvOk && e.off % 64 == 0 && e.len != 0 && dirEnd ≤ e.off && e.off + e.len ≤ total - 256)
    && (List.range n).all (fun i => (List.range i).all fun j =>
        match ents[i]?, ents[j]? with
        | some a, some b => a.off + a.len ≤ b.off || b.off + b.len ≤ a.off
        | _, _ => true)
    && allZero (bytesAt (trailer c) 1 15)

def planKeySlot (c : List Byte) : Nat := u8 (trailer c) 0

/-- Rule #6: the signature over the signed message (R108). -/
def okSignature (c : List Byte) : Bool :=
  let t := trailer c
  ecdsaVerify (beNat (bytesAt t 0x10 48)) (beNat (bytesAt t 0x40 48)) (beNat (bytesAt t 0x70 48))
    (beNat (bytesAt t 0xA0 48)) (sha384 (signedMessage c))

/-! ### Rule #8 -/

def onceTypes : List Nat := [1, 2, 3, 4, 6, 7, 0xA, 0xB, 0xC, 0xD]
def perHallTypes : List Nat := [5, 8, 9]

/-- Operations of every SCHEDULE section, as far as they can be read. -/
def rawOps (ss : List Sect) : List Op :=
  (ss.filter (·.typ == 5)).flatMap fun x => (parseSched x.body).ops

def Op.isCollective : Op → Bool
  | .reduce _ => true
  | _ => false
def Op.isLink : Op → Bool
  | .send _ => true
  | .recv _ => true
  | .reduce _ => true
  | _ => false
def Op.isBMode : Op → Bool
  | .matpass o => o.kind == 3
  | _ => false

/-- Rule #8. A section that no hall receives has a bad HALLMASK (DESIGN CHOICE, log 96). -/
def okSections (c : List Byte) (ss : List Sect) : Bool :=
  let n := planPhalls c
  let has := fun t => ss.any (·.typ == t)
  let ops := rawOps ss
  ss.all (fun x => (onceTypes.contains x.typ || perHallTypes.contains x.typ) && x.mask != 0 && x.mask < 2 ^ n)
    && onceTypes.all (fun t => (ss.filter (·.typ == t)).length ≤ 1)
    && perHallTypes.all (fun t => !has t ||
        (List.range n).all fun i => (ss.filter fun x => x.typ == t && bit x.mask i).length == 1)
    && [1, 2, 4, 5, 0xA, 0xB, 0xC].all has
    && (!ops.any Op.isBMode || has 6) && (!ops.any Op.isCollective || has 7) && (!ops.any Op.isLink || has 8)
    && (!has 8 || has 9) && (!bit (planFlags c) 1 || has 0xD)
    && (List.range n).all (fun i => ((ss.filter fun x => bit x.mask i).map fun x => x.body.length).sum ≤ 24 * 2 ^ 20)

/-! ### Rules #12 to #16 -/

/-- Spares that R111 uses: each fenced gallery named as compute or spare, in ascending order (log 97), takes the lowest
unfenced spare that is left. A compute gallery for which none is left rejects the plan. -/
def replaceFenced (gals : List Nat) (fenced : List Nat) : Option (List (Nat × Nat)) :=
  let role := fun g => fld (gals.getD g 0) 0 2
  let free := (List.range 64).filter fun g => role g == 2 && !fenced.contains g
  let lost := (List.range 64).filter fun g => (role g == 1 || role g == 2) && fenced.contains g
  if (lost.drop free.length).any fun g => role g == 1 then none else some (lost.zip free)

def okStructure (ctx : PlanCtx) (n : Nat) (b : List Byte) : Bool :=
  b.length == 80 * n && (List.range n).all fun i =>
    let r := bytesAt b (80 * i) 80
    let h := parseHall r
    let comp := h.gals.filter fun g => fld g 0 2 == 1
    h.lhall == i && 1 ≤ h.stages && h.stages ≤ 32 && h.spares ≤ 8 && allZero (bytesAt r 3 13)
      && h.gals.all (fun g => fld g 0 2 != 3 && !bit g 7 && (fld g 0 2 != 1 || fld g 2 5 < h.stages))
      && (List.range h.stages).all (fun s => comp.any fun g => fld g 2 5 == s)
      && (h.gals.filter fun g => fld g 0 2 == 2).length == h.spares
      && (replaceFenced h.gals (ctx.fenced.getD i [])).isSome

def okTables (b : List Byte) : Bool := b.length == 15088 && (Tables.parse b).inRange

def fp32Finite (x : Nat) : Bool := (b32.dec x).isFin

/-- R115. DESIGN CHOICE: NFUNC stands in bytes 0 and 1 of the header, the header's other bytes are zero, and so is the padding behind
a table (log 114). -/
def okFuncs (b : List Byte) : Bool :=
  let n := u16 b 0
  let offs := (List.range n).foldl (fun (l : List Nat × Nat) _ => (l.1 ++ [l.2], l.2 + funcLen (u16 b l.2))) ([], 16)
  1 ≤ n && n ≤ 64 && allZero (bytesAt b 2 14) && b.length == offs.2
    && offs.1.all fun o =>
      let t := parseFunc b o
      let m := u16 b o
      2 ≤ m && m ≤ 1025 && u8 b (o + 2) < 8 && t.sym != 3 && -64 ≤ t.q && t.q ≤ 63 && allZero (bytesAt b (o + 10) 6)
        && allZero (bytesAt b (o + 16 + 4 * m) (funcLen m - 16 - 4 * m))
        && t.y.all fp32Finite && (t.log || fp32Finite t.x0)

def Op.isReblock : Op → Bool
  | .save s => s.mode == 2
  | _ => false

/-- R183: a tensor with ROLE gradient that the plan stores has the activation gradient's format word of Table 06-4, except
that one which only REBLOCKs write has that of a re-blocked operand. -/
def okGradient (p : Plan) (t : TensorRec) : Bool :=
  let w := FmtWord.ofNat t.fmtRaw
  let by_ := p.allOps.filter fun o => (o.writes p).contains t.tensor
  w.role != 2 || by_.isEmpty || (if by_.all Op.isReblock then w.zl && w.matrix && (w.block == 1 || w.block == 2)
    else w.fmt == fmtZL16 && w.block == 1 && w.plane && w.sat && w.matrix)

/-- Rule #15 for TENSORS; a POLICY index beyond the tensor policy records breaks it (DEDUCED, log 149). -/
def okTensors (p : Plan) (b : List Byte) : Bool :=
  let rs := records 32 b
  let ts := rs.map parseTensor
  b.length % 32 == 0 && 1 ≤ ts.length && ts.length ≤ 65535 && distinct (ts.map TensorRec.tensor)
    && rs.all (fun r => allZero (bytesAt r 17 15))
    && ts.all fun t => t.tensor != 0xFFFF && t.policy < p.pols.length && 1 ≤ t.rows && 1 ≤ t.cols && t.flags < 2
        && (FmtWord.ofNat t.fmtRaw).check.isNone && okGradient p t

def okRescale (b : List Byte) : Bool :=
  let rs := records 16 b
  b.length % 16 == 0 && 1 ≤ rs.length && rs.all fun r =>
    let x := parseRescale r
    1 ≤ x.mult && x.shift ≤ 47 && allZero (bytesAt r 11 5)

/-- R198: coefficients of an optimiser code (Table 06-10). -/
def coefOk (opt : Nat) (c : List Nat) : Bool :=
  let v := fun i => b32.dec (c.getD i 0)
  let zero := fun i => c.getD i 0 == 0
  let unit := fun i => (Fp.fin false 0 0).le (v i) && (v i).le (Fp.fin false 1 0)
  match opt with
  | 0 => c.all (· == 0)
  | 1 => unit 1 && unit 2 && (Fp.fin false 0 0).lt (v 3) && zero 5
  | 2 => unit 1 && unit 2 && zero 3 && zero 5
  | 3 => zero 3 && (zero 5 || c.getD 5 0 == f32one)
  | _ => false

/-- R132, R133. DESIGN CHOICE: bytes 2 and 3 of the partition record, which R132 does not list, are zero (log 114). -/
def okPolicy (tensors : List TensorRec) (ops : List Op) (b : List Byte) : Bool :=
  let rs := records 32 (b.drop 32)
  let ps := rs.map parsePolicy
  let updated := ops.filterMap fun o => match o with
    | .riser r => if r.apply then some r.ptensor else none
    | _ => none
  b.length % 32 == 0 && 1 ≤ ps.length && ps.length ≤ 65535
    && 0x2E00 ≤ u16 b 0 && u16 b 0 ≤ 0x4000 && u32 b 4 ≤ 1048576 && 64 ≤ u32 b 8 && u32 b 8 ≤ 32768
    && u16 b 2 == 0 && allZero (bytesAt b 12 20)
    && (List.zip rs ps).all (fun (r, p) => p.round ≤ 2 && 1 ≤ p.hist && p.hist ≤ 64 && 1 ≤ p.backoff && p.backoff ≤ 8
        && u16 r 6 == 0 && p.coef.all fp32Finite && coefOk p.opt p.coef)
    && tensors.all fun t => match ps[t.policy]? with
      | none => false
      | some p => (p.round != 0) == updated.contains t.tensor
          && (p.round != 2 || match tensors.find? (·.tensor == p.rem) with
              | none => false
              | some r => (FmtWord.ofNat r.fmtRaw).fmt == fmtRem && r.rows == t.rows && r.cols == t.cols)

/-! ### Rule #17 -/

/-- R356: BSRC and CONST that Table 04-18 allows. -/
def eOperandsOk (nfunc : Nat) (o : EOp) : Bool :=
  let two := o.bsrc ≤ 2 && (if o.bsrc = 2 then o.const < 2 ^ 25 else o.const == 0)
  let one := o.bsrc == 3
  if o.mode = eMUL ∨ o.mode = eDIV ∨ (eMAX ≤ o.mode ∧ o.mode ≤ eCMPEQ) then two
  else if o.mode = ePOW then one && o.const < 2 ^ 16
  else if o.mode = eSCALE then one && o.const < 2 ^ 22
  else if o.mode = eEXP then (o.bsrc == 1 || o.bsrc == 3) && o.const == 0 && o.asrc == 1 && o.btensor == 0xFFFF
  else if o.mode = eFUNC then one && o.const < nfunc
  else (1 ≤ o.mode && o.mode ≤ eNEG) && one && o.const == 0

/-- A block multiple, except that a run may end at COLS (R357, R358). -/
def blockEdge (w : FmtWord) (cols first n : Nat) : Bool :=
  first % w.blk == 0 && (n % w.blk == 0 || first + n == cols)

/-- Conversions that Table 01-11 provides: any into any but ZT2, and none touching the remainder byte (R153). -/
def convertible (src dst : Nat) : Bool := dst != fmtZT2 && src != fmtRem && dst != fmtRem

/-- R192: the tensors that an optimiser uses (Table 06-10), and the shapes and formats of the moments. A parameter without
an optimiser has no APPLY, and its HOLD names no moment. -/
def riserTensorsOk (p : Plan) (o : RiserOp) : Bool :=
  let shape := fun t => (p.rowsOf t, p.colsOf t)
  let moment := fun t =>
    let w := p.fmtOf t
    (p.tensor? t).isSome && shape t == shape o.ptensor && w.zl && w.block == 0 && w.plane && w.role == 3 && !w.matrix
  match p.policyOf o.ptensor with
  | none => false
  | some pol =>
    let rem := shape pol.rem == shape o.ptensor || (pol.round != 2 && (p.tensor? pol.rem).isNone)
    let need := match pol.opt with
      | 1 => moment o.mtensor && moment o.vtensor
      | 2 => moment o.mtensor && o.vtensor == 0xFFFF
      | 3 => moment o.mtensor && o.vtensor == 0xFFFF
      | _ => !o.apply && o.mtensor == 0xFFFF && o.vtensor == 0xFFFF
    o.elFirst % p.colsOf o.ptensor == 0 && o.elCount % p.colsOf o.ptensor == 0 && rem && need

/-- One operation of logical hall lh against rule #17. `routes` are the hall's. DESIGN CHOICE: what Table 04-14 names under no other
code falls under #17: a count of a BAYLOAD or MATPASS out of its range, a reserved bit of either set, GALS 0 where galleries take part,
and a BTENSOR beside BSRC 0b10 or 0b11 (log 115). DESIGN CHOICE: an SFMT that is no FMT code of Table 01-1 is accepted, since no rule
rejects it (log 124). DESIGN CHOICE: the same for a SAVE or REBLOCK whose rows go beyond its tensors (log 142). -/
def okOp (p : Plan) (nroutes nfunc : Nat) (o : Op) : Bool :=
  let has := fun t => (p.tensor? t).isSome
  let hasOr := fun t => t == 0xFFFF || has t
  let unpacked := fun t => !p.packed t
  let unpackedOr := fun t => t == 0xFFFF || (has t && unpacked t)
  match o with
  | .bayload b => has b.tensor && unpacked b.tensor && b.gals != 0 && 1 ≤ b.ogCount && 1 ≤ b.ckCount && b.ckCount ≤ 4096
  | .matpass m => has m.wtensor && unpacked m.wtensor && hasOr m.xsrc && m.gals != 0 && 1 ≤ m.ckCount
      && m.ckCount ≤ 4096 && 1 ≤ m.tiles && m.tiles ≤ 1024 && 1 ≤ m.chunks
  | .epass e =>
      (if e.asrc = 0 then has e.atensor && unpacked e.atensor && e.gals != 0 && p.allOps.any (fun x => match x with
          | .bayload b => b.tensor == e.atensor
          | _ => false)
        else e.atensor == 0xFFFF)
      && (e.bsrc ≤ 1 || e.btensor == 0xFFFF) && unpackedOr e.btensor
      && (if e.dest then has e.dtensor && unpacked e.dtensor
            && (e.asrc != 0 || (p.rowsOf e.dtensor == p.rowsOf e.atensor && p.colsOf e.dtensor == p.colsOf e.atensor))
          else e.dtensor == 0xFFFF)
      && 1 ≤ e.tiles && eOperandsOk nfunc e
  | .newel n => 1 ≤ n.mode && n.mode ≤ 0x0E && 1 ≤ n.rows
  | .riser r => has r.ptensor && unpacked r.ptensor && unpackedOr r.mtensor && unpackedOr r.vtensor && 1 ≤ r.elCount
      && (p.tree? r.tree).isSome && r.layer < 4096 && riserTensorsOk p r
      && (if r.apply then has r.scalars && p.fmt r.scalars == fmtFP32 && p.rowsOf r.scalars * p.colsOf r.scalars == 4
          else r.scalars == 0xFFFF)
  | .save s => has s.target && 1 ≤ s.rowCount && s.rowCount ≤ 2 ^ 24
      && (match s.mode with
          | 0 => s.source == 0xFFFF
          | 1 => has s.source && unpacked s.source
          | _ => has s.source && (p.fmtOf s.source).zl && (p.fmtOf s.target).zl && unpacked s.target)
      && (s.mode == 2 || (let w := p.fmtOf s.target
          w.fmt == fmtZL8 && w.block == 1 && w.plane && w.role == 1
            && ((p.tensor? s.target).map TensorRec.dogleg).getD false))
  | .store s => has s.tensor && unpacked s.tensor && 1 ≤ s.rowCount && s.rowCount ≤ 2 ^ 24 && 1 ≤ s.ncols && s.ncols ≤ 2 ^ 24
      && s.rowFirst + s.rowCount ≤ p.rowsOf s.tensor && s.colFirst + s.ncols ≤ p.colsOf s.tensor
      && blockEdge (p.fmtOf s.tensor) (p.colsOf s.tensor) s.colFirst s.ncols
      && (!(p.fmtOf s.tensor).side || (s.rowCount == p.rowsOf s.tensor && s.ncols == p.colsOf s.tensor))
  | .hbmcopy h => has h.src && has h.dst && unpacked h.dst && 1 ≤ h.nrows && h.nrows ≤ 2 ^ 24 && 1 ≤ h.ncols && h.ncols ≤ 2 ^ 24
      && h.srow + h.nrows ≤ p.rowsOf h.src && h.drow + h.nrows ≤ p.rowsOf h.dst
      && h.scol + h.ncols ≤ p.colsOf h.src && h.dcol + h.ncols ≤ p.colsOf h.dst
      && (!(p.fmtOf h.src).plane || blockEdge (p.fmtOf h.src) (p.colsOf h.src) h.scol h.ncols)
      && (!(p.fmtOf h.dst).plane || blockEdge (p.fmtOf h.dst) (p.colsOf h.dst) h.dcol h.ncols)
      && (!(p.fmtOf h.dst).side || (h.nrows == p.rowsOf h.dst && h.ncols == p.colsOf h.dst))
      && (((p.tensor? h.src).map TensorRec.fmtRaw) == ((p.tensor? h.dst).map TensorRec.fmtRaw)
          || convertible (p.fmt h.src) (p.fmt h.dst))
  | .send s => s.route < nroutes && 1 ≤ s.count && s.count ≤ 2 ^ 24
      && (if s.tensorRows then has s.tensor && unpacked s.tensor else s.tensor == 0xFFFF)
  | .recv r =>
      (if r.mode < 2 then r.route == 0xFFFF else r.route < nroutes)
      && (match r.mode with
          | 0 => r.tensor == 0xFFFF
          | 3 => unpackedOr r.tensor
          | _ => has r.tensor && unpacked r.tensor)
      && (if r.mode = 3 then r.count == 0 else 1 ≤ r.count && r.count ≤ 2 ^ 24)
  | .reduce r => (match p.tree? r.tree with
      | none => false
      | some t => 1 ≤ r.shCount && r.shFirst + r.shCount ≤ t.shards)
      && unpackedOr r.abslist
      && (if r.mode = 3 then r.urow == 0 && r.drow == 0 && r.srows == 0 else 1 ≤ r.srows && r.srows ≤ 65536)
  | .hallwait h _ => h < p.phalls
  | .bad => false

/-- R192, R191 in plan order: an APPLY has a HOLD over the same segments earlier in the hall's schedule; an update pass
holds no HOLD and reduces its norm tree before its first APPLY. -/
def okRiserOrder (p : Plan) (s : Sched) (i : Nat) : Bool :=
  (List.range s.ops.length).all (fun k => match s.ops[k]? with
    | some (.riser a) => !a.apply ||
        a.segs.all fun g => (s.ops.take k).any fun o => match o with
          | .riser h => !h.apply && h.segs.contains g
          | _ => false
    | _ => true)
  && s.passes.all fun r => !r.update ||
      let ops := p.passOps i r.pass
      (!ops.any fun o => match o with
        | .riser h => !h.apply
        | _ => false)
      && (List.range ops.length).all fun k => match ops[k]? with
        | some (.riser a) => !a.apply || (ops.take k).any fun o => match o with
            | .reduce x => x.mode == 3 && x.tree == a.tree
            | _ => false
        | _ => true

/-- The start (false) or the end (true) of an operation of a pass, by logical hall and offset. -/
abbrev OpPt := Nat × Nat × Bool

/-- Operations of a list that use a transfer key (R216). -/
def keyUses (tkey : Nat) (ops : List Op) : Nat :=
  (ops.filter fun e => match e with
    | .recv y => y.tkey == tkey && y.mode != 3
    | .send y => y.tkey == tkey
    | _ => false).length

/-- Offset k is a SEND on a key to a rank, with n earlier uses of the key. -/
def isSendTo (ops : List Op) (routes : List RouteRec) (tkey rank n k : Nat) : Bool :=
  match ops[k]? with
  | some (.send q) => q.tkey == tkey && (routes.getD q.route ⟨0, []⟩).dest == rank && keyUses tkey (ops.take k) == n
  | _ => false

/-- REDUCEs of a list over a tree: each takes a round of it (R216). -/
def treeUses (tree : Nat) (ops : List Op) : Nat :=
  (ops.filter fun o => match o with
    | .reduce r => r.tree == tree
    | _ => false).length

/-- Offset k is the REDUCE of a list that takes the tree's round n. -/
def isReduceOf (ops : List Op) (tree n k : Nat) : Bool :=
  match ops[k]? with
  | some (.reduce r) => r.tree == tree && treeUses tree (ops.take k) == n
  | _ => false

/-- Ranks whose values a REDUCE needs: every leaf below the nodes that its rank computes, and, where the root's value comes
back, every leaf. -/
def ReduceOp.sources (r : ReduceOp) (t : TreeRec) (rank : Nat) : List Nat :=
  (((List.range r.shCount).map (r.shFirst + ·)).flatMap fun s => match t.leafOf? s rank with
    | none => []
    | some l => (t.leavesOf (if r.mode < 2 then t.top l else 0)).map (t.rankOf s)).eraseDups

/-- Operations of a pass in other halls that must have started before operation o at offset k of hall h can end, because
their transfers feed it, or must have ended, because it names them. -/
def remoteWaits (p : Plan) (chain base pass h k : Nat) (o : Op) : List OpPt :=
  match o with
  | .hallwait h' k' => [(h', k', true)]
  | .reduce r => match p.tree? r.tree with
    | none => []
    | some t =>
      let from_ := r.sources t (rankWord chain (base + h))
      let n := treeUses r.tree ((p.passOps h pass).take k)
      (List.range p.phalls).flatMap fun h' =>
        let os := p.passOps h' pass
        if h' = h ∨ !from_.contains (rankWord chain (base + h')) then []
        else ((List.range os.length).filter (isReduceOf os r.tree n)).map fun k' => (h', k', false)
  | .recv r =>
    if r.mode < 2 then
      let n := keyUses r.tkey ((p.passOps h pass).take k)
      (List.range p.phalls).flatMap fun h' =>
        let os := p.passOps h' pass
        ((List.range os.length).filter (isSendTo os (p.routes.getD h' []) r.tkey (rankWord chain (base + h)) n)).map
          fun k' => (h', k', false)
    else []
  | _ => []

/-- Whether operation k of a share must wait for the earlier operation j (R121): a barrier, or one that touches a resource of it. -/
def orderedAfter (p : Plan) (i rank : Nat) (ops : List Op) (before : Nat → Nat) (j k : Nat) : Bool :=
  match ops[j]? with
  | some (.hallwait ..) => true
  | _ => opsMeet p i rank ops before j k

/-- What a point waits for: a start for the ends of earlier operations of its hall, an end for its start and for what other
halls do. -/
def waitsFor (p : Plan) (chain base pass : Nat) (x : OpPt) : List OpPt :=
  let ops := p.passOps x.1 pass
  let rank := rankWord chain (base + x.1)
  match ops[x.2.1]? with
  | none => []
  | some o =>
    if x.2.2 then (x.1, x.2.1, false) :: remoteWaits p chain base pass x.1 x.2.1 o
    else ((List.range x.2.1).filter fun k => orderedAfter p x.1 rank ops (p.slotsElse x.1 rank pass) k x.2.1).map fun k =>
      (x.1, k, true)

/-- Every point that can come does so, again and again; what is left at the end waits on itself. -/
def settleWaits (waits : OpPt → List OpPt) : Nat → List OpPt → List OpPt → List OpPt
  | 0, _, todo => todo
  | f + 1, done, todo =>
    let go := todo.filter fun x => (waits x).all fun y => !todo.contains y || done.contains y
    if go.isEmpty then todo else settleWaits waits f (done ++ go) (todo.filter fun x => !go.contains x)

def noCycle (p : Plan) (chain base pass : Nat) : Bool :=
  let all := (List.range p.phalls).flatMap fun h =>
    (List.range (p.passOps h pass).length).flatMap fun k => [(h, k, false), (h, k, true)]
  (settleWaits (waitsFor p chain base pass) (all.length + 1) [] all).isEmpty

def passIds (p : Plan) : List Nat := (p.sched.flatMap fun s => s.passes.map PassRec.pass).eraseDups

/-- SCHEDULE of every hall (R117, R121, R353). DESIGN CHOICE: a pass record's KIND is not held against the operations of its pass,
since no rule has it checked (log 123). -/
def okSchedule (ctx : PlanCtx) (p : Plan) (ss : List Sect) : Bool :=
  (List.range p.phalls).all (fun i =>
    match sectHall ss 5 i, p.sched[i]? with
    | some b, some s =>
      let np := u16 b 0
      let no := u32 b 4
      1 ≤ np && np ≤ 16384 && 1 ≤ no && no ≤ 262144 && u16 b 2 == 0 && allZero (bytesAt b 8 8)
        && b.length == 16 + 16 * np + 32 * no
        && (schedPassBytes b).all (fun r => u16 r 0 < 2 ^ 14 && u8 r 14 < 4 && u8 r 15 == 0)
        && (schedOpBytes b).all opRsvOk
        && (List.zip s.passes (s.passes.drop 1)).all (fun (a, b) => decide (a.pass < b.pass))
        && s.passes.all (fun r => 1 ≤ r.count && r.firstOp + r.count ≤ no && r.sems ≤ 4)
        && s.ops.all (okOp p (p.routes.getD i []).length p.funcs.length)
        && okRiserOrder p s i
        && s.passes.all (fun r => (p.passOps i r.pass).all fun o => match o with
          | .hallwait h k => h != i && k < (p.passOps h r.pass).length
          | _ => true)
    | _, _ => false)
  && (passIds p).all (noCycle p ctx.chain ctx.base)

/-! ### Rules #18 to #23 -/

def matModeOk (p : Plan) (o : MatOp) : Bool :=
  let w := p.fmt o.wtensor
  let x := p.fmt o.xsrc
  let act := fun f => fmtIsZL f || fmtIsZI f
  let rows := o.xsrc == 0xFFFF
  (match o.kind with
   | 2 => w == fmtZT2 && (rows || act x)
   | 3 => fmtIsZI w && !rows && fmtIsZI x
   | _ => fmtGallery w && (rows || act x))
  && (!o.column || (o.kind ≤ 1 && fmtIsZL w))
  && o.ubase % slotCount o.slots == 0 && o.ckFirst + o.ckCount ≤ o.chunks
  && (if o.kind = 3 then o.rescale != 0xFFFF && o.rescale + o.outputs p ≤ p.rescale.length else o.rescale == 0xFFFF)

/-- KTILES that Table 03-1 gives for a format (R355). -/
def ktilesOk (fmt k : Nat) : Bool :=
  if fmt = fmtZI8 then k == 1 || k == 2
  else if fmt = fmtZI4 then k == 1 || k == 2 || k == 4
  else fmtGallery fmt && k == 1

def okMode (p : Plan) : Bool :=
  p.allOps.all fun o => match o with
    | .matpass m => matModeOk p m
    | .bayload b => ktilesOk (p.fmt b.tensor) b.ktiles
    | _ => true

/-- R26: a column read reduces across the weight's blocks. DESIGN CHOICE: no rule rejects a tensor whose MATRIX bit is 0 as an
operand of a MATPASS, and it is taken (log 117). -/
def okMatrix (p : Plan) : Bool :=
  p.allOps.all fun o => match o with
    | .matpass m => !(m.column && (p.fmtOf m.wtensor).matrix)
    | _ => true

def okStrict (p : Plan) : Bool :=
  !p.strict || p.allOps.all fun o => match o with
    | .epass e => !(eMAX ≤ e.mode && e.mode ≤ eCMPEQ) && !e.szero
    | _ => true

/-- Writes of logical hall i, of the given rank, with the pass that makes them. -/
def hallWrites (p : Plan) (i rank : Nat) : List (Nat × Span × RowSig) :=
  match p.sched[i]? with
  | none => []
  | some s => s.passes.flatMap fun r => ((p.passOps i r.pass).flatMap (Op.rowWrites p rank)).map fun w => (r.pass, w)

/-- Two passes share a pipeline window (R203). -/
def sameWindow (p : Plan) (i a b : Nat) : Bool :=
  a / 16 == b / 16 && !(((p.pass? i a).map PassRec.update).getD true) && !(((p.pass? i b).map PassRec.update).getD true)

def okUnc (ctx : PlanCtx) (p : Plan) : Bool :=
  p.allOps.all (fun o => match o with
    | .matpass m => m.chunks ≤ 4096
    | _ => true)
  && (List.range p.phalls).all fun i =>
    let ws := hallWrites p i (rankWord ctx.chain (ctx.base + i))
    ws.all fun (pa, sa, ga) => ws.all fun (pb, sb, gb) =>
      !(pa == pb || sameWindow p i pa pb) || !sa.overlaps sb || (pa == pb && ga == gb && sa == sb)

def okSemHold (p : Plan) : Bool :=
  p.sched.all fun s => s.passes.all fun r => (List.range r.sems).all fun k => fld r.semRel (2 * k) 2 < 2

def okResource (ctx : PlanCtx) (p : Plan) : Bool :=
  (List.range p.phalls).all fun i => match p.sched[i]? with
    | none => false
    | some s => s.passes.all fun r =>
        let ops := p.passOps i r.pass
        let rank := rankWord ctx.chain (ctx.base + i)
        twinNeed p rank ops ≤ r.twins && r.twins ≤ p.staging && rowTop p rank (fun _ => 1) ops ≤ 65536 && bayTop p ops ≤ 512

/-! ### Rules #24 to #29 -/

/-- R124, R125. DESIGN CHOICE: NTREE stands in bytes 0 and 1 of the section's header, the header's other bytes and the padding behind a
tree are zero, and VGROUP is 1 to 6 (log 114). -/
def okTree (p : Plan) (ctx : PlanCtx) (b : List Byte) : Bool :=
  let n := u16 b 0
  let offs := treeOffs b n 16
  let nums := offs.map fun o => u16 b o
  let last := offs.foldl (fun _ o => o + treeLen (u32 b (o + 4))) 16
  1 ≤ n && n ≤ 256 && allZero (bytesAt b 2 14) && b.length == last && distinct nums
    && offs.all (fun o =>
      let t := parseTree b o
      let nr := t.ranks.length
      let kids := t.nodes.flatMap fun x => [x.1, x.2]
      u8 b (o + 2) < 2 && 1 ≤ t.vgroup && t.vgroup ≤ 6 && 2 ≤ nr && nr ≤ 2097152 && 1 ≤ t.shards && t.shards ≤ nr
        && 1 ≤ t.deadline && u16 b (o + 14) == 0
        && allZero (bytesAt b (o + 32 + 4 * nr + 8 * (nr - 1)) (treeLen nr - 32 - 4 * nr - 8 * (nr - 1)))
        && t.ranks.all (fun r => r < 2 ^ 21) && distinct t.ranks
        && kids.all (fun w => w == (if isLeaf w then leafWord (wordIdx w) else wordIdx w))
        && (List.range nr).all (fun i => (kids.filter (· == leafWord i)).length == 1)
        && (List.range (nr - 1)).all (fun i => i == 0 || (kids.filter (· == i)).length == 1)
        && (List.range (nr - 1)).all (fun i => [t.left i, t.right i].all fun w => isLeaf w || decide (i < wordIdx w))
        && t.tdigest == (sha384 t.tableBytes).take 16)
    -- every hall of the partition that takes part
    && (List.range p.phalls).all (fun i => ((p.sched[i]?.map Sched.ops).getD []).all fun o => match o with
      | .reduce r => match p.tree? r.tree with
        | some t => t.ranks.contains (rankWord ctx.chain (ctx.base + i))
        | none => false
      | _ => true)
    -- R235
    && p.trees.all (fun t => !t.carry || p.allOps.all fun o => match o with
      | .reduce r => r.tree != t.num || r.mode == 0
      | .riser r => !r.apply || r.tree != t.num
      | _ => true)

/-- Ports of a physical hall in ascending number: three optical, two inner-ring (R127). -/
def hallPorts (h : Nat) : List Nat := [3 * h, 3 * h + 1, 3 * h + 2, 32 + 2 * h, 33 + 2 * h]

/-- R127. DESIGN CHOICE: hop bytes beyond HOPS and the record's last 19 bytes are zero (log 114). -/
def okRoutes (ctx : PlanCtx) (p : Plan) (ss : List Sect) : Bool :=
  (List.range p.phalls).all fun i => match sectHall ss 8 i with
    | none => p.routes.all List.isEmpty
    | some b =>
      b.length % 32 == 0 && 1 ≤ b.length / 32 && b.length / 32 ≤ 4096 && (records 32 b).all (fun r =>
        let hops := u8 r 4
        u32 r 0 < 2 ^ 21 && 1 ≤ hops && hops ≤ 8 && allZero (bytesAt r 13 19) && allZero (bytesAt r (5 + hops) (8 - hops))
          && (bytesAt r 5 hops).all (fun x => x.toNat < 24 || (32 ≤ x.toNat && x.toNat < 48))
          && (hallPorts (ctx.base + i)).contains (u8 r 5))
      -- a route to every rank that a REDUCE of the hall exchanges values with
      && ((p.sched[i]?.map Sched.ops).getD []).all fun o => match o with
        | .reduce r => match p.tree? r.tree with
          | some t => (t.peers (rankWord ctx.chain (ctx.base + i)) r.shFirst r.shCount).all fun x =>
              ((p.routes.getD i []).any (·.dest == x))
          | none => true
        | _ => true

/-- Groups that the routes and trees of logical hall i use on one of its ports (R128): those of the trees it takes part in,
and those of the channels that its operations name. -/
def usedGroups (p : Plan) (i rank port : Nat) (vs : List VcEnt) : List Nat :=
  ((p.trees.filter fun t => (p.treePorts i rank t 0 t.shards).contains port).map TreeRec.vgroup
    ++ (((p.sched[i]?.map Sched.ops).getD []).flatMap fun o => match o with
      | .reduce _ => []
      | _ => (o.channels p i rank).filterMap fun c =>
          if c.1 = port then some (vs.getD c.2 ⟨0, 0⟩).group else none).filter (· != 0)).eraseDups

def okVchans (ctx : PlanCtx) (p : Plan) (ss : List Sect) : Bool :=
  (List.range p.phalls).all fun i => match sectHall ss 9 i with
    | none => true
    | some b =>
      b.length == 320 && (List.range 5).all fun k =>
        let es := records 4 (bytesAt b (64 * k) 64)
        let vs := es.map parseVc
        let grp := fun g => (vs.filter (·.group == g)).length
        es.all (fun r => u16 r 0 < 16)
          && (List.range 14).all (fun c => (vs.getD c ⟨0, 0⟩).group ≤ 4)
          && (vs.getD 14 ⟨0, 0⟩).group == 5 && (vs.getD 15 ⟨0, 0⟩).group == 6
          && (vs.map VcEnt.credits).sum ≤ 2048
          && (usedGroups p i (rankWord ctx.chain (ctx.base + i)) ((hallPorts (ctx.base + i)).getD k 0) vs).all fun g => grp g == 1

/-- Generators that a stream claims (R131): units of its class. -/
def Stream.claims (s : Stream) (all : List Stream) : List Nat :=
  if s.cls = 0 then maskList s.units 32
  else
    let last := if s.cls = 1 then 31 else 0
    let next := (all.filter fun t => t.cls == s.cls && decide (s.units < t.units)).foldl (fun m t => min m t.units) (last + 1)
    (List.range (next - s.units)).map (s.units + ·)

def okSeeds (p : Plan) (b : List Byte) : Bool :=
  let n := u32 b 32
  let rs := records 16 (b.drop 64)
  let st := rs.map parseStream
  1 ≤ n && n ≤ 4096 && b.length == 64 + 16 * n && allZero (bytesAt b 36 28)
    && rs.all (fun r => u8 r 8 ≤ 2 && allZero (bytesAt r 9 3))
    && distinct (st.map Stream.salt)
    && st.all (fun s => s.cls == 0 || s.units ≤ (if s.cls = 1 then 31 else 0))
    && (List.range st.length).all (fun i => (List.range i).all fun j => match st[i]?, st[j]? with
      | some a, some c => a.cls != c.cls || (if a.cls = 0 then a.units &&& c.units == 0 else a.units != c.units)
      | _, _ => true)
    -- R182: AUDIT needs a stream for the dither lane
    && (st.any (fun s => s.cls == 2) || p.allOps.all fun o => match o with
      | .save s => !s.audit
      | _ => true)

def okBounds (b : List Byte) : Bool :=
  let x := parseBounds b
  b.length == 16 && 50 ≤ x.sliceMin && x.sliceMin ≤ 1000000 && x.sliceMin ≤ x.sliceMax && x.sliceMax ≤ 1000000
    && 1 ≤ x.overrun && x.overrun ≤ 40 && 1 ≤ x.commit && x.commit ≤ 8 && x.commit ≤ x.overrun && allZero (bytesAt b 11 5)

/-- Two routes of the partition to a device share no port (R270). -/
def twoPaths (p : Plan) (partner : Nat) : Bool :=
  let rs := p.routes.flatten.filter fun r => rankChain r.dest == partner
  rs.any fun a => rs.any fun c => a.ports.all fun y => !c.ports.contains y

/-- A SCISSOR record in itself, which R135 asks of one in a plan without the flag too: the ranges of its fields, reserved bytes, and
FORM 0 for 1, 2 or 4 halls. -/
def okScissorRec (phalls : Nat) (b : List Byte) : Bool :=
  let x := parseScissor b
  b.length == 16 && x.form ≤ 1 && x.leg ≤ 1 && fld (u32 b 2) 18 6 == 0 && u8 b 5 == 0 && allZero (bytesAt b 12 4)
    && x.primHall < 8 && x.primAddr < 2 ^ 18 && (x.form == 1 || phalls ≤ 4)

/-- R135 for the leg's own record, and R270. -/
def okScissor (ctx : PlanCtx) (p : Plan) (b : List Byte) : Bool :=
  let x := parseScissor b
  let mine := x.leg == 0
  okScissorRec ctx.count b && (!mine || (x.primHall == ctx.base && x.primAddr == ctx.chain))
    && (x.form == 0 || twoPaths p x.partner)

/-! ### The ledger size (R251) -/

/-- Most absent child words in the list of a subtree's value (R229): a left child's own, and of a right child one for itself or those
of its list. -/
def absWords (t : TreeRec) : Nat → Nat → Nat
  | 0, _ => 0
  | f + 1, w => if isLeaf w then 0
    else absWords t f (t.left (wordIdx w)) + max 1 (absWords t f (t.right (wordIdx w)))

/-- Most bytes of absent child words behind the lead block of a subtree's value (R223, R233). -/
def absRoom (t : TreeRec) (w : Nat) : Nat := roundUp (4 * min 255 (absWords t t.fuel w)) 64

/-- Bytes that an operation receives at most on its key or tree in a round: lead blocks, absent child words and data. A hall
receives no root value of a shard that it owns, and nothing at all where it awaits no child and no root value. -/
def Op.receives (p : Plan) (rank : Nat) : Op → Option (Bool × Nat × Nat)
  | .recv r =>
    if r.mode = 0 then some (false, r.tkey, 64 + 256 * r.count)
    else if r.mode = 3 then none
    else
      let w := p.fmtOf r.tensor
      let row := ceilDiv (p.colsOf r.tensor * fmtBits w.fmt) 8
      some (false, r.tkey, 64 + r.count * (row + if w.plane then ceilDiv (p.colsOf r.tensor) w.blk else 0)
        + if w.side then 32832 else 0)
  | .reduce r => match p.tree? r.tree with
    | none => none
    | some t =>
      let len := fun w => 64 + absRoom t w + if r.mode = 3 then 32 else 256 * r.srows
      let n := (((List.range r.shCount).map (r.shFirst + ·)).map fun s => match t.leafOf? s rank with
        | none => 0
        | some l => ((t.awaits l).map len).sum + if 2 ≤ r.mode ∧ l ≠ 0 then len 0 else 0).sum
      if n = 0 then none else some (true, r.tree, n)
  | _ => none

/-- Ledger of a hall in units of 64 KiB. -/
def ledgerUnits (p : Plan) (chain base i : Nat) : Nat :=
  let rs := ((p.sched[i]?.map Sched.ops).getD []).filterMap (Op.receives p (rankWord chain (base + i)))
  let keys := (rs.map fun r => (r.1, r.2.1)).eraseDups
  ceilDiv ((keys.map fun k =>
    4 * ((rs.filter fun r => (r.1, r.2.1) == k).map (·.2.2)).foldl max 0 + 4096).sum) 65536

/-- Gradient-hold segments that a plan's operations name (R192). -/
def holdTop (p : Plan) : Nat :=
  (p.allOps.map fun o => match o with
    | .riser r => r.seg + r.segs.length
    | _ => 0).foldl max 0

/-- Resident jobs hold the new ledger and their rows beside the staging pool (R251), and the gradient hold has room
(R319). -/
def okRoom (ctx : PlanCtx) (p : Plan) : Bool :=
  (List.range p.phalls).all fun i =>
    let js := ctx.jobs.getD i []
    let hold : Span := (ctx.holdBase.getD i 0, 65536 * holdTop p)
    js.all (fun j => ledgerUnits p ctx.chain ctx.base i ≤ j.1) && (js.map (·.2)).sum + ceilDiv p.staging 64 ≤ 1024
      && (hold.2 == 0 || (decide (hold.top ≤ 0xC00000000) && !(ctx.areas.getD i []).any fun a => a.2 != 0 && hold.overlaps a))

/-! ### The whole -/

/-- Library tables whose digest differs from the one in mask ROM (R115). -/
def funcsOff (fs : List FuncTab) : Nat :=
  (fs.filter fun f => f.libid != 0 && sha384 f.raw != Config.libraryDigest f.libid).length

/-- Both plans describe a tensor alike (R139). -/
def sameTensor (old : Option Plan) (new : Plan) (t : Nat) : Bool :=
  match old.bind fun p => p.tensor? t, new.tensor? t with
  | some a, some b => a.fmtRaw == b.fmtRaw && a.rows == b.rows && a.cols == b.cols && a.flags == b.flags
  | _, _ => false

/-- Bays whose contents a plan keeps, under the galleries that its records name (R111, R139). -/
def Plan.keeps (p : Plan) (ctx : PlanCtx) : List (List KeptBay) :=
  ctx.bays.zipIdx.map fun (l, i) =>
    let repl := (replaceFenced (p.struct_.getD i ⟨i, 0, 0, []⟩).gals (ctx.fenced.getD i [])).getD []
    (l.filter fun b => sameTensor ctx.old p b.tensor).map fun b =>
      { b with gal := ((repl.find? fun e => e.2 == b.gal).map (·.1)).getD b.gal }

/-- The plan that the sections of a container give. -/
def buildPlan (ctx : PlanCtx) (c : List Byte) (ss : List Sect) : Plan :=
  let n := planPhalls c
  let once := fun t => (sectOnce ss t).getD []
  let pol := once 0xB
  let tb := Tables.parse (once 2)
  let fs := if (sectOnce ss 3).isSome then parseFuncs (once 3) (u16 (once 3) 0) 16 else []
  let p : Plan :=
    { planId := BitVec.ofNat 64 (u64 c 0x10), strict := bit (planFlags c) 0, scissorF := bit (planFlags c) 1,
      test := bit (planFlags c) 2, phalls := n, struct_ := (records 80 (once 1)).map parseHall, tables := tb,
      funcs := fs, tensors := (records 32 (once 4)).map parseTensor,
      sched := (List.range n).map fun i => parseSched ((sectHall ss 5 i).getD []),
      rescale := (records 16 (once 6)).map parseRescale,
      trees := if (sectOnce ss 7).isSome then parseTrees (once 7) else [],
      routes := (List.range n).map fun i => (records 32 ((sectHall ss 8 i).getD [])).map parseRoute,
      vchans := (List.range n).map fun i => (records 4 ((sectHall ss 9 i).getD [])).map parseVc,
      seedM := (List.range 4).map fun i => BitVec.ofNat 64 (u64 (once 0xA) (8 * i)),
      streams := (records 16 ((once 0xA).drop 64)).map parseStream,
      tau := u16 pol 0, strikeWin := if u32 pol 4 = 0 then 65536 else u32 pol 4, staging := u32 pol 8,
      pols := (records 32 (pol.drop 32)).map parsePolicy, bounds := parseBounds (once 0xC),
      scissor := if bit (planFlags c) 1 then (sectOnce ss 0xD).map parseScissor else none,
      pairDigest := if bit (planFlags c) 1 then pairingDigest c else [], ledgers := [],
      canon := (sha384 tb.sbImage == sha384 Tables.canonical.sbImage, sha384 tb.dbImage == sha384 Tables.canonical.dbImage,
        sha384 tb.alImage == sha384 Tables.canonical.alImage),
      funcNc := funcsOff fs, kept := [] }
  { p with ledgers := (List.range n).map (ledgerUnits p ctx.chain ctx.base), kept := p.keeps ctx }

/-- Rules #1 and #2 (step 1 of Table 04-13). -/
def checkStep1 (c : List Byte) (len : Nat) : Option Nat :=
  if !okMagic c then some 0x0401 else if !okLength c len then some 0x0402 else none

/-- Rules #3 to #7 (R109). -/
def checkSecurity (ctx : PlanCtx) (c : List Byte) : Option Nat :=
  match ctx.slots[planKeySlot c]? with
  | none => some 0x0701
  | some k =>
    if !k.provisioned then some 0x0701
    else if sha384 (bytesAt (trailer c) 0x10 96) != k.digest then some 0x0702
    else if k.revoked then some 0x0703
    else if !okSignature c then some 0x0704
    else if u32 c 0x18 < k.minver then some 0x0705
    else none

/-- Rules #8 to #29, over the sections and the plan they give. -/
def checkSections (ctx : PlanCtx) (c : List Byte) (ss : List Sect) (p : Plan) : Option Nat :=
  let once := fun t => (sectOnce ss t).getD []
  let opt := fun (t : Nat) (f : List Byte → Bool) => match sectOnce ss t with
    | none => true
    | some b => f b
  if !okSections c ss then some 0x0403
  else if !ss.all (fun x => sha384 x.body == x.digest) then some 0x0404
  else if !(u8 c 6 == 1 && u8 c 9 == 64 && u8 c 0xA == 64 && u8 c 0xB == 64) then some 0x0405
  else if !(planPhalls c == ctx.count && ctx.hallsOk && ctx.chainOk) then some 0x0406
  else if !okStructure ctx p.phalls (once 1) then some 0x0407
  else if !okTables (once 2) then some 0x0408
  else if !opt 3 okFuncs then some 0x0409
  else if !(okTensors p (once 4) && opt 6 okRescale) then some 0x040A
  else if !okPolicy p.tensors p.allOps (once 0xB) then some 0x040B
  else if !okSchedule ctx p ss then some 0x040C
  else if !okMode p then some 0x040D
  else if !okMatrix p then some 0x040E
  else if !okStrict p then some 0x040F
  else if !okUnc ctx p then some 0x0410
  else if !okSemHold p then some 0x0411
  else if !(okResource ctx p && okRoom ctx p) then some 0x0412
  else if !opt 7 (okTree p ctx) then some 0x0413
  else if !okRoutes ctx p ss then some 0x0414
  else if !okVchans ctx p ss then some 0x0415
  else if !okSeeds p (once 0xA) then some 0x0416
  else if !okBounds (once 0xC) then some 0x0417
  else if !opt 0xD (fun b => okScissorRec p.phalls b && (!bit (planFlags c) 1 || okScissor ctx p b)) then some 0x0418
  else none

/-- The first error of Table 04-14, or the plan. `c` are the bytes of the LOAD. -/
def readPlan (ctx : PlanCtx) (c : List Byte) : Except Nat Plan :=
  match checkStep1 c c.length with
  | some e => .error e
  | none => match checkSecurity ctx c with
    | some e => .error e
    | none =>
      let ss := sections c
      let p := buildPlan ctx c ss
      match checkSections ctx c ss p with
      | some e => .error e
      | none => .ok p

end Sys2Proof.Machine
end

