-- ==== Sys2Proof/Machine/Submit.lean ====
section
/-! DEFINITION. Submission: the checks of a fetched descriptor in the order of R173 and R351. -/

namespace Sys2Proof.Machine

/-- An error code with its DETAIL (Table 05-13). -/
abbrev Err := Nat × Nat

def firstErr : List (Bool × Err) → Option Err
  | [] => none
  | (c, e) :: r => if c then some e else firstErr r

end Sys2Proof.Machine

namespace Sys2Proof

open Sys2Proof.Machine

/-! ### Descriptor bytes -/

/-- Field of the body at its descriptor offset. -/
def Desc.b (d : Desc) (off n : Nat) : Nat := leNat (bytesAt d.body (off - 32) n)
def Desc.zeros (d : Desc) (off n : Nat) : Bool := allZero (bytesAt d.body (off - 32) n)

def Desc.bytes (opcode : Nat) (d : Desc) : List Byte :=
  BitVec.ofNat 8 opcode :: d.flags :: natLE d.rsv2 2 ++ natLE d.tag.toNat 4 ++ natLE d.timeout 4 ++ natLE d.rsv12 4
    ++ (d.slots.flatMap fun x => natLE x.toNat 4) ++ d.body

def Desc.parse (b : List Byte) : Desc :=
  { flags := BitVec.ofNat 8 (u8 b 1), rsv2 := u16 b 2, tag := BitVec.ofNat 32 (u32 b 4), timeout := u32 b 8,
    rsv12 := u32 b 12, slots := (List.range 4).map fun i => BitVec.ofNat 32 (u32 b (16 + 4 * i)), body := bytesAt b 32 32 }

/-- Opcodes of Table 05-7. -/
abbrev opRUN : Nat := 1
abbrev opLOAD : Nat := 2
abbrev opSTORE : Nat := 3
abbrev opCOPY : Nat := 4
abbrev opFENCE : Nat := 5
abbrev opCHECKPOINT : Nat := 6
abbrev opGANG : Nat := 7

namespace Desc
def irq (d : Desc) : Bool := d.flags.getLsbD 0
def overlap (d : Desc) : Bool := d.flags.getLsbD 1
/-- RUN and GANG name a plan (R140, R154). -/
def planId (op : Nat) (d : Desc) : Nat := if op = opRUN then d.b 32 8 else if op = opGANG then d.b 56 8 else 0
def pass (d : Desc) : Nat := fld (d.b 40 2) 0 14
def runRows (d : Desc) : Nat := d.b 44 4
def part (d : Desc) : Nat := d.b 32 1
def count (d : Desc) : Nat := d.b 36 4
def first (d : Desc) : Nat := d.b 56 4
def first2 (d : Desc) : Nat := d.b 60 4
def nbind (op : Nat) (d : Desc) : Nat := if op = opRUN then d.b 52 4 else if op = opGANG then d.b 44 4 else 0
def bindAddr (op : Nat) (d : Desc) : Nat := if op = opRUN then d.b 56 8 else d.b 48 8
def tree (d : Desc) : Nat := d.b 32 2
def gangOp (d : Desc) : Nat := d.b 34 1
def shFirst (d : Desc) : Nat := d.b 36 4
def shCount (d : Desc) : Nat := d.b 40 4
def route (d : Desc) : Nat := d.b 32 2
def mezzSlot (d : Desc) : Nat := fld (d.b 34 1) 0 1
def ntens (d : Desc) : Nat := d.b 36 4
def peer (d : Desc) : Bool := bit (d.b 32 1) 0
/-- Semaphore slot i: number, operation, value (Table 05-6). -/
def sem (d : Desc) (i : Nat) : Nat × Nat × Nat :=
  let x := (d.slots.getD i 0).toNat
  (fld x 0 8, fld x 8 3, fld x 16 16)
def semsOf (d : Desc) (op : Nat) : List (Nat × Nat) :=
  (List.range 4).filterMap fun i => let (n, o, v) := d.sem i; if o = op then some (n, v) else none
/-- The work field of R172 is zero, or the command is a FENCE. -/
def noWork (op : Nat) (d : Desc) : Bool :=
  if op = opRUN then d.runRows == 0
  else if op = opLOAD ∨ op = opSTORE ∨ op = opCOPY then d.count == 0
  else if op = opCHECKPOINT then d.ntens == 0
  else if op = opGANG then d.shCount == 0
  else true
end Desc

end Sys2Proof

namespace Sys2Proof.Machine

/-! ### Addresses -/

/-- Physical hall of a logical hall of a page's partition. -/
def State.phys (s : State) (q : Page) (lh : Nat) : Nat := (s.part (pageFn q)).base + lh

/-- Bytes at a body address, whose bit 0 gives its location (R150). -/
def State.readAt (s : State) (q : Page) (a n : Nat) : List Byte :=
  if bit a 0 then memReads (s.hall (s.phys q (hbmHall (a - 1)))).hbm (hbmOff (a - 1)) n else memReads s.host a n

/-- A body address that R147 or R150 refuses. DESIGN CHOICE: a logical hall at or above the hall count fits ERR_ARG_ADDR and
ERR_PART_HALL of Table 05-17; a body address has the former, in step 1 (log 128). -/
def bodyAddrBad (count a : Nat) : Bool :=
  fld a 1 5 != 0 || (bit a 0 && (hbmBad (a - 1) || decide (count ≤ hbmHall (a - 1))))

/-! ### Step 1: header and body fields -/

def descBodyErr (count op : Nat) (d : Desc) : Option Err :=
  let rsv := fun (o n : Nat) => (!d.zeros o n, ((0x0102, o) : Err))
  let addr := fun (o : Nat) => (bodyAddrBad count (d.b o 8), ((0x0103, o) : Err))
  if op = opRUN then firstErr
    [(d.b 32 8 == 0, (0x0104, 32)), (fld (d.b 40 2) 14 2 != 0, (0x0102, 40)), rsv 42 2, addr 56]
  else if op = opLOAD then firstErr
    [(decide (3 < d.part), (0x0104, 32)), rsv 33 3, addr 40,
     if d.part = 3 then rsv 48 8 else addr 48, rsv 60 4]
  else if op = opSTORE then firstErr [(decide (2 < d.part), (0x0104, 32)), rsv 33 3, addr 40, addr 48, rsv 60 4]
  else if op = opCOPY then firstErr [(decide (2 < d.part), (0x0104, 32)), rsv 33 3, addr 40, addr 48]
  else if op = opFENCE then firstErr [(fld (d.b 32 1) 1 7 != 0, (0x0102, 32)), rsv 33 31]
  else if op = opCHECKPOINT then firstErr [(fld (d.b 34 1) 1 7 != 0, (0x0102, 34)), rsv 35 1, addr 40, rsv 48 16]
  else firstErr
    [(d.gangOp < 1 || 4 < d.gangOp, (0x0104, 34)), rsv 35 1, addr 48, (d.b 56 8 == 0, (0x0104, 56)),
     (d.shCount != 0 && d.nbind opGANG != 2, (0x0104, 44))]

/-- The active plan when the command names it. -/
def Part.planOf (p : Part) (op : Nat) (d : Desc) : Option Plan :=
  match p.plan with
  | none => none
  | some pl => if (op = opRUN ∨ op = opGANG) ∧ pl.planId.toNat = d.planId op then some pl else none

/-- R140: the PASS, or the TREE and its shards, against the named plan. DESIGN CHOICE: Table 05-11 bounds SHARD_FIRST and SHARD_COUNT by
the tree's SHARDS and gives no code; outside, the GANG has 0x0104 with the field's offset, in step 1, or at dispatch for a plan that is
active only then (log 138). -/
def descPlanErr (op : Nat) (d : Desc) (p : Plan) : Option Err :=
  if op = opRUN then (if p.hasPass d.pass then none else some (0x0104, 40))
  else if op = opGANG then
    match p.tree? d.tree with
    | none => some (0x0104, 32)
    | some t =>
      if t.carry then some (0x0104, 32)
      else if t.shards ≤ d.shFirst then some (0x0104, 36)
      else if t.shards < d.shFirst + d.shCount then some (0x0104, 40) else none
  else none

/-- Step 1 of Table 05-12. DESIGN CHOICE: the manual does not order the checks within it; the common fields come first, then the body's
by offset, and last what needs the active plan, the PASS or the TREE (log 139). -/
def descStep1 (p : Part) (op : Nat) (d : Desc) : Option Err :=
  if op < 1 || 7 < op then some (0x0101, 0)
  else match firstErr
    [(fld d.flags.toNat 2 6 != 0, (0x0102, 1)), (d.overlap && op != opRUN, (0x0105, 1)), (d.rsv2 != 0, (0x0102, 2)),
     (decide (10000000 < d.timeout), (0x0104, 8)), (d.rsv12 != 0, (0x0102, 12))] with
  | some e => some e
  | none => match descBodyErr p.count op d with
    | some e => some e
    | none => match p.planOf op d with
      | some pl => descPlanErr op d pl
      | none => none

/-! ### Step 2: lengths (Table 05-18) -/

def descStep2 (op : Nat) (d : Desc) : Option Err :=
  if op = opRUN then firstErr
    [(decide (16777216 < d.runRows), (0x0201, 44)), (decide (262144 < d.b 48 4), (0x0203, 48)),
     (decide (4096 < d.nbind op), (0x0201, 52))]
  else if op = opLOAD ∨ op = opSTORE ∨ op = opCOPY then
    let n := d.count
    let bad : Bool :=
      if d.part = 3 then n != 0 && (decide (n < 1048576) || decide (268435456 < n))
      else if d.part = 2 then decide (1 < n) else decide (2147483648 < n)
    firstErr [(bad, (0x0201, 36))]
  else if op = opCHECKPOINT then firstErr [(decide (65535 < d.ntens), (0x0201, 36))]
  else if op = opGANG then firstErr
    [(decide (2097152 < d.shCount), (0x0201, 40)), (decide (4096 < d.nbind op), (0x0201, 44))]
  else none

/-! ### Step 3: semaphore slots (R168) -/

def descSlotBad (d : Desc) (i : Nat) : Bool :=
  let (n, o, v) := d.sem i
  o ≥ 5 || fld (d.slots.getD i 0).toNat 11 5 != 0 || (o ≤ 1 && v != 0) || (o == 0 && n != 0)
    || (o != 0 && (List.range i).any fun j => let (m, r, _) := d.sem j; r != 0 && m == n)

/-- SEMS of a pass: the largest that a share of the pass records. -/
def Plan.sems (p : Plan) (pass : Nat) : Nat :=
  ((List.range p.phalls).map fun i => ((p.pass? i pass).map PassRec.sems).getD 0).foldl max 0

def descSemsErr (d : Desc) (p : Plan) : Option Err :=
  firstErr ((List.range (p.sems d.pass)).map fun i => ((d.sem i).2.1 != 1, (0x0501, 16 + 4 * i)))

def descStep3 (p : Part) (op : Nat) (d : Desc) : Option Err :=
  match firstErr ((List.range 4).map fun i => (descSlotBad d i, (0x0501, 16 + 4 * i))) with
  | some e => some e
  | none => if op = opRUN then (match p.planOf op d with
      | some pl => descSemsErr d pl
      | none => none) else none

/-! ### Step 4: tensor descriptors and the command as a whole -/

/-- Addresses of the command's tensor descriptors in the order of R351. -/
def descTds (op : Nat) (d : Desc) : List Nat :=
  if op = opRUN ∨ op = opGANG then (List.range (d.nbind op)).map fun i => d.bindAddr op + 64 * i
  else if op = opLOAD then (if d.part = 3 then [] else [d.b 48 8])
  else if op = opSTORE then [d.b 40 8]
  else if op = opCOPY then [d.b 40 8, d.b 48 8]
  else []

/-- Tensors that the operations of a pass read, and write, in any hall. -/
def Plan.passReads (p : Plan) (pass : Nat) : List Nat :=
  ((List.range p.phalls).flatMap fun i => (p.passOps i pass).flatMap (Op.reads p)).eraseDups
def Plan.passWrites (p : Plan) (pass : Nat) : List Nat :=
  ((List.range p.phalls).flatMap fun i => (p.passOps i pass).flatMap (Op.writes p)).eraseDups

/-- A pass that restores every tensor of a Mezzanine image may write any tensor that it binds. -/
def Plan.restoresAll (p : Plan) (pass : Nat) : Bool :=
  (List.range p.phalls).any fun i => (p.passOps i pass).any Op.restoresAll

/-- Whether descriptor i is a write target, where that is known: from the opcode, or from the pass of the plan. -/
def isTarget (op : Nat) (d : Desc) (p : Option Plan) (i : Nat) (t : TDesc) : Bool :=
  if op = opLOAD then true
  else if op = opCOPY ∨ op = opGANG then i == 1
  else if op = opRUN then (match p with
    | some pl => (pl.passWrites d.pass).contains t.tensor || (t.dogleg && pl.restoresAll d.pass)
    | none => false)
  else false

/-- DETAIL of the command's descriptor i (Table 05-13): a binding's index, or the offset of the body field that names it. -/
def tdDetail (op i : Nat) : Nat :=
  if op = opLOAD then 48 else if op = opSTORE then 40 else if op = opCOPY then (if i = 0 then 40 else 48) else 0x8000 + i

/-- R172: the pass's tensors without a descriptor. -/
def unbound (p : Plan) (pass : Nat) (tds : List TDesc) : Bool :=
  (p.passReads pass ++ p.passWrites pass).any fun t => !tds.any (·.tensor == t)

def checkTds (op : Nat) (d : Desc) (p : Option Plan) (tds : List TDesc) : Option Err :=
  tds.zipIdx.foldl (fun r (t, i) => match r with
    | some e => some e
    | none => (t.check p (isTarget op d p i t)).map fun c => (c, tdDetail op i)) none

/-- R153: a COPY between different format words. DETAIL is the lowest field that breaks a condition, the source's or the target's
address for what its descriptor holds (Table 05-13). DESIGN CHOICE: a COUNT of zero does not cover a target with SIDE = 1, although
R172 has such a command succeed elsewhere; it is rejected with ERR_BUF_ALIGN (log 137). -/
def copyConvErr (d : Desc) (a b : TDesc) : Option Err :=
  if a.fmtRaw = b.fmtRaw then none
  else firstErr
    [(!convertible a.w.fmt b.w.fmt, (0x0307, if a.w.fmt = fmtRem then 40 else 48)),
     (d.part != 0, (0x0204, 32)),
     (d.count % a.cols != 0 || (b.w.side && d.count != b.elems), (0x0204, 36)),
     (a.cols != b.cols, (0x0204, 48)),
     (d.first % a.cols != 0, (0x0204, 56)),
     (d.first2 % a.cols != 0 || (b.w.side && d.first2 != 0), (0x0204, 60))]

/-- R237: a GANG's elements per shard, and the shards of a gather. -/
def gangErr (d : Desc) (p : Plan) (tds : List TDesc) : Option Err :=
  match p.tree? d.tree, tds with
  | some t, [_, x] =>
    if d.shCount = 0 then none
    else firstErr [(d.gangOp == 3 && decide (1 < d.shCount), (0x0204, 40)), (x.elems % (128 * t.shards) != 0, (0x0204, 0x8001))]
  | _, _ => none

def TDesc.sameStore (a b : TDesc) : Bool := a.host == b.host && (a.host || a.lhall == b.lhall)

/-- Units of a PART in a tensor (R152). -/
def partUnits (part : Nat) (t : TDesc) : Nat := if part = 0 then t.elems else if part = 1 then t.rows else 1

/-- Bytes of COUNT units of a PART in a tensor; a whole side list is 32,832 bytes, whatever its header holds (R152). -/
def partBytes (d : Desc) (t : TDesc) : Nat :=
  if d.part = 0 then ceilDiv (d.count * fmtBits t.w.fmt) 8 else if d.part = 1 then d.count * t.blocks else d.count * TDesc.sideLen

/-- n bytes from a body address on run past the stack, or past the host's addresses (R171). -/
def beyondEnd (a n : Nat) : Bool :=
  if bit a 0 then decide (stackBytes < hbmOff (a - 1) + n) else decide (2 ^ 64 < a + n)

/-- The lists that a body points to, with the field that does (R171). -/
def listErr (op : Nat) (d : Desc) : Option Err :=
  if op = opRUN then firstErr [(beyondEnd (d.b 56 8) (64 * d.nbind op), (0x0202, 56))]
  else if op = opGANG then firstErr [(beyondEnd (d.b 48 8) (64 * d.nbind op), (0x0202, 48))]
  else if op = opCHECKPOINT then firstErr [(beyondEnd (d.b 40 8) (2 * d.ntens), (0x0202, 40))]
  else none

/-- The checks of the command as a whole (R351). DESIGN CHOICE: R152 asks FIRST 0 of PART 2 and PART 3 and names no code; another
FIRST is rejected with the extents of FIRST and COUNT, also where COUNT is 0 (log 126). -/
def wholeErr (op : Nat) (d : Desc) (tds : List TDesc) : Option Err :=
  if op = opLOAD ∨ op = opSTORE ∨ op = opCOPY then
    let part := d.part
    let fmtBad : Bool := (part == 1 && tds.any (fun t => !t.w.plane)) || (part == 2 && tds.any (fun t => !t.w.side))
    let conv : Option Err := match op == opCOPY, tds with
      | true, [a, b] => copyConvErr d a b
      | _, _ => none
    let meet : Bool := match op == opCOPY, tds with
      | true, [a, b] => a.sameStore b && a.spans.any fun x => b.spans.any x.overlaps
      | _, _ => false
    let beyond := fun (first : Nat) (t : TDesc) =>
      decide (partUnits part t < first + d.count) || (part == 2 && first != 0)
    if fmtBad then some (0x0104, 32)
    else match conv with
      | some e => some e
      | none => firstErr
        [(op == opSTORE && bit (d.b 48 8) 0, (0x0103, 48)),
         (meet, (0x0205, 0xFFFF)),
         (part == 3 && d.first != 0, (0x0202, 56)),
         ((match tds with
           | t :: _ => beyond d.first t
           | [] => false), (0x0202, 56)),
         ((match tds with
           | [_, t] => beyond d.first2 t
           | _ => false), (0x0202, 60)),
         (op == opLOAD && beyondEnd (d.b 40 8) (match tds with
           | [t] => partBytes d t
           | _ => d.count), (0x0202, 40)),
         (op == opSTORE && (match tds with
           | [t] => beyondEnd (d.b 48 8) (partBytes d t)
           | _ => false), (0x0202, 48))]
  else none

/-- Step 4 of R173: each descriptor, then the command as a whole. The extents of the lists come first of all, since the
descriptors are read from them (log 92). -/
def step4 (p : Part) (op : Nat) (d : Desc) (tds : List TDesc) : Option Err :=
  let pl := p.planOf op d
  match listErr op d with
  | some e => some e
  | none => match checkTds op d pl tds with
    | some e => some e
    | none => match pl with
      | some x =>
        if op = opRUN then (if unbound x d.pass tds then some (0x030D, 0xFFFF) else none)
        else if op = opGANG then gangErr d x tds else wholeErr op d tds
      | none => wholeErr op d tds

/-! ### Step 5: shares (R147, R248 to R250) -/

def HJob.share (j : HJob) : Span := (j.hbmBase * 65536, j.hbmSize * 65536)
def HJob.usable (j : HJob) : Span := (j.hbmBase * 65536, (j.hbmSize - j.ledger) * 65536)

/-- Step area with its exception log, collective log, gradient hold and Mezzanine (R247, R319). -/
def Hall.areas (H : Hall) : List Span :=
  [(H.shrBase, 256 * 64 * H.shrSlot), (H.xlogBase, 32 * H.xlogSize), (H.clogBase, 65536 * H.clogSize),
   (H.holdBase, 65536 * H.holdSegs), (H.mezzBase, 131072 * H.mezzSize)]

/-- Resident jobs of a virtual function. -/
def State.residents (s : State) (v : Fn) : List Nat := (List.range 16).filter fun j => (s.job (pageOf v j)).resident

def Span.within (a b : Span) : Bool := decide (b.1 ≤ a.1) && decide (a.1 + a.2 ≤ b.1 + b.2)
def Span.meets (a b : Span) : Bool := a.2 != 0 && b.2 != 0 && a.overlaps b

/-- A run of bytes of a hall lies wholly in the job's usable share. -/
def State.inUsable (s : State) (q : Page) (h : Nat) (x : Span) : Bool :=
  (s.job q).resident && x.within ((s.hall h).job (pageJob q)).usable

/-- … or wholly in the common region of the hall. -/
def State.inCommon (s : State) (q : Page) (h : Nat) (x : Span) : Bool :=
  let H := s.hall h
  decide (x.top ≤ stackBytes) && !(H.areas.any x.meets)
    && !((s.residents (pageFn q)).any fun j => x.meets (H.job j).share)

/-- R248 for one extent of the logical hall lh. -/
def State.shareErr (s : State) (q : Page) (write : Bool) (lh : Nat) (x : Span) : Option Nat :=
  if (s.part (pageFn q)).count ≤ lh then some 0x0602
  else if x.2 = 0 || s.inUsable q (s.phys q lh) x then none
  else if s.inCommon q (s.phys q lh) x && (!write || (s.job q).wcommon) then none
  else some 0x0601

def firstSome {α β : Type} (f : α → Option β) : List α → Option β
  | [] => none
  | x :: r => match f x with
    | some b => some b
    | none => firstSome f r

/-- The extents that a body's own addresses name: field, address, bytes. -/
def descExtents (op : Nat) (d : Desc) (tds : List TDesc) : List (Nat × Nat × Nat) :=
  if op = opRUN ∨ op = opGANG then [(if op = opRUN then 56 else 48, d.bindAddr op, 64 * d.nbind op)]
  else if op = opLOAD then
    let n := match tds with
      | [t] => partBytes d t
      | _ => d.count
    (40, d.b 40 8, n) :: (if d.part = 3 then [] else [(48, d.b 48 8, 64)])
  else if op = opSTORE then [(40, d.b 40 8, 64)]
  else if op = opCOPY then [(40, d.b 40 8, 64), (48, d.b 48 8, 64)]
  else if op = opCHECKPOINT then [(40, d.b 40 8, 2 * d.ntens)]
  else []

/-- R248 for the faces of one descriptor. DESIGN CHOICE: its logical hall at or above the hall count has ERR_PART_HALL, in step 5
(log 128). -/
def State.tdShareErr (s : State) (q : Page) (write : Bool) (t : TDesc) : Option Nat :=
  if t.host then none
  else if (s.part (pageFn q)).count ≤ t.lhall then some 0x0602
  else firstSome (s.shareErr q write t.lhall) t.spans

/-- Level slots of the row group at a row by its committed tag. -/
def Hall.slotsOf (H : Hall) (job l : Nat) : Nat :=
  match (H.job job).rowMap.find? (·.1 == l) with
  | some e => slotCount (H.row e.2).tag.slots
  | none => 1

/-- R249 and R250 for a RUN of a known pass. -/
def State.rowBayErr (s : State) (q : Page) (p : Plan) (pass : Nat) : Bool :=
  (List.range p.phalls).any fun lh =>
    let H := s.hall (s.phys q lh)
    let j := H.job (pageJob q)
    let ops := p.passOps lh pass
    decide (64 * j.rows < rowTop p (rankWord s.chainAddr.toNat (s.phys q lh)) (H.slotsOf (pageJob q)) ops) ||
      (decide (H.baySplit < bayTop p ops) && decide (j.bayCount < bayTop p ops - H.baySplit))

/-- Bytes of a ring: base, length, in HBM or not. -/
def Job.sqSpan (j : Job) : Span := (if j.sqHbm then hbmOff j.sqBase else j.sqBase, 64 * 2 ^ j.sqLog2)
def Job.cqSpan (j : Job) : Span := (if j.cqHbm then hbmOff j.cqBase else j.cqBase, 32 * 2 ^ j.cqLog2)

/-- A ring in HBM lies in the usable share. -/
def State.ringsInShare (s : State) (q : Page) : Bool :=
  let j := s.job q
  (!j.sqHbm || s.inUsable q (s.phys q (hbmHall j.sqBase)) j.sqSpan)
    && (!j.cqHbm || s.inUsable q (s.phys q (hbmHall j.cqBase)) j.cqSpan)

/-- R248 for the descriptors of a command. -/
def State.tdsShareErr (s : State) (q : Page) (op : Nat) (d : Desc) (p : Option Plan) (tds : List TDesc) : Option Err :=
  firstSome (fun (x : TDesc × Nat) =>
    (s.tdShareErr q (isTarget op d p x.2 x.1) x.1).map fun c => ((c, tdDetail op x.2) : Err)) tds.zipIdx

/-- R248's check of the write targets alone, made at dispatch for a pass that was not known at submission: one in the common
region needs WCOMMON. That each extent lies in the usable share or there was judged at submission. -/
def State.targetShareErr (s : State) (q : Page) (op : Nat) (d : Desc) (p : Option Plan) (tds : List TDesc) : Option Err :=
  firstSome (fun (x : TDesc × Nat) =>
    if isTarget op d p x.2 x.1 && !x.1.host && !(s.job q).wcommon
        && x.1.spans.any (fun y => y.2 != 0 && s.inCommon q (s.phys q x.1.lhall) y) then
      some ((0x0601, tdDetail op x.2) : Err) else none) tds.zipIdx

def State.step5 (s : State) (q : Page) (op : Nat) (d : Desc) (tds : List TDesc) : Option Err :=
  let p := (s.part (pageFn q)).planOf op d
  if !s.ringsInShare q then some (0x0601, 0xFFFF)
  else match firstSome (fun (x : Nat × Nat × Nat) =>
      if bit x.2.1 0 then (s.shareErr q false (hbmHall (x.2.1 - 1)) (hbmOff (x.2.1 - 1), x.2.2)).map fun c => ((c, x.1) : Err)
      else none) (descExtents op d tds) with
    | some e => some e
    | none => match s.tdsShareErr q op d p tds with
      | some e => some e
      | none => match op == opRUN, p with
        | true, some pl => if s.rowBayErr q pl d.pass then some (0x0601, 0xFFFF) else none
        | _, _ => none

/-! ### The exception log (R267) -/

/-- An entry of the exception log: KIND, JOB byte, UNIT, PASS, DETAIL. -/
structure LogEnt where
  kind   : Nat
  job    : Nat
  unit   : Nat
  pass   : Nat
  detail : Nat
deriving DecidableEq, Repr

def LogEnt.of (kind unit : Nat) : LogEnt := ⟨kind, 0, unit, 0xFFFF, 0⟩

/-- Write one entry of Table 09-4; without a configured ring nothing is written. -/
def Hall.xlog (H : Hall) (now : DWord) (e : LogEnt) : Hall :=
  if H.xlogSize = 0 then H
  else
    let a := H.xlogBase + 32 * (H.xlogHead % H.xlogSize)
    { H with
      hbm := memWrites H.hbm a (natLE now.toNat 8 ++ natLE e.kind 1 ++ natLE e.job 1 ++ natLE e.unit 2 ++ natLE e.pass 2
        ++ natLE 0 2 ++ natLE e.detail 8 ++ natLE H.step.toNat 8),
      xlogHead := (H.xlogHead + 1) % 2 ^ 32 }

def State.log (s : State) (h : Nat) (e : LogEnt) : State := s.modHall h (·.xlog s.time e)

/-! ### Poison (R264) -/

/-- A run of stack bytes touches a poisoned granule. -/
def Hall.poisoned (H : Hall) (x : Span) : Bool := H.poison.any fun g => x.overlaps (32 * g, 32)

/-- The first poisoned granule that a read of some runs meets, run by run, as a stack byte address. -/
def Hall.poisonIn (H : Hall) (l : List Span) : Option Nat :=
  firstSome (fun (x : Span) => (H.poison.filter fun g => x.overlaps (32 * g, 32)).min?.map (32 * ·)) l

/-- ERR_FAULT_STATE as a read raises it, with the stack byte address for the log's DETAIL (R264, R267); a row of the Undercroft
has none. -/
def poisonErr (a : Nat) : Nat := 0x0903 + 65536 * a
def isPoison (e : Nat) : Bool := e % 65536 == 0x0903

/-- Where a run of bytes of a store in HBM meets poison: the physical hall and the stack byte address. -/
def State.poisonAt (s : State) (q : Page) (hbm : Bool) (a n : Nat) : Option (Nat × Nat) :=
  let h := s.phys q (hbmHall a)
  if hbm then ((s.hall h).poisonIn [(hbmOff a, n)]).map fun p => (h, p) else none

/-- The first poison that the reads of a command's lists meet: its binding list, the descriptors that its body names, its
tensor list. -/
def State.listPoison (s : State) (q : Page) (op : Nat) (d : Desc) : Option (Nat × Nat) :=
  firstSome (fun (x : Nat × Nat) => s.poisonAt q (bit x.1 0) (x.1 - 1) x.2)
    ((descTds op d).map (fun a => (a, 64)) ++ (if op = opCHECKPOINT then [(d.b 40 8, 2 * d.ntens)] else []))

/-! ### The whole -/

/-- What submission makes of 64 bytes of a ring: opcode, descriptor, tensor descriptors, listed tensors, the first error. -/
structure Submitted where
  opcode : Nat
  desc   : Desc
  tds    : List TDesc
  tens   : List Nat
  known  : Bool
  err    : Option Err
  poison : Option (Nat × Nat)      -- poison that its reads met: hall, stack byte address (R264)
deriving DecidableEq, Repr

/-- ERR_FAULT_STATE of a submission whose reads met poison: poison is never reported as data (R264). -/
def poisonedErr : Err := (0x0903, 0xFFFF)

def State.submit (s : State) (q : Page) (b : List Byte) : Submitted :=
  let op := u8 b 0
  let d := Desc.parse b
  let p := s.part (pageFn q)
  let known := (p.planOf op d).isSome
  match firstSome id [descStep1 p op d, descStep2 op d, descStep3 p op d] with
  | some e => ⟨op, d, [], [], known, some e, none⟩
  | none =>
    let tds := (descTds op d).map fun a => TDesc.parse (s.readAt q a 64)
    let tens := if op = opCHECKPOINT then
      (List.range d.ntens).map fun i => leNat (s.readAt q (d.b 40 8 + 2 * i) 2) else []
    match listErr op d, s.listPoison q op d with
    | none, some x => ⟨op, d, [], [], known, some poisonedErr, some x⟩
    | _, _ => ⟨op, d, tds, tens, known, firstSome id [step4 p op d tds, s.step5 q op d tds], none⟩

end Sys2Proof.Machine
end

