-- ==== Sys2Proof/Machine/Queue.lean ====
section
/-! DEFINITION. Queues: fetching, kills and failures, completion records, the halt of a queue, semaphores, and which job
holds the partition (R148, R149, R157 to R162, R167, R173 to R175, R252). -/

namespace Sys2Proof.Machine

/-! ### Commands of a queue -/

def Job.cmd? (j : Job) (slot : Nat) : Option Cmd := j.cmds.find? (·.slot == slot)
def Job.modCmd (j : Job) (slot : Nat) (f : Cmd → Cmd) : Job :=
  { j with cmds := j.cmds.map fun c => if c.slot = slot then f c else c }
def State.cmd? (s : State) (q : Page) (slot : Nat) : Option Cmd := (s.job q).cmd? slot
def State.modCmd (s : State) (q : Page) (slot : Nat) (f : Cmd → Cmd) : State := s.modJob q (·.modCmd slot f)
def State.modAtt (s : State) (q : Page) (slot : Nat) (f : Attempt → Attempt) : State :=
  s.modCmd q slot fun c => { c with att := f c.att }

def Cmd.dispatched (c : Cmd) : Bool :=
  match c.phase with
  | .running => true
  | .window => true
  | _ => false
def Cmd.failed (c : Cmd) : Bool :=
  match c.phase with
  | .failed .. => true
  | _ => false
def Cmd.inWindow (c : Cmd) : Bool := c.phase == .window
def Cmd.noWork (c : Cmd) : Bool := c.desc.noWork c.opcode

/-- Pages of a partition's sixteen jobs. -/
def vfPages (v : Fn) : List Page := (List.range 16).map (pageOf v)

/-- Uncommitted dispatched commands of a partition with their pages. -/
def State.running (s : State) (v : Fn) : List (Page × Cmd) :=
  (vfPages v).flatMap fun q => ((s.job q).cmds.filter Cmd.dispatched).map fun c => (q, c)

/-- The active plan of a page's partition. -/
def State.plan? (s : State) (q : Page) : Option Plan := (s.part (pageFn q)).plan

/-! ### Semaphores (R167) -/

def Part.sem (p : Part) (n : Nat) : Sem := tabGet Sem.reset p.sems n
def Part.putSem (p : Part) (n : Nat) (x : Sem) : Part := { p with sems := tabSet p.sems n x }

/-- WAIT_GE: (VALUE − target) mod 2^16 is below 0x8000. -/
def Sem.reaches (x : Sem) (target : Nat) : Bool := decide ((x.value - BitVec.ofNat 16 target).toNat < 0x8000)

/-- The semaphore conditions of a header hold. -/
def Part.semsReady (p : Part) (d : Desc) : Bool :=
  (d.semsOf 1).all (fun x => (p.sem x.1).holder.isNone) && (d.semsOf 2).all fun x => (p.sem x.1).reaches x.2

def Part.acquire (p : Part) (d : Desc) (who : Nat × Nat) : Part :=
  (d.semsOf 1).foldl (fun p x => p.putSem x.1 { p.sem x.1 with holder := some who }) p

def Part.releaseSem (p : Part) (who : Nat × Nat) (n : Nat) : Part :=
  if (p.sem n).holder = some who then p.putSem n { p.sem n with holder := none } else p

/-- Release every semaphore that a command holds. -/
def Part.releaseAll (p : Part) (who : Nat × Nat) : Part :=
  { p with sems := p.sems.map fun e => (e.1, if e.2.holder = some who then { e.2 with holder := none } else e.2) }

/-- The SIGNAL slots of a header, in slot order. -/
def Part.signal (p : Part) (d : Desc) : Part :=
  (List.range 4).foldl (fun p i =>
    let (n, o, v) := d.sem i
    if o = 3 then p.putSem n { p.sem n with value := BitVec.ofNat 16 v }
    else if o = 4 then p.putSem n { p.sem n with value := (p.sem n).value + BitVec.ofNat 16 v } else p) p

/-! ### Faces, scales and generations of a hall -/

/-- The committed face of a pair of face addresses (R161). -/
def Hall.faceOf (H : Hall) (pair : Nat × Nat) : Nat := if H.faces1.contains pair then 1 else 0

/-- The scale-table key of a tensor: its number, or its first face where no plan names it. -/
def TDesc.scaleKey (d : TDesc) : Nat := if d.tensor = 0xFFFF then 0x10000 + hbmOff d.addr0 else d.tensor

def Hall.scale? (H : Hall) (d : TDesc) : Option ScaleEnt := (H.scale.find? fun e => e.1 == d.scaleKey).map (·.2)

/-- Coarse scale of a face: the one it was written with (R185), or the descriptor's. -/
def Hall.faceCoarse (H : Hall) (d : TDesc) (k : Nat) : Int :=
  match H.scale? d with
  | some e => if e.written then (if k = 0 then e.c0 else e.c1) else d.w.coarse
  | none => d.w.coarse

/-- Affine word of a face: the one it was written with, whatever the reader's descriptor holds; before that, the descriptor's
(R352). -/
def Hall.faceAff (H : Hall) (d : TDesc) (k : Nat) : Nat :=
  match H.scale? d with
  | some e => if e.written then (if k = 0 then e.a0 else e.a1) else d.affRaw
  | none => d.affRaw

/-- The binding that a descriptor's faces lie in (R78). -/
def State.scopeOf (s : State) (q : Page) (h : Nat) (d : TDesc) : Option Nat :=
  if s.inUsable q h (d.base 0, 1) then some (pageJob q) else none

def Hall.gen? (H : Hall) (t : Nat) (scope : Option Nat) : Option GenEnt :=
  H.gens.find? fun g => g.tensor == t && g.job == scope

def Hall.putGen (H : Hall) (g : GenEnt) : Hall :=
  { H with gens := g :: H.gens.filter fun x => !(x.tensor == g.tensor && x.job == g.job) }

/-- Clear VALID on the bays of a binding that were loaded 65,536 generations earlier. -/
def Hall.agedBays (H : Hall) (t : Nat) (scope : Option Nat) (g : Nat) : Hall :=
  { H with gals := H.gals.map fun e => (e.1, { e.2 with bays := e.2.bays.map fun b =>
      (b.1, if b.2.tensor = t ∧ b.2.bind = scope ∧ b.2.gen = g % 2 ^ 16 then { b.2 with valid := false } else b.2) }) }

/-- A binding's generation advances by one (R78). -/
def Hall.advanceGen (H : Hall) (t : Nat) (scope : Option Nat) : Hall :=
  match H.gen? t scope with
  | none => H
  | some g =>
    let n := (g.gen + 1) % 2 ^ 32
    (H.putGen { g with gen := n }).agedBays t scope n

/-- A dispatch binds a plan tensor: a new binding starts at zero, other addresses advance it. -/
def Hall.bindGen (H : Hall) (d : TDesc) (scope : Option Nat) : Hall :=
  if d.tensor = 0xFFFF then H
  else match H.gen? d.tensor scope with
    | none => H.putGen ⟨d.tensor, scope, d, 0⟩
    | some g =>
      let H1 := H.putGen { g with d := d }
      if g.d.addr0 = d.addr0 ∧ g.d.addr1 = d.addr1 then H1 else H1.advanceGen d.tensor scope

/-! ### What a command uses (R158, R159) -/

/-- Reads and writes of descriptor i. -/
def cmdRole (c : Cmd) (p : Option Plan) (i : Nat) (d : TDesc) : Bool × Bool :=
  if c.opcode = opLOAD then (false, true)
  else if c.opcode = opSTORE then (true, false)
  else if c.opcode = opCOPY ∨ c.opcode = opGANG then (i == 0, i == 1)
  else if c.opcode = opRUN then (match p with
    | some pl => ((pl.passReads c.desc.pass).contains d.tensor,
        (pl.passWrites c.desc.pass).contains d.tensor || (d.dogleg && pl.restoresAll c.desc.pass))
    | none => (false, false))
  else (false, false)

def Plan.managedT (p : Option Plan) (t : Nat) : Bool :=
  match p with
  | some x => t != 0xFFFF && x.managed t
  | none => false

/-- The coarse scale of a managed write (R186), and whether an encoded one is in per-row mode (R188); both as the hall stands
when the command is dispatched. -/
def Hall.writeScale (H : Hall) (p : Option Plan) (d : TDesc) (committed : Int) : Int × Bool :=
  if Plan.managedT p d.tensor then
    match ((H.scale? d).map ScaleEnt.hist).getD [] with
    | [] => (committed, true)
    | x :: r => (clampI (-128) 127 (-(-(r.foldl max x - fmtTop d.w.fmt d.w.side) / 16384) - 8), (p.map Plan.test).getD false)
  else (committed, false)

def State.useOf (s : State) (q : Page) (c : Cmd) (i : Nat) (d : TDesc) : Use :=
  let h := s.phys q d.lhall
  let H := s.hall h
  let k := if d.dogleg then H.faceOf d.pair else 0
  let (r, w) := cmdRole c (s.plan? q) i d
  let scope := s.scopeOf q h d
  let wr := H.writeScale (s.plan? q) d (H.faceCoarse d k)
  { hall := h, d := d, face := k, scope := scope, gen := ((H.gen? d.tensor scope).map GenEnt.gen).getD 0,
    coarse := H.faceCoarse d k, aff := H.faceAff d k, wcoarse := wr.1, wrows := wr.2, reads := r, writes := w }

/-- The last descriptor that bound a tensor in a hall: the job's own binding, or the common one (R78). -/
def State.binding? (s : State) (h : Nat) (t : Nat) (job : Nat) : Option TDesc :=
  match (s.hall h).gen? t (some job) with
  | some g => some g.d
  | none => ((s.hall h).gen? t none).map GenEnt.d

/-- A CHECKPOINT reads its listed tensors in every hall that binds them (R243). -/
def State.ckptUses (s : State) (q : Page) (c : Cmd) : List Use :=
  (s.pageHalls q).flatMap fun h => c.tens.filterMap fun t =>
    (s.binding? h t (pageJob q)).map fun d => { s.useOf q c 0 d with hall := h, reads := true }

/-- The uses of a command as of now; an empty command uses nothing (R172). -/
def State.usesOf (s : State) (q : Page) (c : Cmd) : List Use :=
  if c.noWork then [] else if c.opcode = opCHECKPOINT then s.ckptUses q c
  else c.tds.zipIdx.map fun (d, i) => s.useOf q c i d

def Op.holdSegs : Op → List Nat
  | .riser o => if o.apply then [] else o.segs
  | _ => []

/-- Hold segments that a RUN claims, by physical hall (R194). -/
def State.holdClaims (s : State) (q : Page) (c : Cmd) : List (Nat × Nat) :=
  match s.plan? q with
  | some p =>
    if c.opcode = opRUN ∧ !c.noWork then
      (List.range p.phalls).flatMap fun lh =>
        ((p.passOps lh c.desc.pass).flatMap Op.holdSegs).map fun g => (s.phys q lh, g)
    else []
  | none => []

/-- A hall's leaf packet (R195). -/
def Hall.leafPkt (H : Hall) : NormPkt := ⟨H.normSum, H.nfAcc, H.lossAcc, 1, H.carriedAcc, H.absentAcc, false⟩

/-- The committed counters of a hall. -/
def Hall.seen (H : Hall) : Seen := ⟨H.step, H.riser, H.sampler, H.leafPkt⟩

/-- The claims of R158 are free; a face that serves a pull counts as being read (R226). -/
def State.claimsFree (s : State) (v : Fn) (uses : List Use) (segs : List (Nat × Nat)) : Bool :=
  let run := s.running v
  let same := fun (a b : Use) => a.hall == b.hall && a.d.pair == b.d.pair
  uses.all (fun u => !u.writes || run.all fun (_, c) =>
    c.att.uses.all fun x => !(same u x) || (!x.writes && !(x.reads && x.face != u.face)))
  && uses.all (fun u => !u.writes || (s.hall u.hall).serving.all fun e => !(e.pair == u.d.pair && e.face != u.face))
  && segs.all fun g => run.all fun (_, c) => !c.att.holdClaims.contains g

/-! ### Overlap and order within a queue (R160, R203) -/

def Plan.isUpdate (p : Plan) (pass : Nat) : Bool :=
  (List.range p.phalls).any fun i => ((p.pass? i pass).map PassRec.update).getD false
def Plan.mayOverlap (p : Plan) (a b : Nat) : Bool :=
  a != b && a / 16 == b / 16 && !p.isUpdate a && !p.isUpdate b

/-- Earlier uncommitted commands let this one dispatch. -/
def orderOk (p : Option Plan) (earlier : List Cmd) (c : Cmd) : Bool :=
  match earlier with
  | [] => true
  | _ =>
    c.opcode == opRUN && c.desc.overlap && decide (earlier.length ≤ 3) && (match p with
      | none => false
      | some pl => earlier.all fun e => e.dispatched && e.opcode == opRUN && pl.mayOverlap e.desc.pass c.desc.pass)

/-- The oldest undispatched command with the commands before it. -/
def Job.next? (j : Job) : Option (List Cmd × Cmd) :=
  match j.cmds.dropWhile Cmd.dispatched with
  | c :: _ => if c.failed then none else some (j.cmds.takeWhile Cmd.dispatched, c)
  | [] => none

/-- Every transfer that the job has sent is acknowledged by its receiver: the receipt TAKEN has come (R165, FENCE with PEER;
log 98). -/
def State.peersDone (s : State) (q : Page) : Bool :=
  (s.pageHalls q).all fun h =>
    let J := (s.hall h).job (pageJob q)
    J.tx.all (·.acked) && J.unacked.isEmpty

/-- The four conditions of R158 hold for a command. -/
def State.mayStart (s : State) (q : Page) (c : Cmd) : Bool :=
  (s.part (pageFn q)).semsReady c.desc && s.claimsFree (pageFn q) (s.usesOf q c) (s.holdClaims q c)

/-- A FENCE with PEER waits for the acknowledgements of R165 before it dispatches (R166). -/
def State.peersAllow (s : State) (q : Page) (c : Cmd) : Bool := c.opcode != opFENCE || !c.desc.peer || s.peersDone q

/-- Twin rows that a RUN reserves in each hall (R92). -/
def State.twinsOf (s : State) (q : Page) (c : Cmd) : List (Nat × Nat) :=
  match s.plan? q with
  | some p => if c.opcode = opRUN ∧ !c.noWork then
      (List.range p.phalls).map fun lh => (s.phys q lh, ((p.pass? lh c.desc.pass).map PassRec.twins).getD 0) else []
  | none => []

/-- Twin rows of a hall that running commands of its partition have reserved. -/
def State.twinsInUse (s : State) (h : Nat) : Nat :=
  match s.ownerOf h with
  | none => 0
  | some v => ((s.running v).map fun x => ((x.2.att.reserved.filter (·.1 == h)).map (·.2)).sum).sum

/-- A command's twins can be reserved beside those of the commands that run: the staging pool of POLICY holds both in every hall, so
that it never waits for one during its run (R92; log 91). -/
def State.twinsFit (s : State) (q : Page) (c : Cmd) : Bool :=
  (s.twinsOf q c).all fun r => decide (s.twinsInUse r.1 + r.2 ≤ ((s.plan? q).map Plan.staging).getD 0)

/-- The oldest undispatched command can dispatch, apart from its job's turn. -/
def State.canDispatch (s : State) (q : Page) : Option Cmd :=
  match (s.job q).next? with
  | none => none
  | some (earlier, c) =>
    if orderOk (s.plan? q) earlier c && s.mayStart q c && s.peersAllow q c && s.twinsFit q c then some c else none

/-! ### The holder (R252) -/

/-- A job is ready: a dispatched command has not committed, or the oldest undispatched one meets the conditions of R158. -/
def State.ready (s : State) (q : Page) : Bool :=
  (s.job q).resident && ((s.job q).cmds.any Cmd.dispatched || match (s.job q).next? with
    | some (_, c) => s.mayStart q c
    | none => false)

/-- ENABLED of VST_DB_STATUS: it stays 1 until fetched commands are done (R147). -/
def Job.enabled (j : Job) : Bool := j.enable || !j.cmds.isEmpty

/-- Job numbers after n, wrapping around. -/
def jobsAfter (n : Nat) : List Nat := (List.range 16).map fun i => (n + 1 + i) % 16

/-- Give the partition to job j; its slice starts, less a carried overrun (R253, R255). -/
def State.setHolder (s : State) (v : Fn) (j : Nat) : State :=
  (s.modPart v fun p => { p with holder := some j, last := j, sliceOver := false }).modJob (pageOf v j)
    fun x => { x with sliceCut := 0 }

/-- The holder's overrun is over: its length is recorded, rounded up, and its job's next slice is shortened by it (R255).
PRT_TIME counts whole µs, which leave open whether the length rounds up to one more (log 46). A slice that ended with no
protected command has no overrun. -/
def State.endOverrun (s : State) (v : Fn) (h : Nat) : State :=
  if (s.part v).overran then
    let (n, s) := s.fresh
    let el := min 40 (s.time.toNat - (s.part v).overrunFrom + Config.freeNat n % 2)
    (s.modPart v fun p => { p with sliceOver := false, overran := false }).modJob (pageOf v h)
      fun j => { j with lastOverrun := el, sliceCut := el }
  else s.modPart v fun p => { p with sliceOver := false }

/-- The holder keeps the partition while it is ready and its slice runs; else the next ready job takes it. A slice that has
ended lets its protected commands commit first (Table 08-5). -/
def State.rehold (s : State) (v : Fn) : State :=
  let p := s.part v
  let others := jobsAfter (p.holder.getD p.last)
  match p.holder with
  | some h =>
    if p.sliceOver then
      if (s.job (pageOf v h)).cmds.any Cmd.dispatched then s
      else
        let s := s.endOverrun v h
        match (others.filter (· != h)).find? fun j => s.ready (pageOf v j) with
        | some j => s.setHolder v j
        | none => if s.ready (pageOf v h) then s.setHolder v h else s.modPart v fun p => { p with holder := none }
    else if s.ready (pageOf v h) then s
    else match (others.filter (· != h)).find? fun j => s.ready (pageOf v j) with
      | some j => s.setHolder v j
      | none => s.modPart v fun p => { p with holder := none }
  | none => match others.find? fun j => s.ready (pageOf v j) with
    | some j => s.setHolder v j
    | none => s

/-! ### Completion records (R149, R157) -/

def Job.cqSize (j : Job) : Nat := 2 ^ j.cqLog2
def Job.sqSize (j : Job) : Nat := 2 ^ j.sqLog2
def Job.cqFull (j : Job) : Bool := (j.cqTail + 1) % j.cqSize == j.cqHead

def b2n (b : Bool) : Nat := if b then 1 else 0

/-- NONCANON: a table of the plan is not canonical, a library function table among them (R66, R115). -/
def Plan.noncanon (p : Plan) : Bool := !(p.canon.1 && p.canon.2.1 && p.canon.2.2) || p.funcNc != 0

/-- Table 05-13. -/
def recordBytes (j : Job) (c : Cmd) (status detail : Nat) (commitOk noncanon : Bool) (tst : DWord) (now : DWord) :
    List Byte :=
  let fl := b2n j.phaseBit + 2 * b2n (commitOk && c.noWork) + 4 * b2n c.absentF + 8 * b2n (c.kills != 0)
    + 16 * b2n c.race + 32 * b2n noncanon
  let el := match c.firstT with
    | none => 0
    | some t => min (now.toNat - t) 0xFFFFFFFF
  natLE c.desc.tag.toNat 4 ++ natLE status 2 ++ natLE c.opcode 1 ++ natLE fl 1 ++ natLE (c.slot % 65536) 4
    ++ natLE (j.commits % 2 ^ 32) 4 ++ natLE tst.toNat 8 ++ natLE (min c.kills 0xFFFF) 2 ++ natLE detail 2 ++ natLE el 4

/-- Write into the memory that holds a ring. -/
def State.writeRing (s : State) (q : Page) (hbm : Bool) (a : Nat) (b : List Byte) : State :=
  if hbm then s.modHall (s.phys q (hbmHall a)) fun H => { H with hbm := memWrites H.hbm (hbmOff a) b }
  else { s with host := memWrites s.host a b }

def State.readRing (s : State) (q : Page) (hbm : Bool) (a n : Nat) : List Byte :=
  if hbm then memReads (s.hall (s.phys q (hbmHall a))).hbm (hbmOff a) n else memReads s.host a n

/-- Write the record of a command, remove it from the queue, and issue its message. -/
def State.postRecord (s : State) (q : Page) (c : Cmd) (status detail : Nat) (commitOk : Bool) (tst : DWord) : State :=
  let j := s.job q
  let nc := c.opcode == opRUN && c.firstT.isSome && ((s.plan? q).map Plan.noncanon).getD false
  let s := s.writeRing q j.cqHbm (j.cqBase + 32 * j.cqTail) (recordBytes j c status detail commitOk nc tst s.time)
  let t := (j.cqTail + 1) % j.cqSize
  let s := s.modJob q fun j =>
    { j with cqTail := t, phaseBit := if t = 0 then !j.phaseBit else j.phaseBit,
             sqHead := (c.slot % 65536 + 1) % j.sqSize, cmds := j.cmds.filter (·.slot != c.slot) }
  if !commitOk || c.desc.irq || j.irqAll then s.msix (pageFn q) j.msix else s

/-! ### Kills and failures (R162, R175) -/

/-- RERUNS of the halls' step health records counts the kills of the job's RUN commands in flight (R204). -/
def State.countRerun (s : State) (q : Page) (c : Cmd) : State :=
  if c.opcode = opRUN ∧ c.dispatched then (s.pageHalls q).foldl (fun s h => s.modHall h fun H =>
    { H with stepReruns := tabSet H.stepReruns (pageJob q) (tabGet 0 H.stepReruns (pageJob q) + 1) }) s
  else s

/-- A Mezzanine transfer of the command with a number: ROUND holds the number and the restore's place in the command (log 22). -/
def mezzOf (seq : Nat) (id : XferId) : Bool := decide (7 ≤ id.kind) && decide (id.kind ≤ 9) && id.round / 256 == seq % 2 ^ 24

/-- A frame of the image that a command of a job streams from the hall with a rank word. -/
def ofImage (rank job seq : Nat) (f : Frame) : Bool :=
  match f.hdr with
  | some x => f.src == rank && x.kind == 7 && x.job == job && x.round / 256 == seq % 2 ^ 24
  | none => false

/-- A killed CHECKPOINT stops streaming: what of its image has not left a port never does, and the slot stays in the writing state
(R243). -/
def State.stopImage (s : State) (q : Page) (seq : Nat) : State :=
  (s.pageHalls q).foldl (fun s h => s.modHall h fun H =>
    { H with ports := H.ports.map fun e => (e.1, { e.2 with txq := e.2.txq.filter fun f => !ofImage (rankWord s.chainAddr.toNat h) (pageJob q) seq f }) }) s

/-- Discard an attempt: staging, twins, statuses, semaphores and claims. The ledgers stay (R217). -/
def State.dropAttempt (s : State) (q : Page) (slot : Nat) : State :=
  let v := pageFn q
  let s := s.modPart v fun p =>
    { p.releaseAll (q, slot) with loading := match p.loading with
        | some l => if l.page = q ∧ l.slot = slot then none else some l
        | none => none }
  let s := match s.cmd? q slot with
    | some c => if c.opcode = opCHECKPOINT ∧ c.dispatched then s.stopImage q c.seq else s
    | none => s
  s.modCmd q slot fun c => { c with att := Attempt.empty, phase := .waiting }

/-- The code of a command whose partition was unbound (R316): each of them posts its own completion. -/
abbrev errReset : Nat := 0x0905

/-- Post the error completion of the oldest command where it has failed and the completion ring has room; it halts its queue
and kills what stands behind it (R175). A command whose partition was unbound kills none (R316). -/
def State.postFailed (s : State) (q : Page) : State :=
  match (s.job q).cmds with
  | [] => s
  | c :: rest => match c.phase with
    | .failed code detail =>
      if (s.job q).cqFull then s
      else
        let s := s.postRecord q c code detail false 0x700
        if code = errReset then s.modJob q fun j => { j with halted := true, haltCode := code, fetch := j.sqHead }
        else
          let s := rest.foldl (fun s x => (s.countRerun q x).dropAttempt q x.slot) s
          s.modJob q fun j => { j with cmds := [], halted := true, haltCode := code, fetch := j.sqHead }
    | _ => s

/-- Post error completions as long as the oldest command has failed and the completion ring has room (R175, R316). -/
def State.drainFailed (s : State) (q : Page) : State := (s.job q).cmds.foldl (fun s _ => s.postFailed q) s

/-- Sent transfers leave the ledger before their time; those that their receiver has not acknowledged are remembered (R165). -/
def HJob.dropTx (j : HJob) (gone : TxEnt → Bool) : HJob :=
  { j with tx := j.tx.filter fun t => !gone t,
           unacked := j.unacked ++ (j.tx.filter fun t => gone t && !t.acked).map TxEnt.id }

/-- The Mezzanine transfers of a command that fails leave the ledger; one recorded as ABSENT stays, to be answered LATE (R170). -/
def HJob.dropMezz (j : HJob) (seq : Nat) : HJob :=
  { j.dropTx fun t => mezzOf seq t.id with rx := j.rx.filter fun e => !mezzOf seq e.id || e.st == .absent || e.st == .late }

/-- A command fails: its attempt is discarded and its error completion waits for its turn. -/
def State.failCmd (s : State) (q : Page) (slot code detail : Nat) : State :=
  let s := s.dropAttempt q slot
  let s := match s.cmd? q slot with
    | some c => (s.pageHalls q).foldl (fun (t : State) h => t.modHJob h (pageJob q) (·.dropMezz c.seq)) s
    | none => s
  let s := s.modCmd q slot fun c => { c with phase := .failed code detail }
  (s.drainFailed q).rehold (pageFn q)

/-- A kill of a dispatched command (R162). Sixteen consecutive fault kills fail it. -/
def State.killCmd (s : State) (q : Page) (slot : Nat) (fault : Bool) : State :=
  match s.cmd? q slot with
  | none => s
  | some c =>
    if c.dispatched then
      let s := (s.countRerun q c).dropAttempt q slot
      let n := if fault then c.faultKills + 1 else c.faultKills
      let s := s.modCmd q slot fun c => { c with kills := c.kills + 1, faultKills := n }
      if fault ∧ 16 ≤ n then s.failCmd q slot 0x0901 0xFFFF else s.rehold (pageFn q)
    else s

/-! ### Fetching (R148, R173, R174) -/

def Cmd.ofSubmitted (slot seq : Nat) (x : Submitted) : Cmd :=
  { slot := slot, seq := seq, opcode := x.opcode, desc := x.desc, tds := x.tds, tens := x.tens, known := x.known,
    phase := match x.err with
      | none => .waiting
      | some e => .failed e.1 e.2,
    kills := 0, faultKills := 0, race := false, absentF := false, firstT := none, mism := 0, evid := 0, evidP := 0, tauTest := false,
    att := Attempt.empty }

/-- The number of a command from ring slot n: after a tail that overruns the head an entry in flight may have the slot, and the
new one is a command of its own (R148). -/
def Job.slotFor (j : Job) (n : Nat) : Nat :=
  ((List.range (j.cmds.length + 1)).map fun k => n + 65536 * k).find? (fun k => (j.cmd? k).isNone) |>.getD n

/-- Submission of the ring entry at an address. A poisoned entry holds no data: a free descriptor that fails (R264). -/
def State.submitAt (s : State) (q : Page) (hbm : Bool) (a : Nat) : Submitted :=
  match s.poisonAt q hbm a 64 with
  | none => s.submit q (s.readRing q hbm a 64)
  | some x =>
    let b := (List.range 64).map fun i => Config.freeByte (s.free + i)
    ⟨u8 b 0, Desc.parse b, [], [], false, some poisonedErr, some x⟩

/-- The hall whose stack a submission's read met poison in logs it (R264, R267). -/
def State.logPoison (s : State) (q : Page) (x : Submitted) : State :=
  match x.poison with
  | some p => s.log p.1 ⟨0x11, pageJob q, 0, if x.opcode = opRUN then x.desc.pass else 0xFFFF, p.2⟩
  | none => s

def State.fetchOne (s : State) (q : Page) : State :=
  let j := s.job q
  let x := s.submitAt q j.sqHbm (j.sqBase + 64 * j.fetch)
  let s := if (s.poisonAt q j.sqHbm (j.sqBase + 64 * j.fetch) 64).isSome then { s with free := s.free + 64 } else s
  (s.logPoison q x).modJob q fun j =>
    { j with cmds := j.cmds ++ [Cmd.ofSubmitted (j.slotFor j.fetch) j.fetched x], fetch := (j.fetch + 1) % j.sqSize,
             fetched := j.fetched + 1 }

/-- The Vestibule fetches up to the tail and stops at a rejected descriptor; a retired leg fetches nothing (R276). -/
def State.fetchLoop (q : Page) : Nat → State → State
  | 0, s => s
  | n + 1, s =>
    let j := s.job q
    if (s.part (pageFn q)).scState != 3 && j.enable && !j.halted && j.fetch != j.sqTail && !j.cmds.any Cmd.failed then State.fetchLoop q n (s.fetchOne q)
    else s

def State.fetchAll (s : State) (q : Page) : State :=
  ((s.fetchLoop q (s.job q).sqSize).drainFailed q).rehold (pageFn q)

/-- A command's row submits a descriptor: the host writes it at the tail and rings the doorbell with the next tail. A
full ring leaves the state unchanged (R148). -/
def State.hostSubmit (s : State) (q : Page) (opcode : Nat) (d : Desc) : State :=
  let j := s.job q
  let t := (j.sqTail + 1) % j.sqSize
  if t = j.sqHead then s
  else
    let s := s.writeRing q j.sqHbm (j.sqBase + 64 * j.sqTail) (d.bytes opcode)
    (s.modJob q fun j => { j with sqTail := t }).fetchAll q

end Sys2Proof.Machine
end

