-- ==== Sys2Proof/Machine/Start.lean ====
section
/-! DEFINITION. Dispatch (R158, R140, R156, R248 to R250), the doorbell page's registers (R146 to R149, R175), the early
release of a semaphore (R167) and the semaphore timeout (R169). -/

namespace Sys2Proof.Machine

abbrev Out := Host.Outcome State Fault Refusal

/-- Nothing moves in a frozen device (R282). -/
def whenRunning (s : State) (f : State → State) : Out := .next (if s.frozen then s else f s)

/-! ### Dispatch -/

/-- Checks of LOAD, STORE and COPY against the plan active at dispatch (R156, R180). -/
def boundErr (op : Nat) (p : Option Plan) (tds : List TDesc) : Option Err :=
  firstSome (fun (x : TDesc × Nat) =>
    if x.1.tensor = 0xFFFF then none
    else match p with
      | none => some ((0x030D, tdDetail op x.2) : Err)
      | some pl =>
        if !x.1.planOk pl then some (0x030D, tdDetail op x.2)
        else if !x.1.packedPitchOk pl then some (0x0202, tdDetail op x.2) else none) tds.zipIdx

/-- A CHECKPOINT's route exists in every hall of the partition, and its tensors are bound (Table 05-10, R243). DESIGN CHOICE: a breach
fails the command at dispatch, with ERR_ARG_RANGE for the route and ERR_DESC_PLAN for a tensor that no hall binds (log 127). -/
def State.ckptErr (s : State) (q : Page) (c : Cmd) : Option Err :=
  match s.plan? q with
  | none => if c.noWork then none else some (0x0104, 32)
  | some p =>
    if (List.range p.phalls).any fun lh => decide ((p.routes.getD lh []).length ≤ c.desc.route) then some (0x0104, 32)
    else if c.tens.any fun t => (s.pageHalls q).all fun h => (s.binding? h t (pageJob q)).isNone then some (0x030D, 0xFFFF)
    else none

/-- The checks made at dispatch, in the order of R140, R168, R351 and R248 to R250; of the shares, only what depends on a
pass that was not known at submission. A plan load has none of them, and a
partition that has lost a hall runs nothing (R268). -/
def State.startErr (s : State) (q : Page) (c : Cmd) : Option Err :=
  let p := s.plan? q
  let d := c.desc
  if c.opcode = opLOAD ∧ d.part = 3 then none
  else if !(s.pageHalls q).all s.hallOk then some (0x0902, 0xFFFF)
  else if c.opcode = opRUN ∨ c.opcode = opGANG then
    match p with
    | none => some (0x041B, if c.opcode = opRUN then 32 else 56)
    | some pl =>
      if pl.planId.toNat ≠ d.planId c.opcode then some (0x041B, if c.opcode = opRUN then 32 else 56)
      else firstSome id
        [descPlanErr c.opcode d pl,
         if c.opcode = opRUN then descSemsErr d pl else none,
         checkTds c.opcode d p c.tds,
         if c.opcode = opGANG then gangErr d pl c.tds else none,
         if c.opcode = opRUN ∧ unbound pl d.pass c.tds then some (0x030D, 0xFFFF) else none,
         if c.opcode = opRUN ∧ !c.known then s.targetShareErr q c.opcode d p c.tds else none,
         if c.opcode = opRUN ∧ !c.known ∧ s.rowBayErr q pl d.pass then some (0x0601, 0xFFFF) else none,
         if (s.holdClaims q c).any (fun g => (s.hall g.1).holdValid.contains g.2) then some (0x030F, 0xFFFF) else none]
  else if c.opcode = opCHECKPOINT then s.ckptErr q c
  else boundErr c.opcode p c.tds

/-- Bytes of a STORE's target (R152, R163). -/
def storeLen (c : Cmd) : Nat :=
  match c.tds with
  | [t] => partBytes c.desc t
  | _ => 0

/-- The bytes of a STORE's target are unspecified from its dispatch on (R163): free values. -/
def State.freeTarget (s : State) (c : Cmd) : State :=
  if c.opcode = opSTORE then
    let n := storeLen c
    { s with host := memWrites s.host (c.desc.b 48 8) ((List.range n).map fun i => Config.freeByte (s.free + i)),
             free := s.free + n }
  else s

/-- The gallery that does the work of gallery g: itself, or the spare that serves in its place. -/
def Hall.galOf (H : Hall) (g : Nat) : Nat :=
  match H.gals.find? fun e => e.2.serves == some g && !e.2.fenced with
  | some e => e.1
  | none => g

/-- Galleries that an operation runs in. -/
def Op.runsIn : Op → Nat
  | .bayload o => o.gals
  | .matpass o => o.gals
  | .epass o => o.gals
  | _ => 0

/-- The galleries that a pass needs are to be powered, one at a time (R292, R293). -/
def Hall.powerGals (H : Hall) (gs : List Nat) : Hall :=
  let want := (gs.map H.galOf).filter fun g => !(H.gal g).powered && !(H.gal g).fenced && !H.raising.contains g
  { H with raising := H.raising ++ want.eraseDups }

def State.powerPass (s : State) (q : Page) (c : Cmd) : State :=
  match s.plan? q with
  | none => s
  | some p =>
    if c.opcode = opRUN ∧ !c.noWork then
      (List.range p.phalls).foldl (fun s lh => s.modHall (s.phys q lh) fun H =>
        H.powerGals (maskList ((p.passOps lh c.desc.pass).foldl (fun m o => m ||| o.runsIn) 0) 64)) s
    else s

/-- The dispatch itself: semaphores and claims are taken at once, faces are chosen, and every descriptor binds its tensor, those
of an empty command too (R158, R159, R78, R172). -/
def State.startCmd (s : State) (q : Page) (c : Cmd) : State :=
  let v := pageFn q
  let s := c.tds.foldl (fun s d =>
    if d.host then s else s.modHall (s.phys q d.lhall) fun H => H.bindGen d (s.scopeOf q (s.phys q d.lhall) d)) s
  let s := s.modPart v fun p => p.acquire c.desc (q, c.slot)
  let att := { Attempt.empty with
    uses := s.usesOf q c, seen := (s.pageHalls q).map fun h => (h, (s.hall h).seen), holdClaims := s.holdClaims q c, reserved := s.twinsOf q c,
    acquired := (c.desc.semsOf 1).map (·.1), collective := c.opcode == opGANG && !c.noWork }
  let s := s.modCmd q c.slot fun x =>
    { x with phase := .running, att := att, firstT := some (x.firstT.getD s.time.toNat) }
  let s := if c.opcode = opRUN then (s.pageHalls q).foldl (fun s h => s.modHall h fun H =>
    { H with stepFrom := tabSet H.stepFrom (pageJob q) (tabGet s.time.toNat H.stepFrom (pageJob q)) }) s else s
  (s.powerPass q c).freeTarget c

/-- COMMAND_DISPATCH: the holder's oldest undispatched command starts, or fails a check made at dispatch. -/
def State.dispatch (s : State) (q : Page) : State :=
  let s := s.rehold (pageFn q)
  let p := s.part (pageFn q)
  if p.holder = some (pageJob q) ∧ p.sliceOver = false ∧ p.scState ≠ 3 ∧ (s.job q).halted = false then
    match s.canDispatch q with
    | none => s
    | some c => match s.startErr q c with
      | some e => s.failCmd q c.slot e.1 e.2
      | none => s.startCmd q c
  else s

def execCommandDispatch (q : Page) (s : State) : Out := whenRunning s (·.dispatch q)

/-! ### Early release (R167) -/

/-- Halls whose share holds operation EARLY, with the record. -/
def earlyShares (p : Plan) (pass : Nat) : List (Nat × PassRec) :=
  (List.range p.phalls).filterMap fun lh => match p.pass? lh pass with
    | some r => if r.early < r.count then some (lh, r) else none
    | none => none

/-- SEM_REL of slot i is 0b01, and the named operation has completed in every hall that holds it. -/
def State.earlyDone (s : State) (q : Page) (p : Plan) (c : Cmd) (i : Nat) : Bool :=
  let sh := earlyShares p c.desc.pass
  sh.any (fun x => fld x.2.semRel (2 * i) 2 == 1)
    && sh.all fun x => (tabGet [] c.att.done (s.phys q x.1)).contains x.2.early

def State.earlyRelease (s : State) (q : Page) (slot : Nat) : State :=
  match s.cmd? q slot, s.plan? q with
  | some c, some p =>
    if c.dispatched && c.opcode == opRUN then
      let go := ((List.range 4).filter fun i => (c.desc.sem i).2.1 == 1 && s.earlyDone q p c i).map fun i => (c.desc.sem i).1
      let s := s.modPart (pageFn q) fun P => go.foldl (fun P n => P.releaseSem (q, slot) n) P
      s.modAtt q slot fun a => { a with acquired := a.acquired.filter fun n => !go.contains n }
    else s
  | _, _ => s

def execSemaphoreEarlyRelease (q : Page) (slot : Nat) (s : State) : Out := whenRunning s (·.earlyRelease q slot)

/-! ### Doorbell page -/

/-- BAR0 offset of a register of a doorbell page (R145). -/
def pageOff (q : Page) (off : Nat) : Nat := 0x0900000 + q * 0x1000 + off

/-- A write whose effect starts work is recorded in a freeze (R313). -/
def State.record (s : State) (f : Fn) (off : Nat) (v : Word) : State := { s with held := s.held ++ [(f, off, v)] }

/-- A write of the register at the offset is recorded already: a later one of it is recorded as well, so that the two take effect
in the order in which they came. -/
def State.heldAt (s : State) (off : Nat) : Bool := s.held.any fun x => x.2.1 == off

/-- VST_DB_SQ_TAIL (R148). -/
def State.writeTail (s : State) (f : Fn) (q : Page) (v : Word) : State :=
  if f ≠ pageFn q ∨ (s.job q).sqSize ≤ v.toNat then s.accessErr f
  else if s.freezing then s.record f (pageOff q 0) v
  else (s.modJob q fun j => { j with sqTail := v.toNat }).fetchAll q

/-- VST_DB_CQ_HEAD (R149). -/
def State.writeCqHead (s : State) (f : Fn) (q : Page) (v : Word) : State :=
  if f ≠ pageFn q ∨ (s.job q).cqSize ≤ v.toNat then s.accessErr f
  else
    let s := s.modJob q fun j => { j with cqHead := v.toNat }
    if s.frozen then s else s.fetchAll q

/-- The ring configuration is one that ENABLE refuses (R147). -/
def State.ringBad (s : State) (q : Page) : Bool :=
  let j := s.job q
  let n := (s.part (pageFn q)).count
  let out := fun (hbm : Bool) (a : Nat) => hbm && (hbmBad a || decide (n ≤ hbmHall a))
  let same := j.sqHbm == j.cqHbm && (!j.sqHbm || hbmHall j.sqBase == hbmHall j.cqBase)
  j.sqLog2 < 6 || 16 < j.sqLog2 || j.cqLog2 < 6 || 16 < j.cqLog2 || j.sqBase % 4096 != 0 || j.cqBase % 4096 != 0
    || out j.sqHbm j.sqBase || out j.cqHbm j.cqBase || (same && j.sqSpan.overlaps j.cqSpan)

/-- Leaving the halted state by DRAIN or by RESUME (Table 05-3). -/
def Job.unhalt (j : Job) (drain : Bool) : Job :=
  if !j.halted then j
  else if drain then { j with sqHead := j.sqTail, fetch := j.sqTail, halted := false, haltCode := 0 }
  else { j with fetch := j.sqHead, halted := false, haltCode := 0 }

/-- VST_DB_CTRL (Table 05-3, R147). The physical function may write it (R146). In a freeze a write is recorded that starts work, or
that comes after a recorded one or a recorded doorbell of the page (R313). -/
def State.writeCtrl (s : State) (f : Fn) (q : Page) (v : Word) : State :=
  if f ≠ pageFn q ∧ f ≠ 0 then s.accessErr f
  else if s.freezing ∧ (v.toNat % 8 ≠ 0 ∨ s.heldAt (pageOff q 0x10) ∨ s.heldAt (pageOff q 0)) then s.record f (pageOff q 0x10) v
  else
    let en := v.getLsbD 0
    let bad := en && !(s.job q).enable && s.ringBad q
    let s := s.modJob q fun j =>
      let j := { j with irqAll := v.getLsbD 3, enable := en && !bad, cfgErr := j.cfgErr || bad }
      if v.getLsbD 2 then j.unhalt true else if v.getLsbD 1 then j.unhalt false else j
    if s.frozen then s else s.fetchAll q

def ctrlWord (enable resume drain irqAll : Bool) : Word :=
  BitVec.ofNat 32 (b2n enable + 2 * b2n resume + 4 * b2n drain + 8 * b2n irqAll)

def execDoorbell (fn : Fn) (q : Page) (v : Word) (s : State) : Out := .next (s.writeTail fn q v)
def execCqHeadWrite (fn : Fn) (q : Page) (v : Word) (s : State) : Out := .next (s.writeCqHead fn q v)
def execQueueEnable (fn : Fn) (q : Page) (irqAll : Bool) (s : State) : Out :=
  .next (s.writeCtrl fn q (ctrlWord true false false irqAll))
def execQueueDisable (fn : Fn) (q : Page) (irqAll : Bool) (s : State) : Out :=
  .next (s.writeCtrl fn q (ctrlWord false false false irqAll))
def execResume (fn : Fn) (q : Page) (enable irqAll : Bool) (s : State) : Out :=
  .next (s.writeCtrl fn q (ctrlWord enable true false irqAll))
def execDrain (fn : Fn) (q : Page) (enable irqAll : Bool) (s : State) : Out :=
  .next (s.writeCtrl fn q (ctrlWord enable false true irqAll))

/-! ### The semaphore timeout (R169) -/

/-- The outcome that the arbiter grants to a command that waits. `code` is the failure of a timer win. -/
def State.arbiter (s : State) (q : Page) (slot : Nat) (arb : Arb) (code : Nat) : State :=
  let s := s.modCmd q slot fun c => { c with race := c.race || arb.close }
  if arb.timer then
    let s := if arb.close then s.modJob q fun j => { j with raceCnt := satAdd 0xFFFFFFFF j.raceCnt 1 } else s
    s.failCmd q slot code 0xFFFF
  else s

/-- The timer of the job's oldest undispatched command expires while a semaphore condition keeps it waiting; an arrival can
win only when the condition holds. -/
def State.semTimeout (s : State) (q : Page) (arb : Arb) : State :=
  let j := s.job q
  match j.next? with
  | some (_, c) =>
    let met := (s.part (pageFn q)).semsReady c.desc
    let waits := c.desc.semsOf 1 ++ c.desc.semsOf 2
    if waits.isEmpty ∨ j.halted ∨ !j.enable ∨ (arb.timer = false ∧ met = false) ∨ (met ∧ arb.close = false) then s
    else s.arbiter q c.slot arb 0x0502
  | none => s

def execSemaphoreTimeout (q : Page) (arb : Arb) (s : State) : Out := whenRunning s (·.semTimeout q arb)

end Sys2Proof.Machine
end

