-- ==== Sys2Proof/Machine/Links.lean ====
section
/-! DEFINITION. Ports, frames, retry and credits (R207 to R215, R322), and the exception log (R267). -/

namespace Sys2Proof.Machine

/-- Halls whose bit of PRT_HALLMAP is set. -/
def State.present (s : State) : List Nat := (List.range 8).filter s.hallOk

/-! ### Port numbers (Table 07-1) -/

/-- Hall and local port of a device port number. -/
def portSite (p : Nat) : Nat × Nat := if p < 24 then (p / 3, p % 3) else ((p - 32) / 2, 3 + (p - 32) % 2)
def portNum (h i : Nat) : Nat := if i < 3 then 3 * h + i else 32 + 2 * h + (i - 3)

/-- The rank word of a hall of this device (R124). -/
def State.rank (s : State) (h : Nat) : Nat := rankWord s.chainAddr.toNat h

/-! ### Frames as bytes (Tables 07-4, 07-5) -/

def packPorts (l : List Nat) : List Byte := natLE ((l.zipIdx.map fun (p, i) => p % 64 * 2 ^ (6 * i)).sum) 6

def xhdrBytes (x : XHdr) : List Byte :=
  natLE x.kind 1 ++ natLE (x.job + 16 * b2n x.first + 32 * b2n x.last) 1 ++ natLE x.epoch 2 ++ natLE x.key 2 ++ natLE 0 2
    ++ natLE x.round 4 ++ natLE x.shard 4 ++ natLE x.node 4 ++ natLE x.offset 4 ++ natLE x.attempt 1 ++ natLE x.code 1
    ++ natLE x.reason 1 ++ natLE 0 5

/-- TYPE codes. -/
abbrev tDATA : Nat := 1
abbrev tLACK : Nat := 2
abbrev tLNAK : Nat := 3
abbrev tCREDIT : Nat := 4
abbrev tSIDEBAND : Nat := 5

/-- Every byte before the CRC. A SIDEBAND frame has SB_ID in bytes 18 to 21. -/
def frameBytes (f : Frame) : List Byte :=
  let head := natLE f.typ 1 ++ natLE f.vc 1 ++ natLE f.payload.length 2 ++ natLE f.seq 2 ++ natLE f.ackseq 2
    ++ natLE (f.crVc + 16 * f.crUnits) 2 ++ natLE f.dest 3 ++ natLE f.src 3
  let tail := if f.typ = tSIDEBAND then natLE f.hopIdx 2 ++ natLE f.sbId 4 ++ natLE 0 10
    else natLE f.hopIdx 1 ++ natLE f.hops 1 ++ packPorts f.ports ++ packPorts f.ret ++ natLE 0 2
  head ++ tail ++ (match f.hdr with
    | some x => xhdrBytes x
    | none => []) ++ f.payload

def frameOk (f : Frame) : Bool := f.fcs == crc32 (frameBytes f)
def sealFrame (f : Frame) : Frame := { f with fcs := crc32 (frameBytes f) }

def Frame0 : Frame :=
  { typ := 0, vc := 0, seq := 0, ackseq := 0, crVc := 0, crUnits := 0, dest := 0, src := 0, hopIdx := 0, hops := 0,
    ports := [], ret := [], sbId := 0, hdr := none, payload := [], fcs := 0 }

/-- Credit units of a DATA frame (R214). -/
def frameUnits (f : Frame) : Nat := ceilDiv (68 + f.payload.length) 256
/-- Bytes of a DATA frame on the wire. -/
def frameSize (f : Frame) : Nat := 68 + f.payload.length

/-- The frames of a transfer: payloads of at most 4,096 bytes in ascending OFFSET order (R211, R213). -/
def mkFrames (src dest : Nat) (ports : List Nat) (vc : Nat) (x : XHdr) (data : List Byte) : List Frame :=
  let n := max 1 (ceilDiv data.length 4096)
  (List.range n).map fun i =>
    { Frame0 with
      typ := tDATA, vc := vc, dest := dest, src := src, hops := ports.length, ports := ports,
      hdr := some { x with first := i == 0, last := i + 1 == n, offset := 4096 * i }, payload := bytesAt data (4096 * i) 4096 }

/-! ### Sending -/

def Port.usable (p : Port) : Bool := p.up && !p.training

/-- Control frames are not retried and take no credit: they leave at once. -/
def Port.emit (p : Port) (f : Frame) : Port :=
  { p with outQ := p.outQ ++ [sealFrame { f with ackseq := (p.rxNext + 0xFFFF) % 65536 }] }

/-- Queue frames on the port that the route names first. -/
def State.enqueue (s : State) (fs : List Frame) : State :=
  fs.foldl (fun s f =>
    let (h, i) := portSite (f.ports.getD f.hopIdx 0)
    s.modPort h i fun p => { p with txq := p.txq ++ [f] }) s

def State.portOf (s : State) (num : Nat) : Port := (s.hall (portSite num).1).port (portSite num).2

/-- A RECEIPT for a frame, along the reversed path (R218). The ingress port of the last hop is the frame's own. Its own KEY,
SHARD and NODE are zero (Table 07-5); its payload is the header of the transfer that it answers (log 99). -/
def receiptFrame (s : State) (h : Nat) (f : Frame) (x : XHdr) (code reason epoch : Nat) : Frame :=
  { Frame0 with
    typ := tDATA, vc := f.vc, dest := f.src, src := s.rank h, hops := f.ret.length, ports := f.ret.reverse,
    hdr := some { x with kind := 6, first := true, last := true, offset := 0, code := code, reason := reason,
                         epoch := epoch, key := 0, shard := 0, node := 0 },
    payload := xhdrBytes x }

/-- Answer a transfer. -/
def State.reply (s : State) (h : Nat) (f : Frame) (x : XHdr) (code reason : Nat) : State :=
  s.enqueue [receiptFrame s h f x code reason x.epoch]

/-- Units that a consumed frame gives back on its channel: what a lower CREDITS keeps back comes first (R214). A port that is
down, or that trains to come up, gives nothing back, for it grants anew when it is up. -/
def Port.giveBack (p : Port) (f : Frame) : Port :=
  let kept := min (tabGet 0 p.withheld f.vc) (frameUnits f)
  let p := { p with withheld := tabSet p.withheld f.vc (tabGet 0 p.withheld f.vc - kept) }
  if frameUnits f = kept ∨ !p.up then p
  else p.emit { Frame0 with typ := tCREDIT, crVc := f.vc, crUnits := frameUnits f - kept }

/-- Credits of a consumed frame go back to the sender. -/
def State.credit (s : State) (h i : Nat) (f : Frame) : State := s.modPort h i (·.giveBack f)

/-! ### FRAME_TRANSMIT -/

/-- The first frame that its channel's credits admit; the order within a channel stands. -/
def pickFrame (credits : Tab Nat) : List Nat → List Frame → Option Frame
  | _, [] => none
  | seen, f :: r =>
    if !seen.contains f.vc && decide (frameUnits f ≤ tabGet 0 credits f.vc) then some f
    else pickFrame credits (f.vc :: seen) r

def dropFirst (f : Frame) : List Frame → List Frame
  | [] => []
  | x :: r => if x = f then r else x :: dropFirst f r

/-- Send one DATA frame: sequence number, credits, and a retry buffer of 1 MiB, which is full for a frame that finds no room in it
(R212, R214). -/
def Port.sendOne (p : Port) : Port :=
  match pickFrame p.credits [] p.txq with
  | none => p
  | some f =>
    if 2 ^ 20 < (p.retry.map frameSize).sum + frameSize f then p
    else
      let g := { f with seq := p.txSeq, ackseq := (p.rxNext + 0xFFFF) % 65536 }
      { p with txq := dropFirst f p.txq, txSeq := (p.txSeq + 1) % 65536, retry := p.retry ++ [g],
               outQ := p.outQ ++ [sealFrame g],
               credits := tabSet p.credits f.vc (tabGet 0 p.credits f.vc - frameUnits f) }

/-! ### Receiving -/

/-- SEQ a is at or before SEQ b, modulo 2^16. -/
def seqLe (a b : Nat) : Bool := decide ((b + 65536 - a) % 65536 < 32768)

/-- ACKSEQ and CREDIT, which every link header carries. -/
def Port.takeHeader (p : Port) (f : Frame) : Port :=
  { p with
    retry := p.retry.filter fun g => !seqLe g.seq f.ackseq,
    acked := (f.ackseq + 1) % 65536,
    credits := if f.crUnits = 0 then p.credits else tabSet p.credits f.crVc (tabGet 0 p.credits f.crVc + f.crUnits) }

/-- The frame has made its hop: HOPIDX counts it and RET records the ingress port. -/
def hopDone (num : Nat) (f : Frame) : Frame := { f with hopIdx := f.hopIdx + 1, ret := f.ret ++ [num] }

def lnakOf (p : Port) : Port := p.emit { Frame0 with typ := tLNAK }

/-- A DATA frame: discarded with an LNAK on a bad CRC or an unexpected SEQ, else taken into the receive buffer (R212). The failures
in a row are those of one frame, the next one expected, as its SEQ arrives (Table 07-2, step 1; log 109). -/
def Port.receive (p : Port) (num : Nat) (f : Frame) : Port :=
  if !frameOk f then lnakOf { p with crcRun := if f.seq = p.rxNext then p.crcRun + 1 else p.crcRun }
  else if f.seq ≠ p.rxNext then lnakOf p
  else
    let p := p.takeHeader f
    { p with rxNext := (p.rxNext + 1) % 65536, crcRun := 0, rxbuf := p.rxbuf ++ [hopDone num f] }

/-- Resend the unacknowledged frames (R212). -/
def Port.resend (p : Port) : Port :=
  { p with outQ := p.outQ ++ p.retry.map sealFrame, retries := satAdd 0xFFFF p.retries p.retry.length }

/-- The frame has reached its hall. -/
def arrived (f : Frame) : Bool := decide (f.hops ≤ f.hopIdx)

/-- The oldest frame of its channel in a receive buffer that meets a condition. -/
def pickRx (ok : Frame → Bool) : List Nat → List Frame → Option Frame
  | _, [] => none
  | seen, f :: r => if !seen.contains f.vc && ok f then some f else pickRx ok (f.vc :: seen) r

/-- Take the oldest arrived frame of a KIND from a port's receive buffer; its credits return (R215). -/
def State.takeRx (s : State) (h i : Nat) (ok : XHdr → Frame → Bool) : Option (Frame × XHdr × State) :=
  match pickRx (fun f => arrived f && (match f.hdr with
      | some x => ok x f
      | none => false)) [] ((s.hall h).port i).rxbuf with
  | none => none
  | some f => match f.hdr with
    | none => none
    | some x => some (f, x, (s.modPort h i fun p => { p with rxbuf := dropFirst f p.rxbuf }).credit h i f)

/-! ### Rows of the frame layer -/

/-- A frame layer step on a port that carries frames. -/
def State.onPort (s : State) (h i : Nat) (f : Port → Port) : State :=
  if ((s.hall h).port i).usable then s.modPort h i f else s

/-- A frame that no handler takes: it has no transfer header, or a reserved KIND, or it begins a DIGEST of no SUB of Table
09-5. -/
def isStray (f : Frame) : Bool :=
  match f.hdr with
  | none => true
  | some x => x.kind == 0 || decide (10 < x.kind)
      || (x.kind == 10 && x.first && (u8 f.payload 64 == 0 || decide (7 < u8 f.payload 64)))

/-- Frames that have reached their hall and that no handler takes are discarded, and their credits return (R215). -/
def Port.sweep (p : Port) : Port :=
  let gone := p.rxbuf.filter fun f => arrived f && isStray f
  gone.foldl Port.giveBack { p with rxbuf := p.rxbuf.filter fun f => !(arrived f && isStray f) }

/-- Eight CRC failures of one frame in a row on an optical port begin a degrade (Table 07-2, step 1): the port stops sending until it has
retrained. Which lane fails shows only in the training: UNIT of the log entry is 0 (log 109). -/
def State.crcDegrade (s : State) (h i : Nat) : State :=
  if i < 3 ∧ ((s.hall h).port i).usable ∧ 8 ≤ ((s.hall h).port i).crcRun then
    (s.modPort h i fun p => { p with training := true, offer := p.lanes, crcRun := 0 }).log h (LogEnt.of 8 0)
  else s

/-- A frame is received on a port that carries frames. -/
def State.dataFrame (s : State) (h i : Nat) (f : Frame) : State :=
  (s.onPort h i fun p => (p.receive (portNum h i) f).sweep).crcDegrade h i

def execDataFrame (hall port : Nat) (f : Frame) (s : State) : Out :=
  .next (if f.typ = tDATA then s.dataFrame hall port f else s)

def execLack (hall port : Nat) (f : Frame) (s : State) : Out :=
  .next (if f.typ = tLACK && frameOk f then s.onPort hall port (·.takeHeader f) else s)

def execCredit (hall port : Nat) (f : Frame) (s : State) : Out :=
  .next (if f.typ = tCREDIT && frameOk f then s.onPort hall port (·.takeHeader f) else s)

/-- ACKSEQ is reported at least once every 256 beats, here in an LACK frame. -/
def execAckseqReport (hall port : Nat) (s : State) : Out :=
  .next (s.onPort hall port (·.emit { Frame0 with typ := tLACK }))

/-! ### Lanes, training and the port's control register -/

def lanesOf (m : Byte) : Nat := ((List.range 8).filter m.getLsbD).length

/-- Steps 1 and 2 of Table 07-2: the lane is lost and the port stops sending. -/
def State.laneDegrade (s : State) (h i lane : Nat) : State :=
  if i < 3 ∧ ((s.hall h).port i).usable ∧ ((s.hall h).port i).lanes.getLsbD lane then
    (s.modPort h i fun p => { p with lanes := p.lanes &&& ~~~(1#8 <<< lane), offer := p.lanes &&& ~~~(1#8 <<< lane),
                                     training := true }).log h (LogEnt.of 8 lane)
  else s

def execLaneDegrade (hall port lane : Nat) (s : State) : Out := .next (s.laneDegrade hall port lane)

/-- The port goes down (R207, R209): it holds no credits, and what it had not seen acknowledged waits, before what it had not sent,
to be answered DOWN or to go out again. -/
def Port.fallen (p : Port) : Port :=
  { p with up := false, training := false, downEvt := true, degraded := false, lanes := 0, offer := 0, credits := [],
           withheld := [], crcRun := 0 }

/-- Frames that wait at a port, oldest first. -/
def Port.waiting (p : Port) : List Frame := p.retry ++ p.txq

/-- The oldest of them leaves the port without being sent. -/
def Port.dropWaiting (p : Port) : Port := if p.retry.isEmpty then { p with txq := p.txq.drop 1 } else { p with retry := p.retry.drop 1 }

/-- What the peer has not acknowledged goes out again. A port that was up keeps the numbers; one that was down sends it as new frames
behind the peer's last ACKSEQ, with the credits that the peer grants (R212, R322). -/
def Port.resume (p : Port) (m : Byte) (peerAck : Nat) : Port :=
  let left := p.retry.filter fun g => !seqLe g.seq peerAck
  let q := { p with lanes := m, offer := 0, up := true, training := false, degraded := lanesOf m == 7 }
  if p.up then { q with retry := left }.resend
  else { q with retry := [], txq := left ++ p.txq, txSeq := (peerAck + 1) % 65536, downSaid := [] }

def State.portDown (s : State) (h i : Nat) : State := (s.modPort h i Port.fallen).log h (LogEnt.of 9 (portNum h i))

/-- Credits that a port of a hall without an active plan grants: 64 units on channel 15 (R214). -/
def State.grants (s : State) (h i : Nat) : List (Nat × Nat) :=
  match s.ownerOf h with
  | none => [(15, 64)]
  | some v => match (s.part v).plan with
    | none => [(15, 64)]
    | some p => ((p.vchans.getD (h - (s.part v).base) []).drop (16 * i)).take 16 |>.zipIdx.filterMap fun (e, c) =>
        if e.credits = 0 then none else some (c, e.credits)

/-- CREDIT of units on a channel, when there are any. -/
def Port.grantUnits (p : Port) (vc units : Nat) : Port :=
  if units = 0 then p else p.emit { Frame0 with typ := tCREDIT, crVc := vc, crUnits := units }

/-- Units that the frames of a channel occupy in a receive buffer. -/
def Port.occupied (p : Port) (vc : Nat) : Nat := ((p.rxbuf.filter (·.vc == vc)).map frameUnits).sum

/-- A port that comes up grants its channels' credits to the other end, less what its receive buffer still holds (log 12). -/
def State.grant (s : State) (h i : Nat) : State :=
  (s.grants h i).foldl (fun s g => s.modPort h i fun p => p.grantUnits g.1 (g.2 - p.occupied g.1)) s

/-- A port under a new plan: a channel that gains units grants them, one that loses units keeps back as many of those that
return (R214). -/
def Port.regrant (p : Port) (vc was now : Nat) : Port :=
  let w := tabGet 0 p.withheld vc
  if was ≤ now then
    let k := min w (now - was)
    { p with withheld := tabSet p.withheld vc (w - k) }.grantUnits vc (now - was - k)
  else { p with withheld := tabSet p.withheld vc (w + (was - now)) }

/-- The port of a hall whose plan changed from state s to state t. -/
def State.regrant (s t : State) (h i : Nat) : State :=
  if ((t.hall h).port i).up then
    let units := fun (l : List (Nat × Nat)) (c : Nat) => ((l.find? (·.1 == c)).map (·.2)).getD 0
    (List.range 16).foldl (fun u c => u.modPort h i (·.regrant c (units (s.grants h i) c) (units (t.grants h i) c))) t
  else t

/-- Steps 3 to 5 of Table 07-2: `good` are the lanes that trained, among those offered. -/
def State.retrained (s : State) (h i : Nat) (good : Byte) (peerAck : Nat) : State :=
  let p := (s.hall h).port i
  if p.training then
    let m := good &&& p.offer
    if 7 ≤ lanesOf m ∧ p.holdDown = false then
      let s1 := s.modPort h i (·.resume m peerAck)
      if p.up then s1 else s1.grant h i
    else s.portDown h i
  else s

end Sys2Proof.Machine
end

