-- ==== Sys2Proof/Machine/Transfers.lean ====
section
/-! DEFINITION. Transfers, rounds, ledgers and receipts (R216 to R221), pulls served without a command (R226) and the
Mezzanine's side of a checkpoint (R241 to R244). -/

namespace Sys2Proof.Machine

/-! ### KIND codes and lead blocks (Tables 07-5, 07-10) -/

abbrev kPUSH : Nat := 1
abbrev kPULLREQ : Nat := 2
abbrev kPULLDATA : Nat := 3
abbrev kUP : Nat := 4
abbrev kDOWN : Nat := 5
abbrev kRECEIPT : Nat := 6
abbrev kMEZZ : Nat := 7
abbrev kMEZZREQ : Nat := 8
abbrev kMEZZDATA : Nat := 9
abbrev kDIGEST : Nat := 10

/-- A lead block with its absent child words. -/
structure Lead where
  tdigest : List Byte
  format  : Nat
  cols    : Nat
  rows    : Nat
  coarse  : Int
  leaves  : Nat
  absent  : Nat
  carried : Nat
  affine  : Nat
  list    : List Nat
deriving DecidableEq, Repr

def Lead.none : Lead := ⟨List.replicate 16 0, 0, 0, 0, 0, 0, 0, 0, 0, []⟩

def padTo (n : Nat) (b : List Byte) : List Byte := b ++ List.replicate (roundUp b.length n - b.length) 0

def Lead.bytes (l : Lead) : List Byte :=
  l.tdigest ++ natLE l.format 4 ++ natLE l.cols 4 ++ natLE l.rows 4 ++ natLE (tc 8 l.coarse) 1 ++ natLE 0 1
    ++ natLE l.list.length 2 ++ natLE l.leaves 4 ++ natLE l.absent 4 ++ natLE l.carried 4 ++ natLE l.affine 4 ++ natLE 0 16
    ++ padTo 64 (l.list.flatMap (natLE · 4))

/-- The lead block of a transfer, and the data behind it. -/
def Lead.parse (b : List Byte) : Lead × List Byte :=
  let n := u16 b 30
  ({ tdigest := bytesAt b 0 16, format := u32 b 16, cols := u32 b 20, rows := u32 b 24, coarse := sext 8 (u8 b 28),
     leaves := u32 b 32, absent := u32 b 36, carried := u32 b 40, affine := u32 b 44,
     list := (List.range n).map fun i => u32 b (64 + 4 * i) },
   b.drop (64 + roundUp (4 * n) 64))

/-! ### Ledgers -/

def xferOf (x : XHdr) : XferId := ⟨x.kind, x.job, x.epoch, x.key, x.round, x.shard, x.node⟩

/-- The round counter that governs a transfer; a Mezzanine transfer has none. -/
def HJob.counter (j : HJob) (kind key : Nat) : Nat :=
  if kind = kUP ∨ kind = kDOWN then tabGet 0 j.rndT key else if kind ≤ kPULLDATA then tabGet 0 j.rndK key else 0

def HJob.rx? (j : HJob) (id : XferId) : Option RxEnt := j.rx.find? (·.id == id)
def HJob.putRx (j : HJob) (e : RxEnt) : HJob := { j with rx := j.rx.filter (·.id != e.id) ++ [e] }
/-- A transfer that has a state in the ledger. -/
def HJob.rxState (j : HJob) (id : XferId) : Option LState := (j.rx? id).map RxEnt.st

def HJob.tx? (j : HJob) (id : XferId) : Option TxEnt := j.tx.find? (·.id == id)
def HJob.putTx (j : HJob) (e : TxEnt) : HJob := { j with tx := j.tx.filter (·.id != e.id) ++ [e] }

/-- Frames of a transfer have been taken, and no later one has been answered LATE yet. -/
def HJob.owesLate (j : HJob) (id : XferId) : Bool :=
  match j.rx? id with
  | some e => e.st == .open_ || e.owed
  | none => false

/-- Record a transfer as ABSENT, whatever has arrived of it (R274). -/
def HJob.setAbsent (j : HJob) (id : XferId) : HJob := j.putRx ⟨id, .absent, [], 0, 0, 0, [], j.owesLate id⟩

/-- A DOWN transfer that lost to R169's timer is never ABSENT (R236): when it comes it is discarded, counted late and answered LATE
(R170, Table 07-6). -/
def HJob.markLate (j : HJob) (id : XferId) : HJob := j.putRx ⟨id, .late, [], 0, 0, 0, [], j.owesLate id⟩

/-- Record a transfer as ABSENT unless its first frame has been taken (R232). -/
def HJob.markAbsent (j : HJob) (id : XferId) : HJob :=
  match j.rx? id with
  | some _ => j
  | none => j.setAbsent id

/-- The page of a job in the partition that owns a hall, when the job is resident (R220). -/
def State.jobAt (s : State) (h job : Nat) : Option Page :=
  match s.ownerOf h with
  | none => none
  | some v => if (s.job (pageOf v job)).resident then some (pageOf v job) else none

/-- What the receiver makes of one frame of a transfer: the job's ledger, and a receipt code if one is due now. A frame that
continues a transfer of which the ledger holds nothing is discarded. A transfer that became ABSENT after its first frame is
answered LATE at its next one (R170, R218). -/
def HJob.takeFrame (j : HJob) (f : Frame) (x : XHdr) (port : Nat) : HJob × Option Nat :=
  let id := xferOf x
  let c := j.counter x.kind x.key
  let stray := { j with stray := j.stray + 1 }
  let once := fun (code : Nat) => if x.first then some code else none
  let numbered := decide (x.kind ≤ kDOWN)
  if numbered ∧ c + 4 ≤ x.round then (j, once 3)
  else if numbered ∧ x.round + 4 < c then (stray, once 4)
  else if numbered ∧ x.round < c then
    (stray, once (match j.past.find? (·.1 == id) with
      | some (_, true) => 1
      | _ => 2))
  else if !x.first ∧ (j.rx? id).isNone then (stray, none)
  else
    let old := match j.rx? id with
      | some e => e
      | none => ⟨id, .open_, [], f.src, f.vc, port, f.ret, false⟩
    match old.st with
    | .full => (stray, once 1)
    | .absent | .late => (stray.putRx { old with owed := false }, if x.first || old.owed then some 2 else none)
    | .open_ =>
      let data := if x.offset = 0 then f.payload
        else if x.offset = old.data.length then old.data ++ f.payload else old.data
      let full := x.last && x.offset + f.payload.length == data.length
      (j.putRx { old with data := data, st := if full then .full else .open_ }, if full then some 1 else none)

/-- TDIGEST of the first frame differs from the plan's under the same tree number (R230). -/
def State.treeDiffers (s : State) (q : Page) (f : Frame) (x : XHdr) : Bool :=
  (x.kind == kUP || x.kind == kDOWN) && x.first && match s.plan? q with
    | none => true
    | some p => match p.tree? x.key with
      | none => true
      | some t => t.tdigest != f.payload.take 16

/-- How often a command uses a tree in the share of a logical hall; an empty GANG uses none (R172). -/
def usesTree (p : Plan) (c : Cmd) (lh tree : Nat) : Nat :=
  if c.opcode = opGANG then b2n (c.desc.tree == tree && !c.noWork)
  else if c.opcode = opRUN then treeUses tree (p.passOps lh c.desc.pass) else 0

/-- Fail the running commands of a page that meet a condition. -/
def State.failWhere (s : State) (q : Page) (f : Cmd → Bool) (code : Nat) : State :=
  match (s.job q).cmds.find? fun c => c.dispatched && f c with
  | some c => s.failCmd q c.slot code 0xFFFF
  | none => s

/-- A frame counts as a stray of its job. -/
def State.countStray (s : State) (h : Nat) (x : XHdr) : State := s.modHJob h x.job fun j => { j with stray := j.stray + 1 }

/-- A request for a job of another epoch: it counts as a stray, and is answered STALE with the receiver's epoch (R220). -/
def State.strayFrame (s : State) (h : Nat) (f : Frame) (x : XHdr) : State :=
  let s := s.countStray h x
  if x.first then s.enqueue [receiptFrame s h f x 4 0 ((s.hall h).job x.job).epoch] else s

/-- A transfer under another tree than the plan's (R230): the command that uses the tree in its round fails, now or when it comes to
that use. -/
def State.badTree (s : State) (h : Nat) (q : Page) (f : Frame) (x : XHdr) : State :=
  let c := (s.hall h).job x.job |>.counter x.kind x.key
  let s := s.modHJob h x.job fun j =>
    { j with badTree := j.badTree.filter (fun e => !(e.1 == x.key && e.2.1 == x.round)) ++ [(x.key, x.round, f.payload.take 16)] }
  s.failWhere q (fun k => match s.plan? q with
    | some p => decide (c ≤ x.round) && decide (x.round < c + usesTree p k (h - (s.part (pageFn q)).base) x.key)
    | none => false) 0x0801

/-- A use of a tree in a round meets a transfer of that round under another TDIGEST (R230). -/
def HJob.treeBad (j : HJob) (t : TreeRec) (round : Nat) : Bool :=
  j.badTree.any fun e => e.1 == t.num && e.2.1 == round && e.2.2 != t.tdigest

/-- What a hall makes of one frame of a transfer: its job's ledger takes it, or it counts as a stray or as late, or it is of another
tree. With it goes the receipt code that is due, if one is. -/
def State.takeXfer (s : State) (h i : Nat) (f : Frame) (x : XHdr) : State × Option Nat :=
  let stray := (s.countStray h x, if x.first then some 4 else none)
  match s.jobAt h x.job with
  | none => stray
  | some q =>
    let j := (s.hall h).job x.job
    if j.epoch ≠ x.epoch then stray
    else if s.treeDiffers q f x then (s.badTree h q f x, some 5)
    else
      let r := j.takeFrame f x i
      (s.modHJob h x.job fun _ => if r.2 = some 2 then { r.1 with late := r.1.late + 1 } else r.1, r.2)

/-- One frame of a transfer of a KIND is taken from a port's receive buffer, and answered. Only a receipt STALE may carry another
epoch than the frame (R220). -/
def State.takeKind (s : State) (h i kind : Nat) : State :=
  match s.takeRx h i fun x _ => x.kind == kind with
  | none => s
  | some (f, x, s) => match s.takeXfer h i f x with
    | (t, some code) => t.enqueue [receiptFrame t h f x code 0 (if code = 4 then ((t.hall h).job x.job).epoch else x.epoch)]
    | (t, none) => t

def execPush (hall port : Nat) (s : State) : Out := whenRunning s (·.takeKind hall port kPUSH)
def execPulldata (hall port : Nat) (s : State) : Out := whenRunning s (·.takeKind hall port kPULLDATA)
def execDown (hall port : Nat) (s : State) : Out := whenRunning s (·.takeKind hall port kDOWN)
def execMezzdata (hall port : Nat) (s : State) : Out := whenRunning s (·.takeKind hall port kMEZZDATA)

/-! ### DIGEST bodies and relays (Table 09-5, R277) -/

/-- The 64-byte body of Table 09-5. -/
structure DBody where
  (sub result evidence qseq : Nat)
  digest : DWord
  (pkey attempt pround pshard pnode : Nat)
deriving DecidableEq, Repr

def DBody.of (sub : Nat) : DBody := ⟨sub, 0, 0, 0, 0, 0, 0, 0, 0, 0⟩

/-- EVIDENCE as a COMMIT carries it: 16 bits, saturating. -/
def evidence16 (n : Nat) : Nat := min n 0xFFFF

def DBody.bytes (b : DBody) : List Byte :=
  natLE b.sub 1 ++ natLE b.result 1 ++ natLE (evidence16 b.evidence) 2 ++ natLE (b.qseq % 2 ^ 32) 4
    ++ natLE b.digest.toNat 8 ++ natLE b.pkey 2 ++ natLE (min b.attempt 0xFFFF) 2 ++ natLE b.pround 4 ++ natLE b.pshard 4
    ++ natLE b.pnode 4 ++ natLE 0 32

/-- Read at a byte of a payload. -/
def DBody.parse (p : List Byte) (o : Nat) : DBody :=
  { sub := u8 p o, result := u8 p (o + 1), evidence := u16 p (o + 2), qseq := u32 p (o + 4),
    digest := BitVec.ofNat 64 (u64 p (o + 8)), pkey := u16 p (o + 16), attempt := u16 p (o + 18), pround := u32 p (o + 20),
    pshard := u32 p (o + 24), pnode := u32 p (o + 28) }

def parseXHdr (b : List Byte) : XHdr :=
  let j := u8 b 1
  { kind := u8 b 0, job := fld j 0 4, first := bit j 4, last := bit j 5, epoch := u16 b 2, key := u16 b 4, round := u32 b 8,
    shard := u32 b 12, node := u32 b 16, offset := u32 b 20, attempt := u8 b 24, code := u8 b 25, reason := u8 b 26 }

/-- A RELAY of a transfer: the enclosed header and payload behind a DIGEST body (log 14). -/
def relayFrames (src dest : Nat) (ports : List Nat) (x : XHdr) (data : List Byte) : List Frame :=
  mkFrames src dest ports 14 { x with kind := kDIGEST, key := 0, shard := 0, node := 0 }
    (Lead.none.bytes ++ (DBody.of 5).bytes ++ xhdrBytes x ++ data)

/-- R278: a RELAY is sent or forwarded. -/
def State.countRelay (s : State) (v : Fn) : State :=
  s.modPart v fun p => { p with relays := satAdd 0xFFFF p.relays 1 }

/-! ### Sending a transfer -/

/-- A single leg sends every transfer a second time as a RELAY over the same route (R277). -/
def State.alsoRelay (s : State) (h dest : Nat) (ports : List Nat) (x : XHdr) (data : List Byte) : State :=
  match s.ownerOf h with
  | some v => if (s.part v).scState = 2 then
      (s.enqueue (relayFrames (s.rank h) dest ports x data)).countRelay v else s
  | none => s

/-- The header of a transfer's first frame, by its identity and the attempt. -/
def xhdrOf (id : XferId) (attempt : Nat) : XHdr :=
  { kind := id.kind, job := id.job, first := true, last := true, epoch := id.epoch, key := id.key, round := id.round,
    shard := id.shard, node := id.node, offset := 0, attempt := attempt % 256, code := 0, reason := 0 }

/-- A running command sends a transfer, unless a receipt for it is recorded (R217). A route whose first port is down is
answered DOWN at once (R209). -/
def State.sendXfer (s : State) (h : Nat) (slot : Nat) (id : XferId) (dest : Nat) (ports : List Nat) (vc : Nat)
    (data : List Byte) : State :=
  let j := (s.hall h).job id.job
  let old := j.tx? id
  if (match old with
      | some t => match t.receipt with
        | some (c, _) => c != 7
        | none => false
      | none => false) then s
  else
    let out := s.portOf (ports.getD 0 0)
    let down := !(out.up || out.training)
    let tries := ((old.map TxEnt.tries).getD 0) + 1
    let e : TxEnt := { id := id, dest := dest, ports := ports, vc := vc, data := data,
                       receipt := if down then some (7, 0) else none, held := false, tries := tries, relay := false,
                       slot := slot, late := false, acked := false }
    let s := s.modHJob h id.job fun j => j.putTx e
    if down then s
    else
      let x := xhdrOf id (tries - 1)
      (s.enqueue (mkFrames (s.rank h) dest ports vc x data)).alsoRelay h dest ports x data

/-- Send again from OFFSET 0. -/
def State.resendXfer (s : State) (h : Nat) (e : TxEnt) : State :=
  (s.modHJob h e.id.job fun j => j.putTx { e with held := false }).sendXfer h e.slot e.id e.dest e.ports e.vc e.data

/-- REASON of a pull or a Mezzanine request whose data are poisoned. DESIGN CHOICE: R264 fails the reading command with
ERR_FAULT_STATE, and Table 07-19 has no reason that would say so at the requester; the first reserved one does (log 100). -/
abbrev reasonPoison : Nat := 6

/-- The error that a receipt code causes at its sender (Tables 07-6, 07-19). -/
def receiptErr (code reason : Nat) : Option Nat :=
  if code = 4 then some 0x0804
  else if code = 5 then some 0x0801
  else if code = 6 then
    some (if reason = 1 then 0x0805 else if reason = 2 ∨ reason = 3 then 0x0809 else if reason = reasonPoison then 0x0903 else 0x0808)
  else if code = 7 then some 0x0802
  else none

/-- The receiver has acknowledged a transfer as committed to its ledger (R165). -/
def HJob.ack (j : HJob) (id : XferId) : HJob :=
  { j with unacked := j.unacked.filter (· != id), tx := j.tx.map fun t => if t.id = id then { t with acked := true } else t }

/-- The partner's RELAYs of a transfer are answered with the receipt of this leg's copy (R277). -/
def State.answerAsks (s : State) (h : Nat) (id : XferId) (code reason : Nat) : State :=
  match s.ownerOf h with
  | none => s
  | some v =>
    let mine := fun (a : RelayAsk) => a.own == h && a.id == id
    let s1 := s.modPart v fun p => { p with relayAsks := p.relayAsks.filter fun a => !mine a }
    ((s.part v).relayAsks.filter mine).foldl (fun s a =>
      s.reply a.hall { Frame0 with vc := 14, src := a.src, ret := a.ret } (xhdrOf id 0) code reason) s1

/-- The receipt of a transfer that was served (R277). -/
def State.servedReceipt (s : State) (h : Nat) (id : XferId) (code reason : Nat) : State :=
  match ((s.hall h).job id.job).served.find? fun t => t.receipt.isNone && t.id == id with
  | none => s
  | some t => if code = 3 then s
    else (s.modHJob h id.job fun j => { j with served := j.served.map fun e =>
        if e = t then { e with receipt := some (code, reason) } else e }).answerAsks h id code reason

/-- A sender records a receipt (R218) and its command fails where the code says so; in a paired leg a DOWN receipt waits
for the relay of R277. DESIGN CHOICE: a transfer whose receipt fails the command leaves the ledger with it, so that a new command of
the same round sends it again (log 132). -/
def State.takeReceipt (s : State) (h : Nat) (id : XferId) (code reason : Nat) : State :=
  let s := if code = 1 then s.modHJob h id.job (·.ack id) else s
  match ((s.hall h).job id.job).tx.find? fun t => t.receipt.isNone && t.id == id with
  | none => s.servedReceipt h id code reason
  | some t =>
    if code = 3 then s.modHJob h id.job fun j => j.putTx { t with held := true }
    else
      let s := (s.modHJob h id.job fun j => j.putTx { t with receipt := some (code, reason) }).answerAsks h id code reason
      let paired := match s.ownerOf h with
        | some v => (s.part v).scState == 1
        | none => false
      match receiptErr code reason, s.jobAt h id.job with
      | some e, some q =>
        if code = 7 && paired then s else
        let s := s.modHJob h id.job fun j => j.dropTx (·.id == id)
        s.failWhere q (·.slot == t.slot) e
      | _, _ => s

/-- R219: no receipt in time. The internal code 8 counts as LATE for an UP and as complete for a DOWN. -/
def State.unanswered (s : State) (h : Nat) (id : XferId) : State :=
  match ((s.hall h).job id.job).tx? id with
  | some t => if (id.kind = kUP ∨ id.kind = kDOWN) ∧ t.receipt.isNone then
      s.modHJob h id.job fun j => j.putTx { t with receipt := some (8, 0), late := true } else s
  | none => s

/-- A transfer that the hall has sent: for a command, or served to a requester. -/
def HJob.sent? (j : HJob) (id : XferId) : Option TxEnt :=
  match j.tx? id with
  | some t => some t
  | none => j.served.find? (·.id == id)

/-- Put back a sent transfer that has changed. -/
def HJob.putSent (j : HJob) (e : TxEnt) : HJob :=
  if (j.tx? e.id).isSome then j.putTx e
  else { j with served := j.served.map fun t => if t.id = e.id ∧ t.dest = e.dest then e else t }

/-- Remember what has been served to a requester. Earlier serves of its key stay for four rounds. -/
def HJob.serve (j : HJob) (e : TxEnt) : HJob :=
  { j with served := j.served.filter (fun t => !(t.id.kind == e.id.kind && t.id.key == e.id.key && t.dest == e.dest
      && (t.id == e.id || decide (t.id.round + 4 ≤ e.id.round)))) ++ [e] }

/-- The identity of a job's transfer in its present epoch. -/
def State.xid (s : State) (h job kind key round shard node : Nat) : XferId :=
  ⟨kind, job, ((s.hall h).job job).epoch, key, round, shard, node⟩

def execUnanswered (hall job key round shard node kind : Nat) (s : State) : Out :=
  whenRunning s fun s => s.unanswered hall (s.xid hall job kind key round shard node)

/-- A held transfer is sent again after 4 µs (Table 07-6). With its route's first port down by then it is answered DOWN at once
(R209), and its command fails as Table 07-6 has it. -/
def State.holdResend (s : State) (h : Nat) (id : XferId) : State :=
  match ((s.hall h).job id.job).tx? id with
  | some t =>
    let out := s.portOf (t.ports.getD 0 0)
    if !t.held then s
    else if out.up || out.training then s.resendXfer h t
    else (s.modHJob h id.job fun j => j.putTx { t with held := false }).takeReceipt h id 7 0
  | none => s

def execHoldResend (hall job key round shard node kind : Nat) (s : State) : Out :=
  whenRunning s fun s => s.holdResend hall (s.xid hall job kind key round shard node)

/-! ### Tensor data as a transfer carries it (R223) -/

/-- Rows of a face: stored bytes, scale-plane bytes, then the whole side list when the tensor has one. -/
def Face.rowsBytes (f : Face) (first n : Nat) : List Byte :=
  let d := f.d
  let rows := (List.range n).map (first + ·)
  (rows.flatMap fun r => memReads f.m (d.base f.k + r * d.pitch) d.rowBytes)
    ++ (if d.w.plane then rows.flatMap fun r => memReads f.m (d.planeBase f.k + r * d.blocks) d.blocks else [])
    ++ (if d.w.side then memReads f.m (d.sideBase f.k) TDesc.sideLen else [])

/-- The committed face of a descriptor in a hall, as it stands now. -/
def State.committedFace (s : State) (h : Nat) (d : TDesc) : Face :=
  let H := s.hall h
  let k := if d.dogleg then H.faceOf d.pair else 0
  let m := if d.host then s.host else H.hbm
  let side := if d.w.side then (readSide m (d.sideBase k) d.elems).getD [] else []
  { m := m, d := d, k := k, coarse := H.faceCoarse d k, aff := Affine.ofNat (H.faceAff d k), side := side }

/-- Rows of a face touch a poisoned granule. -/
def Face.rowsSpans (f : Face) (first n : Nat) : List Span :=
  (f.d.base f.k + first * f.d.pitch, n * f.d.pitch)
    :: (if f.d.w.plane then [(f.d.planeBase f.k + first * f.d.blocks, n * f.d.blocks)] else [])
    ++ (if f.d.w.side then [(f.d.sideBase f.k, TDesc.sideLen)] else [])

/-! ### Serving a pull (R226) -/

/-- Body of a PULLREQ after its lead block (log 13): PLAN_ID, PTENSOR, PFIRST, COUNT. -/
def pullBody (planId pt pf n : Nat) : List Byte := natLE planId 8 ++ natLE pt 2 ++ natLE 0 2 ++ natLE pf 4 ++ natLE n 4

/-- What a hall remembers of data that it serves to the SRC of a request. -/
def servedEnt (f : Frame) (y : XHdr) (data : List Byte) (receipt : Option (Nat × Nat)) : TxEnt :=
  { id := xferOf y, dest := f.src, ports := f.ret.reverse, vc := f.vc, data := data, receipt := receipt, held := false, tries := 1,
    relay := false, slot := 0, late := false, acked := false }

/-- A face is read for a pull until its last PULLDATA frame has left. -/
def State.holdFace (s : State) (h : Nat) (face : Face) (id : XferId) (ports : List Nat) (req : Nat) : State :=
  s.modHall h fun H => { H with serving := H.serving ++ [⟨face.d.pair, face.k, id, ports.getD 0 0, req⟩] }

/-- A frame that leaves a port, or is answered DOWN there, may be the last of a pull that is served: the oldest one of its
transfer, requester and port. -/
def State.endServing (s : State) (num : Nat) (f : Frame) : State :=
  match f.hdr with
  | none => s
  | some x =>
    if x.kind = kPULLDATA ∧ x.last then
      s.modHall (rankHall f.src) fun H => { H with serving := H.serving.eraseP fun e => e.id == xferOf x && e.port == num && e.req == f.dest }
    else s

/-- A requester's data leave along the reversed RET path. A paired leg remembers them until their receipt (R277). -/
def State.sendServed (s : State) (h : Nat) (f : Frame) (y : XHdr) (data : List Byte) : State :=
  let ports := f.ret.reverse
  let s := (s.enqueue (mkFrames (s.rank h) f.src ports f.vc y data)).alsoRelay h f.src ports y data
  match s.ownerOf h with
  | some v => if (s.part v).scState = 1 then s.modHJob h y.job (·.serve (servedEnt f y data none)) else s
  | none => s

/-- Why a request is not served: the REASON of its receipt, and the poison that its read met. -/
structure Refuse where
  reason : Nat
  poison : Option Nat
deriving DecidableEq, Repr

/-- A request is answered REFUSED; a poisoned read is logged in its hall (R264). -/
def State.refuse (s : State) (h : Nat) (f : Frame) (x : XHdr) (r : Refuse) : State :=
  (match r.poison with
    | some a => s.log h ⟨0x11, x.job, 0, 0xFFFF, a⟩
    | none => s).reply h f x 6 r.reason

/-- What answers a PULLREQ: the face, its first row and the rows asked for, and the data; or why the pull is refused. -/
def State.pullData (s : State) (h : Nat) (q : Page) (f : Frame) (x : XHdr) : Except Refuse (Face × Nat × Nat × List Byte) :=
  let body := (Lead.parse f.payload).2
  let pt := u16 body 8
  let first := u32 body 12
  let n := u32 body 16
  match s.plan? q, s.binding? h pt x.job with
  | some p, some d =>
    let face := s.committedFace h d
    if p.planId.toNat ≠ u64 body 0 ∨ (p.tensor? pt).isNone ∨ d.rows < first + n then .error ⟨1, none⟩
    else match (s.hall h).poisonIn (face.rowsSpans first n) with
      | some a => .error ⟨reasonPoison, some a⟩
      | none =>
        let l := { Lead.none with format := d.fmtRaw, cols := d.cols, rows := n, coarse := face.coarse,
                                  affine := if d.w.zi then face.aff.toNat else 0 }
        .ok (face, first, n, l.bytes ++ face.rowsBytes first n)
  | _, _ => .error ⟨1, none⟩

/-- ZT2 codes 0b10 that a hall reads beside any command count in its step's statistics of a managed tensor (R18, R189). -/
def State.countHall (s : State) (h : Nat) (p : Option Plan) (d : TDesc) (coarse : Int) (bad : Nat) : State :=
  if bad ≠ 0 ∧ Plan.managedT p d.tensor then
    s.modHall h fun H => { H with stats := putStat { Stat.empty d.tensor coarse with invalidT := bad } H.stats }
  else s

/-- Those that it reads for a pull. -/
def State.countPull (s : State) (h : Nat) (q : Page) (face : Face) (first n : Nat) : State :=
  let d := face.d
  s.countHall h (s.plan? q) d face.coarse ((List.range (n * d.cols)).filter fun i =>
    invalidCode d.w.fmt (face.fineAt (first + i / d.cols) (i % d.cols)) (face.code (first + i / d.cols) (i % d.cols))).length

def State.servePull (s : State) (h i : Nat) : State :=
  match s.takeRx h i fun x _ => x.kind == kPULLREQ with
  | none => s
  | some (f, x, s) =>
    match s.jobAt h x.job with
    | none => s.reply h f x 6 1
    | some q => if ((s.hall h).job x.job).epoch ≠ x.epoch then s.strayFrame h f x else match s.pullData h q f x with
      | .error r => s.refuse h f x r
      | .ok (face, first, n, data) =>
        let y := { x with kind := kPULLDATA }
        (((s.countPull h q face first n).reply h f x 1 0).holdFace h face (xferOf y) f.ret.reverse f.src).sendServed h f y data

def execPullreq (hall port : Nat) (s : State) : Out := whenRunning s (·.servePull hall port)

/-! ### The Mezzanine (R241 to R244) -/

/-- Slot bases and the bytes of one slot (R241). -/
def Hall.mezzSlotLen (H : Hall) : Nat := 65536 * H.mezzSize
def Hall.mezzSlotBase (H : Hall) (k : Nat) : Nat := H.mezzBase + k * H.mezzSlotLen

def Hall.mezzPermits (H : Hall) (src : Nat) : Bool := H.mezzOn && src == rankWord H.mezzAddr H.mezzHall

/-- One MEZZ frame at the neighbour (Table 07-17, steps 2 and 4), with its answer, if one is due. The transfer is a lead block,
the slot header and the image. -/
def State.mezzTake (s : State) (h : Nat) (f : Frame) (x : XHdr) : State × Option (Nat × Nat) :=
  let H := s.hall h
  let hdr := bytesAt f.payload 64 64
  if !H.mezzPermits f.src then (s, if x.first then some (6, 2) else none)
  else if x.first ∧ H.mezzSlotLen < 64 + u64 hdr 32 then
    (s.modHall h fun H => { H with mezzIn := none }, some (6, 3))
  else
    match (if x.first then some (fld (u8 hdr 5) 0 1) else H.mezzIn) with
    | none => (s, none)
    | some k =>
      let b := H.mezzSlotBase k
      let data := if x.first then f.payload.drop 64 else f.payload
      let at_ := if x.first then b else b + x.offset - 64
      let m := memWrites H.hbm at_ data
      let m := if x.first then memWrite m (b + 4) 1 else m
      let s := s.modHall h fun H => { H with hbm := m, mezzIn := if x.last then none else some k }
      if x.last then
        let len := leNat (memReads m (b + 32) 8)
        if crc64 (memReads m (b + 64) len) = BitVec.ofNat 64 (leNat (memReads m (b + 40) 8)) then
          (s.modHall h fun H => { H with hbm := memWrite H.hbm (b + 4) 2 }, some (1, 0))
        else (s, some (6, 5))
      else (s, none)

def State.mezzFrame (s : State) (h i : Nat) : State :=
  match s.takeRx h i fun x _ => x.kind == kMEZZ with
  | none => s
  | some (f, x, s) => match s.mezzTake h f x with
    | (t, some r) => t.reply h f x r.1 r.2
    | (t, none) => t

def execMezz (hall port : Nat) (s : State) : Out := whenRunning s (·.mezzFrame hall port)

/-- A MEZZREQ at the neighbour: its body after the lead block holds the slot number (log 13). A slot that poison meets is not
given out (R264). -/
def State.mezzData (s : State) (h : Nat) (f : Frame) : Except Refuse (List Byte) :=
  let H := s.hall h
  let b := H.mezzSlotBase (fld (u8 (Lead.parse f.payload).2 0) 0 1)
  if !H.mezzPermits f.src then .error ⟨2, none⟩
  else if memRead H.hbm (b + 4) ≠ 2 then .error ⟨4, none⟩
  else
    let n := 64 + leNat (memReads H.hbm (b + 32) 8)
    match H.poisonIn [(b, n)] with
    | some a => .error ⟨reasonPoison, some a⟩
    | none => .ok (Lead.none.bytes ++ memReads H.hbm b n)

def State.mezzServe (s : State) (h i : Nat) : State :=
  match s.takeRx h i fun x _ => x.kind == kMEZZREQ with
  | none => s
  | some (f, x, s) =>
    match s.mezzData h f with
    | .error e => s.refuse h f x e
    | .ok data => (s.reply h f x 1 0).sendServed h f { x with kind := kMEZZDATA } data

def execMezzreq (hall port : Nat) (s : State) : Out := whenRunning s (·.mezzServe hall port)

end Sys2Proof.Machine
end

