-- ==== Sys2Proof/Machine/Scissor.lean ====
section
/-! DEFINITION. Scissor pairs: DIGEST transfers, commit digests compared, absent children agreed, single-leg state and
relays (R270 to R278, R287). -/

namespace Sys2Proof.Machine

/-! ### Routes to the partner (R270) -/

/-- Ports from hall h to hall (h + 4) mod 8 around the inner ring, one way or the other (Table 07-1). -/
def ringRoute (h : Nat) (up : Bool) : List Nat :=
  (List.range 4).map fun k => if up then portNum ((h + k) % 8) 4 else portNum ((h + 8 - k) % 8) 3

/-- A route of a hall: hall, destination, ports. -/
abbrev HallRoute := Nat × Nat × List Nat

/-- Two routes without a common port. -/
def apart (a b : HallRoute) : Bool := a.2.2.all fun y => !b.2.2.contains y

/-- The routes of a plan's halls to a device. -/
def Plan.routesTo (p : Plan) (base chain : Nat) : List HallRoute :=
  (List.range p.phalls).flatMap fun i =>
    ((p.routes.getD i []).filter fun r => rankChain r.dest == chain).map fun r => (base + i, r.dest, r.ports)

/-- The two routes on which a partition's leg sends its DIGEST transfers. -/
def State.digestRoutes (s : State) (v : Fn) : List HallRoute :=
  let P := s.part v
  match P.plan with
  | none => []
  | some p => match p.scissor with
    | none => []
    | some x =>
      if x.form = 0 then
        let t := s.rank ((P.base + 4) % 8)
        [(P.base, t, ringRoute P.base true), (P.base, t, ringRoute P.base false)]
      else
        let rs := p.routesTo P.base x.partner
        match firstSome (fun a => (rs.find? (apart a)).map fun b => (a, b)) rs with
        | none => []
        | some (a, b) => [a, b]

/-- A route whose first port carries frames, and which has not failed further on (R270). -/
def State.routeUp (s : State) (v : Fn) (r : HallRoute) : Bool :=
  let n := r.2.2.getD 0 0
  ((s.portOf n).up || (s.portOf n).training) && !(s.part v).routeBad.contains n

/-- Header of a DIGEST transfer: KEY, SHARD and NODE are zero (Table 07-5). -/
def digestHdr (job epoch : Nat) : XHdr := xhdrOf ⟨kDIGEST, job, epoch, 0, 0, 0, 0⟩ 0

/-- Send a DIGEST transfer over a route, and remember it until its receipt. -/
def State.digestOver (s : State) (v : Fn) (r : HallRoute) (x : XHdr) (data : List Byte) (relay : Option (Nat × Nat)) : State :=
  let ends := relay.getD (s.rank r.1, r.2.1)
  let e : DigOut := ⟨r.1, r.2.2.getD 0 0, x, data, relay⟩
  (s.enqueue (mkFrames ends.1 ends.2 r.2.2 14 x data)).modPart v fun p =>
    { p with digOut := if p.digOut.contains e then p.digOut else p.digOut ++ [e] }

def State.digestOn (s : State) (v : Fn) (job : Nat) (b : DBody) (r : HallRoute) : State :=
  s.digestOver v r (digestHdr job ((s.hall r.1).job job).epoch) (Lead.none.bytes ++ b.bytes) none

/-- The route of the next DIGEST transfer: they alternate, and a route that is down or has failed gives way to the other. -/
def State.nextRoute (s : State) (v : Fn) : Option HallRoute :=
  match s.digestRoutes v with
  | [a, b] =>
    let (x, y) := if (s.part v).altRoute then (b, a) else (a, b)
    some (if s.routeUp v x then x else y)
  | _ => none

def State.flipRoute (s : State) (v : Fn) : State := s.modPart v fun p => { p with altRoute := !p.altRoute }

def State.sendDigest (s : State) (v : Fn) (job : Nat) (b : DBody) : State :=
  match s.nextRoute v with
  | none => s
  | some r => (s.digestOn v job b r).flipRoute v

/-- A DIGEST transfer's receipt: a route that answers DOWN gives way to the other, which takes the transfer again (R270). -/
def State.digestReceipt (s : State) (v : Fn) (h port : Nat) (id : XferId) (code : Nat) : State :=
  match (s.part v).digOut.find? fun e => e.hall == h && e.port == port && xferOf e.hdr == id with
  | none => s
  | some e =>
    let s := s.modPart v fun p => { p with digOut := p.digOut.erase e }
    if code = 7 then
      let s := s.modPart v fun p => { p with routeBad := if p.routeBad.contains port then p.routeBad else p.routeBad ++ [port] }
      match (s.digestRoutes v).find? fun r => s.routeUp v r with
      | some r => s.digestOver v r e.hdr e.data e.relay
      | none => s
    else s

/-! ### Failing what is uncommitted -/

/-- With a hall of the partition lost, a plan load in progress fails with ERR_PLAN_ABORT (R141), any other command with the
given code. -/
def abortCode (lost : Bool) (code : Nat) (c : Cmd) : Nat :=
  if lost ∧ c.opcode = opLOAD ∧ c.desc.part = 3 ∧ c.dispatched then 0x041A else code

/-- Every uncommitted command of a partition fails: the oldest of each queue posts, those behind it are killed (R175). -/
def State.failAll (s : State) (v : Fn) (code : Nat) : State :=
  (vfPages v).foldl (fun s q => match (s.job q).cmds with
    | [] => s
    | c :: _ => if c.failed then s
      else s.failCmd q c.slot (abortCode (!(s.part v).halls.all s.hallOk) code c) 0xFFFF) s

/-- Every queue of a partition halts. -/
def State.haltAll (s : State) (v : Fn) (code : Nat) : State :=
  (vfPages v).foldl (fun s q => s.modJob q fun j =>
    if j.halted ∨ !j.cmds.isEmpty then j else { j with halted := true, haltCode := code }) s

def State.logPart (s : State) (v : Fn) (e : LogEnt) : State := (s.part v).halls.foldl (fun s h => s.log h e) s

/-! ### Leaving the pair, and standing alone (R275, R276) -/

/-- A leg leaves its pair: RETIRE on both routes, its commands fail, its queues halt. -/
def State.retireLeg (s : State) (v : Fn) : State :=
  let s := (s.digestRoutes v).foldl (fun s r => s.digestOn v 0 (DBody.of 6) r) s
  let s := s.modPart v fun p => { p with scState := 3, scCause := 3 }
  (s.failAll v 0x0906).haltAll v 0x0906

def State.leavePair (s : State) (v : Fn) : State := if (s.part v).scState = 1 then s.retireLeg v else s

/-- A single leg decides alone on the children whose absence it had proposed (R274): what it has begun to take it goes on taking, as
its arbiter would (R232), and any other is ABSENT. DESIGN CHOICE: no rule says what a proposal comes to whose answer cannot come
(log 145). -/
def HJob.settleAlone (j : HJob) : HJob := j.proposed.foldl HJob.markAbsent { j with proposed := [] }

/-- A paired leg declares its partner lost. -/
def State.standAlone (s : State) (v : Fn) (cause : Nat) : State :=
  if (s.part v).scState = 1 then
    let s := (s.part v).halls.foldl (fun s h => s.modHall h fun H =>
      { H with jobs := H.jobs.map fun e => (e.1, e.2.settleAlone) }) s
    (s.modPart v fun p => { p with scState := 2, scCause := cause, paused := false, digOut := [], relayAsks := [],
                                   relayDue := [] }).logPart v (LogEnt.of 0x0E 0)
  else s

/-- The partition whose halls are the other half of a FORM 0 pair. -/
def State.partnerPart (s : State) (v : Fn) : Option Fn :=
  match (s.part v).plan.bind Plan.scissor with
  | none => none
  | some x => if x.form = 0 then s.ownerOf (((s.part v).base + 4) % 8) else none

/-! ### Comparing commit digests (R273) -/

/-- The partner's COMMIT for a command. -/
def Part.digest? (p : Part) (job qseq : Nat) : Option PDigest := p.digests.find? fun d => d.job == job && d.qseq == qseq

def Part.dropDigest (p : Part) (job qseq : Nat) : Part :=
  { p with digests := p.digests.filter fun d => !(d.job == job && d.qseq == qseq) }

/-- What a mismatch does: the count of consecutive ones decides. Both legs sum what the two COMMITs carried, so that they come to one
judgement. -/
def State.digestMismatch (s : State) (q : Page) (c : Cmd) (d : PDigest) : State :=
  let v := pageFn q
  let s := s.logPart v ⟨0x0D, pageJob q, 0, if c.opcode = opRUN then c.desc.pass else 0xFFFF, c.att.ownDigest.toNat⟩
  let s := s.modPart v fun p => { p.dropDigest d.job d.qseq with mismatch := satAdd 255 p.mismatch 1 }
  let n := c.mism + 1
  let own := c.evid + evidence16 c.att.evidence
  let other := c.evidP + d.evidence
  let leaves := (n == 2 && decide (other < own)) || (decide (3 ≤ n) && (s.part v).scLeg == 1)
  if leaves then s.leavePair v
  else
    let s := s.modCmd q c.slot fun x => { x with mism := n, evid := own, evidP := other, tauTest := n == 2 && own == other }
    s.killCmd q c.slot true

/-- The queue's commit count that a commit would make. -/
def Job.qseq (j : Job) : Nat := (j.commits + 1) % 2 ^ 32

/-- A command that has sent its COMMIT meets the partner's. -/
def State.compareDigest (s : State) (q : Page) : State :=
  match (s.job q).cmds with
  | [] => s
  | c :: _ =>
    if c.phase = .running ∧ c.att.digestOut ∧ c.att.digestOk = false then
      match (s.part (pageFn q)).digest? (pageJob q) (s.job q).qseq with
      | none => s
      | some d =>
        if d.digest = c.att.ownDigest then
          s.modAtt q c.slot fun a => { a with digestOk := true }
        else s.digestMismatch q c d
    else s

/-! ### Evidence (R272) -/

/-- Dispatched commands of the partition that owns a hall. -/
def State.hallCmds (s : State) (h : Nat) : List (Page × Cmd) :=
  match s.ownerOf h with
  | some v => s.running v
  | none => []

/-- EVIDENCE counts the fault events that the commands of a hall met. -/
def State.evidence (s : State) (h n : Nat) : State :=
  (s.hallCmds h).foldl (fun s (x : Page × Cmd) =>
    s.modAtt x.1 x.2.slot fun a => { a with evidence := a.evidence + n }) s

/-! ### Rows of the DIGEST transfers -/

/-- Take a DIGEST frame with a SUB code; frames that continue a RELAY have an OFFSET above zero. -/
def State.takeDigest (s : State) (h i sub : Nat) : Option (Fn × Frame × XHdr × DBody × State) :=
  match s.takeRx h i fun x f => x.kind == kDIGEST && x.first && (DBody.parse f.payload 64).sub == sub with
  | none => none
  | some (f, x, s) => match s.ownerOf h with
    | none => none
    | some v => some (v, f, x, DBody.parse f.payload 64, s.reply h f x 1 0)

/-- A DIGEST frame at a hall of no partition is discarded (R215). -/
def State.dropDigest (s : State) (h i sub : Nat) : State :=
  match s.takeRx h i fun x f => x.kind == kDIGEST && x.first && (DBody.parse f.payload 64).sub == sub with
  | some (_, _, t) => if (s.ownerOf h).isNone then t else s
  | none => s

def State.digestCommit (s : State) (h i : Nat) : State :=
  match s.takeDigest h i 1 with
  | none => s.dropDigest h i 1
  | some (v, _, x, b, s) =>
    let d : PDigest := ⟨x.job, b.qseq, b.digest, b.evidence, b.attempt⟩
    let s := s.modPart v fun p =>
      { p.dropDigest x.job b.qseq with digests := (p.dropDigest x.job b.qseq).digests ++ [d], paused := false }
    s.compareDigest (pageOf v x.job)

def execDigestCommit (hall port : Nat) (s : State) : Out := whenRunning s (·.digestCommit hall port)

/-- ALIVE: the silence window starts again, and a pause ends. -/
def State.digestAlive (s : State) (h i : Nat) : State :=
  match s.takeDigest h i 2 with
  | none => s.dropDigest h i 2
  | some (v, _, _, _, s) => s.modPart v fun p => { p with paused := false }

def execDigestAlive (hall port : Nat) (s : State) : Out := whenRunning s (·.digestAlive hall port)

def execAliveSend (v : Fn) (s : State) : Out :=
  whenRunning s fun s => if (s.part v).scState = 1 then s.sendDigest v 0 (DBody.of 2) else s

/-- The UP transfer of a child that a PROPOSE or an ANSWER names, in a hall's present epoch. -/
def State.childId (s : State) (h job : Nat) (b : DBody) : XferId :=
  s.xid h job kUP b.pkey b.pround b.pshard b.pnode

/-- The halls of a partition record a child as ABSENT, also where its own copy has begun to arrive since the proposal; only the
hall that computes its parent ever reads it. -/
def State.markChild (s : State) (v : Fn) (job : Nat) (b : DBody) : State :=
  (s.part v).halls.foldl (fun s h =>
    let id := s.childId h job b
    s.modHJob h job fun j => { j.setAbsent id with proposed := j.proposed.filter (· != id) }) s

/-- The leg has proposed the child's absence and has no answer. -/
def State.proposes (s : State) (v : Fn) (job : Nat) (b : DBody) : Bool :=
  (s.part v).halls.any fun h => ((s.hall h).job job).proposed.contains (s.childId h job b)

/-- The proposal is answered: the child's transfer was taken. -/
def State.unpropose (s : State) (v : Fn) (job : Nat) (b : DBody) : State :=
  (s.part v).halls.foldl (fun s h => s.modHJob h job fun j => { j with proposed := j.proposed.filter (· != s.childId h job b) }) s

/-- The hall whose ledger holds the first frame of a child's transfer. -/
def State.childTaken (s : State) (v : Fn) (job : Nat) (b : DBody) : Option (Nat × RxEnt) :=
  firstSome (fun h => match ((s.hall h).job job).rx? (s.childId h job b) with
    | some e => if e.st = .absent ∨ e.st = .late then none else some (h, e)
    | none => none) (s.part v).halls

/-- A RELAY to the partner over a digest route. Its SRC is the rank word of the hall whose transfer it is, its DEST the one that
says what the partner makes of it (log 14). -/
def State.relayToPartner (s : State) (v : Fn) (src dest : Nat) (x : XHdr) (data : List Byte) : State :=
  match s.nextRoute v with
  | none => s
  | some r => ((s.digestOver v r { x with kind := kDIGEST, key := 0, shard := 0, node := 0 }
      (Lead.none.bytes ++ (DBody.of 5).bytes ++ xhdrBytes x ++ data) (some (src, dest))).flipRoute v).countRelay v

/-- The RELAYs that an ANSWER has promised, of transfers that a hall's ledger now holds whole (R274). -/
def State.relaysDue (s : State) (h : Nat) : State :=
  match s.ownerOf h with
  | none => s
  | some v => (s.part v).relayDue.foldl (fun s d =>
      match ((s.hall d.1).job d.2.job).rx? d.2 with
      | some e => if e.st = .full then
          (s.relayToPartner v (s.rank d.1) (s.rank d.1) (xhdrOf d.2 0) e.data).modPart v fun p => { p with relayDue := p.relayDue.erase d }
        else s
      | none => s) s

def execUp (hall port : Nat) (s : State) : Out := whenRunning s fun s => (s.takeKind hall port kUP).relaysDue hall

/-- The child's first frame stands in a receive buffer of the partition. -/
def State.childWaits (s : State) (v : Fn) (job : Nat) (b : DBody) : Bool :=
  (s.part v).halls.any fun h => (List.range 5).any fun i => ((s.hall h).port i).rxbuf.any fun f =>
    arrived f && (match f.hdr with
      | some x => x.first && xferOf x == s.childId h job b
      | none => false)

/-- A partner's PROPOSE (R274). A transfer that has been taken is answered so, and its RELAY follows once the ledger holds it
whole; a proposal that meets this leg's own is settled as absent agreed. `taken`: the arbiter grants the taking of a first
frame that has reached the hall, which then comes first and leaves the proposal waiting. -/
def State.digestPropose (s : State) (h i : Nat) (taken : Bool) : State :=
  match s.takeDigest h i 3 with
  | none => s.dropDigest h i 3
  | some (v, _, x, b, t) =>
    if t.proposes v x.job b then t.markChild v x.job b
    else match t.childTaken v x.job b with
    | some (k, e) =>
      ((t.sendDigest v x.job { b with sub := 4, result := 2 }).modPart v fun p =>
        { p with relayDue := p.relayDue ++ [(k, e.id)] }).relaysDue k
    | none =>
      if taken && t.childWaits v x.job b then s
      else (t.markChild v x.job b).sendDigest v x.job { b with sub := 4, result := 1 }

def execDigestPropose (hall port : Nat) (taken : Bool) (s : State) : Out :=
  whenRunning s (·.digestPropose hall port taken)

def State.digestAnswer (s : State) (h i : Nat) : State :=
  match s.takeDigest h i 4 with
  | none => s.dropDigest h i 4
  | some (v, _, x, b, s) => if b.result = 1 then s.markChild v x.job b else s.unpropose v x.job b

def execDigestAnswer (hall port : Nat) (s : State) : Out := whenRunning s (·.digestAnswer hall port)

/-- Collect the frames of a RELAY in the ledger of its job: the whole payload with the last frame. The frames of one source
come in order over one port. -/
def HJob.gather (j : HJob) (f : Frame) (x : XHdr) (port : Nat) : HJob × Option (List Byte) :=
  let id := { xferOf x with shard := port, node := f.src }
  let old := if x.first then ⟨id, .open_, [], f.src, f.vc, port, f.ret, false⟩
    else (j.rx? id).getD ⟨id, .open_, [], f.src, f.vc, port, f.ret, false⟩
  let data := if x.offset = old.data.length then old.data ++ f.payload else old.data
  if x.last && x.offset + f.payload.length == data.length then
    ({ j with rx := j.rx.filter (·.id != id) }, some data)
  else (j.putRx { old with data := data }, none)

/-- The hall of a leg that stands where a hall of its partner does: bases are multiples of the hall count (R314). -/
def State.twinHall (s : State) (v : Fn) (rank : Nat) : Nat := (s.part v).base + rankHall rank % (s.part v).count

/-- A rank word names a hall of the leg's partner. -/
def State.partnerRank (s : State) (v : Fn) (rank : Nat) : Bool :=
  match (s.part v).plan.bind Plan.scissor with
  | none => false
  | some x =>
    if x.form = 0 then rankChain rank == s.chainAddr.toNat && (s.part v).halls.contains ((rankHall rank + 4) % 8)
    else rankChain rank == x.partner

/-- What a relayed request asks for is served as to one that arrived directly. The answer's own way leads to the leg that is
lost, so that it is answered DOWN at once; the partner then takes it as a RELAY (R277; log 14). -/
def State.serveRelayed (s : State) (h : Nat) (f : Frame) (x : XHdr) : State :=
  let put := fun (y : XHdr) (data : List Byte) => s.modHJob h y.job (·.serve (servedEnt f y data (some (7, 0))))
  let poisoned := fun (r : Refuse) => match r.poison with
    | some a => s.log h ⟨0x11, x.job, 0, 0xFFFF, a⟩
    | none => s
  if x.kind = kMEZZREQ then (match s.mezzData h f with
    | .ok data => put { x with kind := kMEZZDATA } data
    | .error r => poisoned r)
  else match s.jobAt h x.job with
    | none => s
    | some q => if ((s.hall h).job x.job).epoch ≠ x.epoch then s.countStray h x else match s.pullData h q f x with
      | .ok (face, first, n, data) =>
        let y := { x with kind := kPULLDATA }
        (s.countPull h q face first n).modHJob h y.job (·.serve (servedEnt f y data (some (7, 0))))
      | .error r => poisoned r

/-- A transfer that the partner passes on is taken in its hall as though it had arrived directly (R277): of another tree it fails its
command, and it counts as a stray or as late as one that arrived would. Its sender has the receipt of the RELAY, and of its own
copy. -/
def State.takeRelayed (s : State) (h i : Nat) (f : Frame) (x : XHdr) (body : List Byte) : State :=
  let f := { f with payload := body }
  let x := { x with first := true, last := true, offset := 0 }
  if x.kind = kMEZZ then (s.mezzTake h f x).1
  else if x.kind = kPULLREQ ∨ x.kind = kMEZZREQ then s.serveRelayed h f x
  else (s.takeXfer h i f x).1.modHJob h x.job fun j => { j with proposed := j.proposed.filter (· != xferOf x) }

/-- The partner's own transfer, which found no way: it is answered with the receipt of this leg's copy, once there is one. -/
def State.askRelayed (s : State) (v : Fn) (h own : Nat) (f : Frame) (x : XHdr) : State :=
  match ((((s.hall own).job x.job).sent? (xferOf x)).bind TxEnt.receipt) with
  | some (code, reason) => s.reply h f x code reason
  | none => s.modPart v fun p => { p with relayAsks := p.relayAsks ++ [⟨xferOf x, own, h, f.src, f.ret⟩] }

/-- A RELAY (R277). One whose DEST is the hall's own rank word comes from a single leg and goes on to the partner, under that
DEST; one whose SRC and DEST are two halls, the first of the partner, is the partner's own transfer, wherever it goes; one whose DEST
names the partner's hall is what the partner passes on, or has promised (log 14). -/
def State.digestRelay (s : State) (h i : Nat) : State :=
  match s.takeRx h i fun x f => x.kind == kDIGEST && (!x.first || (DBody.parse f.payload 64).sub == 5) with
  | none => s
  | some (f, x, s) => match s.ownerOf h with
    | none => s
    | some v =>
      let r := ((s.hall h).job x.job).gather f x i
      let s := s.modHJob h x.job fun _ => r.1
      match r.2 with
      | none => s
      | some data =>
        let s := s.reply h f x 1 0
        let inner := parseXHdr (bytesAt data 128 32)
        let body := data.drop 160
        if f.dest = s.rank h then (if (s.part v).scState = 1 then s.relayToPartner v f.src f.dest inner body else s)
        else if s.partnerRank v f.dest ∧ (f.src = f.dest ∨ s.partnerRank v f.src = false) then s.takeRelayed (s.twinHall v f.dest) i f inner body
        else s.askRelayed v h (s.twinHall v f.src) f inner

def execDigestRelay (hall port : Nat) (s : State) : Out := whenRunning s (·.digestRelay hall port)

def State.digestRetire (s : State) (h i : Nat) : State :=
  match s.takeDigest h i 6 with
  | none => s.dropDigest h i 6
  | some (v, _, _, _, s) => s.standAlone v 1

def execDigestRetire (hall port : Nat) (s : State) : Out := whenRunning s (·.digestRetire hall port)

def State.digestPause (s : State) (h i : Nat) : State :=
  match s.takeDigest h i 7 with
  | none => s.dropDigest h i 7
  | some (v, _, _, _, s) => s.modPart v fun p => { p with paused := true }

def execDigestPause (hall port : Nat) (s : State) : Out := whenRunning s (·.digestPause hall port)

/-- 30 µs without a DIGEST frame, in FORM 1, unless the partner has paused. -/
def State.silence (s : State) (v : Fn) : State :=
  match (s.part v).plan.bind Plan.scissor with
  | some x => if x.form = 1 ∧ (s.part v).paused = false then s.standAlone v 2 else s
  | none => s

def execScissorSilence (v : Fn) (s : State) : Out := whenRunning s (·.silence v)

/-- A paired leg's transfer without a receipt within 30 µs, or with a DOWN receipt, goes to the partner as a RELAY. -/
def State.relayTimeout (s : State) (h : Nat) (id : XferId) : State :=
  match s.ownerOf h with
  | none => s
  | some v => match ((s.hall h).job id.job).sent? id with
    | none => s
    | some t =>
      if (s.part v).scState = 1 ∧ (t.receipt.isNone ∨ (t.receipt.map (·.1)) = some 7) then
        (s.modHJob h id.job fun j => j.putSent { t with relay := true, receipt := none }).relayToPartner v (s.rank h) t.dest (xhdrOf id 0) t.data
      else s

def execRelayTimeout (hall job key round shard node kind : Nat) (s : State) : Out :=
  whenRunning s fun s => s.relayTimeout hall (s.xid hall job kind key round shard node)

end Sys2Proof.Machine
end

