-- ==== Sys2Proof/Machine/Ports.lean ====
section
/-! DEFINITION. The rows of the frame layer that reach above it: receipts (R218), frames that find a port down (R209), resends
and retraining (R208, R212, R262), and a port's control register (R322). -/

namespace Sys2Proof.Machine

/-! ### Receipts (R218) -/

/-- The hall that a receipt at hall h concerns: the one that its DEST names, in the same partition. -/
def State.hallFor (s : State) (h rank : Nat) : Nat :=
  if rankChain rank = s.chainAddr.toNat ∧ s.ownerOf (rankHall rank) = s.ownerOf h then rankHall rank else h

/-- A receipt of a transfer that hall h sent over a port. -/
def State.receiptHere (s : State) (h num : Nat) (id : XferId) (code reason : Nat) : State :=
  if id.kind = kDIGEST then (match s.ownerOf h with
    | some v => s.digestReceipt v (portSite num).1 num id code
    | none => s)
  else s.takeReceipt h id code reason

/-- A RECEIPT: its payload is the header of the transfer that it answers. -/
def State.receiptRow (s : State) (h i : Nat) : State :=
  match s.takeRx h i fun x _ => x.kind == kRECEIPT with
  | none => s
  | some (f, x, s) => s.receiptHere (s.hallFor h f.dest) (portNum h i) (xferOf (parseXHdr f.payload)) x.code x.reason

def execReceipt (hall port : Nat) (s : State) : Out := whenRunning s (·.receiptRow hall port)

/-! ### Frames that leave a port, or find it down (R209) -/

/-- A frame whose next port, of hall h, is down: its transfer is answered DOWN once. At the hall where it begins there is no way
back to go, and the receipt is taken there. -/
def State.downFrame (s : State) (h i : Nat) (f : Frame) : State :=
  match f.hdr with
  | none => s
  | some x =>
    let e := (f.src, xferOf x)
    let said := ((s.hall h).port i).downSaid.contains e
    let s := s.modPort h i fun p =>
      { p with downSaid := if x.last then p.downSaid.filter (· != e) else if said then p.downSaid else p.downSaid ++ [e] }
    let s := s.endServing (portNum h i) f
    if said ∨ x.kind = kRECEIPT then s
    else if f.ret.isEmpty then s.receiptHere (s.hallFor h f.src) (portNum h i) (xferOf x) 7 0
    else s.reply h f x 7 0

/-- The frame that a port has just sent. -/
def Port.sent? (before after : Port) : Option Frame := if before.txSeq = after.txSeq then none else after.retry.getLast?

/-- The frame layer below the virtual channels keeps running in a freeze (09, Freeze); transfers above it do not. -/
def State.frameTransmit (s : State) (h i : Nat) : State :=
  let p := (s.hall h).port i
  if p.usable then
    let s := s.modPort h i Port.sendOne
    match p.sent? p.sendOne with
    | some f => s.endServing (portNum h i) f
    | none => s
  else if p.training then s
  else match p.waiting with
    | [] => s
    | f :: _ => (s.modPort h i Port.dropWaiting).downFrame h i f

def execFrameTransmit (hall port : Nat) (s : State) : Out := whenRunning s (·.frameTransmit hall port)

/-- A transit frame leaves over the port that PORTS names at HOPIDX (R214). -/
def State.transit (s : State) (h i : Nat) : State :=
  match pickRx (fun f => !arrived f) [] ((s.hall h).port i).rxbuf with
  | none => s
  | some f =>
    let s := (s.modPort h i fun p => { p with rxbuf := dropFirst f p.rxbuf }).credit h i f
    let num := f.ports.getD f.hopIdx 0
    if (s.portOf num).up || (s.portOf num).training then s.enqueue [f]
    else s.downFrame (portSite num).1 (portSite num).2 f

def execTransitForward (hall port : Nat) (s : State) : Out := whenRunning s (·.transit hall port)

/-! ### Resends and retraining -/

/-- LNAK: the unacknowledged frames go out again, which is evidence against the hall's commands (R212, R272). -/
def State.lnak (s : State) (h i : Nat) (f : Frame) : State :=
  if ((s.hall h).port i).usable then
    let s := s.modPort h i fun p => p.takeHeader f
    (s.modPort h i Port.resend).evidence h ((s.hall h).port i).retry.length
  else s

def execLnak (hall port : Nat) (f : Frame) (s : State) : Out :=
  .next (if f.typ = tLNAK && frameOk f then s.lnak hall port f else s)

/-- Ports that a route takes inside the device: around the inner ring, and the one that it leaves by. -/
def innerPorts : List Nat → List Nat
  | [] => []
  | n :: r => if n < 24 then [n] else n :: innerPorts r

/-- Paired legs with a route over a port, but for routes to the partner, which give way to one another (R270; log 101). -/
def State.legsOver (s : State) (num : Nat) : List Fn :=
  ((List.range 8).map (· + 1)).filter fun v => (s.part v).scState == 1 && match (s.part v).plan with
    | some p => p.routes.flatten.any fun r => (innerPorts r.ports).contains num && !s.partnerRank v r.dest
    | none => false

/-- The training ends. A port that was up and falls takes the paired legs that route over it out of their pairs (Table 09-1). -/
def State.retrainEnd (s : State) (h i : Nat) (good : Byte) (peerAck : Nat) : State :=
  let p := (s.hall h).port i
  let t := s.retrained h i good peerAck
  let q := (t.hall h).port i
  if q.up then (if p.up then t.evidence h q.retry.length else t)
  else if p.training ∧ p.up then (s.legsOver (portNum h i)).foldl (fun t v => t.leavePair v) t
  else t

def execPortRetrainComplete (hall port : Nat) (lanes : Byte) (peerAck : Nat) (s : State) : Out :=
  .next (s.retrainEnd hall port lanes peerAck)

/-! ### CNC_PORT_CTRL -/

/-- HOLD_DOWN (R322). -/
def State.setHoldDown (s : State) (h i : Nat) (on : Bool) : State :=
  let s := s.modPort h i fun p => { p with holdDown := on }
  let p := (s.hall h).port i
  if on ∧ (p.up ∨ p.training) then s.portDown h i else s

/-- BAR0 offset of a port's control register. -/
def portCtrlOff (h i : Nat) : Nat := 0x0100000 + h * 0x0100000 + 0x13004 + 8 * i

/-- CNC_PORT_CTRL (Table 11-15): only the physical function; RETRAIN offers all eight lanes, and is refused on an inner-ring port and
while HOLD_DOWN is 1. Until the training ends the lanes carry what they carried (R210). -/
def State.portCtrl (s : State) (fn : Fn) (h i : Nat) (retrain hold : Bool) : State :=
  if fn ≠ 0 then s.accessErr fn
  else if s.freezing ∧ (retrain ∨ s.heldAt (portCtrlOff h i)) then
    s.record fn (portCtrlOff h i) (BitVec.ofNat 32 (b2n retrain + 2 * b2n hold))
  else
    let was := ((s.hall h).port i).holdDown
    let s := s.setHoldDown h i hold
    if !retrain then s
    else if 3 ≤ i ∨ was ∨ hold then s.accessErr fn
    else s.modPort h i fun p => { p with training := true, offer := 0xFF }

def execRetrain (fn : Fn) (hall port : Nat) (holdDown : Bool) (s : State) : Out :=
  .next (s.portCtrl fn hall port true holdDown)
def execHoldDown (fn : Fn) (hall port : Nat) (on : Bool) (s : State) : Out := .next (s.portCtrl fn hall port false on)

end Sys2Proof.Machine
end

