-- ==== Sys2Proof/Machine/Faults.lean ====
section
/-! DEFINITION. Faults and their recovery: NOTIFY frames, witness strikes and fencing, hall loss, memory errors and poison,
residue checks (R88, R89, R99, R104, R262 to R268, R298, R299). -/

namespace Sys2Proof.Machine

/-! ### Frames on the chain (Tables 10-9, 10-10) -/

/-- Every byte of a chain frame before its CRC. -/
def chainBytes (f : ChainFrame) : List Byte :=
  f.typ :: f.flags :: natLE f.dest.toNat 3 ++ natLE f.src.toNat 3 ++ natLE f.payload.length 1 ++ f.payload

def chainOk (f : ChainFrame) : Bool := f.crc == crc16 (chainBytes f)
def sealChain (f : ChainFrame) : ChainFrame := { f with crc := crc16 (chainBytes f) }

/-- SRC of a frame that this device originates. -/
def State.chainSrc (s : State) : BitVec 24 := if s.chainValid then s.chainAddr.setWidth 24 else 0x40000

def State.emitChain (s : State) (f : ChainFrame) : State :=
  match s.chainStage with
  | .held => s
  | .bypass => s
  | _ => { s with chainOut := s.chainOut ++ [sealChain f] }

/-- A NOTIFY: its byte 0 and the hall, or 0xFF. Its DEST is the device's own SRC: no other device consumes it, and it comes back
to the controller (log 15). -/
def State.notice (s : State) (what hall : Nat) : ChainFrame :=
  ⟨6, 1, if s.chainValid then s.chainSrc else 0x3FFFF, s.chainSrc, natLE what 1 ++ natLE hall 1 ++ natLE 0 6, 0⟩

def State.notify (s : State) (what hall : Nat) : State := s.emitChain (s.notice what hall)

/-! ### Hall loss (R268) -/

/-- The logical hall number of a hall in its partition, or its own where it belongs to none. -/
def State.unitOf (s : State) (h : Nat) : Nat :=
  match s.ownerOf h with
  | some v => h - (s.part v).base
  | none => h

/-- Power-gate a hall: its domains fall and its ports go silent. -/
def Hall.gate (H : Hall) : Hall :=
  { H with
    present := false, domains := 0, raising := [], serving := [], gals := H.gals.map fun e => (e.1, { e.2 with powered := false }),
    ports := H.ports.map fun e => (e.1, { e.2 with up := false, training := false, lanes := 0, offer := 0 }) }

/-- An inner-ring port that faces a silent hall goes down. -/
def State.ringDown (s : State) (h i : Nat) : State :=
  if s.hallOk h ∧ ((s.hall h).port i).up then s.portDown h i else s

def State.loseHall (s : State) (h : Nat) : State :=
  if s.hallOk h then
    let unit := s.unitOf h
    let own := s.ownerOf h
    let s := s.modHall h Hall.gate
    let s := { s with hallmap := s.hallmap &&& ~~~(1#8 <<< h) }
    let s := (s.ringDown ((h + 7) % 8) 4).ringDown ((h + 1) % 8) 3
    let s := s.present.foldl (fun s k => s.log k (LogEnt.of 0x0C unit)) s
    let s := s.notify 2 h
    match own with
    | none => s
    | some v =>
      let other := s.partnerPart v
      let s := if (s.part v).scState = 1 then s.leavePair v else s.failAll v 0x0902
      match other with
      | some w => s.standAlone w 2
      | none => s
  else s

def execHallLoss (hall : Nat) (s : State) : Out := .next (s.loseHall hall)

/-! ### Spares and the strike window (R89, R110) -/

/-- The lowest free spare of a hall (Table 03-7, R110, R111). -/
def Hall.freeSpare (H : Hall) : Option Nat :=
  (List.range 64).find? fun g => let x := H.gal g; x.role == 2 && !x.fenced && x.serves.isNone

def State.strikeWin (s : State) (h : Nat) : Nat :=
  match s.ownerOf h with
  | some v => ((s.part v).plan.map Plan.strikeWin).getD 65536
  | none => 65536

/-! ### Residue checks (R265) -/

/-- A residue mismatch on a lane of the Newel (unit 0) or the Riser (unit 1); the command is then killed by its caller. -/
def State.residueHit (s : State) (h job pass unit lane : Nat) : State :=
  let H := s.hall h
  let key := 64 * unit + lane
  let s := s.modHall h fun H =>
    { H with nwlResidue := if unit = 0 then satAdd 255 H.nwlResidue 1 else H.nwlResidue,
             rsrResidue := if unit = 1 then satAdd 255 H.rsrResidue 1 else H.rsrResidue,
             resStrike := (key, H.allCommits) :: H.resStrike.filter (·.1 != key) }
  let s := s.log h ⟨7, job, lane, pass, 0⟩
  match H.resStrike.find? (·.1 == key) with
  | some e => if H.allCommits - e.2 < 1048576 then s.loseHall h else s
  | none => s

/-! ### Memory errors and poison (R99, R263, R264) -/

/-- A command stages the byte: it lies in the staging face of one of its tensors. -/
def Cmd.stages (c : Cmd) (h addr : Nat) : Bool :=
  c.att.staged.any fun x => x.hall == h && (x.d.faceSpans x.face).any fun sp => sp.overlaps (addr, 1)

/-- A job's ledger in a hall holds an entry of an uncommitted round. -/
def HJob.openLedger (j : HJob) : Bool :=
  j.rx.any (fun e => decide (j.counter e.id.kind e.id.key ≤ e.id.round)) || j.tx.any fun t => decide (j.counter t.id.kind t.id.key ≤ t.id.round)

/-- The byte lies in the ledger of a page's job (R247, R251), and in an entry of an uncommitted round: where in the ledger an
entry stands is open, so any byte of a ledger that holds one is taken for it (log 102). -/
def State.inLedger (s : State) (q : Page) (h addr : Nat) : Bool :=
  let j := (s.hall h).job (pageJob q)
  (s.job q).resident && j.openLedger && Span.overlaps ((j.hbmBase + j.hbmSize - j.ledger) * 65536, j.ledger * 65536) (addr, 1)

def State.paired (s : State) (h : Nat) : Option Fn :=
  match s.ownerOf h with
  | some v => if (s.part v).scState = 1 then some v else none
  | none => none

/-- Committed state is lost: the leg that holds it leaves its pair. -/
def State.poisonLeave (s : State) (h : Nat) : State :=
  match s.paired h with
  | some v => s.leavePair v
  | none => s

def State.hbmUncorrectable (s : State) (h addr : Nat) : State :=
  let s := s.modHall h fun H => { H with hbmUncorr := satAdd 255 H.hbmUncorr 1 }
  match (s.hallCmds h).find? fun x => x.2.stages h addr || s.inLedger x.1 h addr with
  | some x =>
    (s.log h ⟨3, pageJob x.1, 0, if x.2.opcode = opRUN then x.2.desc.pass else 0xFFFF, addr⟩).killCmd x.1 x.2.slot true
  | none =>
    let s := s.modHall h fun H => { H with poison := if H.poison.contains (addr / 32) then H.poison else H.poison ++ [addr / 32] }
    (s.log h ⟨3, 0x80, 0, 0xFFFF, addr⟩).poisonLeave h

def execHbmUncorrectableError (hall addr : Nat) (s : State) : Out :=
  .next (if s.hallOk hall then s.hbmUncorrectable hall addr else s)

/-- The scrubber reads a granule, but for a frozen device (R282). DESIGN CHOICE: R263 has the code detect two flipped bits and says
nothing of three or more, which the model has detected too (log 148). -/
def execPatrolScrub (hall granule flipped : Nat) (s : State) : Out :=
  whenRunning s fun s =>
    if !s.hallOk hall ∨ flipped = 0 then s
    else if flipped = 1 then
      ((s.modHall hall fun H => { H with hbmCorr := satAdd 0xFFFF H.hbmCorr 1 }).log hall
        ⟨2, 0, 0, 0xFFFF, 32 * granule⟩).evidence hall 1
    else s.hbmUncorrectable hall (32 * granule)

/-- The target retrains and its requests replay, which leaves nothing behind but the log. -/
def execHbmInterfaceError (hall target : Nat) (s : State) : Out :=
  .next (if s.hallOk hall then s.log hall (LogEnt.of 0x0A target) else s)

/-- A running command holds the row as a twin. -/
def Cmd.twins (c : Cmd) (h row : Nat) : Bool := c.att.twins.any fun t => t.hall == h && t.phys == row

def State.undercroftEcc (s : State) (h row : Nat) (corrected : Bool) : State :=
  if corrected then
    ((s.modHall h fun H => { H with uncCorr := satAdd 0xFFFF H.uncCorr 1 }).log h ⟨2, 0, row % 64, 0xFFFF, 0⟩).evidence h 1
  else
    let s := s.modHall h fun H => { H with uncUncorr := satAdd 255 H.uncUncorr 1 }
    match (s.hallCmds h).find? fun x => x.2.twins h row with
    | some x => (s.log h ⟨3, pageJob x.1, row % 64, if x.2.opcode = opRUN then x.2.desc.pass else 0xFFFF, 0⟩).killCmd x.1
        x.2.slot true
    | none =>
      if (s.hall h).taken.contains row then
        let s := s.modHall h fun H =>
          { H with poisonRows := if H.poisonRows.contains row then H.poisonRows else H.poisonRows ++ [row] }
        (s.log h ⟨3, 0x80, row % 64, 0xFFFF, 0⟩).poisonLeave h
      else s.log h ⟨3, 0, row % 64, 0xFFFF, 0⟩

def execUndercroftEccError (hall row : Nat) (corrected : Bool) (s : State) : Out :=
  .next (if s.hallOk hall then s.undercroftEcc hall row corrected else s)

/-! ### Concentrated windows (R104) -/

def concWindow (H : Hall) (counts : List Nat) : Hall :=
  let top := counts.foldl max 0
  if 8192 < top then
    let best := (List.range counts.length).filter fun i => counts.getD i 0 == top
    let t := match best with
      | [i] => i
      | l => l.getD (Config.tieTarget counts % l.length) 0
    { H with concCount := satAdd 0xFFFF H.concCount 1, concTarget := t, concAlert := true }
  else H

def execHbmConcWindow (hall : Nat) (counts : List Nat) (s : State) : Out :=
  .next (if s.hallOk hall then s.modHall hall (concWindow · counts) else s)

end Sys2Proof.Machine
end

