-- ==== Sys2Proof/Machine/Flags.lean ====
section
/-! DEFINITION. The tile status word (Table 02-6, R67 to R69). -/

namespace Sys2Proof.Machine

def Pos.lt (a b : Pos) : Bool :=
  decide (a.1 < b.1) || (a.1 == b.1 && (decide (a.2.1 < b.2.1) || (a.2.1 == b.2.1 && decide (a.2.2 < b.2.2))))

/-- K-chunk index of an accumulation or a store. -/
abbrev posStore : Nat := 0xFFFF

def satFlag : Flags := { Flags.none with sat := true }

def minPos (l : List Event) : Option Pos :=
  l.foldl (fun m e => some (match m with
    | none => e.1
    | some p => if e.1.lt p then e.1 else p)) none

/-- The word of one tile from the events in it. -/
def tileWord (ev : List Event) : DWord :=
  let ev := ev.filter fun e => e.2.any
  match minPos ev with
  | none => 0x700
  | some p =>
    let fl := ev.foldl (fun f e => f.or e.2) Flags.none
    let k := ((ev.filter (·.1 == p)).foldl (fun f e => f.or e.2) Flags.none).kind
    let n := min 255 (ev.map (·.1)).eraseDups.length
    BitVec.ofNat 64 (fl.bits + k * 2 ^ 8 + p.1 % 2 ^ 16 * 2 ^ 16 + p.2.1 % 64 * 2 ^ 32 + p.2.2 % 64 * 2 ^ 38 + n * 2 ^ 48)

def twFlags (w : DWord) : Nat := fld w.toNat 0 6
def twKind (w : DWord) : Nat := fld w.toNat 8 3
def twPos (w : DWord) : Nat := fld w.toNat 48 8
/-- FIRST_KIND, FIRST_CHUNK, FIRST_ROW and FIRST_COL in their places. -/
def twFirst (w : DWord) : Nat := fld w.toNat 8 3 * 2 ^ 8 + fld w.toNat 16 28 * 2 ^ 16

/-- Roll-up of two words in tile order (R69). -/
def rollTwo (a b : DWord) : DWord :=
  BitVec.ofNat 64 ((twFlags a ||| twFlags b) + twFirst (if twKind a = 7 then b else a) + min 255 (twPos a + twPos b) * 2 ^ 48)

def rollup (ws : List DWord) : DWord := ws.foldl rollTwo 0x700

/-- Tile order within a command: logical hall, operation, token-row tile, output group (R69). -/
def Tile.before (a b : Tile) : Bool :=
  decide (a.hall < b.hall) || (a.hall == b.hall && (decide (a.op < b.op) || (a.op == b.op &&
    (decide (a.trow < b.trow) || (a.trow == b.trow && decide (a.og < b.og))))))

def insertTile (t : Tile) : List Tile → List Tile
  | [] => [t]
  | x :: r => if t.before x then t :: x :: r else x :: insertTile t r

def sortTiles (l : List Tile) : List Tile := l.foldl (fun r t => insertTile t r) []

/-- The status word of a tile. -/
def Tile.word (t : Tile) : DWord := tileWord t.ev

/-- A tile takes more events; a tile has one status word, whichever of its stores raises them. -/
def Tile.add (t : Tile) : List Tile → List Tile
  | [] => [t]
  | x :: r =>
    if x.hall = t.hall ∧ x.pass = t.pass ∧ x.op = t.op ∧ x.trow = t.trow ∧ x.og = t.og then { x with ev := x.ev ++ t.ev } :: r
    else x :: Tile.add t r

/-- The tiles of an operation with its events, by tile. -/
def tilesOf (hall pass op : Nat) (ev : List ((Nat × Nat) × Event)) (all : List (Nat × Nat)) : List Tile :=
  all.map fun k => ⟨hall, pass, op, k.1, k.2, (ev.filter (·.1 == k)).map (·.2)⟩

def Attempt.addTiles (a : Attempt) (l : List Tile) : Attempt := { a with tiles := l.foldl (fun ts t => t.add ts) a.tiles }

/-- A saturation on a store of an element of an output tile (R39). -/
def TilePos.stored (p : TilePos) (hall : Nat) : Tile :=
  ⟨hall, p.pass, p.op, p.trow, p.og, [((posStore, p.row, p.col), satFlag)]⟩

end Sys2Proof.Machine
end

