-- ==== Sys2Proof/Machine/Rows.lean ====
section
/-! DEFINITION. Undercroft rows as a running command sees them: twins, tags, level slots (R91 to R97, R354). -/

namespace Sys2Proof.Machine

/-! ### Rows and twins (R91, R92) -/

/-- Physical row of a job's logical row. -/
def Hall.phys? (H : Hall) (j l : Nat) : Option Nat := ((H.job j).rowMap.find? (·.1 == l)).map (·.2)

def State.att (s : State) (q : Page) (slot : Nat) : Attempt := ((s.cmd? q slot).map Cmd.att).getD Attempt.empty

def Attempt.twin? (a : Attempt) (h l : Nat) : Option Twin := a.twins.find? fun t => t.hall == h && t.lrow == l

def Attempt.oldRow? (a : Attempt) (h l : Nat) : Option OldRow := a.oldRows.find? fun r => r.hall == h && r.lrow == l

/-- The content a command sees: its twin, or the row committed at its dispatch (R161). -/
def State.viewRow (s : State) (q : Page) (slot h l : Nat) : URow :=
  match (s.att q slot).twin? h l, (s.att q slot).oldRow? h l with
  | some t, _ => t.row
  | none, some r => r.row
  | none, none => match (s.hall h).phys? (pageJob q) l with
    | some p => (s.hall h).row p
    | none => URow.free

/-- Physical rows of a bank that no job and no running command holds. -/
def State.freeRows (s : State) (h bank : Nat) : List Nat :=
  let H := s.hall h
  let twins := match s.ownerOf h with
    | some v => (s.running v).flatMap fun (x : Page × Cmd) => (x.2.att.twins.filter fun (t : Twin) => t.hall == h).map Twin.phys
    | none => []
  ((List.range 1024).map fun i => 64 * i + bank).filter fun p => !H.taken.contains p && !twins.contains p

/-- Write a row: the first write of a command takes a twin in the same bank, which one being free (log 2). DESIGN CHOICE: the pool
that R92 reserves is counted over the banks of a hall; with no free row in the one bank the twin is a free row of the next bank that
has one, and with none at all physical row l mod 64 (log 91). -/
def State.setRow (s : State) (q : Page) (slot h l : Nat) (r : URow) : State :=
  match (s.att q slot).twin? h l with
  | some _ => s.modAtt q slot fun a =>
      { a with twins := a.twins.map fun t => if t.hall = h ∧ t.lrow = l then { t with row := r } else t }
  | none =>
    let c := (((List.range 64).map fun i => s.freeRows h ((l + i) % 64)).find? (!·.isEmpty)).getD []
    let (n, s) := s.fresh
    let p := c.getD (Config.freeNat n % c.length) (l % 64)
    s.modAtt q slot fun a => { a with twins := a.twins ++ [⟨h, l, p, r⟩] }

/-- Rows that a command leaves free at its commit. -/
def State.releaseRows (s : State) (q : Page) (slot h : Nat) (ls : List Nat) : State :=
  s.modAtt q slot fun a => { a with freed := a.freed ++ ls.map fun l => (h, l) }

/-- A committed row that is poisoned (R264). -/
def State.rowPoisoned (s : State) (q : Page) (slot h l : Nat) : Bool :=
  match (s.att q slot).twin? h l, (s.att q slot).oldRow? h l with
  | some _, _ => false
  | none, some r => r.poison
  | none, none => match (s.hall h).phys? (pageJob q) l with
    | some p => (s.hall h).poisonRows.contains p
    | none => false

/-! ### Reading a row group (R94, R354) -/

def State.readGroup (s : State) (q : Page) (slot h l : Nat) (slots sfmt : Option Nat) : Except Nat (List Word) :=
  let r := s.viewRow q slot h l
  if ((s.hall h).phys? (pageJob q) l).isNone then .error 0x0601
  else if s.rowPoisoned q slot h l then .error 0x0903
  else if r.tag.state ≠ 2 then .error 0x0309
  else if (slots.getD r.tag.slots != r.tag.slots) || (sfmt.getD r.tag.sfmt != r.tag.sfmt) then .error 0x0308
  else .ok r.data

/-- Slot count in the tag of a row. -/
def State.slotsAt (s : State) (q : Page) (slot h l : Nat) : Nat := slotCount (s.viewRow q slot h l).tag.slots

/-- Map with failure, in list order. -/
def mapE {α β : Type} (f : α → Except Nat β) : List α → Except Nat (List β)
  | [] => .ok []
  | x :: r => match f x with
    | .error e => .error e
    | .ok y => match mapE f r with
      | .error e => .error e
      | .ok ys => .ok (y :: ys)

/-- Fold with failure. -/
def foldE {α σ : Type} (f : σ → α → Except Nat σ) : σ → List α → Except Nat σ
  | x, [] => .ok x
  | x, a :: r => match f x a with
    | .error e => .error e
    | .ok y => foldE f y r

/-- n row groups of S slots from a base. -/
def State.readGroups (s : State) (q : Page) (slot h base n S : Nat) (slots sfmt : Option Nat) :
    Except Nat (List (List Word)) :=
  mapE (fun i => s.readGroup q slot h (base + i * S) slots sfmt) (List.range n)

/-! ### Accepting a partial (R94 to R96) -/

/-- One addition of rows, older on the left, with the flags of each column. -/
def addRows (a b : List Word) : List Word × List Flags :=
  let r := List.zipWith (fun x y => addF x.toNat y.toNat) a b
  (r.map fun x => BitVec.ofNat 32 x.1, r.map (·.2))

def orFlags (a b : List Flags) : List Flags := List.zipWith Flags.or a b
def noFlags : List Flags := List.replicate 64 Flags.none

/-- The carry of R96: the level at which the partial comes to rest, the partial, the slots still occupied. -/
def carryUp (S : Nat) (data : List (List Word)) : Nat → Nat → List Word → List Nat → List Flags →
    Nat × List Word × List Nat × List Flags
  | 0, l, c, occ, fl => (l, c, occ, fl)
  | f + 1, l, c, occ, fl =>
    if l < S - 1 ∧ occ.contains l then
      let (c', g) := addRows (data.getD l []) c
      carryUp S data f (l + 1) c' (occ.filter (· != l)) (orFlags fl g)
    else (l, c, occ, fl)

/-- The final fold, highest level first. -/
def foldSlots (data : List (List Word)) : List Nat → List Flags → List Word × List Flags
  | [], fl => (List.replicate 64 0, fl)
  | l :: ls, fl => ls.foldl (fun (st : List Word × List Flags) k =>
      let (c, g) := addRows st.1 (data.getD k [])
      (c, orFlags st.2 g)) (data.getD l [], fl)

/-- R96 on a row's tag and slots: the new tag, the slots written with their content, the flags of each column. -/
def acceptRow (tag : Tag) (data : List (List Word)) (v : List Word) (m : Nat) :
    Tag × List (Nat × List Word) × List Flags :=
  let S := slotCount tag.slots
  let (l, c, occ, fl) := carryUp S data S 0 v tag.occ noFlags
  let (c, fl) := if occ.contains l then
      (let (c', g) := addRows (data.getD l []) c
       (c', orFlags fl g)) else (c, fl)
  let occ := if occ.contains l then occ else occ ++ [l]
  let data := data.set l c
  let count := tag.count + m
  if count = tag.chunks then
    let (r, fl) := foldSlots data (((List.range S).reverse).filter occ.contains) fl
    ({ tag with occ := [0], count := count, state := 2 }, if l = 0 then [(0, r)] else [(l, c), (0, r)], fl)
  else ({ tag with occ := (List.range S).filter occ.contains, count := count, state := 1 }, [(l, c)], fl)

/-- What a partial carries: PASS, ACC, SFMT, SLOTS code, CHUNKS. -/
structure RowKey where
  (pass acc sfmt slots chunks : Nat)
deriving DecidableEq, Repr

def Tag.key (t : Tag) : RowKey := ⟨t.pass, t.acc, t.sfmt, t.slots, t.chunks⟩
def RowKey.tag (k : RowKey) : Tag := ⟨k.pass, k.acc, k.sfmt, k.slots, 1, [], k.chunks, 0⟩

/-- A partial enters the row group at logical row a. A poisoned row that it would read, that of the tag or of an occupied level
slot, fails the command (R264). -/
def State.accept (s : State) (q : Page) (slot h a : Nat) (k : RowKey) (v : List Word) (m : Nat) :
    Except Nat (State × List Flags) :=
  let r := s.viewRow q slot h a
  let t := if r.tag.state = 0 then k.tag else r.tag
  let S := slotCount k.slots
  if ((List.range S).any fun i => ((s.hall h).phys? (pageJob q) (a + i)).isNone) then .error 0x0601
  else if s.rowPoisoned q slot h a || (r.tag.state == 1 && r.tag.occ.any fun i => s.rowPoisoned q slot h (a + i)) then .error 0x0903
  else if t.state ≠ 1 then .error 0x0309
  else if t.key ≠ k then .error 0x0308
  else if t.chunks < t.count + m then .error 0x030A
  else
    let data := (List.range S).map fun i => (s.viewRow q slot h (a + i)).data
    let (t', ws, fl) := acceptRow t data v m
    let s := ws.foldl (fun s w =>
      s.setRow q slot h (a + w.1) { s.viewRow q slot h (a + w.1) with data := w.2 }) s
    .ok (s.setRow q slot h a { s.viewRow q slot h a with tag := t' }, fl)

end Sys2Proof.Machine
end

