-- ==== Sys2Proof/Machine/Staging.lean ====
section
/-! DEFINITION. Faces as a running command reads and stages them (R159, R185 to R189, R225, R352). -/

namespace Sys2Proof.Machine

/-! ### Reading the committed face of the dispatch (R159) -/

/-- The use that binds a tensor in a hall; a tensor bound in no face of the hall is read where it lies. -/
def Attempt.use? (a : Attempt) (h t : Nat) : Option Use :=
  match a.uses.find? fun u => u.d.tensor == t && !u.d.host && u.hall == h with
  | some u => some u
  | none => a.uses.find? fun u => u.d.tensor == t

def State.useMem (s : State) (u : Use) : Mem := if u.d.host then s.host else (s.hall u.hall).hbm

/-- The face of a use without its side list. -/
def State.bareFace (s : State) (u : Use) : Face :=
  { m := s.useMem u, d := u.d, k := u.face, coarse := u.coarse, aff := Affine.ofNat u.aff, side := [] }

/-- The face that a use reads; a malformed side list fails the reader (R30). -/
def State.useFace (s : State) (u : Use) : Except Nat Face :=
  if u.d.w.side then
    match readSide (s.useMem u) (u.d.sideBase u.face) u.d.elems with
    | some es => .ok { s.bareFace u with side := es }
    | none => .error errFmtSide
  else .ok (s.bareFace u)

/-- Where a read of these runs of a use's memory meets poison (R264). -/
def State.usePoison (s : State) (u : Use) (l : List Span) : Option Nat :=
  if u.d.host then none else (s.hall u.hall).poisonIn l

/-- A read of some runs of a use's memory: poison that it meets is its error. -/
def State.readsClean (s : State) (u : Use) (l : List Span) : Except Nat Unit :=
  match s.usePoison u l with
  | some a => .error (poisonErr a)
  | none => .ok ()

/-- Bytes of n columns from c0 on of some rows, with their fine codes and the side list; a packed row may use its whole
pitch. A read of no row reads nothing. -/
def Use.boxSpans (u : Use) (packed : Bool) (rows : List Nat) (c0 n : Nat) : List Span :=
  let d := u.d
  let b := fmtBits d.w.fmt
  let c1 := min (c0 + n) d.cols
  let rows := rows.filter fun r => r < d.rows ∧ c0 < c1
  rows.flatMap (fun r =>
      (if packed then (d.base u.face + r * d.pitch, d.pitch)
       else (d.base u.face + r * d.pitch + c0 * b / 8, ceilDiv (c1 * b) 8 - c0 * b / 8))
      :: (if d.w.plane then [(d.planeBase u.face + r * d.blocks + c0 / d.w.blk, ceilDiv c1 d.w.blk - c0 / d.w.blk)] else []))
    ++ (if d.w.side ∧ rows ≠ [] then [(d.sideBase u.face, 8 + 8 * 4096)] else [])

/-- Bytes of whole rows. -/
def Use.rowSpans (u : Use) (packed : Bool) (rows : List Nat) : List Span := u.boxSpans packed rows 0 u.d.cols

/-- Read some bytes of the face of a use. With no byte needed, nothing is read. -/
def State.readUse (s : State) (u : Use) (l : List Span) : Except Nat Face :=
  if l.isEmpty then .ok (s.bareFace u)
  else match s.readsClean u l with
    | .error e => .error e
    | .ok _ => s.useFace u

/-- Read the face of a tensor, of which the operation needs some bytes: its use and its face, or the error that stops the
command. -/
def State.readTensorBy (s : State) (q : Page) (slot h t : Nat) (spans : Use → List Span) : Except Nat (Use × Face) :=
  match (s.att q slot).use? h t with
  | none => .error 0x030D
  | some u => match s.readUse u (spans u) with
    | .error e => .error e
    | .ok f => .ok (u, f)

/-- Read some rows of a tensor. -/
def State.readTensor (s : State) (q : Page) (slot h t : Nat) (packed : Bool) (rows : List Nat) :
    Except Nat (Use × Face) := s.readTensorBy q slot h t fun u => u.rowSpans packed rows

def Plan.isPacked (p : Option Plan) (t : Nat) : Bool :=
  match p with
  | some x => t != 0xFFFF && x.packed t
  | none => false

/-! ### Moving a face between coarse scales (R225) -/

/-- A ZT2 block encoded again at a fine code that is clamped: its one magnitude saturates above, and underflows to zero below,
as R39 has it for the ZL formats (DESIGN CHOICE, log 84). -/
def refitZt2 (f : Int) (vs : List Val) : Nat × List ElOut :=
  (tc 8 (clampI (-127) 127 f), vs.map fun v =>
    let x := v.toW
    let code := if x.cls ≠ .fin ∨ f < -127 then 0 else if x.s then 3 else 1
    { code := code, sat := x.cls == .fin && decide (127 < f), zero := code == 0, under := x.cls == .fin && code == 0,
      nonfin := false, inv := false, sq := none, log := none })

/-- A block moved from coarse scale cs to cd: fine code, codes, and the elements that were encoded again. -/
def recoarseBlock (w : FmtWord) (aff : Affine) (cs cd : Int) (fine : Nat) (codes : List Nat)
    (entries : List (Option Nat)) : Nat × List Nat × List ElOut :=
  let f := sext 8 fine + 8 * (cs - cd)
  if cs = cd ∨ fine = 0x80 ∨ !(w.zl || (w.fmt == fmtZT2 && w.plane)) then (fine, codes, [])
  else if w.plane ∧ -127 ≤ f ∧ f ≤ 127 then (tc 8 f, codes, [])
  else
    let vs := (codes.zip entries).map fun (c, e) => decodeVal w cs aff fine e c
    if w.fmt = fmtZT2 then
      let r := refitZt2 f vs
      (r.1, r.2.map ElOut.code, r.2)
    else
      let esc := (codes.zip entries).map fun p => w.side && p.1 == 0xFF && p.2.isSome
      let b := encodeBlock ⟨w, cd, aff⟩ none esc vs
      (b.fine, b.els.map ElOut.code, b.els)

/-- Codes of a row of a face, as stored bytes give them. -/
def rowCodesAt (m : Mem) (d : TDesc) (k : Nat) (packed : Bool) (r : Nat) : List Nat :=
  let f : Face := { m := m, d := d, k := k, coarse := 0, aff := Affine.ofNat 0, side := [] }
  (f.rowCodes packed r).getD []

def finesAt (m : Mem) (d : TDesc) (k r : Nat) : List Nat :=
  if d.w.plane then (memReads m (d.planeBase k + r * d.blocks) d.blocks).map BitVec.toNat else List.replicate d.blocks 0

/-- Bytes of a packed row from its codes and fine codes. -/
def packRowOf (fines codes : List Nat) : List Byte :=
  packRow ((chunksOf 32 codes).zipIdx.map fun (c, j) => (fines.getD j 0, c ++ List.replicate (32 - c.length) 0))

/-- Put codes of a row from column col0 on; a packed row is put whole. No byte beyond the row of the descriptor is
written. -/
def putRowCodes (m : Mem) (d : TDesc) (k : Nat) (packed : Bool) (r col0 : Nat) (fines codes : List Nat) : Mem :=
  if d.rows ≤ r then m
  else if packed then memWrites m (d.base k + r * d.pitch) ((packRowOf fines codes).take d.pitch)
  else putCodes m d.w.fmt (d.base k + r * d.pitch) col0 (codes.take (d.cols - col0))

/-- Put fine codes of a row from block j on, as far as the row has blocks. -/
def putFines (m : Mem) (d : TDesc) (k r j : Nat) (fines : List Nat) : Mem :=
  if d.w.plane ∧ r < d.rows then
    memWrites m (d.planeBase k + r * d.blocks + j) ((fines.take (d.blocks - j)).map (BitVec.ofNat 8))
  else m

/-- Put a side list, of which a tensor has room for 4,096 entries (R29). -/
def putSide (m : Mem) (d : TDesc) (k : Nat) (b : List Byte) : Mem :=
  if d.w.side then memWrites m (d.sideBase k) (b.take TDesc.sideLen) else m

/-- Move blocks j0 to j1 − 1 of row r of a face; the list names each block encoded again. -/
def recoarseRow (d : TDesc) (k : Nat) (packed : Bool) (aff : Affine) (cs cd : Int) (j0 j1 : Nat)
    (side : List (Nat × Nat)) (st : Mem × List (Nat × Nat × List ElOut)) (r : Nat) :
    Mem × List (Nat × Nat × List ElOut) :=
  let fines := finesAt st.1 d k r
  let codes := rowCodesAt st.1 d k packed r
  let blks : List (Nat × List Nat × List ElOut) := (chunksOf d.w.blk codes).zipIdx.map fun (c, j) =>
    let fine := fines.getD j 0
    if j0 ≤ j ∧ j < j1 then
      recoarseBlock d.w aff cs cd fine c
        ((List.range c.length).map fun i => (side.find? (·.1 == r * d.cols + d.w.blk * j + i)).map (·.2))
    else (fine, c, [])
  let newCodes := blks.flatMap fun b => b.2.1
  let m := if newCodes = codes then st.1 else putRowCodes st.1 d k packed r 0 (blks.map (·.1)) newCodes
  (putFines m d k r 0 (blks.map (·.1)),
   st.2 ++ blks.zipIdx.filterMap fun (b, j) => if b.2.2.isEmpty then none else some (r, j, b.2.2))

def recoarseRows (m : Mem) (d : TDesc) (k : Nat) (packed : Bool) (aff : Affine) (cs cd : Int) (rows : List Nat)
    (j0 j1 : Nat) (side : List (Nat × Nat)) : Mem × List (Nat × Nat × List ElOut) :=
  if cs = cd then (m, []) else rows.foldl (recoarseRow d k packed aff cs cd j0 j1 side) (m, [])

/-! ### Bytes that a BAR2 write met (R164) -/

/-- n free bytes, words or numbers. -/
def State.freshList {α : Type} (s : State) (f : Nat → α) (n : Nat) : List α × State :=
  ((List.range n).map fun i => f (s.free + i), { s with free := s.free + n })

/-- Free bytes in runs of a hall's stack. -/
def State.freeRuns (s : State) (h : Nat) (l : List Span) : State :=
  l.foldl (fun s sp =>
    let r := s.freshList Config.freeByte sp.2
    r.2.modHall h fun H => { H with hbm := memWrites H.hbm sp.1 r.1 }) s

/-- The memory with free bytes in place of those that BAR2 writes met while an attempt was in flight. -/
def State.freeHits (s : State) (a : Attempt) : State := a.hits.foldl (fun s e => s.freeRuns e.1 [e.2]) s

/-- The memory as the command sees it. -/
def State.unsure (s : State) (c : Cmd) : State := s.freeHits c.att

/-! ### Opening a staging face -/

/-- Writers of a face (R185): values encoded, stored codes moved, LOAD and COPY. -/
inductive Writer where
  | encoded
  | moved
  | loaded
deriving DecidableEq, Repr

/-- The coarse scale with which a writer stages a face (R185), and whether the write is in per-row mode (R188). -/
def Use.writeCoarse (u : Use) : Writer → Int × Bool
  | .loaded => (u.d.w.coarse, false)
  | .encoded => (u.wcoarse, u.wrows)
  | .moved => (u.wcoarse, false)

def copyRun (m : Mem) (src dst n : Nat) : Mem := memWrites m dst (memReads m src n)

/-- Copy face k of a descriptor onto its other face. -/
def copyFace (m : Mem) (d : TDesc) (k : Nat) (packed : Bool) : Mem :=
  let m := (List.range d.rows).foldl (fun m r =>
    copyRun m (d.base k + r * d.pitch) (d.base (1 - k) + r * d.pitch) (if packed then d.pitch else d.rowBytes)) m
  let m := if d.w.plane then copyRun m (d.planeBase k) (d.planeBase (1 - k)) (d.rows * d.blocks) else m
  if d.w.side then copyRun m (d.sideBase k) (d.sideBase (1 - k)) (8 + 8 * min 4096 (leNat (memReads m (d.sideBase k) 4)))
  else m

def Attempt.staged? (a : Attempt) (u : Use) : Option Staged :=
  a.staged.find? fun x => x.hall == u.hall && x.d.pair == u.d.pair

/-- Where rows of a descriptor's elements lie as element numbers and block numbers. -/
def TDesc.blockOf (d : TDesc) (i : Nat) : Nat := i / d.cols * d.blocks + i % d.cols / d.w.blk

def runsHave (runs : List (Nat × Nat)) (i : Nat) : Bool := runs.any fun r => decide (r.1 ≤ i) && decide (i < r.1 + r.2)

/-- The affine word of a staged face before its own codes give it one: without DERIVE it is always the descriptor's (R352). -/
def Use.firstAff (u : Use) (w : Writer) : Nat := if w = .loaded ∨ !u.d.w.derive_ then u.d.affRaw else u.aff

/-- The elements that moving a face to another coarse scale encoded again. -/
def refits (d : TDesc) (l : List (Nat × Nat × List ElOut)) : List (Nat × Bool × Bool) :=
  l.flatMap fun x => x.2.2.zipIdx.map fun p => (x.1 * d.cols + x.2.1 * d.w.blk + p.2, p.1.sat, p.1.under)

/-- The first write of a command to a tensor: the staging face takes the committed face, moved to the coarse scale of the
write (R159, R225). Each write sets whether it uses per-row scales (R188). -/
def State.openFace (s : State) (q : Page) (slot : Nat) (u : Use) (w : Writer) : State :=
  match (s.att q slot).staged? u with
  | some _ => s.modAtt q slot fun a =>
      { a with perRow := if (u.writeCoarse w).2 then a.perRow ++ [u.hall] else a.perRow,
               staged := a.staged.map fun x =>
                 if x.hall = u.hall ∧ x.d.pair = u.d.pair then { x with perRow := (u.writeCoarse w).2 } else x }
  | none =>
    let H := s.hall u.hall
    let packed := Plan.isPacked (s.plan? q) u.d.tensor
    let (c, perRow) := u.writeCoarse w
    let side := if u.d.w.side then (readSide H.hbm (u.d.sideBase u.face) u.d.elems).getD [] else []
    let r := recoarseRows (copyFace H.hbm u.d u.face packed) u.d (1 - u.face) packed (Affine.ofNat u.aff) u.coarse c
      (List.range u.d.rows) 0 u.d.blocks side
    let st : Staged :=
      { hall := u.hall, d := u.d, face := 1 - u.face, old := u.coarse, coarse := c, aff := u.firstAff w,
        affs := [(0, u.d.elems, u.aff)], perRow := perRow, packed := packed, vals := [], cands := [], wrote := [], wplane := [], lplane := [], wside := false, refit := refits u.d r.2,
        clears := w == .loaded }
    (s.modHall u.hall fun H => { H with hbm := r.1 }).modAtt q slot fun a =>
      { a with staged := a.staged ++ [st], perRow := if perRow then a.perRow ++ [u.hall] else a.perRow }

def State.modStaged (s : State) (q : Page) (slot : Nat) (u : Use) (f : Staged → Staged) : State :=
  s.modAtt q slot fun a =>
    { a with staged := a.staged.map fun x => if x.hall = u.hall ∧ x.d.pair = u.d.pair then f x else x }

/-- A staged face takes the affine word of the codes it receives; without DERIVE it keeps the descriptor's (R352). DESIGN CHOICE: R352
gives a face one word and names no winner among several: where moves of one command bring different words, the face carries that of
the last (log 133). -/
def State.faceAffine (s : State) (q : Page) (slot : Nat) (u : Use) (a : Nat) : State :=
  if u.d.w.derive_ then s.modStaged q slot u fun st => { st with aff := a } else s

/-- Change the memory that holds a staged face. -/
def State.modFace (s : State) (u : Use) (f : Mem → Mem) : State := s.modHall u.hall fun H => { H with hbm := f H.hbm }

/-! ### Side lists of staged faces (R31, R32) -/

/-- Entries of a staged face's side list before it is cut to 4,096: those of the committed face in the blocks that the command
has not written, and the candidates of the elements that it wrote (log 105). -/
def State.sideOf (s : State) (st : Staged) : List (Nat × Nat) :=
  let m := (s.hall st.hall).hbm
  let at_ := fun k => (readSide m (st.d.sideBase k) st.d.elems).getD []
  if !st.d.w.side then []
  else if st.wside then at_ st.face
  else st.cands.foldl (fun t c => tabSet t c.idx c.bits)
    ((at_ (1 - st.face)).filter fun e => !runsHave st.wplane (st.d.blockOf e.1))

/-- The affine word of an element's code: of a DERIVE tensor, that of the last move that brought the code, else that of the committed
face which the fill took it from (R352). -/
def Staged.affAt (st : Staged) (i : Nat) : Nat :=
  if st.d.w.derive_ then
    ((st.affs.find? fun a => decide (a.1 ≤ i) && decide (i < a.1 + a.2.1)).map (·.2.2)).getD st.aff
  else st.aff

/-- Codes of some runs came with the face's affine word in place of what the command wrote there before. -/
def Staged.moved (st : Staged) (runs : List (Nat × Nat)) : Staged :=
  { st with affs := runs.map (fun r => (r.1, r.2, st.aff)) ++ st.affs, vals := st.vals.filter fun v => !runsHave runs v.idx }

/-- A value of the staged face as it stands. A listed outlier of it that a block encoded anew takes again keeps its entry as this
value gives it, the W-form of R31 rounded to FP32, and not the committed entry's bits (DESIGN CHOICE, log 105). -/
def State.stagedVal (s : State) (st : Staged) (r c : Nat) : Val :=
  let f : Face := { m := (s.hall st.hall).hbm, d := st.d, k := st.face, coarse := st.coarse,
                    aff := Affine.ofNat (st.affAt (r * st.d.cols + c)), side := s.sideOf st }
  f.val r c

/-- Blocks that a write encodes or moves: their planes' runs, the elements that are the command's own, and the candidates
among them. -/
def Staged.take (st : Staged) (runs blks : List (Nat × Nat)) (cs : List Cand) : Staged :=
  { st with wrote := st.wrote ++ runs, wplane := st.wplane ++ blks,
            cands := st.cands.filter (fun c => !runsHave blks (st.d.blockOf c.idx)) ++ cs }

/-! ### Statistics and histories (R187, R189) -/

def Attempt.stat (a : Attempt) (h t : Nat) (c : Int) : Stat :=
  ((a.stats.find? fun x => x.1 == h && x.2.tensor == t).map (·.2)).getD (Stat.empty t c)

def Attempt.putStat (a : Attempt) (h : Nat) (x : Stat) : Attempt :=
  { a with stats := a.stats.filter (fun y => !(y.1 == h && y.2.tensor == x.tensor)) ++ [(h, x)] }

/-- Change the statistics of a managed tensor that a write reaches, whose face has coarse scale c. -/
def State.modStat (s : State) (q : Page) (slot : Nat) (u : Use) (c : Int) (f : Stat → Stat) : State :=
  if Plan.managedT (s.plan? q) u.d.tensor then
    s.modAtt q slot fun a => a.putStat u.hall (f { a.stat u.hall u.d.tensor c with coarse := c, wrote := true })
  else s

def Attempt.pushMax (a : Attempt) (h t : Nat) (m : Option Int) : Attempt :=
  match m with
  | none => a
  | some x =>
    match a.hist.find? fun y => y.1 == h && y.2.1 == t with
    | some y => { a with hist := a.hist.filter (fun z => !(z.1 == h && z.2.1 == t)) ++ [(h, t, max x y.2.2)] }
    | none => { a with hist := a.hist ++ [(h, t, x)] }

/-- A finite value's squared errors, by element, for the sums of a managed tensor's entry (R189). -/
def State.addSqs (s : State) (q : Page) (slot : Nat) (u : Use) (l : List (Nat × Nat)) : State :=
  if Plan.managedT (s.plan? q) u.d.tensor then
    s.modAtt q slot fun a => { a with sqs := a.sqs ++ l.map fun e => (u.hall, u.d.tensor, e.1, e.2) }
  else s

/-- Count n codes 0b10 that a command reads of a managed ZT2 tensor (R18, Table 06-5). DESIGN CHOICE: such a read makes the
tensor's entry of the step where no write has, with the coarse scale of the face read (log 104). -/
def State.countInvalid (s : State) (q : Page) (slot : Nat) (u : Use) (n : Nat) : State :=
  if n ≠ 0 ∧ Plan.managedT (s.plan? q) u.d.tensor then
    s.modAtt q slot fun a =>
      let z := a.stat u.hall u.d.tensor u.coarse
      a.putStat u.hall { z with invalidT := satAdd 0xFFFFFFFF z.invalidT n }
  else s

/-- Count what a command reads of the face of a use: elements with their codes. -/
def State.countRead (s : State) (q : Page) (slot : Nat) (u : Use) (els : List (Nat × Nat)) : State :=
  let f := s.bareFace u
  s.countInvalid q slot u (els.filter fun e =>
    u.d.w.fmt == fmtZT2 && invalidCode u.d.w.fmt (f.fineAt (e.1 / u.d.cols) (e.1 % u.d.cols)) e.2).length

/-- Count what a command reads of columns of some rows of the face of a use. -/
def State.countFace (s : State) (q : Page) (slot : Nat) (u : Use) (packed : Bool) (rows : List Nat) (col n : Nat) : State :=
  match s.useFace u with
  | .ok f => s.countRead q slot u ((rows.filter (· < u.d.rows)).flatMap fun r =>
      ((((f.rowCodes packed r).getD []).drop col).take n).zipIdx.map fun (c, i) => (r * u.d.cols + col + i, c))
  | .error _ => s

/-! ### Writing encoded rows (R32, R42, R153, R188) -/

def allTiles (nrows ncols : Nat) : List (Nat × Nat) :=
  (List.range (ceilDiv nrows 64)).flatMap fun i => (List.range (ceilDiv ncols 64)).map fun k => (i, k)

/-- Where a write belongs, by row and column of the tensor: the output tile that an element comes from (R39, R68), and whether
it is an element of the command's own, or one that is encoded anew with its block. -/
structure WriteCtx where
  at_ : Nat → Nat → Option TilePos
  own : Nat → Nat → Bool

/-- A write of whole blocks that no output tile stands behind. -/
def WriteCtx.plain : WriteCtx := ⟨fun _ _ => none, fun _ _ => true⟩

/-- The blocks of a rectangle of values as a staged face takes them, and the candidates among them. -/
def Staged.encodeRows (st : Staged) (first col0 : Nat) (vals : List (List Val)) : List (List BlockOut) × List (Nat × Val) :=
  let d := st.d
  let e : Enc1 := ⟨d.w, st.coarse, Affine.ofNat st.aff⟩
  let es := candidates e (vals.zipIdx.flatMap fun (row, i) => row.zipIdx.map fun (v, k) =>
    ((first + i) * d.cols + col0 + k, v))
  (vals.zipIdx.map fun (row, i) => encodeRow e st.perRow es ((first + i) * d.cols + col0) col0 row, es)

/-- A candidate with the output tile it came from, which a block encoded anew keeps. -/
def Staged.cand (st : Staged) (x : WriteCtx) (p : Nat × Val) : Cand :=
  let r := p.1 / st.d.cols
  let c := p.1 % st.d.cols
  ⟨p.1, p.2.toF32, p.2.toW.bits, if x.own r c then x.at_ r c else (st.cands.find? (·.idx == p.1)).bind Cand.at_⟩

/-- Elements of written rows with their places: row, column, element. -/
def placed (first col0 : Nat) (rows : List (List BlockOut)) : List (Nat × Nat × ElOut) :=
  rows.zipIdx.flatMap fun (bs, i) => (bs.flatMap BlockOut.els).zipIdx.map fun (e, k) => (first + i, col0 + k, e)

/-- Put written blocks, rows from row `first` and column col0 on, into the staged face, with their candidates, statistics,
history and tile statuses. Every saturation is counted; the other counts are those of the command's own elements. -/
def State.putBlocks (s : State) (q : Page) (slot : Nat) (u : Use) (x : WriteCtx) (first col0 nc : Nat)
    (rows : List (List BlockOut)) (cs : List (Nat × Val)) : State :=
  match (s.att q slot).staged? u with
  | none => s
  | some st =>
    let d := u.d
    let j := col0 / d.w.blk
    let all := placed first col0 rows
    let mine := all.filter fun p => x.own p.1 p.2.1
    let others := all.filter fun p => !x.own p.1 p.2.1
    let s := s.modFace u fun m => rows.zipIdx.foldl (fun m (bs, i) =>
      putFines (putRowCodes m d st.face st.packed (first + i) col0 (bs.map BlockOut.fine) (Machine.rowCodes bs)) d st.face
        (first + i) j (bs.map BlockOut.fine)) m
    let s := s.modStaged q slot u fun st => st.take (runsOf (mine.map fun p => p.1 * d.cols + p.2.1))
      ((List.range rows.length).map fun i => ((first + i) * d.blocks + j, ceilDiv nc d.w.blk)) (cs.map (st.cand x))
    let s := s.modStat q slot u st.coarse fun z =>
      let z := statAdd z (mine.map fun p => p.2.2)
      let z := { z with sats := satAdd 0xFFFFFFFF z.sats (others.filter fun p => p.2.2.sat).length,
                        degenerate := satAdd 0xFFFFFFFF z.degenerate (rows.flatten.filter BlockOut.degen).length }
      if st.packed then
        { z with packed := satAdd 0xFFFFFFFF z.packed
                   ((rows.map fun bs => (packRowOf (bs.map BlockOut.fine) (Machine.rowCodes bs)).length).sum),
                 raw := satAdd 0xFFFFFFFF z.raw (nc * rows.length) }
      else z
    let s := s.addSqs q slot u (mine.filterMap fun p => p.2.2.sq.map fun v => (p.1 * d.cols + p.2.1, v))
    let s := if Plan.managedT (s.plan? q) d.tensor then
      s.modAtt q slot fun a => a.pushMax u.hall d.tensor (maxWritten (mine.map fun p => p.2.2)) else s
    s.modAtt q slot fun a => a.addTiles (mine.filterMap fun p =>
      if p.2.2.sat then (x.at_ p.1 p.2.1).map fun t => t.stored u.hall else none)

/-- Encode a rectangle of values, whole blocks of the rows, into the staged face, which is open. A DERIVE tensor keeps the
values until its affine word is known. -/
def State.putRows (s : State) (q : Page) (slot : Nat) (u : Use) (x : WriteCtx) (first col0 : Nat)
    (vals : List (List Val)) : State :=
  match (s.att q slot).staged? u with
  | none => s
  | some st =>
    let d := u.d
    if d.w.derive_ then
      let vs := (vals.zipIdx.flatMap fun (row, i) => row.zipIdx.map fun (v, k) => (first + i, col0 + k, v)).filter
        fun p => x.own p.1 p.2.1
      s.modStaged q slot u fun st =>
        { st with vals := st.vals ++ vs.map (fun p => ⟨p.1 * d.cols + p.2.1, p.2.2.toZiSrc, x.at_ p.1 p.2.1⟩),
                  wrote := st.wrote ++ runsOf (vs.map fun p => p.1 * d.cols + p.2.1) }
    else
      let r := st.encodeRows first col0 vals
      s.putBlocks q slot u x first col0 (vals.headD []).length r.1 r.2

/-- Columns c0 to c1 - 1 widened to whole blocks of a row of n columns. -/
def blockCols (b n c0 c1 : Nat) : Nat × Nat := (c0 / b * b, min n (ceilDiv c1 b * b))

/-- Rows of values widened to whole blocks with the elements that stand in the staged face: first column, rows. -/
def State.widen (s : State) (st : Staged) (first col0 : Nat) (vals : List (List Val)) : Nat × List (List Val) :=
  let nc := (vals.headD []).length
  let e := blockCols st.d.w.blk st.d.cols col0 (col0 + nc)
  (e.1, vals.zipIdx.map fun (row, i) => (List.range (e.2 - e.1)).map fun k =>
    if col0 ≤ e.1 + k ∧ e.1 + k < col0 + nc then row.getD (e.1 + k - col0) (.w W.zero)
    else s.stagedVal st (first + i) (e.1 + k))

/-- Encode a rectangle whose columns need not be whole blocks: each block that it meets takes its other elements from the
staged face and its fine code from all of them (R42). -/
def State.putSpan (s : State) (q : Page) (slot : Nat) (u : Use) (x : WriteCtx) (first col0 : Nat)
    (vals : List (List Val)) : State :=
  match (s.att q slot).staged? u with
  | none => s
  | some st =>
    let z := s.widen st first col0 vals
    let c1 := col0 + (vals.headD []).length
    s.putRows q slot u ⟨x.at_, fun r c => x.own r c && decide (col0 ≤ c) && decide (c < c1)⟩ first z.1 z.2

/-! ### Writing stored codes (R153, R225) -/

/-- Put stored codes and fine codes of rows at coarse scale cs into the staged face, from column col0 (a block edge), and
move them to its coarse scale. A packed target takes whole rows. The entries are those of the codes' own side list. Stored
codes count as written, and enter the history, as their values stand (log 81). -/
def State.putCodesRows (s : State) (q : Page) (slot : Nat) (u : Use) (first col0 : Nat) (cs : Int)
    (rows : List (List Nat × List Nat)) (side : List (Nat × Nat)) : State :=
  match (s.att q slot).staged? u with
  | none => s
  | some st =>
    let d := u.d
    let nc := (rows.headD ([], [])).1.length
    let j := ceilDiv col0 d.w.blk
    let nb := ceilDiv (col0 + nc) d.w.blk - j
    let m := rows.zipIdx.foldl (fun m (x, i) =>
      putFines (putRowCodes m d st.face st.packed (first + i) col0 x.2 x.1) d st.face (first + i) j x.2) (s.hall u.hall).hbm
    let aff := Affine.ofNat st.aff
    let r := recoarseRows m d st.face st.packed aff cs st.coarse
      ((List.range rows.length).map (first + ·)) j (j + nb) side
    let again := refits d r.2
    let s := s.modFace u fun _ => r.1
    let runs := (List.range rows.length).map fun i => ((first + i) * d.cols + col0, nc)
    let s := s.modStaged q slot u fun st =>
      (st.moved runs).take runs
        ((List.range rows.length).map fun i => ((first + i) * d.blocks + j, nb))
        (side.map fun e => ⟨e.1, e.2, (fp32ToW e.2).bits, none⟩)
    let els := (List.range rows.length).flatMap fun i =>
      let fines := finesAt r.1 d st.face (first + i)
      (((rowCodesAt r.1 d st.face st.packed (first + i)).drop col0).take nc).zipIdx.map fun (c, k) =>
        codeOut ⟨d.w, st.coarse, aff⟩ (fines.getD ((col0 + k) / d.w.blk) 0)
          ((side.find? (·.1 == (first + i) * d.cols + col0 + k)).map (·.2)) c
    let s := s.modStat q slot u st.coarse fun z =>
      let z := statAdd z els
      { z with sats := satAdd 0xFFFFFFFF z.sats (again.filter fun x => x.2.1).length,
               underflow := satAdd 0xFFFFFFFF z.underflow (again.filter fun x => x.2.2).length }
    if Plan.managedT (s.plan? q) d.tensor then s.modAtt q slot fun a => a.pushMax u.hall d.tensor (maxWritten els) else s

/-! ### The end of a staged face's writes -/

/-- Put the code of one element of a staged face. -/
def putElem (m : Mem) (st : Staged) (i code : Nat) : Mem :=
  let r := i / st.d.cols
  putRowCodes m st.d st.face st.packed r 0 (finesAt m st.d st.face r)
    ((rowCodesAt m st.d st.face st.packed r).set (i % st.d.cols) code)

/-- Take the last entry of an element out of a list. -/
def dropLast {α : Type} (p : α → Bool) (l : List α) : List α :=
  match l.reverse.span (fun e => !p e) with
  | (a, _ :: b) => b.reverse ++ a.reverse
  | (_, []) => l

/-- A candidate beyond the 4,096 entries is an ordinary element of its block at the block's fine code (R32). -/
def State.unlist (s : State) (q : Page) (slot : Nat) (u : Use) (st : Staged) (i bits : Nat) : State :=
  let fine := (finesAt (s.hall u.hall).hbm st.d st.face (i / st.d.cols)).getD (i % st.d.cols / st.d.w.blk) 0
  if fine = 0x80 then s
  else
    let c := st.cands.find? (·.idx == i)
    let v : Val := .w ((c.map fun c => W.ofBits c.w).getD (fp32ToW bits))
    let e : Enc1 := ⟨st.d.w, st.coarse, Affine.ofNat st.aff⟩
    let el := encodeEl e fine false v
    let s := s.modFace u fun m => putElem m st i el.code
    let s := s.modStat q slot u st.coarse fun z =>
      { z with sats := satAdd 0xFFFFFFFF z.sats (b2n el.sat), zeros := satAdd 0xFFFFFFFF z.zeros (b2n el.zero),
               underflow := satAdd 0xFFFFFFFF z.underflow (b2n el.under) }
    s.modAtt q slot fun a =>
      let mine := fun (h t j : Nat) => h == u.hall && t == st.d.tensor && j == i
      let a := if c.isSome then
          { a with sqs := dropLast (fun x => mine x.1 x.2.1 x.2.2.1) a.sqs ++ (el.sq.map fun v => (u.hall, st.d.tensor, i, v)).toList,
                   auds := a.auds.map fun x => if mine x.1 x.2.1 x.2.2.1 then
                     (x.1, x.2.1, i, (decodeVal e.w e.coarse e.aff fine none el.code).toF64, x.2.2.2.2) else x }
        else a
      a.addTiles (if el.sat then ((c.bind Cand.at_).map fun t => t.stored u.hall).toList else [])

/-- The side list of a staged face receives the entries of lowest element index, up to 4,096 (R32). -/
def State.settleSide (s : State) (q : Page) (slot : Nat) (u : Use) (st : Staged) : State :=
  if !st.d.w.side || st.wside then s
  else
    let es := s.sideOf st
    let s := s.modFace u fun m => putSide m st.d st.face (sideBytes (es.take 4096))
    let s := (es.drop 4096).foldl (fun s e => s.unlist q slot u st e.1 e.2) s
    s.modStaged q slot u fun x => { x with wside := true }

/-- Count the elements that the fill encoded again at the coarse scale of the write (R225). -/
def State.countRefits (s : State) (q : Page) (slot : Nat) (u : Use) (st : Staged) : State :=
  match st.refit.filter fun x => !runsHave st.wrote x.1 with
  | [] => s
  | l => (s.modStaged q slot u fun x => { x with refit := [] }).modStat q slot u st.coarse fun z =>
    { z with sats := satAdd 0xFFFFFFFF z.sats (l.filter fun x => x.2.1).length,
             underflow := satAdd 0xFFFFFFFF z.underflow (l.filter fun x => x.2.2).length }

end Sys2Proof.Machine
end

