-- ==== Sys2Proof/Machine/Oper.lean ====
section
/-! DEFINITION. How an operation of a running pass takes its turn, and what its end does to its command (R121, R162, R175). -/

namespace Sys2Proof.Machine

/-- An operation at its turn: where it runs, its command, its plan, its offset in the hall's share of the pass. -/
structure OpCtx where
  page : Page
  slot : Nat
  hall : Nat
  lh   : Nat
  plan : Plan
  cmd  : Cmd
  off  : Nat
  op   : Op
deriving DecidableEq, Repr

namespace OpCtx
def job (x : OpCtx) : Nat := pageJob x.page
def pass (x : OpCtx) : Nat := x.cmd.desc.pass
/-- The tiles of a write of rows: its own, counted from the corner of the rectangle that it writes (R69). DESIGN CHOICE: R39
speaks of the tile that a value comes from, which may belong to another operation or command (log 85). -/
def tiled (x : OpCtx) (first col0 : Nat) : WriteCtx :=
  ⟨fun r c => some ⟨x.off, x.pass, (r - first) / 64, (c - col0) / 64, (r - first) % 64, (c - col0) % 64⟩, fun _ _ => true⟩
end OpCtx

/-- The committed counters that an operation's command sees in its hall. -/
def State.seen (s : State) (x : OpCtx) : Seen := tabGet (s.hall x.hall).seen (s.att x.page x.slot).seen x.hall

/-- How an operation's step ends: completed, still waiting, its command fails, or its command is killed by a fault. -/
inductive OpEnd where
  | done (s : State)
  | wait (s : State)
  | fail (code : Nat)
  | kill (s : State)
deriving DecidableEq, Repr

def Attempt.doneAt (a : Attempt) (h : Nat) : List Nat := tabGet [] a.done h
def Attempt.addDone (a : Attempt) (h off : Nat) : Attempt := { a with done := tabSet a.done h (a.doneAt h ++ [off]) }

/-- Operation k of a share may start: every earlier one that it is ordered after has completed (R121). -/
def opReady (p : Plan) (i rank : Nat) (ops : List Op) (before : Nat → Nat) (done : List Nat) (k : Nat) : Bool :=
  decide (k < ops.length) && (List.range k).all fun j => done.contains j || !orderedAfter p i rank ops before j k

/-- Operation k of a share that starts from operation j on, directly or through others, only after it has completed (R121). -/
def afterOps (p : Plan) (i rank : Nat) (ops : List Op) (before : Nat → Nat) (j : Nat) : List Nat :=
  (List.range ops.length).foldl (fun l k =>
    if decide (j < k) && (j :: l).any (fun e => orderedAfter p i rank ops before e k) then l ++ [k] else l) []

/-- The operations of a kind, in the hall's share of the running pass and in record order, that have not completed and may
start. -/
def State.opsAt (s : State) (a : Site) (want : Plan → Op → Bool) : List OpCtx :=
  match s.plan? a.page, s.cmd? a.page a.slot with
  | some p, some c =>
    if c.phase = .running ∧ c.opcode = opRUN ∧ !c.noWork ∧ (s.pageHalls a.page).contains a.hall then
      let lh := a.hall - (s.part (pageFn a.page)).base
      let ops := p.passOps lh c.desc.pass
      let done := c.att.doneAt a.hall
      (List.range ops.length).filterMap fun k => match ops[k]? with
        | some o => if !done.contains k && want p o && opReady p lh (s.rank a.hall) ops (s.slotsAt a.page a.slot a.hall) done k then
            some ⟨a.page, a.slot, a.hall, lh, p, c, k, o⟩ else none
        | none => none
    else []
  | _, _ => []

/-- The first of them, whose turn it is. -/
def State.opAt (s : State) (a : Site) (want : Plan → Op → Bool) : Option OpCtx := (s.opsAt a want).head?

/-- An operation fails its command; a poisoned read is logged (R264). -/
def State.failOp (s : State) (x : OpCtx) (code : Nat) : State :=
  let s := if isPoison code then s.log x.hall ⟨0x11, x.job, 0, x.pass, code / 65536⟩ else s
  s.failCmd x.page x.slot (code % 65536) 0xFFFF

def State.endOp (s : State) (x : OpCtx) : OpEnd → State
  | .done t => t.modAtt x.page x.slot (·.addDone x.hall x.off)
  | .wait t => t
  | .fail code => s.failOp x code
  | .kill t => t.killCmd x.page x.slot true

/-- Operations take their turns until one of them ends: one that waits lets the next go on, since nothing orders the two (R121). -/
def State.turns (f : OpCtx → State → OpEnd) : List OpCtx → State → State
  | [], s => s
  | x :: r, s => match f x s with
    | .wait t => State.turns f r t
    | e => s.endOp x e

/-- The row of an operation: nothing happens when no operation of its kind is at its turn. -/
def runOp (a : Site) (want : Plan → Op → Bool) (f : OpCtx → State → OpEnd) (s : State) : Out :=
  whenRunning s fun s => State.turns f (s.opsAt a want) s

/-- An operation's effect that may fail with a code. -/
def OpEnd.ofExcept : Except Nat State → OpEnd
  | .ok s => .done s
  | .error e => .fail e

/-- Galleries that a record's mask names, as those that do their work now. -/
def Hall.galsOf (H : Hall) (mask : Nat) : List Nat := (maskList mask 64).map H.galOf

/-- Read row groups, taking their values as binary32 patterns. -/
def State.rowsAt (s : State) (x : OpCtx) (base n S : Nat) (slots sfmt : Option Nat) : Except Nat (List (List Word)) :=
  s.readGroups x.page x.slot x.hall base n S slots sfmt

/-- Enter one whole row, as a single partial, into a row of one slot. -/
def State.putSingle (s : State) (x : OpCtx) (row acc sfmt slots : Nat) (v : List Word) : Except Nat State :=
  match s.accept x.page x.slot x.hall row ⟨x.pass, acc, sfmt, slots, 1⟩ v 1 with
  | .error e => .error e
  | .ok r => .ok r.1

end Sys2Proof.Machine
end

