-- ==== Sys2Proof/Machine/Bays.lean ====
section
/-! DEFINITION. Bays: what a load writes, where a chunk is found, when a bay reloads (R75 to R84, R250, R355), and BAYLOAD. -/

namespace Sys2Proof.Machine

/-! ### Witness entries (R84) -/

/-- 2^(f / 2^14) to P fraction bits, by fourteen square roots. -/
def pow2Root (P f : Nat) : Nat :=
  (List.range 14).foldl (fun x i => Nat.sqrt (x * 2 ^ P * (if bit f i then 2 else 1))) (2 ^ P)

/-- Finite values with one fraction of an octave f: their exact sum is `num` × 2^(e + f / 2^14). -/
structure SumGrp where
  f   : Nat
  num : Int
deriving DecidableEq, Repr

/-- Exact sums by fraction, in units of 2^e; powers of two with different fractions are independent. -/
def sumGroups (e : Int) (l : List W) : List SumGrp :=
  let fr := fun (w : W) => (w.log % 16384).toNat
  ((l.map fr).eraseDups.map fun f =>
    ⟨f, ((l.filter fun w => fr w == f).map fun w => sgnI w.s (2 ^ (w.log / 16384 - e).toNat)).sum⟩).filter fun g => g.num != 0

/-- Round log2 |x| to the code of ZL16 at coarse scale c and fine scale 0. DESIGN CHOICE: no SAT policy is stated for witness
entries, and a sum beyond the ZL16 range is infinite (log 89). -/
def zl16OfLog (s : Bool) (k c : Int) : Nat :=
  let k := k - 512 * c
  if k < -16383 then 0 else if k > 16382 then sgn16 s 0x7FFF else sgn16 s (k + 16384).toNat

/-- The sum of finite values rounded once to ZL16; sums that are not a single power of two are irrational in their logs, and
1,024 fraction bits decide them. -/
def zl16Sum (c : Int) (l : List W) : Nat :=
  let fin := l.filter (·.cls == .fin)
  let e := fin.foldl (fun m w => min m (w.log / 16384)) 200
  match sumGroups e fin with
  | [] => 0
  | [g] =>
    if isPow2 g.num.natAbs then zl16OfLog (g.num < 0) (rne (((Nat.log2 g.num.natAbs : Int) + e) * 16384 + g.f) 5) c
    else
      let n := g.num.natAbs * pow2Root 1024 g.f
      zl16OfLog (g.num < 0) (rneLog2 9 n (e - 1024)) c
  | gs =>
    let n : Int := (gs.map fun g => g.num * (pow2Root 1024 g.f : Int)).sum
    zl16OfLog (n < 0) (rneLog2 9 n.natAbs (e - 1024)) c

/-- One witness entry of ZL or ZT2 elements: non-finite elements by Table 02-5. -/
def witnessEntry (c : Int) (l : List W) : Nat :=
  if l.any (·.cls == .nan) then 0x8000
  else
    let pos := l.any fun w => w.cls == .inf && !w.s
    let neg := l.any fun w => w.cls == .inf && w.s
    if pos && neg then 0x8000 else if pos then 0x7FFF else if neg then 0xFFFF else zl16Sum c l

def W.magnitude (w : W) : W := if w.cls = .fin ∨ w.cls = .inf then { w with s := false } else w

/-! ### A bay as its passes read it -/

/-- How a bay's element codes are read: format word, affine word, and the escape entries of the bay. -/
structure BayView where
  w   : FmtWord
  aff : Affine
  bay : Bay
  esc : List (Nat × Nat)
deriving DecidableEq, Repr

namespace BayView

/-- Blocks of one tile row. -/
def nblk (v : BayView) : Nat := max 1 (v.bay.width / v.bay.blk)
def code (v : BayView) (tile j t : Nat) : Nat := (v.bay.codes.getD tile []).getD (j * v.bay.width + t) 0
def fine (v : BayView) (tile j t : Nat) : Nat :=
  (v.bay.fines.getD tile []).getD (j * v.nblk + min (t / v.bay.blk) (v.nblk - 1)) 0x80
/-- Element number within the bay, as the escape store names it. -/
def elem (v : BayView) (tile j t : Nat) : Nat := (64 * tile + j) * v.bay.width + t
def el (v : BayView) (tile j t : Nat) : W :=
  (decodeVal v.w v.bay.coarse v.aff (v.fine tile j t)
    ((v.esc.find? (·.1 == v.elem tile j t)).map (·.2)) (v.code tile j t)).toW
/-- The integer code of an element (B-mode). -/
def int (v : BayView) (tile j t : Nat) : Int := sext (fmtBits v.bay.fmt) (v.code tile j t)

/-- Witness entries of a tile in the order of Table 03-5. -/
def witness (v : BayView) (tile : Nat) : List Nat :=
  let n := v.bay.width
  let col := fun (f : W → W) t => witnessEntry v.bay.coarse ((List.range 64).map fun j => f (v.el tile j t))
  let row := fun (f : W → W) t => witnessEntry v.bay.coarse ((List.range 64).map fun j => f (v.el tile t j))
  if fmtIsZI v.bay.fmt then (List.range n).map fun t => tc 32 ((List.range 64).map fun j => v.int tile j t).sum
  else if v.bay.fmt = fmtZT2 then (List.range n).map (col id)
  else (List.range n).map (col id) ++ (List.range n).map (col W.magnitude) ++ (List.range n).map (row id)
    ++ (List.range n).map (row W.magnitude)

end BayView

/-! ### Loading a bay -/

/-- Codes of one tile: rows from r0, columns from c0; the zero code outside the tensor. -/
def tileCodes (d : TDesc) (rows : List (List Nat)) (r0 c0 width : Nat) : List Nat :=
  (List.range 64).flatMap fun j => (List.range width).map fun t =>
    if r0 + j < d.rows ∧ c0 + t < d.cols then (rows.getD (r0 + j) []).getD (c0 + t) 0 else 0

/-- Fine codes of one tile: 0x80 for a block wholly beyond COLS (R355). DESIGN CHOICE: those of tile rows at or beyond ROWS are 0x80 too,
of which R355 gives the codes only (log 119). -/
def tileFines (f : Face) (r0 c0 width : Nat) : List Nat :=
  let b := f.d.w.blk
  (List.range 64).flatMap fun j => (List.range (max 1 (width / b))).map fun k =>
    let c := c0 + k * b
    if f.d.rows ≤ r0 + j ∨ f.d.cols ≤ c / b * b then 0x80 else f.fine (r0 + j) (c / b)

/-- Places of a bay's tiles: first row and first column of each. -/
def chunkTilesAt (width : Nat) (c : ChunkPos) : List (Nat × Nat) :=
  (List.range c.ktiles).map fun k => (64 * c.og, (c.ck * c.ktiles + k) * width)

/-- FMAX of a tile. DESIGN CHOICE: 0 for a tile whose fine codes are all 0x80, of which none is largest (log 88). -/
def tileFmax (fines : List Nat) : Int :=
  match (fines.filter (· != 0x80)).map (sext 8) with
  | [] => 0
  | x :: r => r.foldl max x

/-- ZT2 codes 0b10 of a bay outside its empty blocks. -/
def Bay.invalids (b : Bay) : Nat :=
  let nb := max 1 (b.width / b.blk)
  if b.fmt ≠ fmtZT2 then 0
  else (b.codes.zipIdx.map fun (l, i) => (l.zipIdx.filter fun (c, e) =>
    invalidCode b.fmt ((b.fines.getD i []).getD (e / b.width * nb + e % b.width / b.blk) 0) c).length).sum

/-- A bay loaded from a face, with the escape entries it needs. -/
def loadedBay (u : Use) (f : Face) (rows : List (List Nat)) (chunks : List ChunkPos) : Bay × List (Nat × Nat) :=
  let d := u.d
  let width := tileWidth d.w.fmt
  let places := chunks.flatMap (chunkTilesAt width)
  let codes := places.map fun p => tileCodes d rows p.1 p.2 width
  let fines := places.map fun p => tileFines f p.1 p.2 width
  let fm := fun i => if d.w.fmt = fmtZT2 then tileFmax (fines.getD i []) else 0
  let b : Bay :=
    { valid := true, fmt := d.w.fmt, coarse := f.coarse, tensor := d.tensor, gen := u.gen % 2 ^ 16, fmax := [fm 0, fm 1],
      bind := u.scope, chunks := chunks, codes := codes, fines := fines, blk := d.w.blk, width := width, wit := [],
      side := d.w.side }
  let nb := max 1 (width / d.w.blk)
  let esc := if d.w.side then
      (places.zipIdx.flatMap fun (p, i) => (List.range 64).flatMap fun j => (List.range width).filterMap fun t =>
        if (codes.getD i []).getD (j * width + t) 0 = 0xFF ∧ (fines.getD i []).getD (j * nb + t / d.w.blk) 0 ≠ 0x80 then
          some ((64 * i + j) * width + t, (f.entry ((p.1 + j) * d.cols + p.2 + t)).getD b32.nan) else none)
    else []
  let v : BayView := ⟨d.w, f.aff, b, esc⟩
  ({ b with wit := (List.range places.length).map v.witness }, esc)

/-- Rows of the face, unpacked where the tensor is packed (R181). -/
def faceRows (f : Face) (packed : Bool) (want : List Nat) : Except Nat (List (List Nat)) :=
  mapE (fun r => if want.contains r then
    (match f.rowCodes packed r with
     | some l => .ok l
     | none => .error 0x0310) else .ok []) (List.range f.d.rows)

/-- The bytes of a use that a bay of some chunks is loaded from. -/
def Use.baySpans (u : Use) (packed : Bool) (chunks : List ChunkPos) : List Span :=
  chunks.flatMap fun c =>
    let w := tileWidth u.d.w.fmt
    u.boxSpans packed ((List.range 64).map (64 * c.og + ·)) (c.ck * c.ktiles * w) (c.ktiles * w)

/-- A bay of some chunks of a use with its escape entries, or the error that stops the load. -/
def State.bayOf (s : State) (u : Use) (packed : Bool) (chunks : List ChunkPos) : Except Nat (Bay × List (Nat × Nat)) :=
  match s.readUse u (u.baySpans packed chunks) with
  | .error e => .error e
  | .ok f => match faceRows f packed (chunks.flatMap fun c => (List.range 64).map (64 * c.og + ·)) with
    | .error e => .error e
    | .ok codes => .ok (loadedBay u f codes chunks)

/-- A loaded bay takes its place in a gallery; the gallery's escape store has 512 entries in all. -/
def Gal.takeBay? (G : Gal) (b : Nat) (x : Bay × List (Nat × Nat)) : Option Gal :=
  let store := (G.escape.filter fun e => e.1 != b) ++ x.2.map fun e => (b, e.1, e.2)
  if 512 < store.length then none else some { G with bays := tabSet G.bays b x.1, escape := store }

/-- Load a bay of a gallery (R77): clears VALID, writes everything, sets VALID. Bytes that BAR2 writes met since the command's
dispatch are free in what it reads (R164). -/
def State.loadBay (s : State) (x : OpCtx) (g b t : Nat) (chunks : List ChunkPos) : Except Nat State :=
  let a := s.att x.page x.slot
  let z := s.freeHits a
  let s := { s with free := z.free }
  match a.use? x.hall t with
  | none => .error 0x030D
  | some u => match z.bayOf u (Plan.isPacked (some x.plan) t) chunks with
    | .error e => .error e
    | .ok y => match ((s.hall x.hall).gal g).takeBay? b y with
      | none => .error 0x030C
      | some G => .ok ((s.modGal x.hall g fun _ => G).countInvalid x.page x.slot u y.1.invalids)

/-! ### Where a bay index lies (R250) -/

def Hall.bayAt (H : Hall) (job b : Nat) : Nat := if b < H.baySplit then b else (H.job job).bayBase + (b - H.baySplit)

/-- A bay that a job's passes read: a model bay, or one of the job's scratch bays. -/
def Hall.hasBay (H : Hall) (job b : Nat) : Bool :=
  b < H.baySplit || ((H.job job).bayBase ≤ b && b < (H.job job).bayBase + (H.job job).bayCount)

/-! ### Finding and refreshing a chunk (R77, R355) -/

/-- Gallery, bay and chunk position of a K-chunk. -/
abbrev ChunkAt := Nat × Nat × Nat

def Hall.findChunk (H : Hall) (job t : Nat) (gs : List Nat) (c : ChunkPos) : Option ChunkAt :=
  firstSome (fun g => firstSome (fun (e : Nat × Bay) =>
    if e.2.tensor = t ∧ H.hasBay job e.1 then (e.2.chunks.findIdx? (· == c)).map fun i => (g, e.1, i) else none)
    (H.gal g).bays) gs

/-- A bay must reload before it is read. -/
def Bay.isStale (b : Bay) (u : Use) : Bool := !b.valid || b.bind != u.scope || b.gen != u.gen % 2 ^ 16

def State.freshChunk (s : State) (x : OpCtx) (u : Use) (gs : List Nat) (c : ChunkPos) : Except Nat State :=
  match (s.hall x.hall).findChunk x.job u.d.tensor gs c with
  | none => .error 0x030B
  | some (g, b, _) => match (((s.hall x.hall).gal g).bays.find? (·.1 == b)).map (·.2) with
    | none => .error 0x030B
    | some bay => if bay.isStale u then s.loadBay x g b u.d.tensor bay.chunks else .ok s

/-- Every chunk of a list is present and fresh. -/
def State.freshChunks (s : State) (x : OpCtx) (u : Use) (gs : List Nat) (cs : List ChunkPos) : Except Nat State :=
  foldE (fun s c => s.freshChunk x u gs c) s cs

/-- A fresh chunk as a pass reads it: its gallery, the bay, and the bay's first tile of the chunk. -/
def State.chunkView (s : State) (x : OpCtx) (u : Use) (gs : List Nat) (c : ChunkPos) : Option (Nat × BayView × Nat) :=
  match (s.hall x.hall).findChunk x.job u.d.tensor gs c with
  | none => none
  | some (g, b, i) =>
    let G := (s.hall x.hall).gal g
    (G.bays.find? (·.1 == b)).map fun e =>
      (g, ⟨u.d.w, Affine.ofNat u.aff, e.2, (G.escape.filter (·.1 == b)).map (·.2)⟩, i * c.ktiles)

/-! ### Strikes and fencing (R88, R89) -/

/-- A fenced gallery's bays, of which nothing is read before they are loaded again. -/
def Gal.stale (x : Gal) : Tab Bay := x.bays.map fun e => (e.1, { e.2 with valid := false })

/-- The use that a hall makes of the binding that a bay was loaded from, by the face that is committed now. -/
def Hall.useOfBay? (H : Hall) (h : Nat) (b : Bay) : Option Use :=
  (H.gen? b.tensor b.bind).map fun g =>
    let k := if g.d.dogleg then H.faceOf g.d.pair else 0
    { hall := h, d := g.d, face := k, scope := b.bind, gen := g.gen, coarse := H.faceCoarse g.d k, aff := H.faceAff g.d k,
      wcoarse := H.faceCoarse g.d k, wrows := false, reads := true, writes := false }

/-- A spare loads one of the bays that it takes over from its tensor's committed face; the codes 0b10 that it reads count (R18). A bay
whose load fails stays without VALID, and a pass that reads it loads it again (R77). -/
def State.reloadBay (s : State) (h f : Nat) (e : Nat × Bay) : State :=
  let packed := Plan.isPacked ((s.ownerOf h).bind fun v => (s.part v).plan) e.2.tensor
  match (s.hall h).useOfBay? h e.2 with
  | none => s
  | some u => match s.bayOf u packed e.2.chunks with
    | .error _ => s
    | .ok y => match ((s.hall h).gal f).takeBay? e.1 y with
      | none => s
      | some G => (s.modGal h f fun _ => G).countHall h (((s.ownerOf h).bind fun v => (s.part v).plan)) u.d u.coarse y.1.invalids

/-- Fence a gallery: a spare takes its bays and loads them before the command runs again (Table 03-6), and a hall without one is
lost. -/
def State.fenceGal (s : State) (h g : Nat) (job pass : Nat) : State :=
  let x := (s.hall h).gal g
  let place := x.serves.getD g
  let s := s.modGal h g fun x => { x with fenced := true, powered := false, serves := none }
  let s := s.modHall h fun H => { H with raising := H.raising.filter (· != g) }
  let s := s.log h ⟨5, job, g, pass, 0⟩
  match (s.hall h).freeSpare with
  | some f =>
    let s := s.modGal h f fun y => { y with serves := some place, stage := x.stage, bays := x.stale, escape := [] }
    x.bays.foldl (fun s e => s.reloadBay h f e) (s.modHall h (·.powerGals [f]))
  | none => s.loseHall h

/-- One strike against a gallery. -/
def State.strike (s : State) (h g job pass : Nat) (mismatch : Bool) : State :=
  let H := s.hall h
  let x := H.gal g
  let again := decide (1 ≤ x.strikes) && decide (H.commits - x.firstStrike < s.strikeWin h)
  let s := s.modGal h g fun y =>
    { y with mismatch := if mismatch then satAdd 255 y.mismatch 1 else y.mismatch,
             strikes := if again then 2 else 1, firstStrike := if again then y.firstStrike else H.commits }
  let s := (s.modHall h fun H => { H with stepStrikes := H.stepStrikes + 1 }).log h ⟨4, job, g, pass, 0⟩
  if again then s.fenceGal h g job pass else s

def State.strikes (s : State) (h job pass : Nat) (mismatch : Bool) (gs : List Nat) : State :=
  gs.foldl (fun s g => s.strike h g job pass mismatch) s

/-! ### Parity (R80) -/

/-- Galleries whose bays an operation has loaded. -/
def State.loadedGals (s t : State) (h : Nat) (gs : List Nat) : List Nat :=
  gs.filter fun g => ((s.hall h).gal g).bays != ((t.hall h).gal g).bays

/-- The bays of a gallery that an operation has loaded are not valid: they load again before they are read. -/
def Gal.spoil (before G : Gal) : Gal :=
  { G with bays := G.bays.map fun e =>
      (e.1, if (before.bays.find? (·.1 == e.1)).map (·.2) = some e.2 then e.2 else { e.2 with valid := false }) }

/-- Parity failures of galleries that load: each is counted, a second one on a bay is a strike and leaves the load unfinished.
The second part tells whether a second failure struck. `s0` is the state before the loads. -/
def State.parityHits (s s0 : State) (x : OpCtx) (gs : List Nat) (u : Upset) : State × Bool :=
  let hit := u.parity.filter fun p => gs.contains p.1
  let s := hit.foldl (fun s p =>
    let s := (s.modGal x.hall p.1 fun G => { G with parity := satAdd 255 G.parity (if p.2 then 2 else 1) }).log x.hall
      ⟨6, x.job, p.1, x.pass, 0⟩
    let s := s.modAtt x.page x.slot fun a => { a with evidence := a.evidence + (if p.2 then 2 else 1) }
    if p.2 then (s.modGal x.hall p.1 (Gal.spoil ((s0.hall x.hall).gal p.1))).strike x.hall p.1 x.job x.pass false else s) s
  (s, hit.any (·.2))

/-- An effect on bays followed by the parity outcome of its loads. DESIGN CHOICE: R80 has a second failure count as a witness
strike, and the command is killed as at a witness mismatch, so that no pass reads the bay (log 90). -/
def withParity (x : OpCtx) (s0 : State) (loaded : State → List Nat) (u : Upset) (r : Except Nat State) : OpEnd :=
  match r with
  | .error e => .fail e
  | .ok s => let (t, k) := s.parityHits s0 x (loaded s) u; if k then .kill t else .done t

/-! ### BAYLOAD (R355) -/

def State.bayload (s : State) (x : OpCtx) (o : BayloadOp) : Except Nat State :=
  let gs := (s.hall x.hall).galsOf o.gals
  let cpb := tilesPerBay (x.plan.fmt o.tensor) / o.ktiles
  foldE (fun s (gi : Nat × Nat) =>
    foldE (fun s (cm : List ChunkPos × Nat) =>
      s.loadBay x gi.1 ((s.hall x.hall).bayAt x.job (o.bay + cm.2)) o.tensor cm.1)
      s (chunksOf cpb (o.share gs.length gi.2)).zipIdx) s gs.zipIdx

def Op.isBayload : Op → Bool
  | .bayload _ => true
  | _ => false

def execBayload (a : Site) (u : Upset) (s : State) : Out :=
  runOp a (fun _ => Op.isBayload) (fun x s => match x.op with
    | .bayload o =>
      let gs := (s.hall x.hall).galsOf o.gals
      withParity x s (fun _ => (gs.zipIdx.filter fun g => !(o.share gs.length g.2).isEmpty).map (·.1)) u (s.bayload x o)
    | _ => .wait s) s

/-! ### HALLWAIT (R359) -/

def execHallwait (a : Site) (s : State) : Out :=
  runOp a (fun _ o => match o with
    | .hallwait .. => true
    | _ => false) (fun x s => match x.op with
    | .hallwait lh k => if (x.cmd.att.doneAt (s.phys x.page lh)).contains k then .done s else .wait s
    | _ => .wait s) s

end Sys2Proof.Machine
end

