-- ==== Sys2Proof/Machine/EMode.lean ====
section
/-! DEFINITION. EPASS: operands, results and the seventeen E-mode operations (R70 to R73, R356). -/

namespace Sys2Proof.Machine

/-! ### Operands -/

/-- One E-mode tile: for each flight its operands, W-form and FP32, which of them are the ZT2 code 0b10, and where tile
elements lie in ATENSOR (bays only). -/
structure ETile where
  a    : List (List W)
  y    : List (List Nat)
  bad  : List (List Bool)
  at_  : Option (Nat × Nat)
deriving DecidableEq, Repr

/-- An element of a vector: W-form and FP32 values, and whether it is the ZT2 code 0b10. -/
structure EEl where
  w   : W
  y   : Nat
  bad : Bool
deriving DecidableEq, Repr

/-- A span of 64 outputs by 64 reduction positions in a bay. -/
structure ESpan where
  v    : BayView
  tile : Nat
  off  : Nat
  row  : Nat
  col  : Nat
deriving DecidableEq, Repr

/-- Spans of a bay in the order of its chunk positions, each chunk in ascending reduction position. -/
def baySpans (v : BayView) : List ESpan :=
  v.bay.chunks.zipIdx.flatMap fun (c, i) => (List.range c.ktiles).flatMap fun k =>
    (List.range (v.bay.width / 64)).map fun m =>
      ⟨v, i * c.ktiles + k, 64 * m, 64 * c.og, (c.ck * c.ktiles + k) * v.bay.width + 64 * m⟩

/-- The bays of a gallery that hold a tensor and that the job reads, in ascending index. -/
def Hall.tensorBays (H : Hall) (job t g : Nat) : List (Nat × Bay) :=
  (H.gal g).bays.filter fun e => e.2.tensor == t && H.hasBay job e.1

/-- Refresh every bay of the tensor in the galleries that take part (R77). -/
def State.freshTensor (s : State) (x : OpCtx) (u : Use) (gs : List Nat) : Except Nat State :=
  foldE (fun s g => foldE (fun s (e : Nat × Bay) =>
    if e.2.isStale u then s.loadBay x g e.1 u.d.tensor e.2.chunks else .ok s)
    s ((s.hall x.hall).tensorBays x.job u.d.tensor g)) s gs

/-- The spans of a tensor's bays in a list of galleries. DESIGN CHOICE: ZI8 and ZI4 bays count whatever KTILES they were placed with,
since Table 03-1 gives no one number of tiles to a chunk where no activation format stands beside them (log 125). -/
def State.espans (s : State) (x : OpCtx) (u : Use) (gs : List Nat) : List ESpan :=
  gs.flatMap fun g => ((s.hall x.hall).tensorBays x.job u.d.tensor g).flatMap fun (e : Nat × Bay) =>
    baySpans ⟨u.d.w, Affine.ofNat u.aff, e.2, (((s.hall x.hall).gal g).escape.filter (·.1 == e.1)).map (·.2)⟩

/-- Operand A of every tile, with the state whose bays are fresh. -/
def State.eOperandA (s : State) (x : OpCtx) (o : EOp) : Except Nat (State × List ETile) :=
  if o.asrc = 1 then
    match s.rowsAt x o.arow (64 * o.tiles) (slotCount o.slots) (some o.slots) none with
    | .error e => .error e
    | .ok rows => .ok (s, (List.range o.tiles).map fun i =>
        let g := (rows.drop (64 * i)).take 64
        ⟨g.map fun r => r.map fun v => fp32ToW v.toNat, g.map fun r => r.map BitVec.toNat, [], none⟩)
  else
    let gs := (s.hall x.hall).galsOf o.gals
    match (s.att x.page x.slot).use? x.hall o.atensor with
    | none => .error 0x030D
    | some u => match s.freshTensor x u gs with
      | .error e => .error e
      | .ok s =>
        let sp := s.espans x u gs
        if sp.length < o.tiles then .error 0x030B
        else .ok (s, (sp.take o.tiles).map fun p =>
          ⟨(List.range 64).map fun j => (List.range 64).map fun t => p.v.el p.tile j (p.off + t), [],
            (List.range 64).map fun j => (List.range 64).map fun t => invalidCode p.v.bay.fmt (p.v.fine p.tile j (p.off + t)) (p.v.code p.tile j (p.off + t)),
            some (p.row, p.col)⟩)

/-- The 64 values of each tile's vector, with the state that has counted what was read. -/
def State.eVectors (s : State) (x : OpCtx) (o : EOp) : Except Nat (State × List (List EEl)) :=
  if 2 ≤ o.bsrc then .ok (s, [])
  else if o.btensor = 0xFFFF then
    match s.rowsAt x o.brow o.tiles (slotCount o.slots) (some o.slots) none with
    | .error e => .error e
    | .ok rows => .ok (s, rows.map fun r => r.map fun v => ⟨fp32ToW v.toNat, v.toNat, false⟩)
  else
    let packed := Plan.isPacked (some x.plan) o.btensor
    match s.readTensor x.page x.slot x.hall o.btensor packed
        (List.range (ceilDiv (64 * o.tiles) (max 1 (x.plan.colsOf o.btensor)))) with
    | .error e => .error e
    | .ok (u, f) => match mapE (fun r => match f.rowVals? packed r, f.rowCodes packed r with
        | some l, some c => .ok (l.zip c)
        | _, _ => .error 0x0310) (List.range u.d.rows) with
      | .error e => .error e
      | .ok rows =>
        let flat := rows.flatten
        .ok (s.countRead x.page x.slot u ((flat.take (64 * o.tiles)).zipIdx.map fun (e, i) => (i, e.2)),
          (List.range o.tiles).map fun i => (List.range 64).map fun t =>
            -- elements beyond the tensor have no value in the manual
            let v := (flat[64 * i + t]?).getD (.f32 (Config.openWord 0x101 [BitVec.ofNat 32 (64 * i + t)]).toNat, 0)
            ⟨v.1.toW, v.1.toF32, invalidCode u.d.w.fmt (f.fineAt ((64 * i + t) / u.d.cols) ((64 * i + t) % u.d.cols)) v.2⟩)

/-! ### Results -/

/-- One result: its tile, flight and tread. -/
structure EOut where
  tile : Nat
  j    : Nat
  t    : Nat
  v    : EVal
  fl   : Flags
deriving DecidableEq, Repr

/-- Results of one tile. A ZT2 code 0b10 that enters a product of MUL raises its flag (R48). -/
def eTile (p : Plan) (o : EOp) (i : Nat) (a : ETile) (vec : List EEl) : List EOut :=
  let tab := p.funcs.getD (fld o.const 0 6) ⟨false, 0, 0, 0, 0, [], []⟩
  let zero : EEl := ⟨W.zero, 0, false⟩
  (List.range 64).flatMap fun j => (List.range 64).map fun t =>
    let b : EEl := if o.bsrc = 0 then vec.getD t zero else if o.bsrc = 1 then vec.getD j zero
      else if o.bsrc = 2 then ⟨W.ofBits o.const, 0, false⟩ else zero
    let r := eOp o.mode o.const tab ((a.a.getD j []).getD t W.zero) b.w ((a.y.getD j []).getD t 0) b.y
    let bad := o.mode = eMUL ∧ ((a.bad.getD j []).getD t false || b.bad)
    ⟨i, j, t, r.1, if bad then { r.2 with tern := true } else r.2⟩

/-- Results to rows: each row group takes one partial (R94). -/
def State.eToRows (s : State) (x : OpCtx) (o : EOp) (out : List EOut) : Except Nat State :=
  foldE (fun s n => s.putSingle x (o.drow + n * slotCount o.slots) 5 o.sfmt o.slots
    (((out.drop (64 * n)).take 64).map fun e => BitVec.ofNat 32 e.v.toF32)) s (List.range (64 * o.tiles))

/-- A result as its tensor's encoding takes it: before a ZI encoding the rounding to FP32 is to odd (R40, R71). -/
def EVal.toVal (zi : Bool) : EVal → Val
  | .w v => .w v
  | .f b o => .f32 (if zi then o else b)

/-- Position in DTENSOR of a result, when it lies in it. -/
def ePos (d : TDesc) (tiles : List ETile) (e : EOut) : Option (Nat × Nat) :=
  let p : Nat × Nat := match (tiles[e.tile]?).bind ETile.at_ with
    | some (r, c) => (r + e.j, c + e.t)
    | none =>
      let n := 64 * e.tile + e.j
      let g := rowGroups d.cols
      (n / g, n % g * 64 + e.t)
  if p.1 < d.rows ∧ p.2 < d.cols then some p else none

/-- Write elements of one row; each block that they meet is encoded whole. -/
def State.putElems (s : State) (x : OpCtx) (u : Use) (r : Nat) (els : List (Nat × EOut)) : State :=
  match (s.att x.page x.slot).staged? u with
  | none => s
  | some st =>
    let b := st.d.w.blk
    let here := fun c => els.find? (·.1 == c)
    let w : WriteCtx := ⟨fun _ c => (here c).map fun e => ⟨x.off, x.pass, e.2.tile, 0, e.2.j, e.2.t⟩, fun _ c => (here c).isSome⟩
    let blocks := (List.range st.d.blocks).filter fun k => els.any fun e => e.1 / b == k
    (runsOf blocks).foldl (fun s run =>
      let c0 := run.1 * b
      let n := min (run.2 * b) (st.d.cols - c0)
      s.putRows x.page x.slot u w r c0 [(List.range n).map fun k => match here (c0 + k) with
        | some e => e.2.v.toVal st.d.w.zi
        | none => s.stagedVal st r (c0 + k)]) s

/-- Results to a tensor. Its saturations stand in the tiles of the results. DESIGN CHOICE: R185 names an EPASS neither as a managed
write nor among the other writers; it stages as an encoded write does, under R186 and R188 in a managed tensor and at the committed
face's coarse scale in any other (log 130). -/
def State.eToTensor (s : State) (x : OpCtx) (o : EOp) (tiles : List ETile) (out : List EOut) : Except Nat State :=
  match (s.att x.page x.slot).use? x.hall o.dtensor with
  | none => .error 0x030D
  | some u =>
    let s := s.openFace x.page x.slot u .encoded
    let places := out.filterMap fun e => (ePos u.d tiles e).map fun p => (p, e)
    let rows := (places.map fun p => p.1.1).eraseDups
    .ok (rows.foldl (fun s r => s.putElems x u r ((places.filter fun p => p.1.1 == r).map fun p => (p.1.2, p.2))) s)

/-! ### The operation -/

/-- Rows that the operation has read. -/
def EOp.reads (o : EOp) : List Nat :=
  let S := slotCount o.slots
  (if o.asrc = 1 then (List.range (64 * o.tiles * S)).map (o.arow + ·) else [])
    ++ (if o.bsrc ≤ 1 ∧ o.btensor = 0xFFFF then (List.range (o.tiles * S)).map (o.brow + ·) else [])

/-- A tile's own events carry K-chunk index 0 (log 17). DESIGN CHOICE: tile i of the operation is token-row tile i of output
group 0, with the flight as its row and the tread as its column (log 87). -/
def State.epass (s : State) (x : OpCtx) (o : EOp) : Except Nat State :=
  match s.eOperandA x o with
  | .error e => .error e
  | .ok (s, tiles) => match s.eVectors x o with
    | .error e => .error e
    | .ok (s, vecs) =>
      let out := tiles.zipIdx.flatMap fun (a, i) => eTile x.plan o i a (vecs.getD i [])
      let ev := out.filterMap fun e => if e.fl.any then some ((e.tile, 0), (((0, e.j, e.t) : Pos), e.fl)) else none
      let s := s.modAtt x.page x.slot (·.addTiles (tilesOf x.hall x.pass x.off ev ((List.range o.tiles).map fun i => (i, 0))))
      match (if o.dest then s.eToTensor x o tiles out else s.eToRows x o out) with
      | .error e => .error e
      | .ok s => .ok (if o.release then s.releaseRows x.page x.slot x.hall o.reads else s)

def Op.isE (mode : Nat) : Op → Bool
  | .epass o => o.mode == mode
  | _ => false

/-- The row of an E-mode operation. -/
def eRow (mode : Nat) (a : Site) (u : Upset) (s : State) : Out :=
  runOp a (fun _ => Op.isE mode) (fun x s => match x.op with
    | .epass o => withParity x s (fun t => s.loadedGals t x.hall (if o.asrc = 0 then (s.hall x.hall).galsOf o.gals else [])) u
        (s.epass x o)
    | _ => .wait s) s

def execEMul (a : Site) (u : Upset) (s : State) : Out := eRow eMUL a u s
def execEDiv (a : Site) (u : Upset) (s : State) : Out := eRow eDIV a u s
def execRecip (a : Site) (u : Upset) (s : State) : Out := eRow eRECIP a u s
def execESqrt (a : Site) (u : Upset) (s : State) : Out := eRow eSQRT a u s
def execRsqrt (a : Site) (u : Upset) (s : State) : Out := eRow eRSQRT a u s
def execPow (a : Site) (u : Upset) (s : State) : Out := eRow ePOW a u s
def execScale (a : Site) (u : Upset) (s : State) : Out := eRow eSCALE a u s
def execExp (a : Site) (u : Upset) (s : State) : Out := eRow eEXP a u s
def execLog2 (a : Site) (u : Upset) (s : State) : Out := eRow eLOG2 a u s
def execLn (a : Site) (u : Upset) (s : State) : Out := eRow eLN a u s
def execAbs (a : Site) (u : Upset) (s : State) : Out := eRow eABS a u s
def execNeg (a : Site) (u : Upset) (s : State) : Out := eRow eNEG a u s
def execEMax (a : Site) (u : Upset) (s : State) : Out := eRow eMAX a u s
def execEMin (a : Site) (u : Upset) (s : State) : Out := eRow eMIN a u s
def execCmpgt (a : Site) (u : Upset) (s : State) : Out := eRow eCMPGT a u s
def execCmpeq (a : Site) (u : Upset) (s : State) : Out := eRow eCMPEQ a u s
def execFunc (a : Site) (u : Upset) (s : State) : Out := eRow eFUNC a u s

end Sys2Proof.Machine
end

