-- ==== Sys2Proof/Machine/ExpLog.lean ====
section
/-! DEFINITION. Exponentials and logarithms of binary floating-point values, to 1,500 fraction bits (XENT of Table 09-3). -/

namespace Sys2Proof.Machine

/-- Fraction bits of the fixed-point numbers of this file: enough that the distance of an irrational value from a binary64
number, or from the middle of two, shows. -/
abbrev fixP : Nat := 1500

/-- e^r for a fixed-point r below 1, by its series. -/
def expFix (r : Nat) : Nat :=
  ((List.range 300).foldl (fun (z : Nat × Nat) n =>
    let t := z.2 * r / ((n + 1) * 2 ^ fixP)
    (z.1 + t, t)) (2 ^ fixP, 2 ^ fixP)).1

/-- ln 2 as 2 artanh(1/3). -/
def ln2Fix : Nat :=
  ((List.range 500).foldl (fun (z : Nat × Nat) n => (z.1 + z.2 / (2 * n + 1), z.2 / 9)) (0, 2 * 2 ^ fixP / 3)).1

/-- ln x for a fixed-point x from 1 up to 2, by seven steps of Halley's iteration. -/
def logFix (x : Nat) : Nat :=
  (List.range 7).foldl (fun (y : Nat) _ =>
    let e := expFix y
    let d : Int := 2 * ((x : Int) - e) * (2 ^ fixP : Nat) / ((x : Int) + e)
    ((y : Int) + d).toNat) (ln2Fix / 2)

/-- e^d of a finite value; the last bit says that the value is irrational. Beyond ±2^11 it leaves every format. -/
def Fp.exp : Fp → Fp
  | .nan => .nan
  | .inf s => if s then .fin false 0 0 else .inf false
  | .fin s m e =>
    if m = 0 then .fin false 1 0
    else if (Nat.log2 m : Int) + e ≥ 11 then (if s then .fin false 1 (-3000) else .inf false)
    else
      let y := if -(fixP : Int) ≤ e then m * 2 ^ (e + fixP).toNat else m / 2 ^ (-(e + fixP)).toNat
      let q := if s then ceilDiv y ln2Fix else y / ln2Fix
      let r := if s then q * ln2Fix - y else y - q * ln2Fix
      .fin false (2 * expFix r + 1) ((if s then -(q : Int) else q) - fixP - 1)

/-- The natural logarithm of a value; that of 1 is exact, and every other one of a rational number is irrational. -/
def Fp.log : Fp → Fp
  | .nan => .nan
  | .inf s => if s then .nan else .inf false
  | .fin s m e =>
    if m = 0 then .inf true
    else if s then .nan
    else
      let l := Nat.log2 m
      let x := if l ≤ fixP then m * 2 ^ (fixP - l) else m / 2 ^ (l - fixP)
      let k : Int := l + e
      if m = 2 ^ l ∧ k = 0 then .fin false 0 0
      else
        let v : Int := (if m = 2 ^ l then 0 else (logFix x : Int)) + k * ln2Fix
        .fin (v < 0) (2 * v.natAbs + 1) (-(fixP : Int) - 1)

/-- Bits of two values of a format that are no NaN, and a number: a value of the format from the one up to the other. -/
def FpFmt.between (F : FpFmt) (a b free : Nat) : Nat :=
  let ord := fun (n : Nat) => if (F.dec n).sign then -((n : Int) - F.signBit) else (n : Int)
  let lo := min (ord a) (ord b)
  let hi := max (ord a) (ord b)
  let v := lo + (free % ((hi - lo).toNat + 1) : Nat)
  F.withSign (v < 0) v.natAbs

end Sys2Proof.Machine
end

