-- ==== Sys2Proof/Machine/Newel.lean ====
section
/-! DEFINITION. NEWEL: the fourteen operations on rows, and the sampler lanes (R74, R129 to R131, R257, R258, R265, R266). -/

namespace Sys2Proof.Machine

/-! ### Generators (R129, R130) -/

/-- Chain address and hall of PHYS: those of the primary leg in Scissor mode. -/
def State.physOf (s : State) (x : OpCtx) : Nat × Nat :=
  match x.plan.scissor with
  | some r => (r.primAddr, r.primHall + x.lh)
  | none => (s.chainAddr.toNat, x.hall)

/-- SALT of the stream that claims a generator. -/
def Plan.saltOf (p : Plan) (cls unit : Nat) : Option DWord :=
  (p.streams.find? fun z => z.cls == cls && (z.claims p.streams).contains unit).map Stream.salt

/-- The word of a generator at a counter value; a generator that no stream claims has no salt in the manual. -/
def State.genAt (s : State) (x : OpCtx) (cls unit ctr : Nat) : DWord :=
  let (c, h) := s.physOf x
  let salt := match x.plan.saltOf cls unit with
    | some z => z
    | none => BitVec.ofNat 64 ((Config.openWord 0x110 [BitVec.ofNat 32 cls, BitVec.ofNat 32 unit]).toNat * 2 ^ 32
        + (Config.openWord 0x111 [BitVec.ofNat 32 cls, BitVec.ofNat 32 unit]).toNat)
  genWord (genKey x.plan.seedM (genPhys c h cls unit)) salt (BitVec.ofNat 64 ctr)

/-- Words that a lane has drawn in this command. -/
def drawn (l : List (Nat × Nat × Nat)) (h lane : Nat) : Nat :=
  ((l.find? fun d => d.1 == h && d.2.1 == lane).map fun d => d.2.2).getD 0

def addDrawn (l : List (Nat × Nat × Nat)) (h lane n : Nat) : List (Nat × Nat × Nat) :=
  l.filter (fun d => !(d.1 == h && d.2.1 == lane)) ++ [(h, lane, drawn l h lane + n)]

/-- The n-th further word of a sampler lane (R257). -/
def State.sampWord (s : State) (x : OpCtx) (lane n : Nat) : DWord :=
  let c := tabGet 0 (s.seen x).sampler (32 * x.job + lane)
  s.genAt x 1 lane (x.job * 2 ^ 60 + c + drawn (s.att x.page x.slot).sampDraw x.hall lane + n)

def State.sampDrew (s : State) (x : OpCtx) (lane n : Nat) : State :=
  s.modAtt x.page x.slot fun a => { a with sampDraw := addDrawn a.sampDraw x.hall lane n }

/-! ### Rows as values -/

/-- Values of a row: 64 of binary32, or 32 of binary64 from word pairs, low word first. -/
def rowVals (fp64 : Bool) (r : List Word) : List Nat :=
  if fp64 then (List.range 32).map fun i => (r.getD (2 * i) 0).toNat + (r.getD (2 * i + 1) 0).toNat * 2 ^ 32
  else r.map BitVec.toNat

def rowBits (fp64 : Bool) (v : List Nat) : List Word :=
  if fp64 then v.flatMap fun n => [BitVec.ofNat 32 n, BitVec.ofNat 32 (n / 2 ^ 32)] else v.map (BitVec.ofNat 32)

def fpOf (fp64 : Bool) : FpFmt := if fp64 then b64 else b32

/-- Integer value of an element, as a token number. -/
def tokenOf (F : FpFmt) (v : Nat) : Nat := ((fpInt? (F.dec v)).getD 0).toNat
def tokenFp (F : FpFmt) (n : Nat) : Nat := F.rnd .rne false n 0

/-- Row operands of a NEWEL record; without SRC_B there is no B. -/
structure NewelIn where
  a : List (List Nat)
  b : Option (List (List Nat))
deriving DecidableEq, Repr

def State.newelRows (s : State) (x : OpCtx) (o : NewelOp) (base : Nat) : Except Nat (List (List Nat)) :=
  let code := (s.viewRow x.page x.slot x.hall base).tag.slots
  match s.rowsAt x base o.rows (slotCount code) (some code) none with
  | .error e => .error e
  | .ok r => .ok (r.map (rowVals o.fp64))

def State.newelIn (s : State) (x : OpCtx) (o : NewelOp) : Except Nat NewelIn :=
  match s.newelRows x o o.srcA with
  | .error e => .error e
  | .ok a =>
    if o.srcB = 0xFFFF then .ok ⟨a, none⟩
    else match s.newelRows x o o.srcB with
      | .error e => .error e
      | .ok b => .ok ⟨a, some b⟩

/-! ### Results -/

/-- Result rows with the number of stated elements of each. -/
structure NewelOut where
  s    : State
  rows : List (List Nat)
deriving DecidableEq, Repr

/-- An element operation whose second operand is missing has no stated result. -/
def newelElems (o : NewelOp) (v : NewelIn) (unary : Bool) : List (List Nat) :=
  let F := fpOf o.fp64
  v.a.zipIdx.map fun (r, i) => r.zipIdx.map fun (e, k) =>
    match v.b with
    | some b => newelEl F o.mode o.const e ((b.getD i []).getD k 0)
    | none => if unary then newelEl F o.mode o.const e 0
        else (Config.openWord o.mode [BitVec.ofNat 32 e, BitVec.ofNat 32 k]).toNat

/-- log(Σ exp A) − A[k] with every step rounded to the format, the sum in ascending order. -/
def xentSteps (F : FpFmt) (v : List Fp) (a : Fp) : Nat :=
  let sum := (v.map fun x => F.enc .rne x.exp).foldl (F.add .rne) 0
  F.sub .rne (F.enc .rne (F.dec sum).log) (F.enc .rne a)

/-- The exact value of log(Σ exp A) − A[k], rounded once: the largest element m, plus log Σ exp(A − m), less A[k]. -/
def xentExact (F : FpFmt) (v : List Fp) (a : Fp) : Nat :=
  let m := v.foldl fpMax (.inf true)
  let sum := (v.map fun x => (x.sub m).exp).foldl Fp.add (.fin false 0 0)
  F.enc .rne ((m.sub a).add sum.log)

/-- log(Σ exp A) − A[k] (Table 09-3). The classes of the result are those of the expression. Of a finite row R266 states the
expression, rounding to nearest and ascending order, and not which of its steps round: the result is open from the value with
every step rounded up to the exact value rounded once (log 30). -/
def xentFp (F : FpFmt) (free : List Nat → Nat → Nat) (r : List Nat) (k : Nat) : Nat :=
  let v := r.map F.dec
  let inf := fun s => F.withSign s F.infBits
  match v[k]? with
  | none => free r k
  | some a =>
    if v.any Fp.isNan then F.nan
    else if v.any fun x => x.isInf && !x.sign then (if a.isInf ∧ a.sign = false then F.nan else inf false)
    else if v.all Fp.isInf then F.nan
    else if a.isInf then inf false
    else F.between (xentSteps F v a) (xentExact F v a) (free r k)

/-- The free value of XENT on a row, and that of a row with no B, whose k is not given. -/
def xentOf (o : NewelOp) (r : List Nat) (b : Option (List Nat)) : Nat :=
  match b with
  | none => (Config.openWord nXENT (rowBits o.fp64 r)).toNat
  | some b =>
    let k := tokenOf (fpOf o.fp64) (b.getD 0 0)
    if o.fp64 then xentFp b64 (fun r k => (Config.xent64 (r.map (BitVec.ofNat 64)) k).toNat) r k
    else xentFp b32 (fun r k => (Config.xent32 (r.map (BitVec.ofNat 32)) k).toNat) r k

/-- Values as binary32, in which the sampler works. -/
def asF32 (fp64 : Bool) (r : List Nat) : List Nat := if fp64 then r.map (f64to32 .rne) else r

/-- SAMPLE: batch row r draws one word of lane r mod 32; its token lies in element 0 (log 18). -/
def State.sampleRows (s : State) (x : OpCtx) (o : NewelOp) (v : NewelIn) : State × List (List Nat) :=
  v.a.zipIdx.foldl (fun (acc : State × List (List Nat)) (r, i) =>
    let u := uniform (acc.1.sampWord x (i % 32) 0)
    let t := sampleFrom (asF32 o.fp64 r) u
    (acc.1.sampDrew x (i % 32) 1, acc.2 ++ [[tokenFp (fpOf o.fp64) t]])) (s, [])

/-- VERIFY: rows of A are p, rows of B are q and then the proposed tokens; the answer's tokens lie in the first row
(log 18). -/
def State.verifyRows (s : State) (x : OpCtx) (o : NewelOp) (v : NewelIn) : State × List (List Nat) :=
  let F := fpOf o.fp64
  let d := o.rows - 1
  let b := (v.b.getD [])
  let xs := ((b.getD d []).take d).map (tokenOf F)
  let r := verifyLoop (v.a.map (asF32 o.fp64)) ((b.take d).map (asF32 o.fp64)) (fun n => s.sampWord x 0 n) 0 xs 0 []
  (s.sampDrew x 0 r.2, [r.1.map (tokenFp F)])

/-- The result of a NEWEL record: rows of stated elements. -/
def State.newelOut (s : State) (x : OpCtx) (o : NewelOp) (v : NewelIn) : State × List (List Nat) :=
  let F := fpOf o.fp64
  if o.mode = nROWMAX then (s, v.a.map fun r => [rowMax F r])
  else if o.mode = nXENT then (s, v.a.zipIdx.map fun (r, i) => [xentOf o r (v.b.map (·.getD i []))])
  else if o.mode = nSAMPLE then s.sampleRows x o v
  else if o.mode = nVERIFY then s.verifyRows x o v
  else (s, newelElems o v (o.mode == nSQRT))

/-- A result row with its unstated elements: open values that depend on the operation and its operands alone (R144). -/
def newelRow? (x : OpCtx) (o : NewelOp) (v : NewelIn) (i : Nat) (l : List Nat) : List Nat :=
  let n := if o.fp64 then 32 else 64
  let key := [BitVec.ofNat 32 x.pass, BitVec.ofNat 32 x.off, BitVec.ofNat 32 i] ++ rowBits o.fp64 (v.a.getD i [])
    ++ rowBits o.fp64 ((v.b.getD []).getD i [])
  l ++ (List.range (n - l.length)).map fun k => (Config.openWord 0x120 (BitVec.ofNat 32 (l.length + k) :: key)).toNat

/-- Rows enter DROW with ACC 0x6. -/
def State.newelPut (s : State) (x : OpCtx) (o : NewelOp) (v : NewelIn) (rows : List (List Nat)) : Except Nat State :=
  foldE (fun (s : State) i =>
    s.putSingle x (o.drow + i) 6 8 0 (rowBits o.fp64 (newelRow? x o v i (rows.getD i [])))) s (List.range o.rows)

/-- Non-finite results of a loss (R195). -/
def State.countLoss (s : State) (x : OpCtx) (o : NewelOp) (rows : List (List Nat)) : State :=
  if o.loss then
    let n := (rows.flatten.filter fun v => !((fpOf o.fp64).dec v).isFin).length
    s.modAtt x.page x.slot fun a => { a with lossNf := a.lossNf ++ List.replicate n x.hall }
  else s

def State.newel (s : State) (x : OpCtx) (o : NewelOp) : Except Nat State :=
  match s.newelIn x o with
  | .error e => .error e
  | .ok v =>
    let (s, rows) := s.newelOut x o v
    (s.countLoss x o rows).newelPut x o v rows

def Op.isNewel (mode : Nat) : Op → Bool
  | .newel o => o.mode == mode
  | _ => false

/-- The row of a NEWEL operation; a residue mismatch on a lane kills the command in place of the operation's end (R265). -/
def newelRow (mode : Nat) (a : Site) (u : Upset) (s : State) : Out :=
  runOp a (fun _ => Op.isNewel mode) (fun x s => match x.op with
    | .newel o => match u.residue, s.newel x o with
      | some lane, .ok _ => .kill (s.residueHit x.hall x.job x.pass 0 lane)
      | _, r => OpEnd.ofExcept r
    | _ => .wait s) s

def execNewelAdd (a : Site) (u : Upset) (s : State) : Out := newelRow nADD a u s
def execNewelMul (a : Site) (u : Upset) (s : State) : Out := newelRow nMUL a u s
def execFma (a : Site) (u : Upset) (s : State) : Out := newelRow nFMA a u s
def execNewelDiv (a : Site) (u : Upset) (s : State) : Out := newelRow nDIV a u s
def execNewelSqrt (a : Site) (u : Upset) (s : State) : Out := newelRow nSQRT a u s
def execMaximum (a : Site) (u : Upset) (s : State) : Out := newelRow nMAXIMUM a u s
def execMinimum (a : Site) (u : Upset) (s : State) : Out := newelRow nMINIMUM a u s
def execMaxnum (a : Site) (u : Upset) (s : State) : Out := newelRow nMAXNUM a u s
def execMinnum (a : Site) (u : Upset) (s : State) : Out := newelRow nMINNUM a u s
def execCmp (a : Site) (u : Upset) (s : State) : Out := newelRow nCMP a u s
def execRowmax (a : Site) (u : Upset) (s : State) : Out := newelRow nROWMAX a u s
def execXent (a : Site) (u : Upset) (s : State) : Out := newelRow nXENT a u s
def execSample (a : Site) (u : Upset) (s : State) : Out := newelRow nSAMPLE a u s
def execVerify (a : Site) (u : Upset) (s : State) : Out := newelRow nVERIFY a u s

end Sys2Proof.Machine
end

