-- ==== Sys2Proof/Machine/MemOps.lean ====
section
/-! DEFINITION. Operations that write tensors from rows and from other tensors: SAVE, REBLOCK, STORE, HBMCOPY (R179 to R189,
R225, R357, R358). -/

namespace Sys2Proof.Machine

/-! ### The audit of a save (R182) -/

/-- The audited block of a group of 64. -/
def State.auditBlock (s : State) (x : OpCtx) (tensor g : Nat) : Nat :=
  (s.genAt x 2 0 ((s.seen x).step.toNat * 2 ^ 40 + tensor * 2 ^ 24 + g % 2 ^ 24)).toNat % 64

/-- What an audit takes of one written block: element, decoded code and source of each finite element of the command's own,
as FP64 bits. -/
def auditOne (e : Enc1) (b : BlockOut) (els : List (Nat × Val × Bool × Option Nat)) : List (Nat × Nat × Nat) :=
  (els.zip b.els).filterMap fun p =>
    let v := p.1.2.1
    if p.1.2.2.1 && (b64.dec v.toF64).isFin then
      some (p.1.1, (decodeVal e.w e.coarse e.aff b.fine p.1.2.2.2 p.2.code).toF64, v.toF64)
    else none

/-- Audit the rows that a write is about to encode; its sums are formed at the commit. -/
def State.audit (s : State) (x : OpCtx) (u : Use) (first col0 : Nat) (vals : List (List Val)) : State :=
  match (s.att x.page x.slot).staged? u with
  | none => s
  | some st =>
    let e : Enc1 := ⟨st.d.w, st.coarse, Affine.ofNat st.aff⟩
    let nc := (vals.headD []).length
    let z := s.widen st first col0 vals
    let r := st.encodeRows first z.1 z.2
    let blocks : List (BlockOut × List (Nat × Val × Bool × Option Nat)) :=
      (r.1.zip z.2).zipIdx.flatMap fun p => p.1.1.zip (chunksOf st.d.w.blk (p.1.2.zipIdx.map fun q =>
        let c := z.1 + q.2
        let i := (first + p.2) * st.d.cols + c
        (i, q.1, decide (col0 ≤ c) && decide (c < col0 + nc), (r.2.find? (·.1 == i)).map fun v => v.2.toF32)))
    let l := (blocks.zipIdx.filter fun p => s.auditBlock x st.d.tensor (p.2 / 64) == p.2 % 64).flatMap fun p =>
      auditOne e p.1.1 p.1.2
    if Plan.managedT (s.plan? x.page) u.d.tensor then
      s.modAtt x.page x.slot fun a => { a with auds := a.auds ++ l.map fun q => (u.hall, u.d.tensor, q.1, q.2.1, q.2.2) }
    else s

/-! ### Sources -/

/-- Rows of an FP32 matrix in row groups (R354): n rows of `cols` columns from a base with S slots. -/
def State.matrixRows (s : State) (x : OpCtx) (base n cols S : Nat) (slots sfmt : Option Nat) :
    Except Nat (List (List Val)) :=
  let g := rowGroups cols
  match s.rowsAt x base (n * g) S slots sfmt with
  | .error e => .error e
  | .ok rows => .ok ((List.range n).map fun r =>
      (((List.range g).flatMap fun k => rows.getD (r * g + k) []).take cols).map fun v => Val.f32 v.toNat)

/-- Values of rows of a tensor's committed face. Rows beyond the tensor have no value in the manual (log 142). -/
def State.tensorRows (s : State) (x : OpCtx) (t first n : Nat) : Except Nat (Use × List (List Val)) :=
  let packed := Plan.isPacked (some x.plan) t
  let rows := (List.range n).map (first + ·)
  match s.readTensor x.page x.slot x.hall t packed rows with
  | .error e => .error e
  | .ok (u, f) => match mapE (fun r =>
      if u.d.rows ≤ r then
        .ok ((List.range u.d.cols).map fun c => .f32 (Config.openWord 0x102 [BitVec.ofNat 32 r, BitVec.ofNat 32 c]).toNat)
      else match f.rowVals? packed r with
        | some l => .ok l
        | none => .error 0x0310) rows with
    | .error e => .error e
    | .ok l => .ok (u, l)

def transpose (cols : Nat) (rows : List (List Val)) : List (List Val) :=
  (List.range cols).map fun j => rows.map fun r => r.getD j (.w W.zero)

/-- Count what an operation reads of columns of some rows of a managed tensor (R18). -/
def State.countBox (s : State) (x : OpCtx) (u : Use) (rows : List Nat) (col n : Nat) : State :=
  s.countFace x.page x.slot u (Plan.isPacked (some x.plan) u.d.tensor) rows col n

/-- Count what an operation reads of whole rows. -/
def State.countRows (s : State) (x : OpCtx) (u : Use) (rows : List Nat) : State := s.countBox x u rows 0 u.d.cols

/-- Encode a rectangle into the staging face of a tensor; `tiled` says that its saturations stand in tile status words. -/
def State.encodeInto (s : State) (x : OpCtx) (t : Nat) (w : Writer) (tiled audit : Bool) (first col0 : Nat)
    (vals : List (List Val)) : Except Nat State :=
  match (s.att x.page x.slot).use? x.hall t with
  | none => .error 0x030D
  | some u =>
    let s := s.openFace x.page x.slot u w
    let s := if audit then s.audit x u first col0 vals else s
    if tiled then
      let s := s.modAtt x.page x.slot (·.addTiles
        (tilesOf u.hall x.pass x.off [] (allTiles vals.length (vals.headD []).length)))
      .ok (s.putSpan x.page x.slot u (x.tiled first col0) first col0 vals)
    else .ok (s.putSpan x.page x.slot u WriteCtx.plain first col0 vals)

/-! ### SAVE and REBLOCK -/

def State.saveRows (s : State) (x : OpCtx) (o : SaveOp) : Except Nat State :=
  let cols := x.plan.colsOf o.target
  let code := (s.viewRow x.page x.slot x.hall o.urow).tag.slots
  let S := slotCount code
  match s.matrixRows x o.urow o.rowCount cols S (some code) none with
  | .error e => .error e
  | .ok vals => match s.encodeInto x o.target .encoded true o.audit o.rowFirst 0 vals with
    | .error e => .error e
    | .ok s => .ok (if o.release then s.releaseRows x.page x.slot x.hall
        ((List.range (o.rowCount * rowGroups cols * S)).map (o.urow + ·)) else s)

/-- A SAVE of a tensor records its saturations in tile status words as a SAVE of rows does: DESIGN CHOICE, R39 speaks of values
that come from an output tile (log 86). DESIGN CHOICE: in mode 0b01 Table 06-2 makes ROW_FIRST a target row and names no source row; the
source's rows are read from ROW_FIRST too (log 143). -/
def State.saveTensor (s : State) (x : OpCtx) (o : SaveOp) : Except Nat State :=
  match s.tensorRows x o.source o.rowFirst o.rowCount with
  | .error e => .error e
  | .ok (u, vals) => (s.countRows x u ((List.range o.rowCount).map (o.rowFirst + ·))).encodeInto x o.target .encoded true
      o.audit o.rowFirst 0 vals

def State.save (s : State) (x : OpCtx) (o : SaveOp) : Except Nat State :=
  if o.mode = 0 ∨ o.source = 0xFFFF then s.saveRows x o else s.saveTensor x o

/-- REBLOCK: the element at (i, j) of the source goes to (j, i) of the target (R184). -/
def State.reblock (s : State) (x : OpCtx) (o : SaveOp) : Except Nat State :=
  match s.tensorRows x o.source o.rowFirst o.rowCount with
  | .error e => .error e
  | .ok (u, vals) => (s.countRows x u ((List.range o.rowCount).map (o.rowFirst + ·))).encodeInto x o.target .encoded false
      o.audit 0 o.rowFirst (transpose u.d.cols vals)

def Op.isSave (re : Bool) : Op → Bool
  | .save o => (o.mode == 2) == re
  | _ => false

def execSave (a : Site) (s : State) : Out :=
  runOp a (fun _ => Op.isSave false) (fun x s => match x.op with
    | .save o => OpEnd.ofExcept (s.save x o)
    | _ => .wait s) s

def execReblock (a : Site) (s : State) : Out :=
  runOp a (fun _ => Op.isSave true) (fun x s => match x.op with
    | .save o => OpEnd.ofExcept (s.reblock x o)
    | _ => .wait s) s

/-! ### STORE -/

def State.storeRows (s : State) (x : OpCtx) (o : StoreOp) : Except Nat State :=
  let S := slotCount o.slots
  match s.matrixRows x o.urow o.rowCount o.ncols S (some o.slots) (some (x.plan.fmt o.tensor)) with
  | .error e => .error e
  | .ok vals => match s.encodeInto x o.tensor .encoded true false o.rowFirst o.colFirst vals with
    | .error e => .error e
    | .ok s => .ok (if o.release then s.releaseRows x.page x.slot x.hall
        ((List.range (o.rowCount * rowGroups o.ncols * S)).map (o.urow + ·)) else s)

def execStoreOperation (a : Site) (s : State) : Out :=
  runOp a (fun _ o => match o with
    | .store _ => true
    | _ => false) (fun x s => match x.op with
    | .store o => OpEnd.ofExcept (s.storeRows x o)
    | _ => .wait s) s

/-! ### HBMCOPY (R358) -/

/-- Side-list entries of a rectangle, at the target's element numbers. -/
def moveSide (src dst : TDesc) (srow scol drow dcol n nc : Nat) (side : List (Nat × Nat)) : List (Nat × Nat) :=
  side.filterMap fun e =>
    let r := e.1 / src.cols
    let c := e.1 % src.cols
    if srow ≤ r ∧ r < srow + n ∧ scol ≤ c ∧ c < scol + nc then some ((drow + (r - srow)) * dst.cols + dcol + (c - scol), e.2)
    else none

/-- Codes and fine codes of a rectangle of a face. -/
def faceCodes (f : Face) (packed : Bool) (srow scol n nc : Nat) : Except Nat (List (List Nat × List Nat)) :=
  mapE (fun i => match f.rowCodes packed (srow + i) with
    | none => .error 0x0310
    | some l =>
      let b := f.d.w.blk
      .ok ((l.drop scol).take nc, (List.range (ceilDiv nc b)).map fun j => f.fine (srow + i) (scol / b + j))) (List.range n)

def State.hbmcopy (s : State) (x : OpCtx) (o : CopyOp) : Except Nat State :=
  let packed := Plan.isPacked (some x.plan) o.src
  match s.readTensorBy x.page x.slot x.hall o.src (fun u => u.boxSpans packed ((List.range o.nrows).map (o.srow + ·)) o.scol o.ncols),
      (s.att x.page x.slot).use? x.hall o.dst with
  | .error e, _ => .error e
  | _, none => .error 0x030D
  | .ok (us, f), some ud =>
    if us.d.fmtRaw = ud.d.fmtRaw then
      match faceCodes f packed o.srow o.scol o.nrows o.ncols with
      | .error e => .error e
      | .ok rows =>
        let s := s.countRead x.page x.slot us (rows.zipIdx.flatMap fun (l, i) =>
          l.1.zipIdx.map fun (c, j) => ((o.srow + i) * us.d.cols + o.scol + j, c))
        let s := (s.openFace x.page x.slot ud .moved).faceAffine x.page x.slot ud us.aff
        .ok (s.putCodesRows x.page x.slot ud o.drow o.dcol us.coarse rows
          (moveSide us.d ud.d o.srow o.scol o.drow o.dcol o.nrows o.ncols f.side))
    else
      match mapE (fun i => match f.rowVals? packed (o.srow + i) with
          | some l => .ok ((l.drop o.scol).take o.ncols)
          | none => .error 0x0310) (List.range o.nrows) with
      | .error e => .error e
      | .ok vals =>
        let s := s.countBox x us ((List.range o.nrows).map (o.srow + ·)) o.scol o.ncols
        s.encodeInto x o.dst .moved false false o.drow o.dcol vals

def execHbmcopy (a : Site) (s : State) : Out :=
  runOp a (fun _ o => match o with
    | .hbmcopy _ => true
    | _ => false) (fun x s => match x.op with
    | .hbmcopy o => OpEnd.ofExcept (s.hbmcopy x o)
    | _ => .wait s) s

end Sys2Proof.Machine
end

