-- ==== Sys2Proof/Machine/Riser.lean ====
section
/-! DEFINITION. RISER: the gradient hold and the optimiser's update (R190 to R201). -/

namespace Sys2Proof.Machine

/-! ### Sums over lanes (R190) -/

/-- Squares summed in FP64: each of 32 lanes in element order, then the lanes in ascending order. The values are FP64. -/
def laneSquares (vs : List Nat) : Nat :=
  (List.range 32).foldl (fun z l =>
    b64.add .rne z ((vs.zipIdx.filter fun p => p.2 % 32 == l).foldl (fun a p => b64.add .rne a (b64.mul .rne p.1 p.1)) 0)) 0

/-! ### The gradient hold (R193) -/

/-- Byte of an element of the hold. -/
def Hall.holdAt (H : Hall) (o : RiserOp) (i : Nat) : Nat := H.holdBase + 4 * (16384 * o.seg + i)

/-- Values that the Concourse has handed over for a tree, oldest first. -/
def Attempt.handed (a : Attempt) (h tree : Nat) : List Word :=
  (a.holdQ.filter fun e => e.1 == h && e.2.1 == tree).flatMap fun e => e.2.2

def Attempt.putHanded (a : Attempt) (h tree : Nat) (l : List Word) : Attempt :=
  { a with holdQ := a.holdQ.filter (fun e => !(e.1 == h && e.2.1 == tree)) ++ (if l.isEmpty then [] else [(h, tree, l)]) }

def State.riserHold (s : State) (x : OpCtx) (o : RiserOp) : OpEnd :=
  let l := (s.att x.page x.slot).handed x.hall o.tree
  if l.length < o.elCount then .wait s
  else
    let vs := l.take o.elCount
    let sq := laneSquares (vs.map fun v => f32to64 v.toNat)
    let bad := (vs.filter fun v => !(b32.dec v.toNat).isFin).length
    let s := s.modHall x.hall fun H =>
      { H with hbm := memWrites H.hbm (H.holdAt o 0) (vs.flatMap fun v => natLE v.toNat 4) }
    .done (s.modAtt x.page x.slot fun a =>
      let a := a.putHanded x.hall o.tree (l.drop o.elCount)
      { a with
        holdSegs := a.holdSegs ++ o.segs.map fun g => (x.hall, g),
        norms := a.norms ++ [(x.hall, x.off, ⟨o.layer, 0, o.elCount, 0, sq, 0⟩)],
        normOps := a.normOps ++ [(x.hall, x.off, sq)],
        nf := a.nf ++ [(x.hall, bad)] })

/-! ### Decoding a parameter (R199) -/

def paramF32 (code : Nat) (c : Int) (fine : Nat) (r : Int) : Nat :=
  let e := fld code 0 15
  let sg := bit code 15
  if fine = 0x80 then 0
  else if code = 0x8000 then b32.nan
  else if e = 0 then 0
  else if e = 0x7FFF then b32.withSign sg b32.infBits
  else pow2ToFp b32 .rne sg 17 (((e : Int) - 16384) * 256 + r + c * 2 ^ 17 + sext 8 fine * 2 ^ 14)

/-- An element of a face by its index in row-major order. -/
def Face.elemF32 (f : Face) (i : Nat) : Nat := (f.val (i / f.d.cols) (i % f.d.cols)).toF32
def Face.elemCode (f : Face) (i : Nat) : Nat := f.code (i / f.d.cols) (i % f.d.cols)

/-- A parameter that is no ZL16 tensor is decoded by R38 and R40 (log 20). -/
def Face.param (f : Face) (rem : Option Face) (i : Nat) : Nat :=
  if f.d.w.fmt = fmtZL16 then
    paramF32 (f.elemCode i) f.coarse (f.fineAt (i / f.d.cols) (i % f.d.cols))
      (match rem with
       | some r => sext 8 (r.elemCode i)
       | none => 0)
  else f.elemF32 i

/-! ### One element's update (R199) -/

/-- What an APPLY forms once: optimiser code, coefficients, LR_SCALE × c0, and the bias corrections of AdamW. -/
structure OptCtx where
  opt  : Nat
  c    : List Nat
  lr   : Nat
  (b1 b2 : Nat)
deriving DecidableEq, Repr

/-- m × 2^e as an odd mantissa and an exponent. -/
def oddPart : Nat → Nat → Int → Nat × Int
  | 0, m, e => (m, e)
  | f + 1, m, e => if m % 2 = 0 then oddPart f (m / 2) (e + 1) else (m, e)

/-- c^t where it is a binary64 number: every lower power then is one too, and each evaluation gives it. -/
def powExact? (s : Bool) (m : Nat) (e : Int) (t : Nat) : Option Nat :=
  let p := oddPart 64 m e
  if p.1 = 1 ∧ -1022 ≤ p.2 * t ∧ p.2 * t ≤ 1023 then some (b64.rnd .rne (s && t % 2 == 1) 1 (p.2 * t))
  else if t ≤ 33 ∧ p.1 ^ t < 2 ^ 53 ∧ -1022 ≤ p.2 * t then some (b64.rnd .rne (s && t % 2 == 1) (p.1 ^ t) (p.2 * t))
  else none

/-- A magnitude from lo × 2^e up to hi × 2^e. -/
structure MagI where
  (lo hi : Nat)
  e : Int
deriving DecidableEq, Repr

/-- A product of two magnitudes, kept to 160 bits. -/
def MagI.mul (a b : MagI) : MagI :=
  let k := Nat.log2 (a.hi * b.hi) - 160
  ⟨a.lo * b.lo / 2 ^ k, ceilDiv (a.hi * b.hi) (2 ^ k), a.e + b.e + k⟩

/-- A power of m × 2^e, bit by bit of its exponent. -/
def powMag (m : Nat) (e : Int) (t : Nat) : MagI :=
  (List.range 65).foldl (fun (z : MagI) i =>
    let y := z.mul z
    if bit t (64 - i) then y.mul ⟨m, m, e⟩ else y) ⟨1, 1, 0⟩

/-- 1 − c^t, evaluated in FP64 and rounded once. Where c^t is no binary64 number, a product of t factors in FP64 is off by at most
t + 2 half units in its last place, and among the binary32 numbers that this leaves the value is free (log 30). -/
def biasOf (c t : Nat) : Nat :=
  match b32.dec c with
  | .nan => b32.nan
  | .inf s => b32.withSign (!(s && t % 2 == 1)) b32.infBits
  | .fin s m e =>
    if m = 0 then f32one
    else match powExact? s m e t with
      | some p => f64to32 .rne (b64.sub .rne b64.one p)
      | none =>
        let neg := s && t % 2 == 1
        let p := powMag m e t
        if (Nat.log2 p.hi : Int) + p.e < -200 then f32one
        else if 200 < (Nat.log2 p.lo : Int) + p.e then b32.withSign (!neg) b32.infBits
        else
          let f := fun (n : Nat) => f64to32 .rne (b64.enc .rne ((Fp.fin false 1 0).sub (.fin neg n (p.e - 53))))
          b32.between (f (p.lo * (2 ^ 53 - (t + 2)))) (f (p.hi * (2 ^ 53 + (t + 2)))) (Config.biasStep (BitVec.ofNat 32 c) t)

def OptCtx.of (pol : TPolicy) (lrScale t : Nat) : OptCtx :=
  let c := fun i => pol.coef.getD i 0
  { opt := pol.opt, c := pol.coef, lr := b32.mul .rne (c 0) lrScale, b1 := biasOf (c 1) t, b2 := biasOf (c 2) t }

/-- Values of one element: parameter, moments. -/
structure Elem where
  (p m v : Nat)
deriving DecidableEq, Repr

/-- The result for one element with the clipped gradient g1. -/
def OptCtx.step (o : OptCtx) (e : Elem) (g1 : Nat) : Elem :=
  let mul := b32.mul .rne
  let add := b32.add .rne
  let sub := b32.sub .rne
  let div := b32.div .rne
  let fma := b32.fma .rne
  let c := fun i => o.c.getD i 0
  let om1 := sub f32one (c 1)
  let om2 := sub f32one (c 2)
  if o.opt = 1 then
    let m1 := fma (c 1) e.m (mul om1 g1)
    let v1 := fma (c 2) e.v (mul om2 (mul g1 g1))
    let d := div (div m1 o.b1) (add (b32.sqrt .rne (div v1 o.b2)) (c 3))
    ⟨sub e.p (mul o.lr (fma (c 4) e.p d)), m1, v1⟩
  else if o.opt = 2 then
    let u := b32.dec (fma (c 1) e.m (mul om1 g1))
    let zero := b32.dec 0
    let d := if zero.lt u then f32one else if u.lt zero then b32.withSign true f32one else 0
    let m1 := fma (c 2) e.m (mul om2 g1)
    ⟨sub e.p (mul o.lr (fma (c 4) e.p d)), m1, e.v⟩
  else
    let gw := fma (c 4) e.p g1
    let m1 := fma (c 1) e.m (mul om2 gw)
    let d := if c 5 = f32one then fma (c 1) m1 gw else m1
    ⟨sub e.p (mul o.lr d), m1, e.v⟩

/-! ### Storing a parameter (R200, R201) -/

/-- The stored ZL16 code of p1 and its remainder; `u` holds 16 random bits. -/
def paramCode (e : Enc1) (round fine u p1 : Nat) : Enc × Int :=
  let f := sext 8 fine
  let special := wToZl16 (fp32ToW p1) e.coarse f e.w.sat
  match b32.dec p1 with
  | .nan => (special, 0)
  | .inf _ => (special, 0)
  | .fin sg m x =>
    if m = 0 ∨ fine = 0x80 then (⟨0, false⟩, 0)
    else
      let kr : Int × Int :=
        if round = 2 then
          let t := rneLog2 17 m x - (e.coarse * 2 ^ 17 + f * 2 ^ 14)
          ((t + 128) / 256, t - 256 * ((t + 128) / 256))
        else ((rtoLog2 25 m x - (e.coarse * 2 ^ 25 + f * 2 ^ 22) + u) / 2 ^ 16, 0)
      if kr.1 < -16383 then (⟨0, false⟩, 0)
      else if kr.1 > 16382 then
        (if e.w.sat then ⟨sgn16 sg 0x7FFE, true⟩ else ⟨sgn16 sg 0x7FFF, false⟩, 0)
      else (⟨sgn16 sg (kr.1 + 16384).toNat, false⟩, kr.2)

/-- Words that a lane draws for n elements. -/
def laneWords (n lane : Nat) : Nat := if lane < n then ceilDiv (ceilDiv (n - lane) 32) 4 else 0

/-- An APPLY of a plan draws random words: ROUND 1 of a ZL16 parameter. -/
def Plan.draws (p : Plan) (o : RiserOp) : Bool :=
  o.apply && decide (p.fmt o.ptensor = fmtZL16) && ((p.policyOf o.ptensor).map TPolicy.round) == some 1

/-- Words that a lane has drawn in the APPLYs of a share before operation `off`, in record order. -/
def Plan.drawnBefore (p : Plan) (ops : List Op) (off lane : Nat) : Nat :=
  ((ops.take off).map fun
    | .riser o => if p.draws o then laneWords o.elCount lane else 0
    | _ => 0).sum

/-- Random bits of element i of an APPLY. -/
def State.riserBits (s : State) (x : OpCtx) (i : Nat) : Nat :=
  let lane := i % 32
  let n := i / 32
  let c := (tabGet 0 (s.seen x).riser lane).toNat + x.plan.drawnBefore (x.plan.passOps x.lh x.pass) x.off lane
  fld (s.genAt x 0 lane (c + n / 4)).toNat (16 * (n % 4)) 16

/-- Words that each lane draws for n elements. -/
def Attempt.riserDrew (a : Attempt) (h n : Nat) : Attempt :=
  { a with riserDraw := (List.range 32).foldl (fun l lane =>
      if lane < n then addDrawn l h lane (laneWords n lane) else l) a.riserDraw }

/-- The blocks of a parameter with the remainders of their elements; `i0` is the first element's number in the APPLY. -/
def State.paramBlocks (s : State) (x : OpCtx) (st : Staged) (round i0 : Nat) (row : List Nat) (bs : List BlockOut) :
    List (BlockOut × List Int) :=
  let e : Enc1 := ⟨st.d.w, st.coarse, Affine.ofNat st.aff⟩
  (bs.zip (chunksOf st.d.w.blk row)).zipIdx.map fun (p, j) =>
    let cs := p.2.zipIdx.map fun (v, k) =>
      (v, paramCode e round p.1.fine (if round = 1 then s.riserBits x (i0 + st.d.w.blk * j + k) else 0) v)
    ({ p.1 with els := cs.map fun c => elOut e p.1.fine false (.f32 c.1) c.2.1 }, cs.map fun c => c.2.2)

/-- Write p1 to the parameter's staging face and the remainders to theirs. -/
def State.putParam (s : State) (x : OpCtx) (u : Use) (remU : Option Use) (round first : Nat) (rows : List (List Nat)) : State :=
  let s := s.openFace x.page x.slot u .encoded
  match (s.att x.page x.slot).staged? u with
  | none => s
  | some st =>
    if u.d.w.fmt ≠ fmtZL16 ∨ round = 0 then
      s.putRows x.page x.slot u WriteCtx.plain first 0 (rows.map fun r => r.map Val.f32)
    else
      let enc := (st.encodeRows first 0 (rows.map fun r => r.map Val.f32)).1
      let out := (rows.zip enc).zipIdx.map fun (p, i) => s.paramBlocks x st round (i * u.d.cols) p.1 p.2
      let s := if round = 1 then s.modAtt x.page x.slot (·.riserDrew x.hall (rows.length * u.d.cols)) else s
      let s := s.putBlocks x.page x.slot u WriteCtx.plain first 0 u.d.cols (out.map fun r => r.map (·.1)) []
      match remU with
      | none => s
      | some ru =>
        (s.openFace x.page x.slot ru .moved).putCodesRows x.page x.slot ru first 0 ru.coarse
          (out.map fun r => ((r.flatMap (·.2)).map (tc 8), [])) []

/-! ### APPLY -/

def State.riserFace (s : State) (x : OpCtx) (t : Nat) (rows : List Nat) : Except Nat (Option (Use × Face)) :=
  if t = 0xFFFF then .ok none
  else match s.readTensor x.page x.slot x.hall t false rows with
    | .error e => .error e
    | .ok r => .ok (some r)

/-- Everything an APPLY reads: parameter, moments, remainder, SCALARS. -/
structure ApplyIn where
  p  : Use × Face
  (m v rem scal : Option (Use × Face))
deriving DecidableEq, Repr

def State.applyIn (s : State) (x : OpCtx) (o : RiserOp) : Except Nat ApplyIn :=
  let cols := x.plan.colsOf o.ptensor
  let rows := (List.range (o.elCount / cols)).map (o.elFirst / cols + ·)
  match s.riserFace x o.ptensor rows, s.riserFace x o.mtensor rows, s.riserFace x o.vtensor rows,
      s.riserFace x ((x.plan.remOf o.ptensor).getD 0xFFFF) rows,
      s.riserFace x o.scalars (List.range (x.plan.rowsOf o.scalars)) with
  | .ok (some p), .ok m, .ok v, .ok r, .ok c => .ok ⟨p, m, v, r, c⟩
  | .error e, _, _, _, _ => .error e
  | _, .error e, _, _, _ => .error e
  | _, _, .error e, _, _ => .error e
  | _, _, _, .error e, _ => .error e
  | _, _, _, _, .error e => .error e
  | _, _, _, _, _ => .error 0x030D

/-- LR_SCALE and CLIP of SCALARS. -/
def scalarAt (c : Option (Use × Face)) (i : Nat) : Nat :=
  match c with
  | some f => f.2.elemF32 i
  | none => f32one

def optFace (f : Option (Use × Face)) (i : Nat) : Nat :=
  match f with
  | some f => f.2.elemF32 i
  | none => 0

/-- The elements of an APPLY: each old parameter, and what the optimiser makes of its values with the clipped gradient. -/
def State.applyEls (s : State) (x : OpCtx) (o : RiserOp) (pol : TPolicy) (k : Nat) (a : ApplyIn) : List (Nat × Elem) :=
  let H := s.hall x.hall
  let opt := OptCtx.of pol (scalarAt a.scal 0) ((s.seen x).step.toNat + 1)
  (List.range o.elCount).map fun i =>
    let p := a.p.2.param (a.rem.map (·.2)) (o.elFirst + i)
    let g := leNat (memReads H.hbm (H.holdAt o i) 4)
    (p, opt.step ⟨p, optFace a.m (o.elFirst + i), optFace a.v (o.elFirst + i)⟩ (b32.mul .rne g k))

/-- What updated elements add to their layer's norms (R190). -/
def applyNorm (layer : Nat) (els : List (Nat × Elem)) : Norm :=
  ⟨layer, els.length, 0, laneSquares (els.map fun e => f32to64 e.1), 0,
   laneSquares (els.map fun e => b64.sub .rne (f32to64 e.2.p) (f32to64 e.1))⟩

/-- What of a ZT2 parameter (log 20) an APPLY reads counts (R18); Table 06-10 gives its other operands other formats. -/
def State.applyRun (s : State) (x : OpCtx) (o : RiserOp) (pol : TPolicy) (k : Nat) (a : ApplyIn) : Except Nat State :=
  let H := s.hall x.hall
  match H.poisonIn [(H.holdAt o 0, 4 * o.elCount)] with
  | some b => .error (poisonErr b)
  | none =>
    let els := s.applyEls x o pol k a
    let cols := a.p.1.d.cols
    let first := o.elFirst / cols
    let s := s.countRows x a.p.1 ((List.range (o.elCount / cols)).map (first + ·))
    let s := s.putParam x a.p.1 (a.rem.map (·.1)) pol.round first (chunksOf cols (els.map fun e => e.2.p))
    let put := fun (s : State) (f : Option (Use × Face)) (vs : List Nat) => match f with
      | none => s
      | some f => (s.openFace x.page x.slot f.1 .encoded).putRows x.page x.slot f.1 WriteCtx.plain first 0
          (chunksOf cols (vs.map Val.f32))
    let s := put s a.m (els.map fun e => e.2.m)
    let s := put s a.v (els.map fun e => e.2.v)
    .ok (s.modAtt x.page x.slot fun t =>
      { t with
        norms := t.norms ++ [(x.hall, x.off, applyNorm o.layer els)],
        rsrElems := t.rsrElems ++ [(x.hall, o.elCount)] })

/-- An APPLY waits for the verdict; with SKIP it does nothing (R197). -/
def State.riserApply (s : State) (x : OpCtx) (o : RiserOp) : OpEnd :=
  match (s.att x.page x.slot).verdict.find? (·.1 == x.hall) with
  | none => .wait s
  | some v =>
    if v.2.apply then
      match s.applyIn x o, x.plan.policyOf o.ptensor with
      | .ok a, some pol => OpEnd.ofExcept (s.applyRun x o pol v.2.k a)
      | .error e, _ => .fail e
      | .ok _, none => .fail 0x030D
    else .done s

def Op.isRiser (apply : Bool) : Op → Bool
  | .riser o => o.apply == apply
  | _ => false

/-- A residue mismatch on a Riser lane kills the command in place of the operation's end (R265). -/
def riserRow (apply : Bool) (a : Site) (u : Upset) (s : State) : Out :=
  runOp a (fun _ => Op.isRiser apply) (fun x s => match x.op with
    | .riser o =>
      match u.residue, (if apply then s.riserApply x o else s.riserHold x o) with
      | some lane, .done _ => .kill (s.residueHit x.hall x.job x.pass 1 lane)
      | _, r => r
    | _ => .wait s) s

def execHold (a : Site) (u : Upset) (s : State) : Out := riserRow false a u s
def execApply (a : Site) (u : Upset) (s : State) : Out := riserRow true a u s

end Sys2Proof.Machine
end

