-- ==== Sys2Proof/Machine/LinkOps.lean ====
section
/-! DEFINITION. Link operations: SEND, RECV, the Concourse reduction with its verdict, and the timers of links (R195, R196,
R216, R222 to R236, R241 to R244). -/

namespace Sys2Proof.Machine

/-! ### Sending within an attempt -/

/-- Where a link operation runs: page, slot, physical hall, logical hall, plan, and the command's number. -/
structure LinkCtx where
  page : Page
  slot : Nat
  hall : Nat
  lh   : Nat
  plan : Plan
  seq  : Nat
deriving DecidableEq, Repr

def OpCtx.link (x : OpCtx) : LinkCtx := ⟨x.page, x.slot, x.hall, x.lh, x.plan, x.cmd.seq⟩
def LinkCtx.job (k : LinkCtx) : Nat := pageJob k.page
def LinkCtx.routes (k : LinkCtx) : List RouteRec := k.plan.routes.getD k.lh []

/-- The hall's partition is a paired leg. -/
def State.isPaired (s : State) (h : Nat) : Bool :=
  match s.ownerOf h with
  | some v => (s.part v).scState == 1
  | none => false

/-- The channel of a parallel group on a port (R128); channel 0 where the plan gives the group none (log 23). -/
def groupChannel (p : Plan) (lh port group : Nat) : Nat :=
  (p.groupChan? lh port group).getD 0

/-- Send a transfer once in an attempt. A route whose first port is down fails the command, unless the leg is paired
(R209, R277). -/
def State.sendOnce (s : State) (k : LinkCtx) (id : XferId) (dest : Nat) (ports : List Nat) (vc : Nat) (data : List Byte) :
    Except Nat State :=
  if (s.att k.page k.slot).sent.contains (k.hall, id) then .ok s
  else
    let out := s.portOf (ports.getD 0 0)
    let known := (((s.hall k.hall).job k.job).tx? id).map (·.receipt.isSome)
    if !(out.up || out.training) && known != some true && !s.isPaired k.hall then .error 0x0802
    else .ok ((s.sendXfer k.hall k.slot id dest ports vc data).modAtt k.page k.slot fun a =>
      { a with sent := a.sent ++ [(k.hall, id)] })

/-- Receipt code of a completed transfer; a DOWN receipt of a paired leg waits for its relay. -/
def State.receiptOf (s : State) (k : LinkCtx) (id : XferId) : Option Nat :=
  match ((s.hall k.hall).job k.job).tx? id with
  | some t => match t.receipt with
    | some (c, _) => if c = 7 then none else some c
    | none => none
  | none => none

/-- The complete payload of a transfer in the ledger. -/
def State.fullOf (s : State) (k : LinkCtx) (id : XferId) : Option (List Byte) :=
  match ((s.hall k.hall).job k.job).rx? id with
  | some e => if e.st = .full then some e.data else none
  | none => none

/-- ROUND of the operation at an offset of the hall's share: the counter plus the earlier operations on its key (R216). -/
def State.opRound (s : State) (x : OpCtx) (tree : Bool) (key : Nat) : Nat :=
  let j := (s.hall x.hall).job x.job
  let before := (x.plan.passOps x.lh x.pass).take x.off
  if tree then tabGet 0 j.rndT key + treeUses key before
  else tabGet 0 j.rndK key + keyUses key before

def State.linkId (s : State) (k : LinkCtx) (kind key round shard node : Nat) : XferId :=
  s.xid k.hall k.job kind key round shard node

/-! ### Collective records (R239, R240) -/

/-- The transfer digest. -/
def xferDigest (id : XferId) (data : List Byte) : DWord :=
  crc64 (natLE id.key 2 ++ natLE id.round 4 ++ natLE id.shard 4 ++ natLE id.node 4 ++ data)

/-- The record of an operation that used a key in a round: kinds of transfers that it sent and took. -/
def State.collOf (s : State) (k : LinkCtx) (opcode key round : Nat) (sent recv : List Nat) : Coll :=
  let j := (s.hall k.hall).job k.job
  let tx := j.tx.filter fun t => sent.contains t.id.kind && t.id.key == key && t.id.round == round
  let rx := j.rx.filter fun e => recv.contains e.id.kind && e.id.key == key && e.id.round == round && e.st == .full
  let code := fun (t : TxEnt) (c : Nat) => (t.receipt.map (·.1)) == some c
  { hall := k.hall, key := key, opcode := opcode, round := round,
    sent := ((tx.filter (code · 1)).map fun t => xferDigest t.id t.data).foldl (· + ·) 0,
    recv := (rx.map fun e => xferDigest e.id e.data).foldl (· + ·) 0,
    absent := 0, carried := 0, late := (tx.filter (code · 2)).length, stray := 0,
    unanswered := (tx.filter fun t => t.late).length, absList := [] }

def State.addColl (s : State) (k : LinkCtx) (c : Coll) : State :=
  s.modAtt k.page k.slot fun a => { a with colls := a.colls ++ [c] }

/-! ### SEND (R222 to R224) -/

def rowsLead (n : Nat) : Lead := { Lead.none with format := 8, cols := 64, rows := n }
def faceLead (u : Use) (n : Nat) : Lead :=
  { Lead.none with format := u.d.fmtRaw, cols := u.d.cols, rows := n, coarse := u.coarse,
                   affine := if u.d.w.zi then u.aff else 0 }

def wordBytes (l : List Word) : List Byte := l.flatMap fun v => natLE v.toNat 4

/-- A tensor with SIDE travels only whole (R224). -/
def sideWhole (d : TDesc) (first n : Nat) : Bool := !d.w.side || (first == 0 && n == d.rows)

def State.sendData (s : State) (x : OpCtx) (o : SendOp) : Except Nat (List Byte) :=
  if o.tensorRows then
    match s.readTensor x.page x.slot x.hall o.tensor false ((List.range o.count).map (o.first + ·)) with
    | .error e => .error e
    | .ok (u, f) =>
      if u.d.rows < o.first + o.count ∨ !sideWhole u.d o.first o.count then .error 0x0807
      else .ok ((faceLead u o.count).bytes ++ f.rowsBytes o.first o.count)
  else
    let code := (s.viewRow x.page x.slot x.hall o.urow).tag.slots
    match s.rowsAt x o.urow o.count (slotCount code) (some code) none with
    | .error e => .error e
    | .ok rows => .ok ((rowsLead o.count).bytes ++ rows.flatMap wordBytes)

/-- What a SEND of tensor rows reads of a managed ZT2 tensor is counted (R18). -/
def State.countSend (s : State) (x : OpCtx) (o : SendOp) : State :=
  if o.tensorRows then
    match s.readTensor x.page x.slot x.hall o.tensor false ((List.range o.count).map (o.first + ·)) with
    | .ok (u, f) => s.countRead x.page x.slot u ((List.range (o.count * u.d.cols)).map fun i =>
        (o.first * u.d.cols + i, f.elemCode (o.first * u.d.cols + i)))
    | .error _ => s
  else s

/-- A SEND completes when its transfer has a receipt. -/
def State.send (s : State) (x : OpCtx) (o : SendOp) : OpEnd :=
  let k := x.link
  let round := s.opRound x false o.tkey
  let id := s.linkId k kPUSH o.tkey round 0 0
  let r := k.routes.getD o.route ⟨0, []⟩
  match s.sendData x o with
  | .error e => .fail e
  | .ok data => match s.sendOnce k id r.dest r.ports o.vc data with
    | .error e => .fail e
    | .ok s => match s.receiptOf k id with
      | none => .wait s
      | some _ =>
        let s := (s.addColl k (s.collOf k 9 o.tkey round [kPUSH] [])).countSend x o
        let S := s.slotsAt x.page x.slot x.hall o.urow
        .done (if o.release ∧ !o.tensorRows then s.releaseRows x.page x.slot x.hall
          ((List.range (o.count * S)).map (o.urow + ·)) else s)

def execSend (a : Site) (s : State) : Out :=
  runOp a (fun _ o => match o with
    | .send _ => true
    | _ => false) (fun x s => match x.op with
    | .send o => s.send x o
    | _ => .wait s) s

/-! ### RECV into rows and tensors (R224, R225) -/

/-- FP32 rows enter the Undercroft as single partials of ACC 0x6 (R98, log 9). -/
def State.takeRows (s : State) (x : OpCtx) (base : Nat) (l : Lead) (n : Nat) (data : List Byte) : Except Nat State :=
  if l.format ≠ 8 ∨ l.cols ≠ 64 ∨ l.rows ≠ n ∨ data.length ≠ 256 * n then .error 0x0807
  else foldE (fun (s : State) i =>
    s.putSingle x (base + i) 6 8 0 ((List.range 64).map fun c => BitVec.ofNat 32 (u32 data (256 * i + 4 * c)))) s (List.range n)

/-- Bytes of n rows of a tensor as a transfer carries them. -/
def rowsLen (d : TDesc) (n : Nat) : Nat :=
  n * d.rowBytes + (if d.w.plane then n * d.blocks else 0) + (if d.w.side then TDesc.sideLen else 0)

/-- Code of element i of a packed run of bytes. -/
def codeIn (fmt : Nat) (b : List Byte) (i : Nat) : Nat :=
  let n := fmtBits fmt
  if n < 8 then fld (u8 b (i * n / 8)) (i * n % 8) n else leNat (bytesAt b (i * (n / 8)) (n / 8))

/-- The side list in a run of bytes, or nothing when it breaks R29. -/
def sideIn (b : List Byte) (elems : Nat) : Option (List (Nat × Nat)) := readSide (memWrites [] 0 b) 0 elems

/-- Rows that a transfer carries: codes and fine codes. -/
def rowsIn (d : TDesc) (n : Nat) (b : List Byte) : List (List Nat × List Nat) :=
  (List.range n).map fun r =>
    ((List.range d.cols).map (codeIn d.w.fmt (bytesAt b (r * d.rowBytes) d.rowBytes)),
     if d.w.plane then (bytesAt b (n * d.rowBytes + r * d.blocks) d.blocks).map BitVec.toNat else [])

/-- A ZT2 tensor without a plane cannot take a coarse difference (R225). -/
def zt2Stuck (d : TDesc) (src dst : Int) : Bool := d.w.fmt == fmtZT2 && !d.w.plane && src != dst

/-- Coarse scale of the face that an attempt stages. -/
def State.stagedCoarse (s : State) (q : Page) (slot : Nat) (u : Use) : Int :=
  (((s.att q slot).staged? u).map Staged.coarse).getD u.coarse

/-- Stage received tensor data (R224, R225, R352). -/
def State.takeTensor (s : State) (x : OpCtx) (t first n : Nat) (l : Lead) (data : List Byte) : Except Nat State :=
  match (s.att x.page x.slot).use? x.hall t with
  | none => .error 0x030D
  | some u =>
    if l.format ≠ u.d.fmtRaw ∨ l.cols ≠ u.d.cols ∨ l.rows ≠ n ∨ data.length ≠ rowsLen u.d n ∨ u.d.rows < first + n
        ∨ !sideWhole u.d first n then .error 0x0807
    else
      let s := s.openFace x.page x.slot u .moved
      if zt2Stuck u.d l.coarse (s.stagedCoarse x.page x.slot u) then .error 0x0807
      else match (if u.d.w.side then sideIn (data.drop (rowsLen u.d n - TDesc.sideLen)) u.d.elems else some []) with
        | none => .error errFmtSide
        | some side =>
          .ok ((s.faceAffine x.page x.slot u l.affine).putCodesRows x.page x.slot u first 0 l.coarse (rowsIn u.d n data) side)

/-- A RECV waits until its transfer is FULL; `kind` is the transfer's. -/
def State.recvFull (s : State) (x : OpCtx) (o : RecvOp) (kind : Nat) : OpEnd :=
  let k := x.link
  let round := s.opRound x false o.tkey
  match s.fullOf k (s.linkId k kind o.tkey round 0 0) with
  | none => .wait s
  | some b =>
    let (l, data) := Lead.parse b
    let r := if o.mode = 0 then s.takeRows x o.urow l o.count data else s.takeTensor x o.tensor o.first o.count l data
    match r with
    | .error e => .fail e
    | .ok s => .done (s.addColl k (s.collOf k 0xA o.tkey round [kPULLREQ] [kind]))

def Op.isRecv (ok : Nat → Bool) : Op → Bool
  | .recv o => ok o.mode
  | _ => false

def execRecv (a : Site) (s : State) : Out :=
  runOp a (fun _ => Op.isRecv fun m => m < 2) (fun x s => match x.op with
    | .recv o => s.recvFull x o kPUSH
    | _ => .wait s) s

/-! ### PULL (R226) -/

def State.pull (s : State) (x : OpCtx) (o : RecvOp) : OpEnd :=
  let k := x.link
  let id := s.linkId k kPULLREQ o.tkey (s.opRound x false o.tkey) 0 0
  let r := k.routes.getD o.route ⟨0, []⟩
  match s.sendOnce k id r.dest r.ports o.vc
      (Lead.none.bytes ++ pullBody x.plan.planId.toNat o.ptensor o.pfirst o.count) with
  | .error e => .fail e
  | .ok s => s.recvFull x o kPULLDATA

def execPull (a : Site) (s : State) : Out :=
  runOp a (fun _ => Op.isRecv fun m => m == 2) (fun x s => match x.op with
    | .recv o => s.pull x o
    | _ => .wait s) s

/-! ### Restoring a Mezzanine image (R242, R244) -/

/-- ROUND of a Mezzanine transfer: the command's number and the transfer's place in it (log 22). -/
def LinkCtx.mezzRound (k : LinkCtx) (n : Nat) : Nat := (256 * k.seq + n) % 2 ^ 32

/-- Transfers of the Mezzanine: KEY, SHARD and NODE are zero (Table 07-5), and no two commands of a job share a ROUND. -/
def State.mezzId (s : State) (k : LinkCtx) (kind n : Nat) : XferId := s.linkId k kind 0 (k.mezzRound n) 0 0

/-- A tensor of an image: its entry and its data (log 22). -/
structure ImgTensor where
  (tensor fmtRaw rows cols : Nat)
  coarse : Int
  aff    : Nat
  data   : List Byte
deriving DecidableEq, Repr

def ImgTensor.bytes (t : ImgTensor) : List Byte :=
  natLE t.tensor 2 ++ natLE 0 2 ++ natLE t.fmtRaw 4 ++ natLE t.rows 4 ++ natLE t.cols 4 ++ natLE (tc 8 t.coarse) 4
    ++ natLE t.aff 4 ++ natLE t.data.length 8 ++ natLE 0 32 ++ t.data

/-- The n tensors of an image, in order. -/
def imgTensors : Nat → List Byte → List ImgTensor
  | 0, _ => []
  | n + 1, b =>
    let len := u64 b 24
    ⟨u16 b 0, u32 b 4, u32 b 8, u32 b 12, sext 8 (u8 b 16), u32 b 20, bytesAt b 64 len⟩ :: imgTensors n (b.drop (64 + len))

/-- Rows, plane and side list of a tensor's data in an image, each padded to 64 bytes, without the padding. -/
def imgRows (d : TDesc) (b : List Byte) : List Byte × List Byte :=
  let body := bytesAt b 0 (d.rows * d.rowBytes)
  let o1 := roundUp (d.rows * d.rowBytes) 64
  let plane := if d.w.plane then bytesAt b o1 (d.rows * d.blocks) else []
  let o2 := o1 + if d.w.plane then roundUp (d.rows * d.blocks) 64 else 0
  (body ++ plane, b.drop o2)

/-- A tensor's FORMAT, ROWS and COLS are those of its plan record. -/
def ImgTensor.planOk (t : ImgTensor) (p : Plan) : Bool :=
  match p.tensor? t.tensor with
  | none => false
  | some r => r.fmtRaw == t.fmtRaw && r.rows == t.rows && r.cols == t.cols

/-- Stage one tensor of an image. With STATE its face takes the coarse scale and affine word of its entry, and its history
is cleared. -/
def State.takeImg (s : State) (x : OpCtx) (state : Bool) (t : ImgTensor) : Except Nat State :=
  match (s.att x.page x.slot).use? x.hall t.tensor with
  | none => .error 0x0808
  | some u =>
    if !t.planOk x.plan ∨ !u.d.dogleg ∨ u.d.host then .error 0x0808
    else
      let (body, side) := imgRows u.d t.data
      let s := s.openFace x.page x.slot u .moved
      let s := if state then s.modStaged x.page x.slot u fun st => { st with coarse := t.coarse, clears := true } else s
      if zt2Stuck u.d t.coarse (s.stagedCoarse x.page x.slot u) then .error 0x0807
      else match (if u.d.w.side then sideIn side u.d.elems else some []) with
        | none => .error errFmtSide
        | some es =>
          .ok ((s.faceAffine x.page x.slot u t.aff).putCodesRows x.page x.slot u 0 0 t.coarse (rowsIn u.d u.d.rows body) es)

/-- The image behind a slot header passes the checks of R244. -/
def imgOk (p : Plan) (b : List Byte) : Bool :=
  let len := u64 b 32
  u32 b 0 == 0x5A4D5A5A && u64 b 16 == p.planId.toNat && decide (64 + len ≤ b.length)
    && crc64 (bytesAt b 64 len) == BitVec.ofNat 64 (u64 b 40)

def State.restore (s : State) (x : OpCtx) (o : RecvOp) (b : List Byte) : Except Nat State :=
  if !imgOk x.plan b then .error 0x0808
  else
    let ts := imgTensors (u16 b 6) (b.drop (64 + 512))
    let sel := ts.filter fun t => o.tensor == 0xFFFF || t.tensor == o.tensor
    match foldE (fun s t => s.takeImg x o.state t) s sel with
    | .error e => .error e
    | .ok s => .ok (if o.state then s.modAtt x.page x.slot fun a =>
        { a with stateBlk := a.stateBlk ++ [(x.hall, BitVec.ofNat 64 (u64 b 24),
                   (List.range 32).map fun i => BitVec.ofNat 64 (u64 b (64 + 8 * i)))] } else s)

/-- Earlier Mezzanine restores of the hall's share: the round of the next. -/
def mezzBefore (x : OpCtx) : Nat :=
  (((x.plan.passOps x.lh x.pass).take x.off).filter (Op.isRecv fun m => m == 3)).length

def State.mezzRestore (s : State) (x : OpCtx) (o : RecvOp) : OpEnd :=
  let k := x.link
  let n := mezzBefore x
  let r := k.routes.getD o.route ⟨0, []⟩
  match s.sendOnce k (s.mezzId k kMEZZREQ n) r.dest r.ports o.vc (Lead.none.bytes ++ padTo 64 (natLE o.slot 1)) with
  | .error e => .fail e
  | .ok s => match s.fullOf k (s.mezzId k kMEZZDATA n) with
    | none => .wait s
    | some b => match s.restore x o (Lead.parse b).2 with
      | .error e => .fail e
      | .ok s => .done (s.addColl k (s.collOf k 0xA 0 (k.mezzRound n) [kMEZZREQ] [kMEZZDATA]))

def execMezzRestore (a : Site) (s : State) : Out :=
  runOp a (fun _ => Op.isRecv fun m => m == 3) (fun x s => match x.op with
    | .recv o => s.mezzRestore x o
    | _ => .wait s) s

end Sys2Proof.Machine
end

