-- ==== Sys2Proof/Machine/Concourse.lean ====
section
/-! DEFINITION. The Concourse: node values, deadlines, carry, the REDUCE operations and the verdict (R195, R196, R227 to
R236, R238). -/

namespace Sys2Proof.Machine

/-! ### Norm packets (Table 06-8) -/

def NormPkt.zero : NormPkt := ⟨0, 0, 0, 0, 0, 0, false⟩

def NormPkt.bytes (p : NormPkt) : List Byte :=
  natLE p.sumsq 8 ++ natLE p.nf 4 ++ natLE p.lossNf 4 ++ natLE p.halls 4 ++ natLE p.carried 4 ++ natLE p.absent 4
    ++ natLE (b2n p.normAbsent) 4

def NormPkt.parse (b : List Byte) : NormPkt :=
  ⟨u64 b 0, u32 b 8, u32 b 12, u32 b 16, u32 b 20, u32 b 24, bit (u8 b 28) 0⟩

/-- Left plus right (R195). -/
def NormPkt.add (a b : NormPkt) : NormPkt :=
  let n := satAdd 0xFFFFFFFF
  ⟨b64.add .rne a.sumsq b.sumsq, n a.nf b.nf, n a.lossNf b.lossNf, n a.halls b.halls, n a.carried b.carried,
   n a.absent b.absent, a.normAbsent || b.normAbsent⟩

/-! ### Node values (R229) -/

/-- What a node's value is: FP32 rows, a norm packet, or the leaves' elements one after another. -/
inductive CKind where
  | sum
  | pkt
  | cat
deriving DecidableEq, Repr

/-- A collective as one hall runs it. `down` says that the root's value returns; `forced` are the children that ABSLIST
names, or nothing without FORCE. -/
structure CollCtx where
  k      : LinkCtx
  tree   : TreeRec
  round  : Nat
  shards : List Nat
  kind   : CKind
  up     : Bool
  down   : Bool
  len    : Nat             -- payload bytes of one value; 0 for CKind.cat
  forced : Option (List (Nat × Nat))
deriving DecidableEq, Repr

def State.rankOf (s : State) (c : CollCtx) : Nat := s.rank c.k.hall

def CollCtx.lead (c : CollCtx) (v : NodeVal) : Lead :=
  { tdigest := c.tree.tdigest, format := v.format, cols := v.cols, rows := v.rows, coarse := v.coarse, leaves := v.leaves, absent := v.absent,
    carried := v.carried, affine := v.aff, list := v.list }

def CollCtx.payload (c : CollCtx) (v : NodeVal) : List Byte :=
  (c.lead v).bytes ++ (match v.pkt with
    | some p => p.bytes
    | none => if c.kind = .cat then v.raw else wordBytes v.data)

def wordsOf (b : List Byte) : List Word := (List.range (b.length / 4)).map fun i => BitVec.ofNat 32 (u32 b (4 * i))

/-- The value of a child's transfer; its length must be the collective's. -/
def CollCtx.value (c : CollCtx) (shard : Nat) (b : List Byte) : Except Nat NodeVal :=
  let (l, d) := Lead.parse b
  if c.len ≠ 0 ∧ d.length ≠ c.len then .error 0x0807
  else .ok { hall := c.k.hall, tree := c.tree.num, shard := shard, data := if c.kind = .sum then wordsOf d else [],
             raw := if c.kind = .cat then d else [], cols := l.cols, rows := l.rows,
             pkt := if c.kind = .pkt then some (NormPkt.parse d) else none, leaves := l.leaves, absent := l.absent,
             carried := l.carried, list := l.list, format := l.format, coarse := l.coarse, aff := l.affine }

def addWords (a b : List Word) : List Word := (addRows a b).1

def pktAdd (a b : Option NormPkt) : Option NormPkt :=
  match a, b with
  | some x, some y => some (x.add y)
  | some x, none => some x
  | none, y => y

/-- An absent child leaves the left value; in a norm packet it enters as zero and sets NORM_ABSENT. -/
def NodeVal.withAbsent (a : NodeVal) (child leaves : Nat) : NodeVal :=
  { a with leaves := a.leaves + leaves, absent := a.absent + leaves, list := a.list ++ [child],
           pkt := a.pkt.map fun p => { p with normAbsent := true } }

def NodeVal.withChild (k : CKind) (a r : NodeVal) : NodeVal :=
  { a with data := addWords a.data r.data, raw := a.raw ++ r.raw, rows := if k = .cat then a.rows + r.rows else a.rows, pkt := pktAdd a.pkt r.pkt, leaves := a.leaves + r.leaves, absent := a.absent + r.absent,
           carried := a.carried + r.carried, list := a.list ++ r.list }

/-- The UP transfer of a child of a shard. -/
def State.upId (s : State) (c : CollCtx) (shard child : Nat) : XferId := s.linkId c.k kUP c.tree.num c.round shard child
def State.downId (s : State) (c : CollCtx) (shard child : Nat) : XferId := s.linkId c.k kDOWN c.tree.num c.round shard child

/-- What is known of a right child: nothing yet, ABSENT, or its value. A child whose absence is proposed to the partner is
awaited, whatever has arrived of it (R274). -/
inductive ChildSt where
  | awaited
  | absent
  | value (v : NodeVal)
deriving DecidableEq, Repr

def State.child (s : State) (c : CollCtx) (shard w : Nat) : Except Nat ChildSt :=
  if ((c.forced.map fun l => l.contains (shard, w)).getD false) then .ok .absent
  else if ((s.hall c.k.hall).job c.k.job).proposed.contains (s.upId c shard w) then .ok .awaited
  else match ((s.hall c.k.hall).job c.k.job).rx? (s.upId c shard w) with
    | none => .ok .awaited
    | some e => match e.st with
      | .open_ | .late => .ok .awaited
      | .absent => .ok .absent
      | .full => match c.value shard e.data with
        | .error x => .error x
        | .ok v => .ok (.value v)

/-- The value of the highest node that this rank computes for a shard, or nothing while a child is awaited. -/
def State.upValue (s : State) (c : CollCtx) (shard : Nat) : List Nat → NodeVal → Except Nat (Option NodeVal)
  | [], a => .ok (some a)
  | w :: ws, a =>
    match s.child c shard w with
    | .error x => .error x
    | .ok .awaited => .ok none
    | .ok st =>
      let a := match st with
        | .value r => a.withChild c.kind r
        | _ => a.withAbsent w (c.tree.leavesOf w).length
      if 255 < a.list.length then .error 0x0806 else s.upValue c shard ws a

/-! ### Carry (R234) -/

def HJob.carry? (j : HJob) (tree shard : Nat) : Option NodeVal :=
  (j.carry.find? fun e => e.tree == tree && e.shard == shard).map Carry.v

/-- `outgoing`: the carried value on the left. -/
def outgoing (carry : Option NodeVal) (x : NodeVal) : NodeVal :=
  match carry with
  | none => x
  | some k => { x with data := addWords k.data x.data, carried := x.carried + (k.leaves - k.absent) }

/-! ### Routes of the Concourse -/

/-- The first route of the hall to a rank, with the channel of the tree's group on its first port; a rank without a route
cannot be reached. -/
def CollCtx.route (c : CollCtx) (rank : Nat) : Except Nat (RouteRec × Nat) :=
  match c.k.routes.find? fun r => r.dest == rank with
  | some r => .ok (r, groupChannel c.k.plan c.k.lh (r.ports.getD 0 0) c.tree.vgroup)
  | none => .error 0x0802

def State.sendTo (s : State) (c : CollCtx) (id : XferId) (rank : Nat) (v : NodeVal) : Except Nat State :=
  match c.route rank with
  | .error e => .error e
  | .ok (r, vc) => s.sendOnce c.k id r.dest r.ports vc (c.payload v)

/-! ### One shard -/

/-- How far a shard is: the state, whether all its transfers are complete, and the root's value once known here. -/
structure ShardRes where
  s    : State
  done : Bool
  root : Option NodeVal
deriving DecidableEq, Repr

/-- A late UP value under carry is staged, and a carried value that was sent is used up. -/
def State.stageCarry (s : State) (c : CollCtx) (shard : Nat) (v : NodeVal) (code : Nat) : State :=
  let used := (((s.hall c.k.hall).job c.k.job).carry? c.tree.num shard).isSome
  s.modAtt c.k.page c.k.slot fun a =>
    { a with
      carryUse := a.carryUse.filter (· != (c.k.hall, c.tree.num, shard)) ++ (if used then [(c.k.hall, c.tree.num, shard)] else []),
      carryNew := a.carryNew.filter (fun e => !(e.1 == c.k.hall && e.2.1 == c.tree.num && e.2.2.shard == shard))
        ++ (if c.tree.carry && (code == 2 || code == 8) then [(c.k.hall, c.tree.num, v)] else []) }

/-- Send a shard's value up and follow its receipt. -/
def State.goUp (s : State) (c : CollCtx) (shard leaf : Nat) (v : NodeVal) : Except Nat (State × Bool) :=
  match c.tree.parentOf? (c.tree.top leaf) with
  | none => .ok (s, true)
  | some n =>
    let v := outgoing (((s.hall c.k.hall).job c.k.job).carry? c.tree.num shard) v
    let id := s.upId c shard (c.tree.top leaf)
    match s.sendTo c id (c.tree.computedBy shard n) v with
    | .error e => .error e
    | .ok s => match s.receiptOf c.k id with
      | none => .ok (s, false)
      | some code => .ok (s.stageCarry c shard v code, true)

/-- Send the root's value to the ranks of the right children. -/
def State.goDown (s : State) (c : CollCtx) (shard : Nat) (v : NodeVal) : List Nat → Except Nat (State × Bool)
  | [] => .ok (s, true)
  | w :: ws =>
    let id := s.downId c shard w
    match s.sendTo c id (c.tree.computedBy shard w) v with
    | .error e => .error e
    | .ok s =>
      let got := (s.receiptOf c.k id).isSome
      match s.goDown c shard v ws with
      | .error e => .error e
      | .ok (s, b) => .ok (s, b && got)

/-- The root's value that came down, in a rank that is not the owner. -/
def State.downValue (s : State) (c : CollCtx) (shard leaf : Nat) : Except Nat (Option NodeVal) :=
  match s.fullOf c.k (s.downId c shard (c.tree.top leaf)) with
  | none => .ok none
  | some b => match c.value shard b with
    | .error e => .error e
    | .ok v => .ok (some v)

/-- One shard at a rank. Its owner is the rank of leaf 0 (R126). DESIGN CHOICE: R125 lets the root's leftmost leaf be another one; the
value of the highest node that leaf 0 computes then stands for the root's (log 118). -/
def State.shardStep (s : State) (c : CollCtx) (own : NodeVal) (shard : Nat) : Except Nat ShardRes :=
  match c.tree.leafOf? shard (s.rankOf c) with
  | none => .ok ⟨s, true, none⟩
  | some leaf =>
    let owner := leaf == 0
    match (if c.up then s.upValue c shard (c.tree.awaits leaf) own else .ok (some own)) with
    | .error e => .error e
    | .ok none => .ok ⟨s, false, none⟩
    | .ok (some v) =>
      match (if owner || !c.up then .ok (s, true) else s.goUp c shard leaf v) with
      | .error e => .error e
      | .ok (s, upDone) =>
        if !c.down then .ok ⟨s, upDone, if owner then some v else none⟩
        else match (if owner then .ok (some v) else s.downValue c shard leaf) with
          | .error e => .error e
          | .ok none => .ok ⟨s, false, none⟩
          | .ok (some r) => match s.goDown c shard r (c.tree.awaits leaf) with
            | .error e => .error e
            | .ok (s, downDone) => .ok ⟨s, upDone && downDone, some r⟩

/-- Every shard in ascending order: the state, whether all are complete, the roots known here. -/
def State.collStep (c : CollCtx) (own : Nat → NodeVal) : List Nat → State → Except Nat (State × Bool × List NodeVal)
  | [], s => .ok (s, true, [])
  | sh :: r, s =>
    match s.shardStep c (own sh) sh with
    | .error e => .error e
    | .ok x => match State.collStep c own r x.s with
      | .error e => .error e
      | .ok (s, d, vs) => .ok (s, x.done && d, x.root.toList ++ vs)

/-- From the first frame that it sends or awaits, a command is in a collective window (R238). -/
def State.enterWindow (s : State) (k : LinkCtx) : State := s.modAtt k.page k.slot fun a => { a with collective := true }

/-- A collective sends or awaits a frame at this rank: a value that goes up or comes down, that of a right child that FORCE does not
name, or one that goes down to a right child. -/
def State.hasFrames (s : State) (c : CollCtx) : Bool :=
  c.shards.any fun sh => match c.tree.leafOf? sh (s.rankOf c) with
    | none => false
    | some leaf => leaf != 0 || (c.tree.awaits leaf).any fun w => c.down || (c.up && !(c.forced.map fun l => l.contains (sh, w)).getD false)

/-- With FORCE the named children are ABSENT from the start, and their frames are answered LATE. -/
def State.markForced (s : State) (c : CollCtx) : State :=
  match c.forced with
  | none => s
  | some l => l.foldl (fun s e =>
      if c.shards.contains e.1 && (match c.tree.leafOf? e.1 (s.rankOf c) with
          | some leaf => (c.tree.awaits leaf).contains e.2
          | none => false) then
        s.modHJob c.k.hall c.k.job fun j => j.markAbsent (s.upId c e.1 e.2)
      else s) s

/-- A child of the collective stands as ABSENT in the ledger, or a root value lacks leaves. -/
def State.lostLeaves (s : State) (c : CollCtx) (roots : List NodeVal) : Bool :=
  roots.any (fun v => v.absent != 0) || ((s.hall c.k.hall).job c.k.job).rx.any fun e =>
    e.id.kind == kUP && e.id.key == c.tree.num && e.id.round == c.round && e.st == .absent

/-- The collective record of a finished collective, with what the owned shards lost, and the ABSENT flag. -/
def State.collDone (s : State) (c : CollCtx) (opcode : Nat) (roots : List NodeVal) : State :=
  let mine := roots.filter fun v => c.tree.owner v.shard == s.rankOf c
  let r := s.collOf c.k opcode c.tree.num c.round [kUP, kDOWN] [kUP, kDOWN]
  let s := s.modCmd c.k.page c.k.slot fun x => { x with absentF := x.absentF || s.lostLeaves c roots }
  s.addColl c.k { r with absent := (mine.map NodeVal.absent).sum, carried := (mine.map NodeVal.carried).sum,
                         absList := mine.flatMap fun v => v.list.map fun w => (v.shard, w) }

/-- The owner's step accumulators (R231). -/
def State.countAbsent (s : State) (c : CollCtx) (roots : List NodeVal) : State :=
  let mine := roots.filter fun v => c.tree.owner v.shard == s.rankOf c
  s.modAtt c.k.page c.k.slot fun a =>
    { a with absents := a.absents ++ mine.map fun v => (c.k.hall, v.absent, v.carried) }

/-! ### REDUCE -/

/-- Entries of an ABSLIST (R233); malformed when its bytes are no whole entries or name no right child of the tree. -/
def State.absList (s : State) (x : OpCtx) (o : ReduceOp) (t : TreeRec) : Except Nat (Option (List (Nat × Nat))) :=
  if !o.force then .ok none
  else match s.readTensor x.page x.slot x.hall o.abslist false (List.range (x.plan.rowsOf o.abslist)) with
    | .error e => .error (if isPoison e then e else 0x0806)
    | .ok (u, f) =>
      let b := (List.range u.d.rows).flatMap fun r => memReads f.m (u.d.base f.k + r * u.d.pitch) u.d.rowBytes
      let es := (List.range (b.length / 8)).map fun i => (u32 b (8 * i), u32 b (8 * i + 4))
      if u.d.rowBytes % 8 ≠ 0 ∨ es.any (fun e => decide (t.shards ≤ e.1) || (t.parentOf? e.2).isNone) then .error 0x0806
      else .ok (some es)

def NodeVal.leaf (h tree shard : Nat) (data : List Word) (pkt : Option NormPkt) : NodeVal :=
  ⟨h, tree, shard, data, [], if pkt.isSome then 0 else 64, data.length / 64, pkt, 1, 0, 0, [], if pkt.isSome then 0 else 8, 0, 0⟩

def State.reduceCtx (s : State) (x : OpCtx) (o : ReduceOp) (t : TreeRec) : Except Nat CollCtx :=
  match s.absList x o t with
  | .error e => .error e
  | .ok forced =>
    .ok { k := x.link, tree := t, round := s.opRound x true o.tree, shards := (List.range o.shCount).map (o.shFirst + ·),
          kind := if o.mode = 3 then .pkt else .sum, up := true, down := decide (2 ≤ o.mode),
          len := if o.mode = 3 then 32 else 256 * o.srows, forced := forced }

/-- The hall's own values, shard by shard (R228). -/
def State.reduceOwn (s : State) (x : OpCtx) (o : ReduceOp) : Except Nat (Nat → NodeVal) :=
  if o.mode = 3 then .ok fun sh => NodeVal.leaf x.hall o.tree sh [] (some (s.seen x).pkt)
  else
    let code := (s.viewRow x.page x.slot x.hall o.urow).tag.slots
    match s.rowsAt x o.urow (o.shCount * o.srows) (slotCount code) (some code) none with
    | .error e => .error e
    | .ok rows => .ok fun sh =>
        NodeVal.leaf x.hall o.tree sh ((rows.drop ((sh - o.shFirst) * o.srows)).take o.srows).flatten none

/-- Rows of root values at DROW, as single partials of ACC 0x6. -/
def State.putRoots (s : State) (x : OpCtx) (o : ReduceOp) (vs : List NodeVal) : Except Nat State :=
  foldE (fun (s : State) (v : NodeVal) =>
    foldE (fun (s : State) i =>
      s.putSingle x (o.drow + (v.shard - o.shFirst) * o.srows + i) 6 8 0 ((v.data.drop (64 * i)).take 64)) s
      (List.range o.srows)) s vs

/-! ### The verdict (R196) -/

/-- The first APPLY of the hall's share that waits for a norm tree. DESIGN CHOICE: where the APPLYs of one tree name different SCALARS,
which R196 does not foresee, those of the first decide the verdict and the clip factor, and each has its own LR_SCALE (log 131). -/
def applyOf (x : OpCtx) (tree : Nat) : Option RiserOp :=
  firstSome (fun o => match o with
    | .riser r => if r.apply ∧ r.tree = tree then some r else none
    | _ => none) (x.plan.passOps x.lh x.pass)

/-- The clip factor as FP32. -/
def clipFactor (sumsq clip : Nat) : Nat :=
  let c := f32to64 clip
  let r := b64.sqrt .rne sumsq
  if (b64.dec c).le (b64.dec 0) || (b64.dec r).le (b64.dec c) then f32one
  else f64to32 .rne (b64.div .rne c r)

def verdictOf (p : NormPkt) (lr clip : Nat) : Verdict :=
  let ok := (b32.dec lr).isFin && (b32.dec clip).isFin
  { apply := p.nf == 0 && p.lossNf == 0 && (b64.dec p.sumsq).isFin && !p.normAbsent && ok,
    k := clipFactor p.sumsq clip, pkt := p, scalarBad := !ok }

/-- Evaluate the root's packet with the hall's own SCALARS; a hall without an APPLY has none to read. -/
def State.evalVerdict (s : State) (x : OpCtx) (tree : Nat) (p : NormPkt) : Except Nat State :=
  let put := fun (v : Verdict) => s.modAtt x.page x.slot fun a => { a with verdict := a.verdict ++ [(x.hall, v)] }
  match applyOf x tree with
  | none => .ok (put (verdictOf p f32one 0))
  | some r => match s.riserFace x r.scalars (List.range (x.plan.rowsOf r.scalars)) with
    | .error e => .error e
    | .ok f => .ok (put (verdictOf p (scalarAt f 0) (scalarAt f 1)))

/-! ### The rows -/

/-- Deliver the roots of a finished REDUCE by its mode (R231). -/
def State.deliver (s : State) (x : OpCtx) (o : ReduceOp) (c : CollCtx) (roots : List NodeVal) : Except Nat State :=
  let s := (s.collDone c 0xB roots).countAbsent c roots
  if o.mode = 3 then (match roots with
    | v :: _ => s.evalVerdict x o.tree (v.pkt.getD NormPkt.zero)
    | [] => .ok s)
  else if o.mode = 0 then
    .ok (s.modAtt x.page x.slot fun a => a.putHanded x.hall o.tree (a.handed x.hall o.tree ++ roots.flatMap NodeVal.data))
  else s.putRoots x o roots

def State.reduce (s : State) (x : OpCtx) (o : ReduceOp) : OpEnd :=
  match x.plan.tree? o.tree with
  | none => .fail 0x0801
  | some t => match s.reduceCtx x o t, s.reduceOwn x o with
    | .error e, _ => .fail e
    | _, .error e => .fail e
    | .ok c, .ok own =>
      if ((s.hall x.hall).job x.job).treeBad t c.round then .fail 0x0801
      else match State.collStep c own c.shards ((if s.hasFrames c then s.enterWindow c.k else s).markForced c) with
      | .error e => .fail e
      | .ok (s, false, _) => .wait s
      | .ok (s, true, roots) => match s.deliver x o c roots with
        | .error e => .fail e
        | .ok s =>
          let S := s.slotsAt x.page x.slot x.hall o.urow
          .done (if o.release ∧ o.mode ≠ 3 then s.releaseRows x.page x.slot x.hall
            ((List.range (o.shCount * o.srows * S)).map (o.urow + ·)) else s)

def Op.isReduce (mode : Nat) : Op → Bool
  | .reduce o => o.mode == mode
  | _ => false

def reduceRow (mode : Nat) (a : Site) (s : State) : Out :=
  runOp a (fun _ => Op.isReduce mode) (fun x s => match x.op with
    | .reduce o => s.reduce x o
    | _ => .wait s) s

def execReduceToRiserHold (a : Site) (s : State) : Out := reduceRow 0 a s
def execReduceToOwnerRows (a : Site) (s : State) : Out := reduceRow 1 a s
def execAllReduce (a : Site) (s : State) : Out := reduceRow 2 a s
def execNormPacket (a : Site) (s : State) : Out := reduceRow 3 a s

end Sys2Proof.Machine
end

