-- ==== Sys2Proof/Machine/Gang.lean ====
section
/-! DEFINITION. GANG commands (R237) and the timers of links (R169, R170, R232, R236, R274). -/

namespace Sys2Proof.Machine

/-! ### Runs of elements of a tensor -/

/-- The pieces of rows that elements e0 to e0 + n − 1 make: row, first column, length. -/
def segments (cols e0 n : Nat) : List (Nat × Nat × Nat) :=
  if n = 0 ∨ cols = 0 then []
  else (List.range ((e0 + n - 1) / cols + 1 - e0 / cols)).map fun i =>
    let r := e0 / cols + i
    let c0 := if r * cols < e0 then e0 - r * cols else 0
    (r, c0, min cols (e0 + n - r * cols) - c0)

/-- Blocks that start in a piece of a row: the first, and how many. A block goes with the piece of its first element. -/
def segBlocks (d : TDesc) (g : Nat × Nat × Nat) : Nat × Nat :=
  let j := ceilDiv g.2.1 d.w.blk
  (j, ceilDiv (g.2.1 + g.2.2) d.w.blk - j)

/-- Codes as packed bytes. -/
def packCodes (fmt : Nat) (codes : List Nat) : List Byte :=
  memReads (putCodes [] fmt 0 0 codes) 0 (ceilDiv (codes.length * fmtBits fmt) 8)

/-- The stored bytes of each row's piece, then the pieces' fine codes, then the side list of a whole tensor (R223); a piece that
begins within a byte stands from bit 0 of a byte on (log 21). -/
def Face.runBytes (f : Face) (e0 n : Nat) : List Byte :=
  let d := f.d
  let segs := segments d.cols e0 n
  (segs.flatMap fun g => packCodes d.w.fmt ((List.range g.2.2).map fun i => f.elemCode (g.1 * d.cols + g.2.1 + i)))
    ++ (if d.w.plane then segs.flatMap fun g =>
          (List.range (segBlocks d g).2).map fun j => BitVec.ofNat 8 (f.fine g.1 ((segBlocks d g).1 + j)) else [])
    ++ (if d.w.side then memReads f.m (d.sideBase f.k) TDesc.sideLen else [])

/-- Bytes of the codes of one piece, and of all pieces. -/
def segBytes (d : TDesc) (g : Nat × Nat × Nat) : Nat := ceilDiv (g.2.2 * fmtBits d.w.fmt) 8
def runCodes (d : TDesc) (e0 n : Nat) : Nat := ((segments d.cols e0 n).map (segBytes d)).sum

def runFines (d : TDesc) (e0 n : Nat) : Nat :=
  if d.w.plane then ((segments d.cols e0 n).map fun g => (segBlocks d g).2).sum else 0

/-- Bytes of a run of elements. -/
def runLen (d : TDesc) (e0 n : Nat) : Nat :=
  runCodes d e0 n + runFines d e0 n + (if d.w.side then TDesc.sideLen else 0)

/-- Stage a run of elements at its coarse scale (R225). -/
def State.putRun (s : State) (q : Page) (slot : Nat) (u : Use) (e0 n : Nat) (cs : Int) (b : List Byte) : Except Nat State :=
  let d := u.d
  let nc := runCodes d e0 n
  let fines := (bytesAt b nc (runFines d e0 n)).map BitVec.toNat
  match (if d.w.side then sideIn (b.drop (nc + runFines d e0 n)) d.elems else some []) with
  | none => .error errFmtSide
  | some side =>
    .ok ((segments d.cols e0 n).foldl (fun (z : State × Nat × Nat) g =>
      let nb := if d.w.plane then (segBlocks d g).2 else 0
      let codes := (List.range g.2.2).map (codeIn d.w.fmt (bytesAt b z.2.1 (segBytes d g)))
      (z.1.putCodesRows q slot u g.1 g.2.1 cs [(codes, (fines.drop z.2.2).take nb)] side, z.2.1 + segBytes d g, z.2.2 + nb))
      (s, 0, 0)).1

/-! ### A GANG in the hall of its bindings -/

structure GangCtx where
  c    : CollCtx
  op   : Nat
  src  : Use
  tgt  : Use
  e    : Nat              -- elements of one shard
  rank : Nat
deriving DecidableEq, Repr

/-- The rank of a GANG is the hall of its target (log 24). -/
def State.gangCtx (s : State) (q : Page) (cmd : Cmd) : Option GangCtx :=
  match s.plan? q, cmd.att.uses with
  | some p, [a, b] => (p.tree? cmd.desc.tree).map fun t =>
      let h := b.hall
      let k : LinkCtx := ⟨q, cmd.slot, h, h - (s.part (pageFn q)).base, p, cmd.seq⟩
      let e := b.d.elems / t.shards
      let op := cmd.desc.gangOp
      { c := { k := k, tree := t, round := tabGet 0 ((s.hall h).job (pageJob q)).rndT t.num,
               shards := (List.range cmd.desc.shCount).map (cmd.desc.shFirst + ·),
               kind := if op ≤ 2 then .sum else .cat, up := op != 4, down := op == 2 || op == 4,
               len := if op ≤ 2 then 4 * e else 0, forced := none },
        op := op, src := a, tgt := b, e := e, rank := s.rank h }
  | _, _ => none

/-- Rows that a run of elements has a piece of. -/
def runRows (d : TDesc) (e0 n : Nat) : Nat := (segments d.cols e0 n).length

/-- A leaf block of a gather: its own lead block, and the elements (log 21). -/
def gatherBlock (f : Face) (u : Use) (n : Nat) : List Byte :=
  { Lead.none with format := u.d.fmtRaw, cols := u.d.cols, rows := runRows u.d 0 n, coarse := u.coarse,
                   affine := if u.d.w.zi then u.aff else 0 }.bytes ++ f.runBytes 0 n

/-- First element of the source that a shard takes: a gather takes the source from its first one. -/
def GangCtx.from_ (g : GangCtx) (sh : Nat) : Nat := if g.op = 3 then 0 else sh * g.e

/-- The hall's own value for a shard, under the lead block of R223. -/
def GangCtx.own (g : GangCtx) (f : Face) (sh : Nat) : NodeVal :=
  let e0 := g.from_ sh
  let base := { NodeVal.leaf g.tgt.hall g.c.tree.num sh [] none with
    format := g.src.d.fmtRaw, cols := g.src.d.cols, rows := runRows g.src.d e0 g.e, coarse := g.src.coarse,
    aff := if g.src.d.w.zi then g.src.aff else 0 }
  if g.op ≤ 2 then { base with data := (List.range g.e).map fun i => BitVec.ofNat 32 (f.elemF32 (e0 + i)) }
  else { base with raw := if g.op = 3 then gatherBlock f g.src g.e else f.runBytes e0 g.e }

/-- What a GANG reads of a managed ZT2 tensor is counted (R18): a reduction reads each of its shards, a gather its source, a
broadcast the owned shards. -/
def State.countGang (s : State) (q : Page) (slot : Nat) (g : GangCtx) (f : Face) : State :=
  let shs := if g.op ≤ 2 then g.c.shards else if g.op = 3 then [0] else g.c.shards.filter fun sh => g.c.tree.owner sh == g.rank
  s.countRead q slot g.src (shs.flatMap fun sh => (List.range g.e).map fun i => (g.from_ sh + i, f.elemCode (g.from_ sh + i)))

/-- A run of received elements must have the target's format and length (R224). -/
def State.takeRun (s : State) (q : Page) (slot : Nat) (u : Use) (e0 n fmtRaw : Nat) (coarse : Int) (aff : Nat) (b : List Byte) :
    Except Nat State :=
  if fmtRaw ≠ u.d.fmtRaw ∨ b.length < runLen u.d e0 n ∨ zt2Stuck u.d coarse (s.stagedCoarse q slot u)
      ∨ (u.d.w.side ∧ (e0 ≠ 0 ∨ n ≠ u.d.elems)) then .error 0x0807
  else (s.faceAffine q slot u aff).putRun q slot u e0 n coarse b

/-- Leaves of the tree, left to right, that a root value holds. -/
def presentLeaves (t : TreeRec) (absent : List Nat) : List Nat :=
  let out := absent.flatMap t.leavesOf
  (t.leavesOf 0).filter fun l => !out.contains l

/-- A gathered root: leaf blocks of equal length, each at the elements of its rank entry. -/
def State.putGather (s : State) (q : Page) (slot : Nat) (g : GangCtx) (v : NodeVal) : Except Nat State :=
  let ls := presentLeaves g.c.tree v.list
  let b := v.raw
  let n := b.length / ls.length
  foldE (fun (s : State) (x : Nat × Nat) =>
    let blk := bytesAt b (x.2 * n) n
    let (l, d) := Lead.parse blk
    let entry := (x.1 + v.shard) % g.c.tree.ranks.length
    s.takeRun q slot g.tgt (entry * g.e) g.e l.format l.coarse l.affine d) s ls.zipIdx

/-- FP32 values into the target; a target of another format is encoded (log 24). -/
def State.putSums (s : State) (q : Page) (slot : Nat) (g : GangCtx) (v : NodeVal) : Except Nat State :=
  if g.tgt.d.w.fmt = fmtFP32 then s.putRun q slot g.tgt (v.shard * g.e) g.e g.tgt.coarse (wordBytes v.data)
  else .ok ((segments g.tgt.d.cols (v.shard * g.e) g.e).foldl (fun (z : State × Nat) x =>
    (z.1.putSpan q slot g.tgt WriteCtx.plain x.1 x.2.1 [((v.data.drop z.2).take x.2.2).map fun w => Val.f32 w.toNat],
     z.2 + x.2.2)) (s, 0)).1

/-- What a finished GANG writes (Table 07-13). -/
def State.gangWrite (s : State) (q : Page) (slot : Nat) (g : GangCtx) (roots : List NodeVal) : Except Nat State :=
  if roots.isEmpty then .ok s
  else
    let s := s.openFace q slot g.tgt .moved
    foldE (fun (s : State) (v : NodeVal) =>
      if g.op ≤ 2 then s.putSums q slot g v
      else if g.op = 3 then s.putGather q slot g v
      else s.takeRun q slot g.tgt (v.shard * g.e) g.e v.format v.coarse v.aff v.raw) s roots

/-- A command that is no RUN marks its work done here. -/
def Attempt.finish (a : Attempt) : Attempt := a.addDone 0x100 0
def Attempt.finished (a : Attempt) : Bool := !(a.doneAt 0x100).isEmpty

/-- The source face of a GANG, unless a read of it meets poison. -/
def State.gangFace (s : State) (g : GangCtx) : Except Nat Face :=
  match s.readsClean g.src (g.src.d.faceSpans g.src.face) with
  | .error e => .error e
  | .ok _ => s.useFace g.src

def State.gangStep (s : State) (q : Page) (cmd : Cmd) (g : GangCtx) : Except Nat State :=
  match s.gangFace g with
  | .error e => .error e
  | .ok f => if ((s.hall g.tgt.hall).job (pageJob q)).treeBad g.c.tree g.c.round then .error 0x0801
    else match State.collStep g.c (g.own f) g.c.shards s with
    | .error e => .error e
    | .ok (s, false, _) => .ok s
    | .ok (s, true, roots) =>
      match s.gangWrite q cmd.slot g (if g.op = 2 ∨ g.op = 4 then roots
          else roots.filter fun v => g.c.tree.owner v.shard == g.rank) with
      | .error e => .error e
      | .ok s =>
        let s := ((s.collDone g.c (0x80 + g.op) roots).countAbsent g.c roots).countGang q cmd.slot g f
        .ok (s.modAtt q cmd.slot Attempt.finish)

/-- A failure of a command that is no RUN; a poisoned read is logged. -/
def State.failWork (s : State) (q : Page) (cmd : Cmd) (code : Nat) : State :=
  let s := if isPoison code then
      s.log ((cmd.att.uses.map Use.hall).headD (s.part (pageFn q)).base) ⟨0x11, pageJob q, 0, 0xFFFF, code / 65536⟩ else s
  s.failCmd q cmd.slot (code % 65536) 0xFFFF

/-- The work of a running command with an opcode; an empty command has none. -/
def State.work (s : State) (q : Page) (slot : Nat) (want : Cmd → Bool) (f : Cmd → State → Except Nat State) : State :=
  match s.cmd? q slot with
  | none => s
  | some c =>
    if c.phase = .running ∧ want c ∧ !c.noWork ∧ !c.att.finished then (match f c s with
      | .ok s => s
      | .error e => s.failWork q c e)
    else s

def State.gangWork (s : State) (q : Page) (slot op : Nat) : State :=
  s.work q slot (fun c => c.opcode == opGANG && c.desc.gangOp == op) fun c s => match s.gangCtx q c with
    | some g => s.gangStep q c g
    | none => .error 0x041B

/-! ### Collectives under way -/

/-- The collectives that a command runs in a hall: its GANG, or the REDUCEs of the hall's share that may start. -/
def State.collsAt (s : State) (a : Site) : List CollCtx :=
  match s.cmd? a.page a.slot with
  | none => []
  | some c =>
    if c.phase ≠ .running then []
    else if c.opcode = opGANG then
      (if c.noWork ∨ c.att.finished then [] else match s.gangCtx a.page c with
        | some g => if g.tgt.hall = a.hall then [g.c] else []
        | none => [])
    else (s.opsAt a fun _ _ => true).filterMap fun x => match x.op with
      | .reduce o => match x.plan.tree? o.tree with
        | some t => match s.reduceCtx x o t with
          | .ok c => some c
          | .error _ => none
        | none => none
      | _ => none

/-- The arbiter's grant to a waiting command: RACE, and the race counter at a timer win (R169). -/
def State.race (s : State) (q : Page) (slot : Nat) (arb : Arb) : State :=
  if arb.close then
    let s := s.modCmd q slot fun c => { c with race := true }
    if arb.timer then s.modJob q fun j => { j with raceCnt := satAdd 0xFFFFFFFF j.raceCnt 1 } else s
  else s

/-- The first collective under way that runs a deadline clock for a right child's value of a shard: it awaits the value, and no
FORCE settles its absent set (R232, R236). -/
def State.clocked (s : State) (a : Site) (shard node : Nat) : Option CollCtx :=
  (s.collsAt a).find? fun c => c.up && c.shards.contains shard && c.forced.isNone && (match c.tree.leafOf? shard (s.rankOf c) with
    | some leaf => (c.tree.awaits leaf).contains node
    | none => false)

/-- A right child's deadline clock at the arbiter (R232). In a paired leg a win proposes the child's absence to the partner
(R274). With FORCE no clock runs. -/
def State.deadline (s : State) (a : Site) (shard node : Nat) (arb : Arb) : State :=
  match s.clocked a shard node with
  | none => s
  | some c =>
    let id := s.upId c shard node
    let here := (((s.hall a.hall).job c.k.job).rx? id).isSome
    if (arb.timer == here) || (here && !arb.close) then s
    else
      let s := s.race a.page a.slot arb
      if !arb.timer then s
      else if s.isPaired a.hall then
        (s.modHJob a.hall c.k.job fun j => { j with proposed := if j.proposed.contains id then j.proposed else j.proposed ++ [id] }).sendDigest
          (pageFn a.page) c.k.job { DBody.of 3 with pkey := c.tree.num, pround := c.round, pshard := shard, pnode := node }
      else
        s.modHJob a.hall c.k.job fun j => j.markAbsent id

def execDeadlineExpiry (a : Site) (shard node : Nat) (arb : Arb) (s : State) : Out :=
  whenRunning s (·.deadline a shard node arb)

/-- No DOWN value by the bound of R236: a rank that has sent a value up and has none back. -/
def State.downLate (s : State) (a : Site) : State :=
  let waits := fun (c : CollCtx) => c.up && c.down && c.shards.any fun sh => match c.tree.leafOf? sh (s.rankOf c) with
    | some leaf => leaf != 0 && (s.att a.page a.slot).sent.contains (a.hall, s.upId c sh (c.tree.top leaf))
        && (s.fullOf c.k (s.downId c sh (c.tree.top leaf))).isNone
    | none => false
  if (s.collsAt a).any waits then s.failCmd a.page a.slot 0x0803 0xFFFF else s

def execDownValueTimeout (a : Site) (s : State) : Out := whenRunning s (·.downLate a)

/-! ### TIMEOUT of a link arrival (R169, R170) -/

/-- Transfers that the RECVs of the hall's share wait for. -/
def State.recvAwaits (s : State) (a : Site) : List XferId :=
  (s.opsAt a fun _ => Op.isRecv fun _ => true).filterMap fun x => match x.op with
    | .recv o =>
      let k := x.link
      if o.mode = 3 then some (s.mezzId k kMEZZDATA (mezzBefore x))
      else some (s.linkId k (if o.mode = 2 then kPULLDATA else kPUSH) o.tkey (s.opRound x false o.tkey) 0 0)
    | _ => none

/-- Values that the collectives of the hall wait for. -/
def State.collAwaits (s : State) (a : Site) : List XferId :=
  (s.collsAt a).flatMap fun c => c.shards.flatMap fun sh => match c.tree.leafOf? sh (s.rankOf c) with
    | none => []
    | some leaf =>
      (if c.up then (c.tree.awaits leaf).map (s.upId c sh) else [])
        ++ (if c.down && leaf != 0 then [s.downId c sh (c.tree.top leaf)] else [])

/-- Arrivals that a command still awaits, by hall. -/
def State.awaited (s : State) (q : Page) (slot : Nat) : List (Nat × XferId) :=
  (s.pageHalls q).flatMap fun h =>
    ((s.recvAwaits ⟨q, slot, h⟩ ++ s.collAwaits ⟨q, slot, h⟩).filter fun id =>
      (((s.hall h).job (pageJob q)).rxState id) != some .full && (((s.hall h).job (pageJob q)).rxState id) != some .absent).map
      fun id => (h, id)

/-- A transfer of the command has no receipt yet, or a FENCE with PEER waits for an acknowledgement. -/
def State.unreceipted (s : State) (q : Page) (c : Cmd) : Bool :=
  (c.opcode == opFENCE && c.desc.peer && !s.peersDone q)
    || (s.pageHalls q).any fun h => ((s.hall h).job (pageJob q)).tx.any fun t => t.slot == c.slot && t.receipt.isNone

/-- The timer of a running command that waits for its job's links, or of a FENCE with PEER that waits to dispatch (R166). An arrival that loses is recorded as ABSENT, so that it
is answered LATE; a DOWN transfer never is (R236). The wait counts only while the job holds the partition. -/
def State.linkTimeout (s : State) (q : Page) (slot : Nat) (arb : Arb) : State :=
  match s.cmd? q slot with
  | none => s
  | some c =>
    let aw := s.awaited q slot
    let fence := c.phase == .waiting && ((s.job q).next?.map fun n => n.1.isEmpty && n.2.slot == slot).getD false
      && c.opcode == opFENCE && c.desc.peer
    if (c.phase ≠ .running ∧ fence = false) ∨ (s.part (pageFn q)).holder ≠ some (pageJob q) then s
    else if arb.timer then
      if aw.isEmpty ∧ s.unreceipted q c = false then s
      else
        let s := s.race q slot arb
        let s := aw.foldl (fun s x => s.modHJob x.1 (pageJob q) fun j =>
          if x.2.kind = kDOWN then j.markLate x.2 else j.setAbsent x.2) s
        s.failCmd q slot 0x0503 0xFFFF
    else s.race q slot arb

def execLinkArrivalTimeout (q : Page) (slot : Nat) (arb : Arb) (s : State) : Out := whenRunning s (·.linkTimeout q slot arb)

end Sys2Proof.Machine
end

