-- ==== Sys2Proof/Machine/Matpass.lean ====
section
/-! DEFINITION. MATPASS in its four modes, with the witness comparisons of its chunks (R45 to R59, R81 to R88, R95, R119,
R120, R354). -/

namespace Sys2Proof.Machine

/-! ### Activations (R46, R354) -/

/-- The activations of a pass by token row and reduction position; nothing outside the tensor or the reduction. -/
structure Acts where
  w   : List (List W)       -- W-forms (L, wide, T)
  q   : List (List Int)     -- codes (B)
  len : Nat                 -- reduction length
deriving DecidableEq, Repr

def Acts.x? (a : Acts) (r p : Nat) : Option W := if p < a.len then ((a.w[r]?).bind fun l => l[p]?) else none
def Acts.code (a : Acts) (r p : Nat) : Int := if p < a.len then (a.q.getD r []).getD p 0 else 0

/-- Values of the rows of a tensor that a pass of `n` token rows reads. -/
def tensorActs (f : Face) (packed : Bool) (n len : Nat) : Except Nat Acts :=
  match faceRows f packed (List.range n) with
  | .error e => .error e
  | .ok rows =>
    let d := f.d
    let at_ := fun (r : Nat) (l : List Nat) => l.zipIdx.map fun (c, i) =>
      (decodeVal d.w f.coarse f.aff (f.fineAt r i) (f.entry (r * d.cols + i)) c).toW
    .ok { w := (rows.take n).zipIdx.map fun (l, r) => at_ r l,
          q := (rows.take n).map fun l => l.map fun c => sext (fmtBits d.w.fmt) c, len := len }

/-- Values of the row groups at XROW that hold the chunks of the pass (R354). -/
def State.rowActs (s : State) (x : OpCtx) (o : MatOp) (n len : Nat) : Except Nat Acts :=
  let g := rowGroups len
  let r := o.xgroups x.plan
  let code := (s.viewRow x.page x.slot x.hall o.xrow).tag.slots
  match mapE (fun t => s.rowsAt x (o.xrow + (t * g + r.1) * slotCount code) r.2 (slotCount code) (some code) none) (List.range n) with
  | .error e => .error e
  | .ok rows =>
    .ok { w := rows.map fun l => List.replicate (64 * r.1) W.zero ++ l.flatten.map fun v => fp32ToW v.toNat,
          q := [], len := len }

def State.matActs (s : State) (x : OpCtx) (o : MatOp) : Except Nat Acts :=
  let n := 64 * o.tiles
  let len := o.reduction x.plan
  if o.xsrc = 0xFFFF then s.rowActs x o n len
  else
    let packed := Plan.isPacked (some x.plan) o.xsrc
    let k := chunkLen o.kind (x.plan.fmt o.wtensor) (x.plan.fmt o.xsrc)
    match s.readTensorBy x.page x.slot x.hall o.xsrc fun u => u.boxSpans packed (List.range n) (o.ckFirst * k) (o.ckCount * k) with
    | .error e => .error e
    | .ok (_, f) => tensorActs f packed n len

/-! ### The chunks that a pass reads -/

/-- One K-chunk of one output group: the gallery, the bay, the first tile, the first position in it. -/
structure Chunk where
  g    : Nat
  v    : BayView
  tile : Nat
  off  : Nat
  col  : Bool
deriving DecidableEq, Repr

def State.chunkOf (s : State) (x : OpCtx) (o : MatOp) (u : Use) (gs : List Nat) (g c : Nat) : Option Chunk :=
  let (pos, k) := o.stored x.plan g c
  (s.chunkView x u gs pos).map fun (n, v, t) => ⟨n, v, t, 64 * k, o.column⟩

namespace Chunk
/-- Tile and position of tread t of flight j (R81). -/
def place (k : Chunk) (j t : Nat) : Nat × Nat × Nat :=
  if k.col then (k.tile, t, j)
  else (k.tile + (k.off + t) / k.v.bay.width, j, (k.off + t) % k.v.bay.width)
def el (k : Chunk) (j t : Nat) : W := let (i, a, b) := k.place j t; k.v.el i a b
def code (k : Chunk) (j t : Nat) : Nat := let (i, a, b) := k.place j t; k.v.code i a b
def fine (k : Chunk) (j t : Nat) : Nat := let (i, a, b) := k.place j t; k.v.fine i a b
def int (k : Chunk) (j t : Nat) : Int := let (i, a, b) := k.place j t; k.v.int i a b
/-- Witness entry of position t, `n` tables into the tile's entries (Table 03-5). -/
def wit (k : Chunk) (n t : Nat) : Nat :=
  let w := k.v.bay.width
  (k.v.bay.wit.getD (k.tile + (k.off + t) / w) []).getD (n * w + (k.off + t) % w) 0
end Chunk

/-! ### One flight (R50 to R56) -/

/-- Positions of a chunk inside the reduction and the activation tensor; the others take zero on both sides (R46). -/
def livePos (a : Acts) (len r c : Nat) : List Nat := (List.range len).filter fun t => (a.x? r (c * len + t)).isSome

/-- The activations of a chunk, zero where masked. -/
def chunkX (a : Acts) (len r c : Nat) : List W :=
  (List.range len).map fun t => (a.x? r (c * len + t)).getD W.zero

def flightL (T : Tables) (wide : Bool) (a : Acts) (k : Chunk) (len r c j : Nat) : Nat × Flags :=
  let ws := (List.range len).map fun t => if (a.x? r (c * len + t)).isSome then k.el j t else W.zero
  let bad := k.v.bay.fmt == fmtZT2 && (livePos a len r c).any fun t => k.code j t == 2 && k.fine j t != 0x80
  let (y, f) := if wide then T.chunkWide ws (chunkX a len r c) else T.chunkL ws (chunkX a len r c)
  (y, { f with tern := f.tern || bad })

def flightT (T : Tables) (a : Acts) (k : Chunk) (len r c j : Nat) : Nat × Flags :=
  let wt := (List.range len).map fun t => if (a.x? r (c * len + t)).isSome then k.code j t else 0
  let fines := (List.range k.v.nblk).map fun b => k.fine j (b * k.v.bay.blk)
  T.chunkT wt (chunkX a len r c) fines k.v.bay.blk k.v.bay.coarse

/-- Output of flight j with its flags. -/
def flight (T : Tables) (kind : Nat) (a : Acts) (k : Chunk) (len r c j : Nat) : Nat × Flags :=
  if kind = 2 then flightT T a k len r c j else flightL T (kind == 1) a k len r c j

/-! ### The witness (R85, R86) -/

inductive WitR where
  | ok
  | skip
  | bad
deriving DecidableEq, Repr

/-- The test of R85. The tolerance is a ZL16 code; its product with the magnitude sum is rational only for a power of two,
so that 256 fraction bits decide. -/
def witnessOk (ys : List Nat) (omega alpha tau : Nat) : WitR :=
  let y := ys.map b32.dec
  let o := b32.dec omega
  let m := b32.dec alpha
  if y.any Fp.isNan ∧ o.isFin then .bad
  else if !o.isFin || !m.isFin || y.any (fun v => !v.isFin) then .skip
  else
    let sum := y.foldl Fp.add (.fin false 0 0)
    let lim := ((pow2Dyad false (zl16ToW tau 0 0).log).1.mul m).add (.fin false 1 (-140))
    if (sum.sub o).abs.le lim then .ok else .bad

/-- The witness entries that weigh one position: Σ column or row sums, and magnitude sums where the format has them. The
constant of T-mode is a factor of the sum, and no W-form value that R23 would clip. -/
def witnessSums (T : Tables) (kind : Nat) (a : Acts) (k : Chunk) (len r c : Nat) : Option (Nat × Nat) :=
  let xs := chunkX a len r c
  let ent := fun n => (List.range len).map fun t =>
    if (a.x? r (c * len + t)).isSome then zl16ToW (k.wit n t) k.v.bay.coarse 0 else W.zero
  if kind = 2 then
    let fmax := k.v.bay.fmax.getD k.tile 0
    let const : W := ⟨.fin, false, (6 + k.v.bay.coarse) * 16384 + fmax * 2048⟩
    some ((T.chunkL (ent 0) xs).1, (T.chunkL (List.replicate len const) (xs.map W.magnitude)).1)
  else if fmtIsZL k.v.bay.fmt then
    let n := if k.col then 2 else 0
    some ((T.chunkL (ent n) xs).1, (T.chunkL (ent (n + 1)) (xs.map W.magnitude)).1)
  else none

/-- The comparison of one chunk and token row. A bay of ZI or ZT2 codes has no magnitude sums for L-mode and wide sum
(log 16). -/
def witnessOf (T : Tables) (kind tau : Nat) (a : Acts) (k : Chunk) (len r c : Nat) (ys : List Nat) : WitR :=
  match witnessSums T kind a k len r c with
  | none => .ok
  | some (o, m) => witnessOk ys o m tau

/-- The witness tolerance, 0x2E00 for the re-run of R273. -/
def OpCtx.tau (x : OpCtx) : Nat := if x.cmd.tauTest then 0x2E00 else x.plan.tau

/-! ### What a pass gathers -/

/-- Progress of a pass: state, events by tile, skipped and failed comparisons by gallery, and whether a full reorder buffer
holds it. -/
structure MatRun where
  s    : State
  ev   : List ((Nat × Nat) × Event)
  skip : List Nat
  bad  : List Nat
  hold : Bool
deriving DecidableEq, Repr

def MatRun.witness (m : MatRun) (g : Nat) : WitR → MatRun
  | .ok => m
  | .skip => { m with skip := m.skip ++ [g] }
  | .bad => { m with bad := m.bad ++ [g] }

/-- A row of the pass's targets. -/
def MatOp.row (p : Plan) (o : MatOp) (r g : Nat) : Nat := o.ubase + (r * o.groups p + g) * slotCount o.slots

/-- What the partials of the pass carry. -/
def MatOp.key (o : MatOp) (pass : Nat) : RowKey := ⟨pass, o.kind + 1, o.sfmt, o.slots, o.chunks⟩

/-- Events of the additions of a row group. B-mode raises none (R58). -/
def addEvents (kind r g : Nat) (fl : List Flags) : List ((Nat × Nat) × Event) :=
  if kind = 3 then [] else fl.zipIdx.filterMap fun (f, j) =>
    if f.any then some ((r / 64, g), ((posStore, r % 64, j), f)) else none

/-- Partials of a bank that wait (R95). -/
def Attempt.inBank (a : Attempt) (h row : Nat) : Nat := (a.early.filter fun e => e.hall == h && e.row % 64 == row % 64).length

/-- A predecessor of a chunk of a row is still to come: another pass of the share that has not completed, `but` apart, enters
earlier chunks of the same reduction into the row (R95). A pass that starts only after pass `off` has completed is none (log 71). -/
def State.awaits (s : State) (x : OpCtx) (but : List Nat) (off row chunk : Nat) (k : RowKey) : Bool :=
  let ops := x.plan.passOps x.lh x.pass
  let done := (s.att x.page x.slot).doneAt x.hall ++ but ++ afterOps x.plan x.lh (s.rank x.hall) ops (s.slotsAt x.page x.slot x.hall) off
  (List.range ops.length).any fun i => !done.contains i && match ops[i]? with
    | some (.matpass o) => o.key x.pass == k && decide (o.ckFirst < chunk) && (o.target x.plan).overlaps (row, 1)
    | _ => false

/-- Enter the partial of a row group and record the events of its additions; a partial that comes before its predecessor waits
in its bank's reorder buffer of 16 entries. -/
def MatRun.enter (m : MatRun) (x : OpCtx) (o : MatOp) (r g c : Nat) (y : List Word) (n : Nat) : Except Nat MatRun :=
  let row := o.row x.plan r g
  let k := o.key x.pass
  if m.s.awaits x [x.off] x.off row c k then
    if (m.s.att x.page x.slot).inBank x.hall row < 16 then
      .ok { m with s := m.s.modAtt x.page x.slot fun a =>
              { a with early := a.early ++ [⟨x.hall, row, k.tag, c, n, x.off, r, g, y⟩] } }
    else .ok { m with hold := true }
  else
    match m.s.accept x.page x.slot x.hall row k y n with
    | .error e => .error e
    | .ok (s, fl) => .ok { m with s := s, ev := m.ev ++ addEvents o.kind r g fl }

/-- Partials of a hall's reorder buffers in the order in which rows accept them. -/
def insertEarly (e : Early) : List Early → List Early
  | [] => [e]
  | x :: r => if e.chunk < x.chunk then e :: x :: r else x :: insertEarly e r

/-- Partials whose predecessors have all entered leave the reorder buffers. -/
def State.drain (s : State) (x : OpCtx) : Except Nat State :=
  let mine := ((s.att x.page x.slot).early.filter (·.hall == x.hall)).foldl (fun l e => insertEarly e l) []
  foldE (fun s e =>
    if s.awaits x [x.off] e.op e.row e.chunk e.tag.key then .ok s
    else match s.accept x.page x.slot x.hall e.row e.tag.key e.data e.count with
      | .error c => .error c
      | .ok (s, fl) => .ok (s.modAtt x.page x.slot fun a =>
          { a with early := a.early.filter (· != e) }.addTiles
            ((addEvents (e.tag.acc - 1) e.tok e.og fl).map fun (v : (Nat × Nat) × Event) => (⟨x.hall, x.pass, e.op, v.1.1, v.1.2, [v.2]⟩ : Tile)))) s mine

/-- One chunk of one row group in L-mode, wide sum or T-mode. -/
def MatRun.chunk (m : MatRun) (x : OpCtx) (o : MatOp) (u : Use) (gs : List Nat) (a : Acts) (tau r g c : Nat) :
    Except Nat MatRun :=
  match m.s.chunkOf x o u gs g c with
  | none => .error 0x030B
  | some k =>
    let len := o.klen x.plan
    let ys := (List.range 64).map fun j => flight x.plan.tables o.kind a k len r c j
    let ev := ys.zipIdx.filterMap fun (y, j) =>
      if y.2.any then some ((r / 64, g), (((c, r % 64, j) : Pos), y.2)) else none
    let w := witnessOf x.plan.tables o.kind tau a k len r c (ys.map (·.1))
    ({ m with ev := m.ev ++ ev }.witness k.g w).enter x o r g c (ys.map fun (y : Nat × Flags) => BitVec.ofNat 32 y.1) 1

/-! ### B-mode (R57, R58, R95) -/

/-- Runs of consecutive chunks that one gallery holds: first chunk, gallery, chunks. -/
def chunkRuns : List (Nat × Nat) → List (Nat × Nat × Nat)
  | [] => []
  | (c, g) :: r => match chunkRuns r with
    | (c', g', n) :: t => if g' = g ∧ c' = c + 1 then (c, g, n + 1) :: t else (c, g, 1) :: (c', g', n) :: t
    | [] => [(c, g, 1)]

/-- One output of a run: its exact sum, rescaled with its channel's record; a flight beyond the last output has no record,
and what it enters is open. -/
def bOutput (p : Plan) (o : MatOp) (g j : Nat) (acc : Int) : Word :=
  let c := 64 * g + j
  if c < o.outputs p then
    match p.rescale[o.rescale + c]? with
    | some z => BitVec.ofNat 32 (fp32Rto (bRescale acc z.corr z.mult z.shift) 0).1
    | none => Config.openWord 0x100 [BitVec.ofNat 32 c, BitVec.ofInt 32 acc]
  else Config.openWord 0x100 [BitVec.ofNat 32 c, BitVec.ofInt 32 acc]

/-- The exact chunk sums of a token row, and whether the witness agrees. -/
def bChunk (a : Acts) (k : Chunk) (len r c : Nat) : List Int × Bool :=
  let q := (List.range len).map fun t => a.code r (c * len + t)
  let ys := (List.range 64).map fun j => chunkB ((List.range len).map fun t => k.int j t) q
  let w := (List.range len).map fun t => sext 32 (k.wit 0 t)
  (ys, ys.sum == chunkB w q)

def MatRun.run (m : MatRun) (x : OpCtx) (o : MatOp) (u : Use) (gs : List Nat) (a : Acts) (r g : Nat)
    (run : Nat × Nat × Nat) : Except Nat MatRun :=
  let cs := (List.range run.2.2).map (run.1 + ·)
  match mapE (fun c => match m.s.chunkOf x o u gs g c with
    | some k => .ok (bChunk a k (o.klen x.plan) r c)
    | none => .error 0x030B) cs with
  | .error e => .error e
  | .ok l =>
    let acc := fun j => (l.map fun p => p.1.getD j 0).sum
    let m := if l.all (·.2) then m else { m with bad := m.bad ++ [run.2.1] }
    m.enter x o r g run.1 ((List.range 64).map fun j => bOutput x.plan o g j (acc j)) run.2.2

/-! ### The pass -/

/-- All partials of one row group, in ascending chunk index. -/
def MatRun.rowGroup (m : MatRun) (x : OpCtx) (o : MatOp) (u : Use) (gs : List Nat) (a : Acts) (tau r g : Nat) :
    Except Nat MatRun :=
  if o.kind = 3 then
    let l := o.chunkList.map fun c => (c, (m.s.chunkOf x o u gs g c).map Chunk.g |>.getD 64)
    foldE (fun m run => m.run x o u gs a r g run) m (chunkRuns l)
  else foldE (fun m c => m.chunk x o u gs a tau r g c) m o.chunkList

def State.matpass (s : State) (x : OpCtx) (o : MatOp) : Except Nat MatRun :=
  let gs := (s.hall x.hall).galsOf o.gals
  match (s.att x.page x.slot).use? x.hall o.wtensor with
  | none => .error 0x030D
  | some u => match s.matActs x o with
    | .error e => .error e
    | .ok a => match s.freshChunks x u gs (o.needs x.plan) with
      | .error e => .error e
      | .ok s =>
        foldE (fun m rg => m.rowGroup x o u gs a x.tau rg.1 rg.2) ⟨s, [], [], [], false⟩
          ((List.range (64 * o.tiles)).flatMap fun r => (List.range (o.groups x.plan)).map fun g => (r, g))

/-- Tile statuses, released rows, skipped comparisons of a pass that ends. -/
def MatRun.close (m : MatRun) (x : OpCtx) (o : MatOp) : State :=
  let tiles := tilesOf x.hall x.pass x.off m.ev
    ((List.range o.tiles).flatMap fun i => (List.range (o.groups x.plan)).map fun g => (i, g))
  let s := m.s.modAtt x.page x.slot fun a =>
    { a.addTiles tiles with evidence := a.evidence + m.skip.length }
  let s := m.skip.foldl (fun s g => s.modGal x.hall g fun G => { G with skip := satAdd 255 G.skip 1 }) s
  if o.release ∧ o.xsrc = 0xFFFF then s.releaseRows x.page x.slot x.hall
      ((o.xspans x.plan (s.slotsAt x.page x.slot x.hall o.xrow)).flatMap fun sp => (List.range sp.2).map (sp.1 + ·))
  else s

/-- The end of a pass: a mismatch, computed or observed, strikes its galleries and kills the command (R88). A full reorder
buffer holds the pass as it stands before it, and this alone makes it wait. -/
def matEnd (x : OpCtx) (o : MatOp) (u : Upset) (s : State) : OpEnd :=
  match s.matpass x o with
  | .error e => .fail e
  | .ok m =>
    if m.hold then .wait s
    else
      let gs := (s.hall x.hall).galsOf o.gals
      let bad := (m.bad ++ u.mismatch.filter gs.contains).eraseDups
      match (m.close x o).drain x with
      | .error e => .fail e
      | .ok t =>
        let (t, k) := t.parityHits s x (s.loadedGals t x.hall gs) u
        if bad.isEmpty then (if k then .kill t else .done t)
        else .kill (t.strikes x.hall x.job x.pass true bad)

def Op.isMat (kind : Nat) : Op → Bool
  | .matpass o => o.kind == kind
  | _ => false

/-- The first pass of the share that may start and that a held pass waits for: it enters earlier chunks of the same reduction. -/
def State.enteredFirst (s : State) (x : OpCtx) (o : MatOp) : Option OpCtx :=
  let ops := x.plan.passOps x.lh x.pass
  let done := (s.att x.page x.slot).doneAt x.hall
  firstSome (fun (k : Nat) => match ops[k]? with
    | some (Op.matpass e) =>
      if !done.contains k && e.key x.pass == o.key x.pass && decide (e.ckFirst < o.ckFirst)
          && (e.target x.plan).overlaps (o.target x.plan) && opReady x.plan x.lh (s.rank x.hall) ops (s.slotsAt x.page x.slot x.hall) done k then
        some { x with off := k, op := .matpass e }
      else none
    | _ => none) (List.range ops.length)

/-- A pass takes its turn. While a full reorder buffer holds it, a pass that enters earlier chunks runs in its place (R95): how the
turn ends, and whose it was. -/
def matTurn (u : Upset) : Nat → OpCtx → State → OpCtx × OpEnd
  | 0, x, s => (x, .wait s)
  | n + 1, x, s => match x.op with
    | .matpass o => match matEnd x o u s with
      | .wait t => match s.enteredFirst x o with
        | some y => matTurn u n y s
        | none => (x, .wait t)
      | r => (x, r)
    | _ => (x, .wait s)

/-- Passes take their turns until one ends: one that waits lets the next go on. -/
def matTurns (u : Upset) : List OpCtx → State → State
  | [], s => s
  | x :: r, s => match matTurn u (x.plan.passOps x.lh x.pass).length x s with
    | (_, .wait t) => matTurns u r t
    | (y, e) => s.endOp y e

/-- The row of a MATPASS of one kind. -/
def matRow (kind : Nat) (a : Site) (u : Upset) (s : State) : Out :=
  whenRunning s fun s => matTurns u (s.opsAt a fun _ => Op.isMat kind) s

def execMatpassL (a : Site) (u : Upset) (s : State) : Out := matRow 0 a u s
def execMatpassWideSum (a : Site) (u : Upset) (s : State) : Out := matRow 1 a u s
def execMatpassT (a : Site) (u : Upset) (s : State) : Out := matRow 2 a u s
def execMatpassB (a : Site) (u : Upset) (s : State) : Out := matRow 3 a u s

end Sys2Proof.Machine
end

