-- ==== Sys2Proof/Machine/Commands.lean ====
section
/-! DEFINITION. The commands of a queue: submission by their rows, and the work of LOAD, STORE, COPY, FENCE, CHECKPOINT and
GANG (R150 to R154, R163, R166, R237, R243); a RUN's work is its operations'. -/

namespace Sys2Proof.Machine

/-! ### Submission -/

/-- The tail that a page's next descriptor follows: in a freeze, that of the last recorded doorbell (R313). -/
def State.lastTail (s : State) (q : Page) : Nat :=
  match (s.held.filter fun x => x.2.1 == pageOff q 0).getLast? with
  | some x => x.2.2.toNat
  | none => (s.job q).sqTail

/-- The host writes a descriptor at the tail and rings the doorbell. In a freeze the doorbell is recorded. -/
def State.submitRow (s : State) (q : Page) (opcode : Nat) (d : Desc) : State :=
  if s.freezing then
    let j := s.job q
    let t := (s.lastTail q + 1) % j.sqSize
    if t = j.sqHead then s
    else (s.writeRing q j.sqHbm (j.sqBase + 64 * s.lastTail q) (d.bytes opcode)).record (pageFn q) (pageOff q 0)
      (BitVec.ofNat 32 t)
  else s.hostSubmit q opcode d

/-- A descriptor with one byte of its body set, as a row of a narrower kind forces it. -/
def setBody (d : Desc) (i v : Nat) : Desc := { d with body := d.body.set i (BitVec.ofNat 8 v) }

/-! ### RUN: one operation of each hall -/

def Upset.none : Upset := ⟨[], [], Option.none⟩

/-- The row of a list that a mode names, without an upset. -/
def modeRow (l : List (Nat × (Site → Upset → State → Out))) (k : Nat) (a : Site) (s : State) : Out :=
  match l.find? (·.1 == k) with
  | some e => e.2 a Upset.none s
  | none => .next s

/-- Rows by their modes. -/
def matRows : List (Nat × (Site → Upset → State → Out)) :=
  [(0, execMatpassL), (1, execMatpassWideSum), (2, execMatpassT), (3, execMatpassB)]
def eRows : List (Nat × (Site → Upset → State → Out)) :=
  [(eMUL, execEMul), (eDIV, execEDiv), (eRECIP, execRecip), (eSQRT, execESqrt), (eRSQRT, execRsqrt), (ePOW, execPow),
   (eSCALE, execScale), (eEXP, execExp), (eLOG2, execLog2), (eLN, execLn), (eABS, execAbs), (eNEG, execNeg), (eMAX, execEMax),
   (eMIN, execEMin), (eCMPGT, execCmpgt), (eCMPEQ, execCmpeq), (eFUNC, execFunc)]
def newelRows : List (Nat × (Site → Upset → State → Out)) :=
  [(nADD, execNewelAdd), (nMUL, execNewelMul), (nFMA, execFma), (nDIV, execNewelDiv), (nSQRT, execNewelSqrt),
   (nMAXIMUM, execMaximum), (nMINIMUM, execMinimum), (nMAXNUM, execMaxnum), (nMINNUM, execMinnum), (nCMP, execCmp),
   (nROWMAX, execRowmax), (nXENT, execXent), (nSAMPLE, execSample), (nVERIFY, execVerify)]
def reduceRows : List (Nat × (Site → Upset → State → Out)) :=
  [(0, fun a _ => execReduceToRiserHold a), (1, fun a _ => execReduceToOwnerRows a), (2, fun a _ => execAllReduce a),
   (3, fun a _ => execNormPacket a)]

/-- The row of an operation. -/
def opRow (o : Op) (a : Site) (s : State) : Out :=
  match o with
  | .bayload _ => execBayload a Upset.none s
  | .matpass m => modeRow matRows m.kind a s
  | .epass e => modeRow eRows e.mode a s
  | .newel n => modeRow newelRows n.mode a s
  | .riser r => if r.apply then execApply a Upset.none s else execHold a Upset.none s
  | .save v => if v.mode = 2 then execReblock a s else execSave a s
  | .store _ => execStoreOperation a s
  | .hbmcopy _ => execHbmcopy a s
  | .send _ => execSend a s
  | .recv r => if r.mode < 2 then execRecv a s else if r.mode = 2 then execPull a s else execMezzRestore a s
  | .reduce r => modeRow reduceRows r.mode a s
  | .hallwait .. => execHallwait a s
  | .bad => .next s

/-- A row has taken its operation's turn: an operation of the hall's share has completed, or the command no longer runs. -/
def tookTurn (a : Site) (s t : State) : Bool :=
  (t.att a.page a.slot).doneAt a.hall != (s.att a.page a.slot).doneAt a.hall
    || (t.cmd? a.page a.slot).map Cmd.phase != some .running

/-- The rows of some operations, in record order, until one of them has taken its turn. -/
def hallTurns (a : Site) : List OpCtx → State → Out
  | [], s => .next s
  | x :: r, s => match opRow x.op a s with
    | .next t => if tookTurn a s t then .next t else hallTurns a r t
    | o => o

/-- The next operation of a hall's share that does not wait takes its turn, by its own row. -/
def hallStep (a : Site) (s : State) : Out := hallTurns a (s.opsAt a fun _ _ => true) s

def runHalls (q : Page) (slot : Nat) : List Nat → State → Out
  | [], s => .next s
  | h :: r, s => match hallStep ⟨q, slot, h⟩ s with
    | .next t => runHalls q slot r t
    | o => o

/-- RUN: each hall of the partition takes a step of the next operation of its share. -/
def execRun (q : Page) (st : CmdStep) (s : State) : Out :=
  match st with
  | .submit d => .next (s.submitRow q opRUN d)
  | .work slot => if s.frozen then .next s else runHalls q slot (s.pageHalls q) s

/-! ### LOAD, STORE, COPY -/

/-- Codes of a piece of a row of a staged face, which a packed tensor packs anew with its row. -/
def putPiece (m : Mem) (d : TDesc) (k : Nat) (packed : Bool) (r c0 : Nat) (codes : List Nat) : Mem :=
  if packed then
    let old := rowCodesAt m d k true r
    putRowCodes m d k true r 0 (finesAt m d k r) (old.take c0 ++ codes ++ old.drop (c0 + codes.length))
  else putRowCodes m d k false r c0 [] codes

/-- What stored codes that are loaded count (R189, log 81): under the fine codes and the side list as they stand in the staged
face. -/
def State.loadedEls (s : State) (st : Staged) (e0 : Nat) (codes : List Nat) : List ElOut :=
  let f : Face := { m := (s.hall st.hall).hbm, d := st.d, k := st.face, coarse := st.coarse, aff := Affine.ofNat st.aff,
                    side := s.sideOf st }
  codes.zipIdx.map fun (c, i) => codeOut ⟨st.d.w, st.coarse, Affine.ofNat st.aff⟩
    (f.fineAt ((e0 + i) / st.d.cols) ((e0 + i) % st.d.cols)) (f.entry (e0 + i)) c

/-- Stored codes of elements e0 on stand as they come (R153). -/
def State.loadCodes (s : State) (q : Page) (slot : Nat) (u : Use) (e0 : Nat) (codes : List Nat) : State :=
  match (s.att q slot).staged? u with
  | none => s
  | some st =>
    let segs := segments u.d.cols e0 codes.length
    let s := s.modFace u fun m => (segs.foldl (fun (z : Mem × Nat) g =>
      (putPiece z.1 u.d st.face st.packed g.1 g.2.1 ((codes.drop z.2).take g.2.2), z.2 + g.2.2)) (m, 0)).1
    let s := s.modStaged q slot u fun st => { st with wrote := st.wrote ++ [(e0, codes.length)] }
    if Plan.managedT (s.plan? q) u.d.tensor then s.modStat q slot u st.coarse fun z => statAdd z (s.loadedEls st e0 codes)
    else s

def State.loadPlane (s : State) (q : Page) (slot : Nat) (u : Use) (row : Nat) (b : List Byte) : State :=
  match (s.att q slot).staged? u with
  | none => s
  | some st =>
    let s := s.modFace u fun m => memWrites m (u.d.planeBase st.face + row * u.d.blocks)
      (b.take (u.d.blocks * (u.d.rows - row)))
    (s.modStaged q slot u fun st => { st with lplane := st.lplane ++ [(row * u.d.blocks, b.length)] }).modStat q slot u st.coarse id

def State.loadSide (s : State) (q : Page) (slot : Nat) (u : Use) (b : List Byte) : State :=
  match (s.att q slot).staged? u with
  | none => s
  | some st =>
    let s := s.modFace u fun m => putSide m u.d st.face b
    (s.modStaged q slot u fun st => { st with wside := true }).modStat q slot u st.coarse id

/-- COUNT units of a PART into a staged face, at the descriptor's COARSE and affine word (R185, R352). -/
def State.loadUnits (s : State) (q : Page) (slot : Nat) (u : Use) (part first n : Nat) (b : List Byte) : State :=
  let s := s.openFace q slot u .loaded
  if part = 0 then s.loadCodes q slot u first ((List.range n).map (codeIn u.d.w.fmt b))
  else if part = 1 then s.loadPlane q slot u first b
  else s.loadSide q slot u b

/-- Bytes of COUNT units of a PART. -/
def unitBytes (d : TDesc) (part n : Nat) : Nat :=
  if part = 0 then ceilDiv (n * fmtBits d.w.fmt) 8 else if part = 1 then n * d.blocks else n * TDesc.sideLen

/-- Where a source in HBM meets poison (R264). -/
def State.addrPoison (s : State) (q : Page) (a n : Nat) : Option Nat :=
  if bit a 0 then (s.hall (s.phys q (hbmHall (a - 1)))).poisonIn [(hbmOff (a - 1), n)] else none

/-- A whole side list that a command moves breaks R29: its reader fails (R30). -/
def badList (d : TDesc) (part : Nat) (b : List Byte) : Bool :=
  part == 2 && !b.isEmpty && (readSide (memWrites [] 0 b) 0 d.elems).isNone

def State.loadWork (s : State) (q : Page) (c : Cmd) : Except Nat State :=
  match c.att.uses with
  | [u] =>
    let n := unitBytes u.d c.desc.part c.desc.count
    let a := c.desc.b 40 8
    let b := s.readAt q a n
    match s.addrPoison q a n with
    | some g => .error (poisonErr g)
    | none => if badList u.d c.desc.part b then .error errFmtSide
    else .ok ((s.loadUnits q c.slot u c.desc.part c.desc.first c.desc.count b).modAtt q c.slot Attempt.finish)
  | _ => .error 0x030D

/-- Byte runs of COUNT units of a PART in a face; a piece of a packed row needs the row. -/
def Use.unitSpans (u : Use) (packed : Bool) (part first n : Nat) : List Span :=
  let d := u.d
  let b := fmtBits d.w.fmt
  if part = 0 then (segments d.cols first n).map fun g =>
    let a := d.base u.face + g.1 * d.pitch
    if packed then (a, d.pitch) else (a + g.2.1 * b / 8, ceilDiv ((g.2.1 + g.2.2) * b) 8 - g.2.1 * b / 8)
  else if part = 1 then [(d.planeBase u.face + first * d.blocks, n * d.blocks)]
  else [(d.sideBase u.face, n * TDesc.sideLen)]

/-- COUNT units of a PART of the face that a use reads, as bytes. -/
def State.unitData (s : State) (q : Page) (u : Use) (part first n : Nat) : Except Nat (List Byte) :=
  let packed := Plan.isPacked (s.plan? q) u.d.tensor
  let m := s.useMem u
  match s.readsClean u (u.unitSpans packed part first n) with
  | .error e => .error e
  | .ok _ => if part = 0 then
    match mapE (fun (g : Nat × Nat × Nat) =>
        let f := s.bareFace u
        match f.rowCodes packed g.1 with
        | some l => .ok ((l.drop g.2.1).take g.2.2)
        | none => .error 0x0310) (segments u.d.cols first n) with
    | .error e => .error e
    | .ok l => .ok (packCodes u.d.w.fmt l.flatten)
  else if part = 1 then .ok (memReads m (u.d.planeBase u.face + first * u.d.blocks) (n * u.d.blocks))
  else
    let b := memReads m (u.d.sideBase u.face) (n * TDesc.sideLen)
    if badList u.d part b then .error errFmtSide else .ok b

/-- Count what a STORE or COPY of element codes reads of a managed tensor (R18). -/
def State.countStore (s : State) (q : Page) (c : Cmd) (u : Use) (b : List Byte) : State :=
  if c.desc.part = 0 then s.countRead q c.slot u ((List.range c.desc.count).map fun i => (c.desc.first + i, codeIn u.d.w.fmt b i)) else s

/-- The bytes of a STORE's target are specified only with its completion (R163): until then its attempt keeps them. -/
def State.storeWork (s : State) (q : Page) (c : Cmd) : Except Nat State :=
  match c.att.uses with
  | [u] => match s.unitData q u c.desc.part c.desc.first c.desc.count with
    | .error e => .error e
    | .ok b => .ok ((s.countStore q c u b).modAtt q c.slot fun a => { a.finish with hostOut := [(c.desc.b 48 8, b)] })
  | _ => .error 0x030D

/-- A converting COPY takes whole rows through their values (R153). -/
def State.copyRows (s : State) (q : Page) (c : Cmd) (a b : Use) : Except Nat State :=
  let packed := Plan.isPacked (s.plan? q) a.d.tensor
  let cols := a.d.cols
  let rows := (List.range (c.desc.count / cols)).map (c.desc.first / cols + ·)
  match s.readsClean a (a.rowSpans packed rows), s.useFace a with
    | .error e, _ => .error e
    | _, .error e => .error e
    | .ok _, .ok f => match mapE (fun r => match f.rowVals? packed r with
        | some l => .ok l
        | none => .error 0x0310) rows with
      | .error e => .error e
      | .ok vals => .ok (((s.countFace q c.slot a packed rows 0 cols).openFace q c.slot b .loaded).putRows q c.slot b
          WriteCtx.plain (c.desc.first2 / cols) 0 vals)

def State.copyWork (s : State) (q : Page) (c : Cmd) : Except Nat State :=
  match c.att.uses with
  | [a, b] =>
    let done := fun (s : State) => s.modAtt q c.slot Attempt.finish
    if a.d.fmtRaw = b.d.fmtRaw then
      match s.unitData q a c.desc.part c.desc.first c.desc.count with
      | .error e => .error e
      | .ok d =>
        .ok (done ((((s.countStore q c a d).openFace q c.slot b .loaded).faceAffine q c.slot b a.aff).loadUnits q c.slot b c.desc.part
          c.desc.first2 c.desc.count d))
    else match s.copyRows q c a b with
      | .error e => .error e
      | .ok s => .ok (done s)
  | _ => .error 0x030D

/-! ### CHECKPOINT (R242, R243) -/

/-- A tensor of an image: rows of codes, scale plane and side list, each padded to 64 bytes. -/
def Face.imgData (f : Face) (packed : Bool) : Option (List Byte) :=
  let d := f.d
  match (List.range d.rows).foldr (fun r acc => match acc, f.rowCodes packed r with
      | some l, some c => some (packCodes d.w.fmt c ++ l)
      | _, _ => none) (some []) with
  | none => none
  | some rows =>
    some (padTo 64 rows ++ (if d.w.plane then padTo 64 (memReads f.m (d.planeBase f.k) (d.rows * d.blocks)) else [])
      ++ (if d.w.side then padTo 64 (sideBytes f.side) else []))

def State.imgOf (s : State) (q : Page) (u : Use) : Except Nat ImgTensor :=
  match s.readsClean u (u.d.faceSpans u.face), s.useFace u with
    | .error e, _ => .error e
    | _, .error e => .error e
    | .ok _, .ok f => match f.imgData (Plan.isPacked (s.plan? q) u.d.tensor) with
      | none => .error 0x0310
      | some b => .ok ⟨u.d.tensor, u.d.fmtRaw, u.d.rows, u.d.cols, u.coarse, if u.d.w.zi then u.aff else 0, b⟩

/-- The 512-byte state block: the Riser lane counters. -/
def Hall.stateBlock (H : Hall) : List Byte :=
  ((List.range 32).flatMap fun l => natLE (tabGet 0 H.riser l).toNat 8) ++ List.replicate 256 0

/-- Slot header and image of a hall (Table 07-16). -/
def State.slotImage (s : State) (q : Page) (c : Cmd) (h : Nat) : Except Nat (List Byte) :=
  match mapE (s.imgOf q) (c.att.uses.filter fun u => u.hall == h) with
  | .error e => .error e
  | .ok ts =>
    let img := (s.hall h).stateBlock ++ ts.flatMap ImgTensor.bytes
    .ok (natLE 0x5A4D5A5A 4 ++ natLE 1 1 ++ natLE c.desc.mezzSlot 1 ++ natLE ts.length 2 ++ natLE (s.rank h) 4 ++ natLE 0 4
      ++ natLE (((s.plan? q).map fun p => p.planId.toNat).getD 0) 8 ++ natLE (s.hall h).step.toNat 8 ++ natLE img.length 8
      ++ natLE (crc64 img).toNat 8 ++ natLE 0 16 ++ img)

/-- The image of a hall goes on its way once; bytes that a BAR2 write met until then are free in it (R164). -/
def State.ckptHall (s : State) (q : Page) (c : Cmd) (p : Plan) (h : Nat) : Except Nat State :=
  let k : LinkCtx := ⟨q, c.slot, h, h - (s.part (pageFn q)).base, p, c.seq⟩
  let u := s.unsure c
  match u.slotImage q c h with
  | .error e => .error e
  | .ok img =>
    let s := { s with free := u.free }
    let r := k.routes.getD c.desc.route ⟨0, []⟩
    s.sendOnce k (s.mezzId k kMEZZ 0) r.dest r.ports (groupChannel p k.lh (r.ports.getD 0 0) 4) (Lead.none.bytes ++ img)

/-- A CHECKPOINT reads each of its tensors whole (R18). -/
def State.countCkpt (s : State) (q : Page) (c : Cmd) : State :=
  c.att.uses.foldl (fun s u => match s.useFace u with
    | .ok f => if u.d.w.fmt = fmtZT2 then s.countRead q c.slot u ((List.range u.d.elems).map fun i => (i, f.elemCode i)) else s
    | .error _ => s) s

def State.ckptWork (s : State) (q : Page) (c : Cmd) : Except Nat State :=
  match s.plan? q with
  | none => .error 0x0104
  | some p => match foldE (fun s h => s.ckptHall q c p h) s (s.pageHalls q) with
    | .error e => .error e
    | .ok s =>
      let done := (s.pageHalls q).all fun h =>
        let k : LinkCtx := ⟨q, c.slot, h, h - (s.part (pageFn q)).base, p, c.seq⟩
        (s.receiptOf k (s.mezzId k kMEZZ 0)).isSome
      .ok (if done then (s.countCkpt q c).modAtt q c.slot Attempt.finish else s)

/-! ### The rows -/

/-- A row of a queue command: submit a descriptor with its opcode, or go on with the work of a dispatched one. -/
def cmdRow (q : Page) (opcode : Nat) (fix : Desc → Desc) (work : Nat → State → State) (st : CmdStep) (s : State) : Out :=
  match st with
  | .submit d => .next (s.submitRow q opcode (fix d))
  | .work slot => whenRunning s (work slot)

def execLoad (q : Page) (st : CmdStep) (s : State) : Out :=
  cmdRow q opLOAD id (fun slot s => s.work q slot (fun c => c.opcode == opLOAD && c.desc.part != 3)
    fun c s => s.loadWork q c) st s

def execStore (q : Page) (st : CmdStep) (s : State) : Out :=
  cmdRow q opSTORE id (fun slot s => s.work q slot (·.opcode == opSTORE) fun c s => s.storeWork q c) st s

def execCopy (q : Page) (st : CmdStep) (s : State) : Out :=
  cmdRow q opCOPY id (fun slot s => s.work q slot (·.opcode == opCOPY) fun c s => s.copyWork q c) st s

/-- A FENCE has no work: it commits as an empty command (R166). -/
def execFence (q : Page) (st : CmdStep) (s : State) : Out := cmdRow q opFENCE id (fun _ s => s) st s

def execCheckpoint (q : Page) (st : CmdStep) (s : State) : Out :=
  cmdRow q opCHECKPOINT id (fun slot s => s.work q slot (·.opcode == opCHECKPOINT) fun c s => s.ckptWork q c) st s

/-- A GANG row: its OP is byte 34 of the descriptor. -/
def gangRow (op : Nat) (q : Page) (st : CmdStep) (s : State) : Out :=
  cmdRow q opGANG (fun d => setBody d 2 op) (fun slot s => s.gangWork q slot op) st s

def execGangReduceToOwner (q : Page) (st : CmdStep) (s : State) : Out := gangRow 1 q st s
def execGangAllReduce (q : Page) (st : CmdStep) (s : State) : Out := gangRow 2 q st s
def execGangGather (q : Page) (st : CmdStep) (s : State) : Out := gangRow 3 q st s
def execGangBroadcast (q : Page) (st : CmdStep) (s : State) : Out := gangRow 4 q st s

end Sys2Proof.Machine
end

