-- ==== Sys2Proof/Machine/Fill.lean ====
section
/-! DEFINITION. The end of a command's staging: faces filled from the committed ones, and derived affine words (R35, R159,
R264, R352), with the commit digest over what is staged (R272). -/

namespace Sys2Proof.Machine

/-! ### What a command wrote of a face -/

namespace Staged

/-- The use of the committed face that the staged one began as. -/
def oldBase (st : Staged) : Nat := st.d.base (1 - st.face)

/-- Byte o of row r of the committed face is not needed: the command wrote every element that it holds part of. -/
def byteDone (st : Staged) (r o : Nat) : Bool :=
  let d := st.d
  if st.packed then (List.range d.cols).all fun c => runsHave st.wrote (r * d.cols + c)
  else if d.rowBytes ≤ o then true
  else
    let b := fmtBits d.w.fmt
    let first := 8 * o / b
    let last := (8 * o + 7) / b
    (List.range (last + 1 - first)).all fun i => decide (d.cols ≤ first + i) || runsHave st.wrote (r * d.cols + first + i)

/-- The committed face's side list is not needed. -/
def sideDone (st : Staged) : Bool := st.wside || (List.range (st.d.rows * st.d.blocks)).all (runsHave st.wplane)

/-- A byte of the committed face, of its plane or of its side list is not copied by the fill. -/
def covered (st : Staged) (a : Nat) : Bool :=
  let d := st.d
  let k := 1 - st.face
  if st.oldBase ≤ a ∧ a < st.oldBase + d.faceLen then st.byteDone ((a - st.oldBase) / d.pitch) ((a - st.oldBase) % d.pitch)
  else if d.w.plane ∧ d.planeBase k ≤ a ∧ a < d.planeBase k + d.planeLen then
    decide (d.rows * d.blocks ≤ a - d.planeBase k) || runsHave st.wplane (a - d.planeBase k) || runsHave st.lplane (a - d.planeBase k)
  else if d.w.side ∧ d.sideBase k ≤ a ∧ a < d.sideBase k + TDesc.sideLen then st.sideDone
  else true

/-- Rows of a packed committed face that the fill has to unpack: those that the command wrote in part, and those that it moves to
another coarse scale (R159, R181). -/
def unpacks (st : Staged) : List Nat :=
  if !st.packed then []
  else (List.range st.d.rows).filter fun r =>
    let mine := fun c => runsHave st.wrote (r * st.d.cols + c)
    !(List.range st.d.cols).all mine && (st.old != st.coarse || (List.range st.d.cols).any mine)

/-- Poisoned granules that the fill would read. -/
def badGranules (st : Staged) (H : Hall) : List Nat :=
  H.poison.filter fun g => !(List.range 32).all fun i => st.covered (32 * g + i)

end Staged

/-! ### Deriving an affine word (R352) -/

/-- The last value kept for an element. -/
def Staged.kept? (st : Staged) (i : Nat) : Option Kept := (st.vals.filter fun v => v.idx == i).getLast?

/-- FP32 value of each element of the face: the last value written, or the code that stands there under its own word. -/
def State.faceValues (s : State) (st : Staged) : List Nat :=
  (List.range st.d.elems).map fun i => match st.kept? i with
    | some v => v.bits
    | none => (s.stagedVal st (i / st.d.cols) (i % st.d.cols)).toZiSrc

/-- Derive the affine word of a staged face and encode the whole face with it. Statistics, history and tile statuses are those
of the elements that the command wrote; every saturation is counted (R36). -/
def State.derive (s : State) (q : Page) (slot : Nat) (u : Use) (st : Staged) : State :=
  if st.vals.isEmpty then s
  else
    let vs := s.faceValues st
    let dv := deriveAffine vs st.d.w.fmt
    let els := vs.map fun v => elOut ⟨st.d.w, st.coarse, dv.word⟩ 0 false (.f32 v) (dv.code st.d.w.fmt (b32.dec v))
    let mine := els.zipIdx.filter fun p => (st.kept? p.2).isSome
    let others := els.zipIdx.filter fun p => (st.kept? p.2).isNone
    let s := s.modFace u fun m => (chunksOf st.d.cols els).zipIdx.foldl (fun m p =>
      putCodes m st.d.w.fmt (st.d.base st.face + p.2 * st.d.pitch) 0 (p.1.map ElOut.code)) m
    let s := s.modStaged q slot u fun x => { x with aff := dv.word.toNat, affs := [], vals := [], wrote := [(0, st.d.elems)] }
    let s := s.modStat q slot u st.coarse fun z =>
      let z := statAdd z (mine.map (·.1))
      { z with degenerate := satAdd 0xFFFFFFFF z.degenerate (b2n dv.degen),
               sats := satAdd 0xFFFFFFFF z.sats (others.filter fun p => p.1.sat).length }
    let s := s.addSqs q slot u (mine.filterMap fun p => p.1.sq.map fun v => (p.2, v))
    let s := if Plan.managedT (s.plan? q) st.d.tensor then
      s.modAtt q slot fun a => a.pushMax u.hall st.d.tensor (maxWritten (mine.map (·.1))) else s
    s.modAtt q slot fun a => a.addTiles (mine.filterMap fun p =>
      if p.1.sat then ((st.kept? p.2).bind Kept.at_).map fun t => t.stored u.hall else none)

/-- The use under which a face was staged. -/
def Attempt.useOfStaged (a : Attempt) (st : Staged) : Option Use :=
  a.uses.find? fun u => u.hall == st.hall && u.d.pair == st.d.pair && !u.d.host

/-- The end of a command's writes: derived words, side lists, and the count of what the fill encoded again. -/
def State.deriveAll (s : State) (q : Page) (c : Cmd) : State :=
  c.att.staged.foldl (fun s st => match c.att.useOfStaged st with
    | some u => ((s.countRefits q c.slot u st).settleSide q c.slot u st).derive q c.slot u st
    | none => s) s

/-- A packed row that the fill has to unpack is malformed (R181). -/
def Staged.packBad (st : Staged) (H : Hall) : Bool :=
  let f : Face := { m := H.hbm, d := st.d, k := 1 - st.face, coarse := st.old, aff := Affine.ofNat 0, side := [] }
  st.unpacks.any fun r => (f.unpackRow r).isNone

/-- The fill of partial faces (R159): a poisoned or malformed part that it reads fails the command. -/
def State.fillErr (s : State) (c : Cmd) : Option (Nat × Nat × Nat) :=
  firstSome (fun (st : Staged) =>
    let H := s.hall st.hall
    match st.badGranules H with
    | g :: _ => some (0x0903, st.hall, 32 * g)
    | [] =>
      if st.d.w.side ∧ !st.sideDone ∧ (readSide H.hbm (st.d.sideBase (1 - st.face)) st.d.elems).isNone then
        some (errFmtSide, st.hall, 0)
      else if st.packBad H then some (0x0310, st.hall, 0)
      else none) c.att.staged

/-! ### The commit digest (R272; its free choices are log 25) -/

/-- The 64 bits of a tag (Table 03-8). -/
def Tag.bits (t : Tag) : Nat :=
  t.pass % 2 ^ 14 + t.acc * 2 ^ 14 + t.sfmt * 2 ^ 18 + t.slots * 2 ^ 22 + t.state * 2 ^ 24
    + (t.occ.map fun l => 2 ^ (28 + l)).sum + t.chunks * 2 ^ 36 + t.count * 2 ^ 49

/-- Bytes of a staged face: its rows, its plane, its side list. -/
def State.stagedBytes (s : State) (st : Staged) : List Byte :=
  let m := (s.hall st.hall).hbm
  let d := st.d
  ((List.range d.rows).flatMap fun r =>
      memReads m (d.base st.face + r * d.pitch) (if st.packed then d.pitch else d.rowBytes))
    ++ (if d.w.plane then memReads m (d.planeBase st.face) (d.rows * d.blocks) else [])
    ++ (if d.w.side then memReads m (d.sideBase st.face) TDesc.sideLen else [])

/-- Operations on keys and trees of a RUN in a hall, or of a GANG. -/
def State.roundUses (s : State) (q : Page) (c : Cmd) (h : Nat) : List (Bool × Nat) :=
  if c.noWork then []
  else if c.opcode = opRUN then (match s.plan? q with
    | some p => (p.passOps (h - (s.part (pageFn q)).base) c.desc.pass).filterMap fun o => match o with
        | .reduce r => some (true, r.tree)
        | .send r => some (false, r.tkey)
        | .recv r => if r.mode = 3 then none else some (false, r.tkey)
        | _ => none
    | none => [])
  else if c.opcode = opGANG then (match c.att.uses with
    | [_, b] => if b.hall = h then [(true, c.desc.tree)] else []
    | _ => [])
  else []

/-- Verdict SKIP of an update RUN (R197). DESIGN CHOICE: R197 knows one verdict; where APPLYs of several halls read SCALARS that lead
to different ones, one SKIP skips the whole RUN, and each hall's step record shows its own (log 141). -/
def State.skips (s : State) (q : Page) (c : Cmd) : Bool :=
  c.opcode == opRUN && !c.noWork && (((s.plan? q).map (·.isUpdate c.desc.pass)).getD false)
    && c.att.verdict.any fun v => !v.2.apply

def State.isUpdate (s : State) (q : Page) (c : Cmd) : Bool :=
  c.opcode == opRUN && !c.noWork && (((s.plan? q).map (·.isUpdate c.desc.pass)).getD false)

/-- Counter codes with their new values, for one hall. -/
def State.newCounters (s : State) (q : Page) (c : Cmd) (h : Nat) : List (Nat × Nat) :=
  let H := s.hall h
  let j := H.job (pageJob q)
  let uses := s.roundUses q c h
  (c.att.riserDraw.filter (·.1 == h)).map (fun d => (d.2.1, (tabGet 0 H.riser d.2.1).toNat + d.2.2))
    ++ (c.att.sampDraw.filter (·.1 == h)).map (fun d => (0x20 + d.2.1, tabGet 0 H.sampler (32 * pageJob q + d.2.1) + d.2.2))
    ++ (if s.isUpdate q c && !s.skips q c then [(0x40, H.step.toNat + 1)] else [])
    ++ uses.eraseDups.map fun k => (if k.1 then 0x42 else 0x41,
        tabGet 0 (if k.1 then j.rndT else j.rndK) k.2 + (uses.filter (· == k)).length)

/-- The semaphores that a header signals, with their values after the commit. -/
def Part.signalled (p : Part) (d : Desc) : List (Nat × Nat) :=
  let t := p.signal d
  ((d.semsOf 3 ++ d.semsOf 4).map (·.1)).eraseDups.map fun n => (n, (t.sem n).value.toNat)

def State.digestRecords (s : State) (q : Page) (c : Cmd) : List (List Byte) :=
  let a := c.att
  a.staged.map (fun st => natLE st.d.tensor 2 ++ natLE 0 8 ++ s.stagedBytes st)
    ++ a.twins.map (fun t => natLE t.lrow 2 ++ natLE t.row.tag.bits 8 ++ wordBytes t.row.data)
    ++ (s.pageHalls q).flatMap (fun h => (sortTiles (a.tiles.filter (·.hall == h))).zipIdx.map fun p =>
        natLE p.1.pass 2 ++ natLE p.2 4 ++ natLE p.1.word.toNat 8)
    ++ ((s.part (pageFn q)).signalled c.desc).map (fun x => natLE x.1 1 ++ natLE x.2 2)
    ++ (s.pageHalls q).flatMap fun h => (s.newCounters q c h).map fun x => natLE x.1 1 ++ natLE x.2 8

def State.commitDigest (s : State) (q : Page) (c : Cmd) : DWord := ((s.digestRecords q c).map crc64).foldl (· + ·) 0

end Sys2Proof.Machine
end

