-- ==== Sys2Proof/Machine/Taint.lean ====
section
/-! DEFINITION. What a BAR2 write to bytes of a command in flight leaves unspecified (R164; log 93). -/

namespace Sys2Proof.Machine

/-! ### What was met -/

/-- A write met a byte of a run in a hall. -/
def Attempt.hit (a : Attempt) (h : Nat) (x : Span) : Bool := a.hits.any fun e => e.1 == h && x.meets e.2

/-- Parts of a face: codes by row and column, fine codes by row and block, the side list. -/
structure Cells where
  codes : Nat → Nat → Bool
  fines : Nat → Nat → Bool
  side  : Bool

def Cells.none : Cells := ⟨fun _ _ => false, fun _ _ => false, false⟩

def Cells.or (x y : Cells) : Cells := ⟨fun r c => x.codes r c || y.codes r c, fun r j => x.fines r j || y.fines r j, x.side || y.side⟩

/-- Columns of a block. -/
def TDesc.blockElems (d : TDesc) (j : Nat) : List Nat :=
  (List.range d.w.blk).map (d.w.blk * j + ·) |>.filter fun c => decide (c < d.cols)

/-- Some part of a face is met. -/
def Cells.some (x : Cells) (d : TDesc) : Bool :=
  x.side || (List.range d.rows).any fun r => (List.range d.cols).any (x.codes r) || (List.range d.blocks).any (x.fines r)

/-- The value of an element hangs on its code, its block's fine code and the side list. -/
def Cells.val (x : Cells) (d : TDesc) (r c : Nat) : Bool := x.codes r c || x.fines r (c / d.w.blk) || x.side

/-- Bytes of an element's code; of a packed row, every code hangs on the whole row. -/
def TDesc.codeSpan (d : TDesc) (packed : Bool) (k r c : Nat) : Span :=
  let b := fmtBits d.w.fmt
  if packed then (d.base k + r * d.pitch, d.pitch)
  else (d.base k + r * d.pitch + c * b / 8, ceilDiv ((c + 1) * b) 8 - c * b / 8)

/-- The parts of face k of a descriptor that writes met. -/
def Attempt.metFace (a : Attempt) (d : TDesc) (packed : Bool) (h k : Nat) : Cells :=
  { codes := fun r c => a.hit h (d.codeSpan packed k r c)
    fines := fun r j => d.w.plane && a.hit h (d.planeBase k + r * d.blocks + j, 1)
    side := d.w.side && a.hit h (d.sideBase k, TDesc.sideLen) }

/-- What of a staged face hangs on bytes met in either face: the bytes themselves, and blocks that the command did not write whole
and that take over some of the committed face (R159). -/
def Attempt.filled (a : Attempt) (st : Staged) : Cells :=
  let d := st.d
  let old := a.metFace d st.packed st.hall (1 - st.face)
  let new := a.metFace d st.packed st.hall st.face
  let takes := fun (r j : Nat) => (old.fines r j || (d.blockElems j).any (old.codes r) || old.side)
    && !(d.blockElems j).all fun c => runsHave st.wrote (r * d.cols + c)
  { codes := fun r c => new.codes r c || takes r (c / d.w.blk)
    fines := fun r j => new.fines r j || takes r j
    side := d.w.side && (old.side || new.side) }

/-- A span of a hall meets the bytes in HBM that a LOAD reads. -/
def State.sourceMet (s : State) (q : Page) (c : Cmd) (h : Nat) (x : Span) : Bool :=
  c.opcode == opLOAD && match (descExtents opLOAD c.desc c.tds).head? with
    | some e => bit e.2.1 0 && s.phys q (hbmHall (e.2.1 - 1)) == h && x.meets (hbmOff (e.2.1 - 1), e.2.2)
    | none => false

/-- The parts of the committed face of a tensor that an operation reads in a hall, as far as writes met them. -/
def Attempt.metRead (a : Attempt) (p : Plan) (h t : Nat) : Option (TDesc × Cells) :=
  (a.uses.find? fun u => u.reads && !u.d.host && u.hall == h && u.d.tensor == t).map fun u =>
    (u.d, a.metFace u.d (p.packed t) h u.face)

/-- An element of a tensor may have another value. -/
def Attempt.valMet (a : Attempt) (p : Plan) (h t r c : Nat) : Bool :=
  match a.metRead p h t with
  | some m => m.2.val m.1 r c
  | none => false

/-- A write met some value of a rectangle of a tensor. -/
def Attempt.boxMet (a : Attempt) (p : Plan) (h : Nat) (b : TBox) : Bool :=
  match a.metRead p h b.t with
  | some m => (List.range m.1.rows).any fun r => decide (b.rows.1 ≤ r) && decide (r < b.rows.top)
      && (List.range m.1.cols).any fun c => decide (b.cols.1 ≤ c) && decide (c < b.cols.top) && m.2.val m.1 r c
  | none => false

/-! ### Where it flows in a RUN -/

/-- The operations of a RUN with their places: physical hall, offset, record. -/
abbrev PlacedOp := Nat × Nat × Op

def State.placedOps (s : State) (q : Page) (c : Cmd) : List PlacedOp :=
  match s.plan? q with
  | none => []
  | some p => (List.range p.phalls).flatMap fun lh =>
      (p.passOps lh c.desc.pass).zipIdx.map fun (o, k) => (s.phys q lh, k, o)

/-- Units of work of an operation, each of which gives its own part of the results: token rows, flights, rows, hold rows. -/
def Op.units (p : Plan) : Op → Nat
  | .matpass o => 64 * o.tiles
  | .epass o => 64 * o.tiles
  | .newel o => o.rows
  | .riser o => if o.apply then o.elCount / max 1 (p.colsOf o.ptensor) else 1
  | .save o => o.rowCount
  | .store o => o.rowCount
  | .hbmcopy o => o.nrows
  | .send o => o.count
  | .recv o => max 1 o.count
  | .reduce o => if o.mode = 3 then 1 else o.shCount * o.srows
  | _ => 0

/-- Rectangles of committed faces that unit n of an operation reads in HBM. What a pass reads of bays is what their loads brought: a bay
that was loaded before a write keeps the old content, and a load after it takes free bytes. -/
def Op.unitReads (p : Plan) (n : Nat) : Op → List TBox
  | .matpass o =>
    if o.xsrc = 0xFFFF then [] else let k := o.klen p; [⟨o.xsrc, (n, 1), (o.ckFirst * k, o.ckCount * k)⟩]
  | .epass o =>
    if 2 ≤ o.bsrc ∨ o.btensor = 0xFFFF then []
    else (segments (p.colsOf o.btensor) (if o.bsrc = 1 then n else n / 64 * 64) (if o.bsrc = 1 then 1 else 64)).map fun g =>
      ⟨o.btensor, (g.1, 1), (g.2.1, g.2.2)⟩
  | .riser o =>
    ((Op.riser o).reads p).map fun t => if t = o.scalars then ⟨t, (0, 2 ^ 32), (0, 2 ^ 32)⟩
      else ⟨t, (o.elFirst / max 1 (p.colsOf o.ptensor) + n, 1), (0, 2 ^ 32)⟩
  | .save o => ((Op.save o).reads p).map fun t => ⟨t, (o.rowFirst + n, 1), (0, 2 ^ 32)⟩
  | .hbmcopy o => [⟨o.src, (o.srow + n, 1), (o.scol, o.ncols)⟩]
  | .send o => ((Op.send o).reads p).map fun t => ⟨t, (o.first + n, 1), (0, 2 ^ 32)⟩
  | .reduce o => ((Op.reduce o).reads p).map fun t => ⟨t, (0, 2 ^ 32), (0, 2 ^ 32)⟩
  | _ => []

/-- Logical rows that unit n of an operation reads; `S` gives the slot count of the groups at a row. -/
def Op.unitRows (p : Plan) (S : Nat → Nat) (n : Nat) : Op → List Span
  | .matpass o =>
    if o.xsrc = 0xFFFF then
      let g := rowGroups (o.reduction p)
      let r := o.xgroups p
      [(o.xrow + (n * g + r.1) * S o.xrow, r.2 * S o.xrow)]
    else []
  | .epass o =>
    let k := slotCount o.slots
    (if o.asrc = 1 then [(o.arow + n * k, k)] else [])
      ++ (if o.bsrc ≤ 1 ∧ o.btensor = 0xFFFF then [(o.brow + n / 64 * k, k)] else [])
  | .newel o =>
    if o.mode = nVERIFY then (Op.newel o).rowReads p S
    else (o.srcA + n * S o.srcA, S o.srcA) :: (if o.srcB = 0xFFFF then [] else [(o.srcB + n * S o.srcB, S o.srcB)])
  | .save o => if o.mode = 0 then let k := rowGroups (p.colsOf o.target) * S o.urow; [(o.urow + n * k, k)] else []
  | .store o => let k := rowGroups o.ncols * slotCount o.slots; [(o.urow + n * k, k)]
  | .send o => if o.tensorRows then [] else [(o.urow + n * S o.urow, S o.urow)]
  | .reduce o => if o.mode = 3 then [] else [(o.urow + n * S o.urow, S o.urow)]
  | _ => []

/-- Logical rows that take the results of unit n, in a hall of the given rank. -/
def Op.unitTargets (p : Plan) (rank n : Nat) : Op → List Span
  | .matpass o => let k := o.groups p * slotCount o.slots; [(o.ubase + n * k, k)]
  | .epass o => if o.dest then [] else [(o.drow + n * slotCount o.slots, slotCount o.slots)]
  | .newel o => if o.mode = nVERIFY then [(o.drow, o.rows)] else [(o.drow + n, 1)]
  | .recv o => if o.mode = 0 then [(o.urow + n, 1)] else []
  | .reduce o => if (o.rows p rank).any fun r => r.overlaps (o.drow + n, 1) then [(o.drow + n, 1)] else []
  | _ => []

/-- Rectangles of tensors that take the results of unit n of an operation of logical hall i. -/
def Op.unitBoxes (p : Plan) (i n : Nat) : Op → List TBox
  | .epass o =>
    if !o.dest then []
    else if o.asrc = 1 then
      let g := max 1 (rowGroups (p.colsOf o.dtensor))
      [p.box o.dtensor (n / g, 1) (64 * (n % g), 64)]
    else o.boxes p i
  | .riser o =>
    ((Op.riser o).writes p).map fun t => p.rowBox t (o.elFirst / max 1 (p.colsOf o.ptensor) + n) 1
  | .save o => if o.mode = 2 then [p.box o.target (0, 2 ^ 32) (o.rowFirst + n, 1)] else [p.rowBox o.target (o.rowFirst + n) 1]
  | .store o => [p.box o.tensor (o.rowFirst + n, 1) (o.colFirst, o.ncols)]
  | .hbmcopy o => [p.box o.dst (o.drow + n, 1) (o.dcol, o.ncols)]
  | .recv o => if o.mode = 3 then (Op.recv o).boxes p i else ((Op.recv o).writes p).map fun t => p.rowBox t (o.first + n) 1
  | _ => []

/-- Unit n of operation x takes what unit m of operation e produced other than rows: the verdict and the packet of the step, the values
of a tree or of a key. -/
def Op.feeds (e x : Op) (m n : Nat) : Bool :=
  match e, x with
  | .riser a, .reduce b => !a.apply && b.mode == 3
  | .newel a, .reduce b => a.loss && b.mode == 3
  | .reduce a, .riser b => if b.apply then a.mode == 3 else a.mode == 0 && a.tree == b.tree
  | .reduce a, .reduce b => a.tree == b.tree && a.mode == b.mode
      && (a.mode == 3 || a.shFirst * a.srows + m == b.shFirst * b.srows + n)
  | .send a, .recv b => a.tkey == b.tkey && (a.tensorRows || b.mode != 0 || m == n)
  | _, _ => false

/-- A unit of a placed operation. -/
abbrev Unit1 := PlacedOp × Nat

/-- A unit's result can depend on bytes that a write met, or on the results of the units of a list: it reads some of the bytes, a row
that an earlier operation of its hall filled from them, or a value that such a unit handed over. -/
def State.unitMet (s : State) (q : Page) (c : Cmd) (p : Plan) (l : List Unit1) (x : Unit1) : Bool :=
  let h := x.1.1
  (x.1.2.2.unitReads p x.2).any (c.att.boxMet p h)
    || (x.1.2.2.unitRows p (s.slotsAt q c.slot h) x.2).any (fun r => l.any fun e => e.1.1 == h && decide (e.1.2.1 < x.1.2.1)
      && (e.1.2.2.unitTargets p (s.rank h) e.2).any r.overlaps)
    || l.any fun e => Op.feeds e.1.2.2 x.1.2.2 e.2 x.2

/-- The units of a RUN whose results can depend on the bytes that writes met. -/
def State.metUnits (s : State) (q : Page) (c : Cmd) (p : Plan) : List Unit1 :=
  let all : List Unit1 := (s.placedOps q c).flatMap fun o => (List.range (o.2.2.units p)).map fun n => (o, n)
  (List.range (s.placedOps q c).length).foldl (fun l _ => all.filter fun x => l.contains x || s.unitMet q c p l x) []

/-! ### Free values in place of the results -/

/-- Up to 255 events at free positions. -/
def State.freshEvents (s : State) : List Event × State :=
  let (n, s) := s.fresh
  let r := s.freshList (fun k => let x := Config.freeNat k
    (((x % 65536, x / 65536 % 64, x / 4194304 % 64) : Pos), Flags.ofBits (x / 268435456 % 64))) (Config.freeNat n % 256)
  r

/-- Free codes, fine codes and side list in a staged face. -/
def State.freeCells (s : State) (st : Staged) (x : Cells) : State :=
  let d := st.d
  let rows := List.range d.rows
  let codes := rows.flatMap fun r => ((List.range d.cols).filter (x.codes r)).map fun c => (r, c)
  let s := if st.packed then s.freeRuns st.hall ((rows.filter fun r => (List.range d.cols).any (x.codes r)).map fun r =>
      (d.base st.face + r * d.pitch, d.pitch))
    else
      let f := s.freshList Config.freeNat codes.length
      f.2.modHall st.hall fun H => { H with hbm := (codes.zip f.1).foldl (fun m e =>
        putCodes m d.w.fmt (d.base st.face + e.1.1 * d.pitch) e.1.2 [e.2 % 2 ^ fmtBits d.w.fmt]) H.hbm }
  s.freeRuns st.hall ((if d.w.plane then rows.flatMap fun r => ((List.range d.blocks).filter (x.fines r)).map fun j =>
      (d.planeBase st.face + r * d.blocks + j, 1) else [])
    ++ (if d.w.side ∧ x.side then [(d.sideBase st.face, TDesc.sideLen)] else []))

/-- Change items of a list that meet a condition, with a free value each. -/
def freeWhere {α : Type} (ok : α → Bool) (f : α → State → α × State) (l : List α) (s : State) : List α × State :=
  l.foldl (fun z x => if ok x then (let r := f x z.2; (z.1 ++ [r.1], r.2)) else (z.1 ++ [x], z.2)) ([], s)

/-- A node's value with free data. -/
def freeNode (v : NodeVal) (s : State) : NodeVal × State :=
  let d := s.freshList Config.freeWord v.data.length
  let r := d.2.freshList Config.freeByte v.raw.length
  ({ v with data := d.1, raw := r.1 }, r.2)

def freePkt (f : Nat → Nat) (p : NormPkt) : NormPkt :=
  { p with sumsq := f 0 % 2 ^ 64, nf := f 1 % 2 ^ 32, lossNf := f 2 % 2 ^ 32 }

/-- What of a command's results can depend on the bytes that a BAR2 write met. -/
structure Met where
  cells : Staged → Cells          -- parts of a staged face
  row  : Nat → Nat → Bool         -- a row of a hall
  tile : Tile → Bool
  stat : Nat → Nat → Bool         -- a hall's entry of a tensor
  verdict : Nat → Bool            -- a hall's verdict
  norm : Nat → Nat → Bool         -- the norm sums of an operation of a hall
  hold : Nat → Nat → Bool         -- a hold segment of a hall
  loss : Nat → Bool               -- a hall's count of losses
  draw : Nat → Bool               -- its sampler counters
  tree : Nat → Bool               -- what a tree carries on
  out  : Bool                     -- the bytes of a STORE

/-- Nothing, or all that a command other than a RUN writes. -/
def Met.whole (any : Bool) : Met :=
  { cells := fun _ => ⟨fun _ _ => any, fun _ _ => any, any⟩, row := fun _ _ => false, tile := fun _ => any, stat := fun _ _ => any,
    verdict := fun _ => false, norm := fun _ _ => false, hold := fun _ _ => false, loss := fun _ => false, draw := fun _ => false,
    tree := fun _ => any, out := any }

/-- The parts of a staged face that encoded rectangles of its tensor reach: whole blocks, and with per-row scales whole rows. -/
def Staged.inBoxes (st : Staged) (l : List TBox) : Cells :=
  let d := st.d
  let l := l.filter fun b => b.t == d.tensor
  let at_ := fun (r j : Nat) => l.any fun b => decide (b.rows.1 ≤ r) && decide (r < b.rows.top)
    && (st.perRow || b.cols.overlaps (d.w.blk * j, d.w.blk))
  ⟨fun r c => at_ r (c / d.w.blk), at_, !l.isEmpty⟩

/-- Of a RUN, the results of the units that the bytes reach. -/
def State.metRun (s : State) (q : Page) (c : Cmd) (p : Plan) : Met :=
  let a := c.att
  let l := s.metUnits q c p
  let here := fun (h : Nat) => l.filter fun x => x.1.1 == h
  let boxes := fun (h : Nat) => (here h).flatMap fun x => x.1.2.2.unitBoxes p (h - (s.part (pageFn q)).base) x.2
  let all := fun (h : Nat) => (here h).any fun x => x.1.2.2.restoresAll
  let riser := fun (h : Nat) (f : RiserOp → Bool) => (here h).any fun x => match x.1.2.2 with
    | .riser o => f o
    | _ => false
  let newel := fun (h : Nat) (f : NewelOp → Bool) => (here h).any fun x => match x.1.2.2 with
    | .newel o => f o
    | _ => false
  let reduce := fun (x : Unit1) (f : ReduceOp → Bool) => match x.1.2.2 with
    | .reduce o => f o
    | _ => false
  { cells := fun st => if all st.hall then ⟨fun _ _ => true, fun _ _ => true, true⟩ else st.inBoxes (boxes st.hall)
    row := fun h r => (here h).any fun x => (x.1.2.2.unitTargets p (s.rank h) x.2).any fun y => y.overlaps (r, 1)
    tile := fun t => (here t.hall).any fun x => x.1.2.1 == t.op && x.2 / 64 == t.trow
    stat := fun h t => all h || (boxes h).any (·.t == t) || a.boxMet p h ⟨t, (0, 2 ^ 32), (0, 2 ^ 32)⟩
    verdict := fun h => (here h).any fun x => reduce x (·.mode == 3)
    norm := fun h off => (here h).any fun x => x.1.2.1 == off
    hold := fun h g => riser h fun o => !o.apply && o.segs.contains g
    loss := fun h => newel h (·.loss)
    draw := fun h => newel h (·.mode == nVERIFY)
    tree := fun t => l.any fun x => reduce x (·.tree == t)
    out := false }

/-- Of a GANG, the elements of its target that its own source's elements reach: those of the same place, and in a gather those of its
rank's entry. -/
def Attempt.metGang (a : Attempt) (p : Plan) (g : GangCtx) : Met :=
  let u := g.src
  let src := a.metFace u.d (p.packed u.d.tensor) u.hall u.face
  let val := fun (i : Nat) => !u.d.host && decide (i < u.d.elems) && src.val u.d (i / u.d.cols) (i % u.d.cols)
  let any := !u.d.host && (List.range u.d.elems).any val
  let entries := (List.range g.c.tree.ranks.length).filter fun k => g.c.tree.ranks.getD k 0 == g.rank
  let got := fun (i : Nat) => if g.op = 3 then entries.any fun k => decide (k * g.e ≤ i) && decide (i < k * g.e + g.e) && val (i - k * g.e)
    else val i
  let d := g.tgt.d
  let block := fun (r j : Nat) => (d.blockElems j).any fun c => got (r * d.cols + c)
  { Met.whole false with
    cells := fun st => if st.d.pair = d.pair ∧ st.hall = g.tgt.hall then
        ⟨fun r c => if d.w.fmt = fmtFP32 then got (r * d.cols + c) else block r (c / d.w.blk), block, any⟩
      else Cells.none,
    tile := fun _ => any, stat := fun _ _ => any, tree := fun _ => any }

def State.met (s : State) (q : Page) (c : Cmd) : Met :=
  match s.plan? q with
  | none => Met.whole true
  | some p =>
    if c.opcode = opRUN then s.metRun q c p
    else if c.opcode = opGANG then (match s.gangCtx q c with
      | some g => c.att.metGang p g
      | none => Met.whole true)
    else Met.whole true

/-- LOAD, STORE and COPY do their work again on free bytes in place of those met, so that their results hang on these as the work
says; beside their results, memory holds what was written. None where the work on free bytes may fail. -/
def State.redo (s : State) (q : Page) (c : Cmd) : Option (State × Cmd) :=
  let fresh := fun (a : Attempt) => { a with done := [], staged := [], tiles := [], stats := [], sqs := [], auds := [], hist := [],
                                              hostOut := [], perRow := [] }
  let x := { c with att := fresh c.att }
  let u := (s.unsure c).modAtt q c.slot fresh
  let work := if c.opcode = opLOAD ∧ c.desc.part ≠ 3 then u.loadWork q x
    else if c.opcode = opSTORE then u.storeWork q x
    else if c.opcode = opCOPY then u.copyWork q x
    else .error 0
  match work with
  | .error _ => none
  | .ok t => match t.cmd? q c.slot with
    | none => none
    | some y =>
      let t := t.deriveAll q y
      let mine := fun (h b : Nat) => y.att.staged.any fun st => st.hall == h && (st.d.faceSpans st.face).any (Span.meets (b, 1))
      let back := fun (t : State) (h b : Nat) => if mine h b then t.freeRuns h [(b, 1)]
        else t.modHall h fun H => { H with hbm := memWrites H.hbm b (memReads (s.hall h).hbm b 1) }
      let t := c.att.hits.foldl (fun t e => (List.range e.2.2).foldl (fun t i => back t e.1 (e.2.1 + i)) t) t
      (t.cmd? q c.slot).map fun z => (t, z)

/-- What of the other commands' results can depend on the bytes is free. -/
def State.blur (s : State) (q : Page) (c : Cmd) : State × Cmd :=
    let a := c.att
    let M := s.met q c
    let cells := fun (st : Staged) => let x := (M.cells st).or (a.filled st)
      if (st.d.w.derive_ || x.side) && x.some st.d then (⟨fun _ _ => true, fun _ _ => true, true⟩ : Cells) else x
    let s := a.staged.foldl (fun s st => s.freeCells st (cells st)) s
    let sf := freeWhere (fun st => st.d.w.derive_ && (cells st).some st.d) (fun st s =>
      let (n, s) := s.fresh
      ({ st with aff := Config.freeNat n % 2 ^ 32 }, s)) a.staged s
    let tw := freeWhere (fun (t : Twin) => M.row t.hall t.lrow) (fun t s =>
      let r := s.freshList Config.freeWord 64
      ({ t with row := { t.row with data := r.1 } }, r.2)) a.twins sf.2
    let ti := freeWhere M.tile (fun t s =>
      let r := s.freshEvents
      ({ t with ev := r.1 }, r.2)) a.tiles tw.2
    let ho := freeWhere (fun _ => M.out) (fun (x : Nat × List Byte) s =>
      let r := s.freshList Config.freeByte x.2.length
      ((x.1, r.1), r.2)) a.hostOut ti.2
    let ca := freeWhere (fun (x : Nat × Nat × NodeVal) => M.tree x.2.1) (fun x s =>
      let r := freeNode x.2.2 s
      ((x.1, x.2.1, r.1), r.2)) a.carryNew ho.2
    let s := (a.holdSegs.filter fun g => M.hold g.1 g.2).foldl (fun s g => s.freeRuns g.1 [((s.hall g.1).holdBase + 65536 * g.2, 65536)]) ca.2
    let (n, s) := s.fresh
    let f := fun k => Config.freeNat (n + k)
    let a := { a with
      staged := sf.1, twins := tw.1, tiles := ti.1, hostOut := ho.1, carryNew := ca.1,
      stats := a.stats.zipIdx.map fun p => if M.stat p.1.1 p.1.2.tensor then (p.1.1, { p.1.2 with
        zeros := f (16 * p.2) % 2 ^ 32, underflow := f (16 * p.2 + 1) % 2 ^ 32, sats := f (16 * p.2 + 2) % 2 ^ 32,
        nonfinite := f (16 * p.2 + 3) % 2 ^ 32, degenerate := f (16 * p.2 + 4) % 2 ^ 32, invalidT := f (16 * p.2 + 5) % 2 ^ 32,
        packed := f (16 * p.2 + 6) % 2 ^ 32 }) else p.1,
      sqs := a.sqs.zipIdx.map fun p =>
        if M.stat p.1.1 p.1.2.1 then (p.1.1, p.1.2.1, p.1.2.2.1, f (1000 + p.2) % 2 ^ 64) else p.1,
      auds := a.auds.zipIdx.map fun p => if M.stat p.1.1 p.1.2.1 then
        (p.1.1, p.1.2.1, p.1.2.2.1, f (2000 + 2 * p.2) % 2 ^ 64, f (2001 + 2 * p.2) % 2 ^ 64) else p.1,
      hist := a.hist.zipIdx.map fun p =>
        if M.stat p.1.1 p.1.2.1 then (p.1.1, p.1.2.1, sext 22 (f (3000 + p.2) % 2 ^ 22)) else p.1,
      norms := a.norms.zipIdx.map fun p => if M.norm p.1.1 p.1.2.1 then (p.1.1, p.1.2.1, { p.1.2.2 with
        wsq := f (4000 + 3 * p.2) % 2 ^ 64, gsq := f (4001 + 3 * p.2) % 2 ^ 64, usq := f (4002 + 3 * p.2) % 2 ^ 64 }) else p.1,
      normOps := a.normOps.zipIdx.map fun p => if M.norm p.1.1 p.1.2.1 then (p.1.1, p.1.2.1, f (5000 + p.2) % 2 ^ 64) else p.1,
      nf := a.nf.zipIdx.map fun p => if a.holdSegs.any fun g => g.1 == p.1.1 && M.hold g.1 g.2 then (p.1.1, f (6000 + p.2) % 2 ^ 32) else p.1,
      lossNf := a.lossNf.zipIdx.filterMap fun p => if M.loss p.1 ∧ f (7000 + p.2) % 2 = 0 then none else some p.1,
      sampDraw := a.sampDraw.zipIdx.map fun p => if M.draw p.1.1 then (p.1.1, p.1.2.1, f (8000 + p.2) % 2 ^ 32) else p.1,
      verdict := a.verdict.zipIdx.map fun p => if M.verdict p.1.1 then (p.1.1, { p.1.2 with
        apply := f (9000 + 8 * p.2) % 2 == 0, k := f (9001 + 8 * p.2) % 2 ^ 32, pkt := freePkt (fun i => f (9002 + 8 * p.2 + i)) p.1.2.pkt,
        scalarBad := f (9005 + 8 * p.2) % 2 == 0 }) else p.1 }
    ({ s with free := s.free + 10000 }, { c with att := a })

/-- A BAR2 write met bytes of the command (R164): what can depend on them is unspecified, free values. -/
def State.unspecify (s : State) (q : Page) (c : Cmd) : State × Cmd :=
  if c.att.hits.isEmpty then (s, c)
  else match s.redo q c with
    | some r => r
    | none => s.blur q c

end Sys2Proof.Machine
end

