-- ==== Sys2Proof/Machine/Commit.lean ====
section
/-! DEFINITION. Commits (R161, Table 05-14): the commit window, and the commit point with everything it makes visible: faces
(R161, R185, R187), rows (R92), counters (R178, R202, R216, R257), logs and records (R69, R190, R197, R204, R240). -/

namespace Sys2Proof.Machine

/-! ### Faces (R161, R185, R187, R264) -/

/-- The scale-table entry of a tensor that has none yet: both faces as the command found the committed one. -/
def Hall.scaleEnt (H : Hall) (d : TDesc) (u : Use) : ScaleEnt :=
  (H.scale? d).getD ⟨u.coarse, u.coarse, u.aff, u.aff, [], u.face, false⟩

/-- A history of at most n entries, oldest first. -/
def pushHist (n : Nat) (l : List Int) : Option Int → List Int
  | none => l
  | some x => (l ++ [x]).drop (l.length + 1 - n)

def Hall.putScale (H : Hall) (d : TDesc) (e : ScaleEnt) : Hall := { H with scale := tabSet H.scale d.scaleKey e }

/-- HIST of a tensor's policy. -/
def histLen (p : Option Plan) (t : Nat) : Nat := ((p.bind fun x => x.policyOf t).map TPolicy.hist).getD 64

/-- The generation advances of every binding whose committed content a flip changes: the one that the descriptor names, and any
other with the same pair of faces, whatever tensor number wrote it (R78). -/
def Hall.advancePair (H : Hall) (d : TDesc) (scope : Option Nat) : Hall :=
  (H.gens.filter fun g => (g.tensor == d.tensor && g.job == scope) || g.d.pair == d.pair).foldl
    (fun H g => H.advanceGen g.tensor g.job) H

/-- A staged face becomes the committed one. A command that clears the history (R185, R244) leaves it empty: its own maximum, which
R187 would push at the same commit, goes with it (log 113). -/
def Hall.flip (H : Hall) (p : Option Plan) (st : Staged) (u : Use) (top : Option Int) : Hall :=
  let e := H.scaleEnt st.d u
  let e := if st.face = 0 then { e with c0 := st.coarse, a0 := st.aff } else { e with c1 := st.coarse, a1 := st.aff }
  let e := { e with face := st.face, written := true,
                    hist := if st.clears then [] else pushHist (histLen p st.d.tensor) e.hist top }
  let H := H.putScale st.d e
  let rest := H.faces1.filter fun x => x != st.d.pair
  let gone := st.d.faceSpans (1 - st.face) ++ st.d.faceSpans st.face
  let H := { H with
    faces1 := if st.face = 1 then rest ++ [st.d.pair] else rest,
    poison := H.poison.filter fun g => !gone.any fun sp => sp.overlaps (32 * g, 32) }
  H.advancePair st.d u.scope

def State.flipAll (s : State) (q : Page) (c : Cmd) : State :=
  c.att.staged.foldl (fun s st => match c.att.useOfStaged st with
    | none => s
    | some u =>
      let top := (c.att.hist.find? fun x => x.1 == st.hall && x.2.1 == st.d.tensor).map fun x => x.2.2
      s.modHall st.hall fun H => H.flip (s.plan? q) st u top) s

/-! ### Undercroft rows (R92) -/

/-- A twin takes its row's place; the old physical row returns to the pool. -/
def Hall.takeTwin (H : Hall) (job : Nat) (t : Twin) : Hall :=
  let J := H.job job
  let old := (J.rowMap.find? (·.1 == t.lrow)).map (·.2)
  let out := fun (l : List Nat) => l.filter fun p => some p != old
  let unc := match old with
    | some p => tabSet H.unc p URow.free
    | none => H.unc
  ({ H with unc := tabSet unc t.phys t.row, taken := out H.taken ++ [t.phys], poisonRows := out H.poisonRows }).putJob job
    { J with rowMap := tabSet J.rowMap t.lrow t.phys }

/-- A released row stands free. -/
def Hall.freeRow (H : Hall) (job l : Nat) : Hall :=
  match H.phys? job l with
  | some p => { H.putRow p URow.free with poisonRows := H.poisonRows.filter (· != p) }
  | none => H

/-- The commands of a job that were dispatched before a commit go on seeing the rows that it replaces (R161). -/
def State.keepRows (s : State) (q : Page) (c : Cmd) : State :=
  let rows := c.att.twins.map (fun t => (t.hall, t.lrow)) ++ c.att.freed
  let old := rows.eraseDups.filterMap fun r => ((s.hall r.1).phys? (pageJob q) r.2).map fun p =>
    (⟨r.1, r.2, (s.hall r.1).row p, (s.hall r.1).poisonRows.contains p⟩ : OldRow)
  s.modJob q fun j => { j with cmds := j.cmds.map fun x =>
    if x.dispatched && x.slot != c.slot then
      { x with att := { x.att with oldRows := x.att.oldRows ++ old.filter fun r => (x.att.oldRow? r.hall r.lrow).isNone } }
    else x }

def State.commitRows (s : State) (q : Page) (c : Cmd) : State :=
  let s := s.keepRows q c
  let s := c.att.twins.foldl (fun s t => s.modHall t.hall fun H => H.takeTwin (pageJob q) t) s
  c.att.freed.foldl (fun s r => s.modHall r.1 fun H => H.freeRow (pageJob q) r.2) s

/-! ### Counters (R178, R202, R216, R257, R244) -/

def sumAt (l : List (Nat × Nat)) (h : Nat) : Nat := ((l.filter (·.1 == h)).map (·.2)).sum

/-- Generator counters, rounds, the step counter and a restored state block, of one hall. -/
def Hall.advance (H : Hall) (job : Nat) (a : Attempt) (h : Nat) (uses : List (Bool × Nat)) (stepped : Bool) : Hall :=
  let riser := (a.riserDraw.filter (·.1 == h)).foldl (fun t d =>
    tabSet t d.2.1 (tabGet 0 t d.2.1 + BitVec.ofNat 64 d.2.2)) H.riser
  let samp := (a.sampDraw.filter (·.1 == h)).foldl (fun t d =>
    let k := 32 * job + d.2.1
    tabSet t k ((tabGet 0 t k + d.2.2) % 2 ^ 60)) H.sampler
  let J := H.job job
  let bump := fun (tree : Bool) (t : Tab Nat) => (uses.filter (·.1 == tree)).foldl (fun t k =>
    tabSet t k.2 ((tabGet 0 t k.2 + 1) % 2 ^ 32)) t
  let H := { H with riser := riser, sampler := samp, step := if stepped then H.step + 1 else H.step,
                    rsrElems := (H.rsrElems + sumAt a.rsrElems h) % 2 ^ 64 }
  let H := H.putJob job { J with rndK := bump false J.rndK, rndT := bump true J.rndT }
  (a.stateBlk.filter (·.1 == h)).foldl (fun (H : Hall) b =>
    { H with step := b.2.1, riser := b.2.2.zipIdx.foldl (fun t x => tabSet t x.2 x.1) H.riser }) H

/-- Rounds that are complete leave the ledgers, with the Mezzanine transfers of the command; what was received stays as outcomes
for four rounds (R217), and what was sent is remembered until it is acknowledged (R165). -/
def HJob.release (j : HJob) (seq : Nat) : HJob :=
  let past_ := fun (id : XferId) => decide (id.kind ≤ kDOWN) && decide (id.round < j.counter id.kind id.key)
  let done := fun (id : XferId) => past_ id || mezzOf seq id
  let ended := (j.rx.filter fun e => past_ e.id).map fun e => (e.id, e.st == .full)
  { j with
    tx := j.tx.filter fun t => !done t.id,
    rx := j.rx.filter fun e => !done e.id,
    unacked := j.unacked ++ (j.tx.filter fun t => done t.id && !t.acked).map TxEnt.id,
    badTree := j.badTree.filter fun e => decide (tabGet 0 j.rndT e.1 ≤ e.2.1),
    proposed := j.proposed.filter fun id => !past_ id,
    past := (j.past ++ ended).filter fun e => decide (j.counter e.1.kind e.1.key ≤ e.1.round + 4) }

/-- The carry buffers take what the command staged (R234). -/
def HJob.carryOn (j : HJob) (a : Attempt) (h : Nat) : HJob :=
  let new := (a.carryNew.filter (·.1 == h)).map fun c => Carry.mk c.2.1 c.2.2.shard c.2.2
  let left := j.carry.filter fun c => !a.carryUse.contains (h, c.tree, c.shard)
    && !new.any fun n => n.tree == c.tree && n.shard == c.shard
  { j with carry := left ++ new }

def State.commitCounters (s : State) (q : Page) (c : Cmd) (stepped : Bool) : State :=
  (s.pageHalls q).foldl (fun s h =>
    let uses := s.roundUses q c h
    s.modHall h fun H =>
      let H := H.advance (pageJob q) c.att h uses stepped
      H.putJob (pageJob q) (((H.job (pageJob q)).release c.seq).carryOn c.att h)) s

/-! ### Tile statuses, statistics and norms (R69, R189, R190) -/

/-- Rolled-up status of a command's tiles in one hall, or in all. -/
def Attempt.statusAt (a : Attempt) (h : Nat) : DWord := rollup ((sortTiles (a.tiles.filter (·.hall == h))).map Tile.word)
def Attempt.status (a : Attempt) : DWord := rollup ((sortTiles a.tiles).map Tile.word)

/-- Put an item into a list in ascending order of its element, behind those of the same element. -/
def insertEl {α : Type} (x : Nat × α) : List (Nat × α) → List (Nat × α)
  | [] => [x]
  | y :: r => if x.1 < y.1 then x :: y :: r else y :: insertEl x r

def inElOrder {α : Type} (l : List (Nat × α)) : List α := (l.foldl (fun r x => insertEl x r) []).map (·.2)

/-- The sums of an entry take a command's squares one by one, in element order (R182, R189). -/
def Stat.addSums (x : Stat) (sq : List Nat) (au : List (Nat × Nat)) : Stat :=
  { x with
    sqerr := sq.foldl (b64.add .rne) x.sqerr, nconv := satAdd 0xFFFFFFFF x.nconv sq.length,
    audited := satAdd 0xFFFFFFFF x.audited au.length,
    auditErr := au.foldl (fun z e => let d := b64.sub .rne e.1 e.2; b64.add .rne z (b64.mul .rne d d)) x.auditErr,
    auditSq := au.foldl (fun z e => b64.add .rne z (b64.mul .rne e.2 e.2)) x.auditSq }

/-- A layer's entry takes what one operation adds (R190). -/
def Norm.merge (a b : Norm) : Norm :=
  ⟨a.layer, satAdd 0xFFFFFFFF a.elems b.elems, satAdd 0xFFFFFFFF a.held b.held, b64.add .rne a.wsq b.wsq,
   b64.add .rne a.gsq b.gsq, b64.add .rne a.usq b.usq⟩

def putNorm (x : Norm) : List Norm → List Norm
  | [] => [x]
  | y :: r => if x.layer < y.layer then x :: y :: r else if x.layer = y.layer then y.merge x :: r else y :: putNorm x r

/-- What a step accumulates in a hall. Its norms are summed in record order (R190). -/
def Hall.accumulate (H : Hall) (a : Attempt) (h : Nat) : Hall :=
  let mine := fun (t : Nat) => inElOrder ((a.sqs.filter fun e => e.1 == h && e.2.1 == t).map (·.2.2))
  let auds := fun (t : Nat) => inElOrder ((a.auds.filter fun e => e.1 == h && e.2.1 == t).map (·.2.2))
  { H with
    stats := (((a.stats.filter (·.1 == h)).map (·.2)).foldl (fun l x => putStat x l) H.stats).map fun x =>
      x.addSums (mine x.tensor) (auds x.tensor),
    norms := (inElOrder ((a.norms.filter (·.1 == h)).map (·.2))).foldl (fun l x => putNorm x l) H.norms,
    normSum := (inElOrder ((a.normOps.filter (·.1 == h)).map (·.2))).foldl (b64.add .rne) H.normSum,
    nfAcc := satAdd 0xFFFFFFFF H.nfAcc (sumAt a.nf h),
    lossAcc := if a.lossNf.contains h then 1 else H.lossAcc,
    absentAcc := satAdd 0xFFFFFFFF H.absentAcc (((a.absents.filter (·.1 == h)).map fun x => x.2.1).sum),
    carriedAcc := satAdd 0xFFFFFFFF H.carriedAcc (((a.absents.filter (·.1 == h)).map fun x => x.2.2).sum),
    perRowF := H.perRowF || a.perRow.contains h,
    holdValid := (H.holdValid ++ (a.holdSegs.filter (·.1 == h)).map (·.2)).eraseDups }

/-- Tile statuses of a hall: its log entry where any event occurred, and the step's roll-up. DESIGN CHOICE: R267 speaks of the
command's rolled-up word and R69 of each hall's; a hall writes its entry by the roll-up of its own tiles, so that one without events
writes none (log 134). -/
def Hall.commitTiles (H : Hall) (now : DWord) (job pass : Nat) (w : DWord) : Hall :=
  let H := if twKind w = 7 then H else H.xlog now ⟨1, job, 0, pass, w.toNat⟩
  { H with stepTiles := rollTwo H.stepTiles w }

/-! ### Collective records (Table 07-14) -/

def Coll.bytes (c : Coll) (job : Nat) (step : DWord) : List Byte :=
  padTo 64 (natLE c.key 2 ++ natLE c.opcode 1 ++ natLE job 1 ++ natLE c.round 4 ++ natLE c.sent.toNat 8
    ++ natLE c.recv.toNat 8 ++ natLE c.absent 4 ++ natLE c.carried 4 ++ natLE c.late 4 ++ natLE c.stray 4
    ++ natLE c.unanswered 4 ++ natLE c.absList.length 2 ++ natLE 0 2 ++ natLE step.toNat 8 ++ natLE 0 8
    ++ c.absList.flatMap fun e => natLE e.1 4 ++ natLE e.2 4)

/-- Write 64-byte units at the head of the collective log. -/
def Hall.clogUnits (H : Hall) (b : List Byte) : Hall :=
  (List.range (b.length / 64)).foldl (fun (H : Hall) i =>
    { H with hbm := memWrites H.hbm (H.clogBase + 64 * (H.clogHead % (1024 * H.clogSize))) (bytesAt b (64 * i) 64),
             clogHead := (H.clogHead + 1) % 2 ^ 32 }) H

/-- One record: where it would cross the ring's end, pad records fill the rest and it starts over (R320). -/
def Hall.clogRecord (H : Hall) (b : List Byte) : Hall :=
  let n := 1024 * H.clogSize
  let left := n - H.clogHead % n
  if n = 0 then H
  else H.clogUnits (if left < b.length / 64 then List.replicate (64 * left) 0 ++ b else b)

/-- The records of a command in one hall; the first takes the ledger's counts of strays and LATE receipts. -/
def Hall.collRecords (H : Hall) (job : Nat) (cs : List Coll) : Hall :=
  match cs with
  | [] => H
  | c :: r =>
    let J := H.job job
    let H := ({ c with stray := c.stray + J.stray, late := c.late + J.late } :: r).foldl
      (fun (H : Hall) x => H.clogRecord (x.bytes job H.step)) H
    H.putJob job { H.job job with stray := 0, late := 0 }

/-! ### The step health record (R204, Tables 06-5, 06-6, 06-12) -/

def Stat.bytes (x : Stat) : List Byte :=
  natLE x.tensor 2 ++ natLE (tc 8 x.coarse) 1 ++ natLE 0 1 ++ natLE x.written 4 ++ natLE x.zeros 4 ++ natLE x.underflow 4
    ++ natLE x.sats 4 ++ natLE x.nonfinite 4 ++ natLE x.degenerate 4 ++ natLE x.invalidT 4 ++ natLE x.sqerr 8
    ++ natLE x.nconv 4 ++ natLE x.packed 4 ++ natLE x.raw 4 ++ natLE x.audited 4
    ++ natLE (if x.audited = 0 then 0 else b64.div .rne x.auditErr x.auditSq) 8

/-- ELEMS: the elements updated, or held on a skipped step. -/
def Norm.bytes (applied : Bool) (x : Norm) : List Byte :=
  natLE x.layer 4 ++ natLE (if applied then x.elems else x.held) 4 ++ natLE x.wsq 8 ++ natLE x.gsq 8 ++ natLE x.usq 8

/-- What the record takes from outside the hall. -/
structure StepCtx where
  job     : Nat
  plan    : Plan
  hall    : Nat
  lh      : Nat
  now     : DWord
  v       : Verdict
  perRow  : Bool
  backoff : Bool
deriving DecidableEq, Repr

/-- Entries that fit a slot behind the 128 bytes of the record: statistics first, then norms. -/
def Hall.slotFit (H : Hall) : Nat × Nat :=
  let room := 64 * H.shrSlot - 128
  let n := min H.stats.length (room / 64)
  (n, min H.norms.length ((room - 64 * n) / 32))

def Hall.verdictBits (H : Hall) (x : StepCtx) : Nat :=
  let p := x.v.pkt
  let f := H.slotFit
  b2n x.v.apply + 2 * b2n (p.nf != 0) + 4 * b2n (p.lossNf != 0) + 8 * b2n p.normAbsent
    + 16 * b2n (!(b64.dec p.sumsq).isFin) + 32 * b2n x.v.scalarBad + 64 * b2n ((b32.dec x.v.k).lt (b32.dec f32one))
    + 128 * b2n (H.perRowF || x.perRow || x.plan.test) + 256 * b2n x.backoff + 512 * b2n x.plan.noncanon + 1024 * b2n x.plan.test
    + 2048 * b2n (f.1 != H.stats.length || f.2 != H.norms.length)

def Hall.stepRecord (H : Hall) (x : StepCtx) : List Byte :=
  let p := x.v.pkt
  let f := H.slotFit
  let el := min (x.now.toNat - tabGet x.now.toNat H.stepFrom x.job) 0xFFFFFFFF
  natLE H.step.toNat 8 ++ natLE x.plan.planId.toNat 8 ++ natLE (H.verdictBits x) 4 ++ natLE p.nf 4 ++ natLE p.sumsq 8
    ++ natLE x.v.k 4 ++ natLE p.lossNf 4 ++ natLE H.stepTiles.toNat 8 ++ natLE p.absent 4 ++ natLE p.carried 4
    ++ natLE (min (tabGet 0 H.stepReruns x.job) 0xFFFFFFFF) 4 ++ natLE (min H.stepStrikes 0xFFFFFFFF) 4 ++ natLE f.1 2 ++ natLE f.2 2
    ++ natLE (x.hall + 8 * x.lh) 1 ++ natLE 0 3 ++ natLE H.tableStat.toNat 4 ++ natLE el 4 ++ natLE 0 48
    ++ ((H.stats.take f.1).flatMap Stat.bytes) ++ (H.norms.take f.2).flatMap (Norm.bytes x.v.apply)

/-- Write the record and begin the next step's accumulation; every hold segment is cleared (R193). -/
def Hall.endStep (H : Hall) (x : StepCtx) : Hall :=
  let H := if H.shrSlot = 0 then H else
    { H with hbm := memWrites H.hbm (H.shrBase + 64 * H.shrSlot * (H.shrHead % 256)) (H.stepRecord x),
             shrHead := (H.shrHead + 1) % 2 ^ 32 }
  { H with holdValid := [], stats := [], norms := [], normSum := 0, nfAcc := 0, lossAcc := 0, carriedAcc := 0,
           absentAcc := 0, stepTiles := 0x700, stepStrikes := 0, perRowF := false,
           stepReruns := H.stepReruns.filter (·.1 != x.job), stepFrom := H.stepFrom.filter (·.1 != x.job) }

/-- A skipped step clears the managed tensors' histories and backs off the gradients' coarse scales (R197). -/
def Hall.skipScales (H : Hall) (p : Plan) (backoff : Bool) : Hall :=
  { H with scale := H.scale.map fun e =>
    if p.managed e.1 then
      (let k := ((p.policyOf e.1).map TPolicy.backoff).getD 0
       let up := fun (c : Int) => min 127 (c + k)
       let grad := backoff && (p.fmtOf e.1).role == 2
       (e.1, { e.2 with hist := [],
                        c0 := if grad && e.2.face == 0 then up e.2.c0 else e.2.c0,
                        c1 := if grad && e.2.face == 1 then up e.2.c1 else e.2.c1 }))
    else e }

def Attempt.verdictAt (a : Attempt) (h : Nat) : Verdict :=
  match a.verdict.find? (·.1 == h) with
  | some v => v.2
  | none => ((a.verdict.map (·.2)).head?).getD ⟨true, f32one, NormPkt.zero, false⟩

/-- The end of a step in every hall of the partition. -/
def State.endSteps (s : State) (q : Page) (c : Cmd) (p : Plan) (skip : Bool) : State :=
  (s.pageHalls q).foldl (fun s h =>
    let v := c.att.verdictAt h
    let back := skip && (v.pkt.nf != 0 || v.pkt.lossNf != 0)
    s.modHall h fun H =>
      let H := H.endStep ⟨pageJob q, p, h, h - (s.part (pageFn q)).base, s.time, v, c.att.perRow.contains h, back⟩
      if skip then H.skipScales p back else H) s

/-! ### The commit point -/

/-- What one hall records of a command: step accumulation, tiles, collective records, the counts of commits. A commit of the
partition counts in each of its halls (log 106). -/
def State.commitHall (s : State) (q : Page) (c : Cmd) (h : Nat) : State :=
  let pass := if c.opcode = opRUN then c.desc.pass else 0xFFFF
  s.modHall h fun H =>
    let H := (H.accumulate c.att h).commitTiles s.time (pageJob q) pass (c.att.statusAt h)
    let H := H.collRecords (pageJob q) (c.att.colls.filter (·.hall == h))
    { H with commits := if c.opcode = opRUN then H.commits + 1 else H.commits, allCommits := H.allCommits + 1 }

/-- Signals apply, semaphores and claims are released, the queue's count advances (steps 4 and 5). -/
def State.finishCmd (s : State) (q : Page) (c : Cmd) (post : Bool) : State :=
  let v := pageFn q
  let s := s.modPart v fun p => ((p.signal c.desc).releaseAll (q, c.slot)).dropDigest (pageJob q) (s.job q).qseq
  let s := { s with host := c.att.hostOut.foldl (fun (m : Mem) (x : Nat × List Byte) => memWrites m x.1 x.2) s.host }
  let s := s.modJob q fun j => { j with commits := (j.commits + 1) % 2 ^ 64 }
  (if post then s.postRecord q c 0 0xFFFF true c.att.status
   else s.modJob q fun j => { j with cmds := j.cmds.filter (·.slot != c.slot) }).rehold v

/-- Everything that the commit point makes visible, but for the end of the command itself. -/
def State.commitEffects (s : State) (q : Page) (c : Cmd) : State × Cmd :=
  let (s, c) := s.unspecify q c
  let upd := s.isUpdate q c
  let skip := s.skips q c
  let s := if skip then s else s.flipAll q c
  let s := s.commitRows q c
  let s := (s.pageHalls q).foldl (fun s h => s.commitHall q c h) s
  let s := match upd, s.plan? q with
    | true, some p => s.endSteps q c p skip
    | _, _ => s
  (s.commitCounters q c (upd && !skip), c)

def State.commitPoint (s : State) (q : Page) (c : Cmd) : State :=
  let (s, c) := s.commitEffects q c
  (s.finishCmd q c true).fetchAll q

/-- A commit that posts no completion (R289). -/
def State.commitQuiet (s : State) (q : Page) (c : Cmd) : State :=
  let (s, c) := s.commitEffects q c
  s.finishCmd q c false

/-! ### The rows of COMMIT -/

/-- Every operation of the command has completed, in every hall; a plan load commits at its bank swap, and a FENCE with PEER
once every transfer is acknowledged (R165). -/
def State.workDone (s : State) (q : Page) (c : Cmd) : Bool :=
  if c.opcode = opFENCE then !c.desc.peer || s.peersDone q
  else if c.noWork then true
  else if c.opcode = opRUN then (match s.plan? q with
    | some p => (List.range p.phalls).all fun lh =>
        (List.range (p.passOps lh c.desc.pass).length).all fun k => (c.att.doneAt (s.phys q lh)).contains k
    | none => false)
  else !(c.opcode == opLOAD && c.desc.part == 3) && c.att.finished

/-- In a pair, the commit digest goes to the partner once and meets the partner's (R272, R273); a paused partner is waited
for (R287). -/
def State.shareDigest (s : State) (q : Page) (c : Cmd) : State :=
  if (s.part (pageFn q)).scState ≠ 1 ∨ (s.part (pageFn q)).paused then s
  else
    let s := if c.att.digestOut then s else
      (let d := s.commitDigest q c
       (s.modAtt q c.slot fun a => { a with digestOut := true, ownDigest := d }).sendDigest (pageFn q) (pageJob q)
         { DBody.of 1 with qseq := (s.job q).qseq, digest := d, evidence := c.att.evidence, attempt := c.kills })
    s.compareDigest q

/-- Both legs agree, or there is no pair. -/
def State.agreed (s : State) (q : Page) (c : Cmd) : Bool := (s.part (pageFn q)).scState != 1 || c.att.digestOk

/-- Steps 1 to 3: what the fill reads is checked, staged faces are derived and filled, a completion slot is reserved, and the
window opens. -/
def State.openWindow (s : State) (q : Page) : State :=
  match (s.job q).cmds with
  | [] => s
  | c :: _ =>
    if c.phase = .running ∧ s.workDone q c then
      match s.fillErr c with
      | some (e, h, a) =>
        let s := if e = 0x0903 then
          s.log h ⟨0x11, pageJob q, 0, if c.opcode = opRUN then c.desc.pass else 0xFFFF, a⟩ else s
        s.failCmd q c.slot e 0xFFFF
      | none =>
        let s := s.deriveAll q c
        if (s.job q).cqFull then s
        else match s.cmd? q c.slot with
          | none => s
          | some c1 =>
            let s := s.shareDigest q c1
            match s.cmd? q c.slot with
            | none => s
            | some c2 => if c2.phase = .running ∧ s.agreed q c2 then
                s.modCmd q c.slot fun x => { x with phase := .window } else s
    else s

/-- Steps 4 and 5. -/
def State.commitOldest (s : State) (q : Page) : State :=
  match (s.job q).cmds with
  | [] => s
  | c :: _ => if c.inWindow then s.commitPoint q c else s

def execCommit (q : Page) (st : CommitStep) (s : State) : Out :=
  whenRunning s fun s => match st with
    | .window => s.openWindow q
    | .point => s.commitOldest q

end Sys2Proof.Machine
end

