-- ==== Sys2Proof/Machine/PlanLoad.lean ====
section
/-! DEFINITION. Loading a plan (R136 to R141, R251, Table 04-13) and the exchange between the legs of a pair (R135, R279). -/

namespace Sys2Proof.Machine

/-! ### Steps 1 to 4 -/

/-- Regions of a hall that a gradient hold must not meet (R319): the exception log is none of them. -/
def Hall.holdAreas (H : Hall) (js : List Nat) : List Span :=
  js.map (fun j => (H.job j).share)
    ++ [(H.shrBase, 256 * 64 * H.shrSlot), (H.clogBase, 65536 * H.clogSize),
        (H.mezzBase, if H.mezzOn then 131072 * H.mezzSize else 0)]

/-- Bays of a hall that hold a tensor, by the index that a job's records would name (R250). -/
def Hall.heldBays (H : Hall) (js : List Nat) : List KeptBay :=
  H.gals.flatMap fun g => (g.2.bays.filter fun b => b.2.tensor != 0xFFFF).flatMap fun b =>
    (if b.1 < H.baySplit then [b.1]
     else (js.filter fun j => (H.job j).bayBase ≤ b.1 ∧ b.1 < (H.job j).bayBase + (H.job j).bayCount).map fun j => H.baySplit + (b.1 - (H.job j).bayBase)).map fun n =>
      ⟨b.2.tensor, g.1, n, b.2.chunks⟩

/-- What the checks of a plan need of the device and the partition. -/
def State.planCtx (s : State) (v : Fn) : PlanCtx :=
  let P := s.part v
  let hs := P.halls
  let js := s.residents v
  { slots := s.slots, count := P.count, hallsOk := hs.all s.hallOk, chainOk := s.chainValid, chain := s.chainAddr.toNat,
    base := P.base, fenced := hs.map fun h => (List.range 64).filter fun g => ((s.hall h).gal g).fenced,
    jobs := hs.map fun h => js.map fun j => (((s.hall h).job j).hbmSize, ((s.hall h).job j).rows),
    holdBase := hs.map fun h => (s.hall h).holdBase, areas := hs.map fun h => (s.hall h).holdAreas js, old := P.plan,
    bays := hs.map fun h => (s.hall h).heldBays js }

/-- The 16 bytes of a SCISSOR record (R135). -/
def ScissorRec.bytes (x : ScissorRec) : List Byte :=
  natLE x.form 1 ++ natLE x.leg 1 ++ natLE x.partner 3 ++ natLE 0 1 ++ natLE x.primHall 2 ++ natLE x.primAddr 4 ++ natLE 0 4

def State.allDisabled (s : State) (v : Fn) : Bool := (vfPages v).all fun q => !(s.job q).enabled

/-- The step counters of a partition, hall by hall. -/
def State.stepsOf (s : State) (v : Fn) : List DWord := (s.part v).halls.map fun h => (s.hall h).step

/-- Every Riser lane counter of a partition, hall by hall. -/
def State.riserOf (s : State) (v : Fn) : List DWord :=
  (s.part v).halls.flatMap fun h => (List.range 32).map fun l => tabGet 0 (s.hall h).riser l

/-- Porter's side of an exchange: what a leg with a plan sends its partner (R135, R279). -/
def State.sendExchange (s : State) (v : Fn) (p : Plan) : State :=
  match p.scissor with
  | none => s
  | some x =>
    { s with exchOut := s.exchOut ++ [⟨v, p.pairDigest, x.bytes, s.stepsOf v, s.riserOf v,
        (s.part v).scState, !s.allDisabled v⟩] }

/-- The work of a plan's LOAD: the image is read and checked, and stands by; a leg's is offered to the partner. The loads of a
partition come one by one, and after a key command that is running (R307). -/
def State.planRead (s : State) (q : Page) (slot : Nat) : State :=
  let v := pageFn q
  match s.cmd? q slot with
  | none => s
  | some c =>
    if c.phase = .running ∧ c.opcode = opLOAD ∧ c.desc.part = 3 ∧ !c.noWork ∧ (s.part v).loading.isNone ∧ s.keyBurn.isNone then
      let a := c.desc.b 40 8
      match s.addrPoison q a c.desc.count with
      | some g => s.failWork q c (poisonErr g)
      | none =>
        let u := s.unsure c
        let s := { s with free := u.free }
        match readPlan (s.planCtx v) (u.readAt q a c.desc.count) with
        | .error e => s.failCmd q slot e 0xFFFF
        | .ok p =>
          let free := p.scissor.isNone || (s.part v).scState == 2
          let t := s.modPart v fun P => { P with loading := some ⟨q, slot, p, free, false⟩ }
          if free then t else t.sendExchange v p
    else s

def execPlanLoad (q : Page) (st : CmdStep) (s : State) : Out := cmdRow q opLOAD (fun d => setBody d 0 3) (fun slot s => s.planRead q slot) st s

/-! ### Steps 6 to 8 -/

/-- Every Undercroft row of a hall's jobs is free (R138). -/
def Hall.rowsFree (H : Hall) : Bool := H.taken.all fun p => (H.row p).tag.state == 0

/-- Table 11-10. -/
def tableStatOf (p : Plan) : Word :=
  BitVec.ofNat 32 (b2n p.canon.1 + 2 * b2n p.canon.2.1 + 4 * b2n p.canon.2.2 + 2 ^ 8 * p.funcs.length + 2 ^ 16 * p.funcNc)

/-- The bays of a gallery at a swap. -/
def Gal.keepBays (G : Gal) (keep : Nat → Bool) : Gal :=
  { G with
    bays := G.bays.map fun e => (e.1, if keep e.2.tensor then e.2 else { e.2 with valid := false, tensor := 0xFFFF }),
    escape := G.escape.filter fun x => match G.bays.find? fun e => e.1 == x.1 with
      | some e => keep e.2.tensor
      | none => false }

/-- ROLE, STAGE and R111's replacement of one gallery. -/
def Gal.planRole (G : Gal) (r : HallRec) (g : Nat) (repl : List (Nat × Nat)) : Gal :=
  let own := fun (i : Nat) => r.gals.getD i 0
  match repl.find? fun e => e.2 == g with
  | some e =>
    let role := fld (own e.1) 0 2
    { G with role := role, stage := if role = 1 then fld (own e.1) 2 5 else 0, serves := some e.1 }
  | none =>
    if repl.any fun e => e.1 == g then { G with role := 0, stage := 0, serves := none }
    else { G with role := fld (own g) 0 2, stage := if fld (own g) 0 2 = 1 then fld (own g) 2 5 else 0, serves := none }

/-- One hall swaps its banks (step 7). -/
def Hall.swapPlan (H : Hall) (old : Option Plan) (p : Plan) (lh : Nat) : Hall :=
  let r := p.struct_.getD lh ⟨lh, 0, 0, []⟩
  let repl := (replaceFenced r.gals ((List.range 64).filter fun g => (H.gal g).fenced)).getD []
  let keep := sameTensor old p
  { H with
    tableStat := tableStatOf p,
    gals := (List.range 64).map fun g => (g, ((H.gal g).keepBays keep).planRole r g repl),
    gens := H.gens.filter fun g => keep g.tensor,
    holdSegs := holdTop p,
    jobs := (List.range 16).map fun j => (j, { H.job j with ledger := p.ledgers.getD lh 0 }) }

/-- The Scissor state under a new plan: a leg whose partner stands alone is a new leg, which joins it by REJOIN (R279; log 107). -/
def Part.scissorOf (P : Part) (p : Plan) (alone : Bool) : Part :=
  let P := { P with digOut := [], routeBad := [], relayAsks := [], relayDue := [], paused := false, digests := [] }
  match p.scissor with
  | none => { P with scState := 0, scLeg := 0, newLeg := false }
  | some x => { P with scState := if P.scState = 2 ∨ alone then 2 else 1, scLeg := x.leg, newLeg := alone || P.newLeg }

def State.swapBanks (s : State) (v : Fn) (p : Plan) (alone : Bool) : State :=
  let P := s.part v
  let p := { p with kept := p.keeps (s.planCtx v) }
  let t := P.halls.foldl (fun t h => t.modHall h fun H => H.swapPlan P.plan p (h - P.base)) s
  let t := t.modPart v fun P => { P with plan := some p, loading := none }.scissorOf p alone
  P.halls.foldl (fun t h => (List.range 5).foldl (fun t i => State.regrant s t h i) t) t

/-- The load's turn has come: the exchange is over and no other command of the partition runs. -/
def State.swapReady (s : State) (v : Fn) (l : Loading) : Bool :=
  l.paired && (s.running v).all (fun x => x.1 == l.page && x.2.slot == l.slot) && !(s.job l.page).cqFull

/-- The plan that a load swaps in: the one that stands by, or, where BAR2 writes met its image, what an image with free bytes in
their place holds (R164). -/
def State.plannedBy (s : State) (v : Fn) (l : Loading) (c : Cmd) : State × Except Nat Plan :=
  if c.att.hits.isEmpty then (s, .ok l.plan)
  else
    let u := s.unsure c
    ({ s with free := u.free }, readPlan (s.planCtx v) (u.readAt l.page (c.desc.b 40 8) c.desc.count))

def State.planSwap (s : State) (v : Fn) : State :=
  match (s.part v).loading with
  | none => s
  | some l => match s.cmd? l.page l.slot with
    | none => s
    | some c =>
      if s.swapReady v l then
        if (s.part v).halls.all fun h => (s.hall h).rowsFree && (s.hall h).holdValid.isEmpty then
          let r := s.plannedBy v l c
          match r.2 with
          | .ok p => (r.1.swapBanks v p l.alone).commitPoint l.page c
          | .error e => r.1.failCmd l.page l.slot e 0xFFFF
        else s.failCmd l.page l.slot 0x0419 0xFFFF
      else s

def execPlanBankSwap (v : Fn) (s : State) : Out := whenRunning s (·.planSwap v)

/-! ### The exchange with the partner (R135, R279) -/

/-- Both legs' SCISSOR records agree. -/
def scissorAgree (x y : ScissorRec) (base chain : Nat) : Bool :=
  x.form == y.form && x.primHall == y.primHall && x.primAddr == y.primAddr && x.leg != y.leg
    && (if x.form = 0 then x.primHall == (if x.leg = 0 then base else (base + 4) % 8)
        else y.partner == chain && (x.leg == 0 || x.partner == x.primAddr))

def State.pairMatch (s : State) (v : Fn) (p : Plan) (digest record : List Byte) : Bool :=
  match p.scissor with
  | none => false
  | some x => p.pairDigest == digest && scissorAgree x (parseScissor record) (s.part v).base s.chainAddr.toNat

/-- Step counters and Riser lane counters equal the partner's, hall by hall. -/
def State.countersMatch (s : State) (v : Fn) (steps riser : List DWord) : Bool :=
  steps == s.stepsOf v && riser == s.riserOf v

/-- The survivor's sampler counters leave on channel 14 over a digest route, hall by hall (R279). They are a DIGEST transfer of
no SUB: no rule gives their layout, and the new leg takes them as a whole, by the exchange's row (log 107). -/
def State.sendSamplers (s : State) (v : Fn) : State :=
  match s.nextRoute v with
  | none => s
  | some r => (s.part v).halls.foldl (fun s h =>
      s.enqueue (mkFrames (s.rank h) r.2.1 r.2.2 14 (digestHdr 0 0)
        (Lead.none.bytes ++ (DBody.of 0).bytes
          ++ (List.range 512).flatMap fun k => natLE (tabGet 0 (s.hall h).sampler k) 8))) (s.flipRoute v)

/-- The new leg takes the survivor's sampler counters: 512 for each hall, by job and lane. -/
def State.takeSamplers (s : State) (v : Fn) (l : List DWord) : State :=
  (s.part v).halls.zipIdx.foldl (fun s (h, i) => s.modHall h fun H =>
    { H with sampler := (List.range 512).filterMap fun k =>
        let c := (l.getD (512 * i + k) 0).toNat
        if c = 0 then none else some (k, c) }) s

/-- The pair stands again. -/
def Part.pairUp (P : Part) : Part :=
  { P with scState := 1, paused := false, digests := [], rejoining := false, newLeg := false }

/-- The partner's side of a rejoin has come. With everything equal the survivor sends its sampler counters and pairs, and the
new leg offers its side again until those counters come, takes them, and pairs. Otherwise the rejoin is over, and the new leg's
CAUSE says so. -/
def State.rejoinEnd (s : State) (v : Fn) (p : Plan) (same : Bool) (samplers : List DWord) : State :=
  let new := (s.part v).newLeg
  if same && s.allDisabled v then
    (if !new then (s.sendSamplers v).modPart v Part.pairUp
     else if samplers.isEmpty then s.sendExchange v p
     else (s.takeSamplers v samplers).modPart v Part.pairUp)
  else s.modPart v fun P => { P with rejoining := false, scCause := if new then 3 else P.scCause }

/-- The partner's pairing digest and record arrive: in a plan load, and in a rejoin with its counters. A single leg answers one
that loads. -/
def State.exchange (s : State) (v : Fn) (digest record : List Byte) (steps riser : List DWord) (leg : LegWord) : State :=
  let P := s.part v
  match P.loading with
  | some l =>
    if l.paired then s
    else if s.pairMatch v l.plan digest record then
      s.modPart v fun P => { P with loading := some { l with paired := true, alone := leg.state == 2 } }
    else s.failCmd l.page l.slot 0x0418 0xFFFF
  | none => match P.plan with
    | none => s
    | some p =>
      if P.rejoining then s.rejoinEnd v p (s.pairMatch v p digest record && s.countersMatch v steps riser && !leg.enabled) leg.samplers
      else if P.scState = 2 ∧ leg.state ≠ 2 then s.sendExchange v p
      else s

def execPairingDigest (v : Fn) (digest record : List Byte) (steps riser : List DWord) (leg : LegWord) (s : State) : Out :=
  whenRunning s fun s => s.exchange v digest record steps riser leg

end Sys2Proof.Machine
end

