-- ==== Sys2Proof/Machine/Slices.lean ====
section
/-! DEFINITION. Slices and pre-emption (R252 to R256). -/

namespace Sys2Proof.Machine

/-- Protected commands of a queue: dispatched, and in a commit or collective window or ahead of one that is. -/
def protectedCmds (cs : List Cmd) : List Cmd :=
  (cs.foldr (fun c (r : List Cmd × Bool) =>
    let p := c.dispatched && (r.2 || c.inWindow || c.att.collective)
    (if p then c :: r.1 else r.1, p || r.2)) ([], false)).1

/-- A pre-emption kills every uncommitted command that is not protected; the kill does not count towards the limit of
R162. -/
def State.preempt (s : State) (q : Page) : State :=
  let keep := (protectedCmds (s.job q).cmds).map Cmd.slot
  ((s.job q).cmds.filter fun c => c.dispatched && !keep.contains c.slot).foldl (fun s c =>
    (s.killCmd q c.slot false).modJob q fun j => { j with preempts := satAdd 0xFFFF j.preempts 1 }) s

/-- The holder's slice ends: with another job ready it is pre-empted, else a new slice starts. A yielding job has no slice. -/
def State.sliceEnd (s : State) (v : Fn) : State :=
  let p := s.part v
  match p.holder with
  | none => s
  | some h =>
    let q := pageOf v h
    if (s.job q).slice = 0 ∨ p.sliceOver then s
    else if ((jobsAfter h).filter (· != h)).any fun j => s.ready (pageOf v j) then
      ((s.modPart v fun p => { p with
        sliceOver := true, overrunFrom := s.time.toNat, overran := !(protectedCmds (s.job q).cmds).isEmpty }).preempt q).rehold v
    else s.setHolder v h

def execSliceEnd (v : Fn) (s : State) : Out := whenRunning s (·.sliceEnd v)

/-- At t0 + OVERRUN − COMMIT: protected commands that have not opened their commit window are killed, and fail. -/
def State.watchdog (s : State) (v : Fn) : State :=
  let p := s.part v
  match p.holder with
  | none => s
  | some h =>
    let q := pageOf v h
    match (s.job q).cmds.filter fun c => c.dispatched && !c.inWindow with
    | [] => s
    | c :: r =>
      if p.sliceOver then
        let s := s.modJob q fun j => { j with watchdog := true }
        let s := r.foldl (fun s x => s.killCmd q x.slot false) s
        (s.countRerun q c).failCmd q c.slot 0x0904 0xFFFF
      else s

def execOverrunWatchdog (v : Fn) (s : State) : Out := whenRunning s (·.watchdog v)

/-- A commit window that outlasts COMMIT is a fault of the hall (R255, R268). -/
def State.windowOverrun (s : State) (q : Page) (hall : Nat) : State :=
  match (s.job q).cmds with
  | [] => s
  | c :: _ =>
    if c.inWindow ∧ (s.pageHalls q).contains hall ∧ s.hallOk hall then
      (s.log hall ⟨0x0B, pageJob q, s.unitOf hall, if c.opcode = opRUN then c.desc.pass else 0xFFFF, 0⟩).loseHall hall
    else s

def execCommitWindowOverrun (q : Page) (hall : Nat) (s : State) : Out := whenRunning s (·.windowOverrun q hall)

end Sys2Proof.Machine
end

