-- ==== Sys2Proof/Machine/Binding.lean ====
section
/-! DEFINITION. Partitions and jobs: binding and unbinding (R314 to R316), residency (R247), epochs (R221, R321), the
Mezzanine's enable (R241, R320) and the control of a Scissor leg (R278, R279). -/

namespace Sys2Proof.Machine

/-! ### Residency (R247) -/

/-- Regions that a job's share must not meet: other resident jobs' shares, hold, Mezzanine, step area and logs. -/
def Hall.shareFree (H : Hall) (others : List Nat) (x : Span) : Bool :=
  decide (x.top ≤ stackBytes) && !(H.areas.any x.meets) && !others.any fun k => x.meets (H.job k).share

/-- One hall admits a job. -/
def Hall.admits (H : Hall) (others : List Nat) (staging j : Nat) : Bool :=
  let J := H.job j
  H.shareFree others J.share && J.ledger ≤ J.hbmSize
    && ((others.map fun k => (H.job k).rows).sum + J.rows + ceilDiv staging 64 ≤ 1024)
    && H.baySplit ≤ J.bayBase && J.bayBase + J.bayCount ≤ 512 && !others.any fun k => Span.meets (J.bayBase, J.bayCount) ((H.job k).bayBase, (H.job k).bayCount)

/-- ROWS free physical rows of one bank, which ones being free (log 2). -/
def drawRows (free : List Nat) (n k : Nat) : List Nat :=
  let r := Config.freeNat k % free.length
  ((free.drop r) ++ free.take r).take n

/-- A job's rows in a hall, by logical row. -/
def State.drawMap (s : State) (h n k : Nat) : Tab Nat :=
  let banks := (List.range 64).map fun b => drawRows (s.freeRows h b) n (k + b)
  (List.range (64 * n)).map fun l => (l, (banks.getD (l % 64) []).getD (l / 64) (l % 64))

/-- What a job holds in a hall when it is not resident. -/
def HJob.vacate (j : HJob) : HJob :=
  { j with epoch := 0, rowMap := [], rndK := [], rndT := [], rx := [], tx := [], past := [], unacked := [], served := [], badTree := [],
           proposed := [], carry := [], stray := 0, late := 0 }

/-- The rows of a job return to the pool, and its job state goes. -/
def Hall.dropJob (H : Hall) (j : Nat) : Hall :=
  let mine : List Nat := (H.job j).rowMap.map fun (e : Nat × Nat) => e.2
  let H := { H with taken := H.taken.filter (fun p => !mine.contains p), unc := H.unc.filter (fun (e : Nat × URow) => !mine.contains e.1),
                    poisonRows := H.poisonRows.filter (fun p => !mine.contains p),
                    stepReruns := H.stepReruns.filter (·.1 != j), stepFrom := H.stepFrom.filter (·.1 != j) }
  H.putJob j (H.job j).vacate

def State.dropJob (s : State) (v : Fn) (j : Nat) : State :=
  let s := (s.part v).halls.foldl (fun s h => s.modHall h fun H => H.dropJob j) s
  (s.modJob (pageOf v j) fun x => { x with resident := false }).modPart v fun p =>
    { p with holder := if p.holder = some j then none else p.holder, sliceOver := p.sliceOver && p.holder != some j }

def State.admitJob (s : State) (v : Fn) (j : Nat) : State :=
  let s := (s.part v).halls.foldl (fun s h =>
    let m : Tab Nat := s.drawMap h ((s.hall h).job j).rows s.free
    let s := s.modHall h fun H =>
      ({ H with taken := H.taken ++ m.map fun (e : Nat × Nat) => e.2 }).putJob j { (H.job j).vacate with rowMap := m }
    { s with free := s.free + 64 }) s
  s.modJob (pageOf v j) fun x => { x with resident := true }

/-- RESIDENT and WCOMMON, writable only while the queue is not enabled: a write of them at any other time is discarded and
counted, whatever values it has. -/
def State.setResident (s : State) (f : Fn) (q : Page) (res wcommon : Bool) : State :=
  let v := pageFn q
  let j := pageJob q
  let J := s.job q
  if J.enabled then s.accessErr f
  else
    let s := s.modJob q fun x => { x with wcommon := wcommon }
    if res = J.resident then s
    else if !res then (s.dropJob v j).rehold v
    else
      let P := s.part v
      let others := s.residents v
      let staging := (P.plan.map Plan.staging).getD 0
      if P.bound ∧ P.halls.all fun h => (s.hall h).admits others staging j then (s.admitJob v j).rehold v
      else s.modJob q fun x => { x with resErr := true }

/-- BAR0 offset of a register of a job block (Table 08-1). -/
def jobOff (q : Page) (off : Nat) : Nat := 0x0020000 + 0x10 * q + off

/-- BAR0 offset of a register of a partition block. -/
def partOff (v : Fn) (off : Nat) : Nat := 0x0030000 + 0x40 * (v - 1) + off

/-- A write of PRT_JOB_CTRL (Table 08-2). In a freeze a change of RESIDENT is recorded, and with it every later write of the
register, and every one behind a recorded write of the partition's binding, which ends a residency (R313). -/
def State.writeJobCtrl (s : State) (f : Fn) (q : Page) (v : Word) : State :=
  if f ≠ 0 then s.accessErr f
  else if s.freezing ∧ (v.getLsbD 0 ≠ (s.job q).resident ∨ s.heldAt (jobOff q 0) ∨ s.heldAt (partOff (pageFn q) 0)) then s.record f (jobOff q 0) v
  else
    let s := if v.getLsbD 2 then s.modJob q fun x => { x with resErr := false } else s
    s.setResident f q (v.getLsbD 0) (v.getLsbD 1)

def execResidentSet (fn : Fn) (q : Page) (wcommon : Bool) (s : State) : Out :=
  .next (s.writeJobCtrl fn q (BitVec.ofNat 32 (1 + 2 * b2n wcommon)))
def execResidentClear (fn : Fn) (q : Page) (wcommon : Bool) (s : State) : Out :=
  .next (s.writeJobCtrl fn q (BitVec.ofNat 32 (2 * b2n wcommon)))

/-! ### Binding (R314, R315) -/

/-- Step area, logs, hold and an enabled Mezzanine of a hall, as far as R315 looks at them. -/
def Hall.bindAreas (H : Hall) : List Span :=
  [(H.shrBase, 256 * 64 * H.shrSlot), (H.xlogBase, 32 * H.xlogSize), (H.clogBase, 65536 * H.clogSize),
   (H.holdBase, 65536 * H.holdSegs), (H.mezzBase, if H.mezzOn then 131072 * H.mezzSize else 0)]

def Hall.bindable (H : Hall) : Bool :=
  let a := H.bindAreas
  decide (2 ≤ H.shrSlot) && H.xlogSize != 0 && H.clogSize != 0 && (a.take 3).all (fun x => decide (x.top ≤ stackBytes))
    && (List.range 3).all fun i => (List.range 5).all fun k => k ≤ i || !(a.getD i (0, 0)).meets (a.getD k (0, 0))

/-- The conditions of R315. -/
def State.bindOk (s : State) (v : Fn) (base size : Nat) (rekey : Bool) : Bool :=
  let n := 2 ^ size
  let hs := (List.range n).map (base + ·)
  s.vfEnable && v ≤ s.numVFs && base % n == 0 && base + n ≤ 8
    && hs.all (fun h => s.hallOk h && !((List.range 8).map (· + 1)).any (fun w =>
        w != v && (s.part w).bindReq && ((List.range (2 ^ (s.part w).size)).map ((s.part w).base + ·)).contains h)
      && (s.hall h).bindable && !(rekey && (s.hall h).mezzOn))

/-- A fresh interleave key for the set, cleared stacks, and logs that start over (R102, R315). -/
def State.rekeySet (s : State) (base size : Nat) : State :=
  let k := Config.interleaveKey s.keyDrawsHbm
  let s := { s with keyDrawsHbm := s.keyDrawsHbm + 1 }
  ((List.range (2 ^ size)).map (base + ·)).foldl (fun s h => s.modHall h fun H =>
    { H with key := k, hbm := [], poison := [], shrHead := 0, xlogHead := 0, clogHead := 0 }) s

/-! ### Unbinding (R316) -/

/-- Every command whose commit window is open reaches its commit point. -/
def State.closeWindows (s : State) (v : Fn) : State := (vfPages v).foldl (fun s q => s.commitOldest q) s

/-- Every fetched command of a page fails, and each posts its completion as room allows. -/
def State.failReset (s : State) (q : Page) : State :=
  let cs := (s.job q).cmds
  (cs.foldl (fun s c => (s.dropAttempt q c.slot).modCmd q c.slot fun x =>
    if x.failed then x else { x with phase := .failed errReset 0xFFFF }) s).drainFailed q

/-- A hall leaves its partition: no plan, no hold. -/
def Hall.leave (H : Hall) : Hall :=
  { H with tableStat := 0, holdSegs := 0, holdValid := [],
           gals := H.gals.map fun e => (e.1, { e.2 with role := 0, stage := 0, serves := none }) }

/-- Without a plan the ports of its halls grant what R214 gives such a hall. -/
def State.unbindPart (s : State) (v : Fn) : State :=
  let hs := (s.part v).halls
  let t := (List.range 16).foldl (fun (s : State) j => s.dropJob v j) s
  let t := hs.foldl (fun (t : State) h => t.modHall h Hall.leave) t
  let t := t.modPart v fun p => { Part.reset with base := p.base, size := p.size, bindErr := p.bindErr }
  hs.foldl (fun t h => (List.range 5).foldl (fun t i => State.regrant s t h i) t) t

def State.unbind (s : State) (v : Fn) : State :=
  if (s.part v).bound then
    let s := s.closeWindows v
    let s := (vfPages v).foldl (fun s q => s.failReset q) s
    s.unbindPart v
  else s.modPart v fun p => { p with bindReq := false }

/-- PRT_PART_BIND (Table 11-3). -/
def State.writeBind (s : State) (f v : Fn) (base size : Nat) (bnd rekey : Bool) : State :=
  let p := s.part v
  if f ≠ 0 then s.accessErr f
  else if s.freezing ∧ (bnd ≠ p.bindReq ∨ rekey ∨ s.heldAt (partOff v 0)) then
    s.record f (partOff v 0) (BitVec.ofNat 32 (base + 8 * size + 256 * b2n bnd + 512 * b2n rekey))
  else if p.bindReq then (if bnd then s.accessErr f else s.unbind v)
  else
    let s := s.modPart v fun p => { p with base := base, size := size }
    if !bnd then s
    else if s.bindOk v base size rekey then
      (if rekey then s.rekeySet base size else s).modPart v fun p => { p with bindReq := true }
    else s.modPart v fun p => { p with bindErr := true }

/-- The binding takes effect: semaphores, step counters and sampler counters at their reset values, no job, no plan. -/
def State.bindEffect (s : State) (v : Fn) : State :=
  let p := s.part v
  if p.bindReq ∧ !p.bound then
    let s := s.modPart v fun p => { Part.reset with base := p.base, size := p.size, bindReq := true, bound := true, bindErr := p.bindErr }
    let s := (List.range 16).foldl (fun s j => s.dropJob v j) s
    (s.part v).halls.foldl (fun s h => s.modHall h fun H => { H with step := 0, sampler := [] }) s
  else s

def execBound (fn v : Fn) (base : BitVec 3) (size : BitVec 2) (s : State) : Out :=
  .next (s.writeBind fn v base.toNat size.toNat true false)
def execRekey (fn v : Fn) (base : BitVec 3) (size : BitVec 2) (s : State) : Out :=
  .next (s.writeBind fn v base.toNat size.toNat true true)
def execBindingTakesEffect (v : Fn) (s : State) : Out := .next (s.bindEffect v)
def execUnbind (fn v : Fn) (s : State) : Out :=
  .next (s.writeBind fn v (s.part v).base (s.part v).size false false)

/-! ### PRT_SCISSOR_CTRL (Table 09-7) -/

/-- RETIRE: a leg in a pair, or one that stands alone, retires. -/
def State.retireCtl (s : State) (v : Fn) : State :=
  if (s.part v).scState = 1 ∨ (s.part v).scState = 2 then s.retireLeg v else s

/-- REJOIN on a single leg: Porter sends what R279 exchanges, and with every queue of the leg disabled the rejoin goes on when
the partner's exchange arrives. With one enabled the rejoin ends: a new leg's CAUSE becomes 0b11. -/
def State.rejoinCtl (s : State) (v : Fn) : State :=
  match (s.part v).plan with
  | none => s
  | some p =>
    if (s.part v).scState = 2 then
      let t := s.sendExchange v p
      if s.allDisabled v then t.modPart v fun p => { p with rejoining := true }
      else if (s.part v).newLeg then t.modPart v fun p => { p with scCause := 3 } else t
    else s

/-- A write of PRT_SCISSOR_CTRL. SOLO gives no cause of Table 09-6. -/
def State.writeScissor (s : State) (f v : Fn) (retire solo rejoin : Bool) : State :=
  if f ≠ 0 then s.accessErr f
  else if s.freezing then
    (if retire || solo || rejoin then
      s.record f (partOff v 0xC) (BitVec.ofNat 32 (b2n retire + 2 * b2n solo + 4 * b2n rejoin)) else s)
  else
    let s := if retire then s.retireCtl v else s
    let s := if solo then s.standAlone v 0 else s
    if rejoin then s.rejoinCtl v else s

def execRetire (fn v : Fn) (s : State) : Out := .next (s.writeScissor fn v true false false)
def execSolo (fn v : Fn) (s : State) : Out := .next (s.writeScissor fn v false true false)
def execRejoin (fn v : Fn) (s : State) : Out := .next (s.writeScissor fn v false false true)

/-! ### Epochs (R221, R321) -/

/-- BUSY of CNC_JOB_EPOCH: a command of the job is dispatched. -/
def State.epochBusy (s : State) (h j : Nat) : Bool :=
  match s.ownerOf h with
  | some v => (s.job (pageOf v j)).cmds.any Cmd.dispatched
  | none => false

/-- A write of the epoch clears the job's ledgers, round counters and carry buffers, in every hall of the partition. -/
def State.setEpoch (s : State) (h j : Nat) (e : BitVec 16) : State :=
  let hs := match s.ownerOf h with
    | some v => (s.part v).halls
    | none => [h]
  hs.foldl (fun s k => s.modHJob k j fun J =>
    { J.vacate with epoch := e.toNat, rowMap := J.rowMap }) s

/-- The physical function, or the virtual function whose job it is (R310). -/
def State.writeEpoch (s : State) (f : Fn) (h j : Nat) (e : BitVec 16) : State :=
  if (f ≠ 0 ∧ s.ownerOf h ≠ some f) ∨ s.epochBusy h j then s.accessErr f else s.setEpoch h j e

def execEpochWrite (fn : Fn) (hall job : Nat) (epoch : BitVec 16) (s : State) : Out :=
  .next (s.writeEpoch fn hall job epoch)

/-! ### CNC_MEZZ_CFG (R241, R320) -/

/-- An enabled Mezzanine would meet a job share, the hold, the step area or the collective log; the exception log counts for R247
and R248 alone (R319, R320). -/
def State.mezzMeets (s : State) (h : Nat) : Bool :=
  let H := s.hall h
  let m : Span := (H.mezzBase, 131072 * H.mezzSize)
  let shares := match s.ownerOf h with
    | some v => (s.residents v).map fun j => (H.job j).share
    | none => []
  ([(H.shrBase, 256 * 64 * H.shrSlot), (H.clogBase, 65536 * H.clogSize), (H.holdBase, 65536 * H.holdSegs)] ++ shares).any m.meets

/-- A write of CNC_MEZZ_CFG: PEER_HALL and PEER_ADDR change only while ENABLE is 0. -/
def State.writeMezzCfg (s : State) (f : Fn) (h : Nat) (on : Bool) (peerHall : BitVec 3) (peerAddr : BitVec 18) : State :=
  if f ≠ 0 then s.accessErr f
  else if (s.hall h).mezzOn then
    (if on then s.accessErr f else s.modHall h fun H => { H with mezzOn := false, mezzIn := none })
  else if on ∧ s.mezzMeets h then s.accessErr f
  else s.modHall h fun H => { H with mezzOn := on, mezzHall := peerHall.toNat, mezzAddr := peerAddr.toNat }

def execMezzEnable (fn : Fn) (hall : Nat) (peerHall : BitVec 3) (peerAddr : BitVec 18) (s : State) : Out :=
  .next (s.writeMezzCfg fn hall true peerHall peerAddr)

end Sys2Proof.Machine
end

