-- ==== Sys2Proof/Machine/Freeze.lean ====
section
/-! DEFINITION. Freezes and how they start, sideband frames (R282, R283, R287, Tables 09-9 to 09-12), and the cabling check
(R303). -/

namespace Sys2Proof.Machine

/-! ### Sideband frames (R283, Table 09-11) -/

/-- Landing of a chain address, and the DEST that names it. -/
def landingOf (addr : Nat) : Nat := addr / 64
def landingDest (addr : Nat) : Nat := landingOf addr * 512

/-- SRC of a frame that the device originates: the rank word of its hall 0 (log 26). -/
def State.sbSrc (s : State) : Nat := rankWord s.chainAddr.toNat 0

/-- Send a sideband frame three times over a port. -/
def State.sbSend (s : State) (h i : Nat) (f : Frame) : State :=
  if ((s.hall h).port i).usable then s.modPort h i fun p => ((p.emit f).emit f).emit f else s

/-- Every port of the device. -/
def allPorts : List (Nat × Nat) := (List.range 8).flatMap fun h => (List.range 5).map fun i => (h, i)

/-- Send on every port that is up, but for one. -/
def State.sbFlood (s : State) (f : Frame) (skip : Option (Nat × Nat)) : State :=
  (allPorts.filter fun p => some p != skip).foldl (fun s p => s.sbSend p.1 p.2 f) s

def sbFrame (op dest src id : Nat) : Frame := { Frame0 with typ := tSIDEBAND, vc := 15, seq := op, dest := dest, src := src, sbId := id }

/-- A frame's pair (SRC, SB_ID) is recorded. -/
def State.sbTake (s : State) (f : Frame) : State :=
  { s with sbSeen := (f.src, f.sbId, s.time.toNat) :: s.sbSeen.filter fun e => decide (s.time.toNat < e.2.2 + 1000) }

/-- A FREEZE or THAW of the device's own landing. Its pair is recorded too, so that the frame is no new one where a ring brings it
back. -/
def State.sbOrigin (s : State) (op : Nat) : State :=
  if s.chainValid then
    let f := sbFrame op (landingDest s.chainAddr.toNat) s.sbSrc (s.sbNext % 2 ^ 32)
    ({ s with sbNext := s.sbNext + 1 }.sbTake f).sbFlood f none
  else s

/-! ### Starting a freeze (R282) -/

abbrev srcPin : Nat := 1
abbrev srcPorter : Nat := 2
abbrev srcSide : Nat := 3

/-- A paired leg tells its partner (R287). -/
def State.pausePairs (s : State) : State :=
  ((List.range 8).map (· + 1)).foldl (fun s v => if (s.part v).scState = 1 then s.sendDigest v 0 (DBody.of 7) else s) s

/-- A source freezes the device. A freeze that is under way keeps its SOURCE and its COUNT. The device remembers that it sent a
FREEZE, for the THAW at the end. -/
def State.startFreeze (s : State) (src : Nat) (landing : Bool) : State :=
  let s := if landing && src != srcSide then { s.sbOrigin 1 with frzOrigin := s.frzOrigin || s.chainValid } else s
  if s.freezing then { s with frzLanding := s.frzLanding || landing }
  else
    let s := s.pausePairs
    { s with holding := true, frzSource := src, frzLanding := landing, frzCount := min 255 (s.frzCount + 1) }

/-- Entries of a freeze or a thaw in every hall's log, and the NOTIFY. -/
def State.noteFreeze (s : State) (kind what : Nat) : State :=
  (s.present.foldl (fun s h => s.log h (LogEnt.of kind 0)) s).notify what 0xFF

/-- Step 4 of Table 09-12: every handshake holds. -/
def State.freezeHeld (s : State) : State :=
  if s.holding then { s with holding := false, frozen := true }.noteFreeze 0x0F 4 else s

def execFreezeComplete (s : State) : Out := .next s.freezeHeld

/-- FREEZE_N has been low for 100 ns. While self-test runs the freeze waits for its end (R290). -/
def State.pinFall (s : State) : State :=
  let s := { s with pinLow := true }
  if s.selfDone then { s with byPin := true }.startFreeze srcPin s.pinScope else s

def execFreezeNFall (s : State) : Out := .next s.pinFall

/-! ### Sideband FREEZE -/

/-- A sideband frame with a good CRC on a port that carries frames. -/
def State.sbGood (s : State) (h i op : Nat) (f : Frame) : Bool :=
  f.typ == tSIDEBAND && f.seq == op && frameOk f && ((s.hall h).port i).usable

/-- A copy of the pair (SRC, SB_ID) came within the last millisecond. -/
def State.sbDup (s : State) (f : Frame) : Bool :=
  s.sbSeen.any fun e => e.1 == f.src && e.2.1 == f.sbId && decide (s.time.toNat < e.2.2 + 1000)

/-- The frame concerns this device's landing and is a first copy: it is recorded and goes on over every other port. -/
def State.sbPass (s : State) (h i op : Nat) (f : Frame) : Option State :=
  if s.sbGood h i op f && s.chainValid && f.dest == landingDest s.chainAddr.toNat && !s.sbDup f then
    some ((s.sbTake f).sbFlood f (some (h, i)))
  else none

def State.sbFreeze (s : State) (h i : Nat) (f : Frame) : State :=
  match s.sbPass h i 1 f with
  | none => s
  | some s =>
    if s.sbAccept then
      { s with bySide := if s.bySide.contains (rankChain f.src) then s.bySide else s.bySide ++ [rankChain f.src] }.startFreeze
        srcSide true
    else s

def execSidebandFreeze (hall port : Nat) (f : Frame) (s : State) : Out := .next (s.sbFreeze hall port f)

/-! ### The cabling check (R303) -/

/-- PRT_ECHO_CTRL at its offset. -/
abbrev offEcho : Nat := 0x0000134

/-- GO sends ECHO_REQ on PORT under the device's next SB_ID, and the check keeps that port. It starts work, so a freeze records
it. -/
def State.writeEcho (s : State) (f : Fn) (port : BitVec 6) (go : Bool) : State :=
  if f ≠ 0 then s.accessErr f
  else if s.freezing ∧ (go ∨ s.heldAt offEcho) then s.record f offEcho (BitVec.ofNat 32 (port.toNat + 64 * b2n go))
  else
    let s := { s with echoPort := port }
    if go then
      let p := port.toNat
      let s := { s with echoAsk := port, echoBusy := true, echoDone := false, echoTimeout := false }
      if p < 24 ∨ (32 ≤ p ∧ p < 48) then
        { s with sbNext := s.sbNext + 1 }.sbSend (portSite p).1 (portSite p).2
          (sbFrame 0x10 0 (s.rank (portSite p).1) (s.sbNext % 2 ^ 32))
      else s
    else s

def execEchoGo (fn : Fn) (port : BitVec 6) (s : State) : Out := .next (s.writeEcho fn port true)

/-- The answer names the hall of the ingress port and that port; bit 15 is set in an unaddressed device. It is the responder's own
frame, under its next SB_ID; each copy of the request is answered (R303; log 120). -/
def State.echoAnswer (s : State) (h i : Nat) (f : Frame) : State :=
  if s.sbGood h i 0x10 f then
    { s with sbNext := s.sbNext + 1 }.modPort h i
      (·.emit { sbFrame 0x11 0 (s.rank h) (s.sbNext % 2 ^ 32) with hopIdx := portNum h i + 32768 * b2n (!s.chainValid) })
  else s

def execEchoReq (hall port : Nat) (f : Frame) (s : State) : Out := .next (s.echoAnswer hall port f)

/-- The first reply on the port that was asked, whatever PORT reads by now. -/
def State.echoTake (s : State) (h i : Nat) (f : Frame) : State :=
  if s.sbGood h i 0x11 f && s.echoBusy && portNum h i == s.echoAsk.toNat then
    { s with echoBusy := false, echoDone := true, echoUnaddr := bit f.hopIdx 15, echoIn := f.hopIdx % 64, echoSrc := f.src % 2 ^ 21 }
  else s

def execEchoReply (hall port : Nat) (f : Frame) (s : State) : Out := .next (s.echoTake hall port f)

def execEchoTimeout (s : State) : Out :=
  .next (if s.echoBusy then { s with echoBusy := false, echoTimeout := true } else s)

end Sys2Proof.Machine
end

