-- ==== Sys2Proof/Machine/Keys.lean ====
section
/-! DEFINITION. Plan-key slots and key commands (R305 to R307). -/

namespace Sys2Proof.Machine

/-- BAR0 offset of PRT_KEYCMD_CTRL. -/
abbrev offKeyCtrl : Nat := 0x0000168

/-- The 272 bytes of the key command block (Table 10-17). -/
def State.keyBlock (s : State) : List Byte := memReads s.host s.keyAddr.toNat 272

def State.keySlot (s : State) (k : Nat) : KeySlot := s.slots.getD k KeySlot.empty

def KeySlot.live (k : KeySlot) : Bool := k.provisioned && !k.revoked

/-- The slot's final fuses are blank: it can still be provisioned. -/
def KeySlot.isEmpty (k : KeySlot) : Bool := !k.provisioned && !k.revoked

/-- Form of the block: magic, operation, slots, reserved bytes, device and nonce. -/
def State.keyForm (s : State) (b : List Byte) : Bool :=
  let op := u8 b 4
  u32 b 0 == 0x59454B5A && decide (1 ≤ op) && decide (op ≤ 3) && decide (u8 b 5 ≤ 3) && decide (u8 b 6 ≤ 3) && u8 b 7 == 0
    && u64 b 8 == Config.devid.toNat && u64 b 0x10 == (Config.nonce s.keyDraws).toNat
    && (op == 3 || u32 b 0x18 == 0) && u32 b 0x1C == 0 && (op == 1 || allZero (bytesAt b 0x20 48))

/-- The signer may sign, and has signed. -/
def State.keyAuth (s : State) (b : List Byte) : Bool :=
  let k := s.keySlot (u8 b 6)
  k.live && sha384 (bytesAt b 0x50 96) == k.digest
    && ecdsaVerify (beNat (bytesAt b 0x50 48)) (beNat (bytesAt b 0x80 48)) (beNat (bytesAt b 0xB0 48))
      (beNat (bytesAt b 0xE0 48)) (sha384 (bytesAt b 0 0xB0))

/-- The operation suits its target. -/
def State.keySuits (s : State) (b : List Byte) : Bool :=
  let t := u8 b 5
  let k := s.keySlot t
  match u8 b 4 with
  | 1 => k.isEmpty
  | 2 => k.provisioned && (List.range 4).any fun i => i != t && (s.keySlot i).live
  | _ => decide (k.minver < u32 b 0x18) && decide (u32 b 0x18 ≤ 255)

/-- The slot after a burn that reads back. Its MINVER fuses stay as a RAISE_MIN left them. -/
def KeySlot.burned (k : KeySlot) (b : List Byte) : KeySlot :=
  match u8 b 4 with
  | 1 => ⟨true, false, k.minver, bytesAt b 0x20 48⟩
  | 2 => { k with revoked := true }
  | _ => { k with minver := u32 b 0x18 }

/-- The slot after a burn that did not read back: how far the burn came is free (log 28). -/
def KeySlot.misburned (k : KeySlot) (b : List Byte) (n : Nat) : KeySlot :=
  match u8 b 4 with
  | 1 => if Config.freeNat n % 2 = 0 then k else ⟨false, true, k.minver, []⟩
  | 2 => k
  | _ => { k with minver := k.minver + Config.freeNat n % (u32 b 0x18 - k.minver) }

/-- The slot after a reset or a power loss in the middle of a burn: a PROVISION leaves the spoiled slot of R305; whether a
REVOKE's fuse was burned, and how far a RAISE_MIN came, are free. -/
def KeySlot.interrupted (k : KeySlot) (b : List Byte) (n : Nat) : KeySlot :=
  match u8 b 4 with
  | 1 => ⟨false, true, k.minver, []⟩
  | 2 => { k with revoked := k.revoked || Config.freeNat n % 2 == 1 }
  | _ => { k with minver := k.minver + Config.freeNat n % (u32 b 0x18 - k.minver + 1) }

/-- A burn in progress is lost. -/
def State.loseBurn (s : State) : State :=
  match s.keyBurn with
  | none => s
  | some b =>
    let (n, s) := s.fresh
    { s with keyBurn := none, slots := s.slots.set (u8 b 5) ((s.keySlot (u8 b 5)).interrupted b n) }

/-- The first failing check, in the order of Table 10-18. -/
def State.keyErr (s : State) (b : List Byte) : Option Nat :=
  if !s.keyForm b then some 0x0706
  else if !s.keyAuth b then some 0x0707
  else if !s.keySuits b then some 0x0708
  else none

/-- An attempt ends with its code; Porter draws a new nonce. -/
def State.keyEnd (s : State) (code : Nat) : State :=
  { s with keyBurn := none, keyDone := true, keyCode := code, keyDraws := s.keyDraws + 1 }

/-- A key command runs: the check, then the burn, which `keyBurned` ends. -/
def State.keyRun (s : State) : State :=
  let b := s.keyBlock
  let s := { s with keyWait := false }
  match s.keyErr b with
  | some c => s.keyEnd c
  | none => { s with keyBurn := some b }

/-- The burn ends: the fuses read back, or did not. -/
def State.keyBurned (s : State) (b : List Byte) : State :=
  let t := u8 b 5
  if Config.fuseOk s.keyDraws then { s with slots := s.slots.set t ((s.keySlot t).burned b) }.keyEnd 0
  else
    let (n, s) := s.fresh
    { s with slots := s.slots.set t ((s.keySlot t).misburned b n) }.keyEnd 0x0709

/-- A plan load is between steps 1 and 8 of Table 04-13. -/
def State.anyLoading (s : State) : Bool := ((List.range 8).map (· + 1)).any fun v => (s.part v).loading.isSome

/-- A write of START: Porter runs the command, after a plan load or a key command that is in progress (R307). -/
def State.keyStart (s : State) : State :=
  if s.anyLoading || s.keyBurn.isSome then { s with keyWait := true } else s.keyRun

/-- A burn in progress ends; a waiting key command runs once no plan load is in progress. -/
def State.keyTick (s : State) : State :=
  match s.keyBurn with
  | some b => s.keyBurned b
  | none => if s.keyWait && !s.anyLoading && !s.freezing then s.keyRun else s

/-- PRT_KEYCMD_CTRL. -/
def State.writeKeyCtrl (s : State) (f : Fn) (v : Word) : State :=
  if f ≠ 0 then s.accessErr f
  else if !v.getLsbD 0 then s
  else if s.freezing then s.record f offKeyCtrl v
  else s.keyStart

/-- A row of one operation: START with a block that asks for it. -/
def keyRow (op : Nat) (f : Fn) (s : State) : Out :=
  .next (if f = 0 ∧ u8 s.keyBlock 4 ≠ op then s else s.writeKeyCtrl f 1)

def execKeyProvision (fn : Fn) (s : State) : Out := keyRow 1 fn s
def execKeyRevoke (fn : Fn) (s : State) : Out := keyRow 2 fn s
def execKeyRaiseMin (fn : Fn) (s : State) : Out := keyRow 3 fn s

end Sys2Proof.Machine
end

