-- ==== Sys2Proof/Machine/Bringup.lean ====
section
/-! DEFINITION. Resets, start-up and self-test (R288 to R297), supplies and the core voltage (R327 to R333, R339), the host port
(R308, R309) and the SPDM responder (R304). -/

namespace Sys2Proof.Machine

/-! ### Resets that run self-test (Table 10-1) -/

/-- What every reset with self-test keeps: fuses, pins, what has left the device, the host, and with PERST# the chain
address. A burn that it interrupts leaves its slot as R305 says. -/
def State.wipe (s0 : State) (keepAddr : Bool) : State :=
  let s := s0.loseBurn
  { State.reset with
    slots := s.slots, fuses := s.fuses, keyDraws := s.keyDraws + 1, keyDrawsHbm := s.keyDrawsHbm, pinLow := s.pinLow,
    sysHigh := s.sysHigh, perstHigh := s.perstHigh, throttle := s.throttle, vcoreEn := s.vcoreEn, tripLow := s.tripLow,
    tripped := s.tripped, resetCause := s.resetCause, frozenAt := s.frozenAt, warmCnt := s.warmCnt, chainOut := s.chainOut,
    msixOut := s.msixOut, exchOut := s.exchOut, heldWalks := s.heldWalks, chainAddr := if keepAddr then s.chainAddr else 0, chainValid := keepAddr && s.chainValid,
    host := s.host, free := s.free, pending := s.pending }

/-- Step 3 of Table 10-2, while SYS_RESET_N is high and VCORE is on: the chain interface and Porter's core leave reset, and Porter
takes AVSBus, whose target THROTTLE_N holds down while it is low (R330, R332). VIO feeds the domain of the chain interface alone
(R291). -/
def State.begin (s : State) : State :=
  if s.sysHigh && s.vcoreEn then
    { s with chainStage := .starting, devDomains := 2, target := if s.throttle then min s.target 720 else s.target }
  else { s with chainStage := .held, devDomains := 1 }

/-- A reset with its cause (R291). -/
def State.hardReset (s : State) (cause : Nat) (keepAddr : Bool) : State :=
  { s.wipe keepAddr with resetCause := cause, frozenAt := s.freezing, warmCnt := min 255 (s.warmCnt + 1) }.begin

/-- Power-on: SYS_RESET_N is held low (Table 12-4). -/
def State.powerUp (s : State) : State :=
  { s.wipe false with resetCause := 0, frozenAt := false, warmCnt := 0, tripped := false, vcoreEn := true, tripLow := false,
                      sysHigh := false, chainStage := .held, heldWalks := [] }

def execPowerOn (s : State) : Out := .next s.powerUp

/-! ### WALK frames in bypass (R300) -/

/-- The payload of a WALK with SEAT, POS and SKIPPED each raised. -/
def bypassWalk (f : ChainFrame) : ChainFrame :=
  if f.typ = 1 ∧ f.payload.length = 8 then
    let b := fun i => u8 f.payload i
    let body := f.payload.take 4 ++ natLE (min 64 (b 4 + 1)) 1 ++ natLE ((b 5 + 1) % 256) 1
      ++ natLE ((b 6 + 1) % 256) 1 ++ f.payload.drop 7
    sealChain { f with payload := body }
  else f

def State.chainPut (s : State) (f : ChainFrame) : State := { s with chainOut := s.chainOut ++ [f] }

/-- Held WALKs leave as in bypass. -/
def State.flushWalks (s : State) : State :=
  s.heldWalks.foldl (fun s f => s.chainPut (bypassWalk f)) { s with heldWalks := [] }

/-! ### SYS_RESET_N and PERST# -/

/-- SYS_RESET_N low resets the device; after a trip the recorded cause stands (R291), VCORE_EN rises and TRIP_N is
released. High starts the sequence of Table 10-2. -/
def State.sysReset (s : State) (high : Bool) : State :=
  if high then
    (if s.sysHigh then s else { s with sysHigh := true }.begin)
  else if s.sysHigh || s.tripped then
    let at_ := if s.tripped then s.frozenAt else s.freezing
    let t := ({ s with sysHigh := false, vcoreEn := true, tripLow := false }.hardReset (if s.tripped then 4 else 1) false)
    { t with frozenAt := at_, tripped := false }.flushWalks
  else s

def execSysResetN (high : Bool) (s : State) : Out := .next (s.sysReset high)

/-- Negotiated speed, width and FLIT mode, which the host and the link decide (Table 11-7): free within the encodings. From
link-up on CLKREQ# is driven low (Table 12-2). -/
def State.trainLink (s : State) : State :=
  let (n, s) := s.fresh
  let k := Config.freeNat n
  let speed := 1 + k % 6
  { s with clkreqLow := true, linkStat := BitVec.ofNat 32 (speed + 8 * (if k / 6 % 2 = 0 then 16 else 8)
      + 256 * (if speed = 6 then 1 else k / 12 % 2) + 512 * (k / 24 % 2)) }

/-- The fall of PERST# resets the device, but not one that SYS_RESET_N or a trip holds. -/
def State.setPerst (s : State) (high : Bool) : State :=
  if high then
    let s := { s with perstHigh := true }
    if s.chainStage = .serving ∧ s.linkStat = 0 then s.trainLink else s
  else if s.perstHigh ∧ s.sysHigh ∧ !s.tripped then { s with perstHigh := false }.hardReset 2 true
  else { s with perstHigh := false, linkStat := 0, clkreqLow := false }

def execPerst (high : Bool) (s : State) : Out := .next (s.setPerst high)

/-! ### Self-test (R292 to R297) -/

/-- Spare columns or rows of an array (R294). -/
def sparesOf : ArrayId → Nat
  | .galData _ => 32
  | .galSide _ | .undercroftBank _ | .undercroftTags _ | .planStore | .concourseBuffer _ | .retryBuffer _ | .newelLane _
  | .riserLane _ => 2

/-- An array of a gallery, and which one. -/
def galleryOf : ArrayId → Option Nat
  | .galData g | .galSide g => some g
  | .undercroftBank _ | .undercroftTags _ | .planStore | .concourseBuffer _ | .retryBuffer _ | .newelLane _
  | .riserLane _ => none

/-- Spares of an array that the factory repair has used. -/
def Fuses.used (x : Fuses) (h : Nat) (a : ArrayId) : Nat :=
  ((x.factory.filter fun e => e.1 == h && e.2.1 == a).map fun e => e.2.2).sum

/-- Columns or rows of an array that MBIST found failing. -/
def failingIn (r : HallTest) (a : ArrayId) : Nat := ((r.failing.filter fun e => e.1 == a).map fun e => e.2).sum

/-- The soft repair of an array succeeds: the spares that the factory repair left suffice. -/
def Fuses.repaired (x : Fuses) (h : Nat) (r : HallTest) (a : ArrayId) : Bool :=
  decide (x.used h a + failingIn r a ≤ sparesOf a)

/-- Gallery g fails: an array of it beyond its spares, or a MISR that is not the fused one (Table 10-5). -/
def Fuses.galFails (x : Fuses) (h : Nat) (r : HallTest) (g : Nat) : Bool :=
  r.failing.any (fun e => galleryOf e.1 == some g && !x.repaired h r e.1) || r.galMisr.getD g 0 != x.galMisr

def Fuses.galsOut (x : Fuses) (h : Nat) (r : HallTest) : List Nat := (List.range 64).filter (x.galFails h r)

/-- What the test of hall h gives (R294 to R296). -/
def Fuses.judge (x : Fuses) (h : Nat) (r : HallTest) : TestOut :=
  let mbist := r.failing.any fun e => (galleryOf e.1).isNone && !x.repaired h r e.1
  let lbist := r.misr != x.misr
  { result := if mbist || lbist || r.hbm || r.power then 2 else 1, mbist := mbist, lbist := lbist, hbm := r.hbm, power := r.power,
    galFailed := (x.galsOut h r).length,
    repairs := ((r.failing.filter fun e => x.repaired h r e.1).map fun e => e.2).sum, misr := r.misr }

def TestOut.pass (t : TestOut) : Bool := t.result == 1

/-- Galleries out of a self-test: unpowered, those that failed it fenced. -/
def testedGals (old : Hall) (r : HallTest) (out : List Nat) : Tab Gal :=
  (List.range 64).map fun g => (g, { Gal.reset with
    strikes := (old.gal g).strikes, firstStrike := (old.gal g).firstStrike, skip := (old.gal g).skip,
    parity := (old.gal g).parity, mismatch := (old.gal g).mismatch,
    misr := r.galMisr.getD g 0, byTest := (old.gal g).byTest || out.contains g, fenced := (old.gal g).fenced || out.contains g })

/-- An optical port that starts its training with all lanes offered; PORT_RETRAIN_COMPLETE ends it. -/
def trainingPort : Port := { Port.reset with offer := 0xFF, training := true }

/-- Patterns of LBIST for a hall's common logic, and for each gallery (R295). -/
abbrev commonPatterns : Nat := 262144
abbrev galleryPatterns : Nat := 65536

/-- A hall after its test (steps 7 and 8): a cleared stack under a fresh key, its optical ports in training. The error counters
outlive a repeated test. -/
def Hall.tested (old : Hall) (x : Fuses) (h : Nat) (r : HallTest) (key : DWord × DWord) : Hall :=
  let t := x.judge h r
  let H := { Hall.reset with
    test := t, prpg := Config.prpgAfter x.seed galleryPatterns, patterns := commonPatterns, galPatterns := galleryPatterns, hbmCorr := old.hbmCorr, hbmUncorr := old.hbmUncorr,
    uncCorr := old.uncCorr, uncUncorr := old.uncUncorr, nwlResidue := old.nwlResidue, rsrResidue := old.rsrResidue,
    rsrElems := old.rsrElems, commits := old.commits, allCommits := old.allCommits, resStrike := old.resStrike,
    gals := testedGals old r (x.galsOut h r) }
  if t.pass then
    { H with present := true, domains := 9, key := key,
             ports := (List.range 5).map fun i => (i, if i < 3 then trainingPort else Port.reset) }
  else H

/-- An inner-ring port comes up: both ends start their sequence numbers over. -/
def Port.ringUp (p : Port) : Port :=
  { p with up := true, training := false, txSeq := 0, acked := 0, rxNext := 0, txq := p.retry ++ p.txq, retry := [], crcRun := 0 }

/-- Both ends of the inner-ring link between hall h and the next one come up when both halls are there. -/
def State.ringLink (s : State) (h : Nat) : State :=
  let n := (h + 1) % 8
  if s.hallOk h ∧ s.hallOk n ∧ ((s.hall h).port 4).up = false ∧ ((s.hall h).port 4).holdDown = false
      ∧ ((s.hall n).port 3).holdDown = false then
    (((s.modPort h 4 Port.ringUp).modPort n 3 Port.ringUp).grant h 4).grant n 3
  else s

/-- One hall's outcome: its registers, its bit of HALL_OK, its ports. -/
def State.hallTested (s : State) (h : Nat) (r : HallTest) : State :=
  let s := s.putHall h ((s.hall h).tested s.fuses h r (Config.interleaveKey s.keyDrawsHbm))
  let s := { s with keyDrawsHbm := s.keyDrawsHbm + 1 }
  let s := if (s.hall h).test.pass then
      { s with hallmap := s.hallmap ||| (1#8 <<< h), hallFail := s.hallFail &&& ~~~(1#8 <<< h) }
    else { s with hallmap := s.hallmap &&& ~~~(1#8 <<< h), hallFail := s.hallFail ||| (1#8 <<< h) }
  (s.ringLink ((h + 7) % 8)).ringLink h

/-- Galleries of a hall that self-test fenced. -/
def Hall.testFenced (H : Hall) : Nat := ((List.range 64).filter fun g => (H.gal g).byTest).length

/-- GAL_FENCED and REPAIRS: over the halls, the galleries that self-test fenced, and the repairs of each hall's last test. -/
def State.countTests (s : State) : State :=
  let hs := (List.range 8).map s.hall
  { s with galFenced := min 255 ((hs.map Hall.testFenced).sum), repairs := min 255 ((hs.map fun H => H.test.repairs).sum) }

/-- A hall's test starts: RESULT reads running, the generator takes the fused seed, and no domain is up yet: those of Table 10-4
rise first, and then the galleries' while they are tested (R292, R293). -/
def Hall.underTest (H : Hall) (seed : DWord) : Hall :=
  { H with test := { H.test with result := 3 }, prpg := seed, patterns := 0, galPatterns := 0, domains := 0,
           raising := (List.range 64).filter fun g => !(H.gal g).fenced }

def State.startTest (s : State) (h : Nat) : State := s.modHall h (·.underTest s.fuses.seed)

/-! ### The WALK (R301, Table 10-11) -/

/-- A partition of the device has an active plan. -/
def State.anyPlan (s : State) : Bool := ((List.range 8).map (· + 1)).any fun v => (s.part v).plan.isSome

def walkBytes (f : ChainFrame) (status seat pos : Nat) : ChainFrame :=
  let body := f.payload.take 1 ++ natLE status 1 ++ bytesAt f.payload 2 2 ++ natLE seat 1
    ++ natLE (pos % 256) 1 ++ f.payload.drop 6
  sealChain { f with payload := body }

/-- FULL: an address for a device without a plan, while a seat is left. -/
def State.walkFull (s : State) (f : ChainFrame) (status addr seat pos : Nat) : State :=
  if seat < 64 then
    let moved := s.anyPlan && !(s.chainValid && s.chainAddr.toNat == addr)
    let t := if s.anyPlan then s else { s with chainAddr := BitVec.ofNat 18 addr, chainValid := true }
    t.chainPut (walkBytes f (status ||| 2 * b2n moved) (seat + 1) pos)
  else
    let t := if s.anyPlan then s else { s with chainAddr := 0, chainValid := false }
    t.chainPut (walkBytes f (status ||| 4 ||| 2 * b2n s.anyPlan) 64 pos)

/-- FILL: an unaddressed device at the named seat takes the address. -/
def State.walkFill (s : State) (f : ChainFrame) (status addr seat pos : Nat) : State :=
  if s.chainValid then s.chainPut (walkBytes f status seat (pos + 1))
  else if pos = seat ∧ seat < 64 ∧ !bit status 0 then
    { s with chainAddr := BitVec.ofNat 18 addr, chainValid := true }.chainPut (walkBytes f (status ||| 1) seat (pos + 1))
  else s.chainPut (walkBytes f (status ||| 2) seat (pos + 1))

/-- A WALK that a serving device consumes, and emits again. -/
def State.walkServe (s : State) (f : ChainFrame) : State :=
  let b := fun i => u8 f.payload i
  let seat := b 4
  let addr := u16 f.payload 2 % 4096 * 64 + seat
  if f.payload.length ≠ 8 then s.chainPut f
  else if b 0 = 0 then s.walkFull f (b 1) addr seat (b 5 + 1)
  else if b 0 = 1 then s.walkFill f (b 1) addr seat (b 5)
  else s.chainPut (walkBytes f (b 1) seat (b 5 + 1))

/-- Held WALKs are consumed once the shared blocks have passed. -/
def State.serveWalks (s : State) : State := s.heldWalks.foldl State.walkServe { s with heldWalks := [] }

/-! ### The end of self-test -/

/-- Step 6: the shared blocks have passed or failed. A device whose shared blocks fail stays in reset, in bypass on the chain. -/
def State.sharedTested (s : State) (ok : Bool) : State :=
  if s.chainStage ≠ .starting then s
  else if !ok then { s with chainStage := .bypass }.flushWalks
  else
    let s := { s with chainStage := .serving, devDomains := 4 }.serveWalks
    let s := if s.perstHigh then s.trainLink else s
    (s.startTest 0).startTest 4

/-- Steps 7 and 8 for one pair of halls; the next pair's test starts. -/
def State.pairTested (s : State) (a b : HallTest) : State :=
  let k := s.selfPair
  if s.chainStage = .serving ∧ s.selfDone = false ∧ k < 4 then
    let s := { ((s.hallTested k a).hallTested (k + 4) b).countTests with selfPair := k + 1 }
    if k < 3 then (s.startTest (k + 1)).startTest (k + 5) else s
  else s

/-- Step 9: DONE, the NOTIFY, and the freeze of a pin that is low (R290). -/
def State.selfFinished (s : State) : State :=
  if s.chainStage = .serving ∧ s.selfDone = false ∧ s.selfPair = 4 then
    let s := { s with selfDone := true }.notify 1 0xFF
    if s.pinLow then { s with byPin := true }.startFreeze srcPin s.pinScope else s
  else s

def execSelftestComplete (sharedOk : Option Bool) (halls : Option (HallTest × HallTest)) (s : State) : Out :=
  .next (match sharedOk, halls with
    | some ok, none => s.sharedTested ok
    | some ok, some (a, b) => (s.sharedTested ok).pairTested a b
    | none, some (a, b) => s.pairTested a b
    | none, none => s.selfFinished)

abbrev offSelfCtrl : Nat := 0x0000108

/-- The hall leaves service for its test. -/
def State.outOfService (s : State) (h : Nat) : State :=
  if s.hallOk h then
    (({ s.modHall h Hall.gate with hallmap := s.hallmap &&& ~~~(1#8 <<< h) }).ringDown ((h + 7) % 8) 4).ringDown ((h + 1) % 8) 3
  else s

/-- The halls that are to be tested are tested pair by pair, one hall of a die at a time (Table 10-2, step 7): where none is
running, those of the lowest pair start. -/
def State.nextTests (s : State) : State :=
  let want := (List.range 8).filter s.testing.getLsbD
  if want.any fun h => (s.hall h).test.result == 3 then s
  else match (List.range 4).find? fun k => want.contains k || want.contains (k + 4) with
    | none => s
    | some k => ([k, k + 4].filter want.contains).foldl State.startTest s

/-- A partition includes the hall. -/
def State.inPartition (s : State) (h : Nat) : Bool :=
  ((List.range 8).map (· + 1)).any fun v =>
    (s.part v).bindReq && ((List.range (2 ^ (s.part v).size)).map ((s.part v).base + ·)).contains h

/-- PRT_SELFTEST_CTRL (Table 10-7, R297). -/
def State.writeSelfCtrl (s : State) (f : Fn) (halls : Byte) (go : Bool) : State :=
  if f ≠ 0 then s.accessErr f
  else if s.freezing ∧ (go ∨ s.heldAt offSelfCtrl) then s.record f offSelfCtrl (BitVec.ofNat 32 (halls.toNat + 256 * b2n go))
  else
    let named := (List.range 8).filter halls.getLsbD
    if named.any s.inPartition || (go && s.selfBusy) then s.accessErr f
    else if !go then { s with selfHalls := halls }
    else
      (named.foldl State.outOfService { s with selfHalls := halls, testing := halls, selfBusy := !named.isEmpty }).nextTests

def execSelftestGo (fn : Fn) (halls : Byte) (s : State) : Out := .next (s.writeSelfCtrl fn halls true)

/-- One hall's repeated test ends, and the next pair's starts. -/
def State.retested (s : State) (h : Nat) (r : HallTest) : State :=
  if s.testing.getLsbD h ∧ (s.hall h).test.result = 3 then
    let s := (s.hallTested h r).countTests
    let t := s.testing &&& ~~~(1#8 <<< h)
    { s with testing := t, selfBusy := t != 0 }.nextTests
  else s

/-- Porter starts the test by itself on a hall that it suspects, which is lost first (Table 09-1, LBIST on demand). When it
suspects one is open: the operand says it (log 112). -/
def State.suspect (s : State) (h : Nat) : State :=
  if s.selfDone ∧ s.testing.getLsbD h = false then
    let s := s.loseHall h
    { s with testing := s.testing ||| (1#8 <<< h), selfBusy := true }.nextTests
  else s

def execHallTestComplete (hall : Nat) (r : Option HallTest) (s : State) : Out :=
  .next (match r with
    | some r => s.retested hall r
    | none => s.suspect hall)

/-! ### Supplies, temperatures and the core voltage (R330 to R333, R339) -/

/-- Table 12-8: a freeze, the NOTIFY, VCORE_EN low, and the device held until SYS_RESET_N or power-on. A trip is the same whatever is
in progress (R340): its NOTIFY leaves whether or not Porter runs, since VIO feeds the chain interface. DESIGN CHOICE: that interface
forwards by its reset path from then on, and the WALKs that it holds leave so (log 111). -/
def State.trip (s : State) : State :=
  if s.tripped then s
  else
    let was := s.freezing
    let s := s.startFreeze srcPorter false
    let s := s.chainPut (sealChain (s.notice 3 0xFF))
    let t := ({ s with vcoreEn := false, tripLow := true, tripped := true }.hardReset 4 false)
    { t with frozenAt := was }.flushWalks

def execSupplyThermalTrip (_cause : Nat) (s : State) : Out := .next s.trip

/-- The power ceiling: Porter's own, and no voltage whose power at the last current read back is above 1,300 W, in mV and mA. DESIGN
CHOICE: R331 gives the limits of the ceilings and not how Porter forms them; the operands bring Porter's figures, and the model holds
them to what the limits force at the present readings (log 146). -/
def State.powerCeil (s : State) (m : Sensors) : Nat :=
  let ma := if m.avsOk then m.vcoreMa else s.vcoreMa
  if ma = 0 then m.powerCeil else min m.powerCeil (1300000000 / ma)

/-- The thermal ceiling: Porter's own, and below the present voltage while a compute junction is above 100 °C or a stack above 85 °C
(log 146). -/
def State.thermalCeil (s : State) (m : Sensors) : Nat :=
  if 100 < m.tjMax ∨ 85 < m.hbmMax then min m.thermalCeil ((if m.avsOk then m.vcoreMv else s.target) - 1) else m.thermalCeil

/-- R331: the lowest ceiling, in steps of 5 mV within 0.65 to 0.90 V. -/
def State.coreTarget (s : State) (m : Sensors) : Nat :=
  let c := min (min 900 (s.powerCeil m)) (min (s.thermalCeil m) (if s.throttle then 720 else 900))
  max 650 (c / 5 * 5)

/-- A reading beyond the absolute maximum ratings of Table 12-6, mV and °C. VCORE has a reading only where its AVSBus transaction
succeeded. -/
def Sensors.stress (m : Sensors) : Bool :=
  (m.avsOk && decide (1000 < m.vcoreMv)) || decide (1050 < m.vsramMv) || decide (125 < m.tjMax) || decide (105 < m.hbmMax)

/-- A temperature that trips (R339). -/
def Sensors.hot (m : Sensors) : Bool := decide (115 ≤ m.tjMax) || decide (95 ≤ m.hbmMax)

/-- A reading that trips (R333, R339). -/
def Sensors.trips (m : Sensors) : Bool :=
  (m.avsOk && (decide (m.vcoreMv < 620) || decide (950 < m.vcoreMv))) || decide (m.vsramMv < 855) || decide (945 < m.vsramMv) || Sensors.hot m

/-- One interval of 100 µs. A failed AVSBus transaction brings no reading of VCORE; three in a row trip. -/
def State.ceiling (s : State) (m : Sensors) : State :=
  let n := if m.avsOk then 0 else s.avsFails + 1
  let s := { s with
    vcoreMv := if m.avsOk then m.vcoreMv else s.vcoreMv, vcoreMa := if m.avsOk then m.vcoreMa else s.vcoreMa, tjMax := m.tjMax,
    tjHall := m.tjHall, target := s.coreTarget m, avsFails := n }
  if Sensors.trips m ∨ 3 ≤ n then s.trip else s

/-- Porter runs from step 3 of Table 10-2 on. -/
def State.porterRuns (s : State) : Bool := s.chainStage == .starting || s.chainStage == .serving

/-- An interval in which Porter does not run. A trip is the same whatever is in progress (R340). DESIGN CHOICE: a device in bypass, whose
supplies are up, trips on any reading that trips; before step 3, while the rails may ramp (Table 12-4), on temperatures alone
(log 147). -/
def State.watch (s : State) (m : Sensors) : State :=
  if (if s.chainStage = .bypass then Sensors.trips m else Sensors.hot m) then s.trip else s

def execVcoreCeilingUpdate (m : Sensors) (s : State) : Out :=
  if Sensors.stress m then .fault .stressBeyondRatings
  else .next (if s.porterRuns then s.ceiling m else s.watch m)

/-- THROTTLE_N: while Porter has the bus (R330), and not after a trip (R340), its fall lowers the target at once; its release
waits for the next interval (R332). -/
def execThrottleN (low : Bool) (s : State) : Out :=
  .next { s with throttle := low, target := if low && s.porterRuns && !s.tripped then min s.target 720 else s.target }

/-! ### Configuration requests (R308, R309) -/

/-- Header of an extended capability: its number, version, and the offset of the next. -/
def extCap (id ver next : Nat) : Nat := id + 2 ^ 16 * ver + 2 ^ 20 * next

/-- Base address registers (R308), the virtual functions' in the SR-IOV capability at 0x160: the address bits that the size
leaves, and the type. BAR0 has 16 MiB, 64 bits, not prefetchable; BAR2 has 64 GiB, 64 bits, prefetchable. -/
def barBits : Nat → Option (Nat × Nat)
  | 0x10 | 0x184 => some (0xFF000000, 4)
  | 0x14 | 0x188 => some (0xFFFFFFFF, 0)
  | 0x18 | 0x18C => some (0, 12)
  | 0x1C | 0x190 => some (0xFFFFFFF0, 0)
  | _ => none

/-- Bits of configuration space that R308 fixes, as (offset, bits, their values): identity, 64 GT/s, every lower speed, x16 and
FLIT mode in the PCI Express capability at 0x50, L0p in Device 3 at 0x1D0, 2,048 MSI-X vectors at 0x90, AER at 0x100, and of the
physical function SR-IOV at 0x160 and DOE at 0x1A0. The lists name no ATS (0x0F) and no PRI (0x13). The layouts and the offsets
are PRESUMED (log 103). -/
def State.cfgFixed (s : State) (f : Fn) : List (Nat × Nat × Nat) :=
  [(0x00, 0xFFFF0000, if f = 0 then 0x00820000 else 0x00830000), (0x04, 0x00100000, 0x00100000), (0x08, 0xFFFFFF00, 0x12000000),
   (0x34, 0xFF, 0x40), (0x40, 0xFFFF, 0x5001), (0x50, 0x8000FFFF, 0x80009010), (0x5C, 0x3FF, 0x106), (0x7C, 0xFE, 0x7E),
   (0x90, 0x07FFFFFF, 0x07FF0011)]
  ++ (if f = 0 then
    [(0x100, 0xFFFFFFFF, extCap 1 3 0x160), (0x160, 0xFFFFFFFF, extCap 0x10 1 0x1A0), (0x168, 1, b2n s.vfEnable),
     (0x16C, 0xFFFFFFFF, 8 + 2 ^ 16 * 8), (0x170, 0xFFFF, s.numVFs), (0x174, 0xFFFFFFFF, 1 + 2 ^ 16 * 1),
     (0x178, 0xFFFF0000, 0x00830000), (0x1A0, 0xFFFFFFFF, extCap 0x2E 2 0x1D0), (0x1D0, 0xFFFFFFFF, extCap 0x2F 1 0),
     (0x1D4, 8, 8)]
    else [(0x100, 0xFFFFFFFF, extCap 1 3 0x1D0), (0x1D0, 0xFFFFFFFF, extCap 0x2F 1 0), (0x1D4, 8, 8)])

/-- What configuration space reads. The Vendor ID and the revision are the physical function's; base address registers are its
alone, and every other one reads zero. -/
def State.cfgValue (s : State) (f : Fn) (reg : Nat) : Word :=
  let w := if reg = 0 ∨ reg = 8 then Config.cfgWord 0 reg else if reg < 0x40 then Config.cfgWord f reg else Config.capWord f reg
  match (if f = 0 then barBits reg else none) with
  | some b => (tabGet 0 s.bars reg &&& BitVec.ofNat 32 b.1) ||| BitVec.ofNat 32 b.2
  | none =>
    if 0x10 ≤ reg ∧ reg < 0x28 then 0
    else match (s.cfgFixed f).find? fun e => e.1 == reg with
      | some e => (w &&& ~~~(BitVec.ofNat 32 e.2.1)) ||| BitVec.ofNat 32 e.2.2
      | none => w

/-- Request Retry Status until self-test is done; NumVFs is 1 to 8 and changes only while VF Enable is 0. -/
def State.config (s : State) (f : Fn) (r : CfgReq) : State :=
  if s.linkStat = 0 then s
  else if !s.selfDone then { s with cfgRetry := true }
  else
    let s := { s with cfgRetry := false }
    match r with
    | .read reg =>
      if f = 0 ∨ (s.vfEnable ∧ f ≤ s.numVFs) then s.answer (natLE (s.cfgValue f reg).toNat 4)
      else s.answer (natLE 0xFFFFFFFF 4)
    | .bar reg v => if f = 0 ∧ (barBits reg).isSome then { s with bars := tabSet s.bars reg v } else s
    | .sriov n en =>
      if f ≠ 0 then s
      else
        let s := if s.vfEnable ∨ 8 < n then s else { s with numVFs := n }
        { s with vfEnable := en }

def execConfigRequest (fn : Fn) (r : CfgReq) (s : State) : Out := .next (s.config fn r)

/-! ### SPDM (R304) -/

/-- Request codes of DMTF's SPDM 1.2: GET_DIGESTS, GET_CERTIFICATE, CHALLENGE, GET_VERSION, GET_MEASUREMENTS,
GET_CAPABILITIES, NEGOTIATE_ALGORITHMS. PRESUMED (log 27). -/
def spdmCodes : List Nat := [0x81, 0x82, 0x83, 0x84, 0xE0, 0xE1, 0xE3]

/-- PRT_IDENT (Table 00-3). -/
abbrev prtIdent : Nat := 0x5A821001

def State.measurements (s : State) : List (List Byte) :=
  [Config.maskRomDigest,
   sha384 (Config.fuseImage (s.slots.map fun k => (k.provisioned, k.revoked, k.minver, k.digest))),
   sha384 Tables.canonical.sbImage, sha384 Tables.canonical.dbImage, sha384 Tables.canonical.alImage, natLE prtIdent 4]

/-- The responder's answer: with ECDSA P-384 and SHA-384 only, NEGOTIATE_ALGORITHMS selects these two; GET_DIGESTS gives the
digest of the certificate chain, GET_CERTIFICATE the chain. CHALLENGE, and GET_MEASUREMENTS where the request asks, are signed
with the identity key. -/
def State.spdmAnswer (s : State) (code : Nat) (param : List Byte) : State :=
  if s.selfDone ∧ s.linkStat ≠ 0 then
    let ok := spdmCodes.contains code
    let body := if ok then Config.spdmBody code param else []
    let rsp : SpdmRsp :=
      { code := code, ok := ok, meas := if code = 0xE0 then s.measurements else [], body := body,
        algs := if code = 0xE3 then (0x80, 0x02) else (0, 0),
        digest := if code = 0x81 then sha384 s.fuses.certChain else [],
        chain := if code = 0x82 then s.fuses.certChain else [],
        signature := if code = 0x83 ∨ (code = 0xE0 ∧ u8 param 0 % 2 = 1) then
            Config.ecdsaSign s.fuses.idPrivate (param ++ body) else [] }
    { s with spdm := some rsp }
  else s

def execSpdmRequest (code : Nat) (param : List Byte) (s : State) : Out := .next (s.spdmAnswer code param)

end Sys2Proof.Machine
end

