-- ==== Sys2Proof/Machine/Regs.lean ====
section
/-! DEFINITION. BAR0: where each register lies, who may reach it, what it reads and what a write does (R4, R9, R10, R310 to
R322 and the register tables). -/

namespace Sys2Proof.Machine

/-! ### The map (Tables 00-7 and 11-1) -/

/-- The block that a BAR0 offset lies in, with the offset within it. -/
inductive Area where
  | prt (off : Nat)
  | vst (off : Nat)
  | job (q : Page) (off : Nat)
  | part (v : Fn) (off : Nat)
  | hall (h off : Nat)
  | page (q : Page) (off : Nat)
  | none
deriving DecidableEq, Repr

def areaOf (off : Nat) : Area :=
  if off < 0x1000 then .prt off
  else if off < 0x2000 then .vst (off - 0x1000)
  else if 0x20000 ≤ off ∧ off < 0x20800 then .job ((off - 0x20000) / 0x10) (off % 0x10)
  else if 0x30000 ≤ off ∧ off < 0x30200 then .part ((off - 0x30000) / 0x40 + 1) (off % 0x40)
  else if 0x100000 ≤ off ∧ off < 0x900000 then .hall ((off - 0x100000) / 0x100000) (off % 0x100000)
  else if 0x900000 ≤ off ∧ off < 0x980000 then .page ((off - 0x900000) / 0x1000) (off % 0x1000)
  else .none

/-- What a register reads: a word, or a half of a 64-bit counter (R10). -/
inductive RegVal where
  | word (n : Nat)
  | low (d : DWord)
  | high
deriving DecidableEq, Repr

def assoc {α : Type} (k : Nat) : List (Nat × α) → Option α
  | [] => Option.none
  | (j, x) :: r => if k = j then some x else assoc k r

/-- Both halves of a counter. -/
def counter (off : Nat) (d : DWord) : List (Nat × RegVal) := [(off, .low d), (off + 4, .high)]

/-- Both halves of a register pair that is not a counter. -/
def pair (off n : Nat) : List (Nat × RegVal) := [(off, .word (n % 2 ^ 32)), (off + 4, .word (n / 2 ^ 32 % 2 ^ 32))]

/-! ### Values: Porter and Vestibule -/

def hallTestWord (t : TestOut) : Nat :=
  t.result + 4 * b2n t.mbist + 8 * b2n t.lbist + 16 * b2n t.hbm + 32 * b2n t.power

def KeySlot.word (k : KeySlot) : Nat := b2n k.provisioned + 2 * b2n k.revoked + 256 * k.minver

def State.freezeStat (s : State) : Nat :=
  b2n s.frozen + 2 * b2n s.holding + 4 * s.frzSource + 16 * b2n s.frzLanding + 256 * s.frzCount

/-- PRT_FAMPAR (Table 00-4). -/
abbrev prtFampar : Nat := 0x08404040

def State.prtRegs (s : State) : List (Nat × RegVal) :=
  List.flatten
    [[(0x000, .word prtIdent), (0x004, .word prtFampar), (0x008, .word s.hallmap.toNat),
      (0x100, .word (s.resetCause + 8 * b2n s.frozenAt + 256 * s.warmCnt)),
      (0x104, .word (b2n s.selfDone + 2 * b2n s.selfBusy + 256 * s.hallFail.toNat + 2 ^ 16 * s.galFenced + 2 ^ 24 * s.repairs)),
      (0x108, .word s.selfHalls.toNat)],
     (List.range 8).map fun h => (0x110 + 4 * h, RegVal.word (hallTestWord (s.hall h).test)),
     [(0x130, .word (s.chainAddr.toNat + 2 ^ 31 * b2n s.chainValid)), (0x134, .word s.echoPort.toNat),
      (0x138, .word (b2n s.echoDone + 2 * b2n s.echoTimeout + 4 * b2n s.echoUnaddr + 8 * s.echoIn + 512 * s.echoSrc))],
     counter 0x140 Config.devid,
     (List.range 4).map fun k => (0x150 + 4 * k, RegVal.word (s.keySlot k).word),
     pair 0x160 s.keyAddr.toNat,
     [(0x168, .word 0),
      (0x16C, .word (b2n (s.keyWait || s.keyBurn.isSome) + 2 * b2n s.keyDone + 2 ^ 16 * s.keyCode))],
     counter 0x170 (Config.nonce s.keyDraws),
     [(0x180, .word (4 * b2n s.scope + 8 * b2n s.pinScope + 16 * b2n s.sbAccept)), (0x184, .word s.freezeStat),
      (0x190, .word s.rdwSel.toNat)],
     pair 0x194 s.rdwAddr.toNat,
     counter 0x1A0 s.time,
     [(0x1B0, .word (s.vcoreMv % 4096 + 2 ^ 16 * tc 8 s.tjMax + 2 ^ 24 * (s.tjHall % 8)))]]

def State.vstRegs (s : State) (f : Fn) : List (Nat × RegVal) :=
  [(0x0, .word (s.fn f).accessErr), (0x4, .word s.linkStat.toNat), (0x8, .word (s.fn f).bar2Hall)]

/-- The job holds the partition. -/
def State.holds (s : State) (q : Page) : Bool := (s.part (pageFn q)).holder == some (pageJob q)

def State.jobRegs (s : State) (q : Page) : List (Nat × RegVal) :=
  let j := s.job q
  [(0x0, .word (b2n j.resident + 2 * b2n j.wcommon + 4 * b2n j.resErr + 256 * b2n (s.holds q)
      + 512 * b2n (s.holds q && (s.part (pageFn q)).sliceOver))),
   (0x4, .word j.slice), (0x8, .word (j.preempts + 2 ^ 16 * j.lastOverrun + 2 ^ 22 * b2n j.watchdog))]

def State.partRegs (s : State) (v : Fn) : List (Nat × RegVal) :=
  let p := s.part v
  [(0x00, .word (p.base + 8 * p.size + 256 * b2n p.bindReq)),
   (0x04, .word (b2n p.bound + 2 * b2n p.bindErr + 4 * b2n p.plan.isSome + 8 * b2n p.loading.isSome
      + 256 * (s.residents v).length)),
   (0x08, .word (p.scState + 4 * p.scLeg + 8 * p.scCause + 256 * p.mismatch + 2 ^ 16 * p.relays)), (0x0C, .word 0)]

/-- A command of the job waits for a completion slot. -/
def State.waitsSlot (s : State) (q : Page) : Bool :=
  (s.job q).cqFull && (match (s.job q).cmds with
    | [] => false
    | c :: _ => c.failed || (c.dispatched && s.workDone q c))

def State.pageRegs (s : State) (q : Page) : List (Nat × RegVal) :=
  let j := s.job q
  List.flatten
    [[(0x00, .word j.sqTail), (0x04, .word j.sqHead), (0x08, .word j.cqHead), (0x0C, .word j.cqTail),
      (0x10, .word (b2n j.enable + 8 * b2n j.irqAll)),
      (0x14, .word (b2n j.enabled + 2 * b2n j.halted + 4 * b2n (!j.cmds.isEmpty) + 8 * b2n (s.waitsSlot q) + 16 * b2n j.cfgErr
         + 2 ^ 16 * j.haltCode)),
      (0x18, .word (j.sqLog2 + 16 * j.cqLog2 + 256 * b2n j.sqHbm + 512 * b2n j.cqHbm)), (0x1C, .word j.msix)],
     pair 0x20 j.sqBase, pair 0x28 j.cqBase, [(0x30, .word j.timeoutDef)],
     counter 0x34 (BitVec.ofNat 64 j.commits), [(0x3C, .word j.raceCnt)]]

/-! ### Values: one hall -/

def State.hallPlan (s : State) (h : Nat) : Option Plan := (s.ownerOf h).bind fun v => (s.part v).plan

/-- The scale-table entry that HALL_SCALE_SEL names; a face that no command has written shows its descriptor's words. -/
def Hall.selEnt (H : Hall) : ScaleEnt :=
  match (H.scale.find? fun e => e.1 == H.scaleSel).map (·.2) with
  | some e => e
  | none => match H.gens.find? fun g => g.tensor == H.scaleSel with
    | some g => ⟨g.d.w.coarse, g.d.w.coarse, g.d.affRaw, g.d.affRaw, [], H.faceOf g.d.pair, false⟩
    | none => ⟨0, 0, 0, 0, [], 0, false⟩

def State.scaleWord (s : State) (h : Nat) : Nat :=
  let H := s.hall h
  let t := H.scaleSel
  match s.hallPlan h with
  | none => 0
  | some p =>
    if (p.tensor? t).isSome ∧ (p.managed t ∨ (p.fmtOf t).derive_) then
      let e := H.selEnt
      tc 8 e.c0 + 256 * tc 8 e.c1 + 2 ^ 16 * (e.face % 2) + 2 ^ 17 * min 64 e.hist.length + 2 ^ 31
    else 0

def State.scaleAff (s : State) (h : Nat) (face : Nat) : Nat :=
  let H := s.hall h
  match s.hallPlan h with
  | none => 0
  | some p => if (p.tensor? H.scaleSel).isSome ∧ (p.fmtOf H.scaleSel).zi then (if face = 0 then H.selEnt.a0 else H.selEnt.a1) else 0

/-- Strikes within the current window (R89). -/
def State.strikesNow (s : State) (h g : Nat) : Nat :=
  let H := s.hall h
  let x := H.gal g
  if x.strikes = 1 ∧ s.strikeWin h ≤ H.commits - x.firstStrike then 0 else x.strikes

def State.galRegs (s : State) (h g : Nat) : List (Nat × RegVal) :=
  let x := (s.hall h).gal g
  [(0x0, .word (s.strikesNow h g + 4 * b2n x.fenced + 8 * b2n x.serves.isSome + 256 * x.skip + 2 ^ 16 * x.parity
      + 2 ^ 24 * x.mismatch)),
   (0x4, .word (b2n x.powered + 2 * x.role + 8 * (if x.role = 1 then x.stage else 0) + 256 * x.escape.length))]

def portWord (p : Port) : Nat :=
  let m := if p.up then p.lanes else 0
  m.toNat + 256 * lanesOf m + 2 ^ 12 * b2n p.up + 2 ^ 13 * b2n p.degraded + 2 ^ 14 * b2n p.downEvt + 2 ^ 16 * min 0xFFFF p.retries

def hallJobRegs (j : HJob) : List (Nat × RegVal) :=
  [(0x00, .word j.hbmBase), (0x04, .word j.hbmSize), (0x08, .word j.rows), (0x0C, .word (j.bayBase + 2 ^ 16 * j.bayCount)),
   (0x10, .word j.ledger)]

def eccWord (corr unc poison : Nat) : Nat := corr + 2 ^ 16 * unc + 2 ^ 24 * min 255 poison

/-- Registers of the fixed part of a hall (Table 11-8). No NEWEL or RISER operation is running between two commands. -/
def State.hallFixed (s : State) (h : Nat) : List (Nat × RegVal) :=
  let H := s.hall h
  List.flatten
    [counter 0x0 (((s.hallPlan h).map Plan.planId).getD 0), counter 0x8 H.step,
     [(0x10, .word H.tableStat.toNat), (0x14, .word H.baySplit), (0x18, .word H.scaleSel), (0x1C, .word (s.scaleWord h))],
     pair 0x20 H.shrBase, [(0x28, .word H.shrSlot), (0x2C, .word H.shrHead)],
     pair 0x30 H.xlogBase, [(0x38, .word H.xlogSize), (0x3C, .word H.xlogHead)],
     [(0x40, .word (H.concCount + 2 ^ 16 * H.concTarget + 2 ^ 31 * b2n H.concAlert)),
      (0x44, .word (eccWord H.hbmCorr H.hbmUncorr H.poison.length)), (0x48, .word (s.scaleAff h 0)), (0x4C, .word (s.scaleAff h 1)),
      (0x10000, .word (eccWord H.uncCorr H.uncUncorr H.poisonRows.length)),
      (0x10004, .word (((s.hallPlan h).map Plan.staging).getD 0 + 2 ^ 16 * s.twinsInUse h)),
      (0x11000, .word (H.nwlResidue + 0x2000)), (0x12000, .word (H.rsrResidue + 0x2000))],
     pair 0x12004 H.holdBase, [(0x1200C, .word H.holdSegs)], counter 0x12010 (BitVec.ofNat 64 H.rsrElems),
     (List.range 5).flatMap fun i => [(0x13000 + 8 * i, RegVal.word (portWord (H.port i))),
        (0x13004 + 8 * i, RegVal.word (2 * b2n (H.port i).holdDown))],
     pair 0x13040 H.clogBase, [(0x13048, .word H.clogSize), (0x1304C, .word H.clogHead)],
     pair 0x13050 H.mezzBase,
     [(0x13058, .word H.mezzSize), (0x1305C, .word (b2n H.mezzOn + 2 * H.mezzHall + 256 * H.mezzAddr))],
     (List.range 16).map fun j => (0x13100 + 4 * j, RegVal.word ((H.job j).epoch + 2 ^ 31 * b2n (s.epochBusy h j)))]

def State.hallReg (s : State) (h off : Nat) : Option RegVal :=
  if 0x8000 ≤ off ∧ off < 0x8200 then assoc (off % 0x20) (hallJobRegs ((s.hall h).job ((off - 0x8000) / 0x20)))
  else if 0x40000 ≤ off ∧ off < 0x41000 then assoc (off % 0x40) (s.galRegs h ((off - 0x40000) / 0x40))
  else assoc off (s.hallFixed h)

/-- What an area's register reads for a function; none where the offset names no register. PRT_RDWIN_DATA stands apart. -/
def State.regAt (s : State) (f : Fn) : Area → Option RegVal
  | .prt off => assoc off s.prtRegs
  | .vst off => assoc off (s.vstRegs f)
  | .job q off => assoc off (s.jobRegs q)
  | .part v off => assoc off (s.partRegs v)
  | .hall h off => s.hallReg h off
  | .page q off => assoc off (s.pageRegs q)
  | .none => Option.none

/-! ### Who may read (R146, R310) -/

def State.mayRead (s : State) (f : Fn) (a : Area) : Bool :=
  f == 0 || (match a with
    | .prt off => [0x0, 0x4, 0x8, 0x1A0, 0x1A4].contains off
    | .vst _ => true
    | .job q _ => pageFn q == f
    | .part v _ => v == f
    | .hall h _ => s.ownerOf h == some f
    | .page q _ => pageFn q == f
    | .none => true)

def Area.isPage : Area → Bool
  | .page _ _ => true
  | _ => false

/-! ### The read-out window (R284, R317, Table 11-9) -/

/-- Data, scale strip, witness rows and header of a bay (Tables 03-1 to 03-5). Tiles stand one after another, rows in
order, codes packed from bit 0 on. -/
def Bay.data (b : Bay) : List Byte := b.codes.flatMap (packCodes b.fmt)
def Bay.strip (b : Bay) : List Byte := b.fines.flatMap fun l => l.flatMap fun c => natLE c 1
def Bay.witBytes (b : Bay) : List Byte :=
  b.wit.flatMap fun l => l.flatMap fun w => natLE w (if fmtIsZI b.fmt then 4 else 2)
def Bay.header (b : Bay) : List Byte :=
  natLE (b2n b.valid + 2 * b.fmt + 256 * tc 8 b.coarse + 2 ^ 16 * b.tensor + 2 ^ 32 * (b.gen % 2 ^ 16)
    + 2 ^ 48 * tc 8 (b.fmax.getD 0 0) + 2 ^ 56 * tc 8 (b.fmax.getD 1 0)) 8

/-- A tag as Table 03-8 lays it out. -/
def Tag.bytes (t : Tag) : List Byte :=
  natLE (t.pass + 2 ^ 14 * t.acc + 2 ^ 18 * t.sfmt + 2 ^ 22 * t.slots + 2 ^ 24 * t.state
    + 2 ^ 28 * (t.occ.map (2 ^ ·)).sum + 2 ^ 36 * t.chunks + 2 ^ 49 * t.count) 8

/-- Four bytes of a space from an address on: they run on into the next entry. -/
def word4 (byte : Nat → Byte) (a : Nat) : List Byte := (List.range 4).map fun i => byte (a + i)

/-- Words that running commands have drawn on a lane of a hall. -/
def State.drawn (s : State) (h : Nat) (ok : Page → Bool) (pick : Attempt → List (Nat × Nat × Nat)) (lane : Nat) : Nat :=
  match s.ownerOf h with
  | none => 0
  | some v => ((s.running v).map fun x =>
      if ok x.1 then (((pick x.2.att).filter fun d => d.1 == h && d.2.1 == lane).map fun d => d.2.2).sum else 0).sum

/-- Size of each space in bytes. -/
def spaceSize : Nat → Nat
  | 0 => 0xC00000000
  | 1 => 512 * 8192
  | 2 => 512 * 512
  | 3 => 512 * 1024
  | 4 => 512 * 8
  | 5 => 65536 * 256
  | 6 => 65536 * 8
  | 7 => 0x1000000
  | 8 => 16 * 32 * 16
  | 9 => 32 * 16
  | _ => 0

/-- The bytes of a space that no rule lays out are free (log 29): the Concourse's buffers and poisoned granules. -/
def State.freeBytes (s : State) (n : Nat) : List Byte × State :=
  ((List.range n).map fun i => Config.freeByte (s.free + i), { s with free := s.free + n })

/-- A byte of a space whose entries are bays of a size; bytes that nothing has written read zero. -/
def bayByte (G : Gal) (size : Nat) (pick : Bay → List Byte) (a : Nat) : Byte :=
  match (G.bays.find? (·.1 == a / size)).map (·.2) with
  | some b => (pick b).getD (a % size) 0
  | none => 0

/-- Twins that running commands hold in a hall. -/
def State.twinsHeld (s : State) (h : Nat) : List Twin :=
  match s.ownerOf h with
  | none => []
  | some v => (s.running v).flatMap fun x => x.2.att.twins.filter (·.hall == h)

/-- What stands in a physical row: a running command's twin, or the row. -/
def State.rowShown (s : State) (h p : Nat) : URow :=
  match (s.twinsHeld h).find? fun t => t.phys == p with
  | some t => t.row
  | none => (s.hall h).row p

/-- A physical row holds no data to show: it is poisoned, and no twin stands in it. -/
def State.rowDark (s : State) (h p : Nat) : Bool :=
  (s.hall h).poisonRows.contains p && !(s.twinsHeld h).any fun t => t.phys == p

/-- A byte of the sampler space, and of the Riser's: 16 bytes a lane, its counter and the words drawn. -/
def State.samplerByte (s : State) (h a : Nat) : Byte :=
  let k := a / 16
  (natLE (tabGet 0 (s.hall h).sampler k) 8 ++ natLE (s.drawn h (fun q => pageJob q == k / 32) Attempt.sampDraw (k % 32)) 8).getD
    (a % 16) 0
def State.riserByte (s : State) (h a : Nat) : Byte :=
  let l := a / 16
  (natLE (tabGet 0 (s.hall h).riser l).toNat 8 ++ natLE (s.drawn h (fun _ => true) Attempt.riserDraw l) 8).getD (a % 16) 0

/-- The four bytes at ADDR of the selected space. -/
def State.spaceRead (s : State) (space h g a : Nat) : List Byte × State :=
  let H := s.hall h
  let G := H.gal g
  match space with
  | 0 => if H.poisoned (a, 4) then s.freeBytes 4 else (memReads H.hbm a 4, s)
  | 1 => (word4 (bayByte G 8192 Bay.data) a, s)
  | 2 => (word4 (bayByte G 512 Bay.strip) a, s)
  | 3 => (word4 (bayByte G 1024 Bay.witBytes) a, s)
  | 4 => (word4 (bayByte G 8 Bay.header) a, s)
  | 5 =>
    if s.rowDark h (a / 256) || s.rowDark h ((a + 3) / 256) then s.freeBytes 4
    else (word4 (fun x => ((s.rowShown h (x / 256)).data.flatMap fun w => natLE w.toNat 4).getD (x % 256) 0) a, s)
  | 6 => (word4 (fun x => (s.rowShown h (x / 8)).tag.bytes.getD (x % 8) 0) a, s)
  | 8 => (word4 (s.samplerByte h) a, s)
  | 9 => (word4 (s.riserByte h) a, s)
  | _ => s.freeBytes 4

/-- A read of PRT_RDWIN_DATA: the word, and the state with ADDR raised. -/
def State.rdwin (s : State) (f : Fn) : Word × State :=
  let sel := s.rdwSel.toNat
  let a := s.rdwAddr.toNat
  let space := fld sel 8 4
  if f ≠ 0 ∨ !s.frozen ∨ spaceSize space < a + 4 then (0xFFFFFFFF, s.accessErr f)
  else
    let (b, t) := s.spaceRead space (fld sel 0 3) (fld sel 16 6) a
    (BitVec.ofNat 32 (leNat b), { t with rdwAddr := t.rdwAddr + 4 })

/-! ### Reading -/

/-- A read by function f; the high half of a counter is latched under lf (R10). -/
def State.readReg (s : State) (f lf : Fn) (off : Nat) : Word × State :=
  let a := areaOf off
  if a.isPage && !s.mayRead f a then (0xFFFFFFFF, s.accessErr f)
  else if a = .prt 0x19C then s.rdwin f
  else match s.regAt f a with
    | none => (0, s)
    | some r =>
      if !s.mayRead f a then (0xFFFFFFFF, s.accessErr f)
      else match r with
        | .word n => (BitVec.ofNat 32 n, s)
        | .low d => (d.setWidth 32, s.modFn lf fun x => { x with latch := tabSet x.latch off (BitVec.ofNat 32 (d.toNat / 2 ^ 32)) })
        | .high => (tabGet 0 (s.fn lf).latch (off - 4), s)

/-- A read that a function makes, answered (R9). -/
def State.read (s : State) (f : Fn) (off : Nat) : State :=
  if off % 4 ≠ 0 then (s.accessErr f).answer (natLE 0xFFFFFFFF 4)
  else
    let (w, t) := s.readReg f f off
    t.answer (natLE w.toNat 4)

def execCounterLowRead (fn : Fn) (off : Nat) (s : State) : Out := .next (s.read fn off)
def execRdwinDataRead (fn : Fn) (s : State) : Out := .next (s.read fn 0x19C)

/-! ### Writing: pages (R146 to R149) -/

def setLo (n v : Nat) : Nat := n / 2 ^ 32 * 2 ^ 32 + v
def setHi (n v : Nat) : Nat := n % 2 ^ 32 + v * 2 ^ 32

/-- A ring register, writable while ENABLED is 0. -/
def State.writeRingReg (s : State) (f : Fn) (q : Page) (g : Job → Job) : State :=
  if (s.job q).enabled then s.accessErr f else s.modJob q g

def State.writePage (s : State) (f : Fn) (q : Page) (off : Nat) (v : Word) : State :=
  let n := v.toNat
  if off = 0x10 then s.writeCtrl f q v
  else if f ≠ pageFn q then s.accessErr f
  else match off with
    | 0x00 => s.writeTail f q v
    | 0x08 => s.writeCqHead f q v
    | 0x14 => if v.getLsbD 4 then s.modJob q fun j => { j with cfgErr := false } else s
    | 0x18 => s.writeRingReg f q fun j => { j with sqLog2 := fld n 0 4, cqLog2 := fld n 4 4, sqHbm := bit n 8, cqHbm := bit n 9 }
    | 0x1C => s.modJob q fun j => { j with msix := n % 2048 }
    | 0x20 => s.writeRingReg f q fun j => { j with sqBase := setLo j.sqBase n }
    | 0x24 => s.writeRingReg f q fun j => { j with sqBase := setHi j.sqBase n }
    | 0x28 => s.writeRingReg f q fun j => { j with cqBase := setLo j.cqBase n }
    | 0x2C => s.writeRingReg f q fun j => { j with cqBase := setHi j.cqBase n }
    | 0x30 => if 1 ≤ n ∧ n ≤ 10000000 then s.modJob q fun j => { j with timeoutDef := n } else s.accessErr f
    | _ => s

/-! ### Writing: Porter's blocks -/

/-- Bounds of a slice under the active plan, or without one (R253). -/
def State.sliceBounds (s : State) (v : Fn) : Nat × Nat :=
  match (s.part v).plan with
  | some p => (p.bounds.sliceMin, p.bounds.sliceMax)
  | none => (50, 1000000)

def State.writeJobBlock (s : State) (q : Page) (off : Nat) (v : Word) : State :=
  let n := v.toNat % 2 ^ 20
  match off with
  | 0x0 => s.writeJobCtrl 0 q v
  | 0x4 =>
    let b := s.sliceBounds (pageFn q)
    if n = 0 ∨ (b.1 ≤ n ∧ n ≤ b.2) then s.modJob q fun j => { j with slice := n } else s.accessErr 0
  | 0x8 => if v.getLsbD 22 then s.modJob q fun j => { j with watchdog := false } else s
  | _ => s

def State.writePartBlock (s : State) (v : Fn) (off : Nat) (w : Word) : State :=
  let n := w.toNat
  match off with
  | 0x0 => s.writeBind 0 v (fld n 0 3) (fld n 3 2) (bit n 8) (bit n 9)
  | 0x4 => if bit n 1 then s.modPart v fun p => { p with bindErr := false } else s
  | 0xC => s.writeScissor 0 v (bit n 0) (bit n 1) (bit n 2)
  | _ => s

/-- Porter's own registers, but for PRT_FREEZE_CTRL. -/
def State.writePrt (s : State) (off : Nat) (v : Word) : State :=
  let n := v.toNat
  match off with
  | 0x108 => s.writeSelfCtrl 0 (BitVec.ofNat 8 n) (bit n 8)
  | 0x134 => s.writeEcho 0 (BitVec.ofNat 6 n) (bit n 6)
  | 0x160 => { s with keyAddr := BitVec.ofNat 64 (setLo s.keyAddr.toNat n) }
  | 0x164 => { s with keyAddr := BitVec.ofNat 64 (setHi s.keyAddr.toNat n) }
  | 0x168 => s.writeKeyCtrl 0 v
  | 0x16C => if bit n 1 then { s with keyDone := false } else s
  | 0x190 => { s with rdwSel := v &&& 0x003F0F07 }
  | 0x194 => { s with rdwAddr := BitVec.ofNat 64 (setLo s.rdwAddr.toNat n) }
  | 0x198 => { s with rdwAddr := BitVec.ofNat 64 (setHi s.rdwAddr.toNat n) }
  | _ => s

/-! ### Writing: halls (R241, R246, R247, R319 to R322) -/

/-- A half of a base register: `free` is its "writable only while" condition. -/
def State.writeBase (s : State) (h : Nat) (free hi : Bool) (n : Nat) (g : Hall → Nat) (put : Hall → Nat → Hall) : State :=
  if !free ∨ (!hi && n % 65536 != 0) then s.accessErr 0
  else s.modHall h fun H => put H (if hi then setHi (g H) (n % 16) else setLo (g H) n)

/-- A register of a hall under its condition. -/
def State.putReg (s : State) (h : Nat) (ok : Bool) (g : Hall → Hall) : State := if ok then s.modHall h g else s.accessErr 0

def State.writeHallJob (s : State) (h j off n : Nat) : State :=
  let busy := match s.ownerOf h with
    | some v => (s.job (pageOf v j)).resident
    | none => false
  let put := fun (g : HJob → HJob) => if busy then s.accessErr 0 else s.modHJob h j g
  match off with
  | 0x0 => put fun J => { J with hbmBase := n % 2 ^ 20 }
  | 0x4 => put fun J => { J with hbmSize := n % 2 ^ 20 }
  | 0x8 => put fun J => { J with rows := n % 2048 }
  | 0xC => put fun J => { J with bayBase := fld n 0 9, bayCount := fld n 16 10 }
  | _ => s

/-- Base, size and configuration registers of a hall. -/
def State.writeHallFixed (s : State) (h off : Nat) (v : Word) : State :=
  let n := v.toNat
  let free := !s.inPartition h
  let noJob := match s.ownerOf h with
    | some w => (s.residents w).isEmpty
    | none => true
  let off_ := !(s.hall h).mezzOn
  match off with
  | 0x14 => s.putReg h noJob fun H => { H with baySplit := n % 1024 }
  | 0x18 => s.modHall h fun H => { H with scaleSel := n % 65536 }
  | 0x20 => s.writeBase h free false n Hall.shrBase fun H b => { H with shrBase := b, shrHead := 0 }
  | 0x24 => s.writeBase h free true n Hall.shrBase fun H b => { H with shrBase := b, shrHead := 0 }
  | 0x28 =>
    let k := n % 2 ^ 19
    s.putReg h (free && decide (2 ≤ k) && decide (k ≤ 262144)) fun H => { H with shrSlot := k }
  | 0x30 => s.writeBase h free false n Hall.xlogBase fun H b => { H with xlogBase := b, xlogHead := 0 }
  | 0x34 => s.writeBase h free true n Hall.xlogBase fun H b => { H with xlogBase := b, xlogHead := 0 }
  | 0x38 =>
    let k := n % 2 ^ 17
    s.putReg h (free && decide (256 ≤ k) && decide (k ≤ 65536) && isPow2 k) fun H => { H with xlogSize := k }
  | 0x40 => if v.getLsbD 31 then s.modHall h fun H => { H with concAlert := false } else s
  | 0x12004 => s.writeBase h free false n Hall.holdBase fun H b => { H with holdBase := b }
  | 0x12008 => s.writeBase h free true n Hall.holdBase fun H b => { H with holdBase := b }
  | 0x13040 => s.writeBase h free false n Hall.clogBase fun H b => { H with clogBase := b, clogHead := 0 }
  | 0x13044 => s.writeBase h free true n Hall.clogBase fun H b => { H with clogBase := b, clogHead := 0 }
  | 0x13048 =>
    let k := n % 2 ^ 15
    s.putReg h (free && decide (1 ≤ k) && decide (k ≤ 16384) && isPow2 k) fun H => { H with clogSize := k }
  | 0x13050 => s.writeBase h off_ false n Hall.mezzBase fun H b => { H with mezzBase := b }
  | 0x13054 => s.writeBase h off_ true n Hall.mezzBase fun H b => { H with mezzBase := b }
  | 0x13058 => s.putReg h off_ fun H => { H with mezzSize := n % 2 ^ 19 }
  | 0x1305C => s.writeMezzCfg 0 h (bit n 0) (BitVec.ofNat 3 (n / 2)) (BitVec.ofNat 18 (n / 256))
  | _ => s

def State.writeHall (s : State) (h off : Nat) (v : Word) : State :=
  if 0x8000 ≤ off ∧ off < 0x8200 then s.writeHallJob h ((off - 0x8000) / 0x20) (off % 0x20) v.toNat
  else if 0x13000 ≤ off ∧ off < 0x13028 then
    let i := (off - 0x13000) / 8
    if off % 8 = 0 then (if v.getLsbD 14 then s.modPort h i fun p => { p with downEvt := false } else s)
    else s.portCtrl 0 h i (v.getLsbD 0) (v.getLsbD 1)
  else s.writeHallFixed h off v

/-! ### Writing -/

/-- CNC_JOB_EPOCH of job j. -/
def epochJob (off : Nat) : Option Nat := if 0x13100 ≤ off ∧ off < 0x13140 then some ((off - 0x13100) / 4) else none

/-- A write by a function at an aligned offset, but for PRT_FREEZE_CTRL (R4, R310, R311). -/
def State.writeRest (s : State) (f : Fn) (off : Nat) (v : Word) : State :=
  let a := areaOf off
  match a with
  | .page q o => s.writePage f q o v
  | .vst o => if o = 0x8 then s.modFn f fun x => { x with bar2Hall := v.toNat % 8 } else if (s.regAt f a).isSome ∧ f ≠ 0 then s.accessErr f else s
  | .hall h o => match epochJob o with
    | some j => s.writeEpoch f h j (v.setWidth 16)
    | none => if f = 0 then s.writeHall h o v else if (s.regAt f a).isSome then s.accessErr f else s
  | .prt o => if f = 0 then s.writePrt o v else if (s.regAt f a).isSome ∨ o = 0x19C then s.accessErr f else s
  | .job q o => if f = 0 then s.writeJobBlock q o v else if (s.regAt f a).isSome then s.accessErr f else s
  | .part w o => if f = 0 then s.writePartBlock w o v else if (s.regAt f a).isSome then s.accessErr f else s
  | .none => s

end Sys2Proof.Machine
end

