-- ==== Sys2Proof/Machine/Bar2.lean ====
section
/-! DEFINITION. The BAR2 window (R164, R241, R318). -/

namespace Sys2Proof.Machine

/-- The physical hall that a function's aperture shows. -/
def State.bar2Target (s : State) (f : Fn) : Option Nat :=
  let h := (s.fn f).bar2Hall
  if f = 0 then (if s.hallOk h then some h else none)
  else if h < (s.part f).count then some ((s.part f).base + h)
  else none

def Hall.holdSpan (H : Hall) : Span := (H.holdBase, 65536 * H.holdSegs)
def Hall.mezzSpan (H : Hall) : Span := (H.mezzBase, if H.mezzOn then 131072 * H.mezzSize else 0)

/-- A dispatched command reads or writes a byte of the span: of a face that it reads, of both faces of a tensor that it writes, or of
the memory that a LOAD reads. -/
def State.touches (s : State) (q : Page) (c : Cmd) (h : Nat) (x : Span) : Bool :=
  c.att.uses.any (fun u => !u.d.host && u.hall == h
      && (if u.writes then u.d.faceSpans 0 ++ u.d.faceSpans 1 else if u.reads then u.d.faceSpans u.face else []).any x.meets)
    || s.sourceMet q c h x

/-- Commands in flight whose bytes a write meets. -/
def State.taint (s : State) (h : Nat) (x : Span) : State :=
  (List.range 128).foldl (fun s q => (s.job q).cmds.foldl (fun s c =>
    if c.dispatched && s.touches q c h x then s.modAtt q c.slot fun a => { a with hits := a.hits ++ [(h, x)] } else s) s) s

/-- One access: `wr` holds the bytes of a write, `len` the length of a read. -/
def State.bar2 (s : State) (f : Fn) (off : Nat) (wr : Option (List Byte)) (len : Nat) : State :=
  let n := match wr with
    | some b => b.length
    | none => len
  let refuse := match wr with
    | some _ => s.accessErr f
    | none => (s.accessErr f).answer (List.replicate n 0xFF)
  match s.bar2Target f with
  | none => refuse
  | some h =>
    let H := s.hall h
    let x : Span := (off, n)
    if stackBytes < off + n ∨ x.meets H.holdSpan then refuse
    else match wr with
      | some b =>
        if x.meets H.mezzSpan then refuse
        else (s.taint h x).modHall h fun H => { H with hbm := memWrites H.hbm off b }
      | none =>
        if H.poisoned x then
          let (b, t) := s.freeBytes n
          t.answer b
        else s.answer (memReads H.hbm off n)

def execBar2Access (fn : Fn) (off : Nat) (wr : Option (List Byte)) (len : Nat) (s : State) : Out :=
  .next (s.bar2 fn off wr len)

end Sys2Proof.Machine
end

