-- ==== Sys2Proof/Machine/Thaw.lean ====
section
/-! DEFINITION. How a freeze ends (R285, R286, R313), PRT_FREEZE_CTRL, function-level resets (R289), and the rows of plain
register accesses (R9). -/

namespace Sys2Proof.Machine

/-- The recorded writes take effect, in arrival order, and fetching goes on. -/
def State.replay (s : State) : State :=
  let s := s.held.foldl (fun s x => s.writeRest x.1 x.2.1 x.2.2) { s with held := [] }
  (List.range 128).foldl (fun s q => s.fetchAll q) s

/-- With no source left, handshakes resume; a device that sent a landing FREEZE sends THAW (Table 09-12). -/
def State.thawed (s : State) : State :=
  if s.freezing ∧ !s.byPin ∧ !s.byPorter ∧ s.bySide.isEmpty then
    let s := s.noteFreeze 0x10 5
    let s := if s.frzOrigin then s.sbOrigin 2 else s
    { s with frozen := false, holding := false, frzSource := 0, frzLanding := false, frzOrigin := false }.replay
  else s

/-- PRT_FREEZE_CTRL (Table 09-9). THAW is discarded while the pin is low, and beside FREEZE. -/
def State.writeFreeze (s : State) (f : Fn) (v : Word) : State :=
  if f ≠ 0 then s.accessErr f
  else
    let s := { s with scope := v.getLsbD 2, pinScope := v.getLsbD 3, sbAccept := v.getLsbD 4 }
    if v.getLsbD 0 then { s with byPorter := true }.startFreeze srcPorter s.scope
    else if v.getLsbD 1 && !s.pinLow then { s with byPorter := false, bySide := [] }.thawed
    else s

/-- PRT_FREEZE_CTRL at its offset. -/
abbrev offFreeze : Nat := 0x0000180

def freezeWord (freeze thaw scope pinScope sbAccept : Bool) : Word :=
  BitVec.ofNat 32 (b2n freeze + 2 * b2n thaw + 4 * b2n scope + 8 * b2n pinScope + 16 * b2n sbAccept)

def execFreeze (fn : Fn) (scope pinScope sbAccept : Bool) (s : State) : Out :=
  .next (s.writeFreeze fn (freezeWord true false scope pinScope sbAccept))
def execThaw (fn : Fn) (scope pinScope sbAccept : Bool) (s : State) : Out :=
  .next (s.writeFreeze fn (freezeWord false true scope pinScope sbAccept))

/-- FREEZE_N rises. -/
def execFreezeNRise (s : State) : Out := .next { s with pinLow := false, byPin := false }.thawed

/-- A sideband THAW from the device that started the freeze. -/
def State.sbThaw (s : State) (h i : Nat) (f : Frame) : State :=
  match s.sbPass h i 2 f with
  | none => s
  | some s => { s with bySide := s.bySide.filter (· != rankChain f.src) }.thawed

def execSidebandThaw (hall port : Nat) (f : Frame) (s : State) : Out := .next (s.sbThaw hall port f)

/-! ### Function-level resets (R289) -/

/-- Every plan load in progress fails: the freeze that held it ends without a thaw (R141). -/
def State.abortLoads (s : State) : State :=
  ((List.range 8).map (· + 1)).foldl (fun s v => (vfPages v).foldl (fun s q => (s.job q).cmds.foldl (fun s c =>
    if c.dispatched ∧ !c.failed ∧ c.opcode = opLOAD ∧ c.desc.part = 3 then s.failCmd q c.slot 0x041A 0xFFFF else s) s) s) s

/-- A reset ends every freeze and discards the recorded writes (R285, R313); FROZEN_AT says that it met one (R290). It is no thaw,
so the plan loads that the freeze held fail. -/
def State.endFreeze (s : State) : State :=
  if s.freezing then
    { s with frozenAt := true, held := [], byPin := false, byPorter := false, bySide := [] }.thawed.abortLoads
  else s

/-- A doorbell page at its reset values; the job block keeps its registers (Tables 05-1, 08-1). -/
def Job.pageReset (j : Job) : Job :=
  { Job.reset with wcommon := j.wcommon, resErr := j.resErr, slice := j.slice, preempts := j.preempts,
                   lastOverrun := j.lastOverrun, watchdog := j.watchdog }

/-- Every command whose commit window is open completes its commit point; no completion is posted. -/
def State.closeQuiet (s : State) (v : Fn) : State :=
  (vfPages v).foldl (fun s q => match (s.job q).cmds with
    | [] => s
    | c :: _ => if c.inWindow then s.commitQuiet q c else s) s

/-- A function's part of a reset: windows that are open commit, every other command is killed without a completion, and its
registers (Table 11-2), doorbell pages, semaphores, jobs and hold segments go. DESIGN CHOICE: its latches of the high halves of 64-bit
counters (R10) go with its registers; the spec names VST_ACCESS_ERR alone as cleared by it (log 121). -/
def State.clearVf (s : State) (v : Fn) : State :=
  let s := s.closeQuiet v
  let s := (vfPages v).foldl (fun s q => (s.job q).cmds.foldl (fun s c => s.dropAttempt q c.slot) s) s
  let s := (List.range 16).foldl (fun (s : State) j => s.dropJob v j) s
  let s := (vfPages v).foldl (fun (s : State) q => s.modJob q Job.pageReset) s
  let s := (s.part v).halls.foldl (fun s h => s.modHall h fun H => { H with holdValid := [] }) s
  (s.modPart v fun p => { p with sems := [], loading := none, holder := none, sliceOver := false, overran := false }).putFn v FnRegs.reset

def State.resetVf (s : State) (v : Fn) : State := (s.clearVf v).endFreeze

def execVfFlr (v : Fn) (s : State) : Out := .next (s.resetVf v)

/-- The physical function's reset does the same to every partition, and unbinds it. Its base address registers and SR-IOV fields start over
(log 110). -/
def State.resetPf (s : State) : State :=
  let vs := (List.range 8).map (· + 1)
  let s := vs.foldl State.clearVf s
  let s := vs.foldl (fun s v => (s.unbindPart v).putPart v Part.reset) s
  { s.putFn 0 FnRegs.reset with vfEnable := false, numVFs := 0, bars := [] }.endFreeze

def execPfFlr (_hot : Bool) (s : State) : Out := .next s.resetPf

/-! ### Plain register accesses -/

/-- A write by a function. -/
def State.writeReg (s : State) (f : Fn) (off : Nat) (v : Word) : State :=
  if off % 4 ≠ 0 then s.accessErr f
  else if off = offFreeze then s.writeFreeze f v
  else s.writeRest f off v

def execRegisterWrite (fn : Fn) (off : Nat) (v : Word) (s : State) : Out := .next (s.writeReg fn off v)

/-- An access of a width or an alignment that R9 refuses; one that R9 allows is an ordinary access. -/
def State.oddAccess (s : State) (f : Fn) (off width : Nat) (wr : Option Word) : State :=
  match wr with
  | some v => if width = 32 then s.writeReg f off v else s.accessErr f
  | none => if width = 32 then s.read f off else (s.accessErr f).answer (natLE 0xFFFFFFFF 4)

def execInvalidRegisterAccess (fn : Fn) (off width : Nat) (wr : Option Word) (s : State) : Out :=
  .next (s.oddAccess fn off width wr)

end Sys2Proof.Machine
end

