-- ==== Sys2Proof/Machine/Chain.lean ====
section
/-! DEFINITION. The management chain (R298 to R302): WALK, READ, WRITE, RESET, and frames that go on. -/

namespace Sys2Proof.Machine

/-- DEST names this device or sets BCAST (R299). -/
def State.chainMine (s : State) (f : ChainFrame) : Bool :=
  f.dest.getLsbD 18 || (s.chainValid && f.dest.setWidth 18 == s.chainAddr)

/-- The types that a device consumes (Table 10-10). -/
abbrev cWALK : Byte := 1
abbrev cREAD : Byte := 2
abbrev cWRITE : Byte := 3
abbrev cRESP : Byte := 4
abbrev cRESET : Byte := 5
abbrev cNOTIFY : Byte := 6

/-- A serving device consumes the frame: a WALK of eight bytes and a broadcast RESET always, and once it is addressed every frame
of Table 10-10 that DEST or BCAST gives it. -/
def State.chainTakes (s : State) (f : ChainFrame) : Bool :=
  if f.typ == cWALK then f.payload.length == 8
  else if f.typ == cRESET then f.dest.getLsbD 18 || s.chainMine f
  else [cREAD, cWRITE, cRESP, cNOTIFY].contains f.typ && s.chainValid && s.chainMine f

/-- A frame on CHAIN_IN. Bypass raises a WALK's counts and forwards every frame; a device that starts up holds WALKs and
forwards the rest but for RESET. -/
def State.chainIn (s : State) (f : ChainFrame) (act : State → State) : State :=
  if !chainOk f then s
  else match s.chainStage with
    | .held => s.chainPut (bypassWalk f)
    | .bypass => s.chainPut (bypassWalk f)
    | .starting =>
      if f.typ = cWALK ∧ f.payload.length = 8 then { s with heldWalks := s.heldWalks ++ [f] }
      else if f.typ = cRESET ∧ s.chainTakes f then act s
      else s.chainPut f
    | .serving => if s.chainTakes f then act s else s.chainPut f

/-- A row of one frame type: it has no effect on a frame of another type. -/
def chainRow (t : Byte) (f : ChainFrame) (act : State → State) (s : State) : Out :=
  .next (if f.typ = t then s.chainIn f act else s)

def execWalk (f : ChainFrame) (s : State) : Out := chainRow cWALK f (fun s => s.walkServe f) s

/-- RESP to a requester: status and data. A requester without an address gets the device's own as DEST, which no other device
consumes (log 15). -/
def State.respond (s : State) (f : ChainFrame) (status : Nat) (data : Word) : State :=
  s.emitChain ⟨4, 1, if f.src.getLsbD 18 then s.chainSrc else f.src &&& 0x3FFFF, s.chainSrc, natLE status 1 ++ natLE 0 3 ++ natLE data.toNat 4, 0⟩

/-- The latch of counters that chain reads use beside those of the functions. -/
abbrev chainLatch : Nat := 9

/-- READ of a Porter register, the Vestibule's being those of the physical function. -/
def State.chainReadAct (s : State) (f : ChainFrame) : State :=
  let off := u32 f.payload 0
  if 0xFFFFF < off then s.respond f 2 0
  else if off % 4 ≠ 0 then s.respond f 1 0
  else
    let (w, t) := s.readReg 0 chainLatch off
    t.respond f 0 w

def execChainRead (f : ChainFrame) (s : State) : Out := chainRow cREAD f (fun s => s.chainReadAct f) s

/-- WRITE: only PRT_FREEZE_CTRL accepts one, and it is answered before its freeze. -/
def State.chainWriteAct (s : State) (f : ChainFrame) : State :=
  let off := u32 f.payload 0
  if 0xFFFFF < off then s.respond f 2 0
  else if off ≠ offFreeze then s.respond f 1 0
  else (s.writeFreeze 0 (BitVec.ofNat 32 (u32 f.payload 4))).respond f 0 0

def execChainWrite (f : ChainFrame) (s : State) : Out := chainRow cWRITE f (fun s => s.chainWriteAct f) s

/-- RESET: the frame goes on, then the device resets with CAUSE 0b011. -/
def execChainReset (f : ChainFrame) (s : State) : Out :=
  chainRow cRESET f (fun s => ((s.chainPut f).hardReset 3 false)) s

/-- A frame has another row's effect, or ends here as a RESP or a NOTIFY that the device consumes. A device that starts up holds
WALKs, acts on a RESET, and consumes nothing else. -/
def State.chainElsewhere (s : State) (f : ChainFrame) : Bool :=
  match s.chainStage with
  | .serving => s.chainTakes f || (f.typ == cWALK && f.payload.length == 8)
  | .starting => (f.typ == cWALK && f.payload.length == 8) || (f.typ == cRESET && s.chainTakes f)
  | .held => false
  | .bypass => false

/-- Every other frame goes on unchanged; a WALK in bypass with its counts raised. -/
def execChainForward (f : ChainFrame) (s : State) : Out := .next (if s.chainElsewhere f then s else s.chainIn f id)

end Sys2Proof.Machine
end

