-- ==== Sys2Proof/Machine/Dispatch.lean ====
section
/-! DEFINITION. One arm per command: the call of its meaning. -/

namespace Sys2Proof.Machine

open Sys2Proof (Instr)

def exec (i : Instr) (s : State) : Host.Outcome State Fault Refusal :=
  match i with
  | .run q st => Sys2Proof.Machine.execRun q st s
  | .load q st => Sys2Proof.Machine.execLoad q st s
  | .planLoad q st => Sys2Proof.Machine.execPlanLoad q st s
  | .store q st => Sys2Proof.Machine.execStore q st s
  | .copy q st => Sys2Proof.Machine.execCopy q st s
  | .fence q st => Sys2Proof.Machine.execFence q st s
  | .checkpoint q st => Sys2Proof.Machine.execCheckpoint q st s
  | .gangReduceToOwner q st => Sys2Proof.Machine.execGangReduceToOwner q st s
  | .gangAllReduce q st => Sys2Proof.Machine.execGangAllReduce q st s
  | .gangGather q st => Sys2Proof.Machine.execGangGather q st s
  | .gangBroadcast q st => Sys2Proof.Machine.execGangBroadcast q st s
  | .commandDispatch q => Sys2Proof.Machine.execCommandDispatch q s
  | .commit q st => Sys2Proof.Machine.execCommit q st s
  | .semaphoreEarlyRelease q slot => Sys2Proof.Machine.execSemaphoreEarlyRelease q slot s
  | .doorbell fn q v => Sys2Proof.Machine.execDoorbell fn q v s
  | .cqHeadWrite fn q v => Sys2Proof.Machine.execCqHeadWrite fn q v s
  | .queueEnable fn q irqAll => Sys2Proof.Machine.execQueueEnable fn q irqAll s
  | .queueDisable fn q irqAll => Sys2Proof.Machine.execQueueDisable fn q irqAll s
  | .resume fn q enable irqAll => Sys2Proof.Machine.execResume fn q enable irqAll s
  | .drain fn q enable irqAll => Sys2Proof.Machine.execDrain fn q enable irqAll s
  | .semaphoreTimeout q arb => Sys2Proof.Machine.execSemaphoreTimeout q arb s
  | .linkArrivalTimeout q slot arb => Sys2Proof.Machine.execLinkArrivalTimeout q slot arb s
  | .bayload at_ u => Sys2Proof.Machine.execBayload at_ u s
  | .matpassL at_ u => Sys2Proof.Machine.execMatpassL at_ u s
  | .matpassWideSum at_ u => Sys2Proof.Machine.execMatpassWideSum at_ u s
  | .matpassT at_ u => Sys2Proof.Machine.execMatpassT at_ u s
  | .matpassB at_ u => Sys2Proof.Machine.execMatpassB at_ u s
  | .eMul at_ u => Sys2Proof.Machine.execEMul at_ u s
  | .eDiv at_ u => Sys2Proof.Machine.execEDiv at_ u s
  | .recip at_ u => Sys2Proof.Machine.execRecip at_ u s
  | .eSqrt at_ u => Sys2Proof.Machine.execESqrt at_ u s
  | .rsqrt at_ u => Sys2Proof.Machine.execRsqrt at_ u s
  | .pow at_ u => Sys2Proof.Machine.execPow at_ u s
  | .scale at_ u => Sys2Proof.Machine.execScale at_ u s
  | .exp at_ u => Sys2Proof.Machine.execExp at_ u s
  | .log2 at_ u => Sys2Proof.Machine.execLog2 at_ u s
  | .ln at_ u => Sys2Proof.Machine.execLn at_ u s
  | .abs at_ u => Sys2Proof.Machine.execAbs at_ u s
  | .neg at_ u => Sys2Proof.Machine.execNeg at_ u s
  | .eMax at_ u => Sys2Proof.Machine.execEMax at_ u s
  | .eMin at_ u => Sys2Proof.Machine.execEMin at_ u s
  | .cmpgt at_ u => Sys2Proof.Machine.execCmpgt at_ u s
  | .cmpeq at_ u => Sys2Proof.Machine.execCmpeq at_ u s
  | .func at_ u => Sys2Proof.Machine.execFunc at_ u s
  | .newelAdd at_ u => Sys2Proof.Machine.execNewelAdd at_ u s
  | .newelMul at_ u => Sys2Proof.Machine.execNewelMul at_ u s
  | .fma at_ u => Sys2Proof.Machine.execFma at_ u s
  | .newelDiv at_ u => Sys2Proof.Machine.execNewelDiv at_ u s
  | .newelSqrt at_ u => Sys2Proof.Machine.execNewelSqrt at_ u s
  | .maximum at_ u => Sys2Proof.Machine.execMaximum at_ u s
  | .minimum at_ u => Sys2Proof.Machine.execMinimum at_ u s
  | .maxnum at_ u => Sys2Proof.Machine.execMaxnum at_ u s
  | .minnum at_ u => Sys2Proof.Machine.execMinnum at_ u s
  | .cmp at_ u => Sys2Proof.Machine.execCmp at_ u s
  | .rowmax at_ u => Sys2Proof.Machine.execRowmax at_ u s
  | .xent at_ u => Sys2Proof.Machine.execXent at_ u s
  | .sample at_ u => Sys2Proof.Machine.execSample at_ u s
  | .verify at_ u => Sys2Proof.Machine.execVerify at_ u s
  | .hold at_ u => Sys2Proof.Machine.execHold at_ u s
  | .apply at_ u => Sys2Proof.Machine.execApply at_ u s
  | .save at_ => Sys2Proof.Machine.execSave at_ s
  | .reblock at_ => Sys2Proof.Machine.execReblock at_ s
  | .storeOperation at_ => Sys2Proof.Machine.execStoreOperation at_ s
  | .hbmcopy at_ => Sys2Proof.Machine.execHbmcopy at_ s
  | .hallwait at_ => Sys2Proof.Machine.execHallwait at_ s
  | .send at_ => Sys2Proof.Machine.execSend at_ s
  | .recv at_ => Sys2Proof.Machine.execRecv at_ s
  | .pull at_ => Sys2Proof.Machine.execPull at_ s
  | .mezzRestore at_ => Sys2Proof.Machine.execMezzRestore at_ s
  | .reduceToRiserHold at_ => Sys2Proof.Machine.execReduceToRiserHold at_ s
  | .reduceToOwnerRows at_ => Sys2Proof.Machine.execReduceToOwnerRows at_ s
  | .allReduce at_ => Sys2Proof.Machine.execAllReduce at_ s
  | .normPacket at_ => Sys2Proof.Machine.execNormPacket at_ s
  | .deadlineExpiry at_ shard node arb => Sys2Proof.Machine.execDeadlineExpiry at_ shard node arb s
  | .unanswered hall job key round shard node kind => Sys2Proof.Machine.execUnanswered hall job key round shard node kind s
  | .downValueTimeout at_ => Sys2Proof.Machine.execDownValueTimeout at_ s
  | .holdResend hall job key round shard node kind => Sys2Proof.Machine.execHoldResend hall job key round shard node kind s
  | .frameTransmit hall port => Sys2Proof.Machine.execFrameTransmit hall port s
  | .dataFrame hall port f => Sys2Proof.Machine.execDataFrame hall port f s
  | .lack hall port f => Sys2Proof.Machine.execLack hall port f s
  | .lnak hall port f => Sys2Proof.Machine.execLnak hall port f s
  | .credit hall port f => Sys2Proof.Machine.execCredit hall port f s
  | .ackseqReport hall port => Sys2Proof.Machine.execAckseqReport hall port s
  | .transitForward hall port => Sys2Proof.Machine.execTransitForward hall port s
  | .push hall port => Sys2Proof.Machine.execPush hall port s
  | .pullreq hall port => Sys2Proof.Machine.execPullreq hall port s
  | .pulldata hall port => Sys2Proof.Machine.execPulldata hall port s
  | .up hall port => Sys2Proof.Machine.execUp hall port s
  | .down hall port => Sys2Proof.Machine.execDown hall port s
  | .receipt hall port => Sys2Proof.Machine.execReceipt hall port s
  | .mezz hall port => Sys2Proof.Machine.execMezz hall port s
  | .mezzreq hall port => Sys2Proof.Machine.execMezzreq hall port s
  | .mezzdata hall port => Sys2Proof.Machine.execMezzdata hall port s
  | .digestCommit hall port => Sys2Proof.Machine.execDigestCommit hall port s
  | .digestAlive hall port => Sys2Proof.Machine.execDigestAlive hall port s
  | .aliveSend v => Sys2Proof.Machine.execAliveSend v s
  | .digestPropose hall port taken => Sys2Proof.Machine.execDigestPropose hall port taken s
  | .digestAnswer hall port => Sys2Proof.Machine.execDigestAnswer hall port s
  | .digestRelay hall port => Sys2Proof.Machine.execDigestRelay hall port s
  | .digestRetire hall port => Sys2Proof.Machine.execDigestRetire hall port s
  | .digestPause hall port => Sys2Proof.Machine.execDigestPause hall port s
  | .scissorSilence v => Sys2Proof.Machine.execScissorSilence v s
  | .relayTimeout hall job key round shard node kind => Sys2Proof.Machine.execRelayTimeout hall job key round shard node kind s
  | .sidebandFreeze hall port f => Sys2Proof.Machine.execSidebandFreeze hall port f s
  | .sidebandThaw hall port f => Sys2Proof.Machine.execSidebandThaw hall port f s
  | .echoReq hall port f => Sys2Proof.Machine.execEchoReq hall port f s
  | .echoReply hall port f => Sys2Proof.Machine.execEchoReply hall port f s
  | .echoTimeout => Sys2Proof.Machine.execEchoTimeout s
  | .echoGo fn port => Sys2Proof.Machine.execEchoGo fn port s
  | .laneDegrade hall port lane => Sys2Proof.Machine.execLaneDegrade hall port lane s
  | .portRetrainComplete hall port lanes peerAck => Sys2Proof.Machine.execPortRetrainComplete hall port lanes peerAck s
  | .retrain fn hall port holdDown => Sys2Proof.Machine.execRetrain fn hall port holdDown s
  | .holdDown fn hall port on => Sys2Proof.Machine.execHoldDown fn hall port on s
  | .sliceEnd v => Sys2Proof.Machine.execSliceEnd v s
  | .overrunWatchdog v => Sys2Proof.Machine.execOverrunWatchdog v s
  | .commitWindowOverrun q hall => Sys2Proof.Machine.execCommitWindowOverrun q hall s
  | .hallLoss hall => Sys2Proof.Machine.execHallLoss hall s
  | .hbmUncorrectableError hall addr => Sys2Proof.Machine.execHbmUncorrectableError hall addr s
  | .hbmInterfaceError hall target => Sys2Proof.Machine.execHbmInterfaceError hall target s
  | .undercroftEccError hall row corrected => Sys2Proof.Machine.execUndercroftEccError hall row corrected s
  | .patrolScrub hall granule flipped => Sys2Proof.Machine.execPatrolScrub hall granule flipped s
  | .hbmConcWindow hall counts => Sys2Proof.Machine.execHbmConcWindow hall counts s
  | .vcoreCeilingUpdate m => Sys2Proof.Machine.execVcoreCeilingUpdate m s
  | .throttleN low => Sys2Proof.Machine.execThrottleN low s
  | .supplyThermalTrip cause => Sys2Proof.Machine.execSupplyThermalTrip cause s
  | .powerOn => Sys2Proof.Machine.execPowerOn s
  | .sysResetN high => Sys2Proof.Machine.execSysResetN high s
  | .perst high => Sys2Proof.Machine.execPerst high s
  | .pfFlr hot => Sys2Proof.Machine.execPfFlr hot s
  | .vfFlr v => Sys2Proof.Machine.execVfFlr v s
  | .selftestComplete sharedOk halls => Sys2Proof.Machine.execSelftestComplete sharedOk halls s
  | .selftestGo fn halls => Sys2Proof.Machine.execSelftestGo fn halls s
  | .hallTestComplete hall r => Sys2Proof.Machine.execHallTestComplete hall r s
  | .configRequest fn r => Sys2Proof.Machine.execConfigRequest fn r s
  | .spdmRequest code param => Sys2Proof.Machine.execSpdmRequest code param s
  | .walk f => Sys2Proof.Machine.execWalk f s
  | .chainRead f => Sys2Proof.Machine.execChainRead f s
  | .chainWrite f => Sys2Proof.Machine.execChainWrite f s
  | .chainReset f => Sys2Proof.Machine.execChainReset f s
  | .chainForward f => Sys2Proof.Machine.execChainForward f s
  | .keyProvision fn => Sys2Proof.Machine.execKeyProvision fn s
  | .keyRevoke fn => Sys2Proof.Machine.execKeyRevoke fn s
  | .keyRaiseMin fn => Sys2Proof.Machine.execKeyRaiseMin fn s
  | .freeze fn scope pinScope sbAccept => Sys2Proof.Machine.execFreeze fn scope pinScope sbAccept s
  | .freezeNFall => Sys2Proof.Machine.execFreezeNFall s
  | .freezeNRise => Sys2Proof.Machine.execFreezeNRise s
  | .thaw fn scope pinScope sbAccept => Sys2Proof.Machine.execThaw fn scope pinScope sbAccept s
  | .freezeComplete => Sys2Proof.Machine.execFreezeComplete s
  | .rdwinDataRead fn => Sys2Proof.Machine.execRdwinDataRead fn s
  | .counterLowRead fn off => Sys2Proof.Machine.execCounterLowRead fn off s
  | .bar2Access fn off wr len => Sys2Proof.Machine.execBar2Access fn off wr len s
  | .bound fn v base size => Sys2Proof.Machine.execBound fn v base size s
  | .rekey fn v base size => Sys2Proof.Machine.execRekey fn v base size s
  | .bindingTakesEffect v => Sys2Proof.Machine.execBindingTakesEffect v s
  | .unbind fn v => Sys2Proof.Machine.execUnbind fn v s
  | .retire fn v => Sys2Proof.Machine.execRetire fn v s
  | .solo fn v => Sys2Proof.Machine.execSolo fn v s
  | .rejoin fn v => Sys2Proof.Machine.execRejoin fn v s
  | .residentSet fn q wcommon => Sys2Proof.Machine.execResidentSet fn q wcommon s
  | .residentClear fn q wcommon => Sys2Proof.Machine.execResidentClear fn q wcommon s
  | .epochWrite fn hall job epoch => Sys2Proof.Machine.execEpochWrite fn hall job epoch s
  | .mezzEnable fn hall peerHall peerAddr => Sys2Proof.Machine.execMezzEnable fn hall peerHall peerAddr s
  | .planBankSwap v => Sys2Proof.Machine.execPlanBankSwap v s
  | .invalidRegisterAccess fn off width wr => Sys2Proof.Machine.execInvalidRegisterAccess fn off width wr s
  | .registerWrite fn off v => Sys2Proof.Machine.execRegisterWrite fn off v s
  | .pairingDigest v digest record step riser leg => Sys2Proof.Machine.execPairingDigest v digest record step riser leg s

end Sys2Proof.Machine
end

