-- ==== Sys2Proof/Machine/Idle.lean ====
section
/-! DEFINITION. What passes when no command waits. -/

namespace Sys2Proof.Machine

/-- In a freeze an overrun's timer stands (R282): the slice's end moves on with the time. -/
def State.holdOverruns (s : State) : State :=
  if s.freezing then ((List.range 8).map (· + 1)).foldl (fun (s : State) v =>
    if (s.part v).sliceOver then s.modPart v fun p => { p with overrunFrom := p.overrunFrom + 1 } else s) s
  else s

/-- A domain of the hall is still to rise. -/
def Hall.rises (H : Hall) : Bool := (H.test.result == 3 && decide (H.domains < 9)) || !H.raising.isEmpty

/-- The next domain of a hall rises: while it is tested one of Table 10-4, in that order, and then a gallery that waits for its
own. -/
def Hall.raiseOne (H : Hall) : Hall :=
  if H.test.result = 3 ∧ H.domains < 9 then { H with domains := H.domains + 1 }
  else match H.raising with
    | [] => H
    | g :: r => { H with raising := r }.putGal g { H.gal g with powered := !(H.gal g).fenced }

/-- Porter raises power domains in no less than 2 µs each, one at a time in a hall (R293): the device's in the order of Table
10-2, and a hall's. The model raises one on every second microsecond (log 108). -/
def State.raiseDomains (s : State) : State :=
  let s := if s.chainStage = .starting ∧ s.devDomains < 4 then { s with devDomains := s.devDomains + 1 } else s
  (List.range 8).foldl (fun (s : State) h => if (s.hall h).rises then s.modHall h Hall.raiseOne else s) s

/-- One microsecond of Porter's time base (Table 11-2, PRT_TIME): on every second one a power domain rises, and a key command goes
on. The time-driven events themselves are rows of the table. -/
def idleTick (s : State) : State :=
  let t := s.holdOverruns.keyTick
  let t := if s.time.getLsbD 0 then t.raiseDomains else t
  { t with time := s.time + 1 }

end Sys2Proof.Machine
end

