-- ==== Sys2Proof/Safety.lean ====
section
/-! DEFINITION. What the statements mean by a safe state, by an operation at its turn, and by what a command leaves alone. -/

namespace Sys2Proof.Machine

/-- Every stack and the host's memory are in canonical form. -/
def State.memWf (s : State) : Prop :=
  Mem.wf s.host = true ∧ ∀ h, Mem.wf (s.hall h).hbm = true

/-- A command has an outcome that leaves a state. -/
def Completes (c : Instr) (s : State) : Prop := ∃ t, exec c s = .next t

/-- The operation that the row of its kind runs next at a site, in a device that is not frozen. -/
def AtTurn (s : State) (a : Site) (want : Plan → Op → Bool) (x : OpCtx) : Prop :=
  s.frozen = false ∧ s.opAt a want = some x

/-- The command whose row an operation is, at a site and without an upset. -/
def Op.instr? (o : Op) (a : Site) : Option Instr :=
  let row := fun (l : List (Nat × (Site → Upset → Instr))) (k : Nat) => (l.find? (·.1 == k)).map fun e => e.2 a Upset.none
  match o with
  | .bayload _ => some (.bayload a Upset.none)
  | .matpass m => row [(0, .matpassL), (1, .matpassWideSum), (2, .matpassT), (3, .matpassB)] m.kind
  | .epass e => row [(eMUL, .eMul), (eDIV, .eDiv), (eRECIP, .recip), (eSQRT, .eSqrt), (eRSQRT, .rsqrt), (ePOW, .pow),
      (eSCALE, .scale), (eEXP, .exp), (eLOG2, .log2), (eLN, .ln), (eABS, .abs), (eNEG, .neg), (eMAX, .eMax), (eMIN, .eMin),
      (eCMPGT, .cmpgt), (eCMPEQ, .cmpeq), (eFUNC, .func)] e.mode
  | .newel n => row [(nADD, .newelAdd), (nMUL, .newelMul), (nFMA, .fma), (nDIV, .newelDiv), (nSQRT, .newelSqrt),
      (nMAXIMUM, .maximum), (nMINIMUM, .minimum), (nMAXNUM, .maxnum), (nMINNUM, .minnum), (nCMP, .cmp), (nROWMAX, .rowmax),
      (nXENT, .xent), (nSAMPLE, .sample), (nVERIFY, .verify)] n.mode
  | .riser r => some (if r.apply then .apply a Upset.none else .hold a Upset.none)
  | .save v => some (if v.mode = 2 then .reblock a else .save a)
  | .store _ => some (.storeOperation a)
  | .hbmcopy _ => some (.hbmcopy a)
  | .send _ => some (.send a)
  | .recv r => some (if r.mode < 2 then .recv a else if r.mode = 2 then .pull a else .mezzRestore a)
  | .reduce r => row [(0, fun a _ => .reduceToRiserHold a), (1, fun a _ => .reduceToOwnerRows a), (2, fun a _ => .allReduce a),
      (3, fun a _ => .normPacket a)] r.mode
  | .hallwait .. => some (.hallwait a)
  | .bad => none

/-- What the row of an operation does; a record of no kind has no row. -/
def Op.does (o : Op) (a : Site) (s t : State) : Prop :=
  match o.instr? a with
  | some c => exec c s = .next t
  | none => t = s

/-- The rows of some operations, one after the other, end no turn: each operation waits. -/
def Waits (a : Site) : List OpCtx → State → State → Prop
  | [], s, t => t = s
  | x :: r, s, t => ∃ u, x.op.does a s u ∧ tookTurn a s u = false ∧ Waits a r u t

/-- A hall takes the first of its operations that may start and does not wait, by that operation's own row; with none such, all
wait. -/
def HallTakes (a : Site) (s t : State) : Prop :=
  let l := s.opsAt a fun _ _ => true
  Waits a l s t ∨ ∃ (w : List OpCtx) (x : OpCtx) (r : List OpCtx) (u : State),
    l = w ++ x :: r ∧ Waits a w s u ∧ x.op.does a u t ∧ tookTurn a u t = true

/-- Halls, one after the other, take an operation each. -/
def HallsTake (q : Page) (slot : Nat) : List Nat → State → State → Prop
  | [], s, t => t = s
  | h :: r, s, t => ∃ u, HallTakes ⟨q, slot, h⟩ s u ∧ HallsTake q slot r u t

/-- The attempt of the command records the operation as completed in its hall. -/
def OpDone (x : OpCtx) (t : State) : Prop := x.off ∈ (t.att x.page x.slot).doneAt x.hall

/-- The attempt holds a tile of the operation: token-row tile i, output group g. -/
def HasTile (x : OpCtx) (i g : Nat) (t : State) : Prop :=
  ∃ z ∈ (t.att x.page x.slot).tiles, z.hall = x.hall ∧ z.pass = x.pass ∧ z.op = x.off ∧ z.trow = i ∧ z.og = g

/-- What stands outside the attempt of a running command: partitions, functions, host memory, the other jobs' queues. -/
def SameOutside (q : Page) (s t : State) : Prop :=
  t.parts = s.parts ∧ t.fns = s.fns ∧ t.host = s.host ∧ t.slots = s.slots ∧ t.pending = s.pending
    ∧ ∀ k, k ≠ q → t.job k = s.job k

/-- A fault has killed a command (R162): it waits for its re-run with nothing of its attempt left, and holds no semaphore. -/
def Killed (q : Page) (c : Cmd) (t : State) : Prop :=
  (t.cmd? q c.slot).map (fun k => (k.phase, k.kills, k.faultKills, k.att))
      = some (.waiting, c.kills + 1, c.faultKills + 1, Attempt.empty)
    ∧ ∀ n, ((t.part (pageFn q)).sem n).holder ≠ some (q, c.slot)

/-- The committed state of every hall: faces, scale table, rows, counters. -/
def SameCommitted (s t : State) : Prop :=
  ∀ h, (t.hall h).faces1 = (s.hall h).faces1 ∧ (t.hall h).scale = (s.hall h).scale ∧ (t.hall h).unc = (s.hall h).unc
    ∧ (t.hall h).taken = (s.hall h).taken ∧ (t.hall h).step = (s.hall h).step ∧ (t.hall h).riser = (s.hall h).riser
    ∧ (t.hall h).sampler = (s.hall h).sampler ∧ (t.hall h).commits = (s.hall h).commits

/-- No stack's bytes differ. -/
def SameStacks (s t : State) : Prop := ∀ h, (t.hall h).hbm = (s.hall h).hbm

/-- Bytes that a write to face k of a descriptor may reach: its rows, its scale plane, its side list. -/
def TDesc.writeSpans (d : TDesc) (packed : Bool) (k : Nat) : List Span :=
  ((List.range d.rows).map fun r => (d.base k + r * d.pitch, if packed then d.pitch else d.rowBytes))
    ++ (if d.w.plane then [(d.planeBase k, d.rows * d.blocks)] else [])
    ++ (if d.w.side then [(d.sideBase k, TDesc.sideLen)] else [])

/-- Face k of a descriptor holds COUNT units of a PART (R153) from unit `first` on as a run of bytes gives them: the codes of
elements, whole rows of a packed tensor in packed form, the fine codes of rows, or the side list. -/
def HoldsUnits (packed : Bool) (d : TDesc) (k part first n : Nat) (b : List Byte) (m : Mem) : Prop :=
  let code := codeIn d.w.fmt b
  (part = 0 → packed = false → d.rowBytes ≤ d.pitch → first + n ≤ d.elems → ∀ i < n,
    (rowCodesAt m d k false ((first + i) / d.cols)).getD ((first + i) % d.cols) 0 = code i)
  ∧ (part = 0 → packed = true → first % d.cols = 0 → n % d.cols = 0 → first + n ≤ d.elems →
    (∀ r < d.rows, d.planeBase k + d.rows * d.blocks ≤ d.base k + r * d.pitch ∨ d.base k + (r + 1) * d.pitch ≤ d.planeBase k) →
    ∀ r < n / d.cols, let row := (packRowOf (finesAt m d k (first / d.cols + r)) ((List.range d.cols).map fun c => code (r * d.cols + c))).take d.pitch
      memReads m (d.base k + (first / d.cols + r) * d.pitch) row.length = row)
  ∧ (part = 1 → first + n ≤ d.rows → memReads m (d.planeBase k + first * d.blocks) (n * d.blocks) = b)
  ∧ (part = 2 → d.w.side = true → n = 1 → memReads m (d.sideBase k) TDesc.sideLen = b)

/-- Bytes of a hall's stack in the faces that an attempt stages, under each descriptor that binds their addresses. -/
def Attempt.stagedSpans (a : Attempt) (h : Nat) : List Span :=
  a.staged.flatMap fun st => (a.uses.filter fun u => st.hall == h && u.hall == h && u.d.pair == st.d.pair).flatMap
    fun u => u.d.writeSpans st.packed st.face

/-- Every byte of every stack outside the faces that the attempt now stages reads as it did. -/
def StoresInStagedFaces (q : Page) (slot : Nat) (s t : State) : Prop :=
  ∀ h b, (∀ sp ∈ (t.att q slot).stagedSpans h, b < sp.1 ∨ sp.1 + sp.2 ≤ b) →
    memRead (t.hall h).hbm b = memRead (s.hall h).hbm b

/-- Everything but the access-error count of one function is the same: an access that R9 discards. -/
def OnlyCounted (f : Fn) (s t : State) : Prop :=
  t = s.accessErr f

end Sys2Proof.Machine
end

