-- ==== Sys2Proof/WellFormed.lean ====
section
/-! DEFINITION. Ranges of a command's operands: those that the manual's tables and the fields of its words admit. -/

namespace Sys2Proof

def Desc.wf (d : Desc) : Bool :=
  decide (d.rsv2 < 2 ^ 16) && decide (d.timeout < 2 ^ 32) && decide (d.rsv12 < 2 ^ 32) && d.slots.length == 4
    && d.body.length == 32

/-- A ring has at most 2^16 slots (Table 05-2); a command's number is its slot plus a multiple of 2^16. -/
def CmdStep.wf : CmdStep → Bool
  | .submit d => d.wf
  | .work slot => decide (slot < 2 ^ 32)

def pageWf (q : Page) : Bool := decide (q < 128)
def fnWf (f : Fn) : Bool := decide (f ≤ 8)
def vfWf (v : Fn) : Bool := decide (1 ≤ v) && decide (v ≤ 8)
def hallWf (h : Nat) : Bool := decide (h < 8)
def portWf (p : Nat) : Bool := decide (p < 5)

def Site.wf (a : Site) : Bool := pageWf a.page && decide (a.slot < 2 ^ 32) && hallWf a.hall

def Upset.wf (u : Upset) : Bool :=
  u.mismatch.all (fun g => decide (g < 64)) && u.parity.all (fun p => decide (p.1 < 64))
    && (match u.residue with | none => true | some l => decide (l < 64))

/-- Field widths of a frame (Tables 07-4 and 07-5). -/
def Frame.wf (f : Frame) : Bool :=
  decide (f.typ < 16) && decide (f.vc < 16) && decide (f.dest < 2 ^ 21) && decide (f.src < 2 ^ 21)
    && decide (f.payload.length ≤ 4096)

/-- A chain payload has at most 64 bytes (Table 10-9). -/
def ChainFrame.wf (f : ChainFrame) : Bool := decide (f.payload.length ≤ 64)

def ArrayId.wf : ArrayId → Bool
  | .galData g | .galSide g | .undercroftBank g | .undercroftTags g | .newelLane g | .riserLane g => decide (g < 64)
  | .retryBuffer p => portWf p
  | .planStore | .concourseBuffer _ => true

def HallTest.wf (r : HallTest) : Bool :=
  r.failing.all (fun a => a.1.wf) && r.galMisr.length == 64

def kindWf (k : Nat) : Bool := decide (k < 16)

/-- Every operand is in the range of the field that carries it. -/
def Instr.wf : Instr → Bool
  | .run q st | .load q st | .planLoad q st | .store q st | .copy q st | .fence q st | .checkpoint q st
  | .gangReduceToOwner q st | .gangAllReduce q st | .gangGather q st | .gangBroadcast q st => pageWf q && st.wf
  | .commandDispatch q => pageWf q
  | .commit q _ => pageWf q
  | .semaphoreEarlyRelease q slot => pageWf q && decide (slot < 2 ^ 32)
  | .doorbell f q _ | .cqHeadWrite f q _ | .queueEnable f q _ | .queueDisable f q _ | .resume f q _ _
  | .drain f q _ _ => fnWf f && pageWf q
  | .semaphoreTimeout q _ => pageWf q
  | .linkArrivalTimeout q slot _ => pageWf q && decide (slot < 2 ^ 32)
  | .bayload a u | .matpassL a u | .matpassWideSum a u | .matpassT a u | .matpassB a u | .eMul a u | .eDiv a u
  | .recip a u | .eSqrt a u | .rsqrt a u | .pow a u | .scale a u | .exp a u | .log2 a u | .ln a u | .abs a u
  | .neg a u | .eMax a u | .eMin a u | .cmpgt a u | .cmpeq a u | .func a u | .newelAdd a u | .newelMul a u
  | .fma a u | .newelDiv a u | .newelSqrt a u | .maximum a u | .minimum a u | .maxnum a u | .minnum a u | .cmp a u
  | .rowmax a u | .xent a u | .sample a u | .verify a u | .hold a u | .apply a u => a.wf && u.wf
  | .save a | .reblock a | .storeOperation a | .hbmcopy a | .hallwait a | .send a | .recv a | .pull a
  | .mezzRestore a | .reduceToRiserHold a | .reduceToOwnerRows a | .allReduce a | .normPacket a
  | .downValueTimeout a => a.wf
  | .deadlineExpiry a shard node _ => a.wf && decide (shard < 2 ^ 21) && decide (node < 2 ^ 32)
  | .unanswered h j key round shard node kind | .holdResend h j key round shard node kind
  | .relayTimeout h j key round shard node kind =>
    hallWf h && decide (j < 16) && decide (key < 2 ^ 16) && decide (round < 2 ^ 32) && decide (shard < 2 ^ 21)
      && decide (node < 2 ^ 32) && kindWf kind
  | .frameTransmit h p | .ackseqReport h p | .transitForward h p | .push h p | .pullreq h p | .pulldata h p
  | .up h p | .down h p | .receipt h p | .mezz h p | .mezzreq h p | .mezzdata h p | .digestCommit h p
  | .digestAlive h p | .digestPropose h p _ | .digestAnswer h p | .digestRelay h p | .digestRetire h p
  | .digestPause h p => hallWf h && portWf p
  | .dataFrame h p f | .lack h p f | .lnak h p f | .credit h p f | .sidebandFreeze h p f | .sidebandThaw h p f
  | .echoReq h p f | .echoReply h p f => hallWf h && portWf p && f.wf
  | .aliveSend v | .scissorSilence v | .sliceEnd v | .overrunWatchdog v | .bindingTakesEffect v
  | .planBankSwap v => vfWf v
  | .echoTimeout => true
  | .echoGo f _ => fnWf f
  | .laneDegrade h p lane => hallWf h && portWf p && decide (lane < 8)
  | .portRetrainComplete h p _ _ => hallWf h && portWf p
  | .retrain f h p _ => fnWf f && hallWf h && portWf p
  | .holdDown f h p _ => fnWf f && hallWf h && portWf p
  | .commitWindowOverrun q h => pageWf q && hallWf h
  | .hallLoss h => hallWf h
  | .hbmUncorrectableError h a => hallWf h && decide (a < 0xC00000000)
  | .hbmInterfaceError h t => hallWf h && decide (t < 32)
  | .undercroftEccError h r _ => hallWf h && decide (r < 65536)
  | .patrolScrub h g _ => hallWf h && decide (g < 0x60000000)
  | .hbmConcWindow h counts => hallWf h && counts.length == 32
  | .vcoreCeilingUpdate m => decide (m.tjHall < 8)
  | .throttleN _ | .supplyThermalTrip _ | .powerOn | .sysResetN _ | .perst _ | .pfFlr _ => true
  | .vfFlr v => vfWf v
  | .selftestComplete _ halls => halls.all fun p => p.1.wf && p.2.wf
  | .selftestGo f _ => fnWf f
  | .hallTestComplete h r => hallWf h && r.all HallTest.wf
  | .configRequest f _ => fnWf f
  | .spdmRequest code _ => decide (code < 256)
  | .walk f | .chainRead f | .chainWrite f | .chainReset f | .chainForward f => f.wf
  | .keyProvision f | .keyRevoke f | .keyRaiseMin f => fnWf f
  | .freeze f _ _ _ => fnWf f
  | .freezeNFall | .freezeNRise => true
  | .thaw f _ _ _ => fnWf f
  | .freezeComplete => true
  | .rdwinDataRead f => fnWf f
  | .counterLowRead f off => fnWf f && decide (off < 0x1000000)
  | .bar2Access f off _ _ => fnWf f && decide (off < 0x1000000000)
  | .bound f v _ _ | .rekey f v _ _ | .unbind f v | .retire f v | .solo f v | .rejoin f v => fnWf f && vfWf v
  | .residentSet f q _ | .residentClear f q _ => fnWf f && pageWf q
  | .epochWrite f h j _ => fnWf f && hallWf h && decide (j < 16)
  | .mezzEnable f h _ _ => fnWf f && hallWf h
  | .invalidRegisterAccess f off width _ => fnWf f && decide (off < 0x1000000) && decide (width ≤ 64)
  | .registerWrite f off _ => fnWf f && decide (off < 0x1000000)
  | .pairingDigest v digest record _ _ leg => decide (leg.state < 4) && vfWf v && digest.length == 48 && record.length == 16

end Sys2Proof
end

