-- ==== Sys2Proof/Certificates/Slice0/Obligations.lean ====
section
/-! DEFINITION. The statements about the block. -/

open Sys2Proof Sys2Proof.Machine

/-! ### The block -/

/-- A step runs the command at the front of the queue, with the queue's rest. -/
def Obligations.StepRunsFrontCommand : Prop :=
  ∀ (s : State) (c : Instr) (rest : List Instr),
    step { s with pending := c :: rest } = exec c { s with pending := rest }

/-- With no command waiting a step passes one microsecond of Porter's time base (the model's choice, log 3). On every second one a
hall under test raises its next power domain, and a hall with none of those left the next gallery that waits for its own (log 108);
otherwise nothing else changes, but for a key command and in a freeze. -/
def Obligations.IdleStepPassesTime : Prop :=
  ∀ s : State, s.pending = [] →
    (∃ t, step s = .next t ∧ t.time = s.time + 1 ∧ t.pending = [])
    ∧ (s.keyWait = false → s.keyBurn = none → s.freezing = false →
      (s.time.getLsbD 0 = false ∨ (s.chainStage ≠ .starting ∧ ∀ h < 8, (s.hall h).rises = false)) →
      step s = .next { s with time := s.time + 1 })
    ∧ (∀ h < 8, s.time.getLsbD 0 = true → (s.hall h).test.result = 3 → (s.hall h).domains < 9 →
      ∃ t, step s = .next t ∧ (t.hall h).domains = (s.hall h).domains + 1)
    ∧ (∀ h < 8, ∀ (g : Nat) (r : List Nat), s.time.getLsbD 0 = true → (s.hall h).raising = g :: r →
      (s.hall h).test.result ≠ 3 ∨ 9 ≤ (s.hall h).domains →
      ∃ t, step s = .next t ∧ (t.hall h).raising = r ∧ ((t.hall h).gal g).powered = !((s.hall h).gal g).fenced)

/-- Every step keeps every memory in canonical form, from every state. -/
def Obligations.StepKeepsMemoryCanonical : Prop :=
  ∀ s t : State, s.memWf → step s = .next t → t.memWf

/-- A descriptor of any opcode, written to a ring and read back, is the same opcode and the same descriptor. -/
def Obligations.DescriptorRoundTrip : Prop :=
  ∀ (op : Nat) (d : Desc), op < 256 → d.wf = true →
    (d.bytes op).length = 64 ∧ u8 (d.bytes op) 0 = op ∧ Desc.parse (d.bytes op) = d

/-- In a frozen device the rows that do a command's work, move frames above the link layer, or run Porter's timers leave the
state as it is. -/
def Obligations.FrozenDeviceHoldsWork : Prop :=
  ∀ (s : State) (q : Page) (slot : Nat) (a : Site) (u : Upset) (h i v : Nat) (arb : Arb) (job key round shard node kind : Nat)
      (taken : Bool) (dg rec : List Byte) (steps riser : List DWord) (leg : LegWord), s.frozen = true →
    ∀ c ∈ [Instr.run, .load, .store, .copy, .planLoad, .fence, .checkpoint, .gangReduceToOwner, .gangAllReduce, .gangGather,
          .gangBroadcast].map (fun c => c q (.work slot))
        ++ [Instr.bayload, .matpassL, .matpassWideSum, .matpassT, .matpassB, .eMul, .eDiv, .recip, .eSqrt, .rsqrt, .pow, .scale,
          .exp, .log2, .ln, .abs, .neg, .eMax, .eMin, .cmpgt, .cmpeq, .func, .newelAdd, .newelMul, .fma, .newelDiv, .newelSqrt,
          .maximum, .minimum, .maxnum, .minnum, .cmp, .rowmax, .xent, .sample, .verify, .hold, .apply].map (fun c => c a u)
        ++ [Instr.save, .reblock, .storeOperation, .hbmcopy, .hallwait, .send, .recv, .pull, .mezzRestore, .reduceToRiserHold,
          .reduceToOwnerRows, .allReduce, .normPacket, .downValueTimeout].map (fun c => c a)
        ++ [Instr.frameTransmit, .transitForward, .push, .pullreq, .pulldata, .up, .down, .receipt, .mezz, .mezzreq, .mezzdata,
          .digestCommit, .digestAlive, .digestAnswer, .digestRelay, .digestRetire, .digestPause].map (fun c => c h i)
        ++ [Instr.unanswered, .holdResend, .relayTimeout].map (fun c => c h job key round shard node kind)
        ++ [Instr.aliveSend, .scissorSilence, .sliceEnd, .overrunWatchdog, .planBankSwap].map (fun c => c v)
        ++ [.commandDispatch q, .commit q .window, .commit q .point, .semaphoreEarlyRelease q slot, .semaphoreTimeout q arb,
          .linkArrivalTimeout q slot arb, .commitWindowOverrun q h, .deadlineExpiry a shard node arb, .digestPropose h i taken,
          .patrolScrub h i v, .pairingDigest v dg rec steps riser leg],
      exec c s = .next s

/-! ### Queues -/

/-- A queue command's row writes its descriptor at the tail of an idle, enabled ring, moves the tail, and the descriptor,
when it passes the checks of submission, waits as the queue's one command; a leg that has retired fetches none. -/
def Obligations.SubmissionQueuesTheDescriptor : Prop :=
  ∀ (s : State) (q : Page) (d : Desc) (c : Instr) (op : Nat) (b : List Byte),
    (c, op, b) ∈ [(Instr.run q (.submit d), opRUN, d.bytes opRUN), (.load q (.submit d), opLOAD, d.bytes opLOAD),
      (.planLoad q (.submit d), opLOAD, (setBody d 0 3).bytes opLOAD), (.store q (.submit d), opSTORE, d.bytes opSTORE),
      (.copy q (.submit d), opCOPY, d.bytes opCOPY), (.fence q (.submit d), opFENCE, d.bytes opFENCE),
      (.checkpoint q (.submit d), opCHECKPOINT, d.bytes opCHECKPOINT),
      (.gangReduceToOwner q (.submit d), opGANG, (setBody d 2 1).bytes opGANG),
      (.gangAllReduce q (.submit d), opGANG, (setBody d 2 2).bytes opGANG),
      (.gangGather q (.submit d), opGANG, (setBody d 2 3).bytes opGANG),
      (.gangBroadcast q (.submit d), opGANG, (setBody d 2 4).bytes opGANG)] →
    d.wf = true → s.freezing = false → (s.part (pageFn q)).scState ≠ 3 → (s.job q).enable = true → (s.job q).halted = false → (s.job q).cmds = [] →
    (s.job q).fetch = (s.job q).sqTail → (s.job q).sqTail < (s.job q).sqSize →
    ((s.job q).sqTail + 1) % (s.job q).sqSize ≠ (s.job q).sqHead → (s.job q).sqTail ≠ ((s.job q).sqTail + 1) % (s.job q).sqSize →
    let j := s.job q
    let w := (s.writeRing q j.sqHbm (j.sqBase + 64 * j.sqTail) b).modJob q fun k => { k with sqTail := (j.sqTail + 1) % j.sqSize }
    w.poisonAt q j.sqHbm (j.sqBase + 64 * j.sqTail) 64 = none → (w.submit q b).err = none →
    ∃ t, exec c s = .next t ∧ (t.job q).sqTail = (j.sqTail + 1) % j.sqSize
      ∧ (t.job q).cmds = [Cmd.ofSubmitted j.sqTail j.fetched (w.submit q b)]
      ∧ t.readRing q j.sqHbm (j.sqBase + 64 * j.sqTail) 64 = b
      ∧ (∀ k, k ≠ q → (t.job k).cmds = (s.job k).cmds)

/-- VST_DB_SQ_TAIL and VST_DB_CQ_HEAD take the value that their own function writes below the ring size; any other tail or
head, and one from another function, is discarded and counted. -/
def Obligations.DoorbellPointersTakeTheWrite : Prop :=
  ∀ (s : State) (f : Fn) (q : Page) (v : Word),
    (s.freezing = false → v.toNat < (s.job q).sqSize →
      ∃ t, exec (.doorbell (pageFn q) q v) s = .next t ∧ (t.job q).sqTail = v.toNat ∧ (t.job q).cqHead = (s.job q).cqHead)
    ∧ (v.toNat < (s.job q).cqSize →
      ∃ t, exec (.cqHeadWrite (pageFn q) q v) s = .next t ∧ (t.job q).cqHead = v.toNat
        ∧ (t.job q).sqTail = (s.job q).sqTail)
    ∧ ((s.job q).sqSize ≤ v.toNat ∨ f ≠ pageFn q → exec (.doorbell f q v) s = .next (s.accessErr f))
    ∧ ((s.job q).cqSize ≤ v.toNat ∨ f ≠ pageFn q → exec (.cqHeadWrite f q v) s = .next (s.accessErr f))

/-- VST_DB_CTRL: ENABLE and IRQ_ALL take the written bits on a ring that ENABLE accepts, and clearing ENABLE always does. A
ring configuration that R147 forbids sets CFG_ERR and the queue stays disabled.
RESUME refetches from the head; DRAIN discards the entries up to the tail; both leave the halted state, here of a queue
that is disabled meanwhile and holds no command. -/
def Obligations.QueueControlActs : Prop :=
  (∀ (s : State) (q : Page) (irqAll : Bool), s.freezing = false →
    (s.ringBad q = false →
      ∃ t, exec (.queueEnable (pageFn q) q irqAll) s = .next t ∧ (t.job q).enable = true ∧ (t.job q).irqAll = irqAll
        ∧ (t.job q).cfgErr = (s.job q).cfgErr)
    ∧ (∃ t, exec (.queueDisable (pageFn q) q irqAll) s = .next t ∧ (t.job q).enable = false ∧ (t.job q).irqAll = irqAll)
    ∧ ((s.job q).enable = false → s.ringBad q = true →
      ∃ t, exec (.queueEnable (pageFn q) q irqAll) s = .next t ∧ (t.job q).enable = false ∧ (t.job q).cfgErr = true))
  ∧ ∀ (s : State) (q : Page) (irqAll : Bool), s.freezing = false → (s.job q).halted = true → (s.job q).cmds = [] →
    (∃ t, exec (.resume (pageFn q) q false irqAll) s = .next t ∧ (t.job q).halted = false ∧ (t.job q).haltCode = 0
      ∧ (t.job q).fetch = (s.job q).sqHead ∧ (t.job q).sqHead = (s.job q).sqHead)
    ∧ (∃ t, exec (.drain (pageFn q) q false irqAll) s = .next t ∧ (t.job q).halted = false ∧ (t.job q).haltCode = 0
      ∧ (t.job q).sqHead = (s.job q).sqTail ∧ (t.job q).fetch = (s.job q).sqTail)

/-- An error completion of the oldest command halts its queue with the code, kills what stands behind it, and the head points
at the entry after the failed one. -/
def Obligations.ErrorHaltsTheQueue : Prop :=
  ∀ (s : State) (q : Page) (c : Cmd) (rest : List Cmd) (code detail : Nat),
    (s.job q).cmds = c :: rest → rest.all (fun x => x.slot != c.slot) = true → (s.job q).cqFull = false → code ≠ errReset →
    let t := s.failCmd q c.slot code detail
    (t.job q).cmds = [] ∧ (t.job q).halted = true ∧ (t.job q).haltCode = code
      ∧ (t.job q).sqHead = (c.slot % 65536 + 1) % (s.job q).sqSize ∧ (t.job q).fetch = (t.job q).sqHead
      ∧ (t.job q).cqTail = ((s.job q).cqTail + 1) % (s.job q).cqSize

/-- The holder's oldest undispatched command, ready and past the checks of dispatch, starts to run: it records when it first
did, and it holds its semaphores. -/
def Obligations.DispatchStartsTheCommand : Prop :=
  ∀ (s : State) (q : Page) (c : Cmd),
    let r := s.rehold (pageFn q)
    s.frozen = false → (r.part (pageFn q)).holder = some (pageJob q) → (r.part (pageFn q)).sliceOver = false →
    (r.part (pageFn q)).scState ≠ 3 → (r.job q).halted = false → r.canDispatch q = some c → r.startErr q c = none →
    (r.job q).cmd? c.slot = some c →
    ∃ t, exec (.commandDispatch q) s = .next t
      ∧ (t.cmd? q c.slot).map Cmd.phase = some .running
      ∧ (t.cmd? q c.slot).map Cmd.firstT = some (some (c.firstT.getD s.time.toNat))
      ∧ (∀ x ∈ c.desc.semsOf 1, ((t.part (pageFn q)).sem x.1).holder = some (q, c.slot))
      ∧ (∀ k, k ≠ q → (t.job k).cmds = (r.job k).cmds)

/-- A dispatched command all of whose operations have completed, with nothing staged, opens its commit window when the
completion ring has room and no partner is asked; a full completion ring holds it back. -/
def Obligations.CommitWindowOpens : Prop :=
  ∀ (s : State) (q : Page) (c : Cmd) (rest : List Cmd), (s.job q).cmds = c :: rest → c.att.staged = [] →
    (s.frozen = false → c.phase = .running → s.workDone q c = true → (s.job q).cqFull = false →
      (s.part (pageFn q)).scState ≠ 1 →
      ∃ t, exec (.commit q .window) s = .next t ∧ (t.cmd? q c.slot).map Cmd.phase = some .window
        ∧ SameOutside q s t ∧ t.halls = s.halls)
    ∧ ((s.job q).cqFull = true → exec (.commit q .window) s = .next s)

/-- The commit point of a queue's one command, its ring disabled meanwhile (Table 05-14). The face bit of each tensor that it staged
names the staged face (none with the verdict SKIP, R197), twin rows stand in the place of their rows and released rows are free (R92),
the step counter advances at an APPLY commit (R178), the Riser and sampler lanes by the words drawn (R201), COMMIT increments, the
signals apply, every semaphore it holds is released, its record with STATUS 0 is posted at the completion tail in host memory, where
beside it only what the command stores to the host changes, and the command leaves the queue. That a STORE's bytes appear at the
commit point, where R163 has them written before it, is the model's choice of log 73. -/
def Obligations.CommitPointSignalsAndPosts : Prop :=
  ∀ (s : State) (q : Page) (c : Cmd), s.frozen = false → (s.job q).cmds = [c] → c.phase = .window →
    c.att.hits = [] → (s.job q).enable = false → (s.job q).cqHbm = false →
    let a := (s.job q).cqBase + 32 * (s.job q).cqTail
    ∃ t, exec (.commit q .point) s = .next t
      ∧ (t.job q).commits = ((s.job q).commits + 1) % 2 ^ 64
      ∧ (t.job q).cmds = []
      ∧ (t.job q).sqHead = (c.slot % 65536 + 1) % (s.job q).sqSize
      ∧ (t.job q).cqTail = ((s.job q).cqTail + 1) % (s.job q).cqSize
      ∧ leNat (memReads t.host a 4) = c.desc.tag.toNat ∧ leNat (memReads t.host (a + 4) 2) = 0
      ∧ (∀ b, b < a ∨ a + 32 ≤ b →
        memRead t.host b = memRead (c.att.hostOut.foldl (fun m x => memWrites m x.1 x.2) s.host) b)
      ∧ (∀ n, ((t.part (pageFn q)).sem n).value = (((s.part (pageFn q)).signal c.desc).sem n).value)
      ∧ (∀ n, ((t.part (pageFn q)).sem n).holder ≠ some (q, c.slot))
      ∧ (∀ st ∈ c.att.staged, s.skips q c = false → (c.att.useOfStaged st).isSome = true →
        (∀ y ∈ c.att.staged, y.hall = st.hall → y.d.pair = st.d.pair → y.face = st.face) →
        ((t.hall st.hall).faces1.contains st.d.pair = true ↔ st.face = 1))
      ∧ (∀ (h : Nat) (pair : Nat × Nat), s.skips q c = true ∨ (∀ st ∈ c.att.staged, st.hall = h → st.d.pair ≠ pair) →
        ((t.hall h).faces1.contains pair = true ↔ (s.hall h).faces1.contains pair = true))
      ∧ (∀ w ∈ c.att.twins, (∀ y ∈ c.att.twins, y.hall = w.hall → y = w ∨ (y.lrow ≠ w.lrow ∧ y.phys ≠ w.phys)) →
        (∀ l, (s.hall w.hall).phys? (pageJob q) l ≠ some w.phys) → (w.hall, w.lrow) ∉ c.att.freed →
        (t.hall w.hall).phys? (pageJob q) w.lrow = some w.phys ∧ (t.hall w.hall).row w.phys = w.row)
      ∧ (∀ r ∈ c.att.freed, ∀ p, (t.hall r.1).phys? (pageJob q) r.2 = some p → (t.hall r.1).row p = URow.free)
      ∧ ∀ h ∈ s.pageHalls q, (∀ b ∈ c.att.stateBlk, b.1 ≠ h) →
        let words := fun (l : List (Nat × Nat × Nat)) (lane : Nat) =>
          ((l.filter fun d => d.1 == h && d.2.1 == lane).map fun d => d.2.2).sum
        (t.hall h).step = (s.hall h).step + (if s.isUpdate q c && !s.skips q c then 1 else 0)
          ∧ ∀ lane < 32, tabGet 0 (t.hall h).riser lane = tabGet 0 (s.hall h).riser lane + BitVec.ofNat 64 (words c.att.riserDraw lane)
            ∧ tabGet 0 (t.hall h).sampler (32 * pageJob q + lane) % 2 ^ 60
              = (tabGet 0 (s.hall h).sampler (32 * pageJob q + lane) + words c.att.sampDraw lane) % 2 ^ 60

/-- WAIT_GE of a semaphore compares modulo 2^16. A slot that SEM_REL releases early is free once its operation has
completed in every hall that holds it, and the command still runs. -/
def Obligations.SemaphoresCompareAndRelease : Prop :=
  (∀ (x : Sem) (target : Nat), target < 2 ^ 16 →
    (x.reaches target = true ↔ (x.value.toNat + 2 ^ 16 - target) % 2 ^ 16 < 0x8000))
  ∧ ∀ (s : State) (q : Page) (slot : Nat) (c : Cmd) (p : Plan) (i : Nat), s.frozen = false → s.cmd? q slot = some c →
    s.plan? q = some p → c.dispatched = true → c.opcode = opRUN → i < 4 → (c.desc.sem i).2.1 = 1 →
    s.earlyDone q p c i = true →
    ∃ t, exec (.semaphoreEarlyRelease q slot) s = .next t
      ∧ ((t.part (pageFn q)).sem (c.desc.sem i).1).holder ≠ some (q, slot)
      ∧ (t.cmd? q slot).map Cmd.phase = some c.phase ∧ t.halls = s.halls ∧ t.host = s.host

/-- A semaphore wait that times out, and a link wait that times out, fails its command: the oldest of an enabled queue posts
ERR_SEM_TIMEOUT or ERR_CMD_TIMEOUT and halts it. -/
def Obligations.TimeoutsFailTheCommand : Prop :=
  ∀ (s : State) (q : Page) (c : Cmd) (rest : List Cmd), s.frozen = false → (s.job q).cmds = c :: rest →
    rest.all (fun x => x.slot != c.slot) = true → (s.job q).cqFull = false → (s.job q).halted = false →
    (s.job q).enable = true →
    (c.phase = .waiting → (s.part (pageFn q)).semsReady c.desc = false →
      ∃ t, exec (.semaphoreTimeout q ⟨true, false⟩) s = .next t ∧ (t.job q).halted = true ∧ (t.job q).haltCode = 0x0502)
    ∧ (c.phase = .running → (s.part (pageFn q)).holder = some (pageJob q) → s.unreceipted q c = true →
      ∃ t, exec (.linkArrivalTimeout q c.slot ⟨true, false⟩) s = .next t ∧ (t.job q).halted = true
        ∧ (t.job q).haltCode = 0x0503)

/-! ### The work of queue commands -/

/-- The work of a STORE ends with the bytes of the committed face and their host address in the attempt: it writes nothing and
stages nothing, and the commit point puts them into host memory (log 73). -/
def Obligations.StoreTakesTheFace : Prop :=
  ∀ (s : State) (q : Page) (slot : Nat) (c : Cmd) (u : Use) (b : List Byte), s.frozen = false → s.cmd? q slot = some c →
    c.slot = slot → c.phase = .running → c.opcode = opSTORE → c.noWork = false → c.att.finished = false →
    c.att.uses = [u] → s.unitData q u c.desc.part c.desc.first c.desc.count = .ok b →
    ∃ t, exec (.store q (.work slot)) s = .next t
      ∧ (t.att q slot).hostOut = [(c.desc.b 48 8, b)] ∧ t.host = s.host
      ∧ (t.att q slot).finished = true ∧ (t.att q slot).staged = c.att.staged
      ∧ t.halls = s.halls ∧ t.parts = s.parts

/-- LOAD and COPY with equal format words end their work in staging: the attempt is finished and its one staged face is the
target's other face, and no partition, function, host byte or other queue changes. With PART 0 that face holds the source's codes
(R153), a row that is packed whole in its packed form, with PART 1 the source's fine codes, and with PART 2 its side list. -/
def Obligations.LoadAndCopyStage : Prop :=
  ∀ (s : State) (q : Page) (slot : Nat) (c : Cmd) (u : Use), s.frozen = false → s.cmd? q slot = some c → c.slot = slot →
    c.phase = .running → c.noWork = false → c.att.finished = false → c.att.staged = [] →
    let n := c.desc.count
    let staged := fun (t : State) => (t.att q slot).finished = true
      ∧ ((t.att q slot).staged.map fun st => (st.hall, st.face, st.d)) = [(u.hall, 1 - u.face, u.d)] ∧ SameOutside q s t
    let holds := fun (t : State) (first : Nat) (b : List Byte) => HoldsUnits (Plan.isPacked (s.plan? q) u.d.tensor) u.d (1 - u.face)
      c.desc.part first n b (t.hall u.hall).hbm
    (∀ b, c.opcode = opLOAD → c.desc.part ≤ 2 → c.att.uses = [u] → b = s.readAt q (c.desc.b 40 8) (unitBytes u.d c.desc.part n) →
      s.addrPoison q (c.desc.b 40 8) (unitBytes u.d c.desc.part n) = none → badList u.d c.desc.part b = false →
      ∃ t, exec (.load q (.work slot)) s = .next t ∧ staged t ∧ holds t c.desc.first b)
    ∧ (∀ (v : Use) (b : List Byte), c.opcode = opCOPY → c.desc.part ≤ 2 → c.att.uses = [v, u] → v.d.fmtRaw = u.d.fmtRaw →
      s.unitData q v c.desc.part c.desc.first n = .ok b →
      ∃ t, exec (.copy q (.work slot)) s = .next t ∧ staged t ∧ holds t c.desc.first2 b)

/-- The work of a plan's LOAD reads the image, in which bytes that a BAR2 write met are free (R164): a plan that passes every check
stands by beside the active one, and an image that fails one fails the command with that check's code. -/
def Obligations.PlanLoadStandsBy : Prop :=
  ∀ (s : State) (q : Page) (slot : Nat) (c : Cmd), s.frozen = false → s.cmd? q slot = some c →
    c.phase = .running → c.opcode = opLOAD → c.desc.part = 3 → c.noWork = false → (s.part (pageFn q)).loading = none →
    s.keyBurn = none → s.addrPoison q (c.desc.b 40 8) c.desc.count = none →
    let r := { s with free := (s.unsure c).free }
    let image := readPlan (s.planCtx (pageFn q)) ((s.unsure c).readAt q (c.desc.b 40 8) c.desc.count)
    ∃ t, exec (.planLoad q (.work slot)) s = .next t
      ∧ (∀ p, image = .ok p → (t.part (pageFn q)).loading.map Loading.plan = some p
        ∧ (t.part (pageFn q)).plan = (s.part (pageFn q)).plan ∧ t.halls = s.halls ∧ t.jobs = s.jobs ∧ t.host = s.host)
      ∧ (∀ e, image = .error e → t = r.failCmd q slot e 0xFFFF)

/-! ### Operations of a pass -/

/-- The four MATPASS rows complete: a pass whose operands can be read, whose witness comparisons hold and whose partials find
room in the reorder buffers has a tile for each tile row and output group, and changes nothing outside its own attempt but the
bays it reloads. With K-chunk 0 alone and no partial that waits, a row group, free before, holds the sums of the 64 flights. -/
def Obligations.MatpassCompletes : Prop :=
  ∀ (s : State) (a : Site) (u : Upset) (x : OpCtx) (o : MatOp) (k : Nat) (c : Site → Upset → Instr) (m : MatRun)
      (t1 : State),
    (k, c) ∈ [(0, Instr.matpassL), (1, Instr.matpassWideSum), (2, Instr.matpassT), (3, Instr.matpassB)] →
    AtTurn s a (fun _ => Op.isMat k) x → x.op = .matpass o → s.matpass x o = .ok m → m.bad = [] → m.hold = false →
    (m.close x o).drain x = .ok t1 → u.mismatch = [] → u.parity = [] →
    ∃ t, exec (c a u) s = .next t ∧ OpDone x t
      ∧ (∀ i < o.tiles, ∀ g < o.groups x.plan, HasTile x i g t)
      ∧ SameOutside x.page s t ∧ SameCommitted s t ∧ SameStacks s t
      ∧ ∀ (us : Use) (acts : Acts) (s1 : State) (r g : Nat), k ≠ 3 → o.ckFirst = 0 → o.ckCount = 1 → o.chunks = 1 →
        (s.att x.page x.slot).early = [] →
        (s.att x.page x.slot).use? x.hall o.wtensor = some us → s.matActs x o = .ok acts →
        s.freshChunks x us ((s.hall x.hall).galsOf o.gals) (o.needs x.plan) = .ok s1 →
        (∀ n < 64 * o.tiles * o.groups x.plan,
          (s.viewRow x.page x.slot x.hall (o.ubase + n * slotCount o.slots)).tag.state = 0) →
        r < 64 * o.tiles → g < o.groups x.plan →
        ∃ kk, s1.chunkOf x o us ((s.hall x.hall).galsOf o.gals) g o.ckFirst = some kk
          ∧ (t.viewRow x.page x.slot x.hall (o.ubase + (r * o.groups x.plan + g) * slotCount o.slots)).data
            = (List.range 64).map fun j =>
                BitVec.ofNat 32 (flight x.plan.tables o.kind acts kk (o.klen x.plan) r o.ckFirst j).1

/-- The seventeen E-mode rows complete, with a tile status word for each tile: that tile i of the pass is token-row tile i of output
group 0 is the model's choice of log 87. Results to rows: the 64 results of a flight fill one row, free before, as a single partial of
ACC 0x5; no byte of a stack changes. -/
def Obligations.ElementwiseCompletes : Prop :=
  ∀ (s : State) (a : Site) (u : Upset) (x : OpCtx) (o : EOp) (k : Nat) (c : Site → Upset → Instr) (t1 : State),
    (k, c) ∈ [(eMUL, Instr.eMul), (eDIV, Instr.eDiv), (eRECIP, Instr.recip), (eSQRT, Instr.eSqrt), (eRSQRT, Instr.rsqrt),
      (ePOW, Instr.pow), (eSCALE, Instr.scale), (eEXP, Instr.exp), (eLOG2, Instr.log2), (eLN, Instr.ln), (eABS, Instr.abs),
      (eNEG, Instr.neg), (eMAX, Instr.eMax), (eMIN, Instr.eMin), (eCMPGT, Instr.cmpgt), (eCMPEQ, Instr.cmpeq),
      (eFUNC, Instr.func)] →
    AtTurn s a (fun _ => Op.isE k) x → x.op = .epass o → s.epass x o = .ok t1 → u.parity = [] →
    ∃ t, exec (c a u) s = .next t ∧ OpDone x t
      ∧ (∀ i < o.tiles, HasTile x i 0 t)
      ∧ SameOutside x.page s t ∧ SameCommitted s t
      ∧ (o.dest = false → SameStacks s t ∧
        ∀ (s1 s2 : State) (tiles : List ETile) (vecs : List (List EEl)) (n : Nat),
          s.eOperandA x o = .ok (s1, tiles) → s1.eVectors x o = .ok (s2, vecs) →
          (∀ i < 64 * o.tiles, (s.viewRow x.page x.slot x.hall (o.drow + i * slotCount o.slots)).tag.state = 0) →
          n < 64 * o.tiles →
          let out := tiles.zipIdx.flatMap fun (z, i) => eTile x.plan o i z (vecs.getD i [])
          let r := t.viewRow x.page x.slot x.hall (o.drow + n * slotCount o.slots)
          r.data = (((out.drop (64 * n)).take 64).map fun e => BitVec.ofNat 32 e.v.toF32)
            ∧ r.tag.state = 2 ∧ r.tag.acc = 5 ∧ r.tag.sfmt = o.sfmt)

/-- The fourteen Newel rows complete: result row i, free before, is a single partial of ACC 0x6 whose first elements are
the stated results, and nothing outside the command changes. Of SAMPLE and VERIFY where a token stands in its row (element 0, the
accepted tokens in the first result row, the places of the operands) is the model's choice of log 18, and of XENT which value between
its two roundings a finite row has is that of log 30: these clauses are the model's, no rule's. -/
def Obligations.NewelCompletes : Prop :=
  ∀ (s : State) (a : Site) (u : Upset) (x : OpCtx) (o : NewelOp) (k : Nat) (c : Site → Upset → Instr) (v : NewelIn)
      (t1 : State),
    (k, c) ∈ [(nADD, Instr.newelAdd), (nMUL, Instr.newelMul), (nFMA, Instr.fma), (nDIV, Instr.newelDiv),
      (nSQRT, Instr.newelSqrt), (nMAXIMUM, Instr.maximum), (nMINIMUM, Instr.minimum), (nMAXNUM, Instr.maxnum),
      (nMINNUM, Instr.minnum), (nCMP, Instr.cmp), (nROWMAX, Instr.rowmax), (nXENT, Instr.xent), (nSAMPLE, Instr.sample),
      (nVERIFY, Instr.verify)] →
    AtTurn s a (fun _ => Op.isNewel k) x → x.op = .newel o → s.newelIn x o = .ok v → s.newel x o = .ok t1 →
    u.residue = none →
    ∃ t, exec (c a u) s = .next t ∧ OpDone x t ∧ SameOutside x.page s t ∧ t.halls = s.halls
      ∧ ∀ i, (∀ j < o.rows, (s.viewRow x.page x.slot x.hall (o.drow + j)).tag.state = 0) → i < o.rows →
        let w := rowBits o.fp64 ((s.newelOut x o v).2.getD i [])
        let r := t.viewRow x.page x.slot x.hall (o.drow + i)
        r.data.take w.length = w ∧ r.tag.state = 2 ∧ r.tag.acc = 6

/-- BAYLOAD, SAVE, REBLOCK, the STORE operation and HBMCOPY complete on operands that can be read; they change their own
attempt, bays or staging faces, and no committed state. BAYLOAD writes no stack. -/
def Obligations.MemoryOperationsComplete : Prop :=
  ∀ (s : State) (a : Site) (x : OpCtx) (t1 : State),
    (∀ (o : BayloadOp) (u : Upset), AtTurn s a (fun _ => Op.isBayload) x → x.op = .bayload o → s.bayload x o = .ok t1 →
      u.parity = [] →
      ∃ t, exec (.bayload a u) s = .next t ∧ OpDone x t ∧ SameOutside x.page s t ∧ SameCommitted s t ∧ SameStacks s t)
    ∧ (∀ (o : SaveOp) (re : Bool), AtTurn s a (fun _ => Op.isSave re) x → x.op = .save o →
      (if re then s.reblock x o else s.save x o) = .ok t1 →
      ∃ t, exec (if re then .reblock a else .save a) s = .next t ∧ OpDone x t ∧ SameOutside x.page s t ∧ SameCommitted s t)
    ∧ (∀ o : StoreOp, AtTurn s a (fun _ o => match o with
          | .store _ => true
          | _ => false) x → x.op = .store o → s.storeRows x o = .ok t1 →
      ∃ t, exec (.storeOperation a) s = .next t ∧ OpDone x t ∧ SameOutside x.page s t ∧ SameCommitted s t)
    ∧ (∀ o : CopyOp, AtTurn s a (fun _ o => match o with
          | .hbmcopy _ => true
          | _ => false) x → x.op = .hbmcopy o → s.hbmcopy x o = .ok t1 →
      ∃ t, exec (.hbmcopy a) s = .next t ∧ OpDone x t ∧ SameOutside x.page s t ∧ SameCommitted s t)

/-- What stages bytes stores nowhere else: of an operation that completes here, and of the work of LOAD, COPY and GANG that
ends here, every byte of every stack outside the faces that the command stages reads as before. -/
def Obligations.StagedBytesStayInTheirFaces : Prop :=
  (∀ (s t : State) (a : Site) (u : Upset) (off : Nat) (c : Instr), u.parity = [] → u.residue = none →
    c ∈ [Instr.save a, .reblock a, .storeOperation a, .hbmcopy a, .apply a u, .recv a, .pull a, .mezzRestore a,
      .eMul a u, .eDiv a u, .recip a u, .eSqrt a u, .rsqrt a u, .pow a u, .scale a u, .exp a u, .log2 a u, .ln a u,
      .abs a u, .neg a u, .eMax a u, .eMin a u, .cmpgt a u, .cmpeq a u, .func a u] →
    exec c s = .next t → off ∈ (t.att a.page a.slot).doneAt a.hall → off ∉ (s.att a.page a.slot).doneAt a.hall →
    StoresInStagedFaces a.page a.slot s t)
  ∧ ∀ (s t : State) (q : Page) (slot : Nat) (c : Page → CmdStep → Instr),
    c ∈ [Instr.load, .copy, .gangReduceToOwner, .gangAllReduce, .gangGather, .gangBroadcast] →
    exec (c q (.work slot)) s = .next t → (t.att q slot).finished = true → (s.att q slot).finished = false →
    StoresInStagedFaces q slot s t

/-- HOLD writes the EL_COUNT oldest values that the Concourse handed over to the hold of its hall, little-endian from
its segment's first byte; no other byte of any stack changes. It waits while fewer values are there, and then a later HOLD that
nothing orders after it may end in its place (the model's reading of R121, log 71). -/
def Obligations.HoldWritesTheValues : Prop :=
  ∀ (s : State) (a : Site) (u : Upset) (x : OpCtx) (o : RiserOp), AtTurn s a (fun _ => Op.isRiser false) x →
    x.op = .riser o → u.residue = none →
    let l := (s.att x.page x.slot).handed x.hall o.tree
    let base := (s.hall x.hall).holdAt o 0
    (l.length < o.elCount → ∃ t, exec (.hold a u) s = .next t ∧ ¬ OpDone x t
      ∧ ((s.opsAt a fun _ => Op.isRiser false) = [x] → t = s))
    ∧ (o.elCount ≤ l.length → ∃ t, exec (.hold a u) s = .next t ∧ OpDone x t
      ∧ memReads (t.hall x.hall).hbm base (4 * o.elCount) = (l.take o.elCount).flatMap (fun v => natLE v.toNat 4)
      ∧ (∀ b, b < base ∨ base + 4 * o.elCount ≤ b → memRead (t.hall x.hall).hbm b = memRead (s.hall x.hall).hbm b)
      ∧ (∀ h, h ≠ x.hall → t.hall h = s.hall h)
      ∧ (t.att x.page x.slot).handed x.hall o.tree = l.drop o.elCount
      ∧ SameOutside x.page s t ∧ SameCommitted s t)

/-- APPLY waits for its hall's verdict and does nothing when it is SKIP. Otherwise an APPLY whose operands can be read, and whose
hold is not poisoned, has a staging face of the parameter and of each moment, counts its elements, and adds to its layer's norms
what the optimiser made of them; no committed state changes. -/
def Obligations.ApplyFollowsTheVerdict : Prop :=
  ∀ (s : State) (a : Site) (u : Upset) (x : OpCtx) (o : RiserOp), AtTurn s a (fun _ => Op.isRiser true) x →
    x.op = .riser o → u.residue = none →
    ((s.att x.page x.slot).verdict.find? (·.1 == x.hall) = none → exec (.apply a u) s = .next s)
    ∧ (∀ v : Nat × Verdict, (s.att x.page x.slot).verdict.find? (·.1 == x.hall) = some v →
      (v.2.apply = false →
        ∃ t, exec (.apply a u) s = .next t ∧ OpDone x t ∧ SameOutside x.page s t ∧ t.halls = s.halls
          ∧ (t.att x.page x.slot).staged = (s.att x.page x.slot).staged)
      ∧ (∀ (ai : ApplyIn) (pol : TPolicy), v.2.apply = true → s.applyIn x o = .ok ai → x.plan.policyOf o.ptensor = some pol →
        (s.hall x.hall).poisonIn [((s.hall x.hall).holdAt o 0, 4 * o.elCount)] = none →
        ∃ t, exec (.apply a u) s = .next t ∧ OpDone x t ∧ SameOutside x.page s t ∧ SameCommitted s t
          ∧ (∀ f, f ∈ some ai.p :: [ai.m, ai.v] → ∀ z ∈ f, ((t.att x.page x.slot).staged? z.1).isSome = true)
          ∧ (t.att x.page x.slot).norms = (s.att x.page x.slot).norms
            ++ [(x.hall, x.off, applyNorm o.layer (s.applyEls x o pol v.2.k ai))]
          ∧ (t.att x.page x.slot).rsrElems = (s.att x.page x.slot).rsrElems ++ [(x.hall, o.elCount)]))

/-- HALLWAIT ends when the other hall's operation has completed, and waits before, when a later one may end (the model's reading
of R121, log 71); SEND completes with the receipt of its transfer, and RECV, PULL and a Mezzanine restore with the whole
transfer that they wait for; each adds one collective record. FP32 rows that a RECV takes stand in its rows, free before. -/
def Obligations.LinkOperationsComplete : Prop :=
  ∀ (s : State) (a : Site) (x : OpCtx), let k := x.link
    (∀ lh n : Nat, AtTurn s a (fun _ o => match o with
        | .hallwait .. => true
        | _ => false) x → x.op = .hallwait lh n →
      (n ∈ x.cmd.att.doneAt (s.phys x.page lh) →
        ∃ t, exec (.hallwait a) s = .next t ∧ OpDone x t ∧ SameOutside x.page s t ∧ t.halls = s.halls)
      ∧ (n ∉ x.cmd.att.doneAt (s.phys x.page lh) → ∃ t, exec (.hallwait a) s = .next t ∧ ¬ OpDone x t ∧ t.halls = s.halls
        ∧ ((s.opsAt a fun _ o => match o with
          | .hallwait .. => true
          | _ => false) = [x] → t = s)))
    ∧ (∀ (o : SendOp) (data : List Byte) (code : Nat), AtTurn s a (fun _ o => match o with
          | .send _ => true
          | _ => false) x → x.op = .send o → s.sendData x o = .ok data →
      (x.hall, s.linkId k kPUSH o.tkey (s.opRound x false o.tkey) 0 0) ∈ (s.att x.page x.slot).sent →
      s.receiptOf k (s.linkId k kPUSH o.tkey (s.opRound x false o.tkey) 0 0) = some code →
      ∃ t, exec (.send a) s = .next t ∧ OpDone x t ∧ SameOutside x.page s t ∧ t.halls = s.halls
        ∧ (t.att x.page x.slot).colls = (s.att x.page x.slot).colls
          ++ [s.collOf k 9 o.tkey (s.opRound x false o.tkey) [kPUSH] []])
    ∧ (∀ (o : RecvOp) (pull : Bool) (b : List Byte) (t1 : State),
      let id := s.linkId k (if pull then kPULLDATA else kPUSH) o.tkey (s.opRound x false o.tkey) 0 0
      let p := Lead.parse b
      AtTurn s a (fun _ => Op.isRecv fun m => if pull then m == 2 else m < 2) x → x.op = .recv o →
      (pull = true → (x.hall, s.linkId k kPULLREQ o.tkey (s.opRound x false o.tkey) 0 0) ∈ (s.att x.page x.slot).sent) →
      s.fullOf k id = some b →
      (if o.mode = 0 then s.takeRows x o.urow p.1 o.count p.2 else s.takeTensor x o.tensor o.first o.count p.1 p.2) = .ok t1 →
      ∃ t, exec (if pull then .pull a else .recv a) s = .next t ∧ OpDone x t ∧ SameOutside x.page s t ∧ SameCommitted s t
        ∧ (t.att x.page x.slot).colls.length = (s.att x.page x.slot).colls.length + 1
        ∧ ∀ i, o.mode = 0 → (∀ j < o.count, (s.viewRow x.page x.slot x.hall (o.urow + j)).tag.state = 0) → i < o.count →
          (t.viewRow x.page x.slot x.hall (o.urow + i)).data
            = (List.range 64).map fun e => BitVec.ofNat 32 (u32 p.2 (256 * i + 4 * e)))
    ∧ (∀ (o : RecvOp) (b : List Byte) (t1 : State), AtTurn s a (fun _ => Op.isRecv fun m => m == 3) x → x.op = .recv o →
      (x.hall, s.mezzId k kMEZZREQ (mezzBefore x)) ∈ (s.att x.page x.slot).sent →
      s.fullOf k (s.mezzId k kMEZZDATA (mezzBefore x)) = some b → s.restore x o (Lead.parse b).2 = .ok t1 →
      ∃ t, exec (.mezzRestore a) s = .next t ∧ OpDone x t ∧ SameOutside x.page s t ∧ SameCommitted s t
        ∧ (t.att x.page x.slot).colls.length = (s.att x.page x.slot).colls.length + 1)

/-- The four REDUCE rows complete when every transfer of the collective is complete: one collective record more, no
committed state and no stack changed. A node's value combines the rank's own value with those of its right children in the
order in which it awaits them, each older value on the left. -/
def Obligations.ReduceCompletes : Prop :=
  (∀ (s : State) (a : Site) (x : OpCtx) (o : ReduceOp) (k : Nat) (c : Site → Instr) (t1 : State),
    (k, c) ∈ [(0, Instr.reduceToRiserHold), (1, Instr.reduceToOwnerRows), (2, Instr.allReduce), (3, Instr.normPacket)] →
    AtTurn s a (fun _ => Op.isReduce k) x → x.op = .reduce o → s.reduce x o = .done t1 →
    ∃ t, exec (c a) s = .next t ∧ OpDone x t ∧ SameCommitted s t ∧ SameStacks s t
      ∧ (t.att x.page x.slot).colls.length = (s.att x.page x.slot).colls.length + 1)
  ∧ ∀ (s : State) (c : CollCtx) (shard : Nat) (own : NodeVal) (ws : List Nat) (vs : List NodeVal),
    ws.map (s.child c shard) = vs.map (fun v => .ok (.value v)) →
    (vs.foldl (NodeVal.withChild c.kind) own).list.length ≤ 255 →
    s.upValue c shard ws own = .ok (some (vs.foldl (NodeVal.withChild c.kind) own))

/-- The work of a RUN (the model's step, log 11): each hall of the partition, one after the other, takes the first of its
operations that may start and does not wait, by that operation's own row. A FENCE has no work, and its commit waits, with PEER,
until every transfer of its job is acknowledged; a CHECKPOINT is finished when every hall's image has been sent and answered; a
GANG is finished when its collective is complete and its result staged. -/
def Obligations.FenceCheckpointAndGangFinish : Prop :=
  (∀ (s : State) (q : Page) (slot : Nat), s.frozen = false →
    ∃ t, exec (.run q (.work slot)) s = .next t ∧ HallsTake q slot (s.pageHalls q) s t)
  ∧ ∀ (s : State) (q : Page) (slot : Nat) (c : Cmd), s.frozen = false → s.cmd? q slot = some c → c.slot = slot →
    (c.opcode = opFENCE → exec (.fence q (.work slot)) s = .next s
      ∧ (s.workDone q c = true ↔ c.desc.peer = false ∨ s.peersDone q = true))
    ∧ (∀ p : Plan, c.phase = .running → c.opcode = opCHECKPOINT → c.noWork = false → c.att.finished = false →
      s.plan? q = some p →
      (∀ h ∈ s.pageHalls q, let k : LinkCtx := ⟨q, slot, h, h - (s.part (pageFn q)).base, p, c.seq⟩
        (∃ img, (s.unsure c).slotImage q c h = .ok img) ∧ (h, s.mezzId k kMEZZ 0) ∈ c.att.sent
          ∧ (s.receiptOf k (s.mezzId k kMEZZ 0)).isSome = true) →
      ∃ t, exec (.checkpoint q (.work slot)) s = .next t ∧ (t.att q slot).finished = true ∧ SameOutside q s t
        ∧ t.halls = s.halls)
    ∧ (∀ (op : Nat) (i : Page → CmdStep → Instr) (g : GangCtx) (f : Face) (s1 t1 : State) (roots : List NodeVal),
      (op, i) ∈ [(1, Instr.gangReduceToOwner), (2, Instr.gangAllReduce), (3, Instr.gangGather), (4, Instr.gangBroadcast)] →
      c.phase = .running → c.opcode = opGANG → c.noWork = false → c.att.finished = false → c.desc.gangOp = op →
      s.gangCtx q c = some g → s.gangFace g = .ok f →
      ((s.hall g.tgt.hall).job (pageJob q)).treeBad g.c.tree g.c.round = false → State.collStep g.c (g.own f) g.c.shards s = .ok (s1, true, roots) →
      s1.gangWrite q slot g (if op = 2 ∨ op = 4 then roots
        else roots.filter fun v => g.c.tree.owner v.shard == g.rank) = .ok t1 →
      ∃ t, exec (i q (.work slot)) s = .next t ∧ (t.att q slot).finished = true ∧ SameCommitted s t)

/-! ### Timers of links -/

/-- A child whose deadline clock wins is ABSENT in the ledger (unpaired; a paired leg asks its partner first); an UP or DOWN
without a receipt in time is recorded as unanswered; a held transfer is sent again from its first byte; a
rank that sent a value up and has no DOWN value by its bound fails its command with ERR_LINK_OWNER. -/
def Obligations.LinkTimersAct : Prop :=
  ∀ s : State, s.frozen = false →
    (∀ (hall job key round shard node kind : Nat) (e : TxEnt), let id := s.xid hall job kind key round shard node
      ((s.hall hall).job job).tx? id = some e → e.receipt = none →
      (kind = kUP ∨ kind = kDOWN →
        ∃ t, exec (.unanswered hall job key round shard node kind) s = .next t
          ∧ ((t.hall hall).job job).tx? id = some { e with receipt := some (8, 0), late := true }
          ∧ (t.hall hall).ports = (s.hall hall).ports ∧ t.jobs = s.jobs)
      ∧ (e.held = true → (s.portOf (e.ports.getD 0 0)).up = true →
        ∃ t, exec (.holdResend hall job key round shard node kind) s = .next t
          ∧ (((t.hall hall).job job).tx? id).map (fun n => (n.held, n.tries, n.receipt)) = some (false, e.tries + 1, none)
          ∧ t.jobs = s.jobs))
    ∧ (∀ (a : Site) (c : CollCtx) (sh leaf : Nat), c ∈ s.collsAt a → c.up = true → c.down = true → sh ∈ c.shards →
      c.tree.leafOf? sh (s.rankOf c) = some leaf → leaf ≠ 0 →
      (a.hall, s.upId c sh (c.tree.top leaf)) ∈ (s.att a.page a.slot).sent →
      s.fullOf c.k (s.downId c sh (c.tree.top leaf)) = none →
      exec (.downValueTimeout a) s = .next (s.failCmd a.page a.slot 0x0803 0xFFFF))
    ∧ (∀ (a : Site) (shard node leaf : Nat) (c : CollCtx), c ∈ s.collsAt a → c.up = true → shard ∈ c.shards → c.forced = none →
      c.tree.leafOf? shard (s.rankOf c) = some leaf → node ∈ c.tree.awaits leaf → (s.clocked a shard node).isSome = true)
    ∧ (∀ (a : Site) (shard node : Nat) (close : Bool) (c : CollCtx), s.clocked a shard node = some c →
      ((s.hall a.hall).job c.k.job).rx? (s.upId c shard node) = none → s.isPaired a.hall = false →
      ∃ t, exec (.deadlineExpiry a shard node ⟨true, close⟩) s = .next t
        ∧ ((t.hall a.hall).job c.k.job).rxState (s.upId c shard node) = some .absent
        ∧ (∀ id, id ≠ s.upId c shard node →
          ((t.hall a.hall).job c.k.job).rxState id = ((s.hall a.hall).job c.k.job).rxState id)
        ∧ (∀ h, h ≠ a.hall → t.hall h = s.hall h) ∧ t.parts = s.parts ∧ t.host = s.host)

/-! ### Ports and frames -/

/-- R212 at the receiver: a DATA frame with a good CRC and the expected SEQ is taken into the receive buffer; any other is
discarded and answered with an LNAK whose ACKSEQ names the last frame taken. A frame that has reached its hall and that no
handler takes leaves the buffer at once (R215). The eighth CRC failure in a row of the next frame expected begins a degrade of an
optical port (which frame fails is read from its SEQ, log 109). -/
def Obligations.InOrderFramesAreTaken : Prop :=
  ∀ (s : State) (h i : Nat) (f : Frame), f.typ = tDATA → ((s.hall h).port i).usable = true →
    let p := (s.hall h).port i
    let keep := fun (l : List Frame) => l.filter fun g => !(arrived g && isStray g)
    let next := p.rxbuf ++ [hopDone (portNum h i) f]
    ∃ t, exec (.dataFrame h i f) s = .next t
      ∧ (frameOk f = true → f.seq = p.rxNext →
          ((t.hall h).port i).rxbuf = keep next ∧ ((t.hall h).port i).rxNext = (p.rxNext + 1) % 65536
          ∧ (keep next = next → ((t.hall h).port i).outQ = p.outQ))
      ∧ (frameOk f = false ∨ f.seq ≠ p.rxNext →
          ((t.hall h).port i).rxbuf = keep p.rxbuf ∧ ((t.hall h).port i).rxNext = p.rxNext
          ∧ (keep p.rxbuf = p.rxbuf → ((t.hall h).port i).outQ
            = p.outQ ++ [sealFrame { Frame0 with typ := tLNAK, ackseq := (p.rxNext + 0xFFFF) % 65536 }]))
      ∧ (frameOk f = false → f.seq = p.rxNext → i < 3 → 7 ≤ p.crcRun → ((t.hall h).port i).training = true)
      ∧ (∀ k, k ≠ i → (t.hall h).port k = (s.hall h).port k) ∧ (∀ k, k ≠ h → t.hall k = s.hall k)
      ∧ t.jobs = s.jobs ∧ t.parts = s.parts

/-- LACK, LNAK and CREDIT frames: ACKSEQ frees the frames of the retry buffer up to it, a credit adds its units to its
channel, and an LNAK sends what is left again; a report of ACKSEQ puts one LACK frame on the wire. -/
def Obligations.AcknowledgementsAndCredits : Prop :=
  ∀ (s : State) (h i : Nat) (f : Frame), ((s.hall h).port i).usable = true →
    let p := (s.hall h).port i
    (∀ (n : Nat) (c : Nat → Nat → Frame → Instr),
      (n, c) ∈ [(tLACK, Instr.lack), (tLNAK, Instr.lnak), (tCREDIT, Instr.credit)] → f.typ = n → frameOk f = true →
      ∃ t, exec (c h i f) s = .next t
        ∧ (∀ g, g ∈ ((t.hall h).port i).retry ↔ g ∈ p.retry ∧ seqLe g.seq f.ackseq = false)
        ∧ tabGet 0 ((t.hall h).port i).credits f.crVc = tabGet 0 p.credits f.crVc + f.crUnits
        ∧ (∀ v, v ≠ f.crVc → tabGet 0 ((t.hall h).port i).credits v = tabGet 0 p.credits v)
        ∧ ((t.hall h).port i).outQ
          = p.outQ ++ (if n = tLNAK then ((t.hall h).port i).retry.map sealFrame else [])
        ∧ ((t.hall h).port i).rxbuf = p.rxbuf ∧ (∀ k, k ≠ h → t.hall k = s.hall k))
    ∧ (∃ t, exec (.ackseqReport h i) s = .next t ∧ ((t.hall h).port i).outQ
        = p.outQ ++ [sealFrame { Frame0 with typ := tLACK, ackseq := (p.rxNext + 0xFFFF) % 65536 }])

/-- A frame leaves under its channel's credits: it takes the next SEQ, goes to the wire with a good CRC and into the retry
buffer, and uses up its units; a transit frame goes on to the port that its route names, and its credits return where the
channel keeps none back. -/
def Obligations.FramesLeaveUnderCredit : Prop :=
  ∀ (s : State) (h i : Nat) (f : Frame), s.frozen = false →
    let p := (s.hall h).port i
    (p.usable = true → pickFrame p.credits [] p.txq = some f → (p.retry.map frameSize).sum + frameSize f ≤ 2 ^ 20 →
      ∃ t g, exec (.frameTransmit h i) s = .next t ∧ g.seq = p.txSeq ∧ g.payload = f.payload ∧ g.hdr = f.hdr
        ∧ ((t.hall h).port i).outQ = p.outQ ++ [sealFrame g] ∧ frameOk (sealFrame g) = true
        ∧ ((t.hall h).port i).retry = p.retry ++ [g] ∧ ((t.hall h).port i).txSeq = (p.txSeq + 1) % 65536
        ∧ frameUnits f ≤ tabGet 0 p.credits f.vc
        ∧ tabGet 0 ((t.hall h).port i).credits f.vc = tabGet 0 p.credits f.vc - frameUnits f
        ∧ ((t.hall h).port i).txq.length + 1 = p.txq.length)
    ∧ (pickRx (fun f => !arrived f) [] p.rxbuf = some f → (s.portOf (f.ports.getD f.hopIdx 0)).up = true →
      ∃ t, exec (.transitForward h i) s = .next t
        ∧ (t.portOf (f.ports.getD f.hopIdx 0)).txq = (s.portOf (f.ports.getD f.hopIdx 0)).txq ++ [f]
        ∧ (p.up = true → tabGet 0 p.withheld f.vc = 0 → ((t.hall h).port i).outQ = p.outQ ++ [sealFrame { Frame0 with
            typ := tCREDIT, crVc := f.vc, crUnits := frameUnits f, ackseq := (p.rxNext + 0xFFFF) % 65536 }]))

/-- Training: a lane that is lost stops its port, seven good lanes bring it up again, fewer take it down; RETRAIN offers every lane
to a training and changes none that carries until it ends; HOLD_DOWN acts on a port as the physical function writes it. -/
def Obligations.PortsTrainOrGoDown : Prop :=
  ∀ (s : State) (h i lane : Nat) (lanes : Byte) (peerAck : Nat),
    let p := (s.hall h).port i
    let m := lanes &&& p.offer
    (i < 3 → p.usable = true → p.lanes.getLsbD lane = true →
      ∃ t, exec (.laneDegrade h i lane) s = .next t ∧ ((t.hall h).port i).training = true
        ∧ ((t.hall h).port i).lanes = p.lanes &&& ~~~(1#8 <<< lane) ∧ ((t.hall h).port i).offer = ((t.hall h).port i).lanes
        ∧ ((t.hall h).port i).up = p.up)
    ∧ (p.training = true → 7 ≤ lanesOf m → p.holdDown = false →
      ∃ t, exec (.portRetrainComplete h i lanes peerAck) s = .next t ∧ ((t.hall h).port i).up = true
        ∧ ((t.hall h).port i).training = false ∧ ((t.hall h).port i).lanes = m
        ∧ ((t.hall h).port i).degraded = (lanesOf m == 7))
    ∧ (p.training = true → lanesOf m < 7 ∨ p.holdDown = true →
      ∃ t, exec (.portRetrainComplete h i lanes peerAck) s = .next t ∧ ((t.hall h).port i).up = false
        ∧ ((t.hall h).port i).training = false ∧ ((t.hall h).port i).downEvt = true)
    ∧ (i < 3 → p.holdDown = false → s.freezing = false →
      ∃ t, exec (.retrain 0 h i false) s = .next t ∧ ((t.hall h).port i).training = true
        ∧ ((t.hall h).port i).offer = 0xFF ∧ ((t.hall h).port i).lanes = p.lanes ∧ ((t.hall h).port i).up = p.up)
    ∧ (s.freezing = false ∨ s.heldAt (portCtrlOff h i) = false →
      (∃ t, exec (.holdDown 0 h i true) s = .next t ∧ ((t.hall h).port i).holdDown = true
        ∧ (p.up = true ∨ p.training = true → ((t.hall h).port i).up = false ∧ ((t.hall h).port i).downEvt = true))
      ∧ (∃ t, exec (.holdDown 0 h i false) s = .next t ∧ ((t.hall h).port i).holdDown = false
        ∧ ((t.hall h).port i).up = p.up))

/-! ### Transfers -/

/-- A transfer of one frame, in its round and epoch, of a resident job, fills its place in the ledger with its payload, and
a RECEIPT with code 1 returns along its path, first of what the hall sends then; a RECEIPT with code 1 or 2 is recorded with
the transfer that it answers (its payload names it, log 99), and no command fails. -/
def Obligations.TransfersFillTheLedger : Prop :=
  (∀ (s s1 : State) (h i kind : Nat) (c : Nat → Nat → Instr) (f : Frame) (x : XHdr) (q : Page),
    (kind, c) ∈ [(kPUSH, Instr.push), (kPULLDATA, Instr.pulldata), (kUP, Instr.up), (kDOWN, Instr.down),
      (kMEZZDATA, Instr.mezzdata)] →
    s.frozen = false → s.takeRx h i (fun x _ => x.kind == kind) = some (f, x, s1) → s1.jobAt h x.job = some q →
    ((s1.hall h).job x.job).epoch = x.epoch → s1.treeDiffers q f x = false →
    (kind ≤ kDOWN → x.round = ((s1.hall h).job x.job).counter kind x.key) →
    x.first = true → x.last = true → x.offset = 0 → ((s1.hall h).job x.job).rx? (xferOf x) = none →
    let r := f.ret.reverse.getD 0 0
    ∃ t more, exec (c h i) s = .next t
      ∧ (((t.hall h).job x.job).rx? (xferOf x)).map (fun e => (e.st, e.data, e.src)) = some (.full, f.payload, f.src)
      ∧ (t.portOf r).txq = (s1.portOf r).txq ++ receiptFrame s1 h f x 1 0 x.epoch :: more
      ∧ t.jobs = s.jobs
      ∧ (kind ≠ kUP ∨ (∀ v, s1.ownerOf h = some v → (s1.part v).relayDue = []) → more = [] ∧ t.parts = s.parts))
  ∧ ∀ (s s1 : State) (h i : Nat) (f : Frame) (x : XHdr) (e : TxEnt), s.frozen = false →
    s.takeRx h i (fun x _ => x.kind == kRECEIPT) = some (f, x, s1) →
    let id := xferOf (parseXHdr f.payload)
    let k := s1.hallFor h f.dest
    id.kind ≠ kDIGEST → ((s1.hall k).job id.job).tx? id = some e → e.receipt = none → x.code = 1 ∨ x.code = 2 →
    ∃ t, exec (.receipt h i) s = .next t
      ∧ ((t.hall k).job id.job).tx? id
        = some { e with receipt := some (x.code, x.reason), acked := e.acked || x.code == 1 }
      ∧ t.jobs = s.jobs

/-- A PULLREQ (its body as log 13 lays it out, the model's choice) that can be served is answered with a RECEIPT and the rows as
a PULLDATA transfer, and holds the face; one for a job that is not resident is answered with code 6 and reason 1, one of another
epoch with code 4; a MEZZREQ for a valid slot that no poison meets is answered with a RECEIPT and the image. No stack changes.
The hall's leg is not single: that one would send the data twice. -/
def Obligations.PullsAreServed : Prop :=
  ∀ (s s1 : State) (h i : Nat) (f : Frame) (x : XHdr), s.frozen = false →
    (∀ v, s1.ownerOf h = some v → (s1.part v).scState ≠ 2) →
    let r := f.ret.reverse.getD 0 0
    let back := fun (kind : Nat) (l : List Byte) =>
      receiptFrame s1 h f x 1 0 x.epoch :: mkFrames (s1.rank h) f.src f.ret.reverse f.vc { x with kind := kind } l
    (s.takeRx h i (fun x _ => x.kind == kPULLREQ) = some (f, x, s1) →
      (s1.jobAt h x.job = none → ∃ t, exec (.pullreq h i) s = .next t
        ∧ (t.portOf r).txq = (s1.portOf r).txq ++ [receiptFrame s1 h f x 6 1 x.epoch] ∧ SameStacks s t)
      ∧ (∀ q : Page, s1.jobAt h x.job = some q → ((s1.hall h).job x.job).epoch ≠ x.epoch → x.first = true →
          ∃ t, exec (.pullreq h i) s = .next t
            ∧ (t.portOf r).txq = (s1.portOf r).txq ++ [receiptFrame s1 h f x 4 0 ((s1.hall h).job x.job).epoch] ∧ SameStacks s t)
      ∧ (∀ (q : Page) (p : Plan) (d : TDesc), let b := (Lead.parse f.payload).2
          let face := s1.committedFace h d
          s1.jobAt h x.job = some q → ((s1.hall h).job x.job).epoch = x.epoch → s1.plan? q = some p →
          s1.binding? h (u16 b 8) x.job = some d →
          p.planId.toNat = u64 b 0 → (p.tensor? (u16 b 8)).isSome = true → u32 b 12 + u32 b 16 ≤ d.rows →
          (face.rowsSpans (u32 b 12) (u32 b 16)).any (s1.hall h).poisoned = false →
          ∃ t l, exec (.pullreq h i) s = .next t ∧ SameStacks s t
            ∧ (t.portOf r).txq = (s1.portOf r).txq ++ back kPULLDATA (l ++ face.rowsBytes (u32 b 12) (u32 b 16))
            ∧ l.length = 64 ∧ ∃ e ∈ (t.hall h).serving, e.pair = d.pair ∧ e.face = face.k))
    ∧ (s.takeRx h i (fun x _ => x.kind == kMEZZREQ) = some (f, x, s1) →
      let b := (s1.hall h).mezzSlotBase (fld (u8 (Lead.parse f.payload).2 0) 0 1)
      let n := 64 + leNat (memReads (s1.hall h).hbm (b + 32) 8)
      (s1.hall h).mezzPermits f.src = true → memRead (s1.hall h).hbm (b + 4) = 2 → (s1.hall h).poisoned (b, n) = false →
      ∃ t, exec (.mezzreq h i) s = .next t ∧ SameStacks s t
        ∧ (t.portOf r).txq = (s1.portOf r).txq ++ back kMEZZDATA (Lead.none.bytes ++ memReads (s1.hall h).hbm b n))

/-- A MEZZ transfer of one frame that the neighbour permits and that fits stands in its slot when its CRC is good: the
image as it was sent, state 2, no other byte of the stack changed, and a RECEIPT with code 1 returns (the transfer's
place behind its lead block is the model's choice, log 22). -/
def Obligations.ImagesArriveInTheirSlot : Prop :=
  ∀ (s s1 : State) (h i : Nat) (f : Frame) (x : XHdr), s.frozen = false →
    s.takeRx h i (fun x _ => x.kind == kMEZZ) = some (f, x, s1) → x.first = true → x.last = true →
    let H := s1.hall h
    let d := f.payload.drop 64
    let len := u64 d 32
    let b := H.mezzSlotBase (fld (u8 d 5) 0 1)
    let r := f.ret.reverse.getD 0 0
    H.mezzPermits f.src = true → d.length = 64 + len → 64 + len ≤ H.mezzSlotLen →
    crc64 (d.drop 64) = BitVec.ofNat 64 (u64 d 40) →
    ∃ t, exec (.mezz h i) s = .next t
      ∧ memRead (t.hall h).hbm (b + 4) = 2
      ∧ memReads (t.hall h).hbm b 4 = d.take 4 ∧ memReads (t.hall h).hbm (b + 5) (59 + len) = d.drop 5
      ∧ (∀ a, a < b ∨ b + 64 + len ≤ a → memRead (t.hall h).hbm a = memRead H.hbm a)
      ∧ (t.portOf r).txq = (s1.portOf r).txq ++ [receiptFrame s1 h f x 1 0 x.epoch] ∧ t.jobs = s.jobs

/-! ### Scissor pairs -/

/-- A COMMIT digest of the partner is kept, and the queue's oldest command that has sent its own equal one may commit. -/
def Obligations.EqualDigestsLetCommit : Prop :=
  ∀ (s s1 : State) (h i : Nat) (v : Fn) (f : Frame) (x : XHdr) (b : DBody), s.frozen = false → x.job < 16 → 1 ≤ v →
    s.takeDigest h i 1 = some (v, f, x, b, s1) →
    let q := pageOf v x.job
    ((s1.job q).cmds = [] → ∃ t, exec (.digestCommit h i) s = .next t ∧ (t.part v).paused = false
      ∧ ((t.part v).digest? x.job b.qseq).map (fun d => (d.digest, d.evidence, d.attempt))
        = some (b.digest, b.evidence, b.attempt))
    ∧ (∀ (c : Cmd) (rest : List Cmd), (s1.job q).cmds = c :: rest → c.phase = .running → c.att.digestOut = true →
      c.att.digestOk = false → (s1.job q).qseq = b.qseq → b.digest = c.att.ownDigest →
      ∃ t, exec (.digestCommit h i) s = .next t ∧ (t.att q c.slot).digestOk = true ∧ (t.part v).mismatch = (s1.part v).mismatch)

/-- ALIVE ends a pause and PAUSE begins one; RETIRE, and a silence of a partner that has not paused, leave a paired leg
single with its cause; a paired leg's ALIVE leaves over one digest route, and the other route is next. RETIRE
retires a leg, SOLO leaves it single, and REJOIN starts a rejoin of a single leg whose queues are disabled, and sends its side of
the exchange. -/
def Obligations.PartnersLiveAndLeave : Prop :=
  (∀ (s : State), s.frozen = false →
    (∀ (s1 : State) (h i : Nat) (v : Fn) (f : Frame) (x : XHdr) (b : DBody),
      (s.takeDigest h i 2 = some (v, f, x, b, s1) →
        ∃ t, exec (.digestAlive h i) s = .next t ∧ (t.part v).paused = false ∧ (t.part v).scState = (s.part v).scState)
      ∧ (s.takeDigest h i 7 = some (v, f, x, b, s1) →
        ∃ t, exec (.digestPause h i) s = .next t ∧ (t.part v).paused = true ∧ (t.part v).scState = (s.part v).scState)
      ∧ (s.takeDigest h i 6 = some (v, f, x, b, s1) → (s1.part v).scState = 1 →
        ∃ t, exec (.digestRetire h i) s = .next t ∧ (t.part v).scState = 2 ∧ (t.part v).scCause = 1))
    ∧ (∀ (v : Fn) (z : ScissorRec), (s.part v).plan.bind Plan.scissor = some z → z.form = 1 → (s.part v).paused = false →
      (s.part v).scState = 1 →
      ∃ t, exec (.scissorSilence v) s = .next t ∧ (t.part v).scState = 2 ∧ (t.part v).scCause = 2 ∧ t.jobs = s.jobs)
    ∧ (∀ (v : Fn) (r : Nat × Nat × List Nat), (s.part v).scState = 1 → s.nextRoute v = some r →
      ∃ t, exec (.aliveSend v) s = .next t ∧ (t.part v).altRoute = !(s.part v).altRoute
        ∧ (t.portOf (r.2.2.getD 0 0)).txq.length = (s.portOf (r.2.2.getD 0 0)).txq.length + 1 ∧ t.jobs = s.jobs))
  ∧ ∀ (s : State) (v : Fn), s.freezing = false →
    ((s.part v).scState = 1 ∨ (s.part v).scState = 2 →
      ∃ t, exec (.retire 0 v) s = .next t ∧ (t.part v).scState = 3 ∧ (t.part v).scCause = 3)
    ∧ ((s.part v).scState = 1 → ∃ t, exec (.solo 0 v) s = .next t ∧ (t.part v).scState = 2 ∧ t.jobs = s.jobs)
    ∧ ((s.part v).scState = 2 → s.allDisabled v = true →
      ∀ p, (s.part v).plan = some p →
        ∃ t, exec (.rejoin 0 v) s = .next t ∧ (t.part v).rejoining = true ∧ t.halls = s.halls ∧ t.jobs = s.jobs
          ∧ (p.scissor.isSome = true → t.exchOut.length = s.exchOut.length + 1))

/-- Absent children and relays. A PROPOSE that meets the leg's own, one that nothing forestalls, and an answer 1 make the child
ABSENT in every hall of the leg; a PROPOSE whose child has begun to arrive promises its RELAY, and any but the first is
answered. A RELAY for the hall's own rank word goes on to the partner under that DEST, one that the partner passes on is taken
in the hall that its DEST stands for, and a transfer without a receipt, or with a DOWN receipt, is relayed; each that is sent is
counted. The rank words are the model's reading (log 14), and so is a child that counts as taken once it has begun to arrive
(log 76). -/
def Obligations.AbsenceAndRelays : Prop :=
  ∀ (s s1 : State) (h i : Nat) (v : Fn) (f : Frame) (x : XHdr), s.frozen = false →
    let absent := fun (b : DBody) (t : State) => ∀ k ∈ (s1.part v).halls,
      ((t.hall k).job x.job).rxState (s1.childId k x.job b) = some .absent
    (∀ (b : DBody) (taken : Bool), s.takeDigest h i 3 = some (v, f, x, b, s1) →
      (s1.proposes v x.job b = true → ∃ t, exec (.digestPropose h i taken) s = .next t ∧ absent b t)
      ∧ (s1.proposes v x.job b = false → s1.childTaken v x.job b = none → taken = false ∨ s1.childWaits v x.job b = false →
        ∃ t, exec (.digestPropose h i taken) s = .next t ∧ absent b t
          ∧ ∀ r, s1.nextRoute v = some r →
            (t.portOf (r.2.2.getD 0 0)).txq.length = (s1.portOf (r.2.2.getD 0 0)).txq.length + 1)
      ∧ (∀ (k : Nat) (e : RxEnt), s1.proposes v x.job b = false → s1.childTaken v x.job b = some (k, e) → e.st = .open_ →
        ∃ t, exec (.digestPropose h i taken) s = .next t ∧ (k, e.id) ∈ (t.part v).relayDue
          ∧ ∀ r, s1.nextRoute v = some r →
            (s1.portOf (r.2.2.getD 0 0)).txq.length < (t.portOf (r.2.2.getD 0 0)).txq.length))
    ∧ (∀ b : DBody, s.takeDigest h i 4 = some (v, f, x, b, s1) →
      ∃ t, exec (.digestAnswer h i) s = .next t ∧ (b.result = 1 → absent b t)
        ∧ (b.result ≠ 1 → ∀ k ∈ (s1.part v).halls, s1.childId k x.job b ∉ ((t.hall k).job x.job).proposed))
    ∧ (s.takeRx h i (fun x f => x.kind == kDIGEST && (!x.first || (DBody.parse f.payload 64).sub == 5)) = some (f, x, s1) →
      s1.ownerOf h = some v → x.first = true → x.last = true → x.offset = 0 →
      (∀ r, f.dest = s1.rank h → (s1.part v).scState = 1 → s1.nextRoute v = some r →
        ∃ t, exec (.digestRelay h i) s = .next t ∧ (t.part v).relays = satAdd 0xFFFF (s1.part v).relays 1
          ∧ (∃ e ∈ (t.part v).digOut, e.relay = some (f.src, f.dest))
          ∧ (s1.portOf (r.2.2.getD 0 0)).txq.length < (t.portOf (r.2.2.getD 0 0)).txq.length)
      ∧ (∀ q : Page, let y := parseXHdr (bytesAt f.payload 128 32)
          let k := s1.twinHall v f.dest
          let j := (s1.hall k).job y.job
          f.dest ≠ s1.rank h → s1.partnerRank v f.dest = true → s1.jobAt k y.job = some q → j.epoch = y.epoch →
          y.kind = kPUSH ∨ y.kind = kPULLDATA ∨ y.kind = kUP ∨ y.kind = kDOWN → y.round = j.counter y.kind y.key →
          j.rx? (xferOf y) = none → s1.treeDiffers q { f with payload := f.payload.drop 160 } { y with first := true } = false →
          ∃ t, exec (.digestRelay h i) s = .next t
            ∧ (((t.hall k).job y.job).rx? (xferOf y)).map (fun e => (e.st, e.data)) = some (.full, f.payload.drop 160)))
    ∧ (∀ (r : HallRoute) (job key round shard node kind : Nat) (e : TxEnt),
      let id := s.xid h job kind key round shard node
      s.ownerOf h = some v → ((s.hall h).job job).tx? id = some e → (s.part v).scState = 1 →
      e.receipt = none ∨ e.receipt.map (·.1) = some 7 → s.nextRoute v = some r →
      ∃ t, exec (.relayTimeout h job key round shard node kind) s = .next t
        ∧ (((t.hall h).job job).tx? id).map (fun z => (z.relay, z.receipt)) = some (true, none)
        ∧ (t.part v).relays = satAdd 0xFFFF (s.part v).relays 1
        ∧ (∃ z ∈ (t.part v).digOut, z.relay = some (s.rank h, e.dest))
        ∧ (s.portOf (r.2.2.getD 0 0)).txq.length < (t.portOf (r.2.2.getD 0 0)).txq.length)

/-! ### The sideband -/

/-- A good first copy of a sideband FREEZE for the device's landing holds an accepting device under source 3; a THAW from the
one origin that holds it lets it go on. The cabling check: GO sends three copies of a request, each request is answered on its
own port (the model's reading: R283's later copies are those of freezes, log 120), the first reply on the port that GO named
ends the check with what it names, and without one it times out. -/
def Obligations.SidebandFramesAct : Prop :=
  (∀ (s : State) (h i : Nat) (f : Frame), s.chainValid = true → f.dest = landingDest s.chainAddr.toNat → s.sbDup f = false →
    (s.sbGood h i 1 f = true → s.sbAccept = true → s.freezing = false →
      ∃ t, exec (.sidebandFreeze h i f) s = .next t ∧ t.holding = true ∧ t.frzSource = srcSide ∧ t.frzLanding = true
        ∧ rankChain f.src ∈ t.bySide ∧ t.frzCount = min 255 (s.frzCount + 1)
        ∧ (f.src, f.sbId, s.time.toNat) ∈ t.sbSeen)
    ∧ (s.sbGood h i 1 f = true → s.sbAccept = false →
      ∃ t, exec (.sidebandFreeze h i f) s = .next t ∧ t.freezing = s.freezing ∧ t.bySide = s.bySide)
    ∧ (s.sbGood h i 2 f = true → s.freezing = true → s.byPin = false → s.byPorter = false →
      s.bySide = [rankChain f.src] → s.held = [] →
      ∃ t, exec (.sidebandThaw h i f) s = .next t ∧ t.frozen = false ∧ t.holding = false ∧ t.bySide = []
        ∧ t.frzSource = 0))
  ∧ ∀ (s : State) (h i : Nat) (f : Frame) (port : BitVec 6),
    let p := (s.hall h).port i
    (s.freezing = false → portNum h i = port.toNat → h < 8 → i < 5 → p.usable = true →
      ∃ t, exec (.echoGo 0 port) s = .next t ∧ t.echoBusy = true ∧ t.echoDone = false ∧ t.echoTimeout = false
        ∧ t.echoPort = port ∧ t.echoAsk = port ∧ ((t.hall h).port i).outQ.length = p.outQ.length + 3)
    ∧ (s.sbGood h i 0x10 f = true → ∃ t g, exec (.echoReq h i f) s = .next t
        ∧ ((t.hall h).port i).outQ = p.outQ ++ [g] ∧ frameOk g = true ∧ g.seq = 0x11
        ∧ g.src = s.rank h ∧ g.hopIdx = portNum h i + 32768 * b2n (!s.chainValid))
    ∧ (s.sbGood h i 0x11 f = true → s.echoBusy = true → portNum h i = s.echoAsk.toNat →
      exec (.echoReply h i f) s = .next { s with
        echoBusy := false, echoDone := true, echoUnaddr := bit f.hopIdx 15, echoIn := f.hopIdx % 64, echoSrc := f.src % 2 ^ 21 })
    ∧ (s.echoBusy = true → exec .echoTimeout s = .next { s with echoBusy := false, echoTimeout := true })

/-! ### Slices -/

/-- A slice that ends with no other job ready starts again; with another ready it sends the holder's one unprotected
command back to wait, counted as a pre-emption and not as a fault kill, and with no overrun; the watchdog fails one that runs on
after it. -/
def Obligations.SlicesEnd : Prop :=
  ∀ (s : State) (v : Fn) (h : Nat), s.frozen = false → 1 ≤ v → h < 16 → (s.part v).holder = some h →
    let q := pageOf v h
    ((s.job q).slice ≠ 0 → (s.part v).sliceOver = false →
      (((jobsAfter h).filter (· != h)).any fun j => s.ready (pageOf v j)) = false →
      ∃ t, exec (.sliceEnd v) s = .next t ∧ (t.part v).holder = some h ∧ (t.part v).sliceOver = false ∧ t.halls = s.halls)
    ∧ (∀ c : Cmd, (s.job q).slice ≠ 0 → (s.part v).sliceOver = false →
      (((jobsAfter h).filter (· != h)).any fun j => s.ready (pageOf v j)) = true →
      (s.job q).cmds = [c] → c.dispatched = true → c.inWindow = false → c.att.collective = false →
      ∃ t, exec (.sliceEnd v) s = .next t ∧ (t.job q).preempts = satAdd 0xFFFF (s.job q).preempts 1
        ∧ (t.job q).lastOverrun = (s.job q).lastOverrun
        ∧ (t.cmd? q c.slot).map (fun k => (k.phase, k.kills, k.faultKills, k.att))
          = some (.waiting, c.kills + 1, c.faultKills, Attempt.empty))
    ∧ (∀ c : Cmd, (s.part v).sliceOver = true → (s.job q).cmds = [c] → c.dispatched = true → c.inWindow = false →
      (s.job q).cqFull = false →
      ∃ t, exec (.overrunWatchdog v) s = .next t ∧ (t.job q).watchdog = true ∧ (t.job q).halted = true
        ∧ (t.job q).haltCode = 0x0904 ∧ (t.job q).cmds = [])

/-! ### Faults -/

/-- A lost hall, and the hall of a commit window that outlasts its bound, is out of service: its bit of HALL_OK is 0, its
domains are down and its ports are silent. Upsets that do not reach so far kill their command, which waits for its re-run: a
witness mismatch of a MATPASS, which is a strike, and a second one within the window fences its gallery; a residue mismatch of a
NEWEL operation, and a second one of its lane within the window loses the hall; an uncorrectable error in bytes that the command
stages, or anywhere in a ledger in which it has an open entry (R264 says a ledger entry; that any byte of such a ledger counts
is the model's choice of log 102), whose sixteenth kill in a row fails it. -/
def Obligations.LostHallsLeaveService : Prop :=
  (∀ (s : State) (a : Site) (u : Upset) (x : OpCtx) (o : MatOp) (k g : Nat) (c : Site → Upset → Instr) (m : MatRun) (t1 : State),
    (k, c) ∈ [(0, Instr.matpassL), (1, Instr.matpassWideSum), (2, Instr.matpassT), (3, Instr.matpassB)] →
    AtTurn s a (fun _ => Op.isMat k) x → x.op = .matpass o → s.matpass x o = .ok m → m.bad = [] → m.hold = false →
    (m.close x o).drain x = .ok t1 → u.mismatch = [g] → u.parity = [] → g ∈ (s.hall x.hall).galsOf o.gals →
    let G := (t1.hall x.hall).gal g
    ∃ t, exec (c a u) s = .next t ∧ ((t.hall x.hall).gal g).mismatch = satAdd 255 G.mismatch 1
      ∧ (G.strikes = 0 → x.cmd.faultKills < 15 → ((t.hall x.hall).gal g).strikes = 1
        ∧ ((t.hall x.hall).gal g).fenced = G.fenced ∧ Killed x.page x.cmd t)
      ∧ (1 ≤ G.strikes → (t1.hall x.hall).commits - G.firstStrike < t1.strikeWin x.hall →
        ((t.hall x.hall).gal g).fenced = true ∧ ((t.hall x.hall).gal g).powered = false))
  ∧ (∀ (s : State) (a : Site) (u : Upset) (x : OpCtx) (o : NewelOp) (k lane : Nat) (c : Site → Upset → Instr) (t1 : State),
    (k, c) ∈ [(nADD, Instr.newelAdd), (nMUL, Instr.newelMul), (nFMA, Instr.fma), (nDIV, Instr.newelDiv),
      (nSQRT, Instr.newelSqrt), (nMAXIMUM, Instr.maximum), (nMINIMUM, Instr.minimum), (nMAXNUM, Instr.maxnum),
      (nMINNUM, Instr.minnum), (nCMP, Instr.cmp), (nROWMAX, Instr.rowmax), (nXENT, Instr.xent), (nSAMPLE, Instr.sample),
      (nVERIFY, Instr.verify)] →
    AtTurn s a (fun _ => Op.isNewel k) x → x.op = .newel o → s.newel x o = .ok t1 → u.residue = some lane →
    let H := s.hall x.hall
    ∃ t, exec (c a u) s = .next t ∧ (t.hall x.hall).nwlResidue = satAdd 255 H.nwlResidue 1
      ∧ (H.resStrike.find? (·.1 == lane) = none → x.cmd.faultKills < 15 → Killed x.page x.cmd t)
      ∧ (∀ n, H.resStrike.find? (·.1 == lane) = some (lane, n) → H.allCommits - n < 1048576 → t.hallOk x.hall = false))
  ∧ (∀ (s : State) (h addr : Nat) (q : Page) (c : Cmd), s.hallOk h = true →
    (s.hallCmds h).find? (fun x => x.2.stages h addr || s.inLedger x.1 h addr) = some (q, c) → s.cmd? q c.slot = some c →
    ∃ t, exec (.hbmUncorrectableError h addr) s = .next t ∧ (t.hall h).hbmUncorr = satAdd 255 (s.hall h).hbmUncorr 1
      ∧ (t.hall h).poison = (s.hall h).poison
      ∧ (c.faultKills < 15 → Killed q c t
        ∧ ∀ k j, ((t.hall k).job j).rx = ((s.hall k).job j).rx ∧ ((t.hall k).job j).tx = ((s.hall k).job j).tx)
      ∧ (15 ≤ c.faultKills → (s.job q).cmds = [c] → (s.job q).cqFull = false →
        (t.job q).cmds = [] ∧ (t.job q).halted = true ∧ (t.job q).haltCode = 0x0901))
  ∧ ∀ (s : State) (h : Nat), s.hallOk h = true →
    (∃ t, exec (.hallLoss h) s = .next t ∧ t.hallOk h = false ∧ (t.hall h).present = false ∧ (t.hall h).domains = 0
      ∧ ∀ i, ((t.hall h).port i).up = false)
    ∧ (∀ (q : Page) (c : Cmd) (rest : List Cmd), s.frozen = false → (s.job q).cmds = c :: rest → c.inWindow = true →
      h ∈ s.pageHalls q → ∃ t, exec (.commitWindowOverrun q h) s = .next t ∧ t.hallOk h = false)

/-- Memory errors of a hall in service: corrected ones are counted, an uncorrectable one in committed state poisons its
granule or row, an interface error only writes the log, and a concentrated window names its target. A scrub that meets two wrong
bits meets an uncorrectable error (R263); that one which meets three or more does so too is the model's choice of log 148. -/
def Obligations.MemoryErrorsAreCounted : Prop :=
  ∀ (s : State) (h : Nat), s.hallOk h = true →
    (∀ addr, s.paired h = none → (s.hallCmds h).find? (fun x => x.2.stages h addr || s.inLedger x.1 h addr) = none →
      ∃ t, exec (.hbmUncorrectableError h addr) s = .next t ∧ addr / 32 ∈ (t.hall h).poison
        ∧ (t.hall h).hbmUncorr = satAdd 255 (s.hall h).hbmUncorr 1 ∧ t.jobs = s.jobs)
    ∧ (∀ g, s.frozen = false → ∃ t, exec (.patrolScrub h g 1) s = .next t ∧ (t.hall h).hbmCorr = satAdd 0xFFFF (s.hall h).hbmCorr 1
      ∧ (t.hall h).poison = (s.hall h).poison)
    ∧ (∀ g n, s.frozen = false → 2 ≤ n → exec (.patrolScrub h g n) s = exec (.hbmUncorrectableError h (32 * g)) s)
    ∧ (∀ row, ∃ t, exec (.undercroftEccError h row true) s = .next t
      ∧ (t.hall h).uncCorr = satAdd 0xFFFF (s.hall h).uncCorr 1 ∧ (t.hall h).unc = (s.hall h).unc)
    ∧ (∀ row, s.paired h = none → (s.hallCmds h).find? (fun x => x.2.twins h row) = none → row ∈ (s.hall h).taken →
      ∃ t, exec (.undercroftEccError h row false) s = .next t ∧ row ∈ (t.hall h).poisonRows
        ∧ (t.hall h).uncUncorr = satAdd 255 (s.hall h).uncUncorr 1 ∧ t.jobs = s.jobs)
    ∧ (∀ target, ∃ t, exec (.hbmInterfaceError h target) s = .next t ∧ (t.hall h).poison = (s.hall h).poison
      ∧ (t.hall h).xlogHead = (if (s.hall h).xlogSize = 0 then (s.hall h).xlogHead else ((s.hall h).xlogHead + 1) % 2 ^ 32)
      ∧ t.jobs = s.jobs)
    ∧ (∀ counts : List Nat, ∃ t, exec (.hbmConcWindow h counts) s = .next t ∧ (t.hall h).hbm = (s.hall h).hbm
      ∧ (8192 < counts.foldl max 0 → (t.hall h).concAlert = true
        ∧ (t.hall h).concCount = satAdd 0xFFFF (s.hall h).concCount 1
        ∧ counts.getD (t.hall h).concTarget 0 = counts.foldl max 0))

/-! ### Power, resets and start-up -/

/-- The interval of R331: the target is the lowest ceiling in whole steps of 5 mV within 650 and 900 mV, THROTTLE_N low being one
of 720 mV; above 1,300 W, 100 °C or 85 °C it lies below the present voltage, or at the least one. How Porter forms the power and the
thermal ceiling within these limits is the model's choice of log 146. While Porter has the bus THROTTLE_N low lowers the target at once,
and its release leaves it to the next interval; after a trip it changes nothing but its own level. A trip, of the supplies or by a
reading or by AVSBus failing three times in a row, sends its NOTIFY, takes VCORE away and records its cause, once. Where Porter does not
run, readings that trip do so in bypass, and temperatures before step 3 of the start (the model's choice of log 147). Readings beyond
Table 12-6 stop the model (R335). -/
def Obligations.CoreVoltageFollowsTheCeilings : Prop :=
  ∀ (s : State) (m : Sensors),
    let allowed := fun (n : Nat) => n ≤ s.powerCeil m ∧ n ≤ s.thermalCeil m ∧ (s.throttle = true → n ≤ 720)
    let tripped := fun (t : State) => t.tripped = true ∧ t.vcoreEn = false ∧ t.tripLow = true ∧ t.resetCause = 4
      ∧ t.frozenAt = s.freezing ∧ t.halls = State.reset.halls ∧ (s.keyBurn = none → t.slots = s.slots)
      ∧ ∃ l, t.chainOut = s.chainOut ++ sealChain (s.notice 3 0xFF) :: l
    (Sensors.stress m = true → exec (.vcoreCeilingUpdate m) s = .fault .stressBeyondRatings)
    ∧ (Sensors.stress m = false → s.porterRuns = false →
      let trips := if s.chainStage = .bypass then Sensors.trips m else Sensors.hot m
      (trips = false ∨ s.tripped = true → exec (.vcoreCeilingUpdate m) s = .next s)
      ∧ (trips = true → s.tripped = false → ∃ t, exec (.vcoreCeilingUpdate m) s = .next t ∧ tripped t))
    ∧ (Sensors.stress m = false → s.porterRuns = true →
      (Sensors.trips m = false → m.avsOk = true ∨ s.avsFails < 2 →
        ∃ t, exec (.vcoreCeilingUpdate m) s = .next t ∧ t.target % 5 = 0 ∧ 650 ≤ t.target ∧ t.target ≤ 900
          ∧ (650 < t.target → allowed t.target)
          ∧ (∀ n, n % 5 = 0 → 650 ≤ n → n ≤ 900 → allowed n → n ≤ t.target)
          ∧ (m.avsOk = true → 1300000000 < m.vcoreMv * m.vcoreMa ∨ 100 < m.tjMax ∨ 85 < m.hbmMax →
            t.target < m.vcoreMv ∨ t.target = 650)
          ∧ t.vcoreMv = (if m.avsOk then m.vcoreMv else s.vcoreMv) ∧ t.tjMax = m.tjMax ∧ t.tjHall = m.tjHall
          ∧ t.avsFails = (if m.avsOk then 0 else s.avsFails + 1) ∧ t.halls = s.halls)
      ∧ (s.tripped = false → Sensors.trips m = true ∨ (m.avsOk = false ∧ 2 ≤ s.avsFails) →
        ∃ t, exec (.vcoreCeilingUpdate m) s = .next t ∧ tripped t))
    ∧ (s.tripped = false → s.porterRuns = true →
      exec (.throttleN true) s = .next { s with throttle := true, target := min s.target 720 })
    ∧ (s.tripped = true ∨ s.porterRuns = false → exec (.throttleN true) s = .next { s with throttle := true })
    ∧ exec (.throttleN false) s = .next { s with throttle := false }
    ∧ (∀ cause, (s.tripped = false → ∃ t, exec (.supplyThermalTrip cause) s = .next t ∧ tripped t)
      ∧ (s.tripped = true → exec (.supplyThermalTrip cause) s = .next s))

/-- Each reset records its cause and whether the device was frozen, keeps fuses and host memory (but for the slot of a burn that it
interrupts, R305), and leaves every hall, job and partition at its reset values; PERST# keeps the chain address. The domains that
count as up when the sequence starts are the model's choice (log 108). -/
def Obligations.ResetsRecordTheirCause : Prop :=
  ∀ (s : State) (f : ChainFrame),
    let fresh := fun t : State => t.halls = State.reset.halls ∧ t.jobs = State.reset.jobs ∧ t.parts = State.reset.parts
      ∧ (s.keyBurn = none → t.slots = s.slots) ∧ t.fuses = s.fuses ∧ t.host = s.host ∧ t.frozen = false
    (∃ t, exec .powerOn s = .next t ∧ fresh t ∧ t.resetCause = 0 ∧ t.warmCnt = 0 ∧ t.chainValid = false ∧ t.sysHigh = false)
    ∧ (s.sysHigh = true → s.tripped = false →
      ∃ t, exec (.sysResetN false) s = .next t ∧ fresh t ∧ t.resetCause = 1 ∧ t.frozenAt = s.freezing
        ∧ t.warmCnt = min 255 (s.warmCnt + 1) ∧ t.chainValid = false ∧ t.chainStage = .held)
    ∧ (s.tripped = true → ∃ t, exec (.sysResetN false) s = .next t ∧ fresh t ∧ t.resetCause = 4 ∧ t.frozenAt = s.frozenAt
        ∧ t.tripped = false ∧ t.vcoreEn = true)
    ∧ (s.sysHigh = false → s.vcoreEn = true →
      exec (.sysResetN true) s = .next { s with
        sysHigh := true, chainStage := .starting, devDomains := 2, target := if s.throttle then min s.target 720 else s.target })
    ∧ (s.perstHigh = true → s.sysHigh = true → s.tripped = false →
      ∃ t, exec (.perst false) s = .next t ∧ fresh t ∧ t.resetCause = 2 ∧ t.frozenAt = s.freezing ∧ t.chainAddr = s.chainAddr
        ∧ t.chainValid = s.chainValid ∧ t.linkStat = 0)
    ∧ (s.chainStage = .serving → s.linkStat = 0 →
      ∃ t, exec (.perst true) s = .next t ∧ t.perstHigh = true ∧ t.linkStat ≠ 0 ∧ t.clkreqLow = true ∧ t.halls = s.halls)
    ∧ (s.chainStage = .serving → chainOk f = true → f.typ = cRESET → s.chainMine f = true →
      ∃ t, exec (.chainReset f) s = .next t ∧ fresh t ∧ t.resetCause = 3 ∧ t.frozenAt = s.freezing
        ∧ t.chainOut = s.chainOut ++ [f])

/-- A reset of a virtual function leaves its pages, semaphores and registers at their reset values and no command in its
queues; a reset of the physical function ends every partition and takes its SR-IOV fields to zero (presumed, log 110). Either ends a
freeze, records that it met one, and discards the recorded writes (the model's reading, log 44). -/
def Obligations.FunctionResets : Prop :=
  ∀ (s : State) (v : Fn) (hot : Bool), 1 ≤ v → v ≤ 8 →
    let ends := fun (t : State) => s.freezing = true → t.held = [] ∧ t.freezing = false ∧ t.frozenAt = true
    (∃ t, exec (.vfFlr v) s = .next t ∧ (t.part v).sems = [] ∧ (t.part v).holder = none ∧ (t.part v).loading = none
      ∧ t.fn v = FnRegs.reset ∧ ends t
      ∧ ∀ q ∈ vfPages v, (t.job q).cmds = [] ∧ (t.job q).enable = false ∧ (t.job q).sqTail = 0 ∧ (t.job q).commits = 0
        ∧ (t.job q).resident = false)
    ∧ (∃ t, exec (.pfFlr hot) s = .next t ∧ t.vfEnable = false ∧ t.numVFs = 0 ∧ t.fn 0 = FnRegs.reset
      ∧ t.part v = Part.reset ∧ ends t)

/-- Self-test: a device whose shared blocks fail goes into bypass; else it serves the chain, and the halls are tested pair by pair.
A hall is in service when its test passes: no array of it beyond its spares, the fused signature, its stack and its power (R294
to R296). The last pair lets self-test end. A repeated test takes its halls out of service, begins with the lowest pair of them, and
brings back those that pass; Porter's own begins with the loss of its hall (log 112). -/
def Obligations.SelfTestDecidesTheHalls : Prop :=
  ∀ s : State,
    (s.chainStage = .starting →
      (∃ t, exec (.selftestComplete (some false) none) s = .next t ∧ t.chainStage = .bypass ∧ t.selfDone = s.selfDone)
      ∧ ∃ t, exec (.selftestComplete (some true) none) s = .next t ∧ t.chainStage = .serving ∧ t.selfDone = s.selfDone
        ∧ (t.hall 0).test.result = 3 ∧ (t.hall 4).test.result = 3)
    ∧ (s.chainStage = .serving → s.selfDone = false →
      (∀ a b : HallTest, s.selfPair < 4 → ∃ t, exec (.selftestComplete none (some (a, b))) s = .next t ∧ t.selfPair = s.selfPair + 1
        ∧ ∀ x ∈ [(s.selfPair, a), (s.selfPair + 4, b)], let j := s.fuses.judge x.1 x.2
          (t.hall x.1).test = j ∧ t.hallOk x.1 = j.pass ∧ t.hallFail.getLsbD x.1 = !j.pass)
      ∧ (s.selfPair = 4 → ∃ t, exec (.selftestComplete none none) s = .next t ∧ t.selfDone = true))
    ∧ (∀ halls : Byte, s.freezing = false → s.selfBusy = false → halls ≠ 0 →
      (∀ h, halls.getLsbD h = true → s.inPartition h = false ∧ (s.hall h).test.result ≠ 3) →
      ∃ t, exec (.selftestGo 0 halls) s = .next t ∧ t.selfBusy = true ∧ t.testing = halls
        ∧ (∀ h, halls.getLsbD h = true → t.hallOk h = false)
        ∧ ∀ k < 4, (∀ j < k, halls.getLsbD j = false ∧ halls.getLsbD (j + 4) = false) →
          ∀ h ∈ [k, k + 4], halls.getLsbD h = true → (t.hall h).test.result = 3)
    ∧ (∀ h : Nat,
      (∀ r : HallTest, s.testing.getLsbD h = true → (s.hall h).test.result = 3 →
        ∃ t, exec (.hallTestComplete h (some r)) s = .next t ∧ t.hallOk h = (s.fuses.judge h r).pass ∧ t.testing.getLsbD h = false
          ∧ (t.selfBusy = true ↔ t.testing ≠ 0))
      ∧ (s.testing.getLsbD h = false → s.selfDone = true → h < 8 →
        ∃ t, exec (.hallTestComplete h none) s = .next t ∧ t.hallOk h = false ∧ t.testing.getLsbD h = true ∧ t.selfBusy = true))

/-- The host port: until self-test is done a configuration request is answered with Retry Status; then the physical
function reads its identity (the place of the identity in configuration space is presumed, log 103), NumVFs changes only while VF
Enable is 0, and a measurement request gets six values (its code is presumed, log 27).
The register file: identity registers are read-only for every function; the hall choice of BAR2, the slice, the fields of a job in a
hall, the step area's base and BIND_ERR take what is written where their conditions hold and ignore the reserved bits; what a
condition forbids, or another function writes, is counted. -/
def Obligations.HostPortAnswers : Prop :=
  (∀ (s : State) (f : Fn) (v : Word),
    (∀ x ∈ [(0, prtIdent), (4, prtFampar), (8, s.hallmap.toNat)],
      exec (.registerWrite f x.1 v) s = .next (if f = 0 then s else s.accessErr f)
        ∧ exec (.counterLowRead f x.1) s = .next (s.answer (natLE x.2 4)))
    ∧ (∃ t, exec (.registerWrite f 0x1008 v) s = .next t ∧ (t.fn f).bar2Hall = v.toNat % 8
      ∧ (t.fn f).accessErr = (s.fn f).accessErr ∧ ∀ g, g ≠ f → t.fn g = s.fn g)
    ∧ (∀ q : Page, q < 128 → let n := v.toNat % 2 ^ 20
      let b := s.sliceBounds (pageFn q)
      exec (.registerWrite 0 (jobOff q 4) v) s = .next (if n = 0 ∨ (b.1 ≤ n ∧ n ≤ b.2)
        then s.modJob q (fun j => { j with slice := n }) else s.accessErr 0))
    ∧ (∀ w : Fn, 1 ≤ w → w ≤ 8 → exec (.registerWrite 0 (partOff w 4) v) s
      = .next (if v.getLsbD 1 then s.modPart w (fun p => { p with bindErr := false }) else s))
    ∧ ∀ h j : Nat, h < 8 → j < 16 → let at_ := fun k => 0x100000 + h * 0x100000 + k
      let own := at_ (0x8000 + 0x20 * j)
      let resident := ∃ o, s.ownerOf h = some o ∧ (s.job (pageOf o j)).resident = true
      (¬ resident → (∃ t, exec (.registerWrite 0 own v) s = .next t ∧ ((t.hall h).job j).hbmBase = v.toNat % 2 ^ 20
          ∧ ((t.hall h).job j).hbmSize = ((s.hall h).job j).hbmSize)
        ∧ (∃ t, exec (.registerWrite 0 (own + 4) v) s = .next t ∧ ((t.hall h).job j).hbmSize = v.toNat % 2 ^ 20
          ∧ ((t.hall h).job j).hbmBase = ((s.hall h).job j).hbmBase)
        ∧ (∃ t, exec (.registerWrite 0 (own + 8) v) s = .next t ∧ ((t.hall h).job j).rows = v.toNat % 2048)
        ∧ ∃ t, exec (.registerWrite 0 (own + 12) v) s = .next t ∧ ((t.hall h).job j).bayBase = v.toNat % 512
          ∧ ((t.hall h).job j).bayCount = v.toNat / 65536 % 1024)
      ∧ (resident → ∀ k ∈ [0, 4, 8, 12], exec (.registerWrite 0 (own + k) v) s = .next (s.accessErr 0))
      ∧ (s.inPartition h = false → v.toNat % 65536 = 0 → ∃ t, exec (.registerWrite 0 (at_ 0x20) v) s = .next t
        ∧ (t.hall h).shrBase = (s.hall h).shrBase / 2 ^ 32 * 2 ^ 32 + v.toNat ∧ (t.hall h).shrHead = 0 ∧ SameStacks s t)
      ∧ (s.inPartition h = true ∨ v.toNat % 65536 ≠ 0 → exec (.registerWrite 0 (at_ 0x20) v) s = .next (s.accessErr 0))
      ∧ (∃ t, exec (.registerWrite 0 (at_ 0x18) v) s = .next t ∧ (t.hall h).scaleSel = v.toNat % 65536 ∧ SameStacks s t)
      ∧ (f ≠ 0 → ∀ k ∈ [0x14, 0x18, 0x20, 0x28, 0x8000 + 0x20 * j, 0x13004, 0x1305C],
        exec (.registerWrite f (at_ k) v) s = .next (s.accessErr f)))
  ∧ ∀ (s : State) (f : Fn) (r : CfgReq), s.linkStat ≠ 0 →
    (s.selfDone = false → exec (.configRequest f r) s = .next { s with cfgRetry := true })
    ∧ (s.selfDone = true →
      (∃ t b, exec (.configRequest 0 (.read 0)) s = .next t ∧ t.cfgRetry = false ∧ t.rdata = some b ∧ b.length = 4
        ∧ u16 b 2 = 0x0082)
      ∧ (∀ n en, s.vfEnable = false → n ≤ 8 →
        exec (.configRequest 0 (.sriov n en)) s = .next { s with cfgRetry := false, numVFs := n, vfEnable := en })
      ∧ (∀ n en, s.vfEnable = true →
        exec (.configRequest 0 (.sriov n en)) s = .next { s with cfgRetry := false, vfEnable := en })
      ∧ (∀ param, ∃ t a, exec (.spdmRequest 0xE0 param) s = .next t ∧ t.spdm = some a ∧ a.ok = true ∧ a.meas.length = 6
        ∧ a.meas.getD 5 [] = natLE prtIdent 4 ∧ t.halls = s.halls))

/-! ### The management chain -/

/-- A FULL WALK, whatever its DEST (the model's reading, log 52), gives a serving device without a plan its address and the next
one the next seat; READ is answered with the register's word, WRITE is taken by PRT_FREEZE_CTRL alone, a RESP or a NOTIFY of its
own ends here, and a frame for another device goes on unchanged. The DEST of an answer to a requester without an address is the
model's choice (log 15), and so is the chain's own latch of a counter's high half, under which READ answers (log 58). -/
def Obligations.ChainFramesAreServed : Prop :=
  ∀ (s : State) (f : ChainFrame), s.chainStage = .serving → chainOk f = true →
    let off := u32 f.payload 0
    let resp := fun (status : Nat) (data : List Byte) => sealChain ⟨4, 1,
      if f.src.getLsbD 18 then s.chainSrc else f.src &&& 0x3FFFF, s.chainSrc, natLE status 1 ++ natLE 0 3 ++ data, 0⟩
    (f.typ = cWALK → f.payload.length = 8 → u8 f.payload 0 = 0 → u8 f.payload 4 < 64 → s.anyPlan = false →
      ∃ t g, exec (.walk f) s = .next t ∧ t.chainValid = true
        ∧ t.chainAddr = BitVec.ofNat 18 (u16 f.payload 2 % 4096 * 64 + u8 f.payload 4)
        ∧ t.chainOut = s.chainOut ++ [g] ∧ chainOk g = true ∧ u8 g.payload 4 = u8 f.payload 4 + 1
        ∧ u8 g.payload 5 = (u8 f.payload 5 + 1) % 256 ∧ t.halls = s.halls)
    ∧ (f.typ = cREAD → s.chainValid = true → s.chainMine f = true → off ≤ 0xFFFFF → off % 4 = 0 →
      ∃ t, exec (.chainRead f) s = .next t
        ∧ t.chainOut = s.chainOut ++ [resp 0 (natLE (s.readReg 0 chainLatch off).1.toNat 4)])
    ∧ (f.typ = cWRITE → s.chainValid = true → s.chainMine f = true → off ≤ 0xFFFFF →
      (off ≠ offFreeze → exec (.chainWrite f) s = .next { s with chainOut := s.chainOut ++ [resp 1 (natLE 0 4)] })
      ∧ (off = offFreeze → u32 f.payload 4 = 1 → s.freezing = false →
        ∃ t, exec (.chainWrite f) s = .next t ∧ t.holding = true ∧ t.byPorter = true
          ∧ t.chainOut = s.chainOut ++ [resp 0 (natLE 0 4)]))
    ∧ (f.typ = cRESP ∨ f.typ = cNOTIFY → s.chainValid = true → s.chainMine f = true → exec (.chainForward f) s = .next s)
    ∧ (s.chainTakes f = false → (f.typ ≠ cWALK ∨ f.payload.length ≠ 8) →
      exec (.chainForward f) s = .next { s with chainOut := s.chainOut ++ [f] })

/-- A key command of each of the three operations ends with the code of its first failing check and the slots as they were, or
starts to burn its target slot. A burn ends at an idle step (the model's timing, log 28): the slot as burned with code 0 when the
fuses read back, else code 0x0709 and no other slot changed. Each end draws a new nonce. -/
def Obligations.KeyCommandsEnd : Prop :=
  (∀ (s : State) (op : Nat) (c : Fn → Instr),
    (op, c) ∈ [(1, Instr.keyProvision), (2, Instr.keyRevoke), (3, Instr.keyRaiseMin)] → u8 s.keyBlock 4 = op →
    s.freezing = false → s.anyLoading = false → s.keyBurn = none →
    ∃ t, exec (c 0) s = .next t ∧ t.keyWait = false ∧ t.slots = s.slots ∧ t.halls = s.halls ∧ t.jobs = s.jobs
      ∧ (∀ e, s.keyErr s.keyBlock = some e → t.keyDone = true ∧ t.keyCode = e ∧ t.keyDraws = s.keyDraws + 1 ∧ t.keyBurn = none)
      ∧ (s.keyErr s.keyBlock = none → t.keyBurn = some s.keyBlock ∧ t.keyDraws = s.keyDraws))
  ∧ ∀ (s : State) (b : List Byte), s.pending = [] → s.keyBurn = some b →
    ∃ t, step s = .next t ∧ t.keyBurn = none ∧ t.keyDone = true ∧ t.keyDraws = s.keyDraws + 1
      ∧ (Config.fuseOk s.keyDraws = true → t.keyCode = 0
        ∧ t.slots = s.slots.set (u8 b 5) ((s.keySlot (u8 b 5)).burned b))
      ∧ (Config.fuseOk s.keyDraws = false → t.keyCode = 0x0709 ∧ ∀ k, k ≠ u8 b 5 → t.slots[k]? = s.slots[k]?)

/-! ### Freezes -/

/-- A freeze holds the handshakes under its source, which is counted; it is complete when every handshake holds; it ends
with its last source. Only the physical function may ask for one. In a freeze a doorbell is recorded, and after the thaw recorded
writes take effect in the order in which they came. -/
def Obligations.FreezesStartAndEnd : Prop :=
  (∀ (s : State) (q : Page) (sc psc sba : Bool) (v w : Word), q < 128 → s.freezing = true → v.toNat < (s.job q).sqSize →
    w.toNat < (s.job q).sqSize →
    exec (.doorbell (pageFn q) q v) s = .next { s with held := s.held ++ [(pageFn q, pageOff q 0, v)] }
    ∧ (s.held = [(pageFn q, pageOff q 0, v), (pageFn q, pageOff q 0, w)] →
      (s.byPin = false → s.pinLow = false → ∃ t, exec (.thaw 0 sc psc sba) s = .next t ∧ t.freezing = false ∧ t.held = []
        ∧ (t.job q).sqTail = w.toNat)
      ∧ (s.byPorter = false → s.bySide = [] → ∃ t, exec .freezeNRise s = .next t ∧ t.freezing = false ∧ t.held = []
        ∧ (t.job q).sqTail = w.toNat)))
  ∧ ∀ (s : State) (f : Fn) (sc psc sba : Bool),
    (s.freezing = false → ∃ t, exec (.freeze 0 sc psc sba) s = .next t ∧ t.holding = true ∧ t.frzSource = srcPorter
      ∧ t.frzLanding = sc ∧ t.byPorter = true ∧ t.frzCount = min 255 (s.frzCount + 1)
      ∧ (t.scope, t.pinScope, t.sbAccept) = (sc, psc, sba))
    ∧ (f ≠ 0 → exec (.freeze f sc psc sba) s = .next (s.accessErr f) ∧ exec (.thaw f sc psc sba) s = .next (s.accessErr f))
    ∧ (s.freezing = false → s.selfDone = true → ∃ t, exec .freezeNFall s = .next t ∧ t.holding = true
      ∧ t.frzSource = srcPin ∧ t.byPin = true ∧ t.pinLow = true)
    ∧ (s.holding = true → ∃ t, exec .freezeComplete s = .next t ∧ t.frozen = true ∧ t.holding = false
      ∧ t.frzSource = s.frzSource ∧ t.jobs = s.jobs)
    ∧ (s.freezing = true → s.held = [] →
      (s.byPin = false → s.pinLow = false →
        ∃ t, exec (.thaw 0 sc psc sba) s = .next t ∧ t.frozen = false ∧ t.holding = false ∧ t.byPorter = false
          ∧ t.bySide = [] ∧ t.frzSource = 0)
      ∧ (s.byPorter = false → s.bySide = [] →
        ∃ t, exec .freezeNRise s = .next t ∧ t.frozen = false ∧ t.holding = false ∧ t.pinLow = false ∧ t.frzSource = 0))

/-! ### Windows and registers -/

/-- The read-out window (log 60): its registers take what the physical function writes, and in a frozen device a read of its data
returns four bytes of the selected space at its address and moves on: the stack, a bay's data, strip, witness rows or header, a row
of the Undercroft, its tag, the committed counter of a sampler or Riser lane, or the Concourse's buffers, whose bytes are open (log
29). An address beyond its space, a reserved space, another function or a device that is not frozen gets all ones and is counted. -/
def Obligations.ReadOutWindow : Prop :=
  ∀ (s : State) (v : Word) (f : Fn),
    let a := s.rdwAddr.toNat
    let h := fld s.rdwSel.toNat 0 3
    let H := s.hall h
    let G := H.gal (fld s.rdwSel.toNat 16 6)
    let space := fld s.rdwSel.toNat 8 4
    let shows := fun (b : List Byte) => ∃ t, exec (.rdwinDataRead 0) s = .next t ∧ t.rdata = some b ∧ t.rdwAddr = s.rdwAddr + 4
        ∧ t.halls = s.halls
    (∃ t, exec (.registerWrite 0 0x190 v) s = .next t ∧ t.rdwSel = v &&& 0x003F0F07 ∧ t.rdwAddr = s.rdwAddr)
    ∧ (∃ t, exec (.registerWrite 0 0x194 v) s = .next t ∧ t.rdwAddr.toNat = a / 2 ^ 32 * 2 ^ 32 + v.toNat
      ∧ t.rdwSel = s.rdwSel)
    ∧ (∃ t, exec (.registerWrite 0 0x198 v) s = .next t ∧ t.rdwAddr.toNat = a % 2 ^ 32 + v.toNat * 2 ^ 32
      ∧ t.rdwSel = s.rdwSel)
    ∧ (s.frozen = true →
      (space = 0 → a + 4 ≤ 0xC00000000 → H.poisoned (a, 4) = false → shows (memReads H.hbm a 4))
      ∧ (∀ x ∈ [(1, 8192, Bay.data), (2, 512, Bay.strip), (3, 1024, Bay.witBytes), (4, 8, Bay.header)], ∀ b : Nat × Bay,
        space = x.1 → a / x.2.1 < 512 → a % x.2.1 + 4 ≤ x.2.1 → G.bays.find? (·.1 == a / x.2.1) = some b →
        shows ((List.range 4).map fun i => (x.2.2 b.2).getD (a % x.2.1 + i) 0))
      ∧ (∀ w : Word, space = 5 → a % 4 = 0 → a / 256 < 65536 → s.rowDark h (a / 256) = false →
        (s.rowShown h (a / 256)).data[a % 256 / 4]? = some w → shows (natLE w.toNat 4))
      ∧ (space = 6 → a % 8 ≤ 4 → a / 8 < 65536 →
        shows ((List.range 4).map fun i => (s.rowShown h (a / 8)).tag.bytes.getD (a % 8 + i) 0))
      ∧ (space = 7 → a + 4 ≤ 0x1000000 → ∃ b, shows b)
      ∧ (space = 8 → a % 16 = 0 → a / 16 < 512 → shows (natLE (tabGet 0 H.sampler (a / 16) % 2 ^ 32) 4))
      ∧ (space = 9 → a % 16 = 0 → a / 16 < 32 → shows (natLE ((tabGet 0 H.riser (a / 16)).toNat % 2 ^ 32) 4))
      ∧ (10 ≤ space ∨ [0xC00000000, 0x400000, 0x40000, 0x80000, 0x1000, 0x1000000, 0x80000, 0x1000000, 0x2000, 0x200].getD space 0
          < a + 4 → exec (.rdwinDataRead 0) s = .next ((s.accessErr 0).answer (natLE 0xFFFFFFFF 4))))
    ∧ (f ≠ 0 ∨ s.frozen = false → exec (.rdwinDataRead f) s = .next ((s.accessErr f).answer (natLE 0xFFFFFFFF 4)))

/-- R10: the read of a low half returns it and latches the high half for its own function; the high half reads as the last
value latched, or as zero when there is none. -/
def Obligations.CounterHighHalfIsLatched : Prop :=
  ∀ (s : State) (f : Fn) (off : Nat) (d : DWord), off % 4 = 0 → areaOf off ≠ .prt 0x19C → s.mayRead f (areaOf off) = true →
    s.regAt f (areaOf off) = some (.low d) →
    ∃ t, exec (.counterLowRead f off) s = .next t ∧ t.rdata = some (natLE (d.toNat % 2 ^ 32) 4)
      ∧ (∀ g, g ≠ f → t.fn g = s.fn g)
      ∧ ∀ u : State, areaOf (off + 4) ≠ .prt 0x19C → u.mayRead f (areaOf (off + 4)) = true →
        u.regAt f (areaOf (off + 4)) = some .high →
        ((u.fn f).latch = (t.fn f).latch → (u.read f (off + 4)).rdata = some (natLE (d.toNat / 2 ^ 32) 4))
        ∧ (tabHas (u.fn f).latch off = false → (u.read f (off + 4)).rdata = some (natLE 0 4))

/-- The BAR2 window of a hall: a write outside the hold and an enabled Mezzanine puts its bytes there and nowhere else, a
read of bytes outside the hold that are not poisoned returns them. Without a target, beyond the stack, in the hold, and for a write
in an enabled Mezzanine, the access is counted and nothing else changes; such a read returns all ones. That an access is refused whole
when any of its bytes is refused is the model's reading of R318 (log 66). -/
def Obligations.Bar2ReachesTheStack : Prop :=
  ∀ (s : State) (f : Fn) (off len : Nat) (b : List Byte),
    let ones := (s.accessErr f).answer (List.replicate len 0xFF)
    (s.bar2Target f = none → exec (.bar2Access f off (some b) len) s = .next (s.accessErr f)
      ∧ exec (.bar2Access f off none len) s = .next ones)
    ∧ ∀ h, s.bar2Target f = some h →
      let H := s.hall h
      (off + b.length ≤ stackBytes → Span.meets (off, b.length) H.holdSpan = false →
        Span.meets (off, b.length) H.mezzSpan = false →
        ∃ t, exec (.bar2Access f off (some b) len) s = .next t ∧ memReads (t.hall h).hbm off b.length = b
          ∧ (∀ a, a < off ∨ off + b.length ≤ a → memRead (t.hall h).hbm a = memRead H.hbm a)
          ∧ (∀ k, k ≠ h → t.hall k = s.hall k) ∧ t.host = s.host)
      ∧ (off + len ≤ stackBytes → Span.meets (off, len) H.holdSpan = false → H.poisoned (off, len) = false →
        exec (.bar2Access f off none len) s = .next (s.answer (memReads H.hbm off len)))
      ∧ (stackBytes < off + b.length ∨ Span.meets (off, b.length) H.holdSpan = true
          ∨ Span.meets (off, b.length) H.mezzSpan = true →
        exec (.bar2Access f off (some b) len) s = .next (s.accessErr f))
      ∧ (stackBytes < off + len ∨ Span.meets (off, len) H.holdSpan = true →
        exec (.bar2Access f off none len) s = .next ones)

/-- R9: a write of another width or alignment is discarded, such a read returns all ones, each is counted, and nothing else
changes. -/
def Obligations.OddAccessesAreCounted : Prop :=
  ∀ (s : State) (f : Fn) (off width : Nat) (v : Word), width ≠ 32 ∨ off % 4 ≠ 0 →
    exec (.invalidRegisterAccess f off width (some v)) s = .next (s.accessErr f)
    ∧ exec (.invalidRegisterAccess f off width none) s = .next ((s.accessErr f).answer (natLE 0xFFFFFFFF 4))
    ∧ ((s.accessErr f).fn f).accessErr = min ((s.fn f).accessErr + 1) 0xFFFFFFFF

/-! ### Partitions and jobs -/

/-- BOUND on a set that meets R315 asks for the binding, with REKEY under a fresh key over cleared stacks; it takes effect
with a partition without plan, semaphores or steps; clearing BOUND ends it. A set that fails R315 sets BIND_ERR. -/
def Obligations.PartitionsBindAndUnbind : Prop :=
  ∀ (s : State) (v : Fn) (base : BitVec 3) (size : BitVec 2), s.freezing = false → 1 ≤ v → v ≤ 8 →
    ((s.part v).bindReq = false →
      (s.bindOk v base.toNat size.toNat false = true → ∃ t, exec (.bound 0 v base size) s = .next t
        ∧ (t.part v).bindReq = true ∧ (t.part v).base = base.toNat ∧ (t.part v).size = size.toNat ∧ t.halls = s.halls)
      ∧ (s.bindOk v base.toNat size.toNat false = false → ∃ t, exec (.bound 0 v base size) s = .next t
        ∧ (t.part v).bindReq = false ∧ (t.part v).bindErr = true ∧ t.halls = s.halls)
      ∧ (s.bindOk v base.toNat size.toNat true = true → ∃ t, exec (.rekey 0 v base size) s = .next t
        ∧ (t.part v).bindReq = true
        ∧ ∀ i < 2 ^ size.toNat, (t.hall (base.toNat + i)).hbm = [] ∧ (t.hall (base.toNat + i)).xlogHead = 0
          ∧ (t.hall (base.toNat + i)).key = Config.interleaveKey s.keyDrawsHbm))
    ∧ ((s.part v).bindReq = true → (s.part v).bound = false →
      (∃ t, exec (.bindingTakesEffect v) s = .next t ∧ (t.part v).bound = true ∧ (t.part v).plan = none
        ∧ (t.part v).sems = [] ∧ ∀ h ∈ (t.part v).halls, (t.hall h).step = 0 ∧ (t.hall h).sampler = [])
      ∧ (∃ t, exec (.unbind 0 v) s = .next t ∧ (t.part v).bindReq = false ∧ t.halls = s.halls))
    ∧ ((s.part v).bindReq = true → (s.part v).bound = true →
      ∃ t, exec (.unbind 0 v) s = .next t ∧ (t.part v).bound = false ∧ (t.part v).bindReq = false ∧ (t.part v).plan = none
        ∧ (t.part v).sems = [] ∧ ∀ j < 16, (t.job (pageOf v j)).resident = false)

/-- RESIDENT draws the job's rows in every hall that admits it, and clearing it returns them; a write of the epoch empties
the job's ledgers; the Mezzanine is enabled for its peer where it meets no other region. -/
def Obligations.JobsBecomeResident : Prop :=
  ∀ (s : State) (q : Page) (w : Bool), s.freezing = false →
    let v := pageFn q
    ((s.job q).enabled = false → (s.job q).resident = false → (s.part v).bound = true →
      (∀ h ∈ (s.part v).halls,
        (s.hall h).admits (s.residents v) (((s.part v).plan.map Plan.staging).getD 0) (pageJob q) = true) →
      ∃ t, exec (.residentSet 0 q w) s = .next t ∧ (t.job q).resident = true ∧ (t.job q).wcommon = w
        ∧ ∀ h ∈ (s.part v).halls, ((t.hall h).job (pageJob q)).rowMap.length = 64 * ((s.hall h).job (pageJob q)).rows)
    ∧ ((s.job q).enabled = false → (s.job q).resident = true →
      ∃ t, exec (.residentClear 0 q w) s = .next t ∧ (t.job q).resident = false
        ∧ ∀ h ∈ (s.part v).halls, ((t.hall h).job (pageJob q)).rowMap = [])
    ∧ (∀ (h j : Nat) (e : BitVec 16), s.epochBusy h j = false →
      ∃ t, exec (.epochWrite 0 h j e) s = .next t ∧ t.jobs = s.jobs
        ∧ ∀ k, (s.ownerOf h = none ∧ k = h) ∨ (∃ o, s.ownerOf h = some o ∧ k ∈ (s.part o).halls) →
          ((t.hall k).job j).epoch = e.toNat ∧ ((t.hall k).job j).rx = [] ∧ ((t.hall k).job j).tx = []
            ∧ ((t.hall k).job j).rowMap = ((s.hall k).job j).rowMap)
    ∧ (∀ (h : Nat) (ph : BitVec 3) (pa : BitVec 18), (s.hall h).mezzOn = false → s.mezzMeets h = false →
      ∃ t, exec (.mezzEnable 0 h ph pa) s = .next t ∧ (t.hall h).mezzOn = true ∧ (t.hall h).mezzHall = ph.toNat
        ∧ (t.hall h).mezzAddr = pa.toNat ∧ SameStacks s t)

/-- A plan becomes active at its bank swap, once nothing else of the partition runs and no row and hold segment is in use: the plan that
stands by, or, where BAR2 writes met its image, what an image with free bytes in their place holds, which may fail a check (R164);
the partner's equal pairing digest lets a load go on (from a partner that stands alone as its new leg: the model's choice, logs 48, 49
and 107), and another one fails it. -/
def Obligations.PlansPairAndSwap : Prop :=
  ∀ (s : State) (v : Fn) (l : Loading), s.frozen = false → (s.part v).loading = some l →
    (∀ c : Cmd, s.cmd? l.page l.slot = some c → s.swapReady v l = true →
      (((s.part v).halls.all fun h => (s.hall h).rowsFree && (s.hall h).holdValid.isEmpty) = true →
        (∀ p, (s.plannedBy v l c).2 = .ok p → ∃ t, exec (.planBankSwap v) s = .next t ∧ (t.part v).plan = some p
          ∧ ∀ h ∈ (s.part v).halls, (t.hall h).tableStat = tableStatOf p)
        ∧ (∀ e, (s.plannedBy v l c).2 = .error e →
          exec (.planBankSwap v) s = .next ((s.plannedBy v l c).1.failCmd l.page l.slot e 0xFFFF))
        ∧ (c.att.hits = [] → s.plannedBy v l c = (s, .ok l.plan)))
      ∧ (((s.part v).halls.all fun h => (s.hall h).rowsFree && (s.hall h).holdValid.isEmpty) = false →
        exec (.planBankSwap v) s = .next (s.failCmd l.page l.slot 0x0419 0xFFFF)))
    ∧ (∀ (dg rec : List Byte) (steps riser : List DWord) (leg : LegWord), l.paired = false →
      (s.pairMatch v l.plan dg rec = true → ∃ t, exec (.pairingDigest v dg rec steps riser leg) s = .next t
        ∧ (t.part v).loading = some { l with paired := true, alone := leg.state == 2 } ∧ t.halls = s.halls ∧ t.jobs = s.jobs)
      ∧ (s.pairMatch v l.plan dg rec = false →
        exec (.pairingDigest v dg rec steps riser leg) s = .next (s.failCmd l.page l.slot 0x0418 0xFFFF)))

/-! ### Reset values and numbers -/

/-- The reset values that the register tables state: queues of 64 entries, no ring enabled, a timeout of one second, slices
of 10 ms, no hall in service, no freeze, no address, counters at zero; and every memory in canonical form. -/
def Obligations.ResetValues : Prop :=
  ∀ (q : Page) (h v f : Nat), let s := State.reset
    (s.job q).sqSize = 64 ∧ (s.job q).cqSize = 64 ∧ (s.job q).enable = false ∧ (s.job q).timeoutDef = 1000000
      ∧ (s.job q).slice = 10000 ∧ (s.job q).commits = 0 ∧ (s.job q).cmds = []
      ∧ (s.fn f).accessErr = 0 ∧ (s.part v).bound = false ∧ (s.part v).scState = 0 ∧ (s.part v).sems = []
      ∧ (s.hall h).step = 0 ∧ (s.hall h).hbm = [] ∧ (s.hall h).unc = [] ∧ (s.hall h).xlogHead = 0
      ∧ s.hallmap = 0 ∧ s.chainValid = false ∧ s.frozen = false ∧ s.holding = false ∧ s.selfDone = false
      ∧ s.pending = [] ∧ s.time = 0 ∧ s.memWf

/-- R47: the product of two W-form operands. -/
def Obligations.ProductOfLogs : Prop :=
  ∀ w x : W,
    (w.cls = .nan ∨ x.cls = .nan → product w x = (W.nan, { Flags.none with nan := true }))
    ∧ ((w.cls = .zero ∧ x.cls = .inf) ∨ (w.cls = .inf ∧ x.cls = .zero) →
      (product w x).1 = W.nan ∧ (product w x).2.iprod = true)
    ∧ ((w.cls = .zero ∧ (x.cls = .zero ∨ x.cls = .fin)) ∨ (x.cls = .zero ∧ w.cls = .fin) → product w x = (W.zero, Flags.none))
    ∧ ((w.cls = .inf ∧ (x.cls = .inf ∨ x.cls = .fin)) ∨ (x.cls = .inf ∧ w.cls = .fin) →
      (product w x).1 = W.inf (w.s ^^ x.s) ∧ (product w x).2.iprod = false)
    ∧ (w.cls = .fin → x.cls = .fin → product w x = (⟨.fin, w.s ^^ x.s, w.log + x.log⟩, Flags.none))

/-- A finite ZL16 code decodes to a value that encodes to it again under the same scales, whatever SAT says, a ZL8 value
passes through ZL16 exactly, and among finite codes of one sign a larger code means a larger log. -/
def Obligations.Zl16IsExact : Prop :=
  ∀ (code other fine : Nat) (c : Int) (sat : Bool), code < 65536 → other < 65536 →
    let w := zl16ToW code c fine
    (w.cls = .fin → wToZl16 w c (sext 8 fine) sat = ⟨code, false⟩)
    ∧ (code < 256 → (zl8ToW code c fine false none).cls = .fin →
      zl16ToW (wToZl16 (zl8ToW code c fine false none) c (sext 8 fine) sat).code c fine = zl8ToW code c fine false none)
    ∧ (w.cls = .fin → (zl16ToW other c fine).cls = .fin → bit code 15 = bit other 15 → code < other →
      w.log < (zl16ToW other c fine).log)
end

