-- ==== Sys2Proof/Laws/State.lean ====
section
/-! SUPPORT. What each update of the state leaves as it was: one lemma per field per update. -/

namespace Sys2Proof.Machine

/-! ### State.modHall -/

@[simp] theorem State.modHall_time (s : State) (h : Nat) (f : Hall → Hall) :
    (s.modHall h f).time = s.time := rfl
@[simp] theorem State.modHall_resetCause (s : State) (h : Nat) (f : Hall → Hall) :
    (s.modHall h f).resetCause = s.resetCause := rfl
@[simp] theorem State.modHall_frozenAt (s : State) (h : Nat) (f : Hall → Hall) :
    (s.modHall h f).frozenAt = s.frozenAt := rfl
@[simp] theorem State.modHall_warmCnt (s : State) (h : Nat) (f : Hall → Hall) :
    (s.modHall h f).warmCnt = s.warmCnt := rfl
@[simp] theorem State.modHall_selfDone (s : State) (h : Nat) (f : Hall → Hall) :
    (s.modHall h f).selfDone = s.selfDone := rfl
@[simp] theorem State.modHall_selfBusy (s : State) (h : Nat) (f : Hall → Hall) :
    (s.modHall h f).selfBusy = s.selfBusy := rfl
@[simp] theorem State.modHall_hallFail (s : State) (h : Nat) (f : Hall → Hall) :
    (s.modHall h f).hallFail = s.hallFail := rfl
@[simp] theorem State.modHall_galFenced (s : State) (h : Nat) (f : Hall → Hall) :
    (s.modHall h f).galFenced = s.galFenced := rfl
@[simp] theorem State.modHall_repairs (s : State) (h : Nat) (f : Hall → Hall) :
    (s.modHall h f).repairs = s.repairs := rfl
@[simp] theorem State.modHall_selfHalls (s : State) (h : Nat) (f : Hall → Hall) :
    (s.modHall h f).selfHalls = s.selfHalls := rfl
@[simp] theorem State.modHall_testing (s : State) (h : Nat) (f : Hall → Hall) :
    (s.modHall h f).testing = s.testing := rfl
@[simp] theorem State.modHall_hallmap (s : State) (h : Nat) (f : Hall → Hall) :
    (s.modHall h f).hallmap = s.hallmap := rfl
@[simp] theorem State.modHall_chainAddr (s : State) (h : Nat) (f : Hall → Hall) :
    (s.modHall h f).chainAddr = s.chainAddr := rfl
@[simp] theorem State.modHall_chainValid (s : State) (h : Nat) (f : Hall → Hall) :
    (s.modHall h f).chainValid = s.chainValid := rfl
@[simp] theorem State.modHall_chainStage (s : State) (h : Nat) (f : Hall → Hall) :
    (s.modHall h f).chainStage = s.chainStage := rfl
@[simp] theorem State.modHall_heldWalks (s : State) (h : Nat) (f : Hall → Hall) :
    (s.modHall h f).heldWalks = s.heldWalks := rfl
@[simp] theorem State.modHall_chainOut (s : State) (h : Nat) (f : Hall → Hall) :
    (s.modHall h f).chainOut = s.chainOut := rfl
@[simp] theorem State.modHall_echoPort (s : State) (h : Nat) (f : Hall → Hall) :
    (s.modHall h f).echoPort = s.echoPort := rfl
@[simp] theorem State.modHall_echoAsk (s : State) (h : Nat) (f : Hall → Hall) :
    (s.modHall h f).echoAsk = s.echoAsk := rfl
@[simp] theorem State.modHall_echoBusy (s : State) (h : Nat) (f : Hall → Hall) :
    (s.modHall h f).echoBusy = s.echoBusy := rfl
@[simp] theorem State.modHall_echoDone (s : State) (h : Nat) (f : Hall → Hall) :
    (s.modHall h f).echoDone = s.echoDone := rfl
@[simp] theorem State.modHall_echoTimeout (s : State) (h : Nat) (f : Hall → Hall) :
    (s.modHall h f).echoTimeout = s.echoTimeout := rfl
@[simp] theorem State.modHall_echoUnaddr (s : State) (h : Nat) (f : Hall → Hall) :
    (s.modHall h f).echoUnaddr = s.echoUnaddr := rfl
@[simp] theorem State.modHall_echoIn (s : State) (h : Nat) (f : Hall → Hall) :
    (s.modHall h f).echoIn = s.echoIn := rfl
@[simp] theorem State.modHall_echoSrc (s : State) (h : Nat) (f : Hall → Hall) :
    (s.modHall h f).echoSrc = s.echoSrc := rfl
@[simp] theorem State.modHall_slots (s : State) (h : Nat) (f : Hall → Hall) :
    (s.modHall h f).slots = s.slots := rfl
@[simp] theorem State.modHall_keyAddr (s : State) (h : Nat) (f : Hall → Hall) :
    (s.modHall h f).keyAddr = s.keyAddr := rfl
@[simp] theorem State.modHall_keyWait (s : State) (h : Nat) (f : Hall → Hall) :
    (s.modHall h f).keyWait = s.keyWait := rfl
@[simp] theorem State.modHall_keyDone (s : State) (h : Nat) (f : Hall → Hall) :
    (s.modHall h f).keyDone = s.keyDone := rfl
@[simp] theorem State.modHall_keyCode (s : State) (h : Nat) (f : Hall → Hall) :
    (s.modHall h f).keyCode = s.keyCode := rfl
@[simp] theorem State.modHall_keyDraws (s : State) (h : Nat) (f : Hall → Hall) :
    (s.modHall h f).keyDraws = s.keyDraws := rfl
@[simp] theorem State.modHall_keyBurn (s : State) (h : Nat) (f : Hall → Hall) :
    (s.modHall h f).keyBurn = s.keyBurn := rfl
@[simp] theorem State.modHall_fuses (s : State) (h : Nat) (f : Hall → Hall) :
    (s.modHall h f).fuses = s.fuses := rfl
@[simp] theorem State.modHall_selfPair (s : State) (h : Nat) (f : Hall → Hall) :
    (s.modHall h f).selfPair = s.selfPair := rfl
@[simp] theorem State.modHall_devDomains (s : State) (h : Nat) (f : Hall → Hall) :
    (s.modHall h f).devDomains = s.devDomains := rfl
@[simp] theorem State.modHall_frozen (s : State) (h : Nat) (f : Hall → Hall) :
    (s.modHall h f).frozen = s.frozen := rfl
@[simp] theorem State.modHall_holding (s : State) (h : Nat) (f : Hall → Hall) :
    (s.modHall h f).holding = s.holding := rfl
@[simp] theorem State.modHall_frzSource (s : State) (h : Nat) (f : Hall → Hall) :
    (s.modHall h f).frzSource = s.frzSource := rfl
@[simp] theorem State.modHall_frzLanding (s : State) (h : Nat) (f : Hall → Hall) :
    (s.modHall h f).frzLanding = s.frzLanding := rfl
@[simp] theorem State.modHall_frzOrigin (s : State) (h : Nat) (f : Hall → Hall) :
    (s.modHall h f).frzOrigin = s.frzOrigin := rfl
@[simp] theorem State.modHall_frzCount (s : State) (h : Nat) (f : Hall → Hall) :
    (s.modHall h f).frzCount = s.frzCount := rfl
@[simp] theorem State.modHall_scope (s : State) (h : Nat) (f : Hall → Hall) :
    (s.modHall h f).scope = s.scope := rfl
@[simp] theorem State.modHall_pinScope (s : State) (h : Nat) (f : Hall → Hall) :
    (s.modHall h f).pinScope = s.pinScope := rfl
@[simp] theorem State.modHall_sbAccept (s : State) (h : Nat) (f : Hall → Hall) :
    (s.modHall h f).sbAccept = s.sbAccept := rfl
@[simp] theorem State.modHall_pinLow (s : State) (h : Nat) (f : Hall → Hall) :
    (s.modHall h f).pinLow = s.pinLow := rfl
@[simp] theorem State.modHall_byPin (s : State) (h : Nat) (f : Hall → Hall) :
    (s.modHall h f).byPin = s.byPin := rfl
@[simp] theorem State.modHall_byPorter (s : State) (h : Nat) (f : Hall → Hall) :
    (s.modHall h f).byPorter = s.byPorter := rfl
@[simp] theorem State.modHall_bySide (s : State) (h : Nat) (f : Hall → Hall) :
    (s.modHall h f).bySide = s.bySide := rfl
@[simp] theorem State.modHall_held (s : State) (h : Nat) (f : Hall → Hall) :
    (s.modHall h f).held = s.held := rfl
@[simp] theorem State.modHall_sbSeen (s : State) (h : Nat) (f : Hall → Hall) :
    (s.modHall h f).sbSeen = s.sbSeen := rfl
@[simp] theorem State.modHall_sbNext (s : State) (h : Nat) (f : Hall → Hall) :
    (s.modHall h f).sbNext = s.sbNext := rfl
@[simp] theorem State.modHall_rdwSel (s : State) (h : Nat) (f : Hall → Hall) :
    (s.modHall h f).rdwSel = s.rdwSel := rfl
@[simp] theorem State.modHall_rdwAddr (s : State) (h : Nat) (f : Hall → Hall) :
    (s.modHall h f).rdwAddr = s.rdwAddr := rfl
@[simp] theorem State.modHall_vcoreMv (s : State) (h : Nat) (f : Hall → Hall) :
    (s.modHall h f).vcoreMv = s.vcoreMv := rfl
@[simp] theorem State.modHall_vcoreMa (s : State) (h : Nat) (f : Hall → Hall) :
    (s.modHall h f).vcoreMa = s.vcoreMa := rfl
@[simp] theorem State.modHall_tjMax (s : State) (h : Nat) (f : Hall → Hall) :
    (s.modHall h f).tjMax = s.tjMax := rfl
@[simp] theorem State.modHall_tjHall (s : State) (h : Nat) (f : Hall → Hall) :
    (s.modHall h f).tjHall = s.tjHall := rfl
@[simp] theorem State.modHall_target (s : State) (h : Nat) (f : Hall → Hall) :
    (s.modHall h f).target = s.target := rfl
@[simp] theorem State.modHall_throttle (s : State) (h : Nat) (f : Hall → Hall) :
    (s.modHall h f).throttle = s.throttle := rfl
@[simp] theorem State.modHall_avsFails (s : State) (h : Nat) (f : Hall → Hall) :
    (s.modHall h f).avsFails = s.avsFails := rfl
@[simp] theorem State.modHall_tripped (s : State) (h : Nat) (f : Hall → Hall) :
    (s.modHall h f).tripped = s.tripped := rfl
@[simp] theorem State.modHall_vcoreEn (s : State) (h : Nat) (f : Hall → Hall) :
    (s.modHall h f).vcoreEn = s.vcoreEn := rfl
@[simp] theorem State.modHall_tripLow (s : State) (h : Nat) (f : Hall → Hall) :
    (s.modHall h f).tripLow = s.tripLow := rfl
@[simp] theorem State.modHall_sysHigh (s : State) (h : Nat) (f : Hall → Hall) :
    (s.modHall h f).sysHigh = s.sysHigh := rfl
@[simp] theorem State.modHall_perstHigh (s : State) (h : Nat) (f : Hall → Hall) :
    (s.modHall h f).perstHigh = s.perstHigh := rfl
@[simp] theorem State.modHall_linkStat (s : State) (h : Nat) (f : Hall → Hall) :
    (s.modHall h f).linkStat = s.linkStat := rfl
@[simp] theorem State.modHall_clkreqLow (s : State) (h : Nat) (f : Hall → Hall) :
    (s.modHall h f).clkreqLow = s.clkreqLow := rfl
@[simp] theorem State.modHall_bars (s : State) (h : Nat) (f : Hall → Hall) :
    (s.modHall h f).bars = s.bars := rfl
@[simp] theorem State.modHall_numVFs (s : State) (h : Nat) (f : Hall → Hall) :
    (s.modHall h f).numVFs = s.numVFs := rfl
@[simp] theorem State.modHall_vfEnable (s : State) (h : Nat) (f : Hall → Hall) :
    (s.modHall h f).vfEnable = s.vfEnable := rfl
@[simp] theorem State.modHall_msixOut (s : State) (h : Nat) (f : Hall → Hall) :
    (s.modHall h f).msixOut = s.msixOut := rfl
@[simp] theorem State.modHall_exchOut (s : State) (h : Nat) (f : Hall → Hall) :
    (s.modHall h f).exchOut = s.exchOut := rfl
@[simp] theorem State.modHall_rdata (s : State) (h : Nat) (f : Hall → Hall) :
    (s.modHall h f).rdata = s.rdata := rfl
@[simp] theorem State.modHall_cfgRetry (s : State) (h : Nat) (f : Hall → Hall) :
    (s.modHall h f).cfgRetry = s.cfgRetry := rfl
@[simp] theorem State.modHall_spdm (s : State) (h : Nat) (f : Hall → Hall) :
    (s.modHall h f).spdm = s.spdm := rfl
@[simp] theorem State.modHall_keyDrawsHbm (s : State) (h : Nat) (f : Hall → Hall) :
    (s.modHall h f).keyDrawsHbm = s.keyDrawsHbm := rfl
@[simp] theorem State.modHall_fns (s : State) (h : Nat) (f : Hall → Hall) :
    (s.modHall h f).fns = s.fns := rfl
@[simp] theorem State.modHall_parts (s : State) (h : Nat) (f : Hall → Hall) :
    (s.modHall h f).parts = s.parts := rfl
@[simp] theorem State.modHall_jobs (s : State) (h : Nat) (f : Hall → Hall) :
    (s.modHall h f).jobs = s.jobs := rfl
@[simp] theorem State.modHall_host (s : State) (h : Nat) (f : Hall → Hall) :
    (s.modHall h f).host = s.host := rfl
@[simp] theorem State.modHall_free (s : State) (h : Nat) (f : Hall → Hall) :
    (s.modHall h f).free = s.free := rfl
@[simp] theorem State.modHall_pending (s : State) (h : Nat) (f : Hall → Hall) :
    (s.modHall h f).pending = s.pending := rfl

/-! ### State.modPart -/

@[simp] theorem State.modPart_time (s : State) (v : Nat) (f : Part → Part) :
    (s.modPart v f).time = s.time := rfl
@[simp] theorem State.modPart_resetCause (s : State) (v : Nat) (f : Part → Part) :
    (s.modPart v f).resetCause = s.resetCause := rfl
@[simp] theorem State.modPart_frozenAt (s : State) (v : Nat) (f : Part → Part) :
    (s.modPart v f).frozenAt = s.frozenAt := rfl
@[simp] theorem State.modPart_warmCnt (s : State) (v : Nat) (f : Part → Part) :
    (s.modPart v f).warmCnt = s.warmCnt := rfl
@[simp] theorem State.modPart_selfDone (s : State) (v : Nat) (f : Part → Part) :
    (s.modPart v f).selfDone = s.selfDone := rfl
@[simp] theorem State.modPart_selfBusy (s : State) (v : Nat) (f : Part → Part) :
    (s.modPart v f).selfBusy = s.selfBusy := rfl
@[simp] theorem State.modPart_hallFail (s : State) (v : Nat) (f : Part → Part) :
    (s.modPart v f).hallFail = s.hallFail := rfl
@[simp] theorem State.modPart_galFenced (s : State) (v : Nat) (f : Part → Part) :
    (s.modPart v f).galFenced = s.galFenced := rfl
@[simp] theorem State.modPart_repairs (s : State) (v : Nat) (f : Part → Part) :
    (s.modPart v f).repairs = s.repairs := rfl
@[simp] theorem State.modPart_selfHalls (s : State) (v : Nat) (f : Part → Part) :
    (s.modPart v f).selfHalls = s.selfHalls := rfl
@[simp] theorem State.modPart_testing (s : State) (v : Nat) (f : Part → Part) :
    (s.modPart v f).testing = s.testing := rfl
@[simp] theorem State.modPart_hallmap (s : State) (v : Nat) (f : Part → Part) :
    (s.modPart v f).hallmap = s.hallmap := rfl
@[simp] theorem State.modPart_chainAddr (s : State) (v : Nat) (f : Part → Part) :
    (s.modPart v f).chainAddr = s.chainAddr := rfl
@[simp] theorem State.modPart_chainValid (s : State) (v : Nat) (f : Part → Part) :
    (s.modPart v f).chainValid = s.chainValid := rfl
@[simp] theorem State.modPart_chainStage (s : State) (v : Nat) (f : Part → Part) :
    (s.modPart v f).chainStage = s.chainStage := rfl
@[simp] theorem State.modPart_heldWalks (s : State) (v : Nat) (f : Part → Part) :
    (s.modPart v f).heldWalks = s.heldWalks := rfl
@[simp] theorem State.modPart_chainOut (s : State) (v : Nat) (f : Part → Part) :
    (s.modPart v f).chainOut = s.chainOut := rfl
@[simp] theorem State.modPart_echoPort (s : State) (v : Nat) (f : Part → Part) :
    (s.modPart v f).echoPort = s.echoPort := rfl
@[simp] theorem State.modPart_echoAsk (s : State) (v : Nat) (f : Part → Part) :
    (s.modPart v f).echoAsk = s.echoAsk := rfl
@[simp] theorem State.modPart_echoBusy (s : State) (v : Nat) (f : Part → Part) :
    (s.modPart v f).echoBusy = s.echoBusy := rfl
@[simp] theorem State.modPart_echoDone (s : State) (v : Nat) (f : Part → Part) :
    (s.modPart v f).echoDone = s.echoDone := rfl
@[simp] theorem State.modPart_echoTimeout (s : State) (v : Nat) (f : Part → Part) :
    (s.modPart v f).echoTimeout = s.echoTimeout := rfl
@[simp] theorem State.modPart_echoUnaddr (s : State) (v : Nat) (f : Part → Part) :
    (s.modPart v f).echoUnaddr = s.echoUnaddr := rfl
@[simp] theorem State.modPart_echoIn (s : State) (v : Nat) (f : Part → Part) :
    (s.modPart v f).echoIn = s.echoIn := rfl
@[simp] theorem State.modPart_echoSrc (s : State) (v : Nat) (f : Part → Part) :
    (s.modPart v f).echoSrc = s.echoSrc := rfl
@[simp] theorem State.modPart_slots (s : State) (v : Nat) (f : Part → Part) :
    (s.modPart v f).slots = s.slots := rfl
@[simp] theorem State.modPart_keyAddr (s : State) (v : Nat) (f : Part → Part) :
    (s.modPart v f).keyAddr = s.keyAddr := rfl
@[simp] theorem State.modPart_keyWait (s : State) (v : Nat) (f : Part → Part) :
    (s.modPart v f).keyWait = s.keyWait := rfl
@[simp] theorem State.modPart_keyDone (s : State) (v : Nat) (f : Part → Part) :
    (s.modPart v f).keyDone = s.keyDone := rfl
@[simp] theorem State.modPart_keyCode (s : State) (v : Nat) (f : Part → Part) :
    (s.modPart v f).keyCode = s.keyCode := rfl
@[simp] theorem State.modPart_keyDraws (s : State) (v : Nat) (f : Part → Part) :
    (s.modPart v f).keyDraws = s.keyDraws := rfl
@[simp] theorem State.modPart_keyBurn (s : State) (v : Nat) (f : Part → Part) :
    (s.modPart v f).keyBurn = s.keyBurn := rfl
@[simp] theorem State.modPart_fuses (s : State) (v : Nat) (f : Part → Part) :
    (s.modPart v f).fuses = s.fuses := rfl
@[simp] theorem State.modPart_selfPair (s : State) (v : Nat) (f : Part → Part) :
    (s.modPart v f).selfPair = s.selfPair := rfl
@[simp] theorem State.modPart_devDomains (s : State) (v : Nat) (f : Part → Part) :
    (s.modPart v f).devDomains = s.devDomains := rfl
@[simp] theorem State.modPart_frozen (s : State) (v : Nat) (f : Part → Part) :
    (s.modPart v f).frozen = s.frozen := rfl
@[simp] theorem State.modPart_holding (s : State) (v : Nat) (f : Part → Part) :
    (s.modPart v f).holding = s.holding := rfl
@[simp] theorem State.modPart_frzSource (s : State) (v : Nat) (f : Part → Part) :
    (s.modPart v f).frzSource = s.frzSource := rfl
@[simp] theorem State.modPart_frzLanding (s : State) (v : Nat) (f : Part → Part) :
    (s.modPart v f).frzLanding = s.frzLanding := rfl
@[simp] theorem State.modPart_frzOrigin (s : State) (v : Nat) (f : Part → Part) :
    (s.modPart v f).frzOrigin = s.frzOrigin := rfl
@[simp] theorem State.modPart_frzCount (s : State) (v : Nat) (f : Part → Part) :
    (s.modPart v f).frzCount = s.frzCount := rfl
@[simp] theorem State.modPart_scope (s : State) (v : Nat) (f : Part → Part) :
    (s.modPart v f).scope = s.scope := rfl
@[simp] theorem State.modPart_pinScope (s : State) (v : Nat) (f : Part → Part) :
    (s.modPart v f).pinScope = s.pinScope := rfl
@[simp] theorem State.modPart_sbAccept (s : State) (v : Nat) (f : Part → Part) :
    (s.modPart v f).sbAccept = s.sbAccept := rfl
@[simp] theorem State.modPart_pinLow (s : State) (v : Nat) (f : Part → Part) :
    (s.modPart v f).pinLow = s.pinLow := rfl
@[simp] theorem State.modPart_byPin (s : State) (v : Nat) (f : Part → Part) :
    (s.modPart v f).byPin = s.byPin := rfl
@[simp] theorem State.modPart_byPorter (s : State) (v : Nat) (f : Part → Part) :
    (s.modPart v f).byPorter = s.byPorter := rfl
@[simp] theorem State.modPart_bySide (s : State) (v : Nat) (f : Part → Part) :
    (s.modPart v f).bySide = s.bySide := rfl
@[simp] theorem State.modPart_held (s : State) (v : Nat) (f : Part → Part) :
    (s.modPart v f).held = s.held := rfl
@[simp] theorem State.modPart_sbSeen (s : State) (v : Nat) (f : Part → Part) :
    (s.modPart v f).sbSeen = s.sbSeen := rfl
@[simp] theorem State.modPart_sbNext (s : State) (v : Nat) (f : Part → Part) :
    (s.modPart v f).sbNext = s.sbNext := rfl
@[simp] theorem State.modPart_rdwSel (s : State) (v : Nat) (f : Part → Part) :
    (s.modPart v f).rdwSel = s.rdwSel := rfl
@[simp] theorem State.modPart_rdwAddr (s : State) (v : Nat) (f : Part → Part) :
    (s.modPart v f).rdwAddr = s.rdwAddr := rfl
@[simp] theorem State.modPart_vcoreMv (s : State) (v : Nat) (f : Part → Part) :
    (s.modPart v f).vcoreMv = s.vcoreMv := rfl
@[simp] theorem State.modPart_vcoreMa (s : State) (v : Nat) (f : Part → Part) :
    (s.modPart v f).vcoreMa = s.vcoreMa := rfl
@[simp] theorem State.modPart_tjMax (s : State) (v : Nat) (f : Part → Part) :
    (s.modPart v f).tjMax = s.tjMax := rfl
@[simp] theorem State.modPart_tjHall (s : State) (v : Nat) (f : Part → Part) :
    (s.modPart v f).tjHall = s.tjHall := rfl
@[simp] theorem State.modPart_target (s : State) (v : Nat) (f : Part → Part) :
    (s.modPart v f).target = s.target := rfl
@[simp] theorem State.modPart_throttle (s : State) (v : Nat) (f : Part → Part) :
    (s.modPart v f).throttle = s.throttle := rfl
@[simp] theorem State.modPart_avsFails (s : State) (v : Nat) (f : Part → Part) :
    (s.modPart v f).avsFails = s.avsFails := rfl
@[simp] theorem State.modPart_tripped (s : State) (v : Nat) (f : Part → Part) :
    (s.modPart v f).tripped = s.tripped := rfl
@[simp] theorem State.modPart_vcoreEn (s : State) (v : Nat) (f : Part → Part) :
    (s.modPart v f).vcoreEn = s.vcoreEn := rfl
@[simp] theorem State.modPart_tripLow (s : State) (v : Nat) (f : Part → Part) :
    (s.modPart v f).tripLow = s.tripLow := rfl
@[simp] theorem State.modPart_sysHigh (s : State) (v : Nat) (f : Part → Part) :
    (s.modPart v f).sysHigh = s.sysHigh := rfl
@[simp] theorem State.modPart_perstHigh (s : State) (v : Nat) (f : Part → Part) :
    (s.modPart v f).perstHigh = s.perstHigh := rfl
@[simp] theorem State.modPart_linkStat (s : State) (v : Nat) (f : Part → Part) :
    (s.modPart v f).linkStat = s.linkStat := rfl
@[simp] theorem State.modPart_clkreqLow (s : State) (v : Nat) (f : Part → Part) :
    (s.modPart v f).clkreqLow = s.clkreqLow := rfl
@[simp] theorem State.modPart_bars (s : State) (v : Nat) (f : Part → Part) :
    (s.modPart v f).bars = s.bars := rfl
@[simp] theorem State.modPart_numVFs (s : State) (v : Nat) (f : Part → Part) :
    (s.modPart v f).numVFs = s.numVFs := rfl
@[simp] theorem State.modPart_vfEnable (s : State) (v : Nat) (f : Part → Part) :
    (s.modPart v f).vfEnable = s.vfEnable := rfl
@[simp] theorem State.modPart_msixOut (s : State) (v : Nat) (f : Part → Part) :
    (s.modPart v f).msixOut = s.msixOut := rfl
@[simp] theorem State.modPart_exchOut (s : State) (v : Nat) (f : Part → Part) :
    (s.modPart v f).exchOut = s.exchOut := rfl
@[simp] theorem State.modPart_rdata (s : State) (v : Nat) (f : Part → Part) :
    (s.modPart v f).rdata = s.rdata := rfl
@[simp] theorem State.modPart_cfgRetry (s : State) (v : Nat) (f : Part → Part) :
    (s.modPart v f).cfgRetry = s.cfgRetry := rfl
@[simp] theorem State.modPart_spdm (s : State) (v : Nat) (f : Part → Part) :
    (s.modPart v f).spdm = s.spdm := rfl
@[simp] theorem State.modPart_keyDrawsHbm (s : State) (v : Nat) (f : Part → Part) :
    (s.modPart v f).keyDrawsHbm = s.keyDrawsHbm := rfl
@[simp] theorem State.modPart_fns (s : State) (v : Nat) (f : Part → Part) :
    (s.modPart v f).fns = s.fns := rfl
@[simp] theorem State.modPart_jobs (s : State) (v : Nat) (f : Part → Part) :
    (s.modPart v f).jobs = s.jobs := rfl
@[simp] theorem State.modPart_halls (s : State) (v : Nat) (f : Part → Part) :
    (s.modPart v f).halls = s.halls := rfl
@[simp] theorem State.modPart_host (s : State) (v : Nat) (f : Part → Part) :
    (s.modPart v f).host = s.host := rfl
@[simp] theorem State.modPart_free (s : State) (v : Nat) (f : Part → Part) :
    (s.modPart v f).free = s.free := rfl
@[simp] theorem State.modPart_pending (s : State) (v : Nat) (f : Part → Part) :
    (s.modPart v f).pending = s.pending := rfl

/-! ### State.modJob -/

@[simp] theorem State.modJob_time (s : State) (q : Page) (f : Job → Job) :
    (s.modJob q f).time = s.time := rfl
@[simp] theorem State.modJob_resetCause (s : State) (q : Page) (f : Job → Job) :
    (s.modJob q f).resetCause = s.resetCause := rfl
@[simp] theorem State.modJob_frozenAt (s : State) (q : Page) (f : Job → Job) :
    (s.modJob q f).frozenAt = s.frozenAt := rfl
@[simp] theorem State.modJob_warmCnt (s : State) (q : Page) (f : Job → Job) :
    (s.modJob q f).warmCnt = s.warmCnt := rfl
@[simp] theorem State.modJob_selfDone (s : State) (q : Page) (f : Job → Job) :
    (s.modJob q f).selfDone = s.selfDone := rfl
@[simp] theorem State.modJob_selfBusy (s : State) (q : Page) (f : Job → Job) :
    (s.modJob q f).selfBusy = s.selfBusy := rfl
@[simp] theorem State.modJob_hallFail (s : State) (q : Page) (f : Job → Job) :
    (s.modJob q f).hallFail = s.hallFail := rfl
@[simp] theorem State.modJob_galFenced (s : State) (q : Page) (f : Job → Job) :
    (s.modJob q f).galFenced = s.galFenced := rfl
@[simp] theorem State.modJob_repairs (s : State) (q : Page) (f : Job → Job) :
    (s.modJob q f).repairs = s.repairs := rfl
@[simp] theorem State.modJob_selfHalls (s : State) (q : Page) (f : Job → Job) :
    (s.modJob q f).selfHalls = s.selfHalls := rfl
@[simp] theorem State.modJob_testing (s : State) (q : Page) (f : Job → Job) :
    (s.modJob q f).testing = s.testing := rfl
@[simp] theorem State.modJob_hallmap (s : State) (q : Page) (f : Job → Job) :
    (s.modJob q f).hallmap = s.hallmap := rfl
@[simp] theorem State.modJob_chainAddr (s : State) (q : Page) (f : Job → Job) :
    (s.modJob q f).chainAddr = s.chainAddr := rfl
@[simp] theorem State.modJob_chainValid (s : State) (q : Page) (f : Job → Job) :
    (s.modJob q f).chainValid = s.chainValid := rfl
@[simp] theorem State.modJob_chainStage (s : State) (q : Page) (f : Job → Job) :
    (s.modJob q f).chainStage = s.chainStage := rfl
@[simp] theorem State.modJob_heldWalks (s : State) (q : Page) (f : Job → Job) :
    (s.modJob q f).heldWalks = s.heldWalks := rfl
@[simp] theorem State.modJob_chainOut (s : State) (q : Page) (f : Job → Job) :
    (s.modJob q f).chainOut = s.chainOut := rfl
@[simp] theorem State.modJob_echoPort (s : State) (q : Page) (f : Job → Job) :
    (s.modJob q f).echoPort = s.echoPort := rfl
@[simp] theorem State.modJob_echoAsk (s : State) (q : Page) (f : Job → Job) :
    (s.modJob q f).echoAsk = s.echoAsk := rfl
@[simp] theorem State.modJob_echoBusy (s : State) (q : Page) (f : Job → Job) :
    (s.modJob q f).echoBusy = s.echoBusy := rfl
@[simp] theorem State.modJob_echoDone (s : State) (q : Page) (f : Job → Job) :
    (s.modJob q f).echoDone = s.echoDone := rfl
@[simp] theorem State.modJob_echoTimeout (s : State) (q : Page) (f : Job → Job) :
    (s.modJob q f).echoTimeout = s.echoTimeout := rfl
@[simp] theorem State.modJob_echoUnaddr (s : State) (q : Page) (f : Job → Job) :
    (s.modJob q f).echoUnaddr = s.echoUnaddr := rfl
@[simp] theorem State.modJob_echoIn (s : State) (q : Page) (f : Job → Job) :
    (s.modJob q f).echoIn = s.echoIn := rfl
@[simp] theorem State.modJob_echoSrc (s : State) (q : Page) (f : Job → Job) :
    (s.modJob q f).echoSrc = s.echoSrc := rfl
@[simp] theorem State.modJob_slots (s : State) (q : Page) (f : Job → Job) :
    (s.modJob q f).slots = s.slots := rfl
@[simp] theorem State.modJob_keyAddr (s : State) (q : Page) (f : Job → Job) :
    (s.modJob q f).keyAddr = s.keyAddr := rfl
@[simp] theorem State.modJob_keyWait (s : State) (q : Page) (f : Job → Job) :
    (s.modJob q f).keyWait = s.keyWait := rfl
@[simp] theorem State.modJob_keyDone (s : State) (q : Page) (f : Job → Job) :
    (s.modJob q f).keyDone = s.keyDone := rfl
@[simp] theorem State.modJob_keyCode (s : State) (q : Page) (f : Job → Job) :
    (s.modJob q f).keyCode = s.keyCode := rfl
@[simp] theorem State.modJob_keyDraws (s : State) (q : Page) (f : Job → Job) :
    (s.modJob q f).keyDraws = s.keyDraws := rfl
@[simp] theorem State.modJob_keyBurn (s : State) (q : Page) (f : Job → Job) :
    (s.modJob q f).keyBurn = s.keyBurn := rfl
@[simp] theorem State.modJob_fuses (s : State) (q : Page) (f : Job → Job) :
    (s.modJob q f).fuses = s.fuses := rfl
@[simp] theorem State.modJob_selfPair (s : State) (q : Page) (f : Job → Job) :
    (s.modJob q f).selfPair = s.selfPair := rfl
@[simp] theorem State.modJob_devDomains (s : State) (q : Page) (f : Job → Job) :
    (s.modJob q f).devDomains = s.devDomains := rfl
@[simp] theorem State.modJob_frozen (s : State) (q : Page) (f : Job → Job) :
    (s.modJob q f).frozen = s.frozen := rfl
@[simp] theorem State.modJob_holding (s : State) (q : Page) (f : Job → Job) :
    (s.modJob q f).holding = s.holding := rfl
@[simp] theorem State.modJob_frzSource (s : State) (q : Page) (f : Job → Job) :
    (s.modJob q f).frzSource = s.frzSource := rfl
@[simp] theorem State.modJob_frzLanding (s : State) (q : Page) (f : Job → Job) :
    (s.modJob q f).frzLanding = s.frzLanding := rfl
@[simp] theorem State.modJob_frzOrigin (s : State) (q : Page) (f : Job → Job) :
    (s.modJob q f).frzOrigin = s.frzOrigin := rfl
@[simp] theorem State.modJob_frzCount (s : State) (q : Page) (f : Job → Job) :
    (s.modJob q f).frzCount = s.frzCount := rfl
@[simp] theorem State.modJob_scope (s : State) (q : Page) (f : Job → Job) :
    (s.modJob q f).scope = s.scope := rfl
@[simp] theorem State.modJob_pinScope (s : State) (q : Page) (f : Job → Job) :
    (s.modJob q f).pinScope = s.pinScope := rfl
@[simp] theorem State.modJob_sbAccept (s : State) (q : Page) (f : Job → Job) :
    (s.modJob q f).sbAccept = s.sbAccept := rfl
@[simp] theorem State.modJob_pinLow (s : State) (q : Page) (f : Job → Job) :
    (s.modJob q f).pinLow = s.pinLow := rfl
@[simp] theorem State.modJob_byPin (s : State) (q : Page) (f : Job → Job) :
    (s.modJob q f).byPin = s.byPin := rfl
@[simp] theorem State.modJob_byPorter (s : State) (q : Page) (f : Job → Job) :
    (s.modJob q f).byPorter = s.byPorter := rfl
@[simp] theorem State.modJob_bySide (s : State) (q : Page) (f : Job → Job) :
    (s.modJob q f).bySide = s.bySide := rfl
@[simp] theorem State.modJob_held (s : State) (q : Page) (f : Job → Job) :
    (s.modJob q f).held = s.held := rfl
@[simp] theorem State.modJob_sbSeen (s : State) (q : Page) (f : Job → Job) :
    (s.modJob q f).sbSeen = s.sbSeen := rfl
@[simp] theorem State.modJob_sbNext (s : State) (q : Page) (f : Job → Job) :
    (s.modJob q f).sbNext = s.sbNext := rfl
@[simp] theorem State.modJob_rdwSel (s : State) (q : Page) (f : Job → Job) :
    (s.modJob q f).rdwSel = s.rdwSel := rfl
@[simp] theorem State.modJob_rdwAddr (s : State) (q : Page) (f : Job → Job) :
    (s.modJob q f).rdwAddr = s.rdwAddr := rfl
@[simp] theorem State.modJob_vcoreMv (s : State) (q : Page) (f : Job → Job) :
    (s.modJob q f).vcoreMv = s.vcoreMv := rfl
@[simp] theorem State.modJob_vcoreMa (s : State) (q : Page) (f : Job → Job) :
    (s.modJob q f).vcoreMa = s.vcoreMa := rfl
@[simp] theorem State.modJob_tjMax (s : State) (q : Page) (f : Job → Job) :
    (s.modJob q f).tjMax = s.tjMax := rfl
@[simp] theorem State.modJob_tjHall (s : State) (q : Page) (f : Job → Job) :
    (s.modJob q f).tjHall = s.tjHall := rfl
@[simp] theorem State.modJob_target (s : State) (q : Page) (f : Job → Job) :
    (s.modJob q f).target = s.target := rfl
@[simp] theorem State.modJob_throttle (s : State) (q : Page) (f : Job → Job) :
    (s.modJob q f).throttle = s.throttle := rfl
@[simp] theorem State.modJob_avsFails (s : State) (q : Page) (f : Job → Job) :
    (s.modJob q f).avsFails = s.avsFails := rfl
@[simp] theorem State.modJob_tripped (s : State) (q : Page) (f : Job → Job) :
    (s.modJob q f).tripped = s.tripped := rfl
@[simp] theorem State.modJob_vcoreEn (s : State) (q : Page) (f : Job → Job) :
    (s.modJob q f).vcoreEn = s.vcoreEn := rfl
@[simp] theorem State.modJob_tripLow (s : State) (q : Page) (f : Job → Job) :
    (s.modJob q f).tripLow = s.tripLow := rfl
@[simp] theorem State.modJob_sysHigh (s : State) (q : Page) (f : Job → Job) :
    (s.modJob q f).sysHigh = s.sysHigh := rfl
@[simp] theorem State.modJob_perstHigh (s : State) (q : Page) (f : Job → Job) :
    (s.modJob q f).perstHigh = s.perstHigh := rfl
@[simp] theorem State.modJob_linkStat (s : State) (q : Page) (f : Job → Job) :
    (s.modJob q f).linkStat = s.linkStat := rfl
@[simp] theorem State.modJob_clkreqLow (s : State) (q : Page) (f : Job → Job) :
    (s.modJob q f).clkreqLow = s.clkreqLow := rfl
@[simp] theorem State.modJob_bars (s : State) (q : Page) (f : Job → Job) :
    (s.modJob q f).bars = s.bars := rfl
@[simp] theorem State.modJob_numVFs (s : State) (q : Page) (f : Job → Job) :
    (s.modJob q f).numVFs = s.numVFs := rfl
@[simp] theorem State.modJob_vfEnable (s : State) (q : Page) (f : Job → Job) :
    (s.modJob q f).vfEnable = s.vfEnable := rfl
@[simp] theorem State.modJob_msixOut (s : State) (q : Page) (f : Job → Job) :
    (s.modJob q f).msixOut = s.msixOut := rfl
@[simp] theorem State.modJob_exchOut (s : State) (q : Page) (f : Job → Job) :
    (s.modJob q f).exchOut = s.exchOut := rfl
@[simp] theorem State.modJob_rdata (s : State) (q : Page) (f : Job → Job) :
    (s.modJob q f).rdata = s.rdata := rfl
@[simp] theorem State.modJob_cfgRetry (s : State) (q : Page) (f : Job → Job) :
    (s.modJob q f).cfgRetry = s.cfgRetry := rfl
@[simp] theorem State.modJob_spdm (s : State) (q : Page) (f : Job → Job) :
    (s.modJob q f).spdm = s.spdm := rfl
@[simp] theorem State.modJob_keyDrawsHbm (s : State) (q : Page) (f : Job → Job) :
    (s.modJob q f).keyDrawsHbm = s.keyDrawsHbm := rfl
@[simp] theorem State.modJob_fns (s : State) (q : Page) (f : Job → Job) :
    (s.modJob q f).fns = s.fns := rfl
@[simp] theorem State.modJob_parts (s : State) (q : Page) (f : Job → Job) :
    (s.modJob q f).parts = s.parts := rfl
@[simp] theorem State.modJob_halls (s : State) (q : Page) (f : Job → Job) :
    (s.modJob q f).halls = s.halls := rfl
@[simp] theorem State.modJob_host (s : State) (q : Page) (f : Job → Job) :
    (s.modJob q f).host = s.host := rfl
@[simp] theorem State.modJob_free (s : State) (q : Page) (f : Job → Job) :
    (s.modJob q f).free = s.free := rfl
@[simp] theorem State.modJob_pending (s : State) (q : Page) (f : Job → Job) :
    (s.modJob q f).pending = s.pending := rfl

/-! ### State.modFn -/

@[simp] theorem State.modFn_time (s : State) (g : Fn) (f : FnRegs → FnRegs) :
    (s.modFn g f).time = s.time := rfl
@[simp] theorem State.modFn_resetCause (s : State) (g : Fn) (f : FnRegs → FnRegs) :
    (s.modFn g f).resetCause = s.resetCause := rfl
@[simp] theorem State.modFn_frozenAt (s : State) (g : Fn) (f : FnRegs → FnRegs) :
    (s.modFn g f).frozenAt = s.frozenAt := rfl
@[simp] theorem State.modFn_warmCnt (s : State) (g : Fn) (f : FnRegs → FnRegs) :
    (s.modFn g f).warmCnt = s.warmCnt := rfl
@[simp] theorem State.modFn_selfDone (s : State) (g : Fn) (f : FnRegs → FnRegs) :
    (s.modFn g f).selfDone = s.selfDone := rfl
@[simp] theorem State.modFn_selfBusy (s : State) (g : Fn) (f : FnRegs → FnRegs) :
    (s.modFn g f).selfBusy = s.selfBusy := rfl
@[simp] theorem State.modFn_hallFail (s : State) (g : Fn) (f : FnRegs → FnRegs) :
    (s.modFn g f).hallFail = s.hallFail := rfl
@[simp] theorem State.modFn_galFenced (s : State) (g : Fn) (f : FnRegs → FnRegs) :
    (s.modFn g f).galFenced = s.galFenced := rfl
@[simp] theorem State.modFn_repairs (s : State) (g : Fn) (f : FnRegs → FnRegs) :
    (s.modFn g f).repairs = s.repairs := rfl
@[simp] theorem State.modFn_selfHalls (s : State) (g : Fn) (f : FnRegs → FnRegs) :
    (s.modFn g f).selfHalls = s.selfHalls := rfl
@[simp] theorem State.modFn_testing (s : State) (g : Fn) (f : FnRegs → FnRegs) :
    (s.modFn g f).testing = s.testing := rfl
@[simp] theorem State.modFn_hallmap (s : State) (g : Fn) (f : FnRegs → FnRegs) :
    (s.modFn g f).hallmap = s.hallmap := rfl
@[simp] theorem State.modFn_chainAddr (s : State) (g : Fn) (f : FnRegs → FnRegs) :
    (s.modFn g f).chainAddr = s.chainAddr := rfl
@[simp] theorem State.modFn_chainValid (s : State) (g : Fn) (f : FnRegs → FnRegs) :
    (s.modFn g f).chainValid = s.chainValid := rfl
@[simp] theorem State.modFn_chainStage (s : State) (g : Fn) (f : FnRegs → FnRegs) :
    (s.modFn g f).chainStage = s.chainStage := rfl
@[simp] theorem State.modFn_heldWalks (s : State) (g : Fn) (f : FnRegs → FnRegs) :
    (s.modFn g f).heldWalks = s.heldWalks := rfl
@[simp] theorem State.modFn_chainOut (s : State) (g : Fn) (f : FnRegs → FnRegs) :
    (s.modFn g f).chainOut = s.chainOut := rfl
@[simp] theorem State.modFn_echoPort (s : State) (g : Fn) (f : FnRegs → FnRegs) :
    (s.modFn g f).echoPort = s.echoPort := rfl
@[simp] theorem State.modFn_echoAsk (s : State) (g : Fn) (f : FnRegs → FnRegs) :
    (s.modFn g f).echoAsk = s.echoAsk := rfl
@[simp] theorem State.modFn_echoBusy (s : State) (g : Fn) (f : FnRegs → FnRegs) :
    (s.modFn g f).echoBusy = s.echoBusy := rfl
@[simp] theorem State.modFn_echoDone (s : State) (g : Fn) (f : FnRegs → FnRegs) :
    (s.modFn g f).echoDone = s.echoDone := rfl
@[simp] theorem State.modFn_echoTimeout (s : State) (g : Fn) (f : FnRegs → FnRegs) :
    (s.modFn g f).echoTimeout = s.echoTimeout := rfl
@[simp] theorem State.modFn_echoUnaddr (s : State) (g : Fn) (f : FnRegs → FnRegs) :
    (s.modFn g f).echoUnaddr = s.echoUnaddr := rfl
@[simp] theorem State.modFn_echoIn (s : State) (g : Fn) (f : FnRegs → FnRegs) :
    (s.modFn g f).echoIn = s.echoIn := rfl
@[simp] theorem State.modFn_echoSrc (s : State) (g : Fn) (f : FnRegs → FnRegs) :
    (s.modFn g f).echoSrc = s.echoSrc := rfl
@[simp] theorem State.modFn_slots (s : State) (g : Fn) (f : FnRegs → FnRegs) :
    (s.modFn g f).slots = s.slots := rfl
@[simp] theorem State.modFn_keyAddr (s : State) (g : Fn) (f : FnRegs → FnRegs) :
    (s.modFn g f).keyAddr = s.keyAddr := rfl
@[simp] theorem State.modFn_keyWait (s : State) (g : Fn) (f : FnRegs → FnRegs) :
    (s.modFn g f).keyWait = s.keyWait := rfl
@[simp] theorem State.modFn_keyDone (s : State) (g : Fn) (f : FnRegs → FnRegs) :
    (s.modFn g f).keyDone = s.keyDone := rfl
@[simp] theorem State.modFn_keyCode (s : State) (g : Fn) (f : FnRegs → FnRegs) :
    (s.modFn g f).keyCode = s.keyCode := rfl
@[simp] theorem State.modFn_keyDraws (s : State) (g : Fn) (f : FnRegs → FnRegs) :
    (s.modFn g f).keyDraws = s.keyDraws := rfl
@[simp] theorem State.modFn_keyBurn (s : State) (g : Fn) (f : FnRegs → FnRegs) :
    (s.modFn g f).keyBurn = s.keyBurn := rfl
@[simp] theorem State.modFn_fuses (s : State) (g : Fn) (f : FnRegs → FnRegs) :
    (s.modFn g f).fuses = s.fuses := rfl
@[simp] theorem State.modFn_selfPair (s : State) (g : Fn) (f : FnRegs → FnRegs) :
    (s.modFn g f).selfPair = s.selfPair := rfl
@[simp] theorem State.modFn_devDomains (s : State) (g : Fn) (f : FnRegs → FnRegs) :
    (s.modFn g f).devDomains = s.devDomains := rfl
@[simp] theorem State.modFn_frozen (s : State) (g : Fn) (f : FnRegs → FnRegs) :
    (s.modFn g f).frozen = s.frozen := rfl
@[simp] theorem State.modFn_holding (s : State) (g : Fn) (f : FnRegs → FnRegs) :
    (s.modFn g f).holding = s.holding := rfl
@[simp] theorem State.modFn_frzSource (s : State) (g : Fn) (f : FnRegs → FnRegs) :
    (s.modFn g f).frzSource = s.frzSource := rfl
@[simp] theorem State.modFn_frzLanding (s : State) (g : Fn) (f : FnRegs → FnRegs) :
    (s.modFn g f).frzLanding = s.frzLanding := rfl
@[simp] theorem State.modFn_frzOrigin (s : State) (g : Fn) (f : FnRegs → FnRegs) :
    (s.modFn g f).frzOrigin = s.frzOrigin := rfl
@[simp] theorem State.modFn_frzCount (s : State) (g : Fn) (f : FnRegs → FnRegs) :
    (s.modFn g f).frzCount = s.frzCount := rfl
@[simp] theorem State.modFn_scope (s : State) (g : Fn) (f : FnRegs → FnRegs) :
    (s.modFn g f).scope = s.scope := rfl
@[simp] theorem State.modFn_pinScope (s : State) (g : Fn) (f : FnRegs → FnRegs) :
    (s.modFn g f).pinScope = s.pinScope := rfl
@[simp] theorem State.modFn_sbAccept (s : State) (g : Fn) (f : FnRegs → FnRegs) :
    (s.modFn g f).sbAccept = s.sbAccept := rfl
@[simp] theorem State.modFn_pinLow (s : State) (g : Fn) (f : FnRegs → FnRegs) :
    (s.modFn g f).pinLow = s.pinLow := rfl
@[simp] theorem State.modFn_byPin (s : State) (g : Fn) (f : FnRegs → FnRegs) :
    (s.modFn g f).byPin = s.byPin := rfl
@[simp] theorem State.modFn_byPorter (s : State) (g : Fn) (f : FnRegs → FnRegs) :
    (s.modFn g f).byPorter = s.byPorter := rfl
@[simp] theorem State.modFn_bySide (s : State) (g : Fn) (f : FnRegs → FnRegs) :
    (s.modFn g f).bySide = s.bySide := rfl
@[simp] theorem State.modFn_held (s : State) (g : Fn) (f : FnRegs → FnRegs) :
    (s.modFn g f).held = s.held := rfl
@[simp] theorem State.modFn_sbSeen (s : State) (g : Fn) (f : FnRegs → FnRegs) :
    (s.modFn g f).sbSeen = s.sbSeen := rfl
@[simp] theorem State.modFn_sbNext (s : State) (g : Fn) (f : FnRegs → FnRegs) :
    (s.modFn g f).sbNext = s.sbNext := rfl
@[simp] theorem State.modFn_rdwSel (s : State) (g : Fn) (f : FnRegs → FnRegs) :
    (s.modFn g f).rdwSel = s.rdwSel := rfl
@[simp] theorem State.modFn_rdwAddr (s : State) (g : Fn) (f : FnRegs → FnRegs) :
    (s.modFn g f).rdwAddr = s.rdwAddr := rfl
@[simp] theorem State.modFn_vcoreMv (s : State) (g : Fn) (f : FnRegs → FnRegs) :
    (s.modFn g f).vcoreMv = s.vcoreMv := rfl
@[simp] theorem State.modFn_vcoreMa (s : State) (g : Fn) (f : FnRegs → FnRegs) :
    (s.modFn g f).vcoreMa = s.vcoreMa := rfl
@[simp] theorem State.modFn_tjMax (s : State) (g : Fn) (f : FnRegs → FnRegs) :
    (s.modFn g f).tjMax = s.tjMax := rfl
@[simp] theorem State.modFn_tjHall (s : State) (g : Fn) (f : FnRegs → FnRegs) :
    (s.modFn g f).tjHall = s.tjHall := rfl
@[simp] theorem State.modFn_target (s : State) (g : Fn) (f : FnRegs → FnRegs) :
    (s.modFn g f).target = s.target := rfl
@[simp] theorem State.modFn_throttle (s : State) (g : Fn) (f : FnRegs → FnRegs) :
    (s.modFn g f).throttle = s.throttle := rfl
@[simp] theorem State.modFn_avsFails (s : State) (g : Fn) (f : FnRegs → FnRegs) :
    (s.modFn g f).avsFails = s.avsFails := rfl
@[simp] theorem State.modFn_tripped (s : State) (g : Fn) (f : FnRegs → FnRegs) :
    (s.modFn g f).tripped = s.tripped := rfl
@[simp] theorem State.modFn_vcoreEn (s : State) (g : Fn) (f : FnRegs → FnRegs) :
    (s.modFn g f).vcoreEn = s.vcoreEn := rfl
@[simp] theorem State.modFn_tripLow (s : State) (g : Fn) (f : FnRegs → FnRegs) :
    (s.modFn g f).tripLow = s.tripLow := rfl
@[simp] theorem State.modFn_sysHigh (s : State) (g : Fn) (f : FnRegs → FnRegs) :
    (s.modFn g f).sysHigh = s.sysHigh := rfl
@[simp] theorem State.modFn_perstHigh (s : State) (g : Fn) (f : FnRegs → FnRegs) :
    (s.modFn g f).perstHigh = s.perstHigh := rfl
@[simp] theorem State.modFn_linkStat (s : State) (g : Fn) (f : FnRegs → FnRegs) :
    (s.modFn g f).linkStat = s.linkStat := rfl
@[simp] theorem State.modFn_clkreqLow (s : State) (g : Fn) (f : FnRegs → FnRegs) :
    (s.modFn g f).clkreqLow = s.clkreqLow := rfl
@[simp] theorem State.modFn_bars (s : State) (g : Fn) (f : FnRegs → FnRegs) :
    (s.modFn g f).bars = s.bars := rfl
@[simp] theorem State.modFn_numVFs (s : State) (g : Fn) (f : FnRegs → FnRegs) :
    (s.modFn g f).numVFs = s.numVFs := rfl
@[simp] theorem State.modFn_vfEnable (s : State) (g : Fn) (f : FnRegs → FnRegs) :
    (s.modFn g f).vfEnable = s.vfEnable := rfl
@[simp] theorem State.modFn_msixOut (s : State) (g : Fn) (f : FnRegs → FnRegs) :
    (s.modFn g f).msixOut = s.msixOut := rfl
@[simp] theorem State.modFn_exchOut (s : State) (g : Fn) (f : FnRegs → FnRegs) :
    (s.modFn g f).exchOut = s.exchOut := rfl
@[simp] theorem State.modFn_rdata (s : State) (g : Fn) (f : FnRegs → FnRegs) :
    (s.modFn g f).rdata = s.rdata := rfl
@[simp] theorem State.modFn_cfgRetry (s : State) (g : Fn) (f : FnRegs → FnRegs) :
    (s.modFn g f).cfgRetry = s.cfgRetry := rfl
@[simp] theorem State.modFn_spdm (s : State) (g : Fn) (f : FnRegs → FnRegs) :
    (s.modFn g f).spdm = s.spdm := rfl
@[simp] theorem State.modFn_keyDrawsHbm (s : State) (g : Fn) (f : FnRegs → FnRegs) :
    (s.modFn g f).keyDrawsHbm = s.keyDrawsHbm := rfl
@[simp] theorem State.modFn_parts (s : State) (g : Fn) (f : FnRegs → FnRegs) :
    (s.modFn g f).parts = s.parts := rfl
@[simp] theorem State.modFn_jobs (s : State) (g : Fn) (f : FnRegs → FnRegs) :
    (s.modFn g f).jobs = s.jobs := rfl
@[simp] theorem State.modFn_halls (s : State) (g : Fn) (f : FnRegs → FnRegs) :
    (s.modFn g f).halls = s.halls := rfl
@[simp] theorem State.modFn_host (s : State) (g : Fn) (f : FnRegs → FnRegs) :
    (s.modFn g f).host = s.host := rfl
@[simp] theorem State.modFn_free (s : State) (g : Fn) (f : FnRegs → FnRegs) :
    (s.modFn g f).free = s.free := rfl
@[simp] theorem State.modFn_pending (s : State) (g : Fn) (f : FnRegs → FnRegs) :
    (s.modFn g f).pending = s.pending := rfl

/-! ### State.accessErr -/

@[simp] theorem State.accessErr_time (s : State) (f : Fn) :
    (s.accessErr f).time = s.time := rfl
@[simp] theorem State.accessErr_resetCause (s : State) (f : Fn) :
    (s.accessErr f).resetCause = s.resetCause := rfl
@[simp] theorem State.accessErr_frozenAt (s : State) (f : Fn) :
    (s.accessErr f).frozenAt = s.frozenAt := rfl
@[simp] theorem State.accessErr_warmCnt (s : State) (f : Fn) :
    (s.accessErr f).warmCnt = s.warmCnt := rfl
@[simp] theorem State.accessErr_selfDone (s : State) (f : Fn) :
    (s.accessErr f).selfDone = s.selfDone := rfl
@[simp] theorem State.accessErr_selfBusy (s : State) (f : Fn) :
    (s.accessErr f).selfBusy = s.selfBusy := rfl
@[simp] theorem State.accessErr_hallFail (s : State) (f : Fn) :
    (s.accessErr f).hallFail = s.hallFail := rfl
@[simp] theorem State.accessErr_galFenced (s : State) (f : Fn) :
    (s.accessErr f).galFenced = s.galFenced := rfl
@[simp] theorem State.accessErr_repairs (s : State) (f : Fn) :
    (s.accessErr f).repairs = s.repairs := rfl
@[simp] theorem State.accessErr_selfHalls (s : State) (f : Fn) :
    (s.accessErr f).selfHalls = s.selfHalls := rfl
@[simp] theorem State.accessErr_testing (s : State) (f : Fn) :
    (s.accessErr f).testing = s.testing := rfl
@[simp] theorem State.accessErr_hallmap (s : State) (f : Fn) :
    (s.accessErr f).hallmap = s.hallmap := rfl
@[simp] theorem State.accessErr_chainAddr (s : State) (f : Fn) :
    (s.accessErr f).chainAddr = s.chainAddr := rfl
@[simp] theorem State.accessErr_chainValid (s : State) (f : Fn) :
    (s.accessErr f).chainValid = s.chainValid := rfl
@[simp] theorem State.accessErr_chainStage (s : State) (f : Fn) :
    (s.accessErr f).chainStage = s.chainStage := rfl
@[simp] theorem State.accessErr_heldWalks (s : State) (f : Fn) :
    (s.accessErr f).heldWalks = s.heldWalks := rfl
@[simp] theorem State.accessErr_chainOut (s : State) (f : Fn) :
    (s.accessErr f).chainOut = s.chainOut := rfl
@[simp] theorem State.accessErr_echoPort (s : State) (f : Fn) :
    (s.accessErr f).echoPort = s.echoPort := rfl
@[simp] theorem State.accessErr_echoAsk (s : State) (f : Fn) :
    (s.accessErr f).echoAsk = s.echoAsk := rfl
@[simp] theorem State.accessErr_echoBusy (s : State) (f : Fn) :
    (s.accessErr f).echoBusy = s.echoBusy := rfl
@[simp] theorem State.accessErr_echoDone (s : State) (f : Fn) :
    (s.accessErr f).echoDone = s.echoDone := rfl
@[simp] theorem State.accessErr_echoTimeout (s : State) (f : Fn) :
    (s.accessErr f).echoTimeout = s.echoTimeout := rfl
@[simp] theorem State.accessErr_echoUnaddr (s : State) (f : Fn) :
    (s.accessErr f).echoUnaddr = s.echoUnaddr := rfl
@[simp] theorem State.accessErr_echoIn (s : State) (f : Fn) :
    (s.accessErr f).echoIn = s.echoIn := rfl
@[simp] theorem State.accessErr_echoSrc (s : State) (f : Fn) :
    (s.accessErr f).echoSrc = s.echoSrc := rfl
@[simp] theorem State.accessErr_slots (s : State) (f : Fn) :
    (s.accessErr f).slots = s.slots := rfl
@[simp] theorem State.accessErr_keyAddr (s : State) (f : Fn) :
    (s.accessErr f).keyAddr = s.keyAddr := rfl
@[simp] theorem State.accessErr_keyWait (s : State) (f : Fn) :
    (s.accessErr f).keyWait = s.keyWait := rfl
@[simp] theorem State.accessErr_keyDone (s : State) (f : Fn) :
    (s.accessErr f).keyDone = s.keyDone := rfl
@[simp] theorem State.accessErr_keyCode (s : State) (f : Fn) :
    (s.accessErr f).keyCode = s.keyCode := rfl
@[simp] theorem State.accessErr_keyDraws (s : State) (f : Fn) :
    (s.accessErr f).keyDraws = s.keyDraws := rfl
@[simp] theorem State.accessErr_keyBurn (s : State) (f : Fn) :
    (s.accessErr f).keyBurn = s.keyBurn := rfl
@[simp] theorem State.accessErr_fuses (s : State) (f : Fn) :
    (s.accessErr f).fuses = s.fuses := rfl
@[simp] theorem State.accessErr_selfPair (s : State) (f : Fn) :
    (s.accessErr f).selfPair = s.selfPair := rfl
@[simp] theorem State.accessErr_devDomains (s : State) (f : Fn) :
    (s.accessErr f).devDomains = s.devDomains := rfl
@[simp] theorem State.accessErr_frozen (s : State) (f : Fn) :
    (s.accessErr f).frozen = s.frozen := rfl
@[simp] theorem State.accessErr_holding (s : State) (f : Fn) :
    (s.accessErr f).holding = s.holding := rfl
@[simp] theorem State.accessErr_frzSource (s : State) (f : Fn) :
    (s.accessErr f).frzSource = s.frzSource := rfl
@[simp] theorem State.accessErr_frzLanding (s : State) (f : Fn) :
    (s.accessErr f).frzLanding = s.frzLanding := rfl
@[simp] theorem State.accessErr_frzOrigin (s : State) (f : Fn) :
    (s.accessErr f).frzOrigin = s.frzOrigin := rfl
@[simp] theorem State.accessErr_frzCount (s : State) (f : Fn) :
    (s.accessErr f).frzCount = s.frzCount := rfl
@[simp] theorem State.accessErr_scope (s : State) (f : Fn) :
    (s.accessErr f).scope = s.scope := rfl
@[simp] theorem State.accessErr_pinScope (s : State) (f : Fn) :
    (s.accessErr f).pinScope = s.pinScope := rfl
@[simp] theorem State.accessErr_sbAccept (s : State) (f : Fn) :
    (s.accessErr f).sbAccept = s.sbAccept := rfl
@[simp] theorem State.accessErr_pinLow (s : State) (f : Fn) :
    (s.accessErr f).pinLow = s.pinLow := rfl
@[simp] theorem State.accessErr_byPin (s : State) (f : Fn) :
    (s.accessErr f).byPin = s.byPin := rfl
@[simp] theorem State.accessErr_byPorter (s : State) (f : Fn) :
    (s.accessErr f).byPorter = s.byPorter := rfl
@[simp] theorem State.accessErr_bySide (s : State) (f : Fn) :
    (s.accessErr f).bySide = s.bySide := rfl
@[simp] theorem State.accessErr_held (s : State) (f : Fn) :
    (s.accessErr f).held = s.held := rfl
@[simp] theorem State.accessErr_sbSeen (s : State) (f : Fn) :
    (s.accessErr f).sbSeen = s.sbSeen := rfl
@[simp] theorem State.accessErr_sbNext (s : State) (f : Fn) :
    (s.accessErr f).sbNext = s.sbNext := rfl
@[simp] theorem State.accessErr_rdwSel (s : State) (f : Fn) :
    (s.accessErr f).rdwSel = s.rdwSel := rfl
@[simp] theorem State.accessErr_rdwAddr (s : State) (f : Fn) :
    (s.accessErr f).rdwAddr = s.rdwAddr := rfl
@[simp] theorem State.accessErr_vcoreMv (s : State) (f : Fn) :
    (s.accessErr f).vcoreMv = s.vcoreMv := rfl
@[simp] theorem State.accessErr_vcoreMa (s : State) (f : Fn) :
    (s.accessErr f).vcoreMa = s.vcoreMa := rfl
@[simp] theorem State.accessErr_tjMax (s : State) (f : Fn) :
    (s.accessErr f).tjMax = s.tjMax := rfl
@[simp] theorem State.accessErr_tjHall (s : State) (f : Fn) :
    (s.accessErr f).tjHall = s.tjHall := rfl
@[simp] theorem State.accessErr_target (s : State) (f : Fn) :
    (s.accessErr f).target = s.target := rfl
@[simp] theorem State.accessErr_throttle (s : State) (f : Fn) :
    (s.accessErr f).throttle = s.throttle := rfl
@[simp] theorem State.accessErr_avsFails (s : State) (f : Fn) :
    (s.accessErr f).avsFails = s.avsFails := rfl
@[simp] theorem State.accessErr_tripped (s : State) (f : Fn) :
    (s.accessErr f).tripped = s.tripped := rfl
@[simp] theorem State.accessErr_vcoreEn (s : State) (f : Fn) :
    (s.accessErr f).vcoreEn = s.vcoreEn := rfl
@[simp] theorem State.accessErr_tripLow (s : State) (f : Fn) :
    (s.accessErr f).tripLow = s.tripLow := rfl
@[simp] theorem State.accessErr_sysHigh (s : State) (f : Fn) :
    (s.accessErr f).sysHigh = s.sysHigh := rfl
@[simp] theorem State.accessErr_perstHigh (s : State) (f : Fn) :
    (s.accessErr f).perstHigh = s.perstHigh := rfl
@[simp] theorem State.accessErr_linkStat (s : State) (f : Fn) :
    (s.accessErr f).linkStat = s.linkStat := rfl
@[simp] theorem State.accessErr_clkreqLow (s : State) (f : Fn) :
    (s.accessErr f).clkreqLow = s.clkreqLow := rfl
@[simp] theorem State.accessErr_bars (s : State) (f : Fn) :
    (s.accessErr f).bars = s.bars := rfl
@[simp] theorem State.accessErr_numVFs (s : State) (f : Fn) :
    (s.accessErr f).numVFs = s.numVFs := rfl
@[simp] theorem State.accessErr_vfEnable (s : State) (f : Fn) :
    (s.accessErr f).vfEnable = s.vfEnable := rfl
@[simp] theorem State.accessErr_msixOut (s : State) (f : Fn) :
    (s.accessErr f).msixOut = s.msixOut := rfl
@[simp] theorem State.accessErr_exchOut (s : State) (f : Fn) :
    (s.accessErr f).exchOut = s.exchOut := rfl
@[simp] theorem State.accessErr_rdata (s : State) (f : Fn) :
    (s.accessErr f).rdata = s.rdata := rfl
@[simp] theorem State.accessErr_cfgRetry (s : State) (f : Fn) :
    (s.accessErr f).cfgRetry = s.cfgRetry := rfl
@[simp] theorem State.accessErr_spdm (s : State) (f : Fn) :
    (s.accessErr f).spdm = s.spdm := rfl
@[simp] theorem State.accessErr_keyDrawsHbm (s : State) (f : Fn) :
    (s.accessErr f).keyDrawsHbm = s.keyDrawsHbm := rfl
@[simp] theorem State.accessErr_parts (s : State) (f : Fn) :
    (s.accessErr f).parts = s.parts := rfl
@[simp] theorem State.accessErr_jobs (s : State) (f : Fn) :
    (s.accessErr f).jobs = s.jobs := rfl
@[simp] theorem State.accessErr_halls (s : State) (f : Fn) :
    (s.accessErr f).halls = s.halls := rfl
@[simp] theorem State.accessErr_host (s : State) (f : Fn) :
    (s.accessErr f).host = s.host := rfl
@[simp] theorem State.accessErr_free (s : State) (f : Fn) :
    (s.accessErr f).free = s.free := rfl
@[simp] theorem State.accessErr_pending (s : State) (f : Fn) :
    (s.accessErr f).pending = s.pending := rfl

/-! ### State.msix -/

@[simp] theorem State.msix_time (s : State) (f : Fn) (n : Nat) :
    (s.msix f n).time = s.time := rfl
@[simp] theorem State.msix_resetCause (s : State) (f : Fn) (n : Nat) :
    (s.msix f n).resetCause = s.resetCause := rfl
@[simp] theorem State.msix_frozenAt (s : State) (f : Fn) (n : Nat) :
    (s.msix f n).frozenAt = s.frozenAt := rfl
@[simp] theorem State.msix_warmCnt (s : State) (f : Fn) (n : Nat) :
    (s.msix f n).warmCnt = s.warmCnt := rfl
@[simp] theorem State.msix_selfDone (s : State) (f : Fn) (n : Nat) :
    (s.msix f n).selfDone = s.selfDone := rfl
@[simp] theorem State.msix_selfBusy (s : State) (f : Fn) (n : Nat) :
    (s.msix f n).selfBusy = s.selfBusy := rfl
@[simp] theorem State.msix_hallFail (s : State) (f : Fn) (n : Nat) :
    (s.msix f n).hallFail = s.hallFail := rfl
@[simp] theorem State.msix_galFenced (s : State) (f : Fn) (n : Nat) :
    (s.msix f n).galFenced = s.galFenced := rfl
@[simp] theorem State.msix_repairs (s : State) (f : Fn) (n : Nat) :
    (s.msix f n).repairs = s.repairs := rfl
@[simp] theorem State.msix_selfHalls (s : State) (f : Fn) (n : Nat) :
    (s.msix f n).selfHalls = s.selfHalls := rfl
@[simp] theorem State.msix_testing (s : State) (f : Fn) (n : Nat) :
    (s.msix f n).testing = s.testing := rfl
@[simp] theorem State.msix_hallmap (s : State) (f : Fn) (n : Nat) :
    (s.msix f n).hallmap = s.hallmap := rfl
@[simp] theorem State.msix_chainAddr (s : State) (f : Fn) (n : Nat) :
    (s.msix f n).chainAddr = s.chainAddr := rfl
@[simp] theorem State.msix_chainValid (s : State) (f : Fn) (n : Nat) :
    (s.msix f n).chainValid = s.chainValid := rfl
@[simp] theorem State.msix_chainStage (s : State) (f : Fn) (n : Nat) :
    (s.msix f n).chainStage = s.chainStage := rfl
@[simp] theorem State.msix_heldWalks (s : State) (f : Fn) (n : Nat) :
    (s.msix f n).heldWalks = s.heldWalks := rfl
@[simp] theorem State.msix_chainOut (s : State) (f : Fn) (n : Nat) :
    (s.msix f n).chainOut = s.chainOut := rfl
@[simp] theorem State.msix_echoPort (s : State) (f : Fn) (n : Nat) :
    (s.msix f n).echoPort = s.echoPort := rfl
@[simp] theorem State.msix_echoAsk (s : State) (f : Fn) (n : Nat) :
    (s.msix f n).echoAsk = s.echoAsk := rfl
@[simp] theorem State.msix_echoBusy (s : State) (f : Fn) (n : Nat) :
    (s.msix f n).echoBusy = s.echoBusy := rfl
@[simp] theorem State.msix_echoDone (s : State) (f : Fn) (n : Nat) :
    (s.msix f n).echoDone = s.echoDone := rfl
@[simp] theorem State.msix_echoTimeout (s : State) (f : Fn) (n : Nat) :
    (s.msix f n).echoTimeout = s.echoTimeout := rfl
@[simp] theorem State.msix_echoUnaddr (s : State) (f : Fn) (n : Nat) :
    (s.msix f n).echoUnaddr = s.echoUnaddr := rfl
@[simp] theorem State.msix_echoIn (s : State) (f : Fn) (n : Nat) :
    (s.msix f n).echoIn = s.echoIn := rfl
@[simp] theorem State.msix_echoSrc (s : State) (f : Fn) (n : Nat) :
    (s.msix f n).echoSrc = s.echoSrc := rfl
@[simp] theorem State.msix_slots (s : State) (f : Fn) (n : Nat) :
    (s.msix f n).slots = s.slots := rfl
@[simp] theorem State.msix_keyAddr (s : State) (f : Fn) (n : Nat) :
    (s.msix f n).keyAddr = s.keyAddr := rfl
@[simp] theorem State.msix_keyWait (s : State) (f : Fn) (n : Nat) :
    (s.msix f n).keyWait = s.keyWait := rfl
@[simp] theorem State.msix_keyDone (s : State) (f : Fn) (n : Nat) :
    (s.msix f n).keyDone = s.keyDone := rfl
@[simp] theorem State.msix_keyCode (s : State) (f : Fn) (n : Nat) :
    (s.msix f n).keyCode = s.keyCode := rfl
@[simp] theorem State.msix_keyDraws (s : State) (f : Fn) (n : Nat) :
    (s.msix f n).keyDraws = s.keyDraws := rfl
@[simp] theorem State.msix_keyBurn (s : State) (f : Fn) (n : Nat) :
    (s.msix f n).keyBurn = s.keyBurn := rfl
@[simp] theorem State.msix_fuses (s : State) (f : Fn) (n : Nat) :
    (s.msix f n).fuses = s.fuses := rfl
@[simp] theorem State.msix_selfPair (s : State) (f : Fn) (n : Nat) :
    (s.msix f n).selfPair = s.selfPair := rfl
@[simp] theorem State.msix_devDomains (s : State) (f : Fn) (n : Nat) :
    (s.msix f n).devDomains = s.devDomains := rfl
@[simp] theorem State.msix_frozen (s : State) (f : Fn) (n : Nat) :
    (s.msix f n).frozen = s.frozen := rfl
@[simp] theorem State.msix_holding (s : State) (f : Fn) (n : Nat) :
    (s.msix f n).holding = s.holding := rfl
@[simp] theorem State.msix_frzSource (s : State) (f : Fn) (n : Nat) :
    (s.msix f n).frzSource = s.frzSource := rfl
@[simp] theorem State.msix_frzLanding (s : State) (f : Fn) (n : Nat) :
    (s.msix f n).frzLanding = s.frzLanding := rfl
@[simp] theorem State.msix_frzOrigin (s : State) (f : Fn) (n : Nat) :
    (s.msix f n).frzOrigin = s.frzOrigin := rfl
@[simp] theorem State.msix_frzCount (s : State) (f : Fn) (n : Nat) :
    (s.msix f n).frzCount = s.frzCount := rfl
@[simp] theorem State.msix_scope (s : State) (f : Fn) (n : Nat) :
    (s.msix f n).scope = s.scope := rfl
@[simp] theorem State.msix_pinScope (s : State) (f : Fn) (n : Nat) :
    (s.msix f n).pinScope = s.pinScope := rfl
@[simp] theorem State.msix_sbAccept (s : State) (f : Fn) (n : Nat) :
    (s.msix f n).sbAccept = s.sbAccept := rfl
@[simp] theorem State.msix_pinLow (s : State) (f : Fn) (n : Nat) :
    (s.msix f n).pinLow = s.pinLow := rfl
@[simp] theorem State.msix_byPin (s : State) (f : Fn) (n : Nat) :
    (s.msix f n).byPin = s.byPin := rfl
@[simp] theorem State.msix_byPorter (s : State) (f : Fn) (n : Nat) :
    (s.msix f n).byPorter = s.byPorter := rfl
@[simp] theorem State.msix_bySide (s : State) (f : Fn) (n : Nat) :
    (s.msix f n).bySide = s.bySide := rfl
@[simp] theorem State.msix_held (s : State) (f : Fn) (n : Nat) :
    (s.msix f n).held = s.held := rfl
@[simp] theorem State.msix_sbSeen (s : State) (f : Fn) (n : Nat) :
    (s.msix f n).sbSeen = s.sbSeen := rfl
@[simp] theorem State.msix_sbNext (s : State) (f : Fn) (n : Nat) :
    (s.msix f n).sbNext = s.sbNext := rfl
@[simp] theorem State.msix_rdwSel (s : State) (f : Fn) (n : Nat) :
    (s.msix f n).rdwSel = s.rdwSel := rfl
@[simp] theorem State.msix_rdwAddr (s : State) (f : Fn) (n : Nat) :
    (s.msix f n).rdwAddr = s.rdwAddr := rfl
@[simp] theorem State.msix_vcoreMv (s : State) (f : Fn) (n : Nat) :
    (s.msix f n).vcoreMv = s.vcoreMv := rfl
@[simp] theorem State.msix_vcoreMa (s : State) (f : Fn) (n : Nat) :
    (s.msix f n).vcoreMa = s.vcoreMa := rfl
@[simp] theorem State.msix_tjMax (s : State) (f : Fn) (n : Nat) :
    (s.msix f n).tjMax = s.tjMax := rfl
@[simp] theorem State.msix_tjHall (s : State) (f : Fn) (n : Nat) :
    (s.msix f n).tjHall = s.tjHall := rfl
@[simp] theorem State.msix_target (s : State) (f : Fn) (n : Nat) :
    (s.msix f n).target = s.target := rfl
@[simp] theorem State.msix_throttle (s : State) (f : Fn) (n : Nat) :
    (s.msix f n).throttle = s.throttle := rfl
@[simp] theorem State.msix_avsFails (s : State) (f : Fn) (n : Nat) :
    (s.msix f n).avsFails = s.avsFails := rfl
@[simp] theorem State.msix_tripped (s : State) (f : Fn) (n : Nat) :
    (s.msix f n).tripped = s.tripped := rfl
@[simp] theorem State.msix_vcoreEn (s : State) (f : Fn) (n : Nat) :
    (s.msix f n).vcoreEn = s.vcoreEn := rfl
@[simp] theorem State.msix_tripLow (s : State) (f : Fn) (n : Nat) :
    (s.msix f n).tripLow = s.tripLow := rfl
@[simp] theorem State.msix_sysHigh (s : State) (f : Fn) (n : Nat) :
    (s.msix f n).sysHigh = s.sysHigh := rfl
@[simp] theorem State.msix_perstHigh (s : State) (f : Fn) (n : Nat) :
    (s.msix f n).perstHigh = s.perstHigh := rfl
@[simp] theorem State.msix_linkStat (s : State) (f : Fn) (n : Nat) :
    (s.msix f n).linkStat = s.linkStat := rfl
@[simp] theorem State.msix_clkreqLow (s : State) (f : Fn) (n : Nat) :
    (s.msix f n).clkreqLow = s.clkreqLow := rfl
@[simp] theorem State.msix_bars (s : State) (f : Fn) (n : Nat) :
    (s.msix f n).bars = s.bars := rfl
@[simp] theorem State.msix_numVFs (s : State) (f : Fn) (n : Nat) :
    (s.msix f n).numVFs = s.numVFs := rfl
@[simp] theorem State.msix_vfEnable (s : State) (f : Fn) (n : Nat) :
    (s.msix f n).vfEnable = s.vfEnable := rfl
@[simp] theorem State.msix_exchOut (s : State) (f : Fn) (n : Nat) :
    (s.msix f n).exchOut = s.exchOut := rfl
@[simp] theorem State.msix_rdata (s : State) (f : Fn) (n : Nat) :
    (s.msix f n).rdata = s.rdata := rfl
@[simp] theorem State.msix_cfgRetry (s : State) (f : Fn) (n : Nat) :
    (s.msix f n).cfgRetry = s.cfgRetry := rfl
@[simp] theorem State.msix_spdm (s : State) (f : Fn) (n : Nat) :
    (s.msix f n).spdm = s.spdm := rfl
@[simp] theorem State.msix_keyDrawsHbm (s : State) (f : Fn) (n : Nat) :
    (s.msix f n).keyDrawsHbm = s.keyDrawsHbm := rfl
@[simp] theorem State.msix_fns (s : State) (f : Fn) (n : Nat) :
    (s.msix f n).fns = s.fns := rfl
@[simp] theorem State.msix_parts (s : State) (f : Fn) (n : Nat) :
    (s.msix f n).parts = s.parts := rfl
@[simp] theorem State.msix_jobs (s : State) (f : Fn) (n : Nat) :
    (s.msix f n).jobs = s.jobs := rfl
@[simp] theorem State.msix_halls (s : State) (f : Fn) (n : Nat) :
    (s.msix f n).halls = s.halls := rfl
@[simp] theorem State.msix_host (s : State) (f : Fn) (n : Nat) :
    (s.msix f n).host = s.host := rfl
@[simp] theorem State.msix_free (s : State) (f : Fn) (n : Nat) :
    (s.msix f n).free = s.free := rfl
@[simp] theorem State.msix_pending (s : State) (f : Fn) (n : Nat) :
    (s.msix f n).pending = s.pending := rfl

/-! ### State.answer -/

@[simp] theorem State.answer_time (s : State) (b : List Byte) :
    (s.answer b).time = s.time := rfl
@[simp] theorem State.answer_resetCause (s : State) (b : List Byte) :
    (s.answer b).resetCause = s.resetCause := rfl
@[simp] theorem State.answer_frozenAt (s : State) (b : List Byte) :
    (s.answer b).frozenAt = s.frozenAt := rfl
@[simp] theorem State.answer_warmCnt (s : State) (b : List Byte) :
    (s.answer b).warmCnt = s.warmCnt := rfl
@[simp] theorem State.answer_selfDone (s : State) (b : List Byte) :
    (s.answer b).selfDone = s.selfDone := rfl
@[simp] theorem State.answer_selfBusy (s : State) (b : List Byte) :
    (s.answer b).selfBusy = s.selfBusy := rfl
@[simp] theorem State.answer_hallFail (s : State) (b : List Byte) :
    (s.answer b).hallFail = s.hallFail := rfl
@[simp] theorem State.answer_galFenced (s : State) (b : List Byte) :
    (s.answer b).galFenced = s.galFenced := rfl
@[simp] theorem State.answer_repairs (s : State) (b : List Byte) :
    (s.answer b).repairs = s.repairs := rfl
@[simp] theorem State.answer_selfHalls (s : State) (b : List Byte) :
    (s.answer b).selfHalls = s.selfHalls := rfl
@[simp] theorem State.answer_testing (s : State) (b : List Byte) :
    (s.answer b).testing = s.testing := rfl
@[simp] theorem State.answer_hallmap (s : State) (b : List Byte) :
    (s.answer b).hallmap = s.hallmap := rfl
@[simp] theorem State.answer_chainAddr (s : State) (b : List Byte) :
    (s.answer b).chainAddr = s.chainAddr := rfl
@[simp] theorem State.answer_chainValid (s : State) (b : List Byte) :
    (s.answer b).chainValid = s.chainValid := rfl
@[simp] theorem State.answer_chainStage (s : State) (b : List Byte) :
    (s.answer b).chainStage = s.chainStage := rfl
@[simp] theorem State.answer_heldWalks (s : State) (b : List Byte) :
    (s.answer b).heldWalks = s.heldWalks := rfl
@[simp] theorem State.answer_chainOut (s : State) (b : List Byte) :
    (s.answer b).chainOut = s.chainOut := rfl
@[simp] theorem State.answer_echoPort (s : State) (b : List Byte) :
    (s.answer b).echoPort = s.echoPort := rfl
@[simp] theorem State.answer_echoAsk (s : State) (b : List Byte) :
    (s.answer b).echoAsk = s.echoAsk := rfl
@[simp] theorem State.answer_echoBusy (s : State) (b : List Byte) :
    (s.answer b).echoBusy = s.echoBusy := rfl
@[simp] theorem State.answer_echoDone (s : State) (b : List Byte) :
    (s.answer b).echoDone = s.echoDone := rfl
@[simp] theorem State.answer_echoTimeout (s : State) (b : List Byte) :
    (s.answer b).echoTimeout = s.echoTimeout := rfl
@[simp] theorem State.answer_echoUnaddr (s : State) (b : List Byte) :
    (s.answer b).echoUnaddr = s.echoUnaddr := rfl
@[simp] theorem State.answer_echoIn (s : State) (b : List Byte) :
    (s.answer b).echoIn = s.echoIn := rfl
@[simp] theorem State.answer_echoSrc (s : State) (b : List Byte) :
    (s.answer b).echoSrc = s.echoSrc := rfl
@[simp] theorem State.answer_slots (s : State) (b : List Byte) :
    (s.answer b).slots = s.slots := rfl
@[simp] theorem State.answer_keyAddr (s : State) (b : List Byte) :
    (s.answer b).keyAddr = s.keyAddr := rfl
@[simp] theorem State.answer_keyWait (s : State) (b : List Byte) :
    (s.answer b).keyWait = s.keyWait := rfl
@[simp] theorem State.answer_keyDone (s : State) (b : List Byte) :
    (s.answer b).keyDone = s.keyDone := rfl
@[simp] theorem State.answer_keyCode (s : State) (b : List Byte) :
    (s.answer b).keyCode = s.keyCode := rfl
@[simp] theorem State.answer_keyDraws (s : State) (b : List Byte) :
    (s.answer b).keyDraws = s.keyDraws := rfl
@[simp] theorem State.answer_keyBurn (s : State) (b : List Byte) :
    (s.answer b).keyBurn = s.keyBurn := rfl
@[simp] theorem State.answer_fuses (s : State) (b : List Byte) :
    (s.answer b).fuses = s.fuses := rfl
@[simp] theorem State.answer_selfPair (s : State) (b : List Byte) :
    (s.answer b).selfPair = s.selfPair := rfl
@[simp] theorem State.answer_devDomains (s : State) (b : List Byte) :
    (s.answer b).devDomains = s.devDomains := rfl
@[simp] theorem State.answer_frozen (s : State) (b : List Byte) :
    (s.answer b).frozen = s.frozen := rfl
@[simp] theorem State.answer_holding (s : State) (b : List Byte) :
    (s.answer b).holding = s.holding := rfl
@[simp] theorem State.answer_frzSource (s : State) (b : List Byte) :
    (s.answer b).frzSource = s.frzSource := rfl
@[simp] theorem State.answer_frzLanding (s : State) (b : List Byte) :
    (s.answer b).frzLanding = s.frzLanding := rfl
@[simp] theorem State.answer_frzOrigin (s : State) (b : List Byte) :
    (s.answer b).frzOrigin = s.frzOrigin := rfl
@[simp] theorem State.answer_frzCount (s : State) (b : List Byte) :
    (s.answer b).frzCount = s.frzCount := rfl
@[simp] theorem State.answer_scope (s : State) (b : List Byte) :
    (s.answer b).scope = s.scope := rfl
@[simp] theorem State.answer_pinScope (s : State) (b : List Byte) :
    (s.answer b).pinScope = s.pinScope := rfl
@[simp] theorem State.answer_sbAccept (s : State) (b : List Byte) :
    (s.answer b).sbAccept = s.sbAccept := rfl
@[simp] theorem State.answer_pinLow (s : State) (b : List Byte) :
    (s.answer b).pinLow = s.pinLow := rfl
@[simp] theorem State.answer_byPin (s : State) (b : List Byte) :
    (s.answer b).byPin = s.byPin := rfl
@[simp] theorem State.answer_byPorter (s : State) (b : List Byte) :
    (s.answer b).byPorter = s.byPorter := rfl
@[simp] theorem State.answer_bySide (s : State) (b : List Byte) :
    (s.answer b).bySide = s.bySide := rfl
@[simp] theorem State.answer_held (s : State) (b : List Byte) :
    (s.answer b).held = s.held := rfl
@[simp] theorem State.answer_sbSeen (s : State) (b : List Byte) :
    (s.answer b).sbSeen = s.sbSeen := rfl
@[simp] theorem State.answer_sbNext (s : State) (b : List Byte) :
    (s.answer b).sbNext = s.sbNext := rfl
@[simp] theorem State.answer_rdwSel (s : State) (b : List Byte) :
    (s.answer b).rdwSel = s.rdwSel := rfl
@[simp] theorem State.answer_rdwAddr (s : State) (b : List Byte) :
    (s.answer b).rdwAddr = s.rdwAddr := rfl
@[simp] theorem State.answer_vcoreMv (s : State) (b : List Byte) :
    (s.answer b).vcoreMv = s.vcoreMv := rfl
@[simp] theorem State.answer_vcoreMa (s : State) (b : List Byte) :
    (s.answer b).vcoreMa = s.vcoreMa := rfl
@[simp] theorem State.answer_tjMax (s : State) (b : List Byte) :
    (s.answer b).tjMax = s.tjMax := rfl
@[simp] theorem State.answer_tjHall (s : State) (b : List Byte) :
    (s.answer b).tjHall = s.tjHall := rfl
@[simp] theorem State.answer_target (s : State) (b : List Byte) :
    (s.answer b).target = s.target := rfl
@[simp] theorem State.answer_throttle (s : State) (b : List Byte) :
    (s.answer b).throttle = s.throttle := rfl
@[simp] theorem State.answer_avsFails (s : State) (b : List Byte) :
    (s.answer b).avsFails = s.avsFails := rfl
@[simp] theorem State.answer_tripped (s : State) (b : List Byte) :
    (s.answer b).tripped = s.tripped := rfl
@[simp] theorem State.answer_vcoreEn (s : State) (b : List Byte) :
    (s.answer b).vcoreEn = s.vcoreEn := rfl
@[simp] theorem State.answer_tripLow (s : State) (b : List Byte) :
    (s.answer b).tripLow = s.tripLow := rfl
@[simp] theorem State.answer_sysHigh (s : State) (b : List Byte) :
    (s.answer b).sysHigh = s.sysHigh := rfl
@[simp] theorem State.answer_perstHigh (s : State) (b : List Byte) :
    (s.answer b).perstHigh = s.perstHigh := rfl
@[simp] theorem State.answer_linkStat (s : State) (b : List Byte) :
    (s.answer b).linkStat = s.linkStat := rfl
@[simp] theorem State.answer_clkreqLow (s : State) (b : List Byte) :
    (s.answer b).clkreqLow = s.clkreqLow := rfl
@[simp] theorem State.answer_bars (s : State) (b : List Byte) :
    (s.answer b).bars = s.bars := rfl
@[simp] theorem State.answer_numVFs (s : State) (b : List Byte) :
    (s.answer b).numVFs = s.numVFs := rfl
@[simp] theorem State.answer_vfEnable (s : State) (b : List Byte) :
    (s.answer b).vfEnable = s.vfEnable := rfl
@[simp] theorem State.answer_msixOut (s : State) (b : List Byte) :
    (s.answer b).msixOut = s.msixOut := rfl
@[simp] theorem State.answer_exchOut (s : State) (b : List Byte) :
    (s.answer b).exchOut = s.exchOut := rfl
@[simp] theorem State.answer_cfgRetry (s : State) (b : List Byte) :
    (s.answer b).cfgRetry = s.cfgRetry := rfl
@[simp] theorem State.answer_spdm (s : State) (b : List Byte) :
    (s.answer b).spdm = s.spdm := rfl
@[simp] theorem State.answer_keyDrawsHbm (s : State) (b : List Byte) :
    (s.answer b).keyDrawsHbm = s.keyDrawsHbm := rfl
@[simp] theorem State.answer_fns (s : State) (b : List Byte) :
    (s.answer b).fns = s.fns := rfl
@[simp] theorem State.answer_parts (s : State) (b : List Byte) :
    (s.answer b).parts = s.parts := rfl
@[simp] theorem State.answer_jobs (s : State) (b : List Byte) :
    (s.answer b).jobs = s.jobs := rfl
@[simp] theorem State.answer_halls (s : State) (b : List Byte) :
    (s.answer b).halls = s.halls := rfl
@[simp] theorem State.answer_host (s : State) (b : List Byte) :
    (s.answer b).host = s.host := rfl
@[simp] theorem State.answer_free (s : State) (b : List Byte) :
    (s.answer b).free = s.free := rfl
@[simp] theorem State.answer_pending (s : State) (b : List Byte) :
    (s.answer b).pending = s.pending := rfl

/-! ### Hall.putGal -/

@[simp] theorem Hall.putGal_present (H : Hall) (g : Nat) (x : Gal) :
    (H.putGal g x).present = H.present := rfl
@[simp] theorem Hall.putGal_test (H : Hall) (g : Nat) (x : Gal) :
    (H.putGal g x).test = H.test := rfl
@[simp] theorem Hall.putGal_domains (H : Hall) (g : Nat) (x : Gal) :
    (H.putGal g x).domains = H.domains := rfl
@[simp] theorem Hall.putGal_raising (H : Hall) (g : Nat) (x : Gal) :
    (H.putGal g x).raising = H.raising := rfl
@[simp] theorem Hall.putGal_prpg (H : Hall) (g : Nat) (x : Gal) :
    (H.putGal g x).prpg = H.prpg := rfl
@[simp] theorem Hall.putGal_patterns (H : Hall) (g : Nat) (x : Gal) :
    (H.putGal g x).patterns = H.patterns := rfl
@[simp] theorem Hall.putGal_galPatterns (H : Hall) (g : Nat) (x : Gal) :
    (H.putGal g x).galPatterns = H.galPatterns := rfl
@[simp] theorem Hall.putGal_hbm (H : Hall) (g : Nat) (x : Gal) :
    (H.putGal g x).hbm = H.hbm := rfl
@[simp] theorem Hall.putGal_key (H : Hall) (g : Nat) (x : Gal) :
    (H.putGal g x).key = H.key := rfl
@[simp] theorem Hall.putGal_concCount (H : Hall) (g : Nat) (x : Gal) :
    (H.putGal g x).concCount = H.concCount := rfl
@[simp] theorem Hall.putGal_concTarget (H : Hall) (g : Nat) (x : Gal) :
    (H.putGal g x).concTarget = H.concTarget := rfl
@[simp] theorem Hall.putGal_concAlert (H : Hall) (g : Nat) (x : Gal) :
    (H.putGal g x).concAlert = H.concAlert := rfl
@[simp] theorem Hall.putGal_poison (H : Hall) (g : Nat) (x : Gal) :
    (H.putGal g x).poison = H.poison := rfl
@[simp] theorem Hall.putGal_poisonRows (H : Hall) (g : Nat) (x : Gal) :
    (H.putGal g x).poisonRows = H.poisonRows := rfl
@[simp] theorem Hall.putGal_hbmCorr (H : Hall) (g : Nat) (x : Gal) :
    (H.putGal g x).hbmCorr = H.hbmCorr := rfl
@[simp] theorem Hall.putGal_hbmUncorr (H : Hall) (g : Nat) (x : Gal) :
    (H.putGal g x).hbmUncorr = H.hbmUncorr := rfl
@[simp] theorem Hall.putGal_uncCorr (H : Hall) (g : Nat) (x : Gal) :
    (H.putGal g x).uncCorr = H.uncCorr := rfl
@[simp] theorem Hall.putGal_uncUncorr (H : Hall) (g : Nat) (x : Gal) :
    (H.putGal g x).uncUncorr = H.uncUncorr := rfl
@[simp] theorem Hall.putGal_step (H : Hall) (g : Nat) (x : Gal) :
    (H.putGal g x).step = H.step := rfl
@[simp] theorem Hall.putGal_tableStat (H : Hall) (g : Nat) (x : Gal) :
    (H.putGal g x).tableStat = H.tableStat := rfl
@[simp] theorem Hall.putGal_baySplit (H : Hall) (g : Nat) (x : Gal) :
    (H.putGal g x).baySplit = H.baySplit := rfl
@[simp] theorem Hall.putGal_scaleSel (H : Hall) (g : Nat) (x : Gal) :
    (H.putGal g x).scaleSel = H.scaleSel := rfl
@[simp] theorem Hall.putGal_scale (H : Hall) (g : Nat) (x : Gal) :
    (H.putGal g x).scale = H.scale := rfl
@[simp] theorem Hall.putGal_faces1 (H : Hall) (g : Nat) (x : Gal) :
    (H.putGal g x).faces1 = H.faces1 := rfl
@[simp] theorem Hall.putGal_gens (H : Hall) (g : Nat) (x : Gal) :
    (H.putGal g x).gens = H.gens := rfl
@[simp] theorem Hall.putGal_shrBase (H : Hall) (g : Nat) (x : Gal) :
    (H.putGal g x).shrBase = H.shrBase := rfl
@[simp] theorem Hall.putGal_shrSlot (H : Hall) (g : Nat) (x : Gal) :
    (H.putGal g x).shrSlot = H.shrSlot := rfl
@[simp] theorem Hall.putGal_shrHead (H : Hall) (g : Nat) (x : Gal) :
    (H.putGal g x).shrHead = H.shrHead := rfl
@[simp] theorem Hall.putGal_xlogBase (H : Hall) (g : Nat) (x : Gal) :
    (H.putGal g x).xlogBase = H.xlogBase := rfl
@[simp] theorem Hall.putGal_xlogSize (H : Hall) (g : Nat) (x : Gal) :
    (H.putGal g x).xlogSize = H.xlogSize := rfl
@[simp] theorem Hall.putGal_xlogHead (H : Hall) (g : Nat) (x : Gal) :
    (H.putGal g x).xlogHead = H.xlogHead := rfl
@[simp] theorem Hall.putGal_clogBase (H : Hall) (g : Nat) (x : Gal) :
    (H.putGal g x).clogBase = H.clogBase := rfl
@[simp] theorem Hall.putGal_clogSize (H : Hall) (g : Nat) (x : Gal) :
    (H.putGal g x).clogSize = H.clogSize := rfl
@[simp] theorem Hall.putGal_clogHead (H : Hall) (g : Nat) (x : Gal) :
    (H.putGal g x).clogHead = H.clogHead := rfl
@[simp] theorem Hall.putGal_holdBase (H : Hall) (g : Nat) (x : Gal) :
    (H.putGal g x).holdBase = H.holdBase := rfl
@[simp] theorem Hall.putGal_holdSegs (H : Hall) (g : Nat) (x : Gal) :
    (H.putGal g x).holdSegs = H.holdSegs := rfl
@[simp] theorem Hall.putGal_holdValid (H : Hall) (g : Nat) (x : Gal) :
    (H.putGal g x).holdValid = H.holdValid := rfl
@[simp] theorem Hall.putGal_mezzBase (H : Hall) (g : Nat) (x : Gal) :
    (H.putGal g x).mezzBase = H.mezzBase := rfl
@[simp] theorem Hall.putGal_mezzSize (H : Hall) (g : Nat) (x : Gal) :
    (H.putGal g x).mezzSize = H.mezzSize := rfl
@[simp] theorem Hall.putGal_mezzOn (H : Hall) (g : Nat) (x : Gal) :
    (H.putGal g x).mezzOn = H.mezzOn := rfl
@[simp] theorem Hall.putGal_mezzHall (H : Hall) (g : Nat) (x : Gal) :
    (H.putGal g x).mezzHall = H.mezzHall := rfl
@[simp] theorem Hall.putGal_mezzAddr (H : Hall) (g : Nat) (x : Gal) :
    (H.putGal g x).mezzAddr = H.mezzAddr := rfl
@[simp] theorem Hall.putGal_mezzIn (H : Hall) (g : Nat) (x : Gal) :
    (H.putGal g x).mezzIn = H.mezzIn := rfl
@[simp] theorem Hall.putGal_serving (H : Hall) (g : Nat) (x : Gal) :
    (H.putGal g x).serving = H.serving := rfl
@[simp] theorem Hall.putGal_stats (H : Hall) (g : Nat) (x : Gal) :
    (H.putGal g x).stats = H.stats := rfl
@[simp] theorem Hall.putGal_norms (H : Hall) (g : Nat) (x : Gal) :
    (H.putGal g x).norms = H.norms := rfl
@[simp] theorem Hall.putGal_normSum (H : Hall) (g : Nat) (x : Gal) :
    (H.putGal g x).normSum = H.normSum := rfl
@[simp] theorem Hall.putGal_nfAcc (H : Hall) (g : Nat) (x : Gal) :
    (H.putGal g x).nfAcc = H.nfAcc := rfl
@[simp] theorem Hall.putGal_lossAcc (H : Hall) (g : Nat) (x : Gal) :
    (H.putGal g x).lossAcc = H.lossAcc := rfl
@[simp] theorem Hall.putGal_carriedAcc (H : Hall) (g : Nat) (x : Gal) :
    (H.putGal g x).carriedAcc = H.carriedAcc := rfl
@[simp] theorem Hall.putGal_absentAcc (H : Hall) (g : Nat) (x : Gal) :
    (H.putGal g x).absentAcc = H.absentAcc := rfl
@[simp] theorem Hall.putGal_stepTiles (H : Hall) (g : Nat) (x : Gal) :
    (H.putGal g x).stepTiles = H.stepTiles := rfl
@[simp] theorem Hall.putGal_stepReruns (H : Hall) (g : Nat) (x : Gal) :
    (H.putGal g x).stepReruns = H.stepReruns := rfl
@[simp] theorem Hall.putGal_stepStrikes (H : Hall) (g : Nat) (x : Gal) :
    (H.putGal g x).stepStrikes = H.stepStrikes := rfl
@[simp] theorem Hall.putGal_perRowF (H : Hall) (g : Nat) (x : Gal) :
    (H.putGal g x).perRowF = H.perRowF := rfl
@[simp] theorem Hall.putGal_stepFrom (H : Hall) (g : Nat) (x : Gal) :
    (H.putGal g x).stepFrom = H.stepFrom := rfl
@[simp] theorem Hall.putGal_riser (H : Hall) (g : Nat) (x : Gal) :
    (H.putGal g x).riser = H.riser := rfl
@[simp] theorem Hall.putGal_rsrElems (H : Hall) (g : Nat) (x : Gal) :
    (H.putGal g x).rsrElems = H.rsrElems := rfl
@[simp] theorem Hall.putGal_nwlResidue (H : Hall) (g : Nat) (x : Gal) :
    (H.putGal g x).nwlResidue = H.nwlResidue := rfl
@[simp] theorem Hall.putGal_rsrResidue (H : Hall) (g : Nat) (x : Gal) :
    (H.putGal g x).rsrResidue = H.rsrResidue := rfl
@[simp] theorem Hall.putGal_resStrike (H : Hall) (g : Nat) (x : Gal) :
    (H.putGal g x).resStrike = H.resStrike := rfl
@[simp] theorem Hall.putGal_sampler (H : Hall) (g : Nat) (x : Gal) :
    (H.putGal g x).sampler = H.sampler := rfl
@[simp] theorem Hall.putGal_commits (H : Hall) (g : Nat) (x : Gal) :
    (H.putGal g x).commits = H.commits := rfl
@[simp] theorem Hall.putGal_allCommits (H : Hall) (g : Nat) (x : Gal) :
    (H.putGal g x).allCommits = H.allCommits := rfl
@[simp] theorem Hall.putGal_unc (H : Hall) (g : Nat) (x : Gal) :
    (H.putGal g x).unc = H.unc := rfl
@[simp] theorem Hall.putGal_taken (H : Hall) (g : Nat) (x : Gal) :
    (H.putGal g x).taken = H.taken := rfl
@[simp] theorem Hall.putGal_jobs (H : Hall) (g : Nat) (x : Gal) :
    (H.putGal g x).jobs = H.jobs := rfl
@[simp] theorem Hall.putGal_ports (H : Hall) (g : Nat) (x : Gal) :
    (H.putGal g x).ports = H.ports := rfl

/-! ### Hall.putJob -/

@[simp] theorem Hall.putJob_present (H : Hall) (j : Nat) (x : HJob) :
    (H.putJob j x).present = H.present := rfl
@[simp] theorem Hall.putJob_test (H : Hall) (j : Nat) (x : HJob) :
    (H.putJob j x).test = H.test := rfl
@[simp] theorem Hall.putJob_domains (H : Hall) (j : Nat) (x : HJob) :
    (H.putJob j x).domains = H.domains := rfl
@[simp] theorem Hall.putJob_raising (H : Hall) (j : Nat) (x : HJob) :
    (H.putJob j x).raising = H.raising := rfl
@[simp] theorem Hall.putJob_prpg (H : Hall) (j : Nat) (x : HJob) :
    (H.putJob j x).prpg = H.prpg := rfl
@[simp] theorem Hall.putJob_patterns (H : Hall) (j : Nat) (x : HJob) :
    (H.putJob j x).patterns = H.patterns := rfl
@[simp] theorem Hall.putJob_galPatterns (H : Hall) (j : Nat) (x : HJob) :
    (H.putJob j x).galPatterns = H.galPatterns := rfl
@[simp] theorem Hall.putJob_hbm (H : Hall) (j : Nat) (x : HJob) :
    (H.putJob j x).hbm = H.hbm := rfl
@[simp] theorem Hall.putJob_key (H : Hall) (j : Nat) (x : HJob) :
    (H.putJob j x).key = H.key := rfl
@[simp] theorem Hall.putJob_concCount (H : Hall) (j : Nat) (x : HJob) :
    (H.putJob j x).concCount = H.concCount := rfl
@[simp] theorem Hall.putJob_concTarget (H : Hall) (j : Nat) (x : HJob) :
    (H.putJob j x).concTarget = H.concTarget := rfl
@[simp] theorem Hall.putJob_concAlert (H : Hall) (j : Nat) (x : HJob) :
    (H.putJob j x).concAlert = H.concAlert := rfl
@[simp] theorem Hall.putJob_poison (H : Hall) (j : Nat) (x : HJob) :
    (H.putJob j x).poison = H.poison := rfl
@[simp] theorem Hall.putJob_poisonRows (H : Hall) (j : Nat) (x : HJob) :
    (H.putJob j x).poisonRows = H.poisonRows := rfl
@[simp] theorem Hall.putJob_hbmCorr (H : Hall) (j : Nat) (x : HJob) :
    (H.putJob j x).hbmCorr = H.hbmCorr := rfl
@[simp] theorem Hall.putJob_hbmUncorr (H : Hall) (j : Nat) (x : HJob) :
    (H.putJob j x).hbmUncorr = H.hbmUncorr := rfl
@[simp] theorem Hall.putJob_uncCorr (H : Hall) (j : Nat) (x : HJob) :
    (H.putJob j x).uncCorr = H.uncCorr := rfl
@[simp] theorem Hall.putJob_uncUncorr (H : Hall) (j : Nat) (x : HJob) :
    (H.putJob j x).uncUncorr = H.uncUncorr := rfl
@[simp] theorem Hall.putJob_step (H : Hall) (j : Nat) (x : HJob) :
    (H.putJob j x).step = H.step := rfl
@[simp] theorem Hall.putJob_tableStat (H : Hall) (j : Nat) (x : HJob) :
    (H.putJob j x).tableStat = H.tableStat := rfl
@[simp] theorem Hall.putJob_baySplit (H : Hall) (j : Nat) (x : HJob) :
    (H.putJob j x).baySplit = H.baySplit := rfl
@[simp] theorem Hall.putJob_scaleSel (H : Hall) (j : Nat) (x : HJob) :
    (H.putJob j x).scaleSel = H.scaleSel := rfl
@[simp] theorem Hall.putJob_scale (H : Hall) (j : Nat) (x : HJob) :
    (H.putJob j x).scale = H.scale := rfl
@[simp] theorem Hall.putJob_faces1 (H : Hall) (j : Nat) (x : HJob) :
    (H.putJob j x).faces1 = H.faces1 := rfl
@[simp] theorem Hall.putJob_gens (H : Hall) (j : Nat) (x : HJob) :
    (H.putJob j x).gens = H.gens := rfl
@[simp] theorem Hall.putJob_shrBase (H : Hall) (j : Nat) (x : HJob) :
    (H.putJob j x).shrBase = H.shrBase := rfl
@[simp] theorem Hall.putJob_shrSlot (H : Hall) (j : Nat) (x : HJob) :
    (H.putJob j x).shrSlot = H.shrSlot := rfl
@[simp] theorem Hall.putJob_shrHead (H : Hall) (j : Nat) (x : HJob) :
    (H.putJob j x).shrHead = H.shrHead := rfl
@[simp] theorem Hall.putJob_xlogBase (H : Hall) (j : Nat) (x : HJob) :
    (H.putJob j x).xlogBase = H.xlogBase := rfl
@[simp] theorem Hall.putJob_xlogSize (H : Hall) (j : Nat) (x : HJob) :
    (H.putJob j x).xlogSize = H.xlogSize := rfl
@[simp] theorem Hall.putJob_xlogHead (H : Hall) (j : Nat) (x : HJob) :
    (H.putJob j x).xlogHead = H.xlogHead := rfl
@[simp] theorem Hall.putJob_clogBase (H : Hall) (j : Nat) (x : HJob) :
    (H.putJob j x).clogBase = H.clogBase := rfl
@[simp] theorem Hall.putJob_clogSize (H : Hall) (j : Nat) (x : HJob) :
    (H.putJob j x).clogSize = H.clogSize := rfl
@[simp] theorem Hall.putJob_clogHead (H : Hall) (j : Nat) (x : HJob) :
    (H.putJob j x).clogHead = H.clogHead := rfl
@[simp] theorem Hall.putJob_holdBase (H : Hall) (j : Nat) (x : HJob) :
    (H.putJob j x).holdBase = H.holdBase := rfl
@[simp] theorem Hall.putJob_holdSegs (H : Hall) (j : Nat) (x : HJob) :
    (H.putJob j x).holdSegs = H.holdSegs := rfl
@[simp] theorem Hall.putJob_holdValid (H : Hall) (j : Nat) (x : HJob) :
    (H.putJob j x).holdValid = H.holdValid := rfl
@[simp] theorem Hall.putJob_mezzBase (H : Hall) (j : Nat) (x : HJob) :
    (H.putJob j x).mezzBase = H.mezzBase := rfl
@[simp] theorem Hall.putJob_mezzSize (H : Hall) (j : Nat) (x : HJob) :
    (H.putJob j x).mezzSize = H.mezzSize := rfl
@[simp] theorem Hall.putJob_mezzOn (H : Hall) (j : Nat) (x : HJob) :
    (H.putJob j x).mezzOn = H.mezzOn := rfl
@[simp] theorem Hall.putJob_mezzHall (H : Hall) (j : Nat) (x : HJob) :
    (H.putJob j x).mezzHall = H.mezzHall := rfl
@[simp] theorem Hall.putJob_mezzAddr (H : Hall) (j : Nat) (x : HJob) :
    (H.putJob j x).mezzAddr = H.mezzAddr := rfl
@[simp] theorem Hall.putJob_mezzIn (H : Hall) (j : Nat) (x : HJob) :
    (H.putJob j x).mezzIn = H.mezzIn := rfl
@[simp] theorem Hall.putJob_serving (H : Hall) (j : Nat) (x : HJob) :
    (H.putJob j x).serving = H.serving := rfl
@[simp] theorem Hall.putJob_stats (H : Hall) (j : Nat) (x : HJob) :
    (H.putJob j x).stats = H.stats := rfl
@[simp] theorem Hall.putJob_norms (H : Hall) (j : Nat) (x : HJob) :
    (H.putJob j x).norms = H.norms := rfl
@[simp] theorem Hall.putJob_normSum (H : Hall) (j : Nat) (x : HJob) :
    (H.putJob j x).normSum = H.normSum := rfl
@[simp] theorem Hall.putJob_nfAcc (H : Hall) (j : Nat) (x : HJob) :
    (H.putJob j x).nfAcc = H.nfAcc := rfl
@[simp] theorem Hall.putJob_lossAcc (H : Hall) (j : Nat) (x : HJob) :
    (H.putJob j x).lossAcc = H.lossAcc := rfl
@[simp] theorem Hall.putJob_carriedAcc (H : Hall) (j : Nat) (x : HJob) :
    (H.putJob j x).carriedAcc = H.carriedAcc := rfl
@[simp] theorem Hall.putJob_absentAcc (H : Hall) (j : Nat) (x : HJob) :
    (H.putJob j x).absentAcc = H.absentAcc := rfl
@[simp] theorem Hall.putJob_stepTiles (H : Hall) (j : Nat) (x : HJob) :
    (H.putJob j x).stepTiles = H.stepTiles := rfl
@[simp] theorem Hall.putJob_stepReruns (H : Hall) (j : Nat) (x : HJob) :
    (H.putJob j x).stepReruns = H.stepReruns := rfl
@[simp] theorem Hall.putJob_stepStrikes (H : Hall) (j : Nat) (x : HJob) :
    (H.putJob j x).stepStrikes = H.stepStrikes := rfl
@[simp] theorem Hall.putJob_perRowF (H : Hall) (j : Nat) (x : HJob) :
    (H.putJob j x).perRowF = H.perRowF := rfl
@[simp] theorem Hall.putJob_stepFrom (H : Hall) (j : Nat) (x : HJob) :
    (H.putJob j x).stepFrom = H.stepFrom := rfl
@[simp] theorem Hall.putJob_riser (H : Hall) (j : Nat) (x : HJob) :
    (H.putJob j x).riser = H.riser := rfl
@[simp] theorem Hall.putJob_rsrElems (H : Hall) (j : Nat) (x : HJob) :
    (H.putJob j x).rsrElems = H.rsrElems := rfl
@[simp] theorem Hall.putJob_nwlResidue (H : Hall) (j : Nat) (x : HJob) :
    (H.putJob j x).nwlResidue = H.nwlResidue := rfl
@[simp] theorem Hall.putJob_rsrResidue (H : Hall) (j : Nat) (x : HJob) :
    (H.putJob j x).rsrResidue = H.rsrResidue := rfl
@[simp] theorem Hall.putJob_resStrike (H : Hall) (j : Nat) (x : HJob) :
    (H.putJob j x).resStrike = H.resStrike := rfl
@[simp] theorem Hall.putJob_sampler (H : Hall) (j : Nat) (x : HJob) :
    (H.putJob j x).sampler = H.sampler := rfl
@[simp] theorem Hall.putJob_commits (H : Hall) (j : Nat) (x : HJob) :
    (H.putJob j x).commits = H.commits := rfl
@[simp] theorem Hall.putJob_allCommits (H : Hall) (j : Nat) (x : HJob) :
    (H.putJob j x).allCommits = H.allCommits := rfl
@[simp] theorem Hall.putJob_gals (H : Hall) (j : Nat) (x : HJob) :
    (H.putJob j x).gals = H.gals := rfl
@[simp] theorem Hall.putJob_unc (H : Hall) (j : Nat) (x : HJob) :
    (H.putJob j x).unc = H.unc := rfl
@[simp] theorem Hall.putJob_taken (H : Hall) (j : Nat) (x : HJob) :
    (H.putJob j x).taken = H.taken := rfl
@[simp] theorem Hall.putJob_ports (H : Hall) (j : Nat) (x : HJob) :
    (H.putJob j x).ports = H.ports := rfl

/-! ### Hall.putPort -/

@[simp] theorem Hall.putPort_present (H : Hall) (p : Nat) (x : Port) :
    (H.putPort p x).present = H.present := rfl
@[simp] theorem Hall.putPort_test (H : Hall) (p : Nat) (x : Port) :
    (H.putPort p x).test = H.test := rfl
@[simp] theorem Hall.putPort_domains (H : Hall) (p : Nat) (x : Port) :
    (H.putPort p x).domains = H.domains := rfl
@[simp] theorem Hall.putPort_raising (H : Hall) (p : Nat) (x : Port) :
    (H.putPort p x).raising = H.raising := rfl
@[simp] theorem Hall.putPort_prpg (H : Hall) (p : Nat) (x : Port) :
    (H.putPort p x).prpg = H.prpg := rfl
@[simp] theorem Hall.putPort_patterns (H : Hall) (p : Nat) (x : Port) :
    (H.putPort p x).patterns = H.patterns := rfl
@[simp] theorem Hall.putPort_galPatterns (H : Hall) (p : Nat) (x : Port) :
    (H.putPort p x).galPatterns = H.galPatterns := rfl
@[simp] theorem Hall.putPort_hbm (H : Hall) (p : Nat) (x : Port) :
    (H.putPort p x).hbm = H.hbm := rfl
@[simp] theorem Hall.putPort_key (H : Hall) (p : Nat) (x : Port) :
    (H.putPort p x).key = H.key := rfl
@[simp] theorem Hall.putPort_concCount (H : Hall) (p : Nat) (x : Port) :
    (H.putPort p x).concCount = H.concCount := rfl
@[simp] theorem Hall.putPort_concTarget (H : Hall) (p : Nat) (x : Port) :
    (H.putPort p x).concTarget = H.concTarget := rfl
@[simp] theorem Hall.putPort_concAlert (H : Hall) (p : Nat) (x : Port) :
    (H.putPort p x).concAlert = H.concAlert := rfl
@[simp] theorem Hall.putPort_poison (H : Hall) (p : Nat) (x : Port) :
    (H.putPort p x).poison = H.poison := rfl
@[simp] theorem Hall.putPort_poisonRows (H : Hall) (p : Nat) (x : Port) :
    (H.putPort p x).poisonRows = H.poisonRows := rfl
@[simp] theorem Hall.putPort_hbmCorr (H : Hall) (p : Nat) (x : Port) :
    (H.putPort p x).hbmCorr = H.hbmCorr := rfl
@[simp] theorem Hall.putPort_hbmUncorr (H : Hall) (p : Nat) (x : Port) :
    (H.putPort p x).hbmUncorr = H.hbmUncorr := rfl
@[simp] theorem Hall.putPort_uncCorr (H : Hall) (p : Nat) (x : Port) :
    (H.putPort p x).uncCorr = H.uncCorr := rfl
@[simp] theorem Hall.putPort_uncUncorr (H : Hall) (p : Nat) (x : Port) :
    (H.putPort p x).uncUncorr = H.uncUncorr := rfl
@[simp] theorem Hall.putPort_step (H : Hall) (p : Nat) (x : Port) :
    (H.putPort p x).step = H.step := rfl
@[simp] theorem Hall.putPort_tableStat (H : Hall) (p : Nat) (x : Port) :
    (H.putPort p x).tableStat = H.tableStat := rfl
@[simp] theorem Hall.putPort_baySplit (H : Hall) (p : Nat) (x : Port) :
    (H.putPort p x).baySplit = H.baySplit := rfl
@[simp] theorem Hall.putPort_scaleSel (H : Hall) (p : Nat) (x : Port) :
    (H.putPort p x).scaleSel = H.scaleSel := rfl
@[simp] theorem Hall.putPort_scale (H : Hall) (p : Nat) (x : Port) :
    (H.putPort p x).scale = H.scale := rfl
@[simp] theorem Hall.putPort_faces1 (H : Hall) (p : Nat) (x : Port) :
    (H.putPort p x).faces1 = H.faces1 := rfl
@[simp] theorem Hall.putPort_gens (H : Hall) (p : Nat) (x : Port) :
    (H.putPort p x).gens = H.gens := rfl
@[simp] theorem Hall.putPort_shrBase (H : Hall) (p : Nat) (x : Port) :
    (H.putPort p x).shrBase = H.shrBase := rfl
@[simp] theorem Hall.putPort_shrSlot (H : Hall) (p : Nat) (x : Port) :
    (H.putPort p x).shrSlot = H.shrSlot := rfl
@[simp] theorem Hall.putPort_shrHead (H : Hall) (p : Nat) (x : Port) :
    (H.putPort p x).shrHead = H.shrHead := rfl
@[simp] theorem Hall.putPort_xlogBase (H : Hall) (p : Nat) (x : Port) :
    (H.putPort p x).xlogBase = H.xlogBase := rfl
@[simp] theorem Hall.putPort_xlogSize (H : Hall) (p : Nat) (x : Port) :
    (H.putPort p x).xlogSize = H.xlogSize := rfl
@[simp] theorem Hall.putPort_xlogHead (H : Hall) (p : Nat) (x : Port) :
    (H.putPort p x).xlogHead = H.xlogHead := rfl
@[simp] theorem Hall.putPort_clogBase (H : Hall) (p : Nat) (x : Port) :
    (H.putPort p x).clogBase = H.clogBase := rfl
@[simp] theorem Hall.putPort_clogSize (H : Hall) (p : Nat) (x : Port) :
    (H.putPort p x).clogSize = H.clogSize := rfl
@[simp] theorem Hall.putPort_clogHead (H : Hall) (p : Nat) (x : Port) :
    (H.putPort p x).clogHead = H.clogHead := rfl
@[simp] theorem Hall.putPort_holdBase (H : Hall) (p : Nat) (x : Port) :
    (H.putPort p x).holdBase = H.holdBase := rfl
@[simp] theorem Hall.putPort_holdSegs (H : Hall) (p : Nat) (x : Port) :
    (H.putPort p x).holdSegs = H.holdSegs := rfl
@[simp] theorem Hall.putPort_holdValid (H : Hall) (p : Nat) (x : Port) :
    (H.putPort p x).holdValid = H.holdValid := rfl
@[simp] theorem Hall.putPort_mezzBase (H : Hall) (p : Nat) (x : Port) :
    (H.putPort p x).mezzBase = H.mezzBase := rfl
@[simp] theorem Hall.putPort_mezzSize (H : Hall) (p : Nat) (x : Port) :
    (H.putPort p x).mezzSize = H.mezzSize := rfl
@[simp] theorem Hall.putPort_mezzOn (H : Hall) (p : Nat) (x : Port) :
    (H.putPort p x).mezzOn = H.mezzOn := rfl
@[simp] theorem Hall.putPort_mezzHall (H : Hall) (p : Nat) (x : Port) :
    (H.putPort p x).mezzHall = H.mezzHall := rfl
@[simp] theorem Hall.putPort_mezzAddr (H : Hall) (p : Nat) (x : Port) :
    (H.putPort p x).mezzAddr = H.mezzAddr := rfl
@[simp] theorem Hall.putPort_mezzIn (H : Hall) (p : Nat) (x : Port) :
    (H.putPort p x).mezzIn = H.mezzIn := rfl
@[simp] theorem Hall.putPort_serving (H : Hall) (p : Nat) (x : Port) :
    (H.putPort p x).serving = H.serving := rfl
@[simp] theorem Hall.putPort_stats (H : Hall) (p : Nat) (x : Port) :
    (H.putPort p x).stats = H.stats := rfl
@[simp] theorem Hall.putPort_norms (H : Hall) (p : Nat) (x : Port) :
    (H.putPort p x).norms = H.norms := rfl
@[simp] theorem Hall.putPort_normSum (H : Hall) (p : Nat) (x : Port) :
    (H.putPort p x).normSum = H.normSum := rfl
@[simp] theorem Hall.putPort_nfAcc (H : Hall) (p : Nat) (x : Port) :
    (H.putPort p x).nfAcc = H.nfAcc := rfl
@[simp] theorem Hall.putPort_lossAcc (H : Hall) (p : Nat) (x : Port) :
    (H.putPort p x).lossAcc = H.lossAcc := rfl
@[simp] theorem Hall.putPort_carriedAcc (H : Hall) (p : Nat) (x : Port) :
    (H.putPort p x).carriedAcc = H.carriedAcc := rfl
@[simp] theorem Hall.putPort_absentAcc (H : Hall) (p : Nat) (x : Port) :
    (H.putPort p x).absentAcc = H.absentAcc := rfl
@[simp] theorem Hall.putPort_stepTiles (H : Hall) (p : Nat) (x : Port) :
    (H.putPort p x).stepTiles = H.stepTiles := rfl
@[simp] theorem Hall.putPort_stepReruns (H : Hall) (p : Nat) (x : Port) :
    (H.putPort p x).stepReruns = H.stepReruns := rfl
@[simp] theorem Hall.putPort_stepStrikes (H : Hall) (p : Nat) (x : Port) :
    (H.putPort p x).stepStrikes = H.stepStrikes := rfl
@[simp] theorem Hall.putPort_perRowF (H : Hall) (p : Nat) (x : Port) :
    (H.putPort p x).perRowF = H.perRowF := rfl
@[simp] theorem Hall.putPort_stepFrom (H : Hall) (p : Nat) (x : Port) :
    (H.putPort p x).stepFrom = H.stepFrom := rfl
@[simp] theorem Hall.putPort_riser (H : Hall) (p : Nat) (x : Port) :
    (H.putPort p x).riser = H.riser := rfl
@[simp] theorem Hall.putPort_rsrElems (H : Hall) (p : Nat) (x : Port) :
    (H.putPort p x).rsrElems = H.rsrElems := rfl
@[simp] theorem Hall.putPort_nwlResidue (H : Hall) (p : Nat) (x : Port) :
    (H.putPort p x).nwlResidue = H.nwlResidue := rfl
@[simp] theorem Hall.putPort_rsrResidue (H : Hall) (p : Nat) (x : Port) :
    (H.putPort p x).rsrResidue = H.rsrResidue := rfl
@[simp] theorem Hall.putPort_resStrike (H : Hall) (p : Nat) (x : Port) :
    (H.putPort p x).resStrike = H.resStrike := rfl
@[simp] theorem Hall.putPort_sampler (H : Hall) (p : Nat) (x : Port) :
    (H.putPort p x).sampler = H.sampler := rfl
@[simp] theorem Hall.putPort_commits (H : Hall) (p : Nat) (x : Port) :
    (H.putPort p x).commits = H.commits := rfl
@[simp] theorem Hall.putPort_allCommits (H : Hall) (p : Nat) (x : Port) :
    (H.putPort p x).allCommits = H.allCommits := rfl
@[simp] theorem Hall.putPort_gals (H : Hall) (p : Nat) (x : Port) :
    (H.putPort p x).gals = H.gals := rfl
@[simp] theorem Hall.putPort_unc (H : Hall) (p : Nat) (x : Port) :
    (H.putPort p x).unc = H.unc := rfl
@[simp] theorem Hall.putPort_taken (H : Hall) (p : Nat) (x : Port) :
    (H.putPort p x).taken = H.taken := rfl
@[simp] theorem Hall.putPort_jobs (H : Hall) (p : Nat) (x : Port) :
    (H.putPort p x).jobs = H.jobs := rfl

/-! ### Hall.putRow -/

@[simp] theorem Hall.putRow_present (H : Hall) (r : Nat) (x : URow) :
    (H.putRow r x).present = H.present := rfl
@[simp] theorem Hall.putRow_test (H : Hall) (r : Nat) (x : URow) :
    (H.putRow r x).test = H.test := rfl
@[simp] theorem Hall.putRow_domains (H : Hall) (r : Nat) (x : URow) :
    (H.putRow r x).domains = H.domains := rfl
@[simp] theorem Hall.putRow_raising (H : Hall) (r : Nat) (x : URow) :
    (H.putRow r x).raising = H.raising := rfl
@[simp] theorem Hall.putRow_prpg (H : Hall) (r : Nat) (x : URow) :
    (H.putRow r x).prpg = H.prpg := rfl
@[simp] theorem Hall.putRow_patterns (H : Hall) (r : Nat) (x : URow) :
    (H.putRow r x).patterns = H.patterns := rfl
@[simp] theorem Hall.putRow_galPatterns (H : Hall) (r : Nat) (x : URow) :
    (H.putRow r x).galPatterns = H.galPatterns := rfl
@[simp] theorem Hall.putRow_hbm (H : Hall) (r : Nat) (x : URow) :
    (H.putRow r x).hbm = H.hbm := rfl
@[simp] theorem Hall.putRow_key (H : Hall) (r : Nat) (x : URow) :
    (H.putRow r x).key = H.key := rfl
@[simp] theorem Hall.putRow_concCount (H : Hall) (r : Nat) (x : URow) :
    (H.putRow r x).concCount = H.concCount := rfl
@[simp] theorem Hall.putRow_concTarget (H : Hall) (r : Nat) (x : URow) :
    (H.putRow r x).concTarget = H.concTarget := rfl
@[simp] theorem Hall.putRow_concAlert (H : Hall) (r : Nat) (x : URow) :
    (H.putRow r x).concAlert = H.concAlert := rfl
@[simp] theorem Hall.putRow_poison (H : Hall) (r : Nat) (x : URow) :
    (H.putRow r x).poison = H.poison := rfl
@[simp] theorem Hall.putRow_poisonRows (H : Hall) (r : Nat) (x : URow) :
    (H.putRow r x).poisonRows = H.poisonRows := rfl
@[simp] theorem Hall.putRow_hbmCorr (H : Hall) (r : Nat) (x : URow) :
    (H.putRow r x).hbmCorr = H.hbmCorr := rfl
@[simp] theorem Hall.putRow_hbmUncorr (H : Hall) (r : Nat) (x : URow) :
    (H.putRow r x).hbmUncorr = H.hbmUncorr := rfl
@[simp] theorem Hall.putRow_uncCorr (H : Hall) (r : Nat) (x : URow) :
    (H.putRow r x).uncCorr = H.uncCorr := rfl
@[simp] theorem Hall.putRow_uncUncorr (H : Hall) (r : Nat) (x : URow) :
    (H.putRow r x).uncUncorr = H.uncUncorr := rfl
@[simp] theorem Hall.putRow_step (H : Hall) (r : Nat) (x : URow) :
    (H.putRow r x).step = H.step := rfl
@[simp] theorem Hall.putRow_tableStat (H : Hall) (r : Nat) (x : URow) :
    (H.putRow r x).tableStat = H.tableStat := rfl
@[simp] theorem Hall.putRow_baySplit (H : Hall) (r : Nat) (x : URow) :
    (H.putRow r x).baySplit = H.baySplit := rfl
@[simp] theorem Hall.putRow_scaleSel (H : Hall) (r : Nat) (x : URow) :
    (H.putRow r x).scaleSel = H.scaleSel := rfl
@[simp] theorem Hall.putRow_scale (H : Hall) (r : Nat) (x : URow) :
    (H.putRow r x).scale = H.scale := rfl
@[simp] theorem Hall.putRow_faces1 (H : Hall) (r : Nat) (x : URow) :
    (H.putRow r x).faces1 = H.faces1 := rfl
@[simp] theorem Hall.putRow_gens (H : Hall) (r : Nat) (x : URow) :
    (H.putRow r x).gens = H.gens := rfl
@[simp] theorem Hall.putRow_shrBase (H : Hall) (r : Nat) (x : URow) :
    (H.putRow r x).shrBase = H.shrBase := rfl
@[simp] theorem Hall.putRow_shrSlot (H : Hall) (r : Nat) (x : URow) :
    (H.putRow r x).shrSlot = H.shrSlot := rfl
@[simp] theorem Hall.putRow_shrHead (H : Hall) (r : Nat) (x : URow) :
    (H.putRow r x).shrHead = H.shrHead := rfl
@[simp] theorem Hall.putRow_xlogBase (H : Hall) (r : Nat) (x : URow) :
    (H.putRow r x).xlogBase = H.xlogBase := rfl
@[simp] theorem Hall.putRow_xlogSize (H : Hall) (r : Nat) (x : URow) :
    (H.putRow r x).xlogSize = H.xlogSize := rfl
@[simp] theorem Hall.putRow_xlogHead (H : Hall) (r : Nat) (x : URow) :
    (H.putRow r x).xlogHead = H.xlogHead := rfl
@[simp] theorem Hall.putRow_clogBase (H : Hall) (r : Nat) (x : URow) :
    (H.putRow r x).clogBase = H.clogBase := rfl
@[simp] theorem Hall.putRow_clogSize (H : Hall) (r : Nat) (x : URow) :
    (H.putRow r x).clogSize = H.clogSize := rfl
@[simp] theorem Hall.putRow_clogHead (H : Hall) (r : Nat) (x : URow) :
    (H.putRow r x).clogHead = H.clogHead := rfl
@[simp] theorem Hall.putRow_holdBase (H : Hall) (r : Nat) (x : URow) :
    (H.putRow r x).holdBase = H.holdBase := rfl
@[simp] theorem Hall.putRow_holdSegs (H : Hall) (r : Nat) (x : URow) :
    (H.putRow r x).holdSegs = H.holdSegs := rfl
@[simp] theorem Hall.putRow_holdValid (H : Hall) (r : Nat) (x : URow) :
    (H.putRow r x).holdValid = H.holdValid := rfl
@[simp] theorem Hall.putRow_mezzBase (H : Hall) (r : Nat) (x : URow) :
    (H.putRow r x).mezzBase = H.mezzBase := rfl
@[simp] theorem Hall.putRow_mezzSize (H : Hall) (r : Nat) (x : URow) :
    (H.putRow r x).mezzSize = H.mezzSize := rfl
@[simp] theorem Hall.putRow_mezzOn (H : Hall) (r : Nat) (x : URow) :
    (H.putRow r x).mezzOn = H.mezzOn := rfl
@[simp] theorem Hall.putRow_mezzHall (H : Hall) (r : Nat) (x : URow) :
    (H.putRow r x).mezzHall = H.mezzHall := rfl
@[simp] theorem Hall.putRow_mezzAddr (H : Hall) (r : Nat) (x : URow) :
    (H.putRow r x).mezzAddr = H.mezzAddr := rfl
@[simp] theorem Hall.putRow_mezzIn (H : Hall) (r : Nat) (x : URow) :
    (H.putRow r x).mezzIn = H.mezzIn := rfl
@[simp] theorem Hall.putRow_serving (H : Hall) (r : Nat) (x : URow) :
    (H.putRow r x).serving = H.serving := rfl
@[simp] theorem Hall.putRow_stats (H : Hall) (r : Nat) (x : URow) :
    (H.putRow r x).stats = H.stats := rfl
@[simp] theorem Hall.putRow_norms (H : Hall) (r : Nat) (x : URow) :
    (H.putRow r x).norms = H.norms := rfl
@[simp] theorem Hall.putRow_normSum (H : Hall) (r : Nat) (x : URow) :
    (H.putRow r x).normSum = H.normSum := rfl
@[simp] theorem Hall.putRow_nfAcc (H : Hall) (r : Nat) (x : URow) :
    (H.putRow r x).nfAcc = H.nfAcc := rfl
@[simp] theorem Hall.putRow_lossAcc (H : Hall) (r : Nat) (x : URow) :
    (H.putRow r x).lossAcc = H.lossAcc := rfl
@[simp] theorem Hall.putRow_carriedAcc (H : Hall) (r : Nat) (x : URow) :
    (H.putRow r x).carriedAcc = H.carriedAcc := rfl
@[simp] theorem Hall.putRow_absentAcc (H : Hall) (r : Nat) (x : URow) :
    (H.putRow r x).absentAcc = H.absentAcc := rfl
@[simp] theorem Hall.putRow_stepTiles (H : Hall) (r : Nat) (x : URow) :
    (H.putRow r x).stepTiles = H.stepTiles := rfl
@[simp] theorem Hall.putRow_stepReruns (H : Hall) (r : Nat) (x : URow) :
    (H.putRow r x).stepReruns = H.stepReruns := rfl
@[simp] theorem Hall.putRow_stepStrikes (H : Hall) (r : Nat) (x : URow) :
    (H.putRow r x).stepStrikes = H.stepStrikes := rfl
@[simp] theorem Hall.putRow_perRowF (H : Hall) (r : Nat) (x : URow) :
    (H.putRow r x).perRowF = H.perRowF := rfl
@[simp] theorem Hall.putRow_stepFrom (H : Hall) (r : Nat) (x : URow) :
    (H.putRow r x).stepFrom = H.stepFrom := rfl
@[simp] theorem Hall.putRow_riser (H : Hall) (r : Nat) (x : URow) :
    (H.putRow r x).riser = H.riser := rfl
@[simp] theorem Hall.putRow_rsrElems (H : Hall) (r : Nat) (x : URow) :
    (H.putRow r x).rsrElems = H.rsrElems := rfl
@[simp] theorem Hall.putRow_nwlResidue (H : Hall) (r : Nat) (x : URow) :
    (H.putRow r x).nwlResidue = H.nwlResidue := rfl
@[simp] theorem Hall.putRow_rsrResidue (H : Hall) (r : Nat) (x : URow) :
    (H.putRow r x).rsrResidue = H.rsrResidue := rfl
@[simp] theorem Hall.putRow_resStrike (H : Hall) (r : Nat) (x : URow) :
    (H.putRow r x).resStrike = H.resStrike := rfl
@[simp] theorem Hall.putRow_sampler (H : Hall) (r : Nat) (x : URow) :
    (H.putRow r x).sampler = H.sampler := rfl
@[simp] theorem Hall.putRow_commits (H : Hall) (r : Nat) (x : URow) :
    (H.putRow r x).commits = H.commits := rfl
@[simp] theorem Hall.putRow_allCommits (H : Hall) (r : Nat) (x : URow) :
    (H.putRow r x).allCommits = H.allCommits := rfl
@[simp] theorem Hall.putRow_gals (H : Hall) (r : Nat) (x : URow) :
    (H.putRow r x).gals = H.gals := rfl
@[simp] theorem Hall.putRow_taken (H : Hall) (r : Nat) (x : URow) :
    (H.putRow r x).taken = H.taken := rfl
@[simp] theorem Hall.putRow_jobs (H : Hall) (r : Nat) (x : URow) :
    (H.putRow r x).jobs = H.jobs := rfl
@[simp] theorem Hall.putRow_ports (H : Hall) (r : Nat) (x : URow) :
    (H.putRow r x).ports = H.ports := rfl

end Sys2Proof.Machine
end

