-- ==== Sys2Proof/Laws/Memory.lean ====
section
/-! SUPPORT. Tables, memory and the units of the state: a read after a write, and the canonical form of memory. -/

namespace Sys2Proof.Machine

/-! ### Tables -/

theorem tabGet_tabSet {α : Type} (d : α) (t : Tab α) (n m : Nat) (x : α) :
    tabGet d (tabSet t n x) m = if m = n then x else tabGet d t m := by
  induction t with
  | nil => simp [tabSet, tabGet]
  | cons e t ih =>
    obtain ⟨k, v⟩ := e
    unfold tabSet
    split
    · simp [tabGet]
    · split
      · subst_vars; simp only [tabGet]; split <;> rfl
      · simp only [tabGet, ih]
        by_cases h : m = k
        · subst h; simp; omega
        · simp [h]

@[simp] theorem tabGet_tabSet_self {α : Type} (d : α) (t : Tab α) (n : Nat) (x : α) :
    tabGet d (tabSet t n x) n = x := by simp [tabGet_tabSet]

theorem tabGet_tabDel {α : Type} (d : α) (t : Tab α) (n m : Nat) :
    tabGet d (tabDel t n) m = if m = n then d else tabGet d t m := by
  unfold tabDel
  induction t with
  | nil => simp [tabGet]
  | cons e t ih =>
    obtain ⟨k, v⟩ := e
    by_cases hk : k = n
    · subst hk
      by_cases h : m = k
      · subst h; simp [ih]
      · simp [tabGet, ih, h]
    · simp only [List.filter_cons, bne_iff_ne, ne_eq, hk, not_false_eq_true, if_true, tabGet, ih]
      by_cases h : m = k
      · subst h; simp [hk]
      · simp [h]

/-! ### Bytes -/

theorem memRead_memWrite (m : Mem) (a c : Nat) (b : Byte) :
    memRead (memWrite m a b) c = if c = a then b else memRead m c := by
  unfold memRead memWrite
  split
  · next h => subst h; rw [tabGet_tabDel]
  · rw [tabGet_tabSet]

/-- A run of bytes reads back, and every other byte stands. -/
theorem memRead_memWrites (l : List Byte) : ∀ (m : Mem) (a c : Nat),
    memRead (memWrites m a l) c = if a ≤ c ∧ c < a + l.length then l.getD (c - a) 0 else memRead m c := by
  induction l with
  | nil => intro m a c; rw [memWrites, if_neg (by rw [List.length_nil]; omega)]
  | cons b l ih =>
    intro m a c
    simp only [memWrites, ih, memRead_memWrite, List.length_cons]
    by_cases h : c = a
    · subst h; simp
    · by_cases h2 : a + 1 ≤ c ∧ c < a + 1 + l.length
      · have : c - a = (c - (a + 1)) + 1 := by omega
        rw [if_pos h2, if_pos (by omega), this]; simp
      · rw [if_neg h2, if_neg h, if_neg (by omega)]

/-- An empty memory reads as zeros, and zeros written into it leave it empty. -/
@[simp] theorem memReads_empty (a n : Nat) : memReads [] a n = List.replicate n 0#8 := by
  simp [memReads, memRead, tabGet]

@[simp] theorem memWrites_zeros (a n : Nat) : memWrites [] a (List.replicate n 0#8) = [] := by
  induction n generalizing a with
  | zero => rfl
  | succ n ih => simp [List.replicate_succ, memWrites, memWrite, tabDel, ih]

theorem memReads_memWrites_same (m : Mem) (a : Nat) (l : List Byte) :
    memReads (memWrites m a l) a l.length = l := by
  unfold memReads
  apply List.ext_getElem
  · simp
  · intro i h1 h2
    simp only [List.length_map, List.length_range] at h1
    simp [memRead_memWrites, h1]

theorem memRead_memWrites_outside (m : Mem) (a c : Nat) (l : List Byte) (h : c < a ∨ a + l.length ≤ c) :
    memRead (memWrites m a l) c = memRead m c := by
  rw [memRead_memWrites, if_neg (by omega)]

/-! ### The canonical form -/

/-- Addresses strictly rising from a bound on, and no zero byte. -/
def Mem.wfFrom : Nat → Mem → Bool
  | _, [] => true
  | lo, c :: m => decide (lo ≤ c.1) && c.2 != 0 && Mem.wfFrom (c.1 + 1) m

theorem Mem.wf_eq (m : Mem) : Mem.wf m = Mem.wfFrom 0 m := by
  have key : ∀ (m : Mem) (c : Host.Cell), Mem.wf (c :: m) = (c.2 != 0 && Mem.wfFrom (c.1 + 1) m) := by
    intro m
    induction m with
    | nil => intro c; simp [Mem.wf, Mem.wfFrom]
    | cons d m ih =>
      intro c
      rw [Mem.wf, ih, Mem.wfFrom]
      have : (decide (c.1 + 1 ≤ d.1)) = decide (c.1 < d.1) := by congr
      rw [this]; ac_rfl
  cases m with
  | nil => rfl
  | cons c m => rw [key]; simp [Mem.wfFrom]

theorem Mem.wfFrom_mono (m : Mem) : ∀ {a b : Nat}, b ≤ a → Mem.wfFrom a m = true → Mem.wfFrom b m = true := by
  cases m with
  | nil => intros; rfl
  | cons c m =>
    intro a b hab h
    simp only [Mem.wfFrom, Bool.and_eq_true, decide_eq_true_eq] at h ⊢
    exact ⟨⟨by omega, h.1.2⟩, h.2⟩

theorem Mem.wfFrom_tabDel (m : Mem) (n : Nat) : ∀ lo, Mem.wfFrom lo m = true → Mem.wfFrom lo (tabDel m n) = true := by
  unfold tabDel
  induction m with
  | nil => intros; rfl
  | cons c m ih =>
    intro lo h
    simp only [Mem.wfFrom, Bool.and_eq_true, decide_eq_true_eq] at h
    by_cases hc : (c.1 != n) = true
    · simp only [List.filter_cons, hc, if_true]
      simp only [Mem.wfFrom, Bool.and_eq_true, decide_eq_true_eq]
      exact ⟨h.1, ih _ h.2⟩
    · rw [List.filter_cons, if_neg hc]
      exact Mem.wfFrom_mono _ (by omega) (ih _ h.2)

theorem Mem.wfFrom_tabSet (m : Mem) (n : Nat) (b : Byte) (hb : b ≠ 0) :
    ∀ lo, lo ≤ n → Mem.wfFrom lo m = true → Mem.wfFrom lo (tabSet m n b) = true := by
  induction m with
  | nil => intro lo hn _; simp only [tabSet, Mem.wfFrom, hn, bne_iff_ne.mpr hb, decide_true, Bool.and_true]
  | cons c m ih =>
    intro lo hn h
    obtain ⟨k, v⟩ := c
    simp only [Mem.wfFrom, Bool.and_eq_true, decide_eq_true_eq, bne_iff_ne, ne_eq] at h
    unfold tabSet
    split
    · simp only [Mem.wfFrom, Bool.and_eq_true, decide_eq_true_eq, bne_iff_ne, ne_eq]
      exact ⟨⟨hn, hb⟩, ⟨by omega, h.1.2⟩, h.2⟩
    · split
      · subst_vars
        simp only [Mem.wfFrom, Bool.and_eq_true, decide_eq_true_eq, bne_iff_ne, ne_eq]
        exact ⟨⟨hn, hb⟩, h.2⟩
      · simp only [Mem.wfFrom, Bool.and_eq_true, decide_eq_true_eq, bne_iff_ne, ne_eq]
        exact ⟨h.1, ih _ (by omega) h.2⟩

theorem Mem.wf_memWrite {m : Mem} (h : Mem.wf m = true) (a : Nat) (b : Byte) : Mem.wf (memWrite m a b) = true := by
  rw [Mem.wf_eq] at h ⊢
  unfold memWrite
  split
  · exact Mem.wfFrom_tabDel m a 0 h
  · next hb => exact Mem.wfFrom_tabSet m a b hb 0 (Nat.zero_le _) h

theorem Mem.wf_memWrites (l : List Byte) : ∀ {m : Mem}, Mem.wf m = true → ∀ a, Mem.wf (memWrites m a l) = true := by
  induction l with
  | nil => intro m h a; exact h
  | cons b l ih => intro m h a; exact ih (Mem.wf_memWrite h a b) (a + 1)

/-! ### Units of the state -/

theorem State.hall_putHall (s : State) (h k : Nat) (x : Hall) :
    (s.putHall h x).hall k = if k = h then x else s.hall k := tabGet_tabSet ..
theorem State.hall_modHall (s : State) (h k : Nat) (f : Hall → Hall) :
    (s.modHall h f).hall k = if k = h then f (s.hall h) else s.hall k := tabGet_tabSet ..
@[simp] theorem State.hall_modHall_self (s : State) (h : Nat) (f : Hall → Hall) :
    (s.modHall h f).hall h = f (s.hall h) := by simp [State.hall_modHall]
theorem State.part_modPart (s : State) (v k : Nat) (f : Part → Part) :
    (s.modPart v f).part k = if k = v then f (s.part v) else s.part k := tabGet_tabSet ..
@[simp] theorem State.part_modPart_self (s : State) (v : Nat) (f : Part → Part) :
    (s.modPart v f).part v = f (s.part v) := by simp [State.part_modPart]
theorem State.job_modJob (s : State) (q k : Page) (f : Job → Job) :
    (s.modJob q f).job k = if k = q then f (s.job q) else s.job k := tabGet_tabSet ..
@[simp] theorem State.job_modJob_self (s : State) (q : Page) (f : Job → Job) :
    (s.modJob q f).job q = f (s.job q) := by simp [State.job_modJob]
theorem State.fn_modFn (s : State) (g k : Fn) (f : FnRegs → FnRegs) :
    (s.modFn g f).fn k = if k = g then f (s.fn g) else s.fn k := tabGet_tabSet ..
@[simp] theorem State.fn_modFn_self (s : State) (g : Fn) (f : FnRegs → FnRegs) :
    (s.modFn g f).fn g = f (s.fn g) := by simp [State.fn_modFn]

@[simp] theorem State.job_modHall (s : State) (h : Nat) (f : Hall → Hall) (q : Page) : (s.modHall h f).job q = s.job q := rfl
@[simp] theorem State.part_modHall (s : State) (h : Nat) (f : Hall → Hall) (v : Nat) : (s.modHall h f).part v = s.part v := rfl
@[simp] theorem State.fn_modHall (s : State) (h : Nat) (f : Hall → Hall) (g : Fn) : (s.modHall h f).fn g = s.fn g := rfl
@[simp] theorem State.hall_modPart (s : State) (v : Nat) (f : Part → Part) (h : Nat) : (s.modPart v f).hall h = s.hall h := rfl
@[simp] theorem State.job_modPart (s : State) (v : Nat) (f : Part → Part) (q : Page) : (s.modPart v f).job q = s.job q := rfl
@[simp] theorem State.fn_modPart (s : State) (v : Nat) (f : Part → Part) (g : Fn) : (s.modPart v f).fn g = s.fn g := rfl
@[simp] theorem State.hall_modJob (s : State) (q : Page) (f : Job → Job) (h : Nat) : (s.modJob q f).hall h = s.hall h := rfl
@[simp] theorem State.part_modJob (s : State) (q : Page) (f : Job → Job) (v : Nat) : (s.modJob q f).part v = s.part v := rfl
@[simp] theorem State.fn_modJob (s : State) (q : Page) (f : Job → Job) (g : Fn) : (s.modJob q f).fn g = s.fn g := rfl
@[simp] theorem State.hall_modFn (s : State) (g : Fn) (f : FnRegs → FnRegs) (h : Nat) : (s.modFn g f).hall h = s.hall h := rfl
@[simp] theorem State.part_modFn (s : State) (g : Fn) (f : FnRegs → FnRegs) (v : Nat) : (s.modFn g f).part v = s.part v := rfl
@[simp] theorem State.job_modFn (s : State) (g : Fn) (f : FnRegs → FnRegs) (q : Page) : (s.modFn g f).job q = s.job q := rfl

theorem Hall.gal_putGal (H : Hall) (g k : Nat) (x : Gal) : (H.putGal g x).gal k = if k = g then x else H.gal k := tabGet_tabSet ..
theorem Hall.job_putJob (H : Hall) (j k : Nat) (x : HJob) : (H.putJob j x).job k = if k = j then x else H.job k := tabGet_tabSet ..
theorem Hall.port_putPort (H : Hall) (p k : Nat) (x : Port) :
    (H.putPort p x).port k = if k = p then x else H.port k := tabGet_tabSet ..
theorem Hall.row_putRow (H : Hall) (r k : Nat) (x : URow) : (H.putRow r x).row k = if k = r then x else H.row k := tabGet_tabSet ..

end Sys2Proof.Machine
end

