-- ==== Sys2Proof/Laws/Queue.lean ====
section
/-! SUPPORT. What the operations on queues can do: the frame of kills, failures, completion records, fetching and the choice
of the holder. -/

namespace Sys2Proof.Machine

/-! ### Canonical memories -/

theorem State.memWf_of_eq {s t : State} (w : s.memWf) (hh : t.host = s.host) (hb : ∀ h, (t.hall h).hbm = (s.hall h).hbm) :
    t.memWf := by
  refine ⟨hh ▸ w.1, fun h => ?_⟩
  rw [hb h]; exact w.2 h

theorem State.memWf_modHall {s : State} (w : s.memWf) (h : Nat) (f : Hall → Hall)
    (hf : Mem.wf (s.hall h).hbm = true → Mem.wf (f (s.hall h)).hbm = true) : (s.modHall h f).memWf := by
  refine ⟨w.1, fun k => ?_⟩
  rw [State.hall_modHall]
  split
  · exact hf (w.2 h)
  · exact w.2 k

/-! ### The frame -/

/-- The state without what the operations on queues change. -/
def State.offQueue (s : State) : State := { s with jobs := [], parts := [], halls := [], host := [], msixOut := [], free := 0 }
def Hall.offQueue (H : Hall) : Hall := { H with hbm := [], stepReruns := [], jobs := [], xlogHead := 0, ports := [] }
def HJob.offQueue (j : HJob) : HJob := { j with rx := [], tx := [], unacked := [] }
def Part.offQueue (p : Part) : Part := { p with sems := [], loading := none, holder := none, last := 0, sliceOver := false, overran := false }

/-- What the operations on queues leave alone: everything but jobs, messages, the next free value, the bytes of rings and of the exception log, the re-run counts, the ledgers, what waits in ports, and the
semaphores, plan load and holder of a partition; memories stay canonical. -/
structure QueueFrame (s t : State) : Prop where
  rest : t.offQueue = s.offQueue
  hall : ∀ h, (t.hall h).offQueue = (s.hall h).offQueue
  hjob : ∀ h j, ((t.hall h).job j).offQueue = ((s.hall h).job j).offQueue
  part : ∀ v, (t.part v).offQueue = (s.part v).offQueue
  wf : s.memWf → t.memWf

namespace QueueFrame

theorem refl (s : State) : QueueFrame s s := ⟨rfl, fun _ => rfl, fun _ _ => rfl, fun _ => rfl, id⟩

theorem trans {s t u : State} (a : QueueFrame s t) (b : QueueFrame t u) : QueueFrame s u :=
  ⟨b.rest.trans a.rest, fun h => (b.hall h).trans (a.hall h), fun h j => (b.hjob h j).trans (a.hjob h j), fun v => (b.part v).trans (a.part v), b.wf ∘ a.wf⟩

variable {s t : State}

theorem modJob (h : QueueFrame s t) (q : Page) (f : Job → Job) : QueueFrame s (t.modJob q f) :=
  ⟨h.rest, h.hall, h.hjob, h.part, h.wf⟩

theorem bumpFree (h : QueueFrame s t) (n : Nat) : QueueFrame s { t with free := t.free + n } :=
  ⟨h.rest, h.hall, h.hjob, h.part, h.wf⟩

theorem modPart (h : QueueFrame s t) (v : Fn) (f : Part → Part) (hf : ∀ p, (f p).offQueue = p.offQueue) :
    QueueFrame s (t.modPart v f) where
  rest := h.rest
  hall := h.hall
  hjob := h.hjob
  part k := by
    rw [State.part_modPart]
    split
    · next e => subst e; exact (hf _).trans (h.part k)
    · exact h.part k
  wf := h.wf

theorem modHall (h : QueueFrame s t) (k : Nat) (f : Hall → Hall) (hf : ∀ H, (f H).offQueue = H.offQueue)
    (hj : ∀ H j, ((f H).job j).offQueue = (H.job j).offQueue)
    (hw : ∀ H, Mem.wf H.hbm = true → Mem.wf (f H).hbm = true) : QueueFrame s (t.modHall k f) where
  rest := h.rest
  hall i := by
    rw [State.hall_modHall]
    split
    · next e => subst e; exact (hf _).trans (h.hall i)
    · exact h.hall i
  hjob i j := by
    rw [State.hall_modHall]
    split
    · next e => subst e; exact (hj _ j).trans (h.hjob i j)
    · exact h.hjob i j
  part := h.part
  wf w := State.memWf_modHall (h.wf w) k f (hw _)

theorem ofFold {α : Type} {f : State → α → State} (hf : ∀ t a, QueueFrame s t → QueueFrame s (f t a)) (l : List α) :
    ∀ {t}, QueueFrame s t → QueueFrame s (l.foldl f t) := by
  induction l with
  | nil => exact id
  | cons a l ih => intro t h; exact ih (hf t a h)

theorem writeRing (h : QueueFrame s t) (q : Page) (hbm : Bool) (a : Nat) (b : List Byte) :
    QueueFrame s (t.writeRing q hbm a b) := by
  unfold State.writeRing
  split
  · exact h.modHall _ _ (by intro _; rfl) (by intro _ _; rfl) (by intro _ w; exact Mem.wf_memWrites b w _)
  · exact ⟨h.rest, h.hall, h.hjob, h.part, fun w => ⟨Mem.wf_memWrites b (h.wf w).1 _, (h.wf w).2⟩⟩

theorem msix (h : QueueFrame s t) (f : Fn) (v : Nat) : QueueFrame s (t.msix f v) :=
  ⟨h.rest, h.hall, h.hjob, h.part, h.wf⟩

theorem modCmd (h : QueueFrame s t) (q : Page) (slot : Nat) (f : Cmd → Cmd) : QueueFrame s (t.modCmd q slot f) := by
  unfold State.modCmd
  exact h.modJob ..

theorem modAtt (h : QueueFrame s t) (q : Page) (slot : Nat) (f : Attempt → Attempt) : QueueFrame s (t.modAtt q slot f) := by
  unfold State.modAtt
  exact h.modCmd ..

theorem setHolder (h : QueueFrame s t) (v : Fn) (j : Nat) : QueueFrame s (t.setHolder v j) := by
  unfold State.setHolder
  exact (h.modPart _ _ (by intro _; rfl)).modJob ..

theorem endOverrun (h : QueueFrame s t) (v : Fn) (j : Nat) : QueueFrame s (t.endOverrun v j) := by
  unfold State.endOverrun State.fresh
  dsimp only
  split
  · exact ((h.bumpFree 1).modPart _ _ (by intro _; rfl)).modJob ..
  · exact h.modPart _ _ (by intro _; rfl)

theorem rehold (h : QueueFrame s t) (v : Fn) : QueueFrame s (t.rehold v) := by
  unfold State.rehold
  dsimp only
  split
  · split
    · split
      · exact h
      · split
        · exact (h.endOverrun ..).setHolder ..
        · split
          · exact (h.endOverrun ..).setHolder ..
          · exact (h.endOverrun ..).modPart _ _ (by intro _; rfl)
    · split
      · exact h
      · split
        · exact h.setHolder ..
        · exact h.modPart _ _ (by intro _; rfl)
  · split
    · exact h.setHolder ..
    · exact h

theorem postRecord (h : QueueFrame s t) (q : Page) (c : Cmd) (status detail : Nat) (ok : Bool) (tst : DWord) :
    QueueFrame s (t.postRecord q c status detail ok tst) := by
  unfold State.postRecord
  dsimp only
  split
  · exact ((h.writeRing ..).modJob ..).msix ..
  · exact (h.writeRing ..).modJob ..

theorem stopImage (h : QueueFrame s t) (q : Page) (seq : Nat) : QueueFrame s (t.stopImage q seq) := by
  unfold State.stopImage
  exact ofFold (fun _ _ h => h.modHall _ _ (by intro _; rfl) (by intro _ _; rfl) (by intro _ w; exact w)) _ h

theorem dropAttempt (h : QueueFrame s t) (q : Page) (slot : Nat) : QueueFrame s (t.dropAttempt q slot) := by
  unfold State.dropAttempt
  have h1 := h.modPart (pageFn q) (fun p => { p.releaseAll (q, slot) with loading := match p.loading with
        | some l => if l.page = q ∧ l.slot = slot then none else some l
        | none => none }) (by intro _; rfl)
  dsimp only
  split
  · split
    · exact (h1.stopImage ..).modCmd ..
    · exact h1.modCmd ..
  · exact h1.modCmd ..

theorem countRerun (h : QueueFrame s t) (q : Page) (c : Cmd) : QueueFrame s (t.countRerun q c) := by
  unfold State.countRerun
  split
  · exact ofFold (fun _ _ h => h.modHall _ _ (by intro _; rfl) (by intro _ _; rfl) (by intro _ w; exact w)) _ h
  · exact h

theorem postFailed (h : QueueFrame s t) (q : Page) : QueueFrame s (t.postFailed q) := by
  unfold State.postFailed
  split
  · exact h
  · split
    · split
      · exact h
      · dsimp only
        split
        · exact (h.postRecord ..).modJob ..
        · exact (ofFold (fun _ _ h => (h.countRerun ..).dropAttempt ..) _ (h.postRecord ..)).modJob ..
    · exact h

theorem drainFailed (h : QueueFrame s t) (q : Page) : QueueFrame s (t.drainFailed q) := by
  unfold State.drainFailed
  exact ofFold (fun _ _ h => h.postFailed q) _ h

theorem dropMezz (h : QueueFrame s t) (k j seq : Nat) : QueueFrame s (t.modHJob k j (·.dropMezz seq)) := by
  unfold State.modHJob
  refine h.modHall _ _ (by intro _; rfl) (fun H i => ?_) (by intro _ w; exact w)
  rw [Hall.job_putJob]
  split
  · next e => subst e; rfl
  · rfl

theorem failCmd (h : QueueFrame s t) (q : Page) (slot code detail : Nat) : QueueFrame s (t.failCmd q slot code detail) := by
  unfold State.failCmd
  dsimp only
  split
  · exact (((ofFold (fun _ _ h => h.dropMezz ..) _ (h.dropAttempt ..)).modCmd ..).drainFailed ..).rehold ..
  · exact (((h.dropAttempt ..).modCmd ..).drainFailed ..).rehold ..

theorem ite {c : Prop} [Decidable c] {x y : State} (hx : QueueFrame s x) (hy : QueueFrame s y) :
    QueueFrame s (if c then x else y) := by
  by_cases hc : c
  · rw [if_pos hc]; exact hx
  · rw [if_neg hc]; exact hy

theorem killCmd (h : QueueFrame s t) (q : Page) (slot : Nat) (fault : Bool) : QueueFrame s (t.killCmd q slot fault) := by
  unfold State.killCmd
  split
  · exact h
  · next c _ =>
    have h2 := (h.countRerun q c).dropAttempt q slot
    generalize (t.countRerun q c).dropAttempt q slot = u at h2
    generalize (if fault = true then c.faultKills + 1 else c.faultKills) = n
    exact ite (ite ((h2.modCmd ..).failCmd ..) ((h2.modCmd ..).rehold ..)) h

theorem log (h : QueueFrame s t) (k : Nat) (e : LogEnt) : QueueFrame s (t.log k e) := by
  unfold State.log
  refine h.modHall _ _ (fun H => ?_) (fun H j => ?_) (fun H w => ?_) <;> unfold Hall.xlog <;> split
  · rfl
  · rfl
  · rfl
  · rfl
  · exact w
  · exact Mem.wf_memWrites _ w _

theorem logPoison (h : QueueFrame s t) (q : Page) (x : Submitted) : QueueFrame s (t.logPoison q x) := by
  unfold State.logPoison
  split
  · exact h.log ..
  · exact h

theorem fetchOne (h : QueueFrame s t) (q : Page) : QueueFrame s (t.fetchOne q) := by
  unfold State.fetchOne
  dsimp only
  split
  · exact ((h.bumpFree 64).logPoison ..).modJob ..
  · exact (h.logPoison ..).modJob ..

theorem fetchLoop (q : Page) (n : Nat) : ∀ {t : State}, QueueFrame s t → QueueFrame s (t.fetchLoop q n) := by
  induction n with
  | zero => exact fun h => h
  | succ n ih =>
    intro t h
    unfold State.fetchLoop
    dsimp only
    split
    · exact ih (h.fetchOne q)
    · exact h

theorem fetchAll (h : QueueFrame s t) (q : Page) : QueueFrame s (t.fetchAll q) := by
  unfold State.fetchAll
  exact ((fetchLoop q _ h).drainFailed ..).rehold ..

theorem hostSubmit (h : QueueFrame s t) (q : Page) (op : Nat) (d : Desc) : QueueFrame s (t.hostSubmit q op d) := by
  unfold State.hostSubmit
  dsimp only
  split
  · exact h
  · exact ((h.writeRing ..).modJob ..).fetchAll ..

end QueueFrame

/-! ### The queue of one page -/

/-- Choosing the holder changes a page's slice bookkeeping only. -/
theorem State.job_rehold (s : State) (v : Fn) (q : Page) :
    (s.rehold v).job q = { s.job q with sliceCut := ((s.rehold v).job q).sliceCut, lastOverrun := ((s.rehold v).job q).lastOverrun } := by
  have set (s : State) (j : Nat) : (s.setHolder v j).job q = { s.job q with
      sliceCut := ((s.setHolder v j).job q).sliceCut, lastOverrun := ((s.setHolder v j).job q).lastOverrun } := by
    unfold State.setHolder
    rw [State.job_modJob]
    split
    · next e => subst e; rfl
    · rfl
  have ovr (s : State) (j : Nat) : (s.endOverrun v j).job q = { s.job q with
      sliceCut := ((s.endOverrun v j).job q).sliceCut, lastOverrun := ((s.endOverrun v j).job q).lastOverrun } := by
    unfold State.endOverrun State.fresh
    dsimp only
    split
    · rw [State.job_modJob]
      split
      · next e => subst e; rfl
      · rfl
    · rfl
  have both (s : State) (i j : Nat) : ((s.endOverrun v i).setHolder v j).job q = { s.job q with
      sliceCut := (((s.endOverrun v i).setHolder v j).job q).sliceCut,
      lastOverrun := (((s.endOverrun v i).setHolder v j).job q).lastOverrun } := by
    have a := set (s.endOverrun v i) j
    rw [ovr s i] at a
    exact a
  unfold State.rehold
  dsimp only
  split
  · split
    · split
      · rfl
      · split
        · exact both ..
        · split
          · exact both ..
          · exact ovr ..
    · split
      · rfl
      · split
        · exact set ..
        · rfl
  · split
    · exact set ..
    · rfl

/-- A command of a page, after one of its commands has changed. -/
theorem State.cmd?_modCmd (s : State) (q : Page) (slot : Nat) (f : Cmd → Cmd) (hf : ∀ c, (f c).slot = c.slot) (k : Nat) :
    (s.modCmd q slot f).cmd? q k = (s.cmd? q k).map fun c => if c.slot = slot then f c else c := by
  unfold State.cmd? State.modCmd
  rw [State.job_modJob_self]
  unfold Job.cmd? Job.modCmd
  dsimp only
  rw [List.find?_map]
  congr 1
  · congr 1
    funext c
    simp only [Function.comp]
    split
    · rw [hf]
    · rfl

/-- The attempt of a command that exists, after a change. -/
theorem State.att_modAtt (s : State) (q : Page) (slot : Nat) (f : Attempt → Attempt) (hc : (s.cmd? q slot).isSome = true) :
    (s.modAtt q slot f).att q slot = f (s.att q slot) := by
  unfold State.att State.modAtt
  rw [State.cmd?_modCmd _ _ _ (fun c => { c with att := f c.att }) (fun _ => rfl)]
  obtain ⟨c, e⟩ := Option.isSome_iff_exists.mp hc
  have hs : c.slot = slot := by
    have := List.find?_some e
    simpa using this
  simp [e, hs]

theorem State.cmd?_modAtt_isSome (s : State) (q : Page) (slot : Nat) (f : Attempt → Attempt) (k : Nat) :
    ((s.modAtt q slot f).cmd? q k).isSome = (s.cmd? q k).isSome := by
  unfold State.modAtt
  rw [State.cmd?_modCmd _ _ _ (fun c => { c with att := f c.att }) (fun _ => rfl)]
  simp

end Sys2Proof.Machine
end

