-- ==== Sys2Proof/Laws/Rows.lean ====
section
/-! SUPPORT. What a row can do: the outcome of every command, rows in a frozen device, an operation's row at its turn. -/

namespace Sys2Proof.Machine

/-! ### Every command's outcome -/

theorem modeRow_next {l : List (Nat × (Site → Upset → State → Out))} (h : ∀ e ∈ l, ∀ a u s, ∃ t, e.2 a u s = .next t) (k : Nat)
    (a : Site) (s : State) : ∃ t, modeRow l k a s = .next t := by
  unfold modeRow
  split
  · next e he => exact h e (List.mem_of_find?_eq_some he) ..
  · exact ⟨_, rfl⟩

theorem matRows_next : ∀ e ∈ matRows, ∀ a u s, ∃ t, e.2 a u s = .next t := by
  simp only [matRows, List.forall_mem_cons]
  exact ⟨fun _ _ _ => ⟨_, rfl⟩, fun _ _ _ => ⟨_, rfl⟩, fun _ _ _ => ⟨_, rfl⟩, fun _ _ _ => ⟨_, rfl⟩, by simp⟩

theorem eRows_next : ∀ e ∈ eRows, ∀ a u s, ∃ t, e.2 a u s = .next t := by
  simp only [eRows, List.forall_mem_cons]
  refine ⟨?_, ?_, ?_, ?_, ?_, ?_, ?_, ?_, ?_, ?_, ?_, ?_, ?_, ?_, ?_, ?_, ?_, by simp⟩ <;> exact fun _ _ _ => ⟨_, rfl⟩

theorem newelRows_next : ∀ e ∈ newelRows, ∀ a u s, ∃ t, e.2 a u s = .next t := by
  simp only [newelRows, List.forall_mem_cons]
  refine ⟨?_, ?_, ?_, ?_, ?_, ?_, ?_, ?_, ?_, ?_, ?_, ?_, ?_, ?_, by simp⟩ <;> exact fun _ _ _ => ⟨_, rfl⟩

theorem reduceRows_next : ∀ e ∈ reduceRows, ∀ a u s, ∃ t, e.2 a u s = .next t := by
  simp only [reduceRows, List.forall_mem_cons]
  refine ⟨?_, ?_, ?_, ?_, by simp⟩ <;> exact fun _ _ _ => ⟨_, rfl⟩

theorem opRow_next (o : Op) (a : Site) (s : State) : ∃ t, opRow o a s = .next t := by
  cases o with
  | matpass m => exact modeRow_next matRows_next ..
  | epass e => exact modeRow_next eRows_next ..
  | newel n => exact modeRow_next newelRows_next ..
  | reduce r => exact modeRow_next reduceRows_next ..
  | riser r => unfold opRow; dsimp only; split <;> exact ⟨_, rfl⟩
  | save v => unfold opRow; dsimp only; split <;> exact ⟨_, rfl⟩
  | recv r => unfold opRow; dsimp only; split <;> (try split) <;> exact ⟨_, rfl⟩
  | _ => exact ⟨_, rfl⟩

theorem hallTurns_next (a : Site) (l : List OpCtx) : ∀ s : State, ∃ t, hallTurns a l s = .next t := by
  induction l with
  | nil => exact fun s => ⟨s, rfl⟩
  | cons x r ih =>
    intro s
    obtain ⟨t, ht⟩ := opRow_next x.op a s
    simp only [hallTurns, ht]
    split
    · exact ⟨_, rfl⟩
    · exact ih t

theorem hallStep_next (a : Site) (s : State) : ∃ t, hallStep a s = .next t := hallTurns_next ..

theorem runHalls_next (q : Page) (slot : Nat) (l : List Nat) : ∀ s : State, ∃ t, runHalls q slot l s = .next t := by
  induction l with
  | nil => exact fun s => ⟨s, rfl⟩
  | cons h r ih =>
    intro s
    obtain ⟨t, ht⟩ := hallStep_next ⟨q, slot, h⟩ s
    simpa [runHalls, ht] using ih t

/-- The one command that can stop is a reading beyond the ratings (R335). -/
theorem exec_next (c : Instr) (s : State) (h : ∀ m, c = .vcoreCeilingUpdate m → Sensors.stress m = false) : Completes c s := by
  unfold Completes
  cases c
  case vcoreCeilingUpdate m => simp [exec, execVcoreCeilingUpdate, h m rfl]
  case run q st =>
    cases st
    · exact ⟨_, rfl⟩
    · simp only [exec, execRun]
      split
      · exact ⟨_, rfl⟩
      · exact runHalls_next ..
  all_goals first | exact ⟨_, rfl⟩ | (rename_i st; cases st <;> exact ⟨_, rfl⟩)

/-! ### Frozen devices -/

theorem whenRunning_frozen {s : State} (h : s.frozen = true) (f : State → State) : whenRunning s f = .next s := by
  simp [whenRunning, h]

theorem whenRunning_live {s : State} (h : s.frozen = false) (f : State → State) : whenRunning s f = .next (f s) := by
  simp [whenRunning, h]

theorem runOp_frozen {s : State} (h : s.frozen = true) (a : Site) (want : Plan → Op → Bool) (f : OpCtx → State → OpEnd) :
    runOp a want f s = .next s := whenRunning_frozen h _

/-! ### An operation's row -/

theorem opAt_head {s : State} {a : Site} {want : Plan → Op → Bool} {x : OpCtx} (h : s.opAt a want = some x) :
    ∃ r, s.opsAt a want = x :: r := by
  cases hl : s.opsAt a want with
  | nil => simp [State.opAt, hl] at h
  | cons y r => exact ⟨r, by simpa [State.opAt, hl] using h⟩

/-- An operation at its turn that does not wait ends the row; one that waits lets the next of its kind go on. -/
theorem turns_cons (f : OpCtx → State → OpEnd) (x : OpCtx) (r : List OpCtx) (s : State) :
    State.turns f (x :: r) s = match f x s with
      | .wait t => State.turns f r t
      | e => s.endOp x e := rfl

/-- At its turn a row does its operation. -/
theorem runOp_atTurn {s : State} {a : Site} {want : Plan → Op → Bool} {x : OpCtx} (h : AtTurn s a want x)
    (f : OpCtx → State → OpEnd) (hf : ∀ t, f x s ≠ .wait t) : runOp a want f s = .next (s.endOp x (f x s)) := by
  obtain ⟨r, hr⟩ := opAt_head h.2
  rw [runOp, whenRunning_live h.1, hr, turns_cons]
  split
  · next t e => exact absurd e (hf t)
  · rfl

/-- Operations that all wait, and change nothing as they do, leave the state as it is. -/
theorem turns_wait {f : OpCtx → State → OpEnd} {s : State} : ∀ {l : List OpCtx}, (∀ x ∈ l, f x s = .wait s) → State.turns f l s = s
  | [], _ => rfl
  | x :: r, h => by
    rw [turns_cons, h x (by simp)]
    exact turns_wait fun y hy => h y (by simp [hy])

/-- The row of a MATPASS ends the turn of the pass at its turn, or of one that runs in its place. -/
theorem matRow_atTurn {s : State} {a : Site} {k : Nat} {x y : OpCtx} {u : Upset} {e : OpEnd} (h : AtTurn s a (fun _ => Op.isMat k) x)
    (he : matTurn u (x.plan.passOps x.lh x.pass).length x s = (y, e)) (hw : ∀ t, e ≠ .wait t) :
    matRow k a u s = .next (s.endOp y e) := by
  obtain ⟨r, hr⟩ := opAt_head h.2
  rw [matRow, whenRunning_live h.1, hr]
  simp only [matTurns, he]

/-- With no operation of its kind at its turn a row leaves the state as it is. -/
theorem runOp_none {s : State} {a : Site} {want : Plan → Op → Bool} (h : s.opAt a want = none) (f : OpCtx → State → OpEnd) :
    runOp a want f s = .next s := by
  have hl : s.opsAt a want = [] := List.head?_eq_none_iff.mp h
  cases hf : s.frozen
  · rw [runOp, whenRunning_live hf, hl]; rfl
  · exact runOp_frozen hf a want f

/-- What the list of operations that may start says of each: its command, its plan and its place. -/
theorem opsAt_spec {s : State} {a : Site} {want : Plan → Op → Bool} {x : OpCtx} (h : x ∈ s.opsAt a want) :
    x.page = a.page ∧ x.slot = a.slot ∧ x.hall = a.hall ∧ s.plan? a.page = some x.plan ∧ s.cmd? a.page a.slot = some x.cmd
      ∧ x.cmd.phase = .running ∧ x.cmd.opcode = opRUN ∧ x.cmd.noWork = false ∧ a.hall ∈ s.pageHalls a.page
      ∧ want x.plan x.op = true ∧ x.off ∉ x.cmd.att.doneAt a.hall
      ∧ (x.plan.passOps x.lh x.cmd.desc.pass)[x.off]? = some x.op := by
  unfold State.opsAt at h
  split at h
  · next p c hp hc =>
    split at h
    · next hr =>
      obtain ⟨h1, h2, h3, h4⟩ := hr
      obtain ⟨k, _, hk⟩ := List.mem_filterMap.mp h
      split at hk
      · next o ho =>
        split at hk
        · next hq =>
          cases hk
          simp only [Bool.and_eq_true, Bool.not_eq_true', List.contains_eq_mem, decide_eq_false_iff_not] at hq
          exact ⟨rfl, rfl, rfl, hp, hc, h1, h2, by simpa using h3, by simpa using h4, hq.1.2, hq.1.1, ho⟩
        · cases hk
      · cases hk
    · cases h
  · cases h

/-- What the turn of an operation says of its command, its plan and its place. -/
theorem opAt_spec {s : State} {a : Site} {want : Plan → Op → Bool} {x : OpCtx} (h : s.opAt a want = some x) :
    x.page = a.page ∧ x.slot = a.slot ∧ x.hall = a.hall ∧ s.plan? a.page = some x.plan ∧ s.cmd? a.page a.slot = some x.cmd
      ∧ x.cmd.phase = .running ∧ x.cmd.opcode = opRUN ∧ x.cmd.noWork = false ∧ a.hall ∈ s.pageHalls a.page
      ∧ want x.plan x.op = true ∧ x.off ∉ x.cmd.att.doneAt a.hall
      ∧ (x.plan.passOps x.lh x.cmd.desc.pass)[x.off]? = some x.op := by
  have hm : x ∈ s.opsAt a want := List.mem_of_head? h
  exact opsAt_spec hm

/-! ### Statistics, and a leg that stands alone -/

/-- COARSE of merged entries is that of the last write (R189). -/
@[simp] theorem Stat.merge_coarse (a b : Stat) : (a.merge b).coarse = if b.wrote then b.coarse else a.coarse := rfl

@[simp] theorem Stat.merge_wrote (a b : Stat) : (a.merge b).wrote = (a.wrote || b.wrote) := rfl

theorem HJob.markAbsent_proposed (j : HJob) (id : XferId) : (j.markAbsent id).proposed = j.proposed := by
  unfold HJob.markAbsent; split <;> rfl

/-- A leg that stands alone waits for no answer of its partner (R274). -/
@[simp] theorem HJob.settleAlone_proposed (j : HJob) : j.settleAlone.proposed = [] := by
  have h : ∀ (l : List XferId) (k : HJob), (l.foldl HJob.markAbsent k).proposed = k.proposed := fun l => by
    induction l with
    | nil => exact fun _ => rfl
    | cons a l ih => exact fun k => (ih _).trans (k.markAbsent_proposed a)
  exact h j.proposed _

end Sys2Proof.Machine
end

