-- ==== Sys2Proof/Tests/Slice0.lean ====
section
/-! SUPPORT. Tests: terms that WellFormed refuses; for every statement with hypotheses a state and operands that meet them;
steps on small states, with results from the manual's tables or worked out by hand. -/

namespace Sys2Proof.Machine

set_option Elab.async false

/-! ### Small states -/

def tDesc : Desc := ⟨0, 0, 7, 0, 0, [0, 0, 0, 0], List.replicate 32 0⟩
/-- A descriptor with body fields at descriptor offsets: offset, value, length. -/
def tBody (l : List (Nat × Nat × Nat)) : Desc :=
  { tDesc with body := l.foldl (fun b (o, v, n) => setAt b (o - 32) (natLE v n)) (List.replicate 32 0) }
where
  setAt (b : List Byte) (o : Nat) (x : List Byte) : List Byte := b.take o ++ x ++ b.drop (o + x.length)

def tCmd (op : Nat) (d : Desc) (ph : CPhase) (a : Attempt) : Cmd :=
  { slot := 0, seq := 0, opcode := op, desc := d, tds := [], tens := [], known := false, phase := ph, kills := 0, faultKills := 0,
    race := false, absentF := false, firstT := none, mism := 0, evid := 0, evidP := 0, tauTest := false, att := a }

def tJob (l : List Cmd) : Job :=
  { Job.reset with enable := true, resident := true, cqBase := 0x10000, sqTail := l.length, fetch := l.length, cmds := l }
def tPart (p : Option Plan) : Part :=
  { Part.reset with bindReq := true, bound := true, plan := p, holder := some 0, last := 0 }
def tHall : Hall := { Hall.reset with present := true, domains := 9, holdBase := 0x100000, holdSegs := 16 }

/-- A serving device: hall 0 is partition 1 of one hall, job 0 holds it. -/
def tSt (H : Hall) (p : Option Plan) (l : List Cmd) : State :=
  { State.reset with
    selfDone := true, hallmap := 1, chainStage := .serving, linkStat := 1, numVFs := 1, vfEnable := true,
    halls := [(0, H)], parts := [(1, tPart p)], jobs := [(0, tJob l)] }

/-- A plan of one hall with one pass, number 1. -/
def tPlan (ops : List Op) (ts : List TensorRec) : Plan :=
  { planId := 5, strict := false, scissorF := false, test := false, phalls := 1, struct_ := [], tables := ⟨[], [], [], [], [], [], [], []⟩,
    funcs := [], tensors := ts,
    sched := [⟨[{ pass := 1, twins := 0, firstOp := 0, count := ops.length, sems := 0, semRel := 0, early := 0, gang := false,
                  update := false }], ops⟩],
    rescale := [], trees := [], routes := [[⟨0x10, [0]⟩]], vchans := [], seedM := [], streams := [], tau := 0x2E00,
    strikeWin := 65536, staging := 16, pols := [], bounds := ⟨50, 1000000, 40, 100⟩, scissor := none, pairDigest := [],
    ledgers := [], canon := (true, true, true), funcNc := 0, kept := [] }

/-! ### The block -/

/-- Hall 2 is under test, with three domains up. -/
def tRising : State :=
  { State.reset with time := 1, halls := [(2, { Hall.reset with test := { TestOut.none with result := 3 }, domains := 3 })] }

/-- Gallery 5 of hall 2 waits for its domain. -/
def tWaking : State := { State.reset with time := 1, halls := [(2, { Hall.reset with raising := [5] })] }

theorem witness_IdleStepPassesTime :
    State.reset.pending = [] ∧ State.reset.keyWait = false ∧ State.reset.keyBurn = none ∧ State.reset.freezing = false
      ∧ State.reset.time.getLsbD 0 = false ∧ ({ State.reset with time := 1 } : State).chainStage ≠ .starting
      ∧ (∀ h < 8, (({ State.reset with time := 1 } : State).hall h).rises = false)
      ∧ tRising.pending = [] ∧ tRising.time.getLsbD 0 = true ∧ (tRising.hall 2).test.result = 3 ∧ (tRising.hall 2).domains < 9
      ∧ (tWaking.hall 2).raising = [5] ∧ ((tWaking.hall 2).test.result ≠ 3 ∨ 9 ≤ (tWaking.hall 2).domains)
      ∧ tWaking.pending = [] ∧ tWaking.time.getLsbD 0 = true := by
  decide +kernel

theorem witness_StepKeepsMemoryCanonical : ∃ t, State.reset.memWf ∧ step State.reset = .next t :=
  ⟨_, ⟨by decide, fun _ => rfl⟩, rfl⟩

theorem witness_DescriptorRoundTrip : 0x07 < 256 ∧ tDesc.wf = true := by decide

theorem witness_FrozenDeviceHoldsWork : ({ State.reset with frozen := true } : State).frozen = true := by decide

/-! ### Queues -/

def tIdle : State := tSt tHall none []

theorem witness_SubmissionQueuesTheDescriptor :
    let s := tIdle
    let j := s.job 0
    let b := tDesc.bytes opFENCE
    let w := (s.writeRing 0 j.sqHbm (j.sqBase + 64 * j.sqTail) b).modJob 0 fun k => { k with sqTail := (j.sqTail + 1) % j.sqSize }
    tDesc.wf = true ∧ s.freezing = false ∧ (s.part (pageFn 0)).scState ≠ 3 ∧ j.enable = true ∧ j.halted = false ∧ j.cmds = [] ∧ j.fetch = j.sqTail
      ∧ j.sqTail < j.sqSize ∧ (j.sqTail + 1) % j.sqSize ≠ j.sqHead ∧ j.sqTail ≠ (j.sqTail + 1) % j.sqSize
      ∧ w.poisonAt 0 j.sqHbm (j.sqBase + 64 * j.sqTail) 64 = none ∧ (w.submit 0 b).err = none := by decide +kernel

theorem witness_DoorbellPointersTakeTheWrite :
    State.reset.freezing = false ∧ 63 < (State.reset.job 0).sqSize ∧ 63 < (State.reset.job 0).cqSize
      ∧ (State.reset.job 0).sqSize ≤ 64 ∧ (State.reset.job 0).cqSize ≤ 64 ∧ (2 : Fn) ≠ pageFn 0 := by decide

def tHalted : State := { tIdle with jobs := [(0, { tJob [] with halted := true, haltCode := 0x502, enable := false })] }

theorem witness_QueueControlActs :
    tIdle.freezing = false ∧ ({ tIdle with jobs := [(0, { tJob [] with enable := false })] } : State).ringBad 0 = false
      ∧ (State.reset.job 0).enable = false ∧ State.reset.ringBad 0 = true
      ∧ tHalted.freezing = false ∧ (tHalted.job 0).halted = true ∧ (tHalted.job 0).cmds = [] := by decide +kernel

/-- A FENCE in each phase of its way. -/
def tFence (ph : CPhase) : Cmd := tCmd opFENCE tDesc ph Attempt.empty

theorem witness_ErrorHaltsTheQueue :
    ((tSt tHall none [tFence .running, { tFence .waiting with slot := 1 }]).job 0).cmds
        = [tFence .running, { tFence .waiting with slot := 1 }]
      ∧ [{ tFence .waiting with slot := 1 }].all (fun x => x.slot != (tFence .running).slot) = true
      ∧ ((tSt tHall none [tFence .running]).job 0).cqFull = false ∧ 0x502 ≠ errReset := by decide +kernel

/-- A FENCE that waits with semaphore 3 in its first slot: ACQUIRE. -/
def tLock : Cmd := { tFence .waiting with desc := { tDesc with slots := [0x103, 0, 0, 0] } }

theorem witness_DispatchStartsTheCommand :
    let s := tSt tHall none [tLock]
    let r := s.rehold (pageFn 0)
    s.frozen = false ∧ (r.part (pageFn 0)).holder = some (pageJob 0) ∧ (r.part (pageFn 0)).sliceOver = false
      ∧ (r.part (pageFn 0)).scState ≠ 3 ∧ (r.job 0).halted = false ∧ r.canDispatch 0 = some tLock ∧ r.startErr 0 tLock = none
      ∧ (r.job 0).cmd? tLock.slot = some tLock ∧ tLock.desc.semsOf 1 = [(3, 0)] := by decide +kernel

theorem witness_CommitWindowOpens :
    let s := tSt tHall none [tFence .running]
    let full : State := { s with jobs := [(0, { tJob [tFence .running] with cqTail := 63 })] }
    (s.job 0).cmds = [tFence .running] ∧ (tFence .running).att.staged = [] ∧ s.frozen = false
      ∧ s.workDone 0 (tFence .running) = true ∧ (s.job 0).cqFull = false ∧ (s.part (pageFn 0)).scState ≠ 1
      ∧ (full.job 0).cmds = [tFence .running] ∧ (full.job 0).cqFull = true := by decide +kernel

theorem witness_CommitPointSignalsAndPosts :
    let s : State := { tIdle with jobs := [(0, { tJob [tFence .window] with enable := false })] }
    s.frozen = false ∧ (s.job 0).cmds = [tFence .window] ∧ (tFence .window).att.hits = []
      ∧ (s.job 0).enable = false ∧ (s.job 0).cqHbm = false := by decide +kernel

/-- A window whose command has staged face 1 of a tensor, written row 3 as physical row 9 and released row 4. -/
def tMany : Cmd :=
  let d : TDesc := ⟨fmtFP32, 0, 1, false, true, false, 2, 4, 256, 0x10000, 0x18000, 0, 0⟩
  tCmd opRUN tDesc .window { Attempt.empty with
    uses := [⟨0, d, 0, none, 0, 0, 0, 0, false, true, true⟩]
    staged := [⟨0, d, 1, 0, 0, 0, [], false, false, [], [], [], [], [], false, [], false⟩]
    twins := [⟨0, 3, 9, URow.free⟩], freed := [(0, 4)], riserDraw := [(0, 5, 2)], sampDraw := [(0, 1, 3)] }
def tManySt : State :=
  { tSt { tHall with jobs := [(0, { HJob.reset with rowMap := [(3, 7), (4, 8)] })], taken := [7, 8] } none [tMany] with
    jobs := [(0, { tJob [tMany] with enable := false })] }

theorem witness_CommitPointSignalsAndPosts_state :
    tManySt.frozen = false ∧ (tManySt.job 0).cmds = [tMany] ∧ tMany.phase = .window ∧ tMany.att.hits = []
      ∧ (tManySt.job 0).enable = false ∧ (tManySt.job 0).cqHbm = false ∧ tManySt.skips 0 tMany = false
      ∧ (∀ st ∈ tMany.att.staged, (tMany.att.useOfStaged st).isSome = true ∧ st.face = 1 ∧ st.d.pair ≠ (0, 0))
      ∧ (∀ w ∈ tMany.att.twins, w.phys = 9 ∧ (w.hall, w.lrow) ∉ tMany.att.freed)
      ∧ tManySt.pageHalls 0 = [0] ∧ tMany.att.stateBlk = [] ∧ ((tManySt.hall 0).job 0).rowMap = [(3, 7), (4, 8)] := by
  decide +kernel

/-- The step after it: face 1, row 9 for row 3, row 4 free, the lanes' words counted. -/
theorem test_commit_point : (match exec (.commit 0 .point) tManySt with
    | .next t => (t.hall 0).faces1 == [(0x10000, 0x18000)] && (t.hall 0).phys? 0 3 == some 9 && (t.hall 0).phys? 0 4 == some 8
        && tabGet 0 (t.hall 0).riser 5 == 2 && tabGet 0 (t.hall 0).sampler 1 == 3 && (t.job 0).commits == 1
    | _ => false) = true := by decide +kernel

/-- A RUN of pass 1 under the plan, with semaphore 3 held by its first slot. -/
def tRun (a : Attempt) : Cmd :=
  { tCmd opRUN (tBody [(32, 5, 8), (40, 1, 2), (44, 64, 4)]) .running a with
    desc := { tBody [(32, 5, 8), (40, 1, 2), (44, 64, 4)] with slots := [0x103, 0, 0, 0] } }

/-- A plan whose pass releases its first semaphore after its operation 0. -/
def tEarly : Plan :=
  { tPlan [.hallwait 0 0] [] with
    sched := [⟨[{ pass := 1, twins := 0, firstOp := 0, count := 1, sems := 1, semRel := 1, early := 0, gang := false,
                  update := false }], [.hallwait 0 0]⟩] }

theorem witness_SemaphoresCompareAndRelease :
    let c := tRun { Attempt.empty with done := [(0, [0])] }
    let s := tSt tHall (some tEarly) [c]
    (0xFFFF < 2 ^ 16) ∧ s.frozen = false ∧ s.cmd? 0 0 = some c ∧ s.plan? 0 = some tEarly ∧ c.dispatched = true
      ∧ c.opcode = opRUN ∧ (c.desc.sem 0).2.1 = 1 ∧ s.earlyDone 0 tEarly c 0 = true := by decide +kernel

/-- A FENCE that waits for semaphore 3 to reach 5. -/
def tWait : Cmd := { tFence .waiting with desc := { tDesc with slots := [0x50203, 0, 0, 0] } }
def tTx : TxEnt := ⟨⟨kPUSH, 0, 0, 3, 0, 0, 0⟩, 0x10, [0], 0, [], none, false, 0, false, 0, false, false⟩

theorem witness_TimeoutsFailTheCommand :
    let s := tSt tHall none [tWait]
    let r := tSt (tHall.putJob 0 { HJob.reset with tx := [tTx] }) none [tFence .running]
    s.frozen = false ∧ (s.job 0).cmds = [tWait] ∧ (s.job 0).cqFull = false ∧ (s.job 0).halted = false
      ∧ (s.job 0).enable = true ∧ tWait.phase = .waiting ∧ (s.part (pageFn 0)).semsReady tWait.desc = false
      ∧ (r.job 0).cmds = [tFence .running] ∧ (r.part (pageFn 0)).holder = some (pageJob 0)
      ∧ (tFence .running).phase = .running ∧ r.unreceipted 0 (tFence .running) = true := by decide +kernel

/-! ### Commands at work -/

/-- A dogleg tensor without a plane or a side list, in hall 0. -/
def tTd (t fmt rows cols a : Nat) : TDesc :=
  { fmtRaw := fmt, affRaw := 0, tensor := t, host := false, dogleg := true, rsv := false, rows := rows, cols := cols,
    pitch := 256, addr0 := a, addr1 := a + 0x8000, plane := 0, side := 0 }
def tUse (d : TDesc) : Use := ⟨0, d, 0, none, 0, 0, 0, 0, false, true, true⟩
def tRec (d : TDesc) : TensorRec := ⟨d.tensor, 0, d.fmtRaw, d.rows, d.cols, d.dogleg, 0⟩

def tA : TDesc := tTd 1 fmtFP32 2 4 0x10000
def tB : TDesc := tTd 2 fmtFP32 2 4 0x20000
def tMove (op : Nat) (b : List (Nat × Nat × Nat)) (us : List Use) : Cmd :=
  tCmd op (tBody b) .running { Attempt.empty with uses := us }

theorem ok_of {α : Type} {e : Except Nat α} {p : α → Bool}
    (h : (match e with | .ok a => p a | .error _ => false) = true) : ∃ a, e = .ok a ∧ p a = true := by
  cases e with
  | ok a => exact ⟨a, rfl, h⟩
  | error e => cases h

theorem some_of {α : Type} {e : Option α} {p : α → Bool}
    (h : (match e with | some a => p a | none => false) = true) : ∃ a, e = some a ∧ p a = true := by
  cases e with
  | some a => exact ⟨a, rfl, h⟩
  | none => cases h

/-- STORE of elements 0 to 4 of tensor 1. -/
def tStore : Cmd := tMove opSTORE [(36, 5, 4), (48, 0x4000, 8)] [tUse tA]

theorem witness_StoreTakesTheFace :
    let s := tSt tHall none [tStore]
    (s.frozen = false ∧ s.cmd? 0 0 = some tStore ∧ tStore.slot = 0 ∧ tStore.phase = .running ∧ tStore.opcode = opSTORE
      ∧ tStore.noWork = false ∧ tStore.att.finished = false ∧ tStore.att.uses = [tUse tA])
    ∧ ∃ b, s.unitData 0 (tUse tA) tStore.desc.part tStore.desc.first tStore.desc.count = .ok b ∧ (b.length == 20) = true :=
  ⟨by decide +kernel, ok_of (by decide +kernel)⟩

def tLoad : Cmd := tMove opLOAD [(36, 5, 4), (40, 0x4000, 8)] [tUse tA]
def tCopy : Cmd := tMove opCOPY [(36, 5, 4)] [tUse tA, tUse tB]

theorem witness_LoadAndCopyStage :
    let s := tSt tHall none [tLoad]
    let r := tSt tHall none [tCopy]
    (s.frozen = false ∧ s.cmd? 0 0 = some tLoad ∧ tLoad.slot = 0 ∧ tLoad.phase = .running ∧ tLoad.noWork = false
      ∧ tLoad.att.finished = false ∧ tLoad.att.staged = [] ∧ tLoad.opcode = opLOAD ∧ tLoad.desc.part ≤ 2 ∧ badList tA 0 [] = false
      ∧ tLoad.att.uses = [tUse tA]
      ∧ s.addrPoison 0 (tLoad.desc.b 40 8) (unitBytes tA tLoad.desc.part tLoad.desc.count) = none
      ∧ r.cmd? 0 0 = some tCopy ∧ tCopy.phase = .running ∧ tCopy.noWork = false ∧ tCopy.att.finished = false
      ∧ tCopy.att.staged = [] ∧ tCopy.opcode = opCOPY ∧ tCopy.desc.part ≤ 2 ∧ tCopy.att.uses = [tUse tA, tUse tB]
      ∧ tA.fmtRaw = tB.fmtRaw ∧ tA.rowBytes ≤ tA.pitch ∧ 0 + 5 ≤ tA.elems)
    ∧ ∃ b, r.unitData 0 (tUse tA) tCopy.desc.part tCopy.desc.first tCopy.desc.count = .ok b ∧ (b.length == 20) = true :=
  ⟨by decide +kernel, ok_of (by decide +kernel)⟩

/-- A packed ZL8 tensor with plane and side list, and a LOAD of n units of a part of it. -/
def tPk : TDesc := { tTd 1 (fmtZL8 + 0xC0) 2 32 0x10000 with plane := 0x30000, side := 0x40000 }
def tPkPlan : Plan := tPlan [.save ⟨0, false, false, 1, 9, 0, 0, 0⟩] [tRec tPk]
def tUnits (part first n : Nat) : Cmd :=
  tMove opLOAD [(32, part, 1), (36, n, 4), (40, 0x4000, 8), (56, first, 4)] [tUse tPk]

theorem witness_LoadAndCopyStage_parts :
    (∀ c ∈ [tUnits 0 32 32, tUnits 1 1 1, tUnits 2 0 1], let s := tSt tHall (some tPkPlan) [c]
      s.cmd? 0 0 = some c ∧ c.att.uses = [tUse tPk] ∧ c.noWork = false ∧ c.desc.part ≤ 2 ∧ s.host = [] ∧ bit (c.desc.b 40 8) 0 = false)
      ∧ Plan.isPacked (some tPkPlan) tPk.tensor = true ∧ tPk.w.side = true ∧ tPk.w.plane = true
      ∧ (∀ r < tPk.rows, tPk.planeBase 1 + tPk.rows * tPk.blocks ≤ tPk.base 1 + r * tPk.pitch
        ∨ tPk.base 1 + (r + 1) * tPk.pitch ≤ tPk.planeBase 1)
      ∧ (tUnits 0 32 32).desc.first + 32 ≤ tPk.elems ∧ (tUnits 1 1 1).desc.first + 1 ≤ tPk.rows := by decide +kernel

/-- A side list of zeros is well formed. -/
theorem witness_LoadAndCopyStage_side (n : Nat) : badList tPk 2 (memReads [] 0x4000 n) = false := by
  have : (readSide [] 0 tPk.elems).isNone = false := by decide +kernel
  simp [badList, this]

/-! ### Operations of a pass -/

def tAt : Site := ⟨0, 0, 0⟩
def tCalm : Upset := ⟨[], [], none⟩
/-- A hall whose job 0 has n logical rows, each of them the physical row of its number. -/
def tRows (n : Nat) (rows : Tab URow) : Hall :=
  { tHall with jobs := [(0, { HJob.reset with rowMap := (List.range n).map fun i => (i, i) })], unc := rows }
/-- A final row of one slot. -/
def tRow (sfmt : Nat) (v : Word) : URow := ⟨⟨1, 6, sfmt, 0, 2, [0], 1, 1⟩, List.replicate 64 v⟩
/-- The operation at its turn. -/
def tOp (op : Op) (ts : List TDesc) (H : Hall) (a : Attempt) : State := tSt H (some (tPlan [op] (ts.map tRec))) [tRun a]
def tX (op : Op) (ts : List TDesc) (a : Attempt) : OpCtx := ⟨0, 0, 0, 0, tPlan [op] (ts.map tRec), tRun a, 0, op⟩
def tUses (ts : List TDesc) : Attempt := { Attempt.empty with uses := ts.map tUse }

/-- Weights of ZI8, one output of one element; activations of ZL16, 64 token rows of one element. -/
def tW : TDesc := tTd 1 fmtZI8 1 1 0x10000
def tV : TDesc := tTd 2 fmtZL16 64 1 0x20000
def tMat : MatOp :=
  { kind := 0, column := false, slots := 0, release := false, gals := 1, wtensor := 1, xsrc := 2, ckFirst := 0, ckCount := 1,
    tiles := 1, chunks := 1, ubase := 0, xrow := 0, rescale := 0, sfmt := 1 }
def tBay : Bay :=
  { valid := true, fmt := fmtZI8, coarse := 0, tensor := 1, gen := 0, fmax := [0, 0], bind := none, chunks := [⟨0, 0, 1⟩],
    codes := [], fines := [], blk := 64, width := 64, wit := [], side := false }
def tMatHall : Hall := { tRows 64 [] with gals := [(0, { Gal.reset with powered := true, bays := [(0, tBay)] })] }
def tMatSt : State := tOp (.matpass tMat) [tW, tV] tMatHall (tUses [tW, tV])
def tMatX : OpCtx := tX (.matpass tMat) [tW, tV] (tUses [tW, tV])

theorem witness_MatpassCompletes :
    (AtTurn tMatSt tAt (fun _ => Op.isMat 0) tMatX ∧ tMatX.op = .matpass tMat)
    ∧ (∃ m, tMatSt.matpass tMatX tMat = .ok m ∧ (decide (m.bad = []) && !m.hold
        && (match (m.close tMatX tMat).drain tMatX with | .ok t => t.time == 0 | .error _ => false)) = true)
    ∧ (tMat.ckFirst = 0 ∧ (tMatSt.att 0 0).early = [] ∧ tMat.ckCount = 1 ∧ tMat.chunks = 1 ∧ tMat.groups tMatX.plan = 1)
    ∧ (tMatSt.att 0 0).use? 0 tMat.wtensor = some (tUse tW)
    ∧ (∃ a, tMatSt.matActs tMatX tMat = .ok a ∧ decide (a.len = 1) = true)
    ∧ (∃ s1, tMatSt.freshChunks tMatX (tUse tW) ((tMatSt.hall 0).galsOf tMat.gals) (tMat.needs tMatX.plan) = .ok s1
        ∧ (s1.free == 0) = true)
    ∧ (∀ n < 64, (tMatSt.viewRow 0 0 0 (tMat.ubase + n * slotCount tMat.slots)).tag.state = 0) :=
  ⟨⟨⟨rfl, by decide +kernel⟩, rfl⟩, ok_of (by decide +kernel), by decide +kernel,
    by decide +kernel,
    ok_of (by decide +kernel),
    ok_of (by decide +kernel), by decide +kernel⟩
def tFill (n : Nat) : Tab URow := (List.range n).map fun i => (i, tRow 8 0x3F800000)

/-- The gallery of tMatHall serves as operand A. -/
def tE : EOp :=
  { mode := eNEG, asrc := 0, bsrc := 3, dest := false, release := false, slots := 0, szero := false, gals := 1,
    atensor := 1, btensor := 0xFFFF, arow := 0, brow := 0, drow := 0, dtensor := 0xFFFF, const := 0, tiles := 1, sfmt := 1 }
def tESt : State := tOp (.epass tE) [tW] tMatHall (tUses [tW])
def tEX : OpCtx := tX (.epass tE) [tW] (tUses [tW])

theorem witness_ElementwiseCompletes :
    (AtTurn tESt tAt (fun _ => Op.isE eNEG) tEX ∧ tEX.op = .epass tE ∧ tE.dest = false)
    ∧ (∃ t1, tESt.epass tEX tE = .ok t1 ∧ (t1.time == 0) = true)
    ∧ (∃ r, tESt.eOperandA tEX tE = .ok r ∧ (r.2.length == 1) = true)
    ∧ (∃ v, tESt.eVectors tEX tE = .ok v ∧ v.2.isEmpty = true)
    ∧ (∀ i < 64, (tESt.viewRow 0 0 0 (tE.drow + i * slotCount tE.slots)).tag.state = 0) :=
  ⟨⟨⟨rfl, by decide +kernel⟩, rfl, rfl⟩, ok_of (by decide +kernel), ok_of (by decide +kernel), ok_of (by decide +kernel),
    by decide +kernel⟩

def tN : NewelOp := ⟨nADD, false, false, 0, 1, 2, 1, 0⟩
def tNSt : State := tOp (.newel tN) [] (tRows 3 (tFill 2)) (tUses [])
def tNX : OpCtx := tX (.newel tN) [] (tUses [])

theorem witness_NewelCompletes :
    (AtTurn tNSt tAt (fun _ => Op.isNewel nADD) tNX ∧ tNX.op = .newel tN)
    ∧ (∃ v, tNSt.newelIn tNX tN = .ok v ∧ (v.a.length == 1) = true)
    ∧ (∃ t1, tNSt.newel tNX tN = .ok t1 ∧ (t1.time == 0) = true)
    ∧ (tNSt.viewRow 0 0 0 2).tag.state = 0 :=
  ⟨⟨⟨rfl, by decide +kernel⟩, rfl⟩, ok_of (by decide +kernel), ok_of (by decide +kernel), by decide +kernel⟩

def tBl : BayloadOp := ⟨1, 1, 1, 0, 0, 1, 0, 1⟩
def tS : SaveOp := ⟨0, false, false, 1, 0xFFFF, 0, 0, 1⟩
def tRe : SaveOp := { tS with mode := 2, source := 2 }
def tSo : StoreOp := ⟨false, 0, 1, 0, 0, 1, 0, 4⟩
def tCo : CopyOp := ⟨1, 2, 0, 0, 1, 0, 0, 4⟩
def tC : TDesc := tTd 1 fmtFP32 4 2 0x30000

theorem witness_MemoryOperationsComplete :
    let b := tOp (.bayload tBl) [tW] tHall (tUses [tW])
    let s := tOp (.save tS) [tA] (tRows 1 (tFill 1)) (tUses [tA])
    let r := tOp (.save tRe) [tC, tB] tHall (tUses [tC, tB])
    let o := tOp (.store tSo) [tA] (tRows 1 (tFill 1)) (tUses [tA])
    let c := tOp (.hbmcopy tCo) [tA, tB] tHall (tUses [tA, tB])
    (AtTurn b tAt (fun _ => Op.isBayload) (tX (.bayload tBl) [tW] (tUses [tW]))
      ∧ ∃ t, b.bayload (tX (.bayload tBl) [tW] (tUses [tW])) tBl = .ok t ∧ (t.time == 0) = true)
    ∧ (AtTurn s tAt (fun _ => Op.isSave false) (tX (.save tS) [tA] (tUses [tA]))
      ∧ ∃ t, s.save (tX (.save tS) [tA] (tUses [tA])) tS = .ok t ∧ (t.time == 0) = true)
    ∧ (AtTurn r tAt (fun _ => Op.isSave true) (tX (.save tRe) [tC, tB] (tUses [tC, tB]))
      ∧ ∃ t, r.reblock (tX (.save tRe) [tC, tB] (tUses [tC, tB])) tRe = .ok t ∧ (t.time == 0) = true)
    ∧ (AtTurn o tAt (fun _ o => match o with | .store _ => true | _ => false) (tX (.store tSo) [tA] (tUses [tA]))
      ∧ ∃ t, o.storeRows (tX (.store tSo) [tA] (tUses [tA])) tSo = .ok t ∧ (t.time == 0) = true)
    ∧ (AtTurn c tAt (fun _ o => match o with | .hbmcopy _ => true | _ => false) (tX (.hbmcopy tCo) [tA, tB] (tUses [tA, tB]))
      ∧ ∃ t, c.hbmcopy (tX (.hbmcopy tCo) [tA, tB] (tUses [tA, tB])) tCo = .ok t ∧ (t.time == 0) = true) :=
  ⟨⟨⟨rfl, by decide +kernel⟩, ok_of (by decide +kernel)⟩, ⟨⟨rfl, by decide +kernel⟩, ok_of (by decide +kernel)⟩,
    ⟨⟨rfl, by decide +kernel⟩, ok_of (by decide +kernel)⟩, ⟨⟨rfl, by decide +kernel⟩, ok_of (by decide +kernel)⟩,
    ⟨⟨rfl, by decide +kernel⟩, ok_of (by decide +kernel)⟩⟩

def tHo : RiserOp := ⟨false, 0xFFFF, 0xFFFF, 0xFFFF, 0xFFFF, 0, 0, 0, 1, 0⟩
def tHanded : Attempt := { Attempt.empty with holdQ := [(0, 0, [0x3F800000])] }

theorem witness_HoldWritesTheValues :
    let full := tOp (.riser tHo) [] tHall tHanded
    let less := tOp (.riser tHo) [] tHall Attempt.empty
    AtTurn full tAt (fun _ => Op.isRiser false) (tX (.riser tHo) [] tHanded)
      ∧ tHo.elCount ≤ ((full.att 0 0).handed 0 tHo.tree).length
      ∧ AtTurn less tAt (fun _ => Op.isRiser false) (tX (.riser tHo) [] Attempt.empty)
      ∧ ((less.att 0 0).handed 0 tHo.tree).length < tHo.elCount
      ∧ (less.opsAt tAt fun _ => Op.isRiser false) = [tX (.riser tHo) [] Attempt.empty] :=
  ⟨⟨rfl, by decide +kernel⟩, by decide +kernel, ⟨rfl, by decide +kernel⟩, by decide +kernel, by decide +kernel⟩

def tAp : RiserOp := { tHo with apply := true, ptensor := 1, elCount := 4 }
def tApPlan : Plan := { tPlan [.riser tAp] [tRec tA] with pols := [⟨0, 0, 0, 3, 0xFFFF, []⟩] }
def tJudged (v : List (Nat × Verdict)) : Attempt := { tUses [tA] with verdict := v }
def tApSt (v : List (Nat × Verdict)) : State := tSt tHall (some tApPlan) [tRun (tJudged v)]
def tApX (v : List (Nat × Verdict)) : OpCtx := ⟨0, 0, 0, 0, tApPlan, tRun (tJudged v), 0, .riser tAp⟩
def tGo : Verdict := ⟨true, 0x3F800000, NormPkt.zero, false⟩
def tSkip : Verdict := ⟨false, 0x3F800000, NormPkt.zero, false⟩

theorem witness_ApplyFollowsTheVerdict :
    (AtTurn (tApSt []) tAt (fun _ => Op.isRiser true) (tApX [])
      ∧ ((tApSt []).att 0 0).verdict.find? (·.1 == 0) = none)
    ∧ (AtTurn (tApSt [(0, tSkip)]) tAt (fun _ => Op.isRiser true) (tApX [(0, tSkip)])
      ∧ ((tApSt [(0, tSkip)]).att 0 0).verdict.find? (·.1 == 0) = some (0, tSkip))
    ∧ (AtTurn (tApSt [(0, tGo)]) tAt (fun _ => Op.isRiser true) (tApX [(0, tGo)])
      ∧ ((tApSt [(0, tGo)]).att 0 0).verdict.find? (·.1 == 0) = some (0, tGo)
      ∧ (∃ a, (tApSt [(0, tGo)]).applyIn (tApX [(0, tGo)]) tAp = .ok a ∧ (a.p.2.k == 0) = true)
      ∧ (∃ p, tApPlan.policyOf tAp.ptensor = some p ∧ (p.opt == 3) = true)
      ∧ ((tApSt [(0, tGo)]).hall 0).poisonIn [(((tApSt [(0, tGo)]).hall 0).holdAt tAp 0, 4 * tAp.elCount)] = none) :=
  ⟨⟨⟨rfl, by decide +kernel⟩, by decide +kernel⟩, ⟨⟨rfl, by decide +kernel⟩, by decide +kernel⟩,
    ⟨rfl, by decide +kernel⟩, by decide +kernel, ok_of (by decide +kernel), some_of (by decide +kernel), by decide +kernel⟩

/-! ### Link operations -/

def tSe : SendOp := ⟨false, false, 0, 0, 0xFFFF, 0, 0, 1, 3⟩
def tRv : RecvOp := ⟨0, false, 0, 0, 0, 0xFFFF, 0, 0, 1, 3, 0xFFFF, 0⟩
def tPu : RecvOp := { tRv with mode := 2, tensor := 1, count := 2, ptensor := 1 }
def tMz : RecvOp := { tRv with mode := 3 }
def tId (kind : Nat) : XferId := ⟨kind, 0, 0, 3, 0, 0, 0⟩
/-- The identity of a Mezzanine transfer of command number 0: no place of its own but the first. -/
def tMzId (kind : Nat) : XferId := ⟨kind, 0, 0, 0, 0, 0, 0⟩
def tSent (id : XferId) : Attempt := { tUses [tA] with sent := [(0, id)] }
def tRx (id : XferId) (b : List Byte) : RxEnt := ⟨id, .full, b, 0x10, 0, 0, [0], false⟩
def tLink (rows : Tab URow) (rx : List RxEnt) (tx : List TxEnt) : Hall :=
  { tHall with unc := rows, jobs := [(0, { HJob.reset with rowMap := [(0, 0), (1, 1)], rx := rx, tx := tx })] }
def tZ (n : Nat) : List Byte := List.replicate n 0
/-- The header of an empty image of plan 5. -/
def tImage : List Byte :=
  natLE 0x5A4D5A5A 4 ++ natLE 1 1 ++ natLE 0 1 ++ natLE 0 2 ++ natLE 0 8 ++ natLE 5 8 ++ natLE 0 8 ++ natLE 0 8
    ++ natLE (crc64 []).toNat 8 ++ natLE 0 16

def tWaitSt (done : List Nat) : State := tOp (.hallwait 0 7) [] tHall { Attempt.empty with done := [(0, done)] }
def tWaitX (done : List Nat) : OpCtx := tX (.hallwait 0 7) [] { Attempt.empty with done := [(0, done)] }
def tSendSt : State :=
  tOp (.send tSe) [tA] (tLink (tFill 1) [] [{ tTx with receipt := some (1, 0) }]) (tSent (tId kPUSH))
def tSendX : OpCtx := tX (.send tSe) [tA] (tSent (tId kPUSH))
def tRecvSt : State := tOp (.recv tRv) [tA] (tLink [] [tRx (tId kPUSH) ((rowsLead 1).bytes ++ tZ 256)] []) (tUses [tA])
def tRecvX : OpCtx := tX (.recv tRv) [tA] (tUses [tA])
def tPullSt : State :=
  tOp (.recv tPu) [tA] (tLink [] [tRx (tId kPULLDATA) ((faceLead (tUse tA) 2).bytes ++ tZ 32)] []) (tSent (tId kPULLREQ))
def tPullX : OpCtx := tX (.recv tPu) [tA] (tSent (tId kPULLREQ))
def tMzSt : State :=
  tOp (.recv tMz) [tA] (tLink [] [tRx (tMzId kMEZZDATA) (Lead.none.bytes ++ tImage)] []) (tSent (tMzId kMEZZREQ))
def tMzX : OpCtx := tX (.recv tMz) [tA] (tSent (tMzId kMEZZREQ))

theorem witness_LinkOperationsComplete_hallwait :
    AtTurn (tWaitSt [7]) tAt (fun _ o => match o with | .hallwait .. => true | _ => false) (tWaitX [7])
      ∧ 7 ∈ (tWaitX [7]).cmd.att.doneAt ((tWaitSt [7]).phys 0 0)
      ∧ AtTurn (tWaitSt []) tAt (fun _ o => match o with | .hallwait .. => true | _ => false) (tWaitX [])
      ∧ 7 ∉ (tWaitX []).cmd.att.doneAt ((tWaitSt []).phys 0 0)
      ∧ ((tWaitSt []).opsAt tAt fun _ o => match o with | .hallwait .. => true | _ => false) = [tWaitX []] :=
  ⟨⟨rfl, by decide +kernel⟩, by decide +kernel, ⟨rfl, by decide +kernel⟩, by decide +kernel, by decide +kernel⟩

theorem witness_LinkOperationsComplete_send :
    AtTurn tSendSt tAt (fun _ o => match o with | .send _ => true | _ => false) tSendX
      ∧ (∃ d, tSendSt.sendData tSendX tSe = .ok d ∧ (d.length == 320) = true)
      ∧ (0, tSendSt.linkId tSendX.link kPUSH tSe.tkey (tSendSt.opRound tSendX false tSe.tkey) 0 0) ∈ (tSendSt.att 0 0).sent
      ∧ tSendSt.receiptOf tSendX.link (tSendSt.linkId tSendX.link kPUSH tSe.tkey (tSendSt.opRound tSendX false tSe.tkey) 0 0)
          = some 1 :=
  ⟨⟨rfl, by decide +kernel⟩, ok_of (by decide +kernel), by decide +kernel, by decide +kernel⟩

theorem witness_LinkOperationsComplete_recv :
    let b := (rowsLead 1).bytes ++ tZ 256
    AtTurn tRecvSt tAt (fun _ => Op.isRecv fun m => m < 2) tRecvX
      ∧ tRecvSt.fullOf tRecvX.link (tRecvSt.linkId tRecvX.link kPUSH 3 (tRecvSt.opRound tRecvX false 3) 0 0) = some b
      ∧ (∃ t, tRecvSt.takeRows tRecvX 0 (Lead.parse b).1 1 (Lead.parse b).2 = .ok t ∧ (t.time == 0) = true)
      ∧ (tRecvSt.viewRow 0 0 0 0).tag.state = 0 :=
  ⟨⟨rfl, by decide +kernel⟩, by decide +kernel, ok_of (by decide +kernel), by decide +kernel⟩

theorem witness_LinkOperationsComplete_pull :
    let b := (faceLead (tUse tA) 2).bytes ++ tZ 32
    AtTurn tPullSt tAt (fun _ => Op.isRecv fun m => m == 2) tPullX
      ∧ (0, tPullSt.linkId tPullX.link kPULLREQ 3 (tPullSt.opRound tPullX false 3) 0 0) ∈ (tPullSt.att 0 0).sent
      ∧ tPullSt.fullOf tPullX.link (tPullSt.linkId tPullX.link kPULLDATA 3 (tPullSt.opRound tPullX false 3) 0 0) = some b
      ∧ (∃ t, tPullSt.takeTensor tPullX 1 0 2 (Lead.parse b).1 (Lead.parse b).2 = .ok t ∧ (t.time == 0) = true) :=
  ⟨⟨rfl, by decide +kernel⟩, by decide +kernel, by decide +kernel, ok_of (by decide +kernel)⟩

theorem witness_LinkOperationsComplete_restore :
    AtTurn tMzSt tAt (fun _ => Op.isRecv fun m => m == 3) tMzX
      ∧ (0, tMzSt.mezzId tMzX.link kMEZZREQ (mezzBefore tMzX)) ∈ (tMzSt.att 0 0).sent
      ∧ tMzSt.fullOf tMzX.link (tMzSt.mezzId tMzX.link kMEZZDATA (mezzBefore tMzX)) = some (Lead.none.bytes ++ tImage)
      ∧ (∃ t, tMzSt.restore tMzX tMz (Lead.parse (Lead.none.bytes ++ tImage)).2 = .ok t ∧ (t.time == 0) = true) :=
  ⟨⟨rfl, by decide +kernel⟩, by decide +kernel, rfl, ok_of (by decide +kernel)⟩

/-- A tree of two leaves whose left one is this hall. -/
def tTree : TreeRec := ⟨1, false, 0, 1, 0, tZ 16, [rankWord 0 0, 0x10], [(leafWord 0, leafWord 1)]⟩
def tRd : ReduceOp := ⟨1, false, false, 1, 0xFFFF, 0, 1, 0, 1, 1, 0⟩
def tRdPlan : Plan := { tPlan [.reduce tRd] [] with trees := [tTree] }
def tUp : RxEnt :=
  tRx ⟨kUP, 0, 0, 1, 0, 0, leafWord 1⟩ ({ Lead.none with format := 8, cols := 64, rows := 1, leaves := 1 }.bytes ++ tZ 256)
def tRdSt : State := tSt (tLink (tFill 1) [tUp] []) (some tRdPlan) [tRun Attempt.empty]
def tRdX : OpCtx := ⟨0, 0, 0, 0, tRdPlan, tRun Attempt.empty, 0, .reduce tRd⟩

theorem witness_ReduceCompletes :
    (AtTurn tRdSt tAt (fun _ => Op.isReduce 1) tRdX
      ∧ (match tRdSt.reduce tRdX tRd with | .done t => (t.att 0 0).colls.length == 1 | _ => false) = true)
    ∧ ∃ c, tRdSt.reduceCtx tRdX tRd tTree = .ok c
      ∧ (match tRdSt.child c 0 (leafWord 1) with | .ok (.value v) => v.list.isEmpty && v.leaves == 1 | _ => false) = true :=
  ⟨⟨⟨rfl, by decide +kernel⟩, by decide +kernel⟩, ok_of (by decide +kernel)⟩

def tLone : TreeRec := ⟨1, false, 0, 1, 0, tZ 16, [rankWord 0 0], []⟩
def tGangPlan : Plan := { tPlan [] [] with trees := [tLone] }
def tGang : Cmd := tMove opGANG [(32, 1, 2), (34, 1, 1), (40, 1, 4)] [tUse tA, tUse tB]
def tGangSt : State := tSt tHall (some tGangPlan) [tGang]
def tCkpt : Cmd :=
  { tMove opCHECKPOINT [(36, 1, 4)] [] with att := { Attempt.empty with sent := [(0, tMzId kMEZZ)] } }
def tCkptSt : State :=
  tSt (tLink [] [] [{ tTx with id := tMzId kMEZZ, receipt := some (1, 0) }]) (some tGangPlan) [tCkpt]

theorem witness_FenceCheckpointAndGangFinish :
    (let p := { tFence .running with desc := tBody [(32, 1, 1)] }
     (tSt tHall none [tFence .running]).cmd? 0 0 = some (tFence .running) ∧ (tFence .running).opcode = opFENCE
      ∧ (tFence .running).desc.peer = false ∧ p.desc.peer = true
      ∧ (tSt tHall none [p]).peersDone 0 = true
      ∧ (tSt (tHall.putJob 0 { HJob.reset with tx := [tTx] }) none [p]).peersDone 0 = false)
    ∧ (tCkptSt.cmd? 0 0 = some tCkpt ∧ tCkpt.phase = .running ∧ tCkpt.opcode = opCHECKPOINT ∧ tCkpt.noWork = false
      ∧ tCkpt.att.finished = false ∧ tCkptSt.plan? 0 = some tGangPlan ∧ tCkptSt.pageHalls 0 = [0]
      ∧ (0, tCkptSt.mezzId ⟨0, 0, 0, 0, tGangPlan, 0⟩ kMEZZ 0) ∈ tCkpt.att.sent
      ∧ (tCkptSt.receiptOf ⟨0, 0, 0, 0, tGangPlan, 0⟩ (tCkptSt.mezzId ⟨0, 0, 0, 0, tGangPlan, 0⟩ kMEZZ 0)).isSome = true)
    ∧ (∃ b, (tCkptSt.unsure tCkpt).slotImage 0 tCkpt 0 = .ok b ∧ (b.length == 576) = true)
    ∧ (tGangSt.cmd? 0 0 = some tGang ∧ tGang.phase = .running ∧ tGang.opcode = opGANG ∧ tGang.noWork = false
      ∧ tGang.att.finished = false ∧ tGang.desc.gangOp = 1)
    ∧ (∃ g, tGangSt.gangCtx 0 tGang = some g ∧ (match tGangSt.gangFace g with
        | .ok f => !((tGangSt.hall g.tgt.hall).job (pageJob 0)).treeBad g.c.tree g.c.round
          && (match State.collStep g.c (g.own f) g.c.shards tGangSt with
          | .ok (s1, true, roots) => (match s1.gangWrite 0 0 g (roots.filter fun v => g.c.tree.owner v.shard == g.rank) with
            | .ok t => !(t.att 0 0).staged.isEmpty
            | _ => false)
          | _ => false)
        | _ => false) = true) :=
  ⟨by decide +kernel, by decide +kernel, ok_of (by decide +kernel), by decide +kernel, some_of (by decide +kernel)⟩
/-! ### Timers of links -/

def tUpTx : TxEnt := { tTx with id := ⟨kUP, 0, 0, 1, 0, 0, leafWord 1⟩ }
def tPort : Port := { Port.reset with lanes := 0xFF, up := true }
/-- A reduction whose root value comes back, in the hall of the tree's second leaf. -/
def tLow : Plan :=
  { tPlan [.reduce { tRd with mode := 2 }] [] with trees := [{ tTree with ranks := [0x10, rankWord 0 0] }] }
def tLowSt : State :=
  tSt (tLink (tFill 1) [] []) (some tLow) [tRun { Attempt.empty with sent := [(0, tUpTx.id)] }]
def tEdgeSt : State := tSt (tLink (tFill 1) [] []) (some tRdPlan) [tRun Attempt.empty]

theorem witness_LinkTimersAct :
    let s : State := tSt { tLink [] [] [tUpTx] with ports := [(0, tPort)] } none []
    let h : State := tSt { tLink [] [] [{ tUpTx with held := true }] with ports := [(0, tPort)] } none []
    let id := s.xid 0 0 kUP 1 0 0 (leafWord 1)
    (s.frozen = false ∧ ((s.hall 0).job 0).tx? id = some tUpTx ∧ tUpTx.receipt = none
      ∧ ((h.hall 0).job 0).tx? id = some { tUpTx with held := true } ∧ (h.portOf 0).up = true)
    ∧ (∃ c, (tLowSt.collsAt tAt).head? = some c ∧ (c.up && c.down && c.shards.contains 0
        && c.tree.leafOf? 0 (tLowSt.rankOf c) == some 1
        && (tLowSt.att 0 0).sent.contains (0, tLowSt.upId c 0 (c.tree.top 1))
        && (tLowSt.fullOf c.k (tLowSt.downId c 0 (c.tree.top 1))).isNone) = true)
    ∧ (∃ c, tEdgeSt.clocked tAt 0 (leafWord 1) = some c ∧ ((tEdgeSt.collsAt tAt).contains c && c.up && c.shards.contains 0 && c.forced.isNone
        && c.tree.leafOf? 0 (tEdgeSt.rankOf c) == some 0 && (c.tree.awaits 0).contains (leafWord 1)
        && (((tEdgeSt.hall 0).job c.k.job).rx? (tEdgeSt.upId c 0 (leafWord 1))).isNone && !tEdgeSt.isPaired 0) = true) :=
  ⟨by decide +kernel, some_of (by decide +kernel), some_of (by decide +kernel)⟩

/-! ### Ports and frames -/

def tNet (p : Port) : State := tSt { tHall with ports := [(0, p)] } none []
def tData : Frame := { Frame0 with typ := tDATA, vc := 1, ports := [0] }

theorem witness_InOrderFramesAreTaken :
    let p := (tNet tPort).hall 0 |>.port 0
    (sealFrame tData).typ = tDATA ∧ p.usable = true ∧ frameOk (sealFrame tData) = true ∧ (sealFrame tData).seq = p.rxNext
      ∧ frameOk { sealFrame tData with seq := 1 } = false ∧ frameOk (sealFrame { tData with seq := 0xFFFF }) = true
      ∧ (sealFrame { tData with seq := 0xFFFF }).seq ≠ p.rxNext ∧ ({ sealFrame tData with vc := 2 } : Frame).seq = p.rxNext
      ∧ frameOk { sealFrame tData with vc := 2 } = false
      ∧ (let g := hopDone 0 { tData with hops := 2 }; ([g].filter fun g => !(arrived g && isStray g)) = [g])
      ∧ (0 : Nat) < 3 ∧ 7 ≤ ({ tPort with crcRun := 7 } : Port).crcRun ∧ ({ tPort with crcRun := 7 } : Port).usable = true := by
  decide +kernel

theorem witness_AcknowledgementsAndCredits :
    (((tNet tPort).hall 0).port 0).usable = true
      ∧ ∀ n ∈ [tLACK, tLNAK, tCREDIT], (sealFrame { Frame0 with typ := n, crVc := 1, crUnits := 4095 }).typ = n
        ∧ frameOk (sealFrame { Frame0 with typ := n, crVc := 1, crUnits := 4095 }) = true := by decide +kernel

theorem witness_FramesLeaveUnderCredit :
    let out := tNet { tPort with credits := [(1, 1)], txq := [tData] }
    let via := tNet { tPort with rxbuf := [{ tData with hops := 1 }] }
    out.frozen = false ∧ ((out.hall 0).port 0).usable = true ∧ ((((out.hall 0).port 0).retry.map frameSize).sum + frameSize tData ≤ 2 ^ 20)
      ∧ pickFrame ((out.hall 0).port 0).credits [] ((out.hall 0).port 0).txq = some tData
      ∧ pickRx (fun f => !arrived f) [] ((via.hall 0).port 0).rxbuf = some { tData with hops := 1 }
      ∧ (via.portOf 0).up = true ∧ ((via.hall 0).port 0).up = true ∧ tabGet 0 ((via.hall 0).port 0).withheld 1 = 0 := by
  decide +kernel

theorem witness_PortsTrainOrGoDown :
    let p := ((tNet tPort).hall 0).port 0
    let q := ((tNet { tPort with training := true, offer := 0x7F }).hall 0).port 0
    (2 : Nat) < 3 ∧ p.usable = true ∧ p.lanes.getLsbD 7 = true ∧ p.holdDown = false ∧ p.up = true
      ∧ (tNet tPort).freezing = false ∧ q.training = true ∧ q.holdDown = false ∧ lanesOf (0xFF &&& q.offer) = 7
      ∧ lanesOf (0x3F &&& q.offer) < 7
      ∧ ({ tNet tPort with frozen := true } : State).heldAt (portCtrlOff 0 0) = false := by decide +kernel

/-! ### Transfers -/

def tHdr (kind : Nat) : XHdr :=
  { kind := kind, job := 0, first := true, last := true, epoch := 0, key := 3, round := 0, shard := 0, node := 0, offset := 0,
    attempt := 0, code := 1, reason := 0 }
/-- A frame that has made its one hop to port 0 of hall 0. -/
def tIn (kind : Nat) (b : List Byte) : Frame :=
  { Frame0 with typ := tDATA, vc := 1, src := 0x10, hops := 1, hopIdx := 1, ports := [0], ret := [0], hdr := some (tHdr kind),
                payload := b }
def tGot (H : Hall) (p : Option Plan) (kind : Nat) (b : List Byte) : State :=
  tSt { H with ports := [(0, { tPort with rxbuf := [tIn kind b] })] } p []

theorem witness_TransfersFillTheLedger :
    (∃ r, (tGot tHall none kPUSH [1, 2]).takeRx 0 0 (fun x _ => x.kind == kPUSH) = some r
      ∧ ((tGot tHall none kPUSH [1, 2]).frozen == false && r.2.2.jobAt 0 r.2.1.job == some 0
        && ((r.2.2.hall 0).job r.2.1.job).epoch == r.2.1.epoch && !r.2.2.treeDiffers 0 r.1 r.2.1
        && r.2.1.round == ((r.2.2.hall 0).job r.2.1.job).counter kPUSH r.2.1.key && r.2.1.first && r.2.1.last
        && r.2.1.offset == 0 && (((r.2.2.hall 0).job r.2.1.job).rx? (xferOf r.2.1)).isNone) = true)
    ∧ (∃ r, (tGot tHall none kUP (tZ 64)).takeRx 0 0 (fun x _ => x.kind == kUP) = some r
      ∧ (r.2.2.ownerOf 0 == some 1 && (r.2.2.part 1).relayDue.isEmpty) = true)
    ∧ (∃ r, (tGot (tLink [] [] [tTx]) none kRECEIPT (xhdrBytes (xhdrOf tTx.id 0))).takeRx 0 0 (fun x _ => x.kind == kRECEIPT)
        = some r
      ∧ (let id := xferOf (parseXHdr r.1.payload)
         id.kind != kDIGEST && ((r.2.2.hall (r.2.2.hallFor 0 r.1.dest)).job id.job).tx? id == some tTx
          && r.2.1.code == 1) = true) :=
  ⟨some_of (by decide +kernel), some_of (by decide +kernel), some_of (by decide +kernel)⟩

def tPullPlan : Plan := tPlan [] [tRec tA]
def tBound : Hall := { tHall with gens := [⟨1, none, tA, 0⟩] }
def tAsk : List Byte := Lead.none.bytes ++ pullBody 5 1 0 2
def tMezz : Hall :=
  { tHall with mezzOn := true, mezzAddr := 2, mezzHall := 0, mezzBase := 0x200000, mezzSize := 1,
               hbm := memWrites [] 0x200004 [2] }

theorem witness_PullsAreServed :
    (∃ r, ({ tGot tHall none kPULLREQ tAsk with jobs := [] } : State).takeRx 0 0 (fun x _ => x.kind == kPULLREQ) = some r
      ∧ (r.2.2.ownerOf 0 == some 1 && (r.2.2.part 1).scState != 2 && (r.2.2.jobAt 0 r.2.1.job).isNone) = true)
    ∧ (∃ r, (tGot (tHall.putJob 0 { HJob.reset with epoch := 1 }) none kPULLREQ tAsk).takeRx 0 0 (fun x _ => x.kind == kPULLREQ)
        = some r
      ∧ (r.2.2.jobAt 0 r.2.1.job == some 0 && ((r.2.2.hall 0).job r.2.1.job).epoch != r.2.1.epoch && r.2.1.first) = true)
    ∧ (∃ r, (tGot tBound (some tPullPlan) kPULLREQ tAsk).takeRx 0 0 (fun x _ => x.kind == kPULLREQ) = some r
      ∧ (let b := (Lead.parse r.1.payload).2
         r.2.2.jobAt 0 r.2.1.job == some 0 && ((r.2.2.hall 0).job r.2.1.job).epoch == r.2.1.epoch
          && r.2.2.plan? 0 == some tPullPlan
          && r.2.2.binding? 0 (u16 b 8) r.2.1.job == some tA && tPullPlan.planId.toNat == u64 b 0
          && (tPullPlan.tensor? (u16 b 8)).isSome && decide (u32 b 12 + u32 b 16 ≤ tA.rows)
          && !((r.2.2.committedFace 0 tA).rowsSpans (u32 b 12) (u32 b 16)).any (r.2.2.hall 0).poisoned) = true)
    ∧ (∃ r, (tGot tMezz none kMEZZREQ Lead.none.bytes).takeRx 0 0 (fun x _ => x.kind == kMEZZREQ) = some r
      ∧ ((r.2.2.hall 0).mezzPermits r.1.src && memRead (r.2.2.hall 0).hbm
          ((r.2.2.hall 0).mezzSlotBase (fld (u8 (Lead.parse r.1.payload).2 0) 0 1) + 4) == 2 && (r.2.2.hall 0).poison.isEmpty)
        = true) :=
  ⟨some_of (by decide +kernel), some_of (by decide +kernel), some_of (by decide +kernel), some_of (by decide +kernel)⟩

theorem witness_ImagesArriveInTheirSlot :
    ∃ r, (tGot tMezz none kMEZZ (Lead.none.bytes ++ tImage)).takeRx 0 0 (fun x _ => x.kind == kMEZZ) = some r
      ∧ (let d := r.1.payload.drop 64
         r.2.1.first && r.2.1.last && (r.2.2.hall 0).mezzPermits r.1.src && d.length == 64 + u64 d 32
          && decide (64 + u64 d 32 ≤ (r.2.2.hall 0).mezzSlotLen) && crc64 (d.drop 64) == BitVec.ofNat 64 (u64 d 40)) = true :=
  some_of (by decide +kernel)
/-! ### Scissor pairs -/

abbrev Took : Type := Fn × Frame × XHdr × DBody × State

/-- A leg of FORM 1 whose partner is hall 0 of landing 5, over ports 0 and 1. -/
def tLeg : Plan :=
  { tPlan [] [] with scissor := some ⟨1, 0, 5, 0, 0, []⟩, routes := [[⟨rankWord 5 0, [0]⟩, ⟨rankWord 5 0, [1]⟩]] }
def tPaired (st : Nat) (H : Hall) (l : List Cmd) : State :=
  let s := tSt H (some tLeg) l
  { s with parts := [(1, { tPart (some tLeg) with scState := st })] }
def tBody9 (sub : Nat) : DBody := { DBody.of sub with result := 1, qseq := 1, digest := 9, pkey := 1, pnode := leafWord 1 }
def tDig (src : Nat) (x : XHdr) (b : List Byte) : Hall :=
  { tHall with ports := [(0, { tPort with rxbuf :=
      [{ Frame0 with typ := tDATA, vc := 14, src := src, hops := 1, hopIdx := 1, ports := [0], ret := [0], hdr := some x,
                     payload := Lead.none.bytes ++ b }] })] }
def tDigSt (sub st : Nat) (l : List Cmd) : State :=
  tPaired st (tDig (rankWord 5 0) (digestHdr 0 0) (tBody9 sub).bytes) l
def tOut : Cmd := tCmd opFENCE tDesc .running { Attempt.empty with digestOut := true, ownDigest := 9 }

theorem witness_EqualDigestsLetCommit :
    (∃ r : Took, (tDigSt 1 1 []).takeDigest 0 0 1 = some r
      ∧ ((tDigSt 1 1 []).frozen == false && decide (r.2.2.1.job < 16) && decide (1 ≤ r.1)
        && (r.2.2.2.2.job (pageOf r.1 r.2.2.1.job)).cmds.isEmpty) = true)
    ∧ (∃ r : Took, (tDigSt 1 1 [tOut]).takeDigest 0 0 1 = some r
      ∧ (let q := pageOf r.1 r.2.2.1.job
         decide (r.2.2.1.job < 16) && decide (1 ≤ r.1) && (r.2.2.2.2.job q).cmds == [tOut] && tOut.phase == .running
          && tOut.att.digestOut && !tOut.att.digestOk && (r.2.2.2.2.job q).qseq == r.2.2.2.1.qseq
          && r.2.2.2.1.digest == tOut.att.ownDigest) = true) :=
  ⟨some_of (by decide +kernel), some_of (by decide +kernel)⟩

theorem witness_PartnersLiveAndLeave :
    (∃ r : Took, (tDigSt 2 1 []).takeDigest 0 0 2 = some r ∧ (r.1 == 1) = true)
    ∧ (∃ r : Took, (tDigSt 7 1 []).takeDigest 0 0 7 = some r ∧ (r.1 == 1) = true)
    ∧ (∃ r : Took, (tDigSt 6 1 []).takeDigest 0 0 6 = some r ∧ ((r.2.2.2.2.part r.1).scState == 1) = true)
    ∧ (let s := tPaired 1 { tHall with ports := [(0, tPort)] } []
       s.frozen = false ∧ ((s.part 1).plan.bind Plan.scissor) = some ⟨1, 0, 5, 0, 0, []⟩ ∧ (s.part 1).paused = false
        ∧ (s.part 1).scState = 1 ∧ s.nextRoute 1 = some (0, rankWord 5 0, [0]) ∧ s.freezing = false)
    ∧ (let s : State := { tPaired 2 tHall [] with jobs := [] }
       s.freezing = false ∧ (s.part 1).scState = 2 ∧ s.allDisabled 1 = true ∧ (s.part 1).plan = some tLeg
        ∧ tLeg.scissor.isSome = true) :=
  ⟨some_of (by decide +kernel), some_of (by decide +kernel), some_of (by decide +kernel), by decide +kernel, by decide +kernel⟩

/-- The absent child of tBody9, as the ledger of hall 0 names it. -/
def tChild : XferId := ⟨kUP, 0, 0, 1, 0, 0, leafWord 1⟩
/-- A digest frame of the partner stands in the receive buffer beside a ledger and proposals of the leg's own. -/
def tAbs (sub result : Nat) (rx : List RxEnt) (mine : List XferId) : State :=
  tPaired 1 ((tDig (rankWord 5 0) (digestHdr 0 0) { tBody9 sub with result := result }.bytes).putJob 0
    { HJob.reset with rx := rx, proposed := mine }) []

theorem witness_AbsenceAndRelays_propose :
    (∃ r : Took, (tAbs 3 0 [] [tChild]).takeDigest 0 0 3 = some r
      ∧ ((tAbs 3 0 [] [tChild]).frozen == false && r.2.2.2.2.proposes r.1 r.2.2.1.job r.2.2.2.1) = true)
    ∧ (∃ r : Took, (tAbs 3 0 [] []).takeDigest 0 0 3 = some r
      ∧ (!r.2.2.2.2.proposes r.1 r.2.2.1.job r.2.2.2.1 && (r.2.2.2.2.childTaken r.1 r.2.2.1.job r.2.2.2.1).isNone
        && (r.2.2.2.2.nextRoute r.1).isSome) = true)
    ∧ (∃ r : Took, (tAbs 3 0 [{ tRx tChild [] with st := .open_ }] []).takeDigest 0 0 3 = some r
      ∧ (!r.2.2.2.2.proposes r.1 r.2.2.1.job r.2.2.2.1
        && (r.2.2.2.2.childTaken r.1 r.2.2.1.job r.2.2.2.1).map (fun e => e.2.st) == some .open_) = true) :=
  ⟨some_of (by decide +kernel), some_of (by decide +kernel), some_of (by decide +kernel)⟩

theorem witness_AbsenceAndRelays_answer :
    (∃ r : Took, (tAbs 4 1 [] [tChild]).takeDigest 0 0 4 = some r
      ∧ (r.2.2.2.1.result == 1 && (r.2.2.2.2.part r.1).halls == [0]) = true)
    ∧ (∃ r : Took, (tAbs 4 2 [] [tChild]).takeDigest 0 0 4 = some r
      ∧ (r.2.2.2.1.result != 1 && (r.2.2.2.2.part r.1).halls == [0]) = true) :=
  ⟨some_of (by decide +kernel), some_of (by decide +kernel)⟩

/-- A RELAY of a PUSH, in one frame, with a DEST. -/
def tRelaySt (dest : Nat) : State :=
  tPaired 1 { tHall with ports := [(0, { tPort with rxbuf :=
    [{ Frame0 with typ := tDATA, vc := 14, src := 0x10, dest := dest, hops := 1, hopIdx := 1, ports := [0], ret := [0],
                   hdr := some (digestHdr 0 0),
                   payload := Lead.none.bytes ++ (DBody.of 5).bytes ++ xhdrBytes (tHdr kPUSH) ++ [1, 2] }] })] } []
def isRelay (x : XHdr) (f : Frame) : Bool := x.kind == kDIGEST && (!x.first || (DBody.parse f.payload 64).sub == 5)

theorem witness_AbsenceAndRelays_relay :
    (∃ r : Frame × XHdr × State, (tRelaySt 0).takeRx 0 0 isRelay = some r
      ∧ (r.2.2.ownerOf 0 == some 1 && r.2.1.first && r.2.1.last && r.2.1.offset == 0 && r.1.dest == r.2.2.rank 0
        && (r.2.2.part 1).scState == 1 && (r.2.2.nextRoute 1).isSome) = true)
    ∧ (∃ r : Frame × XHdr × State, (tRelaySt (rankWord 5 0)).takeRx 0 0 isRelay = some r
      ∧ (let y := parseXHdr (bytesAt r.1.payload 128 32)
         let k := r.2.2.twinHall 1 r.1.dest
         let j := (r.2.2.hall k).job y.job
         r.1.dest != r.2.2.rank 0 && r.2.2.partnerRank 1 r.1.dest && r.2.2.jobAt k y.job == some 0 && j.epoch == y.epoch
          && y.kind == kPUSH && y.round == j.counter y.kind y.key && (j.rx? (xferOf y)).isNone
          && !r.2.2.treeDiffers 0 { r.1 with payload := r.1.payload.drop 160 } { y with first := true }) = true)
    ∧ (∀ e ∈ [tTx, { tTx with receipt := some (7, 0) }],
       let s := tPaired 1 { tLink [] [] [e] with ports := [(0, tPort)] } []
       s.ownerOf 0 = some 1 ∧ ((s.hall 0).job 0).tx? (s.xid 0 0 kPUSH 3 0 0 0) = some e ∧ (s.part 1).scState = 1
        ∧ (e.receipt = none ∨ e.receipt.map (·.1) = some 7) ∧ s.nextRoute 1 = some (0, rankWord 5 0, [0])) :=
  ⟨some_of (by decide +kernel), some_of (by decide +kernel), by decide +kernel⟩

/-! ### The sideband -/

def tSb (op : Nat) : Frame := sealFrame (sbFrame op (landingDest 5) (rankWord 7 0) 3)
def tSbSt : State := { tNet tPort with chainValid := true, chainAddr := 5, sbAccept := true }
def tSbHeld : State := { tSbSt with frozen := true, bySide := [7], frzSource := srcSide }

theorem witness_SidebandFramesAct :
    (tSbSt.chainValid = true ∧ (tSb 1).dest = landingDest tSbSt.chainAddr.toNat ∧ tSbSt.sbDup (tSb 1) = false
      ∧ tSbSt.sbGood 0 0 1 (tSb 1) = true ∧ tSbSt.sbAccept = true ∧ tSbSt.freezing = false)
    ∧ (let s : State := { tSbSt with sbAccept := false }
       s.sbDup (tSb 1) = false ∧ s.sbGood 0 0 1 (tSb 1) = true ∧ s.sbAccept = false)
    ∧ ((tSb 2).dest = landingDest tSbHeld.chainAddr.toNat ∧ tSbHeld.sbDup (tSb 2) = false
      ∧ tSbHeld.sbGood 0 0 2 (tSb 2) = true ∧ tSbHeld.freezing = true ∧ tSbHeld.byPin = false ∧ tSbHeld.byPorter = false
      ∧ tSbHeld.bySide = [rankChain (tSb 2).src] ∧ tSbHeld.held = [])
    ∧ (portNum 0 0 = (0 : BitVec 6).toNat ∧ ((tSbSt.hall 0).port 0).usable = true)
    ∧ tSbSt.sbGood 0 0 0x10 (tSb 0x10) = true
    ∧ (let s : State := { tSbSt with echoBusy := true }
       s.sbGood 0 0 0x11 (tSb 0x11) = true ∧ s.echoBusy = true ∧ portNum 0 0 = s.echoAsk.toNat) := by decide +kernel

/-! ### Slices -/

/-- Two jobs with work: job 0 holds the halls and has a slice. -/
def tTwo (late : Bool) : State :=
  { tSt tHall none [] with
    parts := [(1, { tPart none with sliceOver := late })]
    jobs := [(0, { tJob [tFence .running] with slice := 5 }), (1, tJob [tFence .waiting])] }

theorem witness_SlicesEnd :
    (let s : State := { tTwo false with jobs := [(0, { tJob [tFence .running] with slice := 5 })] }
     s.frozen = false ∧ (s.part 1).holder = some 0 ∧ (s.job 0).slice ≠ 0 ∧ (s.part 1).sliceOver = false
      ∧ (((jobsAfter 0).filter (· != 0)).any fun j => s.ready (pageOf 1 j)) = false)
    ∧ (((tTwo false).part 1).holder = some 0 ∧ ((tTwo false).job (pageOf 1 0)).slice ≠ 0 ∧ ((tTwo false).part 1).sliceOver = false
      ∧ (((jobsAfter 0).filter (· != 0)).any fun j => (tTwo false).ready (pageOf 1 j)) = true
      ∧ ((tTwo false).job (pageOf 1 0)).cmds = [tFence .running] ∧ (tFence .running).dispatched = true
      ∧ (tFence .running).inWindow = false ∧ (tFence .running).att.collective = false)
    ∧ (((tTwo true).part 1).holder = some 0 ∧ ((tTwo true).part 1).sliceOver = true
      ∧ ((tTwo true).job (pageOf 1 0)).cmds = [tFence .running] ∧ ((tTwo true).job (pageOf 1 0)).cqFull = false) := by
  decide +kernel

/-! ### Faults -/

theorem witness_LostHallsLeaveService :
    let s := tSt tHall none [tFence .window]
    s.hallOk 0 = true ∧ s.frozen = false ∧ (s.job 0).cmds = [tFence .window] ∧ (tFence .window).inWindow = true
      ∧ 0 ∈ s.pageHalls 0 := by decide +kernel

/-- tMatSt, whose gallery 0 has n strikes, the first at commit 0. -/
def tStruck (n : Nat) : State :=
  { tMatSt with halls := [(0, { tMatHall with gals := tMatHall.gals.map fun g => (g.1, { g.2 with strikes := n }) })] }

theorem witness_LostHallsLeaveService_mismatch :
    (AtTurn (tStruck 0) tAt (fun _ => Op.isMat 0) tMatX ∧ AtTurn (tStruck 1) tAt (fun _ => Op.isMat 0) tMatX)
    ∧ tMatX.op = .matpass tMat ∧ tMatX.cmd.faultKills < 15
    ∧ (∃ m, (tStruck 0).matpass tMatX tMat = .ok m ∧ (decide (m.bad = []) && !m.hold
        && (match (m.close tMatX tMat).drain tMatX with
          | .ok t => ((t.hall 0).gal 0).strikes == 0
          | .error _ => false)) = true)
    ∧ (∃ m, (tStruck 1).matpass tMatX tMat = .ok m ∧ (decide (m.bad = []) && !m.hold
        && (match (m.close tMatX tMat).drain tMatX with
          | .ok t => ((t.hall 0).gal 0).strikes == 1
              && decide ((t.hall 0).commits - ((t.hall 0).gal 0).firstStrike < t.strikeWin 0)
          | .error _ => false)) = true)
    ∧ 0 ∈ ((tStruck 0).hall 0).galsOf tMat.gals ∧ 0 ∈ ((tStruck 1).hall 0).galsOf tMat.gals :=
  ⟨⟨⟨rfl, by decide +kernel⟩, rfl, by decide +kernel⟩, rfl, by decide +kernel, ok_of (by decide +kernel), ok_of (by decide +kernel),
    by decide +kernel, by decide +kernel⟩

/-- tNSt, whose lane 5 has had a mismatch at commit 0. -/
def tLaned : State := { tNSt with halls := [(0, { tRows 3 (tFill 2) with resStrike := [(5, 0)] })] }

theorem witness_LostHallsLeaveService_residue :
    (AtTurn tNSt tAt (fun _ => Op.isNewel nADD) tNX ∧ AtTurn tLaned tAt (fun _ => Op.isNewel nADD) tNX)
    ∧ tNX.op = .newel tN ∧ tNX.cmd.faultKills < 15 ∧ ((tNSt.hall 0).resStrike.find? (·.1 == 5)) = none
    ∧ ((tLaned.hall 0).resStrike.find? (·.1 == 5)) = some (5, 0) ∧ (tLaned.hall 0).allCommits - 0 < 1048576
    ∧ (∃ t1, tNSt.newel tNX tN = .ok t1 ∧ (t1.time == 0) = true)
    ∧ (∃ t1, tLaned.newel tNX tN = .ok t1 ∧ (t1.time == 0) = true) :=
  ⟨⟨⟨rfl, by decide +kernel⟩, rfl, by decide +kernel⟩, rfl, by decide +kernel, by decide +kernel, by decide +kernel, by decide +kernel,
    ok_of (by decide +kernel), ok_of (by decide +kernel)⟩

/-- The same hall with no ledger, and a command that stages a tensor at 0x10000: an error in its other face. -/
theorem witness_LostHallsLeaveService_stages :
    ∀ n ∈ [14, 15], let c := { tMany with opcode := opRUN, phase := .running, faultKills := n }
      let s := tSt tHall none [c]
      s.hallOk 0 = true ∧ (s.hallCmds 0).find? (fun x => x.2.stages 0 0x18000 || s.inLedger x.1 0 0x18000) = some (0, c)
        ∧ c.stages 0 0x18000 = true ∧ s.inLedger 0 0 0x18000 = false ∧ s.cmd? 0 c.slot = some c
        ∧ (s.job 0).cmds = [c] ∧ (s.job 0).cqFull = false := by
  decide +kernel

/-- A FENCE of a job that has a ledger of one segment with an entry in it, killed by n faults before. -/
def tLedger (n : Nat) : Cmd := { tFence .running with faultKills := n }
def tLedgerSt (n : Nat) : State :=
  tSt (tHall.putJob 0 { HJob.reset with hbmSize := 1, ledger := 1, tx := [tTx] }) none [tLedger n]

theorem witness_LostHallsLeaveService_staged :
    ∀ n ∈ [14, 15], let s := tLedgerSt n
      s.hallOk 0 = true ∧ (s.hallCmds 0).find? (fun x => x.2.stages 0 65535 || s.inLedger x.1 0 65535) = some (0, tLedger n)
        ∧ s.cmd? 0 (tLedger n).slot = some (tLedger n) ∧ (s.job 0).cmds = [tLedger n] ∧ (s.job 0).cqFull = false := by
  decide +kernel

theorem witness_MemoryErrorsAreCounted :
    let s := tSt { tHall with taken := [7] } none []
    s.hallOk 0 = true ∧ s.paired 0 = none ∧ (s.hallCmds 0).find? (fun x => x.2.stages 0 64 || s.inLedger x.1 0 64) = none
      ∧ (2 : Nat) ≤ 2 ∧ (s.hallCmds 0).find? (fun x => x.2.twins 0 7) = none ∧ 7 ∈ (s.hall 0).taken
      ∧ 8192 < [1, 9000].foldl max 0 := by decide +kernel
/-! ### The load of a plan -/

/-- The load of n bytes of host memory at 0x4000. -/
def tPlanLoad (n : Nat) : Cmd := tMove opLOAD [(32, 3, 1), (36, n, 4), (40, 0x4000, 8)] []
def tPlanSt (b : List Byte) : State := { tSt tHall none [tPlanLoad b.length] with host := memWrites [] 0x4000 b }

/-- The image of 1,000 zeros fails its first check. -/
theorem witness_PlanLoadStandsBy :
    let b := List.replicate 1000 (0 : Byte)
    let s := tPlanSt b
    let c := tPlanLoad 1000
    s.frozen = false ∧ s.cmd? 0 0 = some c ∧ c.phase = .running ∧ c.opcode = opLOAD ∧ c.desc.part = 3 ∧ c.noWork = false
      ∧ (s.part (pageFn 0)).loading = none ∧ s.keyBurn = none ∧ s.addrPoison 0 (c.desc.b 40 8) c.desc.count = none
      ∧ c.desc.count = 1000 ∧ c.desc.b 40 8 = 0x4000
      ∧ (match readPlan (s.planCtx 1) b with | .error _ => true | .ok _ => false) = true := by decide +kernel

/-- Any image stands where the load reads it: a signed image of a plan, too long to be checked here by evaluation, is read
as it is. -/
theorem witness_PlanLoadStandsBy_image (b : List Byte) :
    (tPlanSt b).frozen = false ∧ (tPlanSt b).cmd? 0 0 = some (tPlanLoad b.length)
      ∧ (tPlanSt b).readAt 0 0x4000 b.length = b :=
  ⟨rfl, rfl, memReads_memWrites_same [] 0x4000 b⟩
/-! ### Power, resets and start-up -/

def tCool : Sensors := ⟨850, 850, 700, 0, 900, 80, 0, 70, true⟩

theorem witness_CoreVoltageFollowsTheCeilings :
    Sensors.stress { tCool with vcoreMv := 1001 } = true ∧ Sensors.stress { tCool with vcoreMv := 1000 } = false
      ∧ Sensors.stress tCool = false ∧ tIdle.porterRuns = true ∧ Sensors.trips tCool = false ∧ tCool.avsOk = true
      ∧ tIdle.tripped = false ∧ Sensors.trips { tCool with tjMax := 120 } = true
      ∧ Sensors.stress { tCool with tjMax := 120 } = false
      ∧ ({ tCool with avsOk := false } : Sensors).avsOk = false ∧ 2 ≤ ({ tIdle with avsFails := 2 } : State).avsFails
      ∧ State.reset.porterRuns = false ∧ ({ tIdle with tripped := true } : State).tripped = true
      ∧ State.reset.tripped = false ∧ Sensors.hot tCool = false ∧ Sensors.hot { tCool with tjMax := 120 } = true
      ∧ ({ tIdle with chainStage := .bypass } : State).porterRuns = false
      ∧ Sensors.trips { tCool with vsramMv := 850 } = true ∧ Sensors.stress { tCool with vsramMv := 850 } = false := by decide +kernel

/-- R331's limits: at 850 mV and 1,600 A (1,360 W), and at a junction of 101 °C, the next target is lower; at 800 mV and 1,500 A it is
Porter's. -/
theorem test_ceilings :
    tIdle.coreTarget { tCool with powerCeil := 900, thermalCeil := 900, vcoreMv := 850, vcoreMa := 1600000 } = 810
      ∧ tIdle.coreTarget { tCool with powerCeil := 900, thermalCeil := 900, tjMax := 101, vcoreMv := 850, vcoreMa := 1 } = 845
      ∧ tIdle.coreTarget { tCool with powerCeil := 860, thermalCeil := 900, vcoreMv := 800, vcoreMa := 1500000 } = 860 := by
  decide +kernel

def tFrame (t : Byte) (b : List Byte) : ChainFrame := sealChain ⟨t, 0, 0x40000, 0, b, 0⟩
def tOn : State := { tIdle with sysHigh := true, perstHigh := true, vcoreEn := true, chainValid := true, chainAddr := 5 }

theorem witness_ResetsRecordTheirCause :
    tOn.sysHigh = true ∧ tOn.tripped = false ∧ tOn.keyBurn = none ∧ ({ tOn with tripped := true } : State).tripped = true
      ∧ ({ tOn with sysHigh := false } : State).sysHigh = false ∧ tOn.vcoreEn = true ∧ tOn.perstHigh = true
      ∧ tOn.chainStage = .serving ∧ ({ tOn with linkStat := 0 } : State).linkStat = 0
      ∧ chainOk (tFrame cRESET []) = true ∧ (tFrame cRESET []).typ = cRESET ∧ tOn.chainMine (tFrame cRESET []) = true := by
  decide +kernel

theorem witness_FunctionResets :
    (1 : Nat) ≤ 8 ∧ (8 : Nat) ≤ 8 ∧ ({ tIdle with frozen := true } : State).freezing = true := by decide +kernel

def tPass : HallTest := ⟨[], 0, List.replicate 64 0, false, false⟩

theorem witness_SelfTestDecidesTheHalls :
    let s : State := { State.reset with chainStage := .starting }
    let r : State := { State.reset with chainStage := .serving, selfPair := 3 }
    let t : State := { tSt tHall none [] with parts := [] }
    s.chainStage = .starting ∧ r.chainStage = .serving ∧ r.selfDone = false ∧ r.selfPair < 4
      ∧ ({ r with selfPair := 4 } : State).selfPair = 4
      ∧ t.freezing = false ∧ t.selfBusy = false ∧ (1 : Byte) ≠ 0
      ∧ (∀ h < 8, (1 : Byte).getLsbD h = true → t.inPartition h = false ∧ (t.hall h).test.result ≠ 3)
      ∧ (let u : State :=
          { t with testing := 1, selfBusy := true, halls := [(0, { Hall.reset with test := { TestOut.none with result := 3 } })] }
         u.testing.getLsbD 0 = true ∧ (u.hall 0).test.result = 3)
      ∧ t.testing.getLsbD 0 = false ∧ t.selfDone = true := by decide +kernel

theorem witness_HostPortAnswers :
    let s : State := { State.reset with linkStat := 1 }
    s.linkStat ≠ 0 ∧ s.selfDone = false ∧ tIdle.linkStat ≠ 0 ∧ tIdle.selfDone = true ∧ tIdle.vfEnable = true
      ∧ ({ tIdle with vfEnable := false } : State).vfEnable = false ∧ (8 : Nat) ≤ 8 := by decide +kernel

/-- A job that its hall has room for. -/
def tFits : State :=
  { tSt { tHall with baySplit := 0, jobs := [(0, { HJob.reset with rows := 1 })] } none [] with
    jobs := [(0, { Job.reset with resident := false })] }

/-- Bounds of a slice, a hall in a partition and one in none, a resident job and one that is not. -/
theorem witness_HostPortAnswers_registers :
    tIdle.sliceBounds (pageFn 0) = (50, 1000000) ∧ ((0xF4240 : Word).toNat % 2 ^ 20 = 1000000)
      ∧ (tIdle.ownerOf 0 = some 1 ∧ (tIdle.job (pageOf 1 0)).resident = true)
      ∧ (tFits.ownerOf 0 = some 1 ∧ (tFits.job (pageOf 1 0)).resident = false)
      ∧ tIdle.inPartition 0 = true ∧ tIdle.inPartition 7 = false ∧ ((0x10000 : Word).toNat % 65536 = 0)
      ∧ ((0x10004 : Word).toNat % 65536 ≠ 0) ∧ ((3 : Word).getLsbD 1 = true) := by decide +kernel

/-! ### The management chain -/

theorem witness_ChainFramesAreServed :
    let walk := tFrame cWALK [0, 0, 1, 0, 63, 0, 0, 0]
    let read := tFrame cREAD (natLE 0xFFFFC 4)
    let write := tFrame cWRITE (natLE 0x194 4 ++ natLE 1 4)
    let hold := tFrame cWRITE (natLE offFreeze 4 ++ natLE 1 4)
    let pass := sealChain ⟨cREAD, 0, 6, 0, natLE 0 4, 0⟩
    let note := tFrame cNOTIFY []
    let resp := tFrame cRESP []
    tOn.chainStage = .serving
      ∧ (chainOk walk = true ∧ walk.typ = cWALK ∧ walk.payload.length = 8 ∧ u8 walk.payload 0 = 0 ∧ u8 walk.payload 4 < 64
          ∧ tOn.anyPlan = false)
      ∧ (chainOk read = true ∧ read.typ = cREAD ∧ tOn.chainValid = true ∧ tOn.chainMine read = true
          ∧ u32 read.payload 0 ≤ 0xFFFFF ∧ u32 read.payload 0 % 4 = 0)
      ∧ (chainOk write = true ∧ write.typ = cWRITE ∧ tOn.chainMine write = true ∧ u32 write.payload 0 ≤ 0xFFFFF
          ∧ u32 write.payload 0 ≠ offFreeze)
      ∧ (chainOk hold = true ∧ tOn.chainMine hold = true ∧ u32 hold.payload 0 = offFreeze ∧ u32 hold.payload 4 = 1
          ∧ tOn.freezing = false)
      ∧ (chainOk note = true ∧ note.typ = cNOTIFY ∧ tOn.chainMine note = true ∧ chainOk resp = true ∧ resp.typ = cRESP
          ∧ tOn.chainMine resp = true)
      ∧ (chainOk pass = true ∧ tOn.chainTakes pass = false ∧ pass.typ ≠ cWALK) := by decide +kernel

/-- A block that asks for an operation and is otherwise zero fails its form check. A block that passes every check cannot be
written out here: it names the device and the nonce, which are open constants. -/
theorem witness_KeyCommandsEnd :
    ∀ op ∈ [1, 2, 3], let s : State := { State.reset with host := memWrites [] 4 [BitVec.ofNat 8 op] }
      u8 s.keyBlock 4 = op ∧ s.freezing = false ∧ s.anyLoading = false ∧ s.keyBurn = none ∧ s.keyErr s.keyBlock = some 0x706 := by
  decide +kernel

theorem witness_KeyCommandsEnd_burn :
    let s : State := { State.reset with keyBurn := some (List.replicate 160 0) }
    s.pending = [] ∧ s.keyBurn = some (List.replicate 160 0) := by decide +kernel

/-! ### Freezes -/

theorem witness_FreezesStartAndEnd :
    let b : State := { tIdle with frozen := true, byPorter := true, frzSource := srcPorter }
    let p : State := { tIdle with frozen := true, byPin := true, pinLow := true, frzSource := srcPin }
    tIdle.freezing = false ∧ tIdle.selfDone = true ∧ (1 : Nat) ≠ 0 ∧ ({ tIdle with holding := true } : State).holding = true
      ∧ b.freezing = true ∧ b.held = [] ∧ b.byPin = false ∧ b.pinLow = false
      ∧ (1 : Word).toNat < (b.job 0).sqSize ∧ (63 : Word).toNat < (b.job 0).sqSize ∧ (b.job 0).sqSize = 64
      ∧ ({ b with held := [(pageFn 0, pageOff 0 0, 1), (pageFn 0, pageOff 0 0, 63)] } : State).held
        = [(pageFn 0, pageOff 0 0, 1), (pageFn 0, pageOff 0 0, 63)]
      ∧ p.freezing = true ∧ p.held = [] ∧ p.byPorter = false ∧ p.bySide = [] := by decide +kernel

/-! ### Windows and registers -/

/-- A frozen device whose window shows a space of hall 0 at an address. -/
def tShown (space addr : Nat) : State :=
  { tMatSt with frozen := true, rdwSel := BitVec.ofNat 32 (256 * space), rdwAddr := BitVec.ofNat 64 addr }

theorem witness_ReadOutWindow :
    let s := tShown 0 0xBFFFFFFFC
    s.frozen = true ∧ fld s.rdwSel.toNat 8 4 = 0 ∧ s.rdwAddr.toNat + 4 ≤ 0xC00000000
      ∧ (s.hall (fld s.rdwSel.toNat 0 3)).poisoned (s.rdwAddr.toNat, 4) = false ∧ tIdle.frozen = false := by decide +kernel

/-- An address in each space, at the end of an entry or of the space; and one beyond each space. -/
theorem witness_ReadOutWindow_spaces :
    (∀ x ∈ [(1, 8192), (2, 512), (3, 1024), (4, 8)], let s := tShown x.1 (x.2 - 4)
      fld s.rdwSel.toNat 8 4 = x.1 ∧ s.rdwAddr.toNat / x.2 < 512 ∧ s.rdwAddr.toNat % x.2 + 4 ≤ x.2
        ∧ ((s.hall 0).gal (fld s.rdwSel.toNat 16 6)).bays.find? (·.1 == s.rdwAddr.toNat / x.2) = some (0, tBay))
    ∧ (let s := tShown 5 (256 * 65535 + 252)
       fld s.rdwSel.toNat 8 4 = 5 ∧ s.rdwAddr.toNat % 4 = 0 ∧ s.rdwAddr.toNat / 256 < 65536 ∧ s.rowDark 0 65535 = false
        ∧ (s.rowShown 0 65535).data[63]? = some 0)
    ∧ (let s := tShown 6 (8 * 65535 + 4)
       fld s.rdwSel.toNat 8 4 = 6 ∧ s.rdwAddr.toNat % 8 ≤ 4 ∧ s.rdwAddr.toNat / 8 < 65536)
    ∧ (let s := tShown 7 0xFFFFFC
       fld s.rdwSel.toNat 8 4 = 7 ∧ s.rdwAddr.toNat + 4 ≤ 0x1000000)
    ∧ (let s := tShown 8 (16 * 511)
       fld s.rdwSel.toNat 8 4 = 8 ∧ s.rdwAddr.toNat % 16 = 0 ∧ s.rdwAddr.toNat / 16 < 512)
    ∧ (let s := tShown 9 (16 * 31)
       fld s.rdwSel.toNat 8 4 = 9 ∧ s.rdwAddr.toNat % 16 = 0 ∧ s.rdwAddr.toNat / 16 < 32)
    ∧ (let s := tShown 10 0
       10 ≤ fld s.rdwSel.toNat 8 4)
    ∧ (let s := tShown 9 0x1FD
       fld s.rdwSel.toNat 8 4 = 9 ∧ 0x200 < s.rdwAddr.toNat + 4) := by decide +kernel

/-- HALL_STEP of hall 0, whose halves are at 0x0 and 0x4 of the hall's page, holds a number of both halves. -/
def tStep : State := { tIdle with halls := [(0, { tHall with step := 0x500000006 })] }

theorem witness_CounterHighHalfIsLatched :
    (∃ off ∈ (List.range 1024).map (fun k => 0x100000 + 4 * k),
      (tStep.regAt 0 (areaOf off) == some (.low 0x500000006) && tStep.mayRead 0 (areaOf off)
        && tStep.regAt 0 (areaOf (off + 4)) == some .high && tStep.mayRead 0 (areaOf (off + 4))
        && areaOf off != .prt 0x19C && areaOf (off + 4) != .prt 0x19C && off % 4 == 0
        && !tabHas (tStep.fn 0).latch off) = true) := by decide +kernel

theorem witness_Bar2ReachesTheStack :
    tIdle.bar2Target 0 = some 0 ∧ tIdle.bar2Target 2 = none
      ∧ (let H := tIdle.hall 0
         stackBytes - 4 + [1, 2, 3, 4].length ≤ stackBytes ∧ Span.meets (stackBytes - 4, 4) H.holdSpan = false
          ∧ Span.meets (stackBytes - 4, 4) H.mezzSpan = false ∧ H.poisoned (stackBytes - 4, 4) = false
          ∧ Span.meets (0x100000, 4) H.holdSpan = true ∧ stackBytes < stackBytes - 3 + 4)
      ∧ (let M : State := { tIdle with halls := [(0, { tMezz with mezzSize := 1 })] }
         M.bar2Target 0 = some 0 ∧ Span.meets (0x200000, 4) (M.hall 0).mezzSpan = true
          ∧ Span.meets (0x200000, 4) (M.hall 0).holdSpan = false) := by decide +kernel

theorem witness_OddAccessesAreCounted : (16 ≠ 32 ∨ 0 % 4 ≠ 0) ∧ (32 ≠ 32 ∨ 0x102 % 4 ≠ 0) := by decide

/-! ### Partitions and jobs -/

/-- A hall whose log areas are set. -/
def tAreas : Hall :=
  { tHall with shrSlot := 2, shrBase := 0x400000, xlogSize := 1, xlogBase := 0x500000, clogSize := 1, clogBase := 0x600000 }

theorem witness_PartitionsBindAndUnbind :
    let s : State := { tSt tAreas none [] with parts := [] }
    let w : State := { s with parts := [(1, { Part.reset with bindReq := true })] }
    s.freezing = false ∧ (s.part 1).bindReq = false ∧ s.bindOk 1 0 0 false = true ∧ s.bindOk 1 0 0 true = true
      ∧ s.bindOk 1 7 0 false = false ∧ (w.part 1).bindReq = true ∧ (w.part 1).bound = false
      ∧ (tIdle.part 1).bindReq = true ∧ (tIdle.part 1).bound = true := by decide +kernel

theorem witness_JobsBecomeResident :
    tFits.freezing = false ∧ (tFits.job 0).enabled = false ∧ (tFits.job 0).resident = false ∧ (tFits.part (pageFn 0)).bound = true
      ∧ (∀ h ∈ (tFits.part (pageFn 0)).halls, (tFits.hall h).admits (tFits.residents (pageFn 0))
          (((tFits.part (pageFn 0)).plan.map Plan.staging).getD 0) (pageJob 0) = true)
      ∧ (let r : State := { tFits with jobs := [(0, { Job.reset with resident := true })] }
         (r.job 0).enabled = false ∧ (r.job 0).resident = true)
      ∧ tFits.epochBusy 0 0 = false ∧ (tFits.hall 0).mezzOn = false ∧ tFits.mezzMeets 0 = false := by decide +kernel

def tLoad3 : Cmd := { tCmd opLOAD tDesc .running Attempt.empty with desc := { tDesc with flags := 0 } }
def tLoading (st : Hall) (paired : Bool) (p : Plan) : State :=
  { tSt st none [tLoad3] with parts := [(1, { tPart none with loading := some ⟨0, 0, p, paired, false⟩ })] }
def tPairPlan : Plan := { tPlan [] [] with scissor := some ⟨0, 0, 0, 0, 0, []⟩, pairDigest := [7] }

theorem witness_PlansPairAndSwap :
    (let s := tLoading { tHall with taken := [] } true (tPlan [] [])
     s.frozen = false ∧ ((s.part 1).loading.map Loading.plan) = some (tPlan [] []) ∧ s.cmd? 0 0 = some tLoad3
      ∧ s.swapReady 1 ⟨0, 0, tPlan [] [], true, false⟩ = true
      ∧ ((s.part 1).halls.all fun h => (s.hall h).rowsFree && (s.hall h).holdValid.isEmpty) = true)
    ∧ (let s := tLoading { tHall with holdValid := [0] } true (tPlan [] [])
       s.swapReady 1 ⟨0, 0, tPlan [] [], true, false⟩ = true
        ∧ ((s.part 1).halls.all fun h => (s.hall h).rowsFree && (s.hall h).holdValid.isEmpty) = false)
    ∧ (let s := tLoading tHall false tPairPlan
       let rec_ : List Byte := [0, 1] ++ List.replicate 14 0
       s.frozen = false ∧ (s.part 1).loading = some ⟨0, 0, tPairPlan, false, false⟩ ∧ s.pairMatch 1 tPairPlan [7] rec_ = true ∧ s.pairMatch 1 tPairPlan [8] rec_ = false) := by
  decide +kernel

/-! ### Numbers -/

theorem witness_ProductOfLogs :
    (W.nan.cls = .nan) ∧ (W.zero.cls = .zero ∧ (W.inf false).cls = .inf) ∧ (⟨.fin, false, 5⟩ : W).cls = .fin := by decide

theorem witness_Zl16IsExact :
    (32767 : Nat) < 65536 ∧ (zl16ToW 2 0 0).cls = .fin ∧ (zl16ToW 3 0 0).cls = .fin ∧ bit 2 15 = bit 3 15
      ∧ (zl8ToW 200 0 0 false none).cls = .fin := by decide +kernel
/-! ### Ill-formed terms, one for each check of WellFormed -/

def tSite : Site := ⟨0, 0, 0⟩
def tNoArb : Arb := ⟨false, false⟩
def tNoUpset : Upset := ⟨[], [], none⟩

/-- A leaf's node word is admitted. -/
theorem test_wellFormed_admits :
    (Instr.unanswered 0 0 0 0 0 (leafWord 3) kUP).wf = true ∧ (Instr.deadlineExpiry tSite 0 (leafWord 3) tNoArb).wf = true
      ∧ (Instr.hallTestComplete 0 (some tPass)).wf = true := by decide +kernel

theorem test_wellFormed_refuses :
    ([Instr.run 128 (.work 0), .fence 0 (.work (2 ^ 32)), .fence 0 (.submit { tDesc with rsv2 := 65536 }),
      .fence 0 (.submit { tDesc with timeout := 2 ^ 32 }), .fence 0 (.submit { tDesc with rsv12 := 2 ^ 32 }),
      .fence 0 (.submit { tDesc with slots := [0] }), .fence 0 (.submit { tDesc with body := [] }), .commandDispatch 128,
      .commit 128 .window, .semaphoreEarlyRelease 0 (2 ^ 32), .doorbell 9 0 0, .semaphoreTimeout 128 tNoArb,
      .linkArrivalTimeout 0 (2 ^ 32) tNoArb, .save { tSite with hall := 8 }, .save { tSite with slot := 2 ^ 32 },
      .neg tSite { tNoUpset with mismatch := [64] }, .neg tSite { tNoUpset with parity := [(64, false)] },
      .neg tSite { tNoUpset with residue := some 64 }, .deadlineExpiry tSite (2 ^ 21) 0 tNoArb,
      .deadlineExpiry tSite 0 (2 ^ 32) tNoArb, .unanswered 8 0 0 0 0 0 0, .holdResend 0 16 0 0 0 0 0,
      .relayTimeout 0 0 65536 0 0 0 0, .unanswered 0 0 0 (2 ^ 32) 0 0 0, .unanswered 0 0 0 0 (2 ^ 21) 0 0,
      .unanswered 0 0 0 0 0 (2 ^ 32) 0, .unanswered 0 0 0 0 0 0 16, .push 0 5, .dataFrame 0 0 { tData with typ := 16 },
      .lack 0 0 { tData with vc := 16 }, .lnak 0 0 { tData with dest := 2 ^ 21 }, .credit 0 0 { tData with src := 2 ^ 21 },
      .dataFrame 0 0 { tData with payload := List.replicate 4097 0 }, .aliveSend 0, .sliceEnd 9, .echoGo 9 0,
      .laneDegrade 0 0 8, .portRetrainComplete 8 0 0 0, .retrain 9 0 0 false, .holdDown 0 0 5 true,
      .commitWindowOverrun 0 8, .hallLoss 8, .hbmUncorrectableError 0 0xC00000000, .hbmInterfaceError 0 32,
      .undercroftEccError 0 65536 true, .patrolScrub 0 0x60000000 1, .hbmConcWindow 0 [], .vcoreCeilingUpdate { tCool with tjHall := 8 },
      .vfFlr 0, .selftestComplete none (some (tPass, { tPass with galMisr := [] })),
      .selftestComplete none (some ({ tPass with failing := [(.galData 64, 1)] }, tPass)),
      .hallTestComplete 0 (some { tPass with failing := [(.retryBuffer 5, 1)] }), .hallTestComplete 8 none,
      .selftestGo 9 1, .configRequest 9 (.read 0), .spdmRequest 256 [], .walk (tFrame cWALK (List.replicate 256 0)), .keyProvision 9,
      .freeze 9 false false false, .thaw 9 false false false, .rdwinDataRead 9, .counterLowRead 0 0x1000000,
      .bar2Access 0 0x1000000000 none 4, .bound 0 0 0 0, .residentSet 0 128 false, .epochWrite 0 0 16 0, .mezzEnable 0 8 0 0,
      .invalidRegisterAccess 0 0 65 none, .registerWrite 0 0x1000000 0, .pairingDigest 1 [] [] [] [] ⟨[], 1, false⟩,
      .pairingDigest 1 (List.replicate 48 0) (List.replicate 16 0) [] [] ⟨[], 4, false⟩].all
        fun i => !i.wf) = true := by decide +kernel

/-! ### The manual's worked examples -/

/-- The nodes that the examples of 02_products_and_sums.md name. -/
def tNodes : Tables :=
  { Tables.empty with
    sb := List.replicate 8 0 ++ [38336, 0, 33184], sbd := List.replicate 10 0 ++ [-2352], db2 := [-65536],
    al := [0x40000000] ++ List.replicate 511 0 ++ [0x5A82799A] ++ List.replicate 86 0 ++ [0x5FFFF92F],
    ald := List.replicate 512 0 ++ [1028223] }

def tCode (n : Nat) : W := zl16ToW n 0 0

/-- An L-mode dot product: 0x401F_FFF3. -/
theorem test_dot_product :
    tNodes.chunkL ([0x4200, 0x3E00, 0xC000, 0x3E00].map tCode) ([0x4000, 0x4200, 0x4000, 0x4000].map tCode)
      = (0x401FFFF3, Flags.none) := by decide +kernel

/-- A two-element softmax, steps 1 and 2. -/
theorem test_softmax_exp : eExpV 0 0 = ⟨.fin, false, 0⟩ ∧ eExpV 0xBF615400 0 = ⟨.fin, false, -20805⟩ := by decide +kernel

/-- Steps 3 to 5. -/
theorem test_softmax_denominator :
    (tNodes.chunkL [tCode 0x4000, tCode 0x4000] [⟨.fin, false, 0⟩, ⟨.fin, false, -20805⟩]).1
      = b32.add .rne 0x3FB51A09 0 := by decide +kernel

/-- Steps 6 to 10. -/
theorem test_softmax_quotients :
    (fp32ToW 0x3FB51A09).log = 8203 ∧ (wToZl16 ⟨.fin, false, -8203⟩ 0 0 false).code = 0x3F00
      ∧ (wToZl16 ⟨.fin, false, -29008⟩ 0 0 false).code = 0x3C76 := by decide +kernel

/-- A reciprocal square root. -/
theorem test_rsqrt :
    fp32ToW 0x40400000 = ⟨.fin, false, 25969⟩ ∧ eRsqrtV (fp32ToW 0x40400000) = ⟨.fin, false, -12985⟩
      ∧ (wToZl16 ⟨.fin, false, -12985⟩ 0 0 false).code = 0x3E6A := by decide +kernel

/-- A tile status word: 0x0080_0080_0001_0023. -/
theorem test_tile_status_word :
    tileWord (((List.range 63).map fun i => ((3, 17, if i < 40 then i else i + 1), { Flags.none with inf := true }))
      ++ [((3, 17, 40), { Flags.none with nan := true, iprod := true })]
      ++ (List.range 64).map fun r => ((1, r, 2), { Flags.none with nan := true })) = 0x0080008000010023 := by decide +kernel

/-- 13_conformance_vectors.md: FP32 0x3F85_B400 has W-form 0x0040_0407 and ZL8 code 0x41, not 0x40. -/
theorem test_zl8_rounds_to_odd_first :
    fp32ToW 0x3F85B400 = ⟨.fin, false, 0x407⟩ ∧ (wToZl8 (fp32ToW 0x3F85B400) 0 0 false).code = 0x41 := by decide +kernel

/-- 01_log_formats.md, a ZL8 block of fine scale 17. -/
theorem test_zl8_block :
    [0x447A0000, 0x3F400000, 0x3A83126F].map (fun x => (fp32ToW x).log) = [163279, -6799, -163279]
      ∧ [163279, -6799, -163279].map (fun l => (wToZl8 ⟨.fin, false, l⟩ 0 17 false).code) = [0x7F, 0x2C, 0] := by decide +kernel

/-- 01_log_formats.md, ties when ZL16 narrows to ZL8. -/
theorem test_zl8_ties :
    [0x4060, 0x40A0, 0xC060].map (fun n => (wToZl8 (tCode n) 0 0 false).code) = [0x42, 0x42, 0xC2] := by decide +kernel
/-- FIPS 180-4, SHA-384 of "abc": its first and last bytes. -/
theorem test_sha384_abc :
    (sha384 [0x61, 0x62, 0x63]).take 4 = [0xCB, 0x00, 0x75, 0x3F] ∧ (sha384 [0x61, 0x62, 0x63]).drop 46 = [0x25, 0xA7] := by
  decide +kernel

/-! ### Single steps, with the manual's results -/

def after (o : Out) (p : State → Bool) : Bool :=
  match o with
  | .next t => p t
  | _ => false

/-- A SAVE that completes, and a LOAD that ends, in states that meet the statement's hypotheses. -/
theorem witness_StagedBytesStayInTheirFaces :
    let s := tOp (.save tS) [tA] (tRows 1 (tFill 1)) (tUses [tA])
    let r := tSt tHall none [tLoad]
    after (exec (.save tAt) s) (fun t => (t.att 0 0).doneAt 0 == [0]) = true ∧ 0 ∉ (s.att 0 0).doneAt 0
      ∧ after (exec (.load 0 (.work 0)) r) (fun t => (t.att 0 0).finished) = true ∧ (r.att 0 0).finished = false := by
  decide +kernel


/-- R9: a read of 16 bits returns all ones and is counted. -/
theorem test_odd_read :
    after (exec (.invalidRegisterAccess 0 2 16 none) State.reset)
      (fun t => t.rdata == some [0xFF, 0xFF, 0xFF, 0xFF] && (t.fn 0).accessErr == 1) = true := by decide +kernel

/-- R331: the lowest ceiling governs, in steps of 5 mV, and 0.72 V while THROTTLE_N is low. -/
theorem test_ceiling :
    after (exec (.vcoreCeilingUpdate { tCool with powerCeil := 803 }) tIdle) (fun t => t.target == 800)
      && after (exec (.vcoreCeilingUpdate tCool) { tIdle with throttle := true }) (fun t => t.target == 720) = true := by
  decide +kernel

/-- Table 10-11: the walk's seat becomes the low six bits of the address, and the next seat goes on. -/
theorem test_walk :
    after (exec (.walk (tFrame cWALK [0, 0, 2, 0, 3, 0, 0, 0])) tOn)
      (fun t => t.chainAddr == 131 && t.chainOut.map (fun g : ChainFrame => u8 g.payload 4) == [4]) = true := by decide +kernel

/-- R299: a READ of an offset beyond the first megabyte is answered with status 2. -/
theorem test_chain_range :
    after (exec (.chainRead (tFrame cREAD (natLE 0x100000 4))) tOn)
      (fun t => t.chainOut.map (fun g : ChainFrame => g.payload) == [[2, 0, 0, 0, 0, 0, 0, 0]]) = true := by decide +kernel

/-- R175: an error halts its queue, and SQ_HEAD points at the entry after the failed one. -/
theorem test_error_halts :
    after (exec (.semaphoreTimeout 0 ⟨true, false⟩) (tSt tHall none [tWait]))
      (fun t => (t.job 0).halted && (t.job 0).sqHead == 1 && (t.job 0).cmds.isEmpty) = true := by decide +kernel

/-- Newel ADD: 1.0 + 1.0 = 2.0. -/
theorem test_newel_add :
    after (exec (.newelAdd tAt ⟨[], [], none⟩) tNSt)
      (fun t => (t.viewRow 0 0 0 2).data.take 1 == [0x40000000] && (t.viewRow 0 0 0 2).tag.state != 0) = true := by
  decide +kernel

theorem between_same (F : FpFmt) (a n : Nat) : F.between a a n = F.between a a 0 := by
  simp [FpFmt.between, Nat.mod_one]

/-- R266: the cross entropy of a row with one 0 and minus infinities is 0. -/
theorem test_xent_one_hot (free : List Nat → Nat → Nat) : xentFp b32 free [0, 0xFF800000, 0xFF800000] 0 = 0 := by
  have d : [0, 0xFF800000, 0xFF800000].map b32.dec = [.fin false 0 (-149), .inf true, .inf true] := by decide +kernel
  have e : xentSteps b32 [.fin false 0 (-149), .inf true, .inf true] (.fin false 0 (-149)) = 0
      ∧ xentExact b32 [.fin false 0 (-149), .inf true, .inf true] (.fin false 0 (-149)) = 0 := by decide +kernel
  simp only [xentFp, d, List.getElem?_cons_zero, e.1, e.2]
  rw [between_same]
  decide +kernel

/-- An access that runs beyond the stack is refused and counted. -/
theorem test_bar2_top :
    after (exec (.bar2Access 0 (stackBytes - 1) (some [1, 2]) 2) tIdle) (fun t => (t.fn 0).accessErr == 1) = true := by
  decide +kernel

/-- A corrected Undercroft error changes no row and is counted. -/
theorem test_undercroft_corrected :
    after (exec (.undercroftEccError 0 3 true) tIdle) (fun t => (t.hall 0).uncCorr == 1 && (t.hall 0).poisonRows == []) = true := by
  decide +kernel

/-- R146: the physical function may not write a tail; the access is counted. -/
theorem test_doorbell_of_the_physical_function :
    after (exec (.doorbell 0 0 1) tIdle) (fun t => (t.job 0).sqTail == 0 && (t.fn 0).accessErr == 1) = true := by decide +kernel

/-- R231: of four shards of a tree over two ranks, REDUCE in mode 0b01 fills the rows of the two that the rank owns. -/
theorem test_owned_shards :
    let t : TreeRec := ⟨1, false, 0, 4, 0, [], [0x10, 0x18], []⟩
    ReduceOp.rows { tRdPlan with trees := [t] } 0x18 { tRd with shCount := 4, srows := 2, drow := 100 } = [(102, 2), (106, 2)] := by
  decide +kernel

/-- R189: a read after a write leaves COARSE as the write set it. -/
theorem test_coarse_of_the_last_write :
    ({ Stat.empty 5 7 with wrote := true }.merge { Stat.empty 5 9 with invalidT := 2 }).coarse = 7 := by decide +kernel

/-- R274: a leg that stands alone decides on what it had proposed (log 145). -/
theorem test_single_leg_decides :
    let id : XferId := ⟨kUP, 0, 0, 1, 0, 0, leafWord 1⟩
    let j := HJob.settleAlone { HJob.reset with proposed := [id] }
    (j.proposed, (j.rx? id).map (·.st == .absent)) = ([], some true) := by decide +kernel
end Sys2Proof.Machine
end

section
/-! PROOFS. BAR0 reads and the accesses that R9 refuses: one equation per case of `State.read`, `State.writeReg` and
`State.oddAccess`, then the two statements of the scope chapter. -/

namespace Sys2Proof.Machine

/-! ### Answers, access errors and latches -/

@[simp] theorem State.answer_rdata (s : State) (b : List Byte) : (s.answer b).rdata = some b := rfl
@[simp] theorem State.fn_answer (s : State) (b : List Byte) (f : Fn) : (s.answer b).fn f = s.fn f := rfl

@[simp] theorem State.accessErr_fn_accessErr (s : State) (f : Fn) :
    ((s.accessErr f).fn f).accessErr = min ((s.fn f).accessErr + 1) 0xFFFFFFFF := by
  rw [State.accessErr, State.fn_modFn_self]

theorem tabGet_of_not_tabHas {α : Type} (d : α) {t : Tab α} {n : Nat} (h : tabHas t n = false) : tabGet d t n = d := by
  induction t with
  | nil => rfl
  | cons e t ih =>
    obtain ⟨k, v⟩ := e
    obtain ⟨hk, ht⟩ : k ≠ n ∧ tabHas t n = false := by simpa [tabHas] using h
    rw [tabGet, if_neg hk.symm, ih ht]

/-- The state in which function f has latched the high half of the counter whose low half lies at off (R10). -/
def State.latchHigh (s : State) (f : Fn) (off : Nat) (d : DWord) : State :=
  s.modFn f fun x => { x with latch := tabSet x.latch off (BitVec.ofNat 32 (d.toNat / 2 ^ 32)) }

theorem State.fn_latchHigh_other (s : State) {f g : Fn} (off : Nat) (d : DWord) (h : g ≠ f) :
    (s.latchHigh f off d).fn g = s.fn g := by
  rw [State.latchHigh, State.fn_modFn, if_neg h]

/-- What the latch holds is the whole upper half: it fits a word. -/
theorem State.latchHigh_holds (s : State) (f : Fn) (off : Nat) (d : DWord) :
    (tabGet 0 ((s.latchHigh f off d).fn f).latch off).toNat = d.toNat / 2 ^ 32 := by
  have hfits : d.toNat / 2 ^ 32 < 2 ^ 32 := by have := d.isLt; omega
  rw [State.latchHigh, State.fn_modFn_self, tabGet_tabSet_self, BitVec.toNat_ofNat, Nat.mod_eq_of_lt hfits]

/-! ### Reads of the halves of a counter (R10) -/

section Halves

variable {s : State} {f lf : Fn} {off : Nat}

theorem State.readReg_low {d : DWord} (hwin : areaOf off ≠ .prt 0x19C) (hmay : s.mayRead f (areaOf off) = true)
    (hreg : s.regAt f (areaOf off) = some (.low d)) :
    s.readReg f lf off = (d.setWidth 32, s.latchHigh lf off d) := by
  simp [State.readReg, hwin, hmay, hreg, State.latchHigh]

theorem State.readReg_high (hwin : areaOf off ≠ .prt 0x19C) (hmay : s.mayRead f (areaOf off) = true)
    (hreg : s.regAt f (areaOf off) = some .high) :
    s.readReg f lf off = (tabGet 0 (s.fn lf).latch (off - 4), s) := by
  simp [State.readReg, hwin, hmay, hreg]

theorem State.read_of_aligned (h : off % 4 = 0) :
    s.read f off = (s.readReg f f off).2.answer (natLE (s.readReg f f off).1.toNat 4) := by
  rw [State.read, if_neg (not_not.mpr h)]

theorem State.read_low {d : DWord} (h : off % 4 = 0) (hwin : areaOf off ≠ .prt 0x19C)
    (hmay : s.mayRead f (areaOf off) = true) (hreg : s.regAt f (areaOf off) = some (.low d)) :
    s.read f off = (s.latchHigh f off d).answer (natLE (d.toNat % 2 ^ 32) 4) := by
  rw [State.read_of_aligned h, State.readReg_low hwin hmay hreg, BitVec.toNat_setWidth]

theorem State.read_high (h : off % 4 = 0) (hwin : areaOf (off + 4) ≠ .prt 0x19C)
    (hmay : s.mayRead f (areaOf (off + 4)) = true) (hreg : s.regAt f (areaOf (off + 4)) = some .high) :
    s.read f (off + 4) = s.answer (natLE (tabGet 0 (s.fn f).latch off).toNat 4) := by
  have hnext : (off + 4) % 4 = 0 := by omega
  rw [State.read_of_aligned hnext, State.readReg_high hwin hmay hreg, Nat.add_sub_cancel]

end Halves

theorem exec_counterLowRead (f : Fn) (off : Nat) (s : State) : exec (.counterLowRead f off) s = .next (s.read f off) := rfl

/-- Settles O52: the low half's read leaves the upper half in the latch at its own offset, and the high half's read returns
what stands there. -/
theorem counterHighHalfIsLatched : Obligations.CounterHighHalfIsLatched := by
  intro s f off d hal hwin hmay hreg
  refine ⟨_, exec_counterLowRead f off s, ?_⟩
  rw [State.read_low hal hwin hmay hreg]
  refine ⟨rfl, fun g hg => ?other, fun u hwin' hmay' hreg' => ?high⟩
  case other => rw [State.fn_answer, State.fn_latchHigh_other s off d hg]
  case high =>
    rw [State.read_high hal hwin' hmay' hreg', State.answer_rdata, State.fn_answer]
    constructor
    · intro hlatch
      rw [hlatch, State.latchHigh_holds]
    · intro hnone
      rw [tabGet_of_not_tabHas 0 hnone]
      rfl

/-! ### Accesses of another width or alignment (R9) -/

section OddAccesses

variable (s : State) (f : Fn) {off width : Nat}

theorem State.read_of_misaligned (h : off % 4 ≠ 0) : s.read f off = (s.accessErr f).answer (natLE 0xFFFFFFFF 4) := by
  rw [State.read, if_pos h]

theorem State.writeReg_of_misaligned (v : Word) (h : off % 4 ≠ 0) : s.writeReg f off v = s.accessErr f := by
  rw [State.writeReg, if_pos h]

theorem State.oddAccess_write (v : Word) (h : width ≠ 32 ∨ off % 4 ≠ 0) :
    s.oddAccess f off width (some v) = s.accessErr f := by
  by_cases hw : width = 32
  · have hoff : off % 4 ≠ 0 := h.resolve_left (not_not.mpr hw)
    simp only [State.oddAccess, if_pos hw, State.writeReg_of_misaligned s f v hoff]
  · simp only [State.oddAccess, if_neg hw]

theorem State.oddAccess_read (h : width ≠ 32 ∨ off % 4 ≠ 0) :
    s.oddAccess f off width none = (s.accessErr f).answer (natLE 0xFFFFFFFF 4) := by
  by_cases hw : width = 32
  · have hoff : off % 4 ≠ 0 := h.resolve_left (not_not.mpr hw)
    simp only [State.oddAccess, if_pos hw, State.read_of_misaligned s f hoff]
  · simp only [State.oddAccess, if_neg hw]

end OddAccesses

theorem exec_invalidRegisterAccess (f : Fn) (off width : Nat) (wr : Option Word) (s : State) :
    exec (.invalidRegisterAccess f off width wr) s = .next (s.oddAccess f off width wr) := rfl

/-- Settles O54: whichever of width and alignment is wrong, the access ends in the function's access-error counter. -/
theorem oddAccessesAreCounted : Obligations.OddAccessesAreCounted := by
  intro s f off width v hodd
  rw [exec_invalidRegisterAccess, exec_invalidRegisterAccess, State.oddAccess_write s f v hodd, State.oddAccess_read s f hodd]
  exact ⟨rfl, rfl, State.accessErr_fn_accessErr s f⟩

end Sys2Proof.Machine
end

section
/-! PROOFS. The product of two W-form operands (R47): one equation per result class of `product`, then the statement. -/

namespace Sys2Proof.Machine

section Product

variable {w x : W}

theorem product_of_nan (h : w.cls = .nan ∨ x.cls = .nan) : product w x = (W.nan, { Flags.none with nan := true }) := by
  rw [product, if_pos h]

/-- Zero times infinity, in either order, is the invalid product. -/
theorem product_of_zero_inf (h : (w.cls = .zero ∧ x.cls = .inf) ∨ (w.cls = .inf ∧ x.cls = .zero)) :
    product w x = (W.nan, { Flags.none with nan := true, iprod := true }) := by
  have hnan : ¬(w.cls = .nan ∨ x.cls = .nan) := by
    rcases h with ⟨hw, hx⟩ | ⟨hw, hx⟩ <;> simp [hw, hx]
  rw [product, if_neg hnan, if_pos h]

theorem product_of_zero (h : (w.cls = .zero ∧ (x.cls = .zero ∨ x.cls = .fin)) ∨ (x.cls = .zero ∧ w.cls = .fin)) :
    product w x = (W.zero, Flags.none) := by
  rcases h with ⟨hw, hx | hx⟩ | ⟨hx, hw⟩ <;> simp [product, hw, hx]

theorem product_of_inf (h : (w.cls = .inf ∧ (x.cls = .inf ∨ x.cls = .fin)) ∨ (x.cls = .inf ∧ w.cls = .fin)) :
    product w x = (W.inf (w.s ^^ x.s), { Flags.none with inf := true }) := by
  rcases h with ⟨hw, hx | hx⟩ | ⟨hx, hw⟩ <;> simp [product, hw, hx]

/-- Of two finite operands no earlier case of R47 holds: the signs combine and the logs add, with no rounding. -/
theorem product_of_fin (hw : w.cls = .fin) (hx : x.cls = .fin) :
    product w x = (⟨.fin, w.s ^^ x.s, w.log + x.log⟩, Flags.none) := by
  simp [product, hw, hx]

end Product

/-- Settles O59: each clause is the equation of `product` for its classes, and the clauses for an infinity and for an
invalid product read the flag off that equation. -/
theorem productOfLogs : Obligations.ProductOfLogs := by
  intro w x
  refine ⟨product_of_nan, fun h => ?invalid, product_of_zero, fun h => ?infinite, product_of_fin⟩
  case invalid => rw [product_of_zero_inf h]; exact ⟨rfl, rfl⟩
  case infinite => rw [product_of_inf h]; exact ⟨rfl, rfl⟩

end Sys2Proof.Machine
end

section
/-! PROOFS. Canonical memory, the shared part: what every update of the state does to the form of its memories, one lemma per
operation of State, of queues and of dispatch. -/

namespace Sys2Proof.Machine

/-! ### Results that carry a state -/

/-- A predicate holds of what an operation that may fail answers. -/
def Answers {ε α : Type} (P : α → Prop) (r : Except ε α) : Prop := ∀ a, r = .ok a → P a

namespace Answers

variable {ε α β : Type} {P : α → Prop} {Q : β → Prop}

theorem ok {a : α} (h : P a) : Answers P (.ok a : Except ε α) := fun _ e => Except.ok.inj e ▸ h

theorem error {e : ε} : Answers P (.error e : Except ε α) := nofun

theorem bind {r : Except ε α} {f : α → Except ε β} (h : Answers P r) (hf : ∀ a, P a → Answers Q (f a)) :
    Answers Q (r >>= f) := by
  cases r with
  | error e => exact error
  | ok a => exact hf a (h a rfl)

/-- A check before an operation leaves its answer alone. -/
theorem after {r : Except ε α} {f : α → Except ε β} (hf : ∀ a, Answers Q (f a)) : Answers Q (r >>= f) :=
  bind (P := fun _ => True) (fun _ _ => trivial) fun a _ => hf a

theorem foldlM {γ : Type} {f : α → γ → Except ε α} (hf : ∀ a c, P a → Answers P (f a c)) (l : List γ) :
    ∀ {a : α}, P a → Answers P (l.foldlM f a) := by
  induction l with
  | nil => exact fun h => ok h
  | cons c l ih =>
    intro a h
    rw [List.foldlM_cons]
    exact bind (hf a c h) fun b hb => ih hb

end Answers

/-! ### Changes of a hall that leave its stack -/

theorem List.foldl_keeps {α β γ : Type} {f : β → α → β} (g : β → γ) (hf : ∀ b a, g (f b a) = g b) (l : List α) (b : β) :
    g (l.foldl f b) = g b := by
  induction l generalizing b with
  | nil => rfl
  | cons a l ih => exact (ih _).trans (hf b a)

@[simp] theorem Hall.powerGals_hbm (H : Hall) (gs : List Nat) : (H.powerGals gs).hbm = H.hbm := rfl

@[simp] theorem Hall.advanceGen_hbm (H : Hall) (t : Nat) (scope : Option Nat) : (H.advanceGen t scope).hbm = H.hbm := by
  unfold Hall.advanceGen
  split <;> rfl

@[simp] theorem Hall.bindGen_hbm (H : Hall) (d : TDesc) (scope : Option Nat) : (H.bindGen d scope).hbm = H.hbm := by
  unfold Hall.bindGen
  split
  · rfl
  · split
    · rfl
    · dsimp only
      split
      · rfl
      · exact Hall.advanceGen_hbm ..

/-! ### Units of the state -/

namespace State.memWf

variable {s : State}

theorem modJob (w : s.memWf) (q : Page) (f : Job → Job) : (s.modJob q f).memWf := w
theorem modPart (w : s.memWf) (v : Nat) (f : Part → Part) : (s.modPart v f).memWf := w
theorem modFn (w : s.memWf) (g : Fn) (f : FnRegs → FnRegs) : (s.modFn g f).memWf := w
theorem modCmd (w : s.memWf) (q : Page) (slot : Nat) (f : Cmd → Cmd) : (s.modCmd q slot f).memWf := w
theorem modAtt (w : s.memWf) (q : Page) (slot : Nat) (f : Attempt → Attempt) : (s.modAtt q slot f).memWf := w
theorem accessErr (w : s.memWf) (f : Fn) : (s.accessErr f).memWf := w

/-- A change of a hall that leaves the bytes of its stack. -/
theorem modHall (w : s.memWf) (h : Nat) {f : Hall → Hall} (hf : ∀ H, (f H).hbm = H.hbm) : (s.modHall h f).memWf :=
  State.memWf_modHall w h f fun wf => (hf _).symm ▸ wf

/-- A change of a hall that keeps its stack in canonical form. -/
theorem writeHall (w : s.memWf) (h : Nat) {f : Hall → Hall} (hf : ∀ H, Mem.wf H.hbm = true → Mem.wf (f H).hbm = true) :
    (s.modHall h f).memWf := State.memWf_modHall w h f (hf _)

theorem putHall (w : s.memWf) (h : Nat) {x : Hall} (hx : Mem.wf x.hbm = true) : (s.putHall h x).memWf :=
  State.memWf_modHall w h (fun _ => x) fun _ => hx

theorem modHJob (w : s.memWf) (h j : Nat) (f : HJob → HJob) : (s.modHJob h j f).memWf := w.modHall h fun _ => rfl
theorem modPort (w : s.memWf) (h p : Nat) (f : Port → Port) : (s.modPort h p f).memWf := w.modHall h fun _ => rfl
theorem modGal (w : s.memWf) (h g : Nat) (f : Gal → Gal) : (s.modGal h g f).memWf := w.modHall h fun _ => rfl

/-- A change that touches neither the halls nor host memory. -/
theorem of_eq {t : State} (w : s.memWf) (hh : t.host = s.host) (hb : t.halls = s.halls) : t.memWf :=
  State.memWf_of_eq w hh fun h => by rw [State.hall, hb, State.hall]

theorem putHost (w : s.memWf) {m : Mem} (hm : Mem.wf m = true) : ({ s with host := m } : State).memWf := ⟨hm, w.2⟩

theorem ite {c : Prop} [Decidable c] {t u : State} (ht : t.memWf) (hu : u.memWf) : (if c then t else u).memWf := by
  by_cases hc : c
  · rw [if_pos hc]; exact ht
  · rw [if_neg hc]; exact hu

theorem foldl {α : Type} {f : State → α → State} (w : s.memWf) (hf : ∀ t a, t.memWf → (f t a).memWf) (l : List α) :
    (l.foldl f s).memWf := by
  induction l generalizing s with
  | nil => exact w
  | cons a l ih => exact ih (hf s a w)

/-! ### Queues: the frame lemmas of the shared operations hold the canonical form -/

theorem of_queueFrame {t : State} (w : s.memWf) (h : QueueFrame s s → QueueFrame s t) : t.memWf := (h (QueueFrame.refl s)).wf w

theorem log (w : s.memWf) (k : Nat) (e : LogEnt) : (s.log k e).memWf := w.of_queueFrame (·.log k e)
theorem rehold (w : s.memWf) (v : Fn) : (s.rehold v).memWf := w.of_queueFrame (·.rehold v)
theorem failCmd (w : s.memWf) (q : Page) (slot code detail : Nat) : (s.failCmd q slot code detail).memWf :=
  w.of_queueFrame (·.failCmd q slot code detail)
theorem killCmd (w : s.memWf) (q : Page) (slot : Nat) (fault : Bool) : (s.killCmd q slot fault).memWf :=
  w.of_queueFrame (·.killCmd q slot fault)
theorem fetchAll (w : s.memWf) (q : Page) : (s.fetchAll q).memWf := w.of_queueFrame (·.fetchAll q)
theorem drainFailed (w : s.memWf) (q : Page) : (s.drainFailed q).memWf := w.of_queueFrame (·.drainFailed q)
theorem dropAttempt (w : s.memWf) (q : Page) (slot : Nat) : (s.dropAttempt q slot).memWf := w.of_queueFrame (·.dropAttempt q slot)
theorem postRecord (w : s.memWf) (q : Page) (c : Cmd) (status detail : Nat) (ok : Bool) (tst : DWord) :
    (s.postRecord q c status detail ok tst).memWf := w.of_queueFrame (·.postRecord q c status detail ok tst)
theorem hostSubmit (w : s.memWf) (q : Page) (op : Nat) (d : Desc) : (s.hostSubmit q op d).memWf :=
  w.of_queueFrame (·.hostSubmit q op d)
theorem setHolder (w : s.memWf) (v : Fn) (j : Nat) : (s.setHolder v j).memWf := w

/-! ### Dispatch and the doorbell page -/

theorem freeTarget (w : s.memWf) (c : Cmd) : (s.freeTarget c).memWf := by
  unfold State.freeTarget
  split
  · exact ⟨Mem.wf_memWrites _ w.1 _, w.2⟩
  · exact w

theorem powerPass (w : s.memWf) (q : Page) (c : Cmd) : (s.powerPass q c).memWf := by
  unfold State.powerPass
  split
  · exact w
  · refine ite (w.foldl (fun t lh wt => ?_) _) w
    exact wt.modHall _ fun H => H.powerGals_hbm _

theorem bindAll (w : s.memWf) (q : Page) (l : List TDesc) : (l.foldl (fun s d =>
    if d.host then s else s.modHall (s.phys q d.lhall) fun H => H.bindGen d (s.scopeOf q (s.phys q d.lhall) d)) s).memWf := by
  refine w.foldl (fun t d wt => ite wt (wt.modHall _ fun H => ?_)) l
  exact H.bindGen_hbm ..

theorem startCmd (w : s.memWf) (q : Page) (c : Cmd) : (s.startCmd q c).memWf := by
  unfold State.startCmd
  have started {t : State} (wt : t.memWf) : (if c.opcode = opRUN then (t.pageHalls q).foldl (fun s h => s.modHall h fun H =>
      { H with stepFrom := tabSet H.stepFrom (pageJob q) (tabGet s.time.toNat H.stepFrom (pageJob q)) }) t else t).memWf := by
    refine ite (wt.foldl (fun u h wu => ?_) _) wt
    exact wu.modHall h fun _ => rfl
  exact ((started (((w.bindAll q c.tds).modPart ..).modCmd ..)).powerPass ..).freeTarget c

theorem dispatch (w : s.memWf) (q : Page) : (s.dispatch q).memWf := by
  unfold State.dispatch
  refine ite ?_ (w.rehold _)
  split
  · exact w.rehold _
  · split
    · exact (w.rehold _).failCmd ..
    · exact (w.rehold _).startCmd ..

theorem earlyRelease (w : s.memWf) (q : Page) (slot : Nat) : (s.earlyRelease q slot).memWf := by
  unfold State.earlyRelease
  split
  · exact ite ((w.modPart ..).modAtt ..) w
  · exact w

theorem record (w : s.memWf) (f : Fn) (off : Nat) (v : Word) : (s.record f off v).memWf := w

theorem writeTail (w : s.memWf) (f : Fn) (q : Page) (v : Word) : (s.writeTail f q v).memWf := by
  unfold State.writeTail
  exact ite w (ite w ((w.modJob ..).fetchAll _))

theorem writeCqHead (w : s.memWf) (f : Fn) (q : Page) (v : Word) : (s.writeCqHead f q v).memWf := by
  unfold State.writeCqHead
  exact ite w (ite w ((w.modJob ..).fetchAll _))

theorem writeCtrl (w : s.memWf) (f : Fn) (q : Page) (v : Word) : (s.writeCtrl f q v).memWf := by
  unfold State.writeCtrl
  exact ite w (ite w (ite w ((w.modJob ..).fetchAll _)))

theorem arbiter (w : s.memWf) (q : Page) (slot : Nat) (arb : Arb) (code : Nat) : (s.arbiter q slot arb code).memWf := by
  unfold State.arbiter
  dsimp only
  exact ite ((ite ((w.modCmd ..).modJob ..) (w.modCmd ..)).failCmd ..) (w.modCmd ..)

theorem semTimeout (w : s.memWf) (q : Page) (arb : Arb) : (s.semTimeout q arb).memWf := by
  unfold State.semTimeout
  dsimp only
  split
  · exact ite w (w.arbiter ..)
  · exact w

end State.memWf

end Sys2Proof.Machine
end

section
/-! PROOFS. Canonical memory: ports, frames and transfers. -/

namespace Sys2Proof.Machine

namespace State.memWf

variable {s t : State}

/-! ### Ports -/

theorem enqueue (w : s.memWf) (fs : List Frame) : (s.enqueue fs).memWf := by
  unfold State.enqueue
  refine w.foldl (fun t f wt => ?_) fs
  exact wt.modPort ..

theorem reply (w : s.memWf) (h : Nat) (f : Frame) (x : XHdr) (code reason : Nat) : (s.reply h f x code reason).memWf :=
  w.enqueue _

theorem takeRx (w : s.memWf) {h i : Nat} {ok : XHdr → Frame → Bool} {f : Frame} {x : XHdr}
    (e : s.takeRx h i ok = some (f, x, t)) : t.memWf := by
  unfold State.takeRx at e
  split at e
  · cases e
  · split at e
    · cases e
    · cases e
      exact (w.modPort ..).modPort ..

theorem onPort (w : s.memWf) (h i : Nat) (f : Port → Port) : (s.onPort h i f).memWf := ite (w.modPort ..) w

theorem crcDegrade (w : s.memWf) (h i : Nat) : (s.crcDegrade h i).memWf := ite ((w.modPort ..).log ..) w

theorem dataFrame (w : s.memWf) (h i : Nat) (f : Frame) : (s.dataFrame h i f).memWf := (w.onPort ..).crcDegrade ..

theorem laneDegrade (w : s.memWf) (h i lane : Nat) : (s.laneDegrade h i lane).memWf := ite ((w.modPort ..).log ..) w

theorem portDown (w : s.memWf) (h i : Nat) : (s.portDown h i).memWf := (w.modPort ..).log ..

theorem grant (w : s.memWf) (h i : Nat) : (s.grant h i).memWf := by
  unfold State.grant
  refine w.foldl (fun t g wt => ?_) _
  exact wt.modPort ..

theorem regrant (u : State) (w : t.memWf) (h i : Nat) : (u.regrant t h i).memWf := by
  unfold State.regrant
  refine ite (w.foldl (fun t g wt => ?_) _) w
  exact wt.modPort ..

theorem retrained (w : s.memWf) (h i : Nat) (good : Byte) (peerAck : Nat) : (s.retrained h i good peerAck).memWf := by
  unfold State.retrained
  exact ite (ite (ite (w.modPort ..) ((w.modPort ..).grant ..)) (w.portDown ..)) w

/-! ### Ledgers and receipts -/

theorem failWhere (w : s.memWf) (q : Page) (f : Cmd → Bool) (code : Nat) : (s.failWhere q f code).memWf := by
  unfold State.failWhere
  split
  · exact w.failCmd ..
  · exact w

theorem countStray (w : s.memWf) (h : Nat) (x : XHdr) : (s.countStray h x).memWf := w.modHJob ..

theorem strayFrame (w : s.memWf) (h : Nat) (f : Frame) (x : XHdr) : (s.strayFrame h f x).memWf :=
  ite ((w.countStray ..).enqueue _) (w.countStray ..)

theorem badTree (w : s.memWf) (h : Nat) (q : Page) (f : Frame) (x : XHdr) : (s.badTree h q f x).memWf :=
  (w.modHJob ..).failWhere ..

theorem takeXfer (w : s.memWf) (h i : Nat) (f : Frame) (x : XHdr) : (s.takeXfer h i f x).1.memWf := by
  unfold State.takeXfer
  dsimp only
  split
  · exact w.countStray ..
  · split
    · exact w.countStray ..
    · split
      · exact w.badTree ..
      · exact w.modHJob ..

theorem takeKind (w : s.memWf) (h i kind : Nat) : (s.takeKind h i kind).memWf := by
  unfold State.takeKind
  split
  · exact w
  · next f x u e =>
    have wu := (w.takeRx e).takeXfer h i f x
    split
    · next et => rw [et] at wu; exact wu.enqueue _
    · next et => rw [et] at wu; exact wu

theorem countRelay (w : s.memWf) (v : Fn) : (s.countRelay v).memWf := w.modPart ..

theorem alsoRelay (w : s.memWf) (h dest : Nat) (ports : List Nat) (x : XHdr) (data : List Byte) :
    (s.alsoRelay h dest ports x data).memWf := by
  unfold State.alsoRelay
  split
  · exact ite ((w.enqueue _).countRelay _) w
  · exact w

theorem sendXfer (w : s.memWf) (h slot : Nat) (id : XferId) (dest : Nat) (ports : List Nat) (vc : Nat) (data : List Byte) :
    (s.sendXfer h slot id dest ports vc data).memWf := by
  unfold State.sendXfer
  exact ite w (ite (w.modHJob ..) (((w.modHJob ..).enqueue _).alsoRelay ..))

theorem resendXfer (w : s.memWf) (h : Nat) (e : TxEnt) : (s.resendXfer h e).memWf := (w.modHJob ..).sendXfer ..

theorem answerAsks (w : s.memWf) (h : Nat) (id : XferId) (code reason : Nat) : (s.answerAsks h id code reason).memWf := by
  unfold State.answerAsks
  split
  · exact w
  · refine (w.modPart ..).foldl (fun t a wt => ?_) _
    exact wt.reply ..

theorem servedReceipt (w : s.memWf) (h : Nat) (id : XferId) (code reason : Nat) : (s.servedReceipt h id code reason).memWf := by
  unfold State.servedReceipt
  split
  · exact w
  · exact ite w ((w.modHJob ..).answerAsks ..)

theorem takeReceipt (w : s.memWf) (h : Nat) (id : XferId) (code reason : Nat) : (s.takeReceipt h id code reason).memWf := by
  unfold State.takeReceipt
  have acked : (if code = 1 then s.modHJob h id.job (·.ack id) else s).memWf := ite (w.modHJob ..) w
  generalize (if code = 1 then s.modHJob h id.job (·.ack id) else s) = u at acked
  dsimp only
  split
  · exact acked.servedReceipt ..
  · refine ite (acked.modHJob ..) ?_
    have answered {e : TxEnt} := (acked.modHJob h id.job fun j => j.putTx e).answerAsks h id code reason
    split
    · exact ite answered ((answered.modHJob ..).failWhere ..)
    · exact answered

theorem unanswered (w : s.memWf) (h : Nat) (id : XferId) : (s.unanswered h id).memWf := by
  unfold State.unanswered
  split
  · exact ite (w.modHJob ..) w
  · exact w

theorem holdResend (w : s.memWf) (h : Nat) (id : XferId) : (s.holdResend h id).memWf := by
  unfold State.holdResend
  split
  · exact ite w (ite (w.resendXfer ..) ((w.modHJob ..).takeReceipt ..))
  · exact w

/-! ### Serving -/

theorem holdFace (w : s.memWf) (h : Nat) (face : Face) (id : XferId) (ports : List Nat) (req : Nat) :
    (s.holdFace h face id ports req).memWf := w.modHall _ fun _ => rfl

theorem endServing (w : s.memWf) (num : Nat) (f : Frame) : (s.endServing num f).memWf := by
  unfold State.endServing
  split
  · exact w
  · refine ite (w.modHall _ fun _ => ?_) w
    rfl

theorem sendServed (w : s.memWf) (h : Nat) (f : Frame) (y : XHdr) (data : List Byte) : (s.sendServed h f y data).memWf := by
  unfold State.sendServed
  dsimp only
  have sent := (w.enqueue (mkFrames (s.rank h) f.src f.ret.reverse f.vc y data)).alsoRelay h f.src f.ret.reverse y data
  split
  · exact ite (sent.modHJob ..) sent
  · exact sent

theorem refuse (w : s.memWf) (h : Nat) (f : Frame) (x : XHdr) (r : Refuse) : (s.refuse h f x r).memWf := by
  unfold State.refuse
  split
  · exact (w.log ..).reply ..
  · exact w.reply ..

theorem countHall (w : s.memWf) (h : Nat) (p : Option Plan) (d : TDesc) (coarse : Int) (bad : Nat) :
    (s.countHall h p d coarse bad).memWf := by
  unfold State.countHall
  refine ite (w.modHall _ fun _ => ?_) w
  rfl

theorem countPull (w : s.memWf) (h : Nat) (q : Page) (face : Face) (first n : Nat) : (s.countPull h q face first n).memWf :=
  w.countHall ..

theorem servePull (w : s.memWf) (h i : Nat) : (s.servePull h i).memWf := by
  unfold State.servePull
  split
  · exact w
  · next f x u e =>
    have wu := w.takeRx e
    split
    · exact wu.reply ..
    · refine ite (wu.strayFrame ..) ?_
      split
      · exact wu.refuse ..
      · exact (((wu.countPull ..).reply ..).holdFace ..).sendServed ..

/-! ### The Mezzanine -/

/-- The bytes of an image are written one run after another. -/
theorem mezzTake (w : s.memWf) (h : Nat) (f : Frame) (x : XHdr) : (s.mezzTake h f x).1.memWf := by
  have wrote (m : Mem) (k : Option Nat) (hm : Mem.wf m = true) :
      (s.modHall h fun H => { H with hbm := m, mezzIn := k }).memWf := State.memWf_modHall w h _ fun _ => hm
  unfold State.mezzTake
  dsimp only
  split
  · exact w
  · split
    · exact w.modHall _ fun _ => rfl
    · split
      · exact w
      · next k _ =>
        have data := Mem.wf_memWrites (if x.first = true then f.payload.drop 64 else f.payload) (w.2 h)
          (if x.first = true then (s.hall h).mezzSlotBase k else (s.hall h).mezzSlotBase k + x.offset - 64)
        generalize memWrites (s.hall h).hbm _ _ = m at data
        have flagged : Mem.wf (if x.first = true then memWrite m ((s.hall h).mezzSlotBase k + 4) 1 else m) = true := by
          split
          · exact Mem.wf_memWrite data ..
          · exact data
        generalize (if x.first = true then memWrite m ((s.hall h).mezzSlotBase k + 4) 1 else m) = m' at flagged
        split
        · split
          · refine (wrote _ _ flagged).writeHall h fun H wf => ?_
            exact Mem.wf_memWrite wf ((s.hall h).mezzSlotBase k + 4) 2
          · exact wrote _ _ flagged
        · exact wrote _ _ flagged

theorem mezzFrame (w : s.memWf) (h i : Nat) : (s.mezzFrame h i).memWf := by
  unfold State.mezzFrame
  split
  · exact w
  · next f x u e =>
    have wu := (w.takeRx e).mezzTake h f x
    split
    · next et => rw [et] at wu; exact wu.reply ..
    · next et => rw [et] at wu; exact wu

theorem mezzServe (w : s.memWf) (h i : Nat) : (s.mezzServe h i).memWf := by
  unfold State.mezzServe
  split
  · exact w
  · next f x u e =>
    split
    · exact (w.takeRx e).refuse ..
    · exact ((w.takeRx e).reply ..).sendServed ..

end State.memWf

end Sys2Proof.Machine
end

section
/-! PROOFS. Canonical memory: Scissor pairs, the rows above the frame layer, and faults. -/

namespace Sys2Proof.Machine

namespace State.memWf

variable {s t : State}

/-! ### Scissor pairs -/

theorem digestOver (w : s.memWf) (v : Fn) (r : HallRoute) (x : XHdr) (data : List Byte) (relay : Option (Nat × Nat)) :
    (s.digestOver v r x data relay).memWf := (w.enqueue _).modPart ..

theorem digestOn (w : s.memWf) (v : Fn) (job : Nat) (b : DBody) (r : HallRoute) : (s.digestOn v job b r).memWf := w.digestOver ..

theorem flipRoute (w : s.memWf) (v : Fn) : (s.flipRoute v).memWf := w.modPart ..

theorem sendDigest (w : s.memWf) (v : Fn) (job : Nat) (b : DBody) : (s.sendDigest v job b).memWf := by
  unfold State.sendDigest
  split
  · exact w
  · exact (w.digestOn ..).flipRoute v

theorem digestReceipt (w : s.memWf) (v : Fn) (h port : Nat) (id : XferId) (code : Nat) :
    (s.digestReceipt v h port id code).memWf := by
  unfold State.digestReceipt
  split
  · exact w
  · refine ite ?_ (w.modPart ..)
    dsimp only
    split
    · exact ((w.modPart ..).modPart ..).digestOver ..
    · exact (w.modPart ..).modPart ..

theorem failAll (w : s.memWf) (v : Fn) (code : Nat) : (s.failAll v code).memWf := by
  unfold State.failAll
  refine w.foldl (fun t q wt => ?_) _
  split
  · exact wt
  · exact ite wt (wt.failCmd ..)

theorem haltAll (w : s.memWf) (v : Fn) (code : Nat) : (s.haltAll v code).memWf := by
  unfold State.haltAll
  refine w.foldl (fun t q wt => ?_) _
  exact wt.modJob ..

theorem logPart (w : s.memWf) (v : Fn) (e : LogEnt) : (s.logPart v e).memWf := by
  unfold State.logPart
  refine w.foldl (fun t h wt => ?_) _
  exact wt.log ..

theorem retireLeg (w : s.memWf) (v : Fn) : (s.retireLeg v).memWf := by
  unfold State.retireLeg
  have sent : ((s.digestRoutes v).foldl (fun s r => s.digestOn v 0 (DBody.of 6) r) s).memWf := by
    refine w.foldl (fun t r wt => ?_) _
    exact wt.digestOn ..
  exact ((sent.modPart ..).failAll ..).haltAll ..

theorem leavePair (w : s.memWf) (v : Fn) : (s.leavePair v).memWf := ite (w.retireLeg v) w

theorem standAlone (w : s.memWf) (v : Fn) (cause : Nat) : (s.standAlone v cause).memWf := by
  unfold State.standAlone
  have settled : ((s.part v).halls.foldl (fun s h => s.modHall h fun H =>
      { H with jobs := H.jobs.map fun e => (e.1, e.2.settleAlone) }) s).memWf := by
    refine w.foldl (fun t h wt => ?_) _
    exact wt.modHall h fun _ => rfl
  exact ite ((settled.modPart ..).logPart ..) w

theorem digestMismatch (w : s.memWf) (q : Page) (c : Cmd) (d : PDigest) : (s.digestMismatch q c d).memWf := by
  unfold State.digestMismatch
  exact ite (((w.logPart ..).modPart ..).leavePair _) ((((w.logPart ..).modPart ..).modCmd ..).killCmd ..)

theorem compareDigest (w : s.memWf) (q : Page) : (s.compareDigest q).memWf := by
  unfold State.compareDigest
  split
  · exact w
  · refine ite ?_ w
    split
    · exact w
    · exact ite (w.modAtt ..) (w.digestMismatch ..)

theorem evidence (w : s.memWf) (h n : Nat) : (s.evidence h n).memWf := by
  unfold State.evidence
  refine w.foldl (fun t x wt => ?_) _
  exact wt.modAtt ..

theorem takeDigest (w : s.memWf) {h i sub : Nat} {v : Fn} {f : Frame} {x : XHdr} {b : DBody}
    (e : s.takeDigest h i sub = some (v, f, x, b, t)) : t.memWf := by
  unfold State.takeDigest at e
  split at e
  · cases e
  · next et =>
    split at e
    · cases e
    · cases e
      exact (w.takeRx et).reply ..

theorem dropDigest (w : s.memWf) (h i sub : Nat) : (s.dropDigest h i sub).memWf := by
  unfold State.dropDigest
  split
  · next et => exact ite (w.takeRx et) w
  · exact w

theorem digestCommit (w : s.memWf) (h i : Nat) : (s.digestCommit h i).memWf := by
  unfold State.digestCommit
  split
  · exact w.dropDigest ..
  · next et => exact ((w.takeDigest et).modPart ..).compareDigest _

theorem digestAlive (w : s.memWf) (h i : Nat) : (s.digestAlive h i).memWf := by
  unfold State.digestAlive
  split
  · exact w.dropDigest ..
  · next et => exact (w.takeDigest et).modPart ..

theorem markChild (w : s.memWf) (v : Fn) (job : Nat) (b : DBody) : (s.markChild v job b).memWf := by
  unfold State.markChild
  refine w.foldl (fun t h wt => ?_) _
  exact wt.modHJob ..

theorem unpropose (w : s.memWf) (v : Fn) (job : Nat) (b : DBody) : (s.unpropose v job b).memWf := by
  unfold State.unpropose
  refine w.foldl (fun t h wt => ?_) _
  exact wt.modHJob ..

theorem relayToPartner (w : s.memWf) (v : Fn) (src dest : Nat) (x : XHdr) (data : List Byte) :
    (s.relayToPartner v src dest x data).memWf := by
  unfold State.relayToPartner
  split
  · exact w
  · exact ((w.digestOver ..).flipRoute v).countRelay v

theorem relaysDue (w : s.memWf) (h : Nat) : (s.relaysDue h).memWf := by
  unfold State.relaysDue
  split
  · exact w
  · refine w.foldl (fun t d wt => ?_) _
    split
    · exact ite ((wt.relayToPartner ..).modPart ..) wt
    · exact wt

theorem digestPropose (w : s.memWf) (h i : Nat) (taken : Bool) : (s.digestPropose h i taken).memWf := by
  unfold State.digestPropose
  split
  · exact w.dropDigest ..
  · next et =>
    have wt := w.takeDigest et
    refine ite (wt.markChild ..) ?_
    split
    · exact ((wt.sendDigest ..).modPart ..).relaysDue _
    · exact ite w ((wt.markChild ..).sendDigest ..)

theorem digestAnswer (w : s.memWf) (h i : Nat) : (s.digestAnswer h i).memWf := by
  unfold State.digestAnswer
  split
  · exact w.dropDigest ..
  · next et => exact ite ((w.takeDigest et).markChild ..) ((w.takeDigest et).unpropose ..)

theorem serveRelayed (w : s.memWf) (h : Nat) (f : Frame) (x : XHdr) : (s.serveRelayed h f x).memWf := by
  have logged (r : Refuse) : (match r.poison with
      | some a => s.log h ⟨0x11, x.job, 0, 0xFFFF, a⟩
      | none => s).memWf := by
    split
    · exact w.log ..
    · exact w
  unfold State.serveRelayed
  dsimp only
  split
  · split
    · exact w.modHJob ..
    · exact logged _
  · split
    · exact w
    · refine ite (w.countStray ..) ?_
      split
      · exact (w.countPull ..).modHJob ..
      · exact logged _

theorem takeRelayed (w : s.memWf) (h i : Nat) (f : Frame) (x : XHdr) (body : List Byte) : (s.takeRelayed h i f x body).memWf :=
  ite (w.mezzTake ..) (ite (w.serveRelayed ..) ((w.takeXfer ..).modHJob ..))

theorem askRelayed (w : s.memWf) (v : Fn) (h own : Nat) (f : Frame) (x : XHdr) : (s.askRelayed v h own f x).memWf := by
  unfold State.askRelayed
  split
  · exact w.reply ..
  · exact w.modPart ..

theorem digestRelay (w : s.memWf) (h i : Nat) : (s.digestRelay h i).memWf := by
  unfold State.digestRelay
  split
  · exact w
  · next et =>
    split
    · exact w.takeRx et
    · have wu (g : HJob → HJob) (k j : Nat) := (w.takeRx et).modHJob k j g
      dsimp only
      split
      · exact wu ..
      · have wr (g : HJob → HJob) (k j : Nat) (f : Frame) (x : XHdr) := (wu g k j).reply h f x 1 0
        exact ite (ite ((wr ..).relayToPartner ..) (wr ..)) (ite ((wr ..).takeRelayed ..) ((wr ..).askRelayed ..))

theorem digestRetire (w : s.memWf) (h i : Nat) : (s.digestRetire h i).memWf := by
  unfold State.digestRetire
  split
  · exact w.dropDigest ..
  · next et => exact (w.takeDigest et).standAlone ..

theorem digestPause (w : s.memWf) (h i : Nat) : (s.digestPause h i).memWf := by
  unfold State.digestPause
  split
  · exact w.dropDigest ..
  · next et => exact (w.takeDigest et).modPart ..

theorem silence (w : s.memWf) (v : Fn) : (s.silence v).memWf := by
  unfold State.silence
  split
  · exact ite (w.standAlone ..) w
  · exact w

theorem relayTimeout (w : s.memWf) (h : Nat) (id : XferId) : (s.relayTimeout h id).memWf := by
  unfold State.relayTimeout
  split
  · exact w
  · split
    · exact w
    · exact ite ((w.modHJob ..).relayToPartner ..) w

/-! ### Above the frame layer -/

theorem receiptHere (w : s.memWf) (h num : Nat) (id : XferId) (code reason : Nat) : (s.receiptHere h num id code reason).memWf := by
  unfold State.receiptHere
  refine ite ?_ (w.takeReceipt ..)
  split
  · exact w.digestReceipt ..
  · exact w

theorem receiptRow (w : s.memWf) (h i : Nat) : (s.receiptRow h i).memWf := by
  unfold State.receiptRow
  split
  · exact w
  · next et => exact (w.takeRx et).receiptHere ..

theorem downFrame (w : s.memWf) (h i : Nat) (f : Frame) : (s.downFrame h i f).memWf := by
  unfold State.downFrame
  split
  · exact w
  · have wt (g : Port → Port) := (w.modPort h i g).endServing (portNum h i) f
    exact ite (wt _) (ite ((wt _).receiptHere ..) ((wt _).reply ..))

theorem frameTransmit (w : s.memWf) (h i : Nat) : (s.frameTransmit h i).memWf := by
  unfold State.frameTransmit
  dsimp only
  split
  · split
    · exact (w.modPort ..).endServing ..
    · exact w.modPort ..
  · split
    · exact w
    · split
      · exact w
      · exact (w.modPort ..).downFrame ..

theorem transit (w : s.memWf) (h i : Nat) : (s.transit h i).memWf := by
  unfold State.transit
  split
  · exact w
  · have wt (f : Port → Port) (g : Frame) : ((s.modPort h i f).credit h i g).memWf := (w.modPort ..).modPort ..
    exact ite ((wt ..).enqueue _) ((wt ..).downFrame ..)

theorem lnak (w : s.memWf) (h i : Nat) (f : Frame) : (s.lnak h i f).memWf := ite (((w.modPort ..).modPort ..).evidence ..) w

theorem retrainEnd (w : s.memWf) (h i : Nat) (good : Byte) (peerAck : Nat) : (s.retrainEnd h i good peerAck).memWf := by
  have wt := w.retrained h i good peerAck
  unfold State.retrainEnd
  refine ite (ite (wt.evidence ..) wt) (ite (wt.foldl (fun t v wt => ?_) _) wt)
  exact wt.leavePair v

theorem setHoldDown (w : s.memWf) (h i : Nat) (on : Bool) : (s.setHoldDown h i on).memWf :=
  ite ((w.modPort ..).portDown ..) (w.modPort ..)

theorem portCtrl (w : s.memWf) (fn : Fn) (h i : Nat) (retrain hold : Bool) : (s.portCtrl fn h i retrain hold).memWf := by
  have wt := w.setHoldDown h i hold
  unfold State.portCtrl
  exact ite (w.accessErr fn) (ite (w.record ..) (ite wt (ite (wt.accessErr fn) (wt.modPort ..))))

/-! ### Faults -/

theorem emitChain (w : s.memWf) (f : ChainFrame) : (s.emitChain f).memWf := by
  unfold State.emitChain
  split
  · exact w
  · exact w
  · exact w.of_eq rfl rfl

theorem notify (w : s.memWf) (what hall : Nat) : (s.notify what hall).memWf := w.emitChain _

theorem ringDown (w : s.memWf) (h i : Nat) : (s.ringDown h i).memWf := ite (w.portDown ..) w

theorem loseHall (w : s.memWf) (h : Nat) : (s.loseHall h).memWf := by
  unfold State.loseHall
  refine ite ?_ w
  dsimp only
  have gated : ({ s.modHall h Hall.gate with hallmap := s.hallmap &&& ~~~(1#8 <<< h) } : State).memWf :=
    (w.modHall h (f := Hall.gate) fun _ => rfl).of_eq rfl rfl
  have ringed := (gated.ringDown ((h + 7) % 8) 4).ringDown ((h + 1) % 8) 3
  have logged (u : State) (wu : u.memWf) : (u.present.foldl (fun t k => t.log k (LogEnt.of 0x0C (s.unitOf h))) u).memWf := by
    refine wu.foldl (fun t k wt => ?_) _
    exact wt.log ..
  have told := (logged _ ringed).notify 2 h
  have left (u : State) (wu : u.memWf) (v : Fn) : (if (u.part v).scState = 1 then u.leavePair v else u.failAll v 0x0902).memWf :=
    ite (wu.leavePair v) (wu.failAll v 0x0902)
  split
  · exact told
  · split
    · exact (left _ told _).standAlone ..
    · exact left _ told _

theorem residueHit (w : s.memWf) (h job pass unit lane : Nat) : (s.residueHit h job pass unit lane).memWf := by
  unfold State.residueHit
  dsimp only
  have logged (f : Hall → Hall) (e : LogEnt) (hf : ∀ H, (f H).hbm = H.hbm) := (w.modHall h hf).log h e
  split
  · refine ite (loseHall ?_ h) ?_ <;> exact logged _ _ fun _ => rfl
  · exact logged _ _ fun _ => rfl

theorem poisonLeave (w : s.memWf) (h : Nat) : (s.poisonLeave h).memWf := by
  unfold State.poisonLeave
  split
  · exact w.leavePair _
  · exact w

theorem hbmUncorrectable (w : s.memWf) (h addr : Nat) : (s.hbmUncorrectable h addr).memWf := by
  unfold State.hbmUncorrectable
  dsimp only
  have counted : (s.modHall h fun H => { H with hbmUncorr := satAdd 255 H.hbmUncorr 1 }).memWf := w.modHall h fun _ => rfl
  split
  · exact (counted.log ..).killCmd ..
  · refine ((counted.modHall h fun _ => ?_).log ..).poisonLeave h
    rfl

theorem undercroftEcc (w : s.memWf) (h row : Nat) (corrected : Bool) : (s.undercroftEcc h row corrected).memWf := by
  unfold State.undercroftEcc
  dsimp only
  have uncorr : (s.modHall h fun H => { H with uncUncorr := satAdd 255 H.uncUncorr 1 }).memWf := w.modHall h fun _ => rfl
  split
  · refine ((w.modHall h fun _ => ?_).log ..).evidence ..
    rfl
  · split
    · exact (uncorr.log ..).killCmd ..
    · refine ite (((uncorr.modHall h fun _ => ?_).log ..).poisonLeave h) (uncorr.log ..)
      rfl

theorem concWindow (w : s.memWf) (h : Nat) (counts : List Nat) : (s.modHall h (Machine.concWindow · counts)).memWf := by
  refine w.modHall h fun H => ?_
  unfold Machine.concWindow
  dsimp only
  split <;> rfl

end State.memWf

end Sys2Proof.Machine
end

section
/-! PROOFS. The work of an operation: what it writes in a memory, and what it leaves alone. -/

namespace Sys2Proof.Machine

/-! ### Writes within runs of bytes -/

/-- A byte lies in one of some runs. -/
def inSpans (l : List Span) (b : Nat) : Prop := ∃ sp ∈ l, sp.1 ≤ b ∧ b < sp.1 + sp.2

/-- A memory comes from another one by writes of the bytes of some runs. -/
structure WritesIn (l : List Span) (m m' : Mem) : Prop where
  wf : Mem.wf m = true → Mem.wf m' = true
  same : ∀ b, ¬ inSpans l b → memRead m' b = memRead m b

namespace WritesIn

variable {l : List Span} {m m' m'' : Mem}

theorem refl (l : List Span) (m : Mem) : WritesIn l m m := ⟨id, fun _ _ => rfl⟩

theorem trans (a : WritesIn l m m') (b : WritesIn l m' m'') : WritesIn l m m'' :=
  ⟨b.wf ∘ a.wf, fun x hx => (b.same x hx).trans (a.same x hx)⟩

theorem write {a : Nat} (v : Byte) (h : inSpans l a) : WritesIn l m (memWrite m a v) where
  wf w := Mem.wf_memWrite w a v
  same b hb := by rw [memRead_memWrite, if_neg]; rintro rfl; exact hb h

/-- A run of bytes that lies in one of the runs. -/
theorem writes {a : Nat} (bs : List Byte) (h : bs = [] ∨ ∃ sp ∈ l, sp.1 ≤ a ∧ a + bs.length ≤ sp.1 + sp.2) :
    WritesIn l m (memWrites m a bs) where
  wf w := Mem.wf_memWrites bs w a
  same b hb := by
    rcases h with rfl | ⟨sp, hsp, h1, h2⟩
    · rfl
    · refine memRead_memWrites_outside m a b bs ?_
      by_contra hc
      exact hb ⟨sp, hsp, by omega, by omega⟩

theorem mono {k : List Span} (h : WritesIn l m m') (hk : ∀ b, inSpans l b → inSpans k b) : WritesIn k m m' :=
  ⟨h.wf, fun b hb => h.same b fun hl => hb (hk b hl)⟩

theorem foldl {α : Type} {f : Mem → α → Mem} (hf : ∀ m a, WritesIn l m (f m a)) (xs : List α) (m : Mem) :
    WritesIn l m (xs.foldl f m) := by
  induction xs generalizing m with
  | nil => exact refl l m
  | cons a xs ih => exact (hf m a).trans (ih _)

theorem ite {c : Prop} [Decidable c] (h1 : WritesIn l m m') (h2 : WritesIn l m m'') : WritesIn l m (if c then m' else m'') := by
  by_cases hc : c
  · rw [if_pos hc]; exact h1
  · rw [if_neg hc]; exact h2

end WritesIn

@[simp] theorem natLE_length (n len : Nat) : (natLE n len).length = len := by
  induction len generalizing n with
  | zero => rfl
  | succ len ih => simp [natLE, ih]

/-! ### Writes of a face -/

section Faces

variable {d : TDesc} {k r : Nat} {packed : Bool}

theorem TDesc.row_mem_writeSpans (hr : r < d.rows) :
    (d.base k + r * d.pitch, if packed then d.pitch else d.rowBytes) ∈ d.writeSpans packed k := by
  simp only [TDesc.writeSpans, List.mem_append, List.mem_map, List.mem_range]
  exact .inl (.inl ⟨r, hr, rfl⟩)

theorem TDesc.plane_mem_writeSpans (hp : d.w.plane = true) : (d.planeBase k, d.rows * d.blocks) ∈ d.writeSpans packed k := by
  simp [TDesc.writeSpans, hp]

theorem TDesc.side_mem_writeSpans (hs : d.w.side = true) : (d.sideBase k, TDesc.sideLen) ∈ d.writeSpans packed k := by
  simp [TDesc.writeSpans, hs]

/-- The bytes of an element of a row lie in the row. -/
theorem putCode_writesIn (m : Mem) {i : Nat} (code : Nat) (hr : r < d.rows) (hi : i < d.cols) :
    WritesIn (d.writeSpans false k) m (putCode m d.w.fmt (d.base k + r * d.pitch) i code) := by
  have row := TDesc.row_mem_writeSpans (d := d) (k := k) (packed := false) hr
  have bits : fmtBits d.w.fmt ∈ [2, 4, 8, 16, 32, 64] := by
    unfold fmtBits
    split_ifs <;> simp
  have len : d.rowBytes = (d.cols * fmtBits d.w.fmt + 7) / 8 := rfl
  simp only [if_neg Bool.false_ne_true] at row
  unfold putCode
  dsimp only
  generalize fmtBits d.w.fmt = b at bits len
  split
  · next hb =>
    refine .write _ ⟨_, row, by omega, ?_⟩
    have : i * b / 8 < d.rowBytes := by
      rw [len]
      simp only [List.mem_cons, List.not_mem_nil, or_false] at bits
      rcases bits with rfl | rfl | rfl | rfl | rfl | rfl <;> omega
    dsimp only
    omega
  · next hb =>
    refine .writes _ (.inr ⟨_, row, by omega, ?_⟩)
    have : i * (b / 8) + b / 8 ≤ d.rowBytes := by
      rw [len]
      simp only [List.mem_cons, List.not_mem_nil, or_false] at bits
      rcases bits with rfl | rfl | rfl | rfl | rfl | rfl <;> omega
    rw [natLE_length]
    dsimp only
    omega

theorem putCodes_writesIn (codes : List Nat) (hr : r < d.rows) : ∀ (m : Mem) (i : Nat), i + codes.length ≤ d.cols →
    WritesIn (d.writeSpans false k) m (putCodes m d.w.fmt (d.base k + r * d.pitch) i codes) := by
  induction codes with
  | nil => exact fun m _ _ => .refl _ m
  | cons c cs ih =>
    intro m i hi
    simp only [List.length_cons] at hi
    exact (putCode_writesIn m c hr (by omega)).trans (ih _ (i + 1) (by omega))

theorem putRowCodes_writesIn (m : Mem) (r col0 : Nat) (fines codes : List Nat) :
    WritesIn (d.writeSpans packed k) m (putRowCodes m d k packed r col0 fines codes) := by
  unfold putRowCodes
  split
  · exact .refl _ m
  · next hr =>
    have row := TDesc.row_mem_writeSpans (d := d) (k := k) (packed := packed) (Nat.lt_of_not_le hr)
    cases packed with
    | true => exact .writes _ (.inr ⟨_, row, Nat.le_refl _, by simp⟩)
    | false =>
      by_cases hc : col0 ≤ d.cols
      · exact putCodes_writesIn _ (Nat.lt_of_not_le hr) m col0 (by rw [List.length_take]; omega)
      · rw [show codes.take (d.cols - col0) = [] by rw [Nat.sub_eq_zero_of_le (by omega)]; rfl]
        exact .refl _ m

theorem putFines_writesIn (m : Mem) (r j : Nat) (fines : List Nat) :
    WritesIn (d.writeSpans packed k) m (putFines m d k r j fines) := by
  unfold putFines
  split
  · next h =>
    have room : (r + 1) * d.blocks ≤ d.rows * d.blocks := Nat.mul_le_mul_right _ h.2
    have len : ((fines.take (d.blocks - j)).map (BitVec.ofNat 8)).length ≤ d.blocks - j := by
      rw [List.length_map, List.length_take]; omega
    refine .writes _ ?_
    by_cases hj : d.blocks ≤ j
    · exact .inl (List.eq_nil_of_length_eq_zero (by omega))
    · refine .inr ⟨_, TDesc.plane_mem_writeSpans h.1, by dsimp only; omega, ?_⟩
      rw [Nat.add_mul, Nat.one_mul] at room
      dsimp only
      omega
  · exact .refl _ m

theorem putSide_writesIn (m : Mem) (b : List Byte) : WritesIn (d.writeSpans packed k) m (putSide m d k b) := by
  unfold putSide
  split
  · next h => exact .writes _ (.inr ⟨_, TDesc.side_mem_writeSpans h, Nat.le_refl _, by rw [List.length_take]; dsimp only; omega⟩)
  · exact .refl _ m

theorem recoarseRow_writesIn (aff : Affine) (cs cd : Int) (j0 j1 : Nat) (side : List (Nat × Nat))
    (st : Mem × List (Nat × Nat × List ElOut)) (r : Nat) :
    WritesIn (d.writeSpans packed k) st.1 (recoarseRow d k packed aff cs cd j0 j1 side st r).1 := by
  unfold recoarseRow
  exact (WritesIn.ite (.refl _ _) (putRowCodes_writesIn ..)).trans (putFines_writesIn ..)

theorem recoarseRows_writesIn (m : Mem) (aff : Affine) (cs cd : Int) (rows : List Nat) (j0 j1 : Nat) (side : List (Nat × Nat)) :
    WritesIn (d.writeSpans packed k) m (recoarseRows m d k packed aff cs cd rows j0 j1 side).1 := by
  have fold : ∀ (l : List Nat) (st : Mem × List (Nat × Nat × List ElOut)),
      WritesIn (d.writeSpans packed k) st.1 (l.foldl (recoarseRow d k packed aff cs cd j0 j1 side) st).1 := by
    intro l
    induction l with
    | nil => exact fun st => .refl _ st.1
    | cons r l ih => exact fun st => (recoarseRow_writesIn ..).trans (ih _)
  unfold recoarseRows
  split
  · exact .refl _ m
  · exact fold rows (m, [])

@[simp] theorem memReads_length (m : Mem) (a n : Nat) : (memReads m a n).length = n := by simp [memReads]

/-- The fill writes the face that is not committed. -/
theorem copyFace_writesIn (m : Mem) : WritesIn (d.writeSpans packed (1 - k)) m (copyFace m d k packed) := by
  have rows (m : Mem) (l : List Nat) (hl : ∀ r ∈ l, r < d.rows) : WritesIn (d.writeSpans packed (1 - k)) m (l.foldl (fun m r =>
      copyRun m (d.base k + r * d.pitch) (d.base (1 - k) + r * d.pitch) (if packed then d.pitch else d.rowBytes)) m) := by
    induction l generalizing m with
    | nil => exact .refl _ m
    | cons r l ih =>
      refine .trans (.writes _ (.inr ⟨_, TDesc.row_mem_writeSpans (hl r (by simp)), Nat.le_refl _, ?_⟩))
        (ih _ fun x hx => hl x (by simp [hx]))
      rw [memReads_length]
  have plane (m : Mem) : WritesIn (d.writeSpans packed (1 - k)) m
      (if d.w.plane then copyRun m (d.planeBase k) (d.planeBase (1 - k)) (d.rows * d.blocks) else m) := by
    split
    · next h => exact .writes _ (.inr ⟨_, TDesc.plane_mem_writeSpans h, Nat.le_refl _, by rw [memReads_length]⟩)
    · exact .refl _ m
  have side (m : Mem) : WritesIn (d.writeSpans packed (1 - k)) m (if d.w.side then
      copyRun m (d.sideBase k) (d.sideBase (1 - k)) (8 + 8 * min 4096 (leNat (memReads m (d.sideBase k) 4))) else m) := by
    split
    · next h =>
      refine .writes _ (.inr ⟨_, TDesc.side_mem_writeSpans h, Nat.le_refl _, ?_⟩)
      rw [memReads_length]
      dsimp only [TDesc.sideLen]
      omega
    · exact .refl _ _
  unfold copyFace
  exact ((rows m _ fun r hr => List.mem_range.mp hr).trans (plane _)).trans (side _)

end Faces

end Sys2Proof.Machine
end

section
/-! PROOFS. The frame of an operation's work: everything outside its own attempt, the stacks and the bays is as it was, what is
committed stands, and a byte is written in a face that the attempt stages. -/

namespace Sys2Proof.Machine

/-! ### What the work of an operation changes -/

/-- The state without what an operation's work may change. -/
def State.offWork (s : State) : State := { s with jobs := [], halls := [], free := 0 }

def Hall.offWork (H : Hall) : Hall := { H with hbm := [], gals := [] }

/-- An attempt without the rows, tiles, staged faces, statistics and draws that the work adds to it. -/
def Attempt.offWork (a : Attempt) : Attempt :=
  { a with twins := [], early := [], staged := [], tiles := [], stats := [], sqs := [], auds := [], hist := [], perRow := [],
           freed := [], riserDraw := [], sampDraw := [], lossNf := [], stateBlk := [], evidence := 0 }

def Job.offWork (j : Job) (slot : Nat) : Job := j.modCmd slot fun c => { c with att := c.att.offWork }

/-- Where a staged face stands: its hall, its descriptor, the face and whether it is packed. -/
def Staged.place (st : Staged) : Nat × TDesc × Nat × Bool := (st.hall, st.d, st.face, st.packed)

/-- Faces are staged beside those that are staged already. -/
def StagesMore (a b : Attempt) : Prop := ∃ l, b.staged.map Staged.place = a.staged.map Staged.place ++ l

namespace StagesMore

theorem of_places {a b : Attempt} (h : b.staged.map Staged.place = a.staged.map Staged.place) : StagesMore a b :=
  ⟨[], by rw [h, List.append_nil]⟩

theorem refl (a : Attempt) : StagesMore a a := of_places rfl

theorem trans {a b c : Attempt} (h : StagesMore a b) (k : StagesMore b c) : StagesMore a c := by
  obtain ⟨l, hl⟩ := h
  obtain ⟨l', hl'⟩ := k
  exact ⟨l ++ l', by rw [hl', hl, List.append_assoc]⟩

end StagesMore

/-- Bytes of a hall's stack in the faces that an attempt stages, under the descriptors of some uses. -/
def Attempt.spansUnder (a : Attempt) (U : List Use) (h : Nat) : List Span :=
  a.staged.flatMap fun st => (U.filter fun u => st.hall == h && u.hall == h && u.d.pair == st.d.pair).flatMap
    fun u => u.d.writeSpans st.packed st.face

theorem Attempt.inSpans_spansUnder {a : Attempt} {U : List Use} {h b : Nat} : inSpans (a.spansUnder U h) b ↔
    ∃ p ∈ a.staged.map Staged.place, ∃ u ∈ U, p.1 = h ∧ u.hall = h ∧ u.d.pair = p.2.1.pair
      ∧ inSpans (u.d.writeSpans p.2.2.2 p.2.2.1) b := by
  simp only [inSpans, Attempt.spansUnder, List.mem_flatMap, List.mem_filter, List.mem_map, Bool.and_eq_true, beq_iff_eq]
  constructor
  · rintro ⟨sp, ⟨st, hst, u, ⟨hu, ⟨h1, h2⟩, h3⟩, hsp⟩, hb⟩
    exact ⟨st.place, ⟨st, hst, rfl⟩, u, hu, h1, h2, h3, sp, hsp, hb⟩
  · rintro ⟨_, ⟨st, hst, rfl⟩, u, hu, h1, h2, h3, sp, hsp, hb⟩
    exact ⟨sp, ⟨st, hst, u, ⟨hu, ⟨h1, h2⟩, h3⟩, hsp⟩, hb⟩

theorem StagesMore.spansUnder {a b : Attempt} (hm : StagesMore a b) {U : List Use} {h x : Nat}
    (hx : inSpans (a.spansUnder U h) x) : inSpans (b.spansUnder U h) x := by
  obtain ⟨l, hl⟩ := hm
  rw [Attempt.inSpans_spansUnder] at hx ⊢
  obtain ⟨p, hp, rest⟩ := hx
  exact ⟨p, by rw [hl]; exact List.mem_append_left l hp, rest⟩

/-- The frame of the work of a command: `U` are the uses whose faces it may write. -/
structure OpFrame (q : Page) (slot : Nat) (U : List Use) (s t : State) : Prop where
  rest : t.offWork = s.offWork
  hall : ∀ h, (t.hall h).offWork = (s.hall h).offWork
  others : ∀ k, k ≠ q → t.job k = s.job k
  own : (t.job q).offWork slot = (s.job q).offWork slot
  staged : StagesMore (s.att q slot) (t.att q slot)
  wf : s.memWf → t.memWf
  bytes : ∀ h b, ¬ inSpans ((t.att q slot).spansUnder U h) b → memRead (t.hall h).hbm b = memRead (s.hall h).hbm b

namespace OpFrame

variable {q : Page} {slot : Nat} {U : List Use} {s t u : State}

theorem refl (s : State) : OpFrame q slot U s s :=
  ⟨rfl, fun _ => rfl, fun _ _ => rfl, rfl, .refl _, id, fun _ _ _ => rfl⟩

theorem trans (a : OpFrame q slot U s t) (b : OpFrame q slot U t u) : OpFrame q slot U s u where
  rest := b.rest.trans a.rest
  hall h := (b.hall h).trans (a.hall h)
  others k hk := (b.others k hk).trans (a.others k hk)
  own := b.own.trans a.own
  staged := a.staged.trans b.staged
  wf := b.wf ∘ a.wf
  bytes h x hx := (b.bytes h x hx).trans (a.bytes h x fun hy => hx (b.staged.spansUnder hy))

theorem foldl {α : Type} {f : State → α → State} (h : OpFrame q slot U s t)
    (hf : ∀ t a, OpFrame q slot U s t → OpFrame q slot U s (f t a)) (l : List α) : OpFrame q slot U s (l.foldl f t) := by
  induction l generalizing t with
  | nil => exact h
  | cons a l ih => exact ih (hf t a h)

theorem ite {c : Prop} [Decidable c] (ht : OpFrame q slot U s t) (hu : OpFrame q slot U s u) :
    OpFrame q slot U s (if c then t else u) := by
  by_cases hc : c
  · rw [if_pos hc]; exact ht
  · rw [if_neg hc]; exact hu

/-- The uses of the attempt stand. -/
theorem attempt (h : OpFrame q slot U s t) : (t.att q slot).offWork = (s.att q slot).offWork := by
  have find (j : Job) : (((j.offWork slot).cmd? slot).map Cmd.att).getD Attempt.empty
      = (((j.cmd? slot).map Cmd.att).getD Attempt.empty).offWork := by
    unfold Job.offWork Job.modCmd Job.cmd?
    rw [List.find?_map]
    have comp : ((fun x : Cmd => x.slot == slot) ∘ fun c => if c.slot = slot then { c with att := c.att.offWork } else c)
        = fun x : Cmd => x.slot == slot := by
      funext c
      by_cases hc : c.slot = slot <;> simp [hc]
    rw [comp]
    cases hf : j.cmds.find? (fun x => x.slot == slot) with
    | none => rfl
    | some c =>
      have hc : c.slot = slot := by simpa using List.find?_some hf
      simp [hc]
  have e := congrArg (fun j : Job => ((j.cmd? slot).map Cmd.att).getD Attempt.empty) h.own
  rw [find, find] at e
  exact e

theorem uses (h : OpFrame q slot U s t) : (t.att q slot).uses = (s.att q slot).uses := (congrArg Attempt.uses h.attempt :)

/-! ### The units of the work -/

theorem bumpFree (h : OpFrame q slot U s t) (n : Nat) : OpFrame q slot U s { t with free := n } :=
  h.trans ⟨rfl, fun _ => rfl, fun _ _ => rfl, rfl, .refl _, id, fun _ _ _ => rfl⟩

/-- A change of the attempt that adds to what the work may add to. -/
theorem modAtt (h : OpFrame q slot U s t) {f : Attempt → Attempt} (hf : ∀ a, (f a).offWork = a.offWork)
    (hs : ∀ a, StagesMore a (f a)) : OpFrame q slot U s (t.modAtt q slot f) := by
  refine h.trans ⟨rfl, fun _ => rfl, fun k hk => ?_, ?_, ?_, id, fun _ _ _ => rfl⟩
  · unfold State.modAtt State.modCmd
    rw [State.job_modJob, if_neg hk]
  · unfold State.modAtt State.modCmd
    rw [State.job_modJob_self]
    unfold Job.offWork Job.modCmd
    congr 1
    rw [List.map_map]
    refine List.map_congr_left fun c _ => ?_
    by_cases hc : c.slot = slot <;> simp [hc, hf]
  · cases hc : t.cmd? q slot with
    | none =>
      have e : (t.modAtt q slot f).cmd? q slot = none := by
        simpa [hc] using State.cmd?_modAtt_isSome t q slot f slot
      simp only [State.att, hc, e]
      exact .refl _
    | some c => rw [State.att_modAtt t q slot f (by simp [hc])]; exact hs _

/-- A change of the attempt that stages nothing. -/
theorem modAtt' (h : OpFrame q slot U s t) {f : Attempt → Attempt} (hf : ∀ a, (f a).offWork = a.offWork)
    (hs : ∀ a, (f a).staged = a.staged) : OpFrame q slot U s (t.modAtt q slot f) :=
  h.modAtt hf fun a => .of_places (by rw [hs])

theorem modGal (h : OpFrame q slot U s t) (k g : Nat) (f : Gal → Gal) : OpFrame q slot U s (t.modGal k g f) := by
  have hall (i : Nat) : ((t.modGal k g f).hall i).offWork = (t.hall i).offWork ∧ ((t.modGal k g f).hall i).hbm = (t.hall i).hbm := by
    unfold State.modGal
    rw [State.hall_modHall]
    split
    · next e => subst e; exact ⟨rfl, rfl⟩
    · exact ⟨rfl, rfl⟩
  exact h.trans ⟨rfl, fun i => (hall i).1, fun _ _ => rfl, rfl, .refl _, (·.modGal k g f), fun i b _ => by rw [(hall i).2]⟩

/-- Bytes of a face that is staged are written. -/
theorem putFace (h : OpFrame q slot U s t) {u : Use} (hu : u ∈ U) {st : Staged} (hst : (t.att q slot).staged? u = some st)
    {f : Mem → Mem} (hf : WritesIn (u.d.writeSpans st.packed st.face) (t.hall u.hall).hbm (f (t.hall u.hall).hbm)) :
    OpFrame q slot U s (t.modFace u f) := by
  have place : st ∈ (t.att q slot).staged ∧ st.hall = u.hall ∧ st.d.pair = u.d.pair := by
    unfold Attempt.staged? at hst
    exact ⟨List.mem_of_find?_eq_some hst, by simpa using List.find?_some hst⟩
  obtain ⟨hmem, hh, hp⟩ := place
  refine h.trans ⟨rfl, fun i => ?_, fun _ _ => rfl, rfl, .refl _, fun w => State.memWf_modHall w _ _ hf.wf, fun i b hb => ?_⟩
  · unfold State.modFace
    rw [State.hall_modHall]
    split
    · next e => subst e; rfl
    · rfl
  · unfold State.modFace
    rw [State.hall_modHall]
    split
    · next e =>
      subst e
      refine hf.same b fun hin => hb ?_
      exact Attempt.inSpans_spansUnder.mpr ⟨st.place, List.mem_map_of_mem hmem, u, hu, hh, rfl, hp.symm, hin⟩
    · rfl

theorem modFace (h : OpFrame q slot U s t) {u : Use} (hu : u ∈ U) {f : Mem → Mem} {st : Staged}
    (hst : (t.att q slot).staged? u = some st) (hf : ∀ m, WritesIn (u.d.writeSpans st.packed st.face) m (f m)) :
    OpFrame q slot U s (t.modFace u f) := h.putFace hu hst (hf _)

/-! ### What the frame says of the state -/

theorem sameOutside (h : OpFrame q slot U s t) : SameOutside q s t :=
  ⟨(congrArg State.parts h.rest :), (congrArg State.fns h.rest :), (congrArg State.host h.rest :), (congrArg State.slots h.rest :),
    (congrArg State.pending h.rest :), h.others⟩

theorem sameCommitted (h : OpFrame q slot U s t) : SameCommitted s t := fun k =>
  ⟨(congrArg Hall.faces1 (h.hall k) :), (congrArg Hall.scale (h.hall k) :), (congrArg Hall.unc (h.hall k) :),
    (congrArg Hall.taken (h.hall k) :), (congrArg Hall.step (h.hall k) :), (congrArg Hall.riser (h.hall k) :),
    (congrArg Hall.sampler (h.hall k) :), (congrArg Hall.commits (h.hall k) :)⟩

theorem parts (h : OpFrame q slot U s t) : t.parts = s.parts := h.sameOutside.1

theorem plan? (h : OpFrame q slot U s t) (k : Page) : t.plan? k = s.plan? k := by
  unfold State.plan? State.part
  rw [h.parts]

/-- An answer that is framed. -/
theorem answers_foldE {α : Type} {f : State → α → Except Nat State}
    (hf : ∀ t a, OpFrame q slot U s t → Answers (OpFrame q slot U s) (f t a)) (l : List α) :
    ∀ {t : State}, OpFrame q slot U s t → Answers (OpFrame q slot U s) (foldE f t l) := by
  induction l with
  | nil => exact fun h => .ok h
  | cons a l ih =>
    intro t h
    unfold foldE
    split
    · exact .error
    · next e => exact ih (hf t a h _ e)

end OpFrame

end Sys2Proof.Machine
end

section
/-! PROOFS. The frame of the work on rows, staged faces and bays, and of an elementwise pass. -/

namespace Sys2Proof.Machine

theorem Answers.guard {ε α : Type} {P : α → Prop} {c : Prop} [Decidable c] {e : ε} {r : Except ε α} (h : Answers P r) :
    Answers P (if c then .error e else r) := by
  by_cases hc : c
  · rw [if_pos hc]; exact .error
  · rw [if_neg hc]; exact h

theorem Answers.ite {ε α : Type} {P : α → Prop} {c : Prop} [Decidable c] {r r' : Except ε α} (h : Answers P r)
    (h' : Answers P r') : Answers P (if c then r else r') := by
  by_cases hc : c
  · rw [if_pos hc]; exact h
  · rw [if_neg hc]; exact h'

theorem Attempt.use?_mem {a : Attempt} {h n : Nat} {u : Use} (e : a.use? h n = some u) : u ∈ a.uses := by
  unfold Attempt.use? at e
  split at e
  · next e' => cases e; exact List.mem_of_find?_eq_some e'
  · exact List.mem_of_find?_eq_some e

/-- An attempt that has uses is that of a command. -/
theorem State.cmd?_isSome_of_use {s : State} {q : Page} {slot : Nat} {u : Use} (h : u ∈ (s.att q slot).uses) :
    (s.cmd? q slot).isSome = true := by
  cases e : s.cmd? q slot with
  | none => simp [State.att, e, Attempt.empty] at h
  | some c => rfl

/-- What entering a row's data keeps, entering a partial keeps. -/
theorem State.accept_answers {q : Page} {slot : Nat} {P : State → Prop} (hP : ∀ t l r, P t → ∀ {k : Nat}, P (t.setRow q slot k l r))
    {t : State} (h : P t) (k a : Nat) (key : RowKey) (v : List Word) (m : Nat) :
    Answers (fun r => P r.1) (t.accept q slot k a key v m) := by
  unfold State.accept
  dsimp only
  refine Answers.guard (Answers.guard (Answers.guard (Answers.guard (Answers.guard ?_))))
  generalize acceptRow _ _ v m = r
  have rows (l : List (Nat × List Word)) : ∀ t, P t → P (l.foldl (fun s w =>
      s.setRow q slot k (a + w.1) { s.viewRow q slot k (a + w.1) with data := w.2 }) t) := by
    induction l with
    | nil => exact fun _ h => h
    | cons w l ih => exact fun t h => ih _ (hP _ _ _ h)
  exact .ok (hP _ _ _ (rows _ _ h))

namespace OpFrame

variable {q : Page} {slot : Nat} {U : List Use} {s t : State}

/-! ### Rows -/

theorem setRow (h : OpFrame q slot U s t) (k l : Nat) (r : URow) : OpFrame q slot U s (t.setRow q slot k l r) := by
  unfold State.setRow
  split
  · exact h.modAtt' (fun _ => rfl) fun _ => rfl
  · exact (h.bumpFree (t.free + 1)).modAtt' (fun _ => rfl) fun _ => rfl

theorem releaseRows (h : OpFrame q slot U s t) (k : Nat) (ls : List Nat) : OpFrame q slot U s (t.releaseRows q slot k ls) :=
  h.modAtt' (fun _ => rfl) fun _ => rfl

theorem accept (h : OpFrame q slot U s t) (k a : Nat) (key : RowKey) (v : List Word) (m : Nat) :
    Answers (fun r => OpFrame q slot U s r.1) (t.accept q slot k a key v m) :=
  State.accept_answers (fun _ _ _ h => h.setRow ..) h k a key v m

theorem putSingle {x : OpCtx} (h : OpFrame x.page x.slot U s t) (row acc sfmt slots : Nat) (v : List Word) :
    Answers (OpFrame x.page x.slot U s) (t.putSingle x row acc sfmt slots v) := by
  unfold State.putSingle
  split
  · exact .error
  · next e => exact .ok (h.accept _ _ _ _ _ _ e)

theorem addTiles (h : OpFrame q slot U s t) (l : List Tile) : OpFrame q slot U s (t.modAtt q slot (·.addTiles l)) :=
  h.modAtt' (fun _ => rfl) fun _ => rfl

/-! ### Statistics -/

theorem modStat (h : OpFrame q slot U s t) (u : Use) (c : Int) (f : Stat → Stat) : OpFrame q slot U s (t.modStat q slot u c f) :=
  .ite (h.modAtt' (fun _ => rfl) fun _ => rfl) h

theorem addSqs (h : OpFrame q slot U s t) (u : Use) (l : List (Nat × Nat)) : OpFrame q slot U s (t.addSqs q slot u l) :=
  .ite (h.modAtt' (fun _ => rfl) fun _ => rfl) h

theorem countInvalid (h : OpFrame q slot U s t) (u : Use) (n : Nat) : OpFrame q slot U s (t.countInvalid q slot u n) :=
  .ite (h.modAtt' (fun _ => rfl) fun _ => rfl) h

theorem countRead (h : OpFrame q slot U s t) (u : Use) (els : List (Nat × Nat)) : OpFrame q slot U s (t.countRead q slot u els) :=
  h.countInvalid ..

theorem countFace (h : OpFrame q slot U s t) (u : Use) (packed : Bool) (rows : List Nat) (col n : Nat) :
    OpFrame q slot U s (t.countFace q slot u packed rows col n) := by
  unfold State.countFace
  split
  · exact h.countRead ..
  · exact h

theorem pushMax (h : OpFrame q slot U s t) (k n : Nat) (m : Option Int) :
    OpFrame q slot U s (t.modAtt q slot fun a => a.pushMax k n m) := by
  refine h.modAtt' (fun a => ?_) fun a => ?_ <;> unfold Attempt.pushMax <;> split
  · rfl
  · split <;> rfl
  · rfl
  · split <;> rfl

/-! ### Staged faces -/

/-- A change of the entry of a staged face that leaves its place. -/
theorem modStaged (h : OpFrame q slot U s t) (u : Use) {f : Staged → Staged} (hf : ∀ st, (f st).place = st.place) :
    OpFrame q slot U s (t.modStaged q slot u f) := by
  refine h.modAtt (fun _ => rfl) fun a => .of_places ?_
  rw [List.map_map]
  refine List.map_congr_left fun st _ => ?_
  dsimp only [Function.comp]
  split
  · exact hf st
  · rfl

theorem faceAffine (h : OpFrame q slot U s t) (u : Use) (a : Nat) : OpFrame q slot U s (t.faceAffine q slot u a) :=
  .ite (h.modStaged u fun _ => rfl) h

/-- The fill of a staging face writes the face that is not committed, and stages it. -/
theorem openFace (h : OpFrame q slot U s t) {u : Use} (hu : u ∈ U) (hc : u ∈ (t.att q slot).uses) (w : Writer) :
    OpFrame q slot U s (t.openFace q slot u w) := by
  unfold State.openFace
  split
  · refine h.modAtt (fun _ => rfl) fun a => .of_places ?_
    rw [List.map_map]
    refine List.map_congr_left fun st _ => ?_
    dsimp only [Function.comp]
    split <;> rfl
  · dsimp only
    generalize Plan.isPacked (t.plan? q) u.d.tensor = packed
    generalize (if u.d.w.side = true then _ else _ : List (Nat × Nat)) = side
    have fill : WritesIn (u.d.writeSpans packed (1 - u.face)) (t.hall u.hall).hbm
        (recoarseRows (copyFace (t.hall u.hall).hbm u.d u.face packed) u.d (1 - u.face) packed (Affine.ofNat u.aff) u.coarse
          (u.writeCoarse w).1 (List.range u.d.rows) 0 u.d.blocks side).1 :=
      (copyFace_writesIn _).trans (recoarseRows_writesIn ..)
    generalize recoarseRows _ u.d (1 - u.face) packed _ u.coarse _ _ 0 u.d.blocks side = r at fill ⊢
    set v := t.modHall u.hall fun H => { H with hbm := r.1 } with hv
    have place (f : Attempt → Attempt) (st : Staged) (hf : ∀ a, (f a).offWork = a.offWork)
        (hst : ∀ a, (f a).staged = a.staged ++ [st]) (hh : st.hall = u.hall) (hd : st.d = u.d) (hk : st.face = 1 - u.face)
        (hp : st.packed = packed) : OpFrame q slot U t (v.modAtt q slot f) := by
      have mine : OpFrame q slot U v (v.modAtt q slot f) := (OpFrame.refl v).modAtt hf fun a => ⟨[st.place], by rw [hst]; simp⟩
      have att : (v.modAtt q slot f).att q slot = f (t.att q slot) := State.att_modAtt v q slot f (State.cmd?_isSome_of_use hc)
      refine ⟨mine.rest, fun k => (mine.hall k).trans ?_, mine.others, mine.own, mine.staged, fun wf => mine.wf ?_, fun k b hb => ?_⟩
      · rw [hv, State.hall_modHall]
        split
        · next e => subst e; rfl
        · rfl
      · exact State.memWf_modHall wf _ _ fill.wf
      · change memRead (v.hall k).hbm b = _
        rw [hv, State.hall_modHall]
        split
        · next e =>
          subst e
          refine fill.same b fun hin => hb (Attempt.inSpans_spansUnder.mpr ⟨st.place, ?_, u, hu, hh, rfl, ?_, ?_⟩)
          · rw [att, hst]; simp
          · dsimp only [Staged.place]; rw [hd]
          · dsimp only [Staged.place]; rw [hk, hp]; exact hin
        · rfl
    exact h.trans (place _ _ (fun _ => rfl) (fun _ => rfl) rfl rfl rfl rfl)

theorem putBlocks (h : OpFrame q slot U s t) {u : Use} (hu : u ∈ U) (x : WriteCtx) (first col0 nc : Nat)
    (rows : List (List BlockOut)) (cs : List (Nat × Val)) : OpFrame q slot U s (t.putBlocks q slot u x first col0 nc rows cs) := by
  unfold State.putBlocks
  split
  · exact h
  · next st hst =>
    dsimp only
    refine addTiles ?_ _
    have wrote := h.modFace hu hst fun m => WritesIn.foldl (fun m (z : List BlockOut × Nat) =>
      (putRowCodes_writesIn m (first + z.2) col0 (z.1.map BlockOut.fine) (Machine.rowCodes z.1)).trans
        (putFines_writesIn _ (first + z.2) (col0 / u.d.w.blk) (z.1.map BlockOut.fine))) rows.zipIdx m
    have counted {e : Staged → Staged} (he : ∀ st, (e st).place = st.place) {c : Int} {g : Stat → Stat} {l : List (Nat × Nat)} :=
      ((wrote.modStaged u he).modStat u c g).addSqs u l
    refine .ite ((counted ?_).pushMax ..) (counted ?_) <;> exact fun _ => rfl

theorem putRows (h : OpFrame q slot U s t) {u : Use} (hu : u ∈ U) (x : WriteCtx) (first col0 : Nat) (vals : List (List Val)) :
    OpFrame q slot U s (t.putRows q slot u x first col0 vals) := by
  unfold State.putRows
  split
  · exact h
  · exact .ite (h.modStaged u fun _ => rfl) (h.putBlocks hu ..)

theorem putSpan (h : OpFrame q slot U s t) {u : Use} (hu : u ∈ U) (x : WriteCtx) (first col0 : Nat) (vals : List (List Val)) :
    OpFrame q slot U s (t.putSpan q slot u x first col0 vals) := by
  unfold State.putSpan
  split
  · exact h
  · exact h.putRows hu ..

theorem putCodesRows (h : OpFrame q slot U s t) {u : Use} (hu : u ∈ U) (first col0 : Nat) (cs : Int)
    (rows : List (List Nat × List Nat)) (side : List (Nat × Nat)) :
    OpFrame q slot U s (t.putCodesRows q slot u first col0 cs rows side) := by
  unfold State.putCodesRows
  split
  · exact h
  · next st hst =>
    dsimp only
    have codes : WritesIn (u.d.writeSpans st.packed st.face) (t.hall u.hall).hbm (rows.zipIdx.foldl (fun m (z : (List Nat × List Nat) × Nat) =>
        putFines (putRowCodes m u.d st.face st.packed (first + z.2) col0 z.1.2 z.1.1) u.d st.face (first + z.2)
          (ceilDiv col0 u.d.w.blk) z.1.2) (t.hall u.hall).hbm) :=
      WritesIn.foldl (fun m z => (putRowCodes_writesIn ..).trans (putFines_writesIn ..)) _ _
    have moved := codes.trans (recoarseRows_writesIn (d := u.d) (k := st.face) (packed := st.packed) _ (Affine.ofNat st.aff) cs st.coarse
      ((List.range rows.length).map (first + ·)) (ceilDiv col0 u.d.w.blk)
      (ceilDiv col0 u.d.w.blk + (ceilDiv (col0 + (rows.headD ([], [])).1.length) u.d.w.blk - ceilDiv col0 u.d.w.blk)) side)
    generalize recoarseRows _ u.d st.face st.packed _ cs st.coarse _ _ _ side = r at moved ⊢
    have wrote := h.putFace (f := fun _ => r.1) hu hst moved
    refine .ite (((wrote.modStaged u ?_).modStat ..).pushMax ..) ((wrote.modStaged u ?_).modStat ..) <;> exact fun _ => rfl

/-! ### Bays -/

theorem loadBay {x : OpCtx} (h : OpFrame x.page x.slot U s t) (g b n : Nat) (chunks : List ChunkPos) :
    Answers (OpFrame x.page x.slot U s) (t.loadBay x g b n chunks) := by
  unfold State.loadBay
  dsimp only
  split
  · exact .error
  split
  · exact .error
  split
  · exact .error
  exact .ok (((h.bumpFree _).modGal ..).countInvalid ..)

theorem freshChunks {x : OpCtx} (h : OpFrame x.page x.slot U s t) (u : Use) (gs : List Nat) (cs : List ChunkPos) :
    Answers (OpFrame x.page x.slot U s) (t.freshChunks x u gs cs) := by
  refine answers_foldE (fun t c h => ?_) cs h
  unfold State.freshChunk
  split
  · exact .error
  split
  · exact .error
  exact Answers.ite (h.loadBay _ _ _ _) (.ok h)

theorem freshTensor {x : OpCtx} (h : OpFrame x.page x.slot U s t) (u : Use) (gs : List Nat) :
    Answers (OpFrame x.page x.slot U s) (t.freshTensor x u gs) :=
  answers_foldE (fun _ _ h => answers_foldE (fun _ _ h => Answers.ite (h.loadBay _ _ _ _) (.ok h)) _ h) gs h

theorem bayload {x : OpCtx} (h : OpFrame x.page x.slot U s t) (o : BayloadOp) :
    Answers (OpFrame x.page x.slot U s) (t.bayload x o) :=
  answers_foldE (fun _ _ h => answers_foldE (fun _ _ h => h.loadBay _ _ _ _) _ h) _ h

/-! ### An elementwise pass -/

theorem eOperandA {x : OpCtx} (h : OpFrame x.page x.slot U s t) (o : EOp) :
    Answers (fun r => OpFrame x.page x.slot U s r.1) (t.eOperandA x o) := by
  unfold State.eOperandA
  refine Answers.ite ?_ ?_
  · split
    · exact .error
    · exact .ok h
  · dsimp only
    split
    · exact .error
    split
    · exact .error
    next e => exact .guard (.ok (h.freshTensor _ _ _ e))

theorem eVectors {x : OpCtx} (h : OpFrame x.page x.slot U s t) (o : EOp) :
    Answers (fun r => OpFrame x.page x.slot U s r.1) (t.eVectors x o) := by
  unfold State.eVectors
  refine Answers.ite (.ok h) (.ite ?_ ?_)
  · split
    · exact .error
    · exact .ok h
  · dsimp only
    split
    · exact .error
    split
    · exact .error
    · exact .ok (h.countRead ..)

theorem eToRows {x : OpCtx} (h : OpFrame x.page x.slot U s t) (o : EOp) (out : List EOut) :
    Answers (OpFrame x.page x.slot U s) (t.eToRows x o out) :=
  answers_foldE (fun _ _ h => h.putSingle _ _ _ _ _) _ h

theorem putElems {x : OpCtx} (h : OpFrame x.page x.slot U s t) {u : Use} (hu : u ∈ U) (r : Nat) (els : List (Nat × EOut)) :
    OpFrame x.page x.slot U s (t.putElems x u r els) := by
  unfold State.putElems
  split
  · exact h
  · exact h.foldl (fun _ _ h => h.putRows hu ..) _

end OpFrame

/-- The frame of an operation's work over the uses of its command. -/
abbrev OpCtx.Works (x : OpCtx) (s t : State) : Prop := OpFrame x.page x.slot (s.att x.page x.slot).uses s t

namespace OpFrame

variable {x : OpCtx} {s t : State}

theorem use_mem (h : x.Works s t) {k n : Nat} {u : Use} (e : (t.att x.page x.slot).use? k n = some u) :
    u ∈ (s.att x.page x.slot).uses ∧ u ∈ (t.att x.page x.slot).uses := by
  have m := Attempt.use?_mem e
  exact ⟨h.uses ▸ m, m⟩

theorem eToTensor (h : x.Works s t) (o : EOp) (tiles : List ETile) (out : List EOut) :
    Answers (x.Works s) (t.eToTensor x o tiles out) := by
  unfold State.eToTensor
  split
  · exact .error
  · next e =>
    obtain ⟨hu, hc⟩ := h.use_mem e
    exact .ok ((h.openFace hu hc _).foldl (fun _ _ h => h.putElems hu ..) _)

theorem epass (h : x.Works s t) (o : EOp) : Answers (x.Works s) (t.epass x o) := by
  unfold State.epass
  split
  · exact .error
  next ea =>
  split
  · exact .error
  next ev =>
  have v := OpFrame.eVectors (h.eOperandA o _ ea) o _ ev
  dsimp only
  split
  · exact .error
  next er =>
  refine .ok ?_
  have r : x.Works s _ := Answers.ite ((v.addTiles _).eToTensor o _ _) ((v.addTiles _).eToRows o _) _ er
  exact .ite (r.releaseRows ..) r

end OpFrame

end Sys2Proof.Machine
end

section
/-! PROOFS. The frame of the work of NEWEL, of the operations between memory and rows, and of APPLY. -/

namespace Sys2Proof.Machine

namespace OpFrame

variable {x : OpCtx} {s t : State}

/-! ### NEWEL -/

theorem sampDrew (h : x.Works s t) (lane n : Nat) : x.Works s (t.sampDrew x lane n) := h.modAtt' (fun _ => rfl) fun _ => rfl

theorem sampleRows (h : x.Works s t) (o : NewelOp) (v : NewelIn) : x.Works s (t.sampleRows x o v).1 := by
  unfold State.sampleRows
  have keep (l : List (List Nat × Nat)) : ∀ acc : State × List (List Nat), x.Works s acc.1 →
      x.Works s (l.foldl (fun acc z => (acc.1.sampDrew x (z.2 % 32) 1,
        acc.2 ++ [[tokenFp (fpOf o.fp64) (sampleFrom (asF32 o.fp64 z.1) (uniform (acc.1.sampWord x (z.2 % 32) 0)))]])) acc).1 := by
    induction l with
    | nil => exact fun _ h => h
    | cons z l ih => exact fun acc h => ih _ (OpFrame.sampDrew h ..)
  exact keep _ _ h

theorem newelOut (h : x.Works s t) (o : NewelOp) (v : NewelIn) : x.Works s (t.newelOut x o v).1 := by
  unfold State.newelOut
  dsimp only
  split
  · exact h
  split
  · exact h
  split
  · exact OpFrame.sampleRows h o v
  split
  · exact OpFrame.sampDrew h ..
  · exact h

theorem countLoss (h : x.Works s t) (o : NewelOp) (rows : List (List Nat)) : x.Works s (t.countLoss x o rows) :=
  .ite (h.modAtt' (fun _ => rfl) fun _ => rfl) h

theorem newel (h : x.Works s t) (o : NewelOp) : Answers (x.Works s) (t.newel x o) := by
  unfold State.newel
  split
  · exact .error
  next v _ =>
  have out := OpFrame.newelOut h o v
  generalize t.newelOut x o v = r at out
  exact answers_foldE (fun _ _ h => h.putSingle _ _ _ _ _) _ (OpFrame.countLoss out o r.2)

/-! ### SAVE, REBLOCK, STORE and HBMCOPY -/

theorem audit (h : x.Works s t) (u : Use) (first col0 : Nat) (vals : List (List Val)) :
    x.Works s (t.audit x u first col0 vals) := by
  unfold State.audit
  split
  · exact h
  · exact .ite (h.modAtt' (fun _ => rfl) fun _ => rfl) h

theorem countRows (h : x.Works s t) (u : Use) (rows : List Nat) : x.Works s (t.countRows x u rows) := h.countFace ..

theorem encodeInto (h : x.Works s t) (n : Nat) (w : Writer) (tiled audit : Bool) (first col0 : Nat) (vals : List (List Val)) :
    Answers (x.Works s) (t.encodeInto x n w tiled audit first col0 vals) := by
  unfold State.encodeInto
  split
  · exact .error
  · next u e =>
    obtain ⟨hu, hc⟩ := h.use_mem e
    have v : x.Works s (if audit = true then (t.openFace x.page x.slot u w).audit x u first col0 vals
        else t.openFace x.page x.slot u w) := .ite (OpFrame.audit (h.openFace hu hc w) ..) (h.openFace hu hc w)
    exact .ite (.ok ((v.addTiles _).putSpan hu ..)) (.ok (v.putSpan hu ..))

theorem saveRows (h : x.Works s t) (o : SaveOp) : Answers (x.Works s) (t.saveRows x o) := by
  unfold State.saveRows
  dsimp only
  split
  · exact .error
  split
  · exact .error
  next e =>
  have v := h.encodeInto _ _ _ _ _ _ _ _ e
  exact .ok (.ite (v.releaseRows ..) v)

theorem saveTensor (h : x.Works s t) (o : SaveOp) : Answers (x.Works s) (t.saveTensor x o) := by
  unfold State.saveTensor
  split
  · exact .error
  · exact (h.countRows ..).encodeInto _ _ _ _ _ _ _

theorem save (h : x.Works s t) (o : SaveOp) : Answers (x.Works s) (t.save x o) := .ite (h.saveRows o) (h.saveTensor o)

theorem reblock (h : x.Works s t) (o : SaveOp) : Answers (x.Works s) (t.reblock x o) := by
  unfold State.reblock
  split
  · exact .error
  · exact (h.countRows ..).encodeInto _ _ _ _ _ _ _

theorem storeRows (h : x.Works s t) (o : StoreOp) : Answers (x.Works s) (t.storeRows x o) := by
  unfold State.storeRows
  dsimp only
  split
  · exact .error
  split
  · exact .error
  next e =>
  have v := h.encodeInto _ _ _ _ _ _ _ _ e
  exact .ok (.ite (v.releaseRows ..) v)

theorem hbmcopy (h : x.Works s t) (o : CopyOp) : Answers (x.Works s) (t.hbmcopy x o) := by
  unfold State.hbmcopy
  dsimp only
  split
  · exact .error
  · exact .error
  next us f ud _ e =>
  split
  · split
    · exact .error
    · have v := h.countRead us (q := x.page) (slot := x.slot)
      exact .ok ((((v _).openFace (h.use_mem e).1 ((v _).uses ▸ (h.use_mem e).1) _).faceAffine ..).putCodesRows (h.use_mem e).1 ..)
  · split
    · exact .error
    · exact (OpFrame.countFace h ..).encodeInto _ _ _ _ _ _ _

/-! ### APPLY -/

theorem putParam (h : x.Works s t) {u : Use} (hu : u ∈ (s.att x.page x.slot).uses) {rem : Option Use}
    (hr : ∀ r ∈ rem, r ∈ (s.att x.page x.slot).uses) (round first : Nat) (rows : List (List Nat)) :
    x.Works s (t.putParam x u rem round first rows) := by
  unfold State.putParam
  have opened {t : State} {w : Writer} {u : Use} (h : x.Works s t) (hu : u ∈ (s.att x.page x.slot).uses) :
      x.Works s (t.openFace x.page x.slot u w) := h.openFace hu (h.uses ▸ hu) w
  dsimp only
  split
  · exact opened h hu
  · refine .ite ((opened h hu).putRows hu ..) ?_
    have drew (n : Nat) : x.Works s (if round = 1 then ((t.openFace x.page x.slot u .encoded).modAtt x.page x.slot (·.riserDrew x.hall n))
        else t.openFace x.page x.slot u .encoded) := .ite ((opened h hu).modAtt' (fun _ => rfl) fun _ => rfl) (opened h hu)
    cases rem with
    | none => exact (drew _).putBlocks hu ..
    | some ru => exact (opened ((drew _).putBlocks hu ..) (hr ru rfl)).putCodesRows (hr ru rfl) ..

end OpFrame

/-- A tensor's rows are read under a use of the command. -/
theorem State.readTensorBy_mem {s : State} {q : Page} {slot h n : Nat} {f : Use → List Span} {r : Use × Face}
    (e : s.readTensorBy q slot h n f = .ok r) : (s.att q slot).use? h n = some r.1 := by
  unfold State.readTensorBy at e
  split at e
  · cases e
  next hu =>
  split at e <;> cases e
  exact hu

theorem State.riserFace_mem {s : State} {x : OpCtx} {n : Nat} {rows : List Nat} {r : Use × Face}
    (e : s.riserFace x n rows = .ok (some r)) : r.1 ∈ (s.att x.page x.slot).uses := by
  unfold State.riserFace at e
  split at e
  · cases e
  · split at e
    · cases e
    · next hr => cases e; exact Attempt.use?_mem (State.readTensorBy_mem hr)

/-- The operands of an APPLY are those of its command's uses. -/
structure ApplyIn.Reads (U : List Use) (a : ApplyIn) : Prop where
  p : a.p.1 ∈ U
  m : ∀ r, a.m = some r → r.1 ∈ U
  v : ∀ r, a.v = some r → r.1 ∈ U
  rem : ∀ r, a.rem = some r → r.1 ∈ U

theorem State.applyIn_reads {s : State} {x : OpCtx} {o : RiserOp} {a : ApplyIn} (e : s.applyIn x o = .ok a) :
    a.Reads (s.att x.page x.slot).uses := by
  unfold State.applyIn at e
  dsimp only at e
  split at e
  case h_1 hp hm hv hr _ =>
    cases e
    refine ⟨State.riserFace_mem hp, ?_, ?_, ?_⟩ <;> intro r hr' <;> subst hr'
    · exact State.riserFace_mem hm
    · exact State.riserFace_mem hv
    · exact State.riserFace_mem hr
  all_goals cases e

/-- The end of an APPLY enters its norms and counts its elements. -/
def Attempt.applied (a : Attempt) (x : OpCtx) (n : Norm) (els : Nat) : Attempt :=
  { a with norms := a.norms ++ [(x.hall, x.off, n)], rsrElems := a.rsrElems ++ [(x.hall, els)] }

theorem State.applyRun_works {s t : State} {x : OpCtx} {o : RiserOp} {pol : TPolicy} {k : Nat} {a : ApplyIn}
    (ha : a.Reads (s.att x.page x.slot).uses) (e : s.applyRun x o pol k a = .ok t) :
    ∃ v, x.Works s v ∧ t = v.modAtt x.page x.slot (·.applied x (applyNorm o.layer (s.applyEls x o pol k a)) o.elCount) := by
  unfold State.applyRun at e
  dsimp only at e
  split at e
  · cases e
  refine ⟨_, ?_, (Except.ok.inj e).symm⟩
  have put {t : State} {u : Use} {first : Nat} {vs : List (List Val)} (h : x.Works s t) (hu : u ∈ (s.att x.page x.slot).uses) :
      x.Works s ((t.openFace x.page x.slot u .encoded).putRows x.page x.slot u WriteCtx.plain first 0 vs) :=
    (h.openFace hu (h.uses ▸ hu) _).putRows hu ..
  have one (rows : List (List Nat)) (n : Nat) (l : List Nat) :
      x.Works s ((s.countRows x a.p.1 l).putParam x a.p.1 (a.rem.map (·.1)) pol.round n rows) := by
    refine OpFrame.putParam (OpFrame.countRows (.refl s) ..) ha.p (fun r hr => ?_) ..
    obtain ⟨r', hr', rfl⟩ := Option.map_eq_some_iff.mp hr
    exact ha.rem r' hr'
  cases hm : a.m with
  | none =>
    cases hv : a.v with
    | none => exact one ..
    | some v => exact put (one ..) (ha.v v hv)
  | some m =>
    cases hv : a.v with
    | none => exact put (one ..) (ha.m m hm)
    | some v => exact put (put (one ..) (ha.m m hm)) (ha.v v hv)

end Sys2Proof.Machine
end

section
/-! PROOFS. The frame of the work over links: transfers that are sent, collectives, and what a link operation stages. -/

namespace Sys2Proof.Machine

/-! ### What sending and awaiting leave of a hall and of an attempt -/

def Hall.offLinks (H : Hall) : Hall := { H with jobs := [], ports := [] }

/-- The part of an attempt that no transfer touches. -/
def Attempt.firm (a : Attempt) : List Use × List Staged × List Coll := (a.uses, a.staged, a.colls)

/-- What an operation over links may not change while it sends and awaits. -/
structure LinkFrame (q : Page) (slot : Nat) (s t : State) : Prop where
  host : t.host = s.host
  hall : ∀ h, (t.hall h).offLinks = (s.hall h).offLinks
  here : (t.cmd? q slot).isSome = (s.cmd? q slot).isSome
  att : (t.att q slot).firm = (s.att q slot).firm

/-- A change of an attempt that keeps a part of it keeps that part of the command's attempt. -/
theorem State.att_modAtt_keeps {β : Type} (g : Attempt → β) {f : Attempt → Attempt} (hf : ∀ a, g (f a) = g a) (s : State)
    (q : Page) (slot : Nat) : g ((s.modAtt q slot f).att q slot) = g (s.att q slot) := by
  cases hc : s.cmd? q slot with
  | none =>
    have e : (s.modAtt q slot f).cmd? q slot = none := by simpa [hc] using s.cmd?_modAtt_isSome q slot f slot
    simp only [State.att, hc, e]
  | some c => rw [s.att_modAtt q slot f (by simp [hc])]; exact hf _

namespace LinkFrame

variable {q : Page} {slot : Nat} {s t : State}

theorem refl (s : State) : LinkFrame q slot s s := ⟨rfl, fun _ => rfl, rfl, rfl⟩

theorem trans {u : State} (a : LinkFrame q slot s t) (b : LinkFrame q slot t u) : LinkFrame q slot s u :=
  ⟨b.host.trans a.host, fun h => (b.hall h).trans (a.hall h), b.here.trans a.here, b.att.trans a.att⟩

theorem ite {c : Prop} [Decidable c] {u : State} (ht : LinkFrame q slot s t) (hu : LinkFrame q slot s u) :
    LinkFrame q slot s (if c then t else u) := by
  by_cases hc : c
  · rw [if_pos hc]; exact ht
  · rw [if_neg hc]; exact hu

theorem foldl {α : Type} {f : State → α → State} (h : LinkFrame q slot s t)
    (hf : ∀ t a, LinkFrame q slot s t → LinkFrame q slot s (f t a)) (l : List α) : LinkFrame q slot s (l.foldl f t) := by
  induction l generalizing t with
  | nil => exact h
  | cons a l ih => exact ih (hf t a h)

theorem answers_foldE {α : Type} {f : State → α → Except Nat State}
    (hf : ∀ t a, LinkFrame q slot s t → Answers (LinkFrame q slot s) (f t a)) (l : List α) :
    ∀ {t : State}, LinkFrame q slot s t → Answers (LinkFrame q slot s) (foldE f t l) := by
  induction l with
  | nil => exact fun h => .ok h
  | cons a l ih =>
    intro t h
    unfold foldE
    split
    · exact .error
    · next e => exact ih (hf t a h _ e)

theorem wf (h : LinkFrame q slot s t) (w : s.memWf) : t.memWf :=
  State.memWf_of_eq w h.host fun k => (congrArg Hall.hbm (h.hall k) :)

theorem sameStacks (h : LinkFrame q slot s t) : SameStacks s t := fun k => (congrArg Hall.hbm (h.hall k) :)

theorem sameCommitted (h : LinkFrame q slot s t) : SameCommitted s t := fun k =>
  ⟨(congrArg Hall.faces1 (h.hall k) :), (congrArg Hall.scale (h.hall k) :), (congrArg Hall.unc (h.hall k) :),
    (congrArg Hall.taken (h.hall k) :), (congrArg Hall.step (h.hall k) :), (congrArg Hall.riser (h.hall k) :),
    (congrArg Hall.sampler (h.hall k) :), (congrArg Hall.commits (h.hall k) :)⟩

theorem uses (h : LinkFrame q slot s t) : (t.att q slot).uses = (s.att q slot).uses := (congrArg (·.1) h.att :)

theorem staged (h : LinkFrame q slot s t) : (t.att q slot).staged = (s.att q slot).staged := (congrArg (·.2.1) h.att :)

theorem colls (h : LinkFrame q slot s t) : (t.att q slot).colls = (s.att q slot).colls := (congrArg (·.2.2) h.att :)

/-! ### The units -/

theorem modAtt (h : LinkFrame q slot s t) {f : Attempt → Attempt} (hf : ∀ a, (f a).firm = a.firm) :
    LinkFrame q slot s (t.modAtt q slot f) :=
  h.trans ⟨rfl, fun _ => rfl, t.cmd?_modAtt_isSome q slot f slot, t.att_modAtt_keeps Attempt.firm hf q slot⟩

theorem modHall (h : LinkFrame q slot s t) (k : Nat) {f : Hall → Hall} (hf : ∀ H, (f H).offLinks = H.offLinks) :
    LinkFrame q slot s (t.modHall k f) := by
  refine h.trans ⟨rfl, fun i => ?_, rfl, rfl⟩
  rw [State.hall_modHall]
  split
  · next e => subst e; exact hf _
  · rfl

theorem modHJob (h : LinkFrame q slot s t) (k j : Nat) (f : HJob → HJob) : LinkFrame q slot s (t.modHJob k j f) :=
  h.modHall k fun _ => rfl

theorem modPart (h : LinkFrame q slot s t) (v : Fn) (f : Part → Part) : LinkFrame q slot s (t.modPart v f) :=
  h.trans ⟨rfl, fun _ => rfl, rfl, rfl⟩

theorem bumpFree (h : LinkFrame q slot s t) (n : Nat) : LinkFrame q slot s { t with free := n } :=
  h.trans ⟨rfl, fun _ => rfl, rfl, rfl⟩

theorem setRow (h : LinkFrame q slot s t) (k l : Nat) (r : URow) : LinkFrame q slot s (t.setRow q slot k l r) := by
  unfold State.setRow
  split
  · exact h.modAtt fun _ => rfl
  · exact (h.bumpFree (t.free + 1)).modAtt fun _ => rfl

theorem putSingle {x : OpCtx} (h : LinkFrame x.page x.slot s t) (row acc sfmt slots : Nat) (v : List Word) :
    Answers (LinkFrame x.page x.slot s) (t.putSingle x row acc sfmt slots v) := by
  unfold State.putSingle
  split
  · exact .error
  · next e => exact .ok (State.accept_answers (fun _ _ _ h => h.setRow ..) h _ _ _ _ _ _ e)

theorem releaseRows (h : LinkFrame q slot s t) (k : Nat) (ls : List Nat) : LinkFrame q slot s (t.releaseRows q slot k ls) :=
  h.modAtt fun _ => rfl

/-! ### Transfers -/

theorem enqueue (h : LinkFrame q slot s t) (fs : List Frame) : LinkFrame q slot s (t.enqueue fs) := by
  unfold State.enqueue
  refine h.foldl (fun t f h => ?_) fs
  exact h.modHall _ fun _ => rfl

theorem alsoRelay (h : LinkFrame q slot s t) (k dest : Nat) (ports : List Nat) (x : XHdr) (data : List Byte) :
    LinkFrame q slot s (t.alsoRelay k dest ports x data) := by
  unfold State.alsoRelay
  split
  · exact .ite ((h.enqueue _).modPart ..) h
  · exact h

theorem sendXfer (h : LinkFrame q slot s t) (k n : Nat) (id : XferId) (dest : Nat) (ports : List Nat) (vc : Nat)
    (data : List Byte) : LinkFrame q slot s (t.sendXfer k n id dest ports vc data) := by
  unfold State.sendXfer
  exact .ite h (.ite (h.modHJob ..) (((h.modHJob ..).enqueue _).alsoRelay ..))

theorem sendOnce {k : LinkCtx} (h : LinkFrame k.page k.slot s t) (id : XferId) (dest : Nat) (ports : List Nat) (vc : Nat)
    (data : List Byte) : Answers (LinkFrame k.page k.slot s) (t.sendOnce k id dest ports vc data) := by
  unfold State.sendOnce
  refine .ite (.ok h) ?_
  dsimp only
  exact .guard (.ok ((h.sendXfer ..).modAtt fun _ => rfl))

/-! ### Collectives -/

variable {c : CollCtx}

theorem stageCarry (h : LinkFrame c.k.page c.k.slot s t) (shard : Nat) (v : NodeVal) (code : Nat) :
    LinkFrame c.k.page c.k.slot s (t.stageCarry c shard v code) := by
  unfold State.stageCarry
  exact h.modAtt fun _ => rfl

theorem goUp (h : LinkFrame c.k.page c.k.slot s t) (shard leaf : Nat) (v : NodeVal) :
    Answers (fun r => LinkFrame c.k.page c.k.slot s r.1) (t.goUp c shard leaf v) := by
  unfold State.goUp State.sendTo
  split
  · exact .ok h
  dsimp only
  split
  · exact .error
  next e =>
  split at e
  · cases e
  have sent := h.sendOnce _ _ _ _ _ _ e
  split
  · exact .ok sent
  · exact .ok (sent.stageCarry _ _ _)

theorem goDown (shard : Nat) (v : NodeVal) (ws : List Nat) : ∀ {t : State}, LinkFrame c.k.page c.k.slot s t →
    Answers (fun r => LinkFrame c.k.page c.k.slot s r.1) (t.goDown c shard v ws) := by
  induction ws with
  | nil => exact fun h => .ok h
  | cons w ws ih =>
    intro t h
    unfold State.goDown State.sendTo
    dsimp only
    split
    · exact .error
    next e =>
    split at e
    · cases e
    have sent := h.sendOnce _ _ _ _ _ _ e
    split
    · exact .error
    next r => exact .ok (ih sent (_, _) r :)

theorem shardStep (h : LinkFrame c.k.page c.k.slot s t) (own : NodeVal) (shard : Nat) :
    Answers (fun r => LinkFrame c.k.page c.k.slot s r.s) (t.shardStep c own shard) := by
  unfold State.shardStep
  split
  · exact .ok h
  dsimp only
  split
  · exact .error
  · exact .ok h
  split
  · exact .error
  next e =>
  have up := Answers.ite (P := fun r => LinkFrame c.k.page c.k.slot s r.1) (.ok h) (h.goUp _ _ _) _ e
  split
  · exact .ok up
  split
  · exact .error
  · exact .ok up
  split
  · exact .error
  next r => exact .ok (goDown _ _ _ up (_, _) r :)

theorem collStep (own : Nat → NodeVal) (shs : List Nat) : ∀ {t : State}, LinkFrame c.k.page c.k.slot s t →
    Answers (fun r => LinkFrame c.k.page c.k.slot s r.1) (State.collStep c own shs t) := by
  induction shs with
  | nil => exact fun h => .ok h
  | cons sh shs ih =>
    intro t h
    unfold State.collStep
    split
    · exact .error
    next e =>
    split
    · exact .error
    next r => exact .ok (ih (h.shardStep _ _ _ e) (_, _, _) r :)

theorem markForced (h : LinkFrame c.k.page c.k.slot s t) : LinkFrame c.k.page c.k.slot s (t.markForced c) := by
  unfold State.markForced
  split
  · exact h
  · refine h.foldl (fun t e h => ?_) _
    exact .ite (h.modHJob ..) h

end LinkFrame

end Sys2Proof.Machine
end

section
/-! PROOFS. The frame of every operation's work together: what stands, and where bytes go. -/

namespace Sys2Proof.Machine

/-- What the work of a command keeps, whatever it sends and stages. -/
structure WorkFrame (q : Page) (slot : Nat) (U : List Use) (s t : State) : Prop where
  committed : SameCommitted s t
  wf : s.memWf → t.memWf
  here : (t.cmd? q slot).isSome = (s.cmd? q slot).isSome
  uses : (t.att q slot).uses = (s.att q slot).uses
  staged : StagesMore (s.att q slot) (t.att q slot)
  bytes : ∀ h b, ¬ inSpans ((t.att q slot).spansUnder U h) b → memRead (t.hall h).hbm b = memRead (s.hall h).hbm b

theorem OpFrame.here {q : Page} {slot : Nat} {U : List Use} {s t : State} (h : OpFrame q slot U s t) :
    (t.cmd? q slot).isSome = (s.cmd? q slot).isSome := by
  have find (j : Job) : ((j.offWork slot).cmd? slot).isSome = (j.cmd? slot).isSome := by
    unfold Job.offWork Job.modCmd Job.cmd?
    rw [List.find?_map, Option.isSome_map]
    congr 2
    funext c
    by_cases hc : c.slot = slot <;> simp [hc]
  have e := congrArg (fun j : Job => (j.cmd? slot).isSome) h.own
  rw [find, find] at e
  exact e

theorem SameCommitted.trans {s t u : State} (a : SameCommitted s t) (b : SameCommitted t u) : SameCommitted s u := fun h => by
  obtain ⟨a1, a2, a3, a4, a5, a6, a7, a8⟩ := a h
  obtain ⟨b1, b2, b3, b4, b5, b6, b7, b8⟩ := b h
  exact ⟨b1.trans a1, b2.trans a2, b3.trans a3, b4.trans a4, b5.trans a5, b6.trans a6, b7.trans a7, b8.trans a8⟩

theorem OpFrame.work {q : Page} {slot : Nat} {U : List Use} {s t : State} (h : OpFrame q slot U s t) : WorkFrame q slot U s t :=
  ⟨h.sameCommitted, h.wf, h.here, h.uses, h.staged, h.bytes⟩

theorem LinkFrame.work {q : Page} {slot : Nat} {U : List Use} {s t : State} (h : LinkFrame q slot s t) : WorkFrame q slot U s t :=
  ⟨h.sameCommitted, h.wf, h.here, h.uses, .of_places (by rw [h.staged]), fun k b _ => by rw [h.sameStacks k]⟩

namespace WorkFrame

variable {q : Page} {slot : Nat} {U : List Use} {s t u : State}

theorem refl (s : State) : WorkFrame q slot U s s := (LinkFrame.refl s).work

theorem trans (a : WorkFrame q slot U s t) (b : WorkFrame q slot U t u) : WorkFrame q slot U s u :=
  ⟨a.committed.trans b.committed, b.wf ∘ a.wf, b.here.trans a.here, b.uses.trans a.uses, a.staged.trans b.staged,
    fun h x hx => (b.bytes h x hx).trans (a.bytes h x fun hy => hx (b.staged.spansUnder hy))⟩

/-- A change of the attempt that leaves its uses and its staged faces. -/
theorem modAtt (h : WorkFrame q slot U s t) {f : Attempt → Attempt} (hu : ∀ a, (f a).uses = a.uses)
    (hs : ∀ a, (f a).staged = a.staged) : WorkFrame q slot U s (t.modAtt q slot f) :=
  h.trans ⟨fun _ => ⟨rfl, rfl, rfl, rfl, rfl, rfl, rfl, rfl⟩, (·.modAtt q slot f), t.cmd?_modAtt_isSome q slot f slot,
    t.att_modAtt_keeps Attempt.uses hu q slot, .of_places (by rw [t.att_modAtt_keeps Attempt.staged hs q slot]), fun _ _ _ => rfl⟩

/-- A change of the command that leaves its attempt. -/
theorem modCmd (h : WorkFrame q slot U s t) {f : Cmd → Cmd} (hs : ∀ c, (f c).slot = c.slot) (ha : ∀ c, (f c).att = c.att) :
    WorkFrame q slot U s (t.modCmd q slot f) := by
  have att : (t.modCmd q slot f).att q slot = t.att q slot := by
    unfold State.att
    rw [State.cmd?_modCmd t q slot f hs]
    cases t.cmd? q slot with
    | none => rfl
    | some c => by_cases hc : c.slot = slot <;> simp [hc, ha]
  have here : ((t.modCmd q slot f).cmd? q slot).isSome = (t.cmd? q slot).isSome := by
    rw [State.cmd?_modCmd t q slot f hs]
    simp
  exact h.trans ⟨fun _ => ⟨rfl, rfl, rfl, rfl, rfl, rfl, rfl, rfl⟩, (·.modCmd q slot f), here, by rw [att],
    .of_places (by rw [att]), fun _ _ _ => rfl⟩

theorem addColl {k : LinkCtx} (h : WorkFrame k.page k.slot U s t) (c : Coll) : WorkFrame k.page k.slot U s (t.addColl k c) :=
  h.modAtt (fun _ => rfl) fun _ => rfl

theorem collDone {c : CollCtx} (h : WorkFrame c.k.page c.k.slot U s t) (op : Nat) (roots : List NodeVal) :
    WorkFrame c.k.page c.k.slot U s (t.collDone c op roots) := by
  unfold State.collDone
  dsimp only
  refine addColl (k := c.k) (h.modCmd ?_ ?_) _ <;> exact fun _ => rfl

theorem countAbsent {c : CollCtx} (h : WorkFrame c.k.page c.k.slot U s t) (roots : List NodeVal) :
    WorkFrame c.k.page c.k.slot U s (t.countAbsent c roots) := by
  unfold State.countAbsent
  dsimp only
  exact h.modAtt (fun _ => rfl) fun _ => rfl

end WorkFrame

/-- The work of an operation over the uses of its command. -/
abbrev OpCtx.Keeps (x : OpCtx) (s t : State) : Prop := WorkFrame x.page x.slot (s.att x.page x.slot).uses s t

theorem WorkFrame.works {x : OpCtx} {s t u : State} (h : x.Keeps s t) (k : x.Works t u) : x.Keeps s u := by
  unfold OpCtx.Works at k
  rw [h.uses] at k
  exact h.trans k.work

/-! ### Taking what has arrived -/

namespace OpFrame

variable {q : Page} {slot : Nat} {U : List Use} {x : OpCtx} {s t : State}

theorem takeRows (h : x.Works s t) (base : Nat) (l : Lead) (n : Nat) (data : List Byte) :
    Answers (x.Works s) (t.takeRows x base l n data) := by
  unfold State.takeRows
  exact .guard (answers_foldE (fun _ _ h => h.putSingle _ _ _ _ _) _ h)

theorem takeTensor (h : x.Works s t) (n first m : Nat) (l : Lead) (data : List Byte) :
    Answers (x.Works s) (t.takeTensor x n first m l data) := by
  unfold State.takeTensor
  split
  · exact .error
  next e =>
  obtain ⟨hu, hc⟩ := h.use_mem e
  refine .guard ?_
  dsimp only
  refine .guard ?_
  split
  · exact .error
  · exact .ok (((h.openFace hu hc _).faceAffine ..).putCodesRows hu ..)

theorem takeImg (h : x.Works s t) (state : Bool) (m : ImgTensor) : Answers (x.Works s) (t.takeImg x state m) := by
  unfold State.takeImg
  split
  · exact .error
  next u e =>
  obtain ⟨hu, hc⟩ := h.use_mem e
  refine .guard ?_
  generalize imgRows u.d m.data = r
  dsimp only
  refine .guard ?_
  split
  · exact .error
  have v := h.openFace hu hc .moved
  have v : x.Works s (if state = true then (t.openFace x.page x.slot u .moved).modStaged x.page x.slot u fun st =>
      { st with coarse := m.coarse, clears := true } else t.openFace x.page x.slot u .moved) := .ite (v.modStaged u fun _ => rfl) v
  exact .ok ((v.faceAffine u m.aff).putCodesRows hu ..)

theorem restore (h : x.Works s t) (o : RecvOp) (b : List Byte) : Answers (x.Works s) (t.restore x o b) := by
  unfold State.restore
  refine .guard ?_
  dsimp only
  split
  · exact .error
  next e =>
  have v : x.Works s _ := answers_foldE (fun _ _ h => OpFrame.takeImg h _ _) _ h _ e
  exact .ok (.ite (v.modAtt' (fun _ => rfl) fun _ => rfl) v)

theorem countSend (h : x.Works s t) (o : SendOp) : x.Works s (t.countSend x o) := by
  unfold State.countSend
  refine .ite ?_ h
  split
  · exact h.countRead ..
  · exact h

/-! ### A run of elements that a GANG writes -/

theorem putRun (h : OpFrame q slot U s t) {u : Use} (hu : u ∈ U) (e0 n : Nat) (cs : Int) (b : List Byte) :
    Answers (OpFrame q slot U s) (t.putRun q slot u e0 n cs b) := by
  unfold State.putRun
  dsimp only
  split
  · exact .error
  next side _ =>
  refine .ok ?_
  have runs (l : List (Nat × Nat × Nat)) : ∀ z : State × Nat × Nat, OpFrame q slot U s z.1 →
      OpFrame q slot U s (l.foldl (fun (z : State × Nat × Nat) g =>
        (z.1.putCodesRows q slot u g.1 g.2.1 cs [((List.range g.2.2).map (codeIn u.d.w.fmt (bytesAt b z.2.1 (segBytes u.d g))),
            (((bytesAt b (runCodes u.d e0 n) (runFines u.d e0 n)).map BitVec.toNat).drop z.2.2).take
              (if u.d.w.plane then (segBlocks u.d g).2 else 0))] side,
          z.2.1 + segBytes u.d g, z.2.2 + if u.d.w.plane then (segBlocks u.d g).2 else 0)) z).1 := by
    induction l with
    | nil => exact fun _ h => h
    | cons g l ih => exact fun z h => ih _ (h.putCodesRows hu ..)
  exact runs _ _ h

theorem takeRun (h : OpFrame q slot U s t) {u : Use} (hu : u ∈ U) (e0 n fmtRaw : Nat) (coarse : Int) (aff : Nat) (b : List Byte) :
    Answers (OpFrame q slot U s) (t.takeRun q slot u e0 n fmtRaw coarse aff b) := by
  unfold State.takeRun
  exact .guard ((h.faceAffine ..).putRun hu _ _ _ _)

theorem putGather (h : OpFrame q slot U s t) {g : GangCtx} (hu : g.tgt ∈ U) (v : NodeVal) :
    Answers (OpFrame q slot U s) (t.putGather q slot g v) :=
  answers_foldE (fun _ _ h => h.takeRun hu _ _ _ _ _ _) _ h

theorem putSums (h : OpFrame q slot U s t) {g : GangCtx} (hu : g.tgt ∈ U) (v : NodeVal) :
    Answers (OpFrame q slot U s) (t.putSums q slot g v) := by
  unfold State.putSums
  refine .ite (h.putRun hu _ _ _ _) (.ok ?_)
  have runs (l : List (Nat × Nat × Nat)) : ∀ z : State × Nat, OpFrame q slot U s z.1 →
      OpFrame q slot U s (l.foldl (fun (z : State × Nat) x =>
        (z.1.putSpan q slot g.tgt WriteCtx.plain x.1 x.2.1 [((v.data.drop z.2).take x.2.2).map fun w => Val.f32 w.toNat],
          z.2 + x.2.2)) z).1 := by
    induction l with
    | nil => exact fun _ h => h
    | cons g l ih => exact fun z h => ih _ (h.putSpan hu ..)
  exact runs _ _ h

theorem gangWrite (h : OpFrame q slot U s t) {g : GangCtx} (hu : g.tgt ∈ U) (hc : g.tgt ∈ (t.att q slot).uses)
    (roots : List NodeVal) : Answers (OpFrame q slot U s) (t.gangWrite q slot g roots) := by
  unfold State.gangWrite
  refine .ite (.ok h) ?_
  exact answers_foldE (fun _ v h => .ite (h.putSums hu v) (.ite (h.putGather hu v) (h.takeRun hu _ _ _ _ _ _))) _
    (h.openFace hu hc _)

end OpFrame

end Sys2Proof.Machine
end

section
/-! PROOFS. What the operations over links, the collectives and HOLD do within the frame of the work. -/

namespace Sys2Proof.Machine

/-- What an operation's end says of the state that it leaves, where it leaves one. -/
def OpEnd.Leaves (P : State → Prop) : OpEnd → Prop
  | .done t | .wait t | .kill t => P t
  | .fail _ => True

theorem OpEnd.Leaves.ofExcept {P : State → Prop} {r : Except Nat State} (h : Answers P r) : (OpEnd.ofExcept r).Leaves P := by
  cases r with
  | error e => trivial
  | ok t => exact h t rfl

theorem OpEnd.Leaves.imp {P Q : State → Prop} {e : OpEnd} (h : e.Leaves P) (hi : ∀ t, P t → Q t) : e.Leaves Q := by
  cases e with
  | fail c => trivial
  | done t => exact hi t h
  | wait t => exact hi t h
  | kill t => exact hi t h

namespace LinkFrame

variable {x : OpCtx} {s t : State}

theorem evalVerdict (h : LinkFrame x.page x.slot s t) (tree : Nat) (p : NormPkt) :
    Answers (LinkFrame x.page x.slot s) (t.evalVerdict x tree p) := by
  unfold State.evalVerdict
  dsimp only
  split
  · exact .ok (h.modAtt fun _ => rfl)
  split
  · exact .error
  · exact .ok (h.modAtt fun _ => rfl)

theorem putRoots (h : LinkFrame x.page x.slot s t) (o : ReduceOp) (vs : List NodeVal) :
    Answers (LinkFrame x.page x.slot s) (t.putRoots x o vs) :=
  answers_foldE (fun _ _ h => answers_foldE (fun _ _ h => h.putSingle _ _ _ _ _) _ h) _ h

end LinkFrame

/-! ### Link operations -/

namespace OpCtx.Keeps

variable {x : OpCtx} {s t : State}

theorem recvFull (h : x.Keeps s t) (o : RecvOp) (kind : Nat) : (t.recvFull x o kind).Leaves (x.Keeps s) := by
  unfold State.recvFull
  dsimp only
  split
  · exact h
  generalize Lead.parse _ = p
  split
  · trivial
  next e =>
  have v := Answers.ite ((OpFrame.refl t).takeRows o.urow p.1 o.count p.2) ((OpFrame.refl t).takeTensor o.tensor o.first o.count p.1 p.2) _ e
  exact (h.works v).addColl (k := x.link) _

theorem sent (h : x.Keeps s t) (id : XferId) (dest : Nat) (ports : List Nat) (vc : Nat) (data : List Byte) :
    Answers (x.Keeps s) (t.sendOnce x.link id dest ports vc data) := fun u e =>
  h.trans ((LinkFrame.refl t).sendOnce (k := x.link) _ _ _ _ _ u e).work

theorem send (h : x.Keeps s t) (o : SendOp) : (t.send x o).Leaves (x.Keeps s) := by
  unfold State.send
  dsimp only
  split
  · trivial
  split
  · trivial
  next e =>
  have v := h.sent _ _ _ _ _ _ e
  split
  · exact v
  have w (c : Coll) := (WorkFrame.addColl (k := x.link) v c).works ((OpFrame.refl _).countSend o)
  dsimp only [OpEnd.Leaves]
  split
  · exact (w _).works ((OpFrame.refl _).releaseRows ..)
  · exact w _

theorem pull (h : x.Keeps s t) (o : RecvOp) : (t.pull x o).Leaves (x.Keeps s) := by
  unfold State.pull
  dsimp only
  split
  · trivial
  · next e => exact (h.sent _ _ _ _ _ _ e).recvFull o _

theorem mezzRestore (h : x.Keeps s t) (o : RecvOp) : (t.mezzRestore x o).Leaves (x.Keeps s) := by
  unfold State.mezzRestore
  dsimp only
  split
  · trivial
  next e =>
  have v := h.sent _ _ _ _ _ _ e
  split
  · exact v
  split
  · trivial
  next r => exact (v.works ((OpFrame.refl _).restore o _ _ r)).addColl (k := x.link) _

/-! ### REDUCE -/

theorem deliver (h : x.Keeps s t) (o : ReduceOp) {c : CollCtx} (hc : c.k = x.link) (roots : List NodeVal) :
    Answers (x.Keeps s) (t.deliver x o c roots) := by
  unfold State.deliver
  dsimp only
  have v : x.Keeps s ((t.collDone c 0xB roots).countAbsent c roots) := by
    have w : WorkFrame c.k.page c.k.slot (s.att x.page x.slot).uses s t := by rw [hc]; exact h
    have e := (w.collDone 0xB roots).countAbsent roots
    rw [hc] at e
    exact e
  generalize (t.collDone c 0xB roots).countAbsent c roots = u at v
  refine .ite ?_ (.ite (.ok (v.modAtt (fun _ => rfl) fun _ => rfl)) fun w e => v.trans (((LinkFrame.refl u).putRoots o roots w e).work))
  split
  · exact fun w e => v.trans ((LinkFrame.refl u).evalVerdict _ _ w e).work
  · exact .ok v

end OpCtx.Keeps

/-- The collective of a REDUCE runs where the operation does. -/
theorem State.reduceCtx_link {s : State} {x : OpCtx} {o : ReduceOp} {t : TreeRec} {c : CollCtx} (e : s.reduceCtx x o t = .ok c) :
    c.k = x.link := by
  unfold State.reduceCtx at e
  split at e <;> cases e
  rfl

/-- Before its delivery a REDUCE only sends and awaits. -/
theorem LinkFrame.reduceSteps {x : OpCtx} {s : State} {c : CollCtx} (hc : c.k = x.link) (own : Nat → NodeVal) :
    Answers (fun r => LinkFrame x.page x.slot s r.1)
      (State.collStep c own c.shards ((if s.hasFrames c then s.enterWindow c.k else s).markForced c)) := by
  have h : LinkFrame c.k.page c.k.slot s (if s.hasFrames c then s.enterWindow c.k else s) :=
    .ite ((LinkFrame.refl s).modAtt fun _ => rfl) (.refl s)
  have v := LinkFrame.collStep (c := c) own c.shards h.markForced
  rw [hc] at v ⊢
  exact v

theorem OpCtx.Keeps.reduce {x : OpCtx} {s : State} (o : ReduceOp) : (s.reduce x o).Leaves (x.Keeps s) := by
  unfold State.reduce
  split
  · trivial
  split
  · trivial
  · trivial
  next c own ec _ =>
  have hc := State.reduceCtx_link ec
  split
  · trivial
  split
  · trivial
  · next e => exact (LinkFrame.reduceSteps hc own _ e).work
  next e =>
  have v : x.Keeps s _ := (LinkFrame.reduceSteps hc own _ e).work
  split
  · trivial
  next r =>
  have w := v.deliver o hc _ _ r
  dsimp only [OpEnd.Leaves]
  split
  · exact w.works ((OpFrame.refl _).releaseRows ..)
  · exact w

/-! ### GANG -/

/-- A GANG runs in its own command, and writes a face that it uses. -/
theorem State.gangCtx_link {s : State} {q : Page} {cmd : Cmd} {g : GangCtx} (e : s.gangCtx q cmd = some g) :
    g.c.k.page = q ∧ g.c.k.slot = cmd.slot ∧ g.tgt ∈ cmd.att.uses := by
  unfold State.gangCtx at e
  split at e
  · next hu =>
    obtain ⟨t, _, rfl⟩ := Option.map_eq_some_iff.mp e
    exact ⟨rfl, rfl, by rw [hu]; simp⟩
  · cases e

theorem WorkFrame.gangStep {s : State} {q : Page} {c : Cmd} {g : GangCtx} (hc : s.cmd? q c.slot = some c)
    (hg : s.gangCtx q c = some g) : Answers (WorkFrame q c.slot (s.att q c.slot).uses s) (s.gangStep q c g) := by
  obtain ⟨hp, hs, hu⟩ := State.gangCtx_link hg
  have att : s.att q c.slot = c.att := by simp [State.att, hc]
  rw [← att] at hu
  have toWork {t : State} (h : LinkFrame g.c.k.page g.c.k.slot s t) : WorkFrame q c.slot (s.att q c.slot).uses s t := by
    rw [hp, hs] at h
    exact h.work
  unfold State.gangStep
  split
  · exact .error
  refine .guard ?_
  split
  · exact .error
  · next e => exact .ok (toWork (LinkFrame.collStep (c := g.c) _ _ (.refl s) _ e))
  next roots e =>
  have steps := toWork (LinkFrame.collStep (c := g.c) _ _ (.refl s) _ e)
  split
  · exact .error
  next r =>
  have wrote := steps.trans ((OpFrame.refl _).gangWrite hu (steps.uses ▸ hu) _ _ r).work
  have done (op : Nat) (roots : List NodeVal) (t : State) (h : WorkFrame q c.slot (s.att q c.slot).uses s t) :
      WorkFrame q c.slot (s.att q c.slot).uses s ((t.collDone g.c op roots).countAbsent g.c roots) := by
    have v : WorkFrame g.c.k.page g.c.k.slot (s.att q c.slot).uses s t := by rw [hp, hs]; exact h
    have w := (v.collDone op roots).countAbsent roots
    rw [hp, hs] at w
    exact w
  refine .ok (WorkFrame.modAtt ((done (0x80 + g.op) roots _ wrote).trans ?_) (fun _ => rfl) fun _ => rfl)
  exact ((OpFrame.refl _).countRead ..).work

end Sys2Proof.Machine
end

section
/-! PROOFS. The frame of a MATPASS, and of faults at work; canonical memory over every operation's row. -/

namespace Sys2Proof.Machine

/-! ### MATPASS -/

/-- What each step of a fold that may fail keeps, the fold keeps. -/
theorem Answers.foldE {σ α : Type} {P : σ → Prop} {f : σ → α → Except Nat σ}
    (hf : ∀ t a, P t → Answers P (f t a)) (l : List α) : ∀ {t : σ}, P t → Answers P (Machine.foldE f t l) := by
  induction l with
  | nil => exact fun h => .ok h
  | cons a l ih =>
    intro t h
    unfold Machine.foldE
    split
    · exact .error
    · next e => exact ih (hf t a h _ e)

namespace MatRun

variable {x : OpCtx} {s : State} {m : MatRun}

theorem enter_works (h : x.Works s m.s) (o : MatOp) (r g c : Nat) (y : List Word) (n : Nat) :
    Answers (fun m => x.Works s m.s) (m.enter x o r g c y n) := by
  unfold MatRun.enter
  dsimp only
  refine .ite (.ite (.ok ?_) (.ok h)) ?_
  · dsimp only
    exact h.modAtt' (fun _ => rfl) fun _ => rfl
  split
  · exact .error
  · next e => exact .ok (h.accept _ _ _ _ _ _ e)

@[simp] theorem witness_s (m : MatRun) (g : Nat) (w : WitR) : (m.witness g w).s = m.s := by cases w <;> rfl

theorem chunk_works (h : x.Works s m.s) (o : MatOp) (u : Use) (gs : List Nat) (a : Acts) (tau r g c : Nat) :
    Answers (fun m => x.Works s m.s) (m.chunk x o u gs a tau r g c) := by
  unfold MatRun.chunk
  split
  · exact .error
  · refine enter_works ?_ _ _ _ _ _ _
    rw [witness_s]
    exact h

theorem run_works (h : x.Works s m.s) (o : MatOp) (u : Use) (gs : List Nat) (a : Acts) (r g : Nat) (run : Nat × Nat × Nat) :
    Answers (fun m => x.Works s m.s) (m.run x o u gs a r g run) := by
  unfold MatRun.run
  dsimp only
  split
  · exact .error
  · refine enter_works ?_ _ _ _ _ _ _
    split <;> exact h

theorem rowGroup_works (h : x.Works s m.s) (o : MatOp) (u : Use) (gs : List Nat) (a : Acts) (tau r g : Nat) :
    Answers (fun m => x.Works s m.s) (m.rowGroup x o u gs a tau r g) := by
  unfold MatRun.rowGroup
  exact .ite (Answers.foldE (fun _ _ h => run_works h _ _ _ _ _ _ _) _ h) (Answers.foldE (fun _ _ h => chunk_works h _ _ _ _ _ _ _ _) _ h)

theorem close_works (h : x.Works s m.s) (o : MatOp) : x.Works s (m.close x o) := by
  unfold MatRun.close
  have v : x.Works s (m.skip.foldl (fun s g => s.modGal x.hall g fun G => { G with skip := satAdd 255 G.skip 1 })
      (m.s.modAtt x.page x.slot fun a => { a.addTiles (tilesOf x.hall x.pass x.off m.ev
        ((List.range o.tiles).flatMap fun i => (List.range (o.groups x.plan)).map fun g => (i, g))) with
          evidence := a.evidence + m.skip.length })) := by
    refine OpFrame.foldl (h.modAtt' ?_ ?_) (fun t g h => h.modGal x.hall g _) _ <;> exact fun _ => rfl
  exact .ite (v.releaseRows ..) v

end MatRun

namespace OpFrame

variable {x : OpCtx} {s t : State}

theorem matpass (h : x.Works s t) (o : MatOp) : Answers (fun m => x.Works s m.s) (t.matpass x o) := by
  unfold State.matpass
  dsimp only
  split
  · exact .error
  split
  · exact .error
  split
  · exact .error
  next e => exact Answers.foldE (fun _ _ h => MatRun.rowGroup_works h _ _ _ _ _ _ _) _ (h.freshChunks _ _ _ _ e)

theorem drain (h : x.Works s t) : Answers (x.Works s) (t.drain x) := by
  unfold State.drain
  refine answers_foldE (fun t e h => .ite (.ok h) ?_) _ h
  split
  · exact .error
  · next r => exact .ok ((h.accept _ _ _ _ _ _ r).modAtt' (fun _ => rfl) fun _ => rfl)

end OpFrame

/-! ### Strikes, parity and fencing -/

namespace State.memWf

variable {s t : State}

theorem reloadBay (w : s.memWf) (h f : Nat) (e : Nat × Bay) : (s.reloadBay h f e).memWf := by
  unfold State.reloadBay
  dsimp only
  split
  · exact w
  split
  · exact w
  split
  · exact w
  exact (w.modGal ..).countHall ..

theorem fenceGal (w : s.memWf) (h g job pass : Nat) : (s.fenceGal h g job pass).memWf := by
  unfold State.fenceGal
  dsimp only
  have v (a : Nat) (b : LogEnt) : (((s.modGal h g fun x => { x with fenced := true, powered := false, serves := none }).modHall h
      fun H => { H with raising := H.raising.filter (· != g) }).log a b).memWf := by
    refine State.memWf.log (State.memWf.modHall (w.modGal ..) _ fun _ => ?_) ..
    rfl
  split
  · refine ((v _ _).modGal ..).modHall _ ?_ |>.foldl (fun t e wt => wt.reloadBay ..) _
    exact fun _ => rfl
  · exact (v _ _).loseHall _

theorem strike (w : s.memWf) (h g job pass : Nat) (mismatch : Bool) : (s.strike h g job pass mismatch).memWf := by
  unfold State.strike
  have v (f : Gal → Gal) (b : LogEnt) : (((s.modGal h g f).modHall h fun H => { H with stepStrikes := H.stepStrikes + 1 }).log h b).memWf := by
    refine State.memWf.log (State.memWf.modHall (w.modGal ..) _ fun _ => ?_) ..
    rfl
  exact ite ((v _ _).fenceGal ..) (v _ _)

theorem strikes (w : s.memWf) (h job pass : Nat) (mismatch : Bool) (gs : List Nat) : (s.strikes h job pass mismatch gs).memWf :=
  w.foldl (fun _ _ w => w.strike ..) gs

theorem parityHits (w : s.memWf) (s0 : State) (x : OpCtx) (gs : List Nat) (u : Upset) : (s.parityHits s0 x gs u).1.memWf := by
  unfold State.parityHits
  refine w.foldl (fun t p wt => ?_) _
  have v (f : Gal → Gal) (b : LogEnt) (k : Attempt → Attempt) : (((t.modGal x.hall p.1 f).log x.hall b).modAtt x.page x.slot k).memWf :=
    ((wt.modGal ..).log ..).modAtt ..
  exact ite (((v _ _ _).modGal ..).strike ..) (v _ _ _)

/-! ### An operation's end, and turns -/

theorem failOp (w : s.memWf) (x : OpCtx) (code : Nat) : (s.failOp x code).memWf := by
  unfold State.failOp
  exact (ite (w.log ..) w).failCmd ..

theorem endOp (w : s.memWf) (x : OpCtx) {e : OpEnd} (h : e.Leaves State.memWf) : (s.endOp x e).memWf := by
  unfold State.endOp
  cases e with
  | done t => exact State.memWf.modAtt h ..
  | wait t => exact h
  | fail c => exact w.failOp x c
  | kill t => exact State.memWf.killCmd h ..

theorem turns {f : OpCtx → State → OpEnd} (hf : ∀ x s, s.memWf → (f x s).Leaves State.memWf) (l : List OpCtx) :
    ∀ {s : State}, s.memWf → (State.turns f l s).memWf := by
  induction l with
  | nil => exact fun w => w
  | cons x l ih =>
    intro s w
    have h := hf x s w
    unfold State.turns
    split
    · next e => rw [e] at h; exact ih h
    · exact w.endOp x h

end State.memWf

end Sys2Proof.Machine
end

section
/-! PROOFS. Canonical memory over the rows of every operation, and over a RUN's step. -/

namespace Sys2Proof.Machine

/-- A predicate of the state that a row leaves, where it leaves one. -/
def Nexts (P : State → Prop) (r : Out) : Prop := ∀ t, r = .next t → P t

theorem Nexts.next {P : State → Prop} {t : State} (h : P t) : Nexts P (.next t) := fun _ e => Host.Outcome.next.inj e ▸ h

theorem OpCtx.Keeps.leaves {x : OpCtx} {s : State} (w : s.memWf) {e : OpEnd} (h : e.Leaves (x.Keeps s)) :
    e.Leaves State.memWf := h.imp fun _ k => k.wf w

namespace State.memWf

variable {s t : State}

theorem whenRunning {f : State → State} (w : s.memWf) (h : (f s).memWf) : Nexts State.memWf (whenRunning s f) :=
  .next (ite w h)

theorem runOp (w : s.memWf) (a : Site) (want : Plan → Op → Bool) {f : OpCtx → State → OpEnd}
    (hf : ∀ x s, s.memWf → (f x s).Leaves State.memWf) : Nexts State.memWf (runOp a want f s) :=
  w.whenRunning (turns hf _ w)

/-- The end of an operation that keeps within the frame of the work. -/
theorem ends {x : OpCtx} (w : s.memWf) {r : Except Nat State} (h : Answers (x.Works s) r) :
    (OpEnd.ofExcept r).Leaves State.memWf := .ofExcept fun t e => (h t e).wf w

theorem withParity {x : OpCtx} (w : s.memWf) {r : Except Nat State} (h : Answers (x.Works s) r) (l : State → List Nat) (u : Upset) :
    (withParity x s l u r).Leaves State.memWf := by
  unfold Machine.withParity
  split
  · trivial
  · next t =>
    have v := State.memWf.parityHits ((h t rfl).wf w) s x (l t) u
    dsimp only
    split <;> exact v

/-! ### The rows -/

theorem execBayload (w : s.memWf) (a : Site) (u : Upset) : Nexts State.memWf (execBayload a u s) := by
  refine w.runOp a _ fun x s w => ?_
  split
  · exact w.withParity ((OpFrame.refl s).bayload _) ..
  · exact w

theorem execHallwait (w : s.memWf) (a : Site) : Nexts State.memWf (execHallwait a s) := by
  refine w.runOp a _ fun x s w => ?_
  split
  · split <;> exact w
  · exact w

theorem eRow (w : s.memWf) (mode : Nat) (a : Site) (u : Upset) : Nexts State.memWf (eRow mode a u s) := by
  refine w.runOp a _ fun x s w => ?_
  split
  · exact w.withParity ((OpFrame.refl s).epass _) ..
  · exact w

theorem newelRow (w : s.memWf) (mode : Nat) (a : Site) (u : Upset) : Nexts State.memWf (newelRow mode a u s) := by
  refine w.runOp a _ fun x s w => ?_
  split
  · have v o := w.ends ((OpFrame.refl s).newel (x := x) o)
    split
    · exact w.residueHit ..
    · exact v _
  · exact w

theorem execSave (w : s.memWf) (a : Site) : Nexts State.memWf (execSave a s) := by
  refine w.runOp a _ fun x s w => ?_
  split
  · exact w.ends ((OpFrame.refl s).save _)
  · exact w

theorem execReblock (w : s.memWf) (a : Site) : Nexts State.memWf (execReblock a s) := by
  refine w.runOp a _ fun x s w => ?_
  split
  · exact w.ends ((OpFrame.refl s).reblock _)
  · exact w

theorem execStoreOperation (w : s.memWf) (a : Site) : Nexts State.memWf (execStoreOperation a s) := by
  refine w.runOp a _ fun x s w => ?_
  split
  · exact w.ends ((OpFrame.refl s).storeRows _)
  · exact w

theorem execHbmcopy (w : s.memWf) (a : Site) : Nexts State.memWf (execHbmcopy a s) := by
  refine w.runOp a _ fun x s w => ?_
  split
  · exact w.ends ((OpFrame.refl s).hbmcopy _)
  · exact w

theorem riserHold (w : s.memWf) (x : OpCtx) (o : RiserOp) : (s.riserHold x o).Leaves State.memWf := by
  unfold State.riserHold
  dsimp only
  split
  · exact w
  · refine State.memWf.modAtt (State.memWf_modHall w _ _ fun h => ?_) ..
    exact Mem.wf_memWrites _ h _

theorem riserApply (w : s.memWf) (x : OpCtx) (o : RiserOp) : (s.riserApply x o).Leaves State.memWf := by
  unfold State.riserApply
  split
  · exact w
  split
  · split
    · next ai _ ha _ =>
      refine .ofExcept fun t e => ?_
      obtain ⟨v, hv, rfl⟩ := State.applyRun_works (State.applyIn_reads ha) e
      exact (hv.wf w).modAtt ..
    · trivial
    · trivial
  · exact w

theorem riserRow (w : s.memWf) (apply : Bool) (a : Site) (u : Upset) : Nexts State.memWf (riserRow apply a u s) := by
  refine w.runOp a _ fun x s w => ?_
  split
  · next o _ =>
    have v : (if apply = true then s.riserApply x o else s.riserHold x o).Leaves State.memWf := by
      split
      · exact w.riserApply x o
      · exact w.riserHold x o
    split
    · exact w.residueHit ..
    · exact v
  · exact w

theorem execSend (w : s.memWf) (a : Site) : Nexts State.memWf (execSend a s) := by
  refine w.runOp a _ fun x s w => ?_
  split
  · exact OpCtx.Keeps.leaves w (OpCtx.Keeps.send (.refl s) _)
  · exact w

theorem execRecv (w : s.memWf) (a : Site) : Nexts State.memWf (execRecv a s) := by
  refine w.runOp a _ fun x s w => ?_
  split
  · exact OpCtx.Keeps.leaves w (OpCtx.Keeps.recvFull (.refl s) _ _)
  · exact w

theorem execPull (w : s.memWf) (a : Site) : Nexts State.memWf (execPull a s) := by
  refine w.runOp a _ fun x s w => ?_
  split
  · exact OpCtx.Keeps.leaves w (OpCtx.Keeps.pull (.refl s) _)
  · exact w

theorem execMezzRestore (w : s.memWf) (a : Site) : Nexts State.memWf (execMezzRestore a s) := by
  refine w.runOp a _ fun x s w => ?_
  split
  · exact OpCtx.Keeps.leaves w (OpCtx.Keeps.mezzRestore (.refl s) _)
  · exact w

theorem reduceRow (w : s.memWf) (mode : Nat) (a : Site) : Nexts State.memWf (reduceRow mode a s) := by
  refine w.runOp a _ fun x s w => ?_
  split
  · exact OpCtx.Keeps.leaves w (OpCtx.Keeps.reduce _)
  · exact w

/-! ### MATPASS -/

theorem matEnd (w : s.memWf) (x : OpCtx) (o : MatOp) (u : Upset) : (matEnd x o u s).Leaves State.memWf := by
  unfold Machine.matEnd
  split
  · trivial
  next m e =>
  split
  · exact w
  dsimp only
  split
  · trivial
  next t r =>
  have v := State.memWf.parityHits ((OpFrame.drain (MatRun.close_works ((OpFrame.refl s).matpass o _ e) o) _ r).wf w) s x
    (s.loadedGals t x.hall ((s.hall x.hall).galsOf o.gals)) u
  generalize t.parityHits s x _ u = p at v
  split
  · split <;> exact v
  · exact State.memWf.strikes v ..

theorem matTurn (u : Upset) (n : Nat) : ∀ (x : OpCtx) {s : State}, s.memWf → (matTurn u n x s).2.Leaves State.memWf := by
  induction n with
  | zero => exact fun x s w => w
  | succ n ih =>
    intro x s w
    unfold Machine.matTurn
    split
    · next o _ =>
      have v := w.matEnd x o u
      split
      · next e =>
        rw [e] at v
        split
        · exact ih _ w
        · exact v
      · exact v
    · exact w

theorem matTurns (u : Upset) (l : List OpCtx) : ∀ {s : State}, s.memWf → (matTurns u l s).memWf := by
  induction l with
  | nil => exact fun w => w
  | cons x l ih =>
    intro s w
    have h := State.memWf.matTurn u (x.plan.passOps x.lh x.pass).length x w
    unfold Machine.matTurns
    split
    · next e => rw [e] at h; exact ih h
    · next e => rw [e] at h; exact w.endOp _ h

theorem matRow (w : s.memWf) (kind : Nat) (a : Site) (u : Upset) : Nexts State.memWf (matRow kind a u s) :=
  w.whenRunning (matTurns u _ w)

end State.memWf

end Sys2Proof.Machine
end

section
/-! PROOFS. Canonical memory over the work of the queue's commands, the end of their staging, and a RUN's step. -/

namespace Sys2Proof.Machine

/-- A piece of a row is put within the face. -/
theorem putPiece_writesIn {d : TDesc} {k : Nat} (m : Mem) (packed : Bool) (r c0 : Nat) (codes : List Nat) :
    WritesIn (d.writeSpans packed k) m (putPiece m d k packed r c0 codes) := by
  unfold putPiece
  cases packed with
  | true => exact putRowCodes_writesIn ..
  | false => exact putRowCodes_writesIn ..

theorem putElem_writesIn (m : Mem) (st : Staged) (i code : Nat) :
    WritesIn (st.d.writeSpans st.packed st.face) m (putElem m st i code) := putRowCodes_writesIn ..

namespace State.memWf

variable {s t : State}

/-! ### Staged faces, whatever the command -/

theorem modFace (w : s.memWf) (u : Use) {f : Mem → Mem} (hf : ∀ m, Mem.wf m = true → Mem.wf (f m) = true) :
    (s.modFace u f).memWf := State.memWf_modHall w _ _ (hf _)

theorem openFace (w : s.memWf) (q : Page) (slot : Nat) (u : Use) (k : Writer) : (s.openFace q slot u k).memWf := by
  unfold State.openFace
  split
  · exact w.modAtt ..
  · dsimp only
    refine State.memWf.modAtt (State.memWf_modHall w _ _ fun h => ?_) ..
    exact ((copyFace_writesIn _).trans (recoarseRows_writesIn ..)).wf h

theorem putRows (w : s.memWf) (q : Page) (slot : Nat) (u : Use) (x : WriteCtx) (first col0 : Nat) (vals : List (List Val)) :
    (s.putRows q slot u x first col0 vals).memWf := OpFrame.wf (U := [u]) ((OpFrame.refl s).putRows (List.mem_singleton_self u) ..) w

theorem modStat (w : s.memWf) (q : Page) (slot : Nat) (u : Use) (c : Int) (f : Stat → Stat) : (s.modStat q slot u c f).memWf :=
  OpFrame.wf (U := [u]) ((OpFrame.refl s).modStat u c f) w

theorem modStaged (w : s.memWf) (q : Page) (slot : Nat) (u : Use) (f : Staged → Staged) : (s.modStaged q slot u f).memWf :=
  w.modAtt ..

theorem addSqs (w : s.memWf) (q : Page) (slot : Nat) (u : Use) (l : List (Nat × Nat)) : (s.addSqs q slot u l).memWf :=
  OpFrame.wf (U := [u]) ((OpFrame.refl s).addSqs u l) w

theorem countRead (w : s.memWf) (q : Page) (slot : Nat) (u : Use) (l : List (Nat × Nat)) : (s.countRead q slot u l).memWf :=
  OpFrame.wf (U := [u]) ((OpFrame.refl s).countRead u l) w

theorem countFace (w : s.memWf) (q : Page) (slot : Nat) (u : Use) (packed : Bool) (rows : List Nat) (col n : Nat) :
    (s.countFace q slot u packed rows col n).memWf := OpFrame.wf (U := [u]) ((OpFrame.refl s).countFace u ..) w

theorem faceAffine (w : s.memWf) (q : Page) (slot : Nat) (u : Use) (a : Nat) : (s.faceAffine q slot u a).memWf :=
  OpFrame.wf (U := [u]) ((OpFrame.refl s).faceAffine u a) w

/-! ### LOAD, STORE and COPY -/

theorem loadCodes (w : s.memWf) (q : Page) (slot : Nat) (u : Use) (e0 : Nat) (codes : List Nat) :
    (s.loadCodes q slot u e0 codes).memWf := by
  unfold State.loadCodes
  split
  · exact w
  · next st _ =>
    dsimp only
    have pieces (l : List (Nat × Nat × Nat)) : ∀ z : Mem × Nat, Mem.wf z.1 = true → Mem.wf (l.foldl (fun (z : Mem × Nat) g =>
        (putPiece z.1 u.d st.face st.packed g.1 g.2.1 ((codes.drop z.2).take g.2.2), z.2 + g.2.2)) z).1 = true := by
      induction l with
      | nil => exact fun _ h => h
      | cons g l ih => exact fun z h => ih _ ((putPiece_writesIn ..).wf h)
    have v := (w.modFace u fun m h => pieces (segments u.d.cols e0 codes.length) (m, 0) h).modStaged q slot u
      fun st => { st with wrote := st.wrote ++ [(e0, codes.length)] }
    exact ite (v.modStat ..) v

theorem loadPlane (w : s.memWf) (q : Page) (slot : Nat) (u : Use) (row : Nat) (b : List Byte) :
    (s.loadPlane q slot u row b).memWf := by
  unfold State.loadPlane
  split
  · exact w
  · exact ((w.modFace u fun m h => Mem.wf_memWrites _ h _).modStaged ..).modStat ..

theorem loadSide (w : s.memWf) (q : Page) (slot : Nat) (u : Use) (b : List Byte) : (s.loadSide q slot u b).memWf := by
  unfold State.loadSide
  split
  · exact w
  · exact ((w.modFace u fun m h => (putSide_writesIn (packed := false) m b).wf h).modStaged ..).modStat ..

theorem loadUnits (w : s.memWf) (q : Page) (slot : Nat) (u : Use) (part first n : Nat) (b : List Byte) :
    (s.loadUnits q slot u part first n b).memWf :=
  ite ((w.openFace ..).loadCodes ..) (ite ((w.openFace ..).loadPlane ..) ((w.openFace ..).loadSide ..))

theorem loadWork (w : s.memWf) (q : Page) (c : Cmd) : Answers State.memWf (s.loadWork q c) := by
  unfold State.loadWork
  split
  · dsimp only
    split
    · exact .error
    · exact .guard (.ok ((w.loadUnits ..).modAtt ..))
  · exact .error

theorem countStore (w : s.memWf) (q : Page) (c : Cmd) (u : Use) (b : List Byte) : (s.countStore q c u b).memWf :=
  ite (w.countRead ..) w

theorem storeWork (w : s.memWf) (q : Page) (c : Cmd) : Answers State.memWf (s.storeWork q c) := by
  unfold State.storeWork
  split
  · split
    · exact .error
    · exact .ok ((w.countStore ..).modAtt ..)
  · exact .error

theorem copyRows (w : s.memWf) (q : Page) (c : Cmd) (a b : Use) : Answers State.memWf (s.copyRows q c a b) := by
  unfold State.copyRows
  dsimp only
  split
  · exact .error
  · exact .error
  · split
    · exact .error
    · exact .ok (((w.countFace ..).openFace ..).putRows ..)

theorem copyWork (w : s.memWf) (q : Page) (c : Cmd) : Answers State.memWf (s.copyWork q c) := by
  unfold State.copyWork
  split
  · dsimp only
    split
    · split
      · exact .error
      · exact .ok (((((w.countStore ..).openFace ..).faceAffine ..).loadUnits ..).modAtt ..)
    · split
      · exact .error
      · next e => exact .ok (State.memWf.modAtt (w.copyRows q c _ _ _ e) ..)
  · exact .error

/-! ### CHECKPOINT and GANG -/

theorem ckptHall (w : s.memWf) (q : Page) (c : Cmd) (p : Plan) (h : Nat) : Answers State.memWf (s.ckptHall q c p h) := by
  unfold State.ckptHall
  dsimp only
  split
  · exact .error
  · have v (n : Nat) : State.memWf { s with free := n } := w
    exact fun t e => (LinkFrame.sendOnce (.refl _) _ _ _ _ _ t e).wf (v _)

theorem countCkpt (w : s.memWf) (q : Page) (c : Cmd) : (s.countCkpt q c).memWf := by
  unfold State.countCkpt
  refine w.foldl (fun t u wt => ?_) _
  split
  · exact ite (wt.countRead ..) wt
  · exact wt

theorem ckptWork (w : s.memWf) (q : Page) (c : Cmd) : Answers State.memWf (s.ckptWork q c) := by
  unfold State.ckptWork
  split
  · exact .error
  · split
    · exact .error
    · next e =>
      have v := Answers.foldE (fun _ h wt => State.memWf.ckptHall wt q c _ h) _ w _ e
      exact .ok (ite ((State.memWf.countCkpt v q c).modAtt ..) v)

theorem failWork (w : s.memWf) (q : Page) (c : Cmd) (code : Nat) : (s.failWork q c code).memWf := by
  unfold State.failWork
  exact (ite (w.log ..) w).failCmd ..

theorem work (w : s.memWf) (q : Page) (slot : Nat) (want : Cmd → Bool) {f : Cmd → State → Except Nat State}
    (hf : ∀ c, s.cmd? q slot = some c → c.slot = slot → Answers State.memWf (f c s)) : (s.work q slot want f).memWf := by
  unfold State.work
  split
  · exact w
  · next c hc =>
    have hs : c.slot = slot := by simpa using List.find?_some hc
    refine ite ?_ w
    split
    · next e => exact hf c hc hs _ e
    · exact w.failWork ..

theorem gangWork (w : s.memWf) (q : Page) (slot op : Nat) : (s.gangWork q slot op).memWf := by
  refine w.work q slot _ fun c hc hs => ?_
  subst hs
  split
  · next hg => exact fun t e => (WorkFrame.gangStep hc hg t e).wf w
  · exact .error

/-! ### Submission, and the rows -/

theorem writeRing (w : s.memWf) (q : Page) (hbm : Bool) (a : Nat) (b : List Byte) : (s.writeRing q hbm a b).memWf :=
  w.of_queueFrame (·.writeRing q hbm a b)

theorem submitRow (w : s.memWf) (q : Page) (op : Nat) (d : Desc) : (s.submitRow q op d).memWf := by
  unfold State.submitRow
  exact ite (ite w ((w.writeRing ..).record ..)) (w.hostSubmit ..)

theorem cmdRow (w : s.memWf) (q : Page) (op : Nat) (fix : Desc → Desc) {work : Nat → State → State}
    (hf : ∀ slot, (work slot s).memWf) (st : CmdStep) : Nexts State.memWf (cmdRow q op fix work st s) := by
  cases st with
  | submit d => exact .next (w.submitRow ..)
  | work slot => exact w.whenRunning (hf slot)

theorem execLoad (w : s.memWf) (q : Page) (st : CmdStep) : Nexts State.memWf (execLoad q st s) :=
  w.cmdRow q _ _ (fun slot => w.work q slot _ fun c _ _ => w.loadWork q c) st

theorem execStore (w : s.memWf) (q : Page) (st : CmdStep) : Nexts State.memWf (execStore q st s) :=
  w.cmdRow q _ _ (fun slot => w.work q slot _ fun c _ _ => w.storeWork q c) st

theorem execCopy (w : s.memWf) (q : Page) (st : CmdStep) : Nexts State.memWf (execCopy q st s) :=
  w.cmdRow q _ _ (fun slot => w.work q slot _ fun c _ _ => w.copyWork q c) st

theorem execFence (w : s.memWf) (q : Page) (st : CmdStep) : Nexts State.memWf (execFence q st s) :=
  w.cmdRow q _ _ (fun _ => w) st

theorem execCheckpoint (w : s.memWf) (q : Page) (st : CmdStep) : Nexts State.memWf (execCheckpoint q st s) :=
  w.cmdRow q _ _ (fun slot => w.work q slot _ fun c _ _ => w.ckptWork q c) st

theorem gangRow (w : s.memWf) (op : Nat) (q : Page) (st : CmdStep) : Nexts State.memWf (gangRow op q st s) :=
  w.cmdRow q _ _ (fun slot => w.gangWork q slot op) st

/-! ### RUN -/

theorem modeRow (w : s.memWf) {l : List (Nat × (Site → Upset → State → Out))} (k : Nat) (a : Site)
    (hl : ∀ e ∈ l, Nexts State.memWf (e.2 a Upset.none s)) : Nexts State.memWf (modeRow l k a s) := by
  unfold Machine.modeRow
  split
  · next e he => exact hl e (List.mem_of_find?_eq_some he)
  · exact .next w

theorem opRow (w : s.memWf) (o : Op) (a : Site) : Nexts State.memWf (opRow o a s) := by
  cases o with
  | bayload _ => exact w.execBayload a _
  | matpass m =>
    refine w.modeRow _ a fun e he => ?_
    simp only [matRows, List.mem_cons, List.not_mem_nil, or_false] at he
    rcases he with rfl | rfl | rfl | rfl <;> exact w.matRow _ a _
  | epass m =>
    refine w.modeRow _ a fun e he => ?_
    simp only [eRows, List.mem_cons, List.not_mem_nil, or_false] at he
    rcases he with rfl | rfl | rfl | rfl | rfl | rfl | rfl | rfl | rfl | rfl | rfl | rfl | rfl | rfl | rfl | rfl | rfl <;>
      exact w.eRow _ a _
  | newel m =>
    refine w.modeRow _ a fun e he => ?_
    simp only [Machine.newelRows, List.mem_cons, List.not_mem_nil, or_false] at he
    rcases he with rfl | rfl | rfl | rfl | rfl | rfl | rfl | rfl | rfl | rfl | rfl | rfl | rfl | rfl <;> exact w.newelRow _ a Upset.none
  | riser r =>
    dsimp only [Machine.opRow]
    split <;> exact w.riserRow _ a _
  | save v =>
    dsimp only [Machine.opRow]
    split
    · exact w.execReblock a
    · exact w.execSave a
  | store _ => exact w.execStoreOperation a
  | hbmcopy _ => exact w.execHbmcopy a
  | send _ => exact w.execSend a
  | recv r =>
    dsimp only [Machine.opRow]
    split
    · exact w.execRecv a
    · split
      · exact w.execPull a
      · exact w.execMezzRestore a
  | reduce r =>
    refine w.modeRow _ a fun e he => ?_
    simp only [reduceRows, List.mem_cons, List.not_mem_nil, or_false] at he
    rcases he with rfl | rfl | rfl | rfl <;> exact w.reduceRow _ a
  | hallwait _ _ => exact w.execHallwait a
  | bad => exact .next w

theorem hallTurns (a : Site) (l : List OpCtx) : ∀ {s : State}, s.memWf → Nexts State.memWf (hallTurns a l s) := by
  induction l with
  | nil => exact fun w => .next w
  | cons x l ih =>
    intro s w
    unfold Machine.hallTurns
    split
    · next t e =>
      have v := w.opRow _ _ t e
      split
      · exact .next v
      · exact ih v
    · exact w.opRow _ _

theorem runHalls (q : Page) (slot : Nat) (l : List Nat) : ∀ {s : State}, s.memWf → Nexts State.memWf (runHalls q slot l s) := by
  induction l with
  | nil => exact fun w => .next w
  | cons h l ih =>
    intro s w
    unfold Machine.runHalls Machine.hallStep
    split
    · next t e => exact ih (hallTurns _ _ w t e)
    · exact hallTurns _ _ w

theorem execRun (w : s.memWf) (q : Page) (st : CmdStep) : Nexts State.memWf (execRun q st s) := by
  cases st with
  | submit d => exact .next (w.submitRow ..)
  | work slot =>
    unfold Machine.execRun
    dsimp only
    split
    · exact .next w
    · exact runHalls _ _ _ w

/-! ### The end of a command's staging -/

theorem unlist (w : s.memWf) (q : Page) (slot : Nat) (u : Use) (st : Staged) (i bits : Nat) :
    (s.unlist q slot u st i bits).memWf := by
  unfold State.unlist
  dsimp only
  exact ite w (((w.modFace u fun m h => (putElem_writesIn m st i _).wf h).modStat ..).modAtt ..)

theorem settleSide (w : s.memWf) (q : Page) (slot : Nat) (u : Use) (st : Staged) : (s.settleSide q slot u st).memWf := by
  unfold State.settleSide
  dsimp only
  refine ite w (State.memWf.modStaged (State.memWf.foldl ?_ (fun t e wt => wt.unlist ..) _) ..)
  exact w.modFace u fun m h => (putSide_writesIn (packed := false) m _).wf h

theorem countRefits (w : s.memWf) (q : Page) (slot : Nat) (u : Use) (st : Staged) : (s.countRefits q slot u st).memWf := by
  unfold State.countRefits
  split
  · exact w
  · exact (w.modStaged ..).modStat ..

end State.memWf

end Sys2Proof.Machine
end

section
/-! PROOFS. Canonical memory over free bytes of commands that BAR2 writes met, and over the commit. -/

namespace Sys2Proof.Machine

theorem Mem.wf_putCode {m : Mem} (h : Mem.wf m = true) (fmt base i code : Nat) : Mem.wf (putCode m fmt base i code) = true := by
  unfold putCode
  dsimp only
  split
  · exact Mem.wf_memWrite h ..
  · exact Mem.wf_memWrites _ h _

theorem Mem.wf_putCodes (fmt base : Nat) (codes : List Nat) : ∀ {m : Mem}, Mem.wf m = true → ∀ i,
    Mem.wf (putCodes m fmt base i codes) = true := by
  induction codes with
  | nil => exact fun h _ => h
  | cons c codes ih => exact fun h i => ih (Mem.wf_putCode h ..) (i + 1)

/-- A fold of memory updates that each keep the canonical form. -/
theorem Mem.wf_foldl {α : Type} {f : Mem → α → Mem} (hf : ∀ m a, Mem.wf m = true → Mem.wf (f m a) = true) (l : List α) :
    ∀ {m : Mem}, Mem.wf m = true → Mem.wf (l.foldl f m) = true := by
  induction l with
  | nil => exact fun h => h
  | cons a l ih => exact fun h => ih (hf _ a h)

/-! ### What a commit does in a hall -/

/-- A fold of updates of a hall that each keep its stack canonical. -/
theorem Hall.foldl_wf {α : Type} {f : Hall → α → Hall} (hf : ∀ H a, Mem.wf H.hbm = true → Mem.wf (f H a).hbm = true) (l : List α) :
    ∀ {H : Hall}, Mem.wf H.hbm = true → Mem.wf (l.foldl f H).hbm = true := by
  induction l with
  | nil => exact fun h => h
  | cons a l ih => exact fun h => ih (hf _ a h)

@[simp] theorem Hall.advancePair_hbm (H : Hall) (d : TDesc) (scope : Option Nat) : (H.advancePair d scope).hbm = H.hbm :=
  List.foldl_keeps Hall.hbm (fun _ _ => Hall.advanceGen_hbm ..) _ _

@[simp] theorem Hall.flip_hbm (H : Hall) (p : Option Plan) (st : Staged) (u : Use) (top : Option Int) :
    (H.flip p st u top).hbm = H.hbm := by
  unfold Hall.flip
  rw [Hall.advancePair_hbm]
  rfl

@[simp] theorem Hall.takeTwin_hbm (H : Hall) (job : Nat) (t : Twin) : (H.takeTwin job t).hbm = H.hbm := rfl

@[simp] theorem Hall.freeRow_hbm (H : Hall) (job l : Nat) : (H.freeRow job l).hbm = H.hbm := by
  unfold Hall.freeRow
  split <;> rfl

@[simp] theorem Hall.advance_hbm (H : Hall) (job : Nat) (a : Attempt) (h : Nat) (uses : List (Bool × Nat)) (stepped : Bool) :
    (H.advance job a h uses stepped).hbm = H.hbm := by
  unfold Hall.advance
  dsimp only
  refine (List.foldl_keeps Hall.hbm (fun _ _ => ?_) _ _).trans ?_ <;> rfl

theorem Hall.xlog_wf {H : Hall} (w : Mem.wf H.hbm = true) (now : DWord) (e : LogEnt) : Mem.wf (H.xlog now e).hbm = true := by
  unfold Hall.xlog
  split
  · exact w
  · exact Mem.wf_memWrites _ w _

theorem Hall.commitTiles_wf {H : Hall} (w : Mem.wf H.hbm = true) (now : DWord) (job pass : Nat) (x : DWord) :
    Mem.wf (H.commitTiles now job pass x).hbm = true := by
  unfold Hall.commitTiles
  dsimp only
  split
  · exact w
  · exact Hall.xlog_wf w ..

theorem Hall.clogUnits_wf {H : Hall} (w : Mem.wf H.hbm = true) (b : List Byte) : Mem.wf (H.clogUnits b).hbm = true := by
  unfold Hall.clogUnits
  exact Hall.foldl_wf (fun _ _ w => Mem.wf_memWrites _ w _) _ w

theorem Hall.clogRecord_wf {H : Hall} (w : Mem.wf H.hbm = true) (b : List Byte) : Mem.wf (H.clogRecord b).hbm = true := by
  unfold Hall.clogRecord
  dsimp only
  split
  · exact w
  · exact Hall.clogUnits_wf w _

theorem Hall.collRecords_wf {H : Hall} (w : Mem.wf H.hbm = true) (job : Nat) (cs : List Coll) :
    Mem.wf (H.collRecords job cs).hbm = true := by
  unfold Hall.collRecords
  split
  · exact w
  · rw [Hall.putJob_hbm]
    exact Hall.foldl_wf (fun _ _ w => Hall.clogRecord_wf w _) _ w

theorem Hall.endStep_wf {H : Hall} (w : Mem.wf H.hbm = true) (x : StepCtx) : Mem.wf (H.endStep x).hbm = true := by
  unfold Hall.endStep
  dsimp only
  split
  · exact w
  · dsimp only
    exact Mem.wf_memWrites _ w _

namespace State.memWf

variable {s t : State}

/-! ### The end of staging -/

theorem derive (w : s.memWf) (q : Page) (slot : Nat) (u : Use) (st : Staged) : (s.derive q slot u st).memWf := by
  unfold State.derive
  dsimp only
  refine ite w (State.memWf.modAtt (ite (State.memWf.modAtt ?_ ..) ?_) ..) <;>
    exact (((w.modFace u fun m h => Mem.wf_foldl (fun _ _ h => Mem.wf_putCodes _ _ _ h _) _ h).modStaged ..).modStat ..).addSqs ..

theorem deriveAll (w : s.memWf) (q : Page) (c : Cmd) : (s.deriveAll q c).memWf := by
  unfold State.deriveAll
  refine w.foldl (fun t st wt => ?_) _
  split
  · exact ((wt.countRefits ..).settleSide ..).derive ..
  · exact wt

/-! ### Free bytes -/

theorem freshList {α : Type} (w : s.memWf) (f : Nat → α) (n : Nat) : (s.freshList f n).2.memWf := w

theorem freeRuns (w : s.memWf) (h : Nat) (l : List Span) : (s.freeRuns h l).memWf := by
  unfold State.freeRuns
  refine w.foldl (fun t sp wt => ?_) _
  refine (wt.freshList Config.freeByte sp.2).writeHall h fun H w => ?_
  exact Mem.wf_memWrites _ w _

theorem freeHits (w : s.memWf) (a : Attempt) : (s.freeHits a).memWf := w.foldl (fun _ _ w => w.freeRuns ..) _

theorem freeCells (w : s.memWf) (st : Staged) (x : Cells) : (s.freeCells st x).memWf := by
  unfold State.freeCells
  dsimp only
  refine freeRuns (ite (w.freeRuns ..) ?_) ..
  refine (w.freshList ..).writeHall _ fun H w => ?_
  exact Mem.wf_foldl (fun _ _ h => Mem.wf_putCodes _ _ _ h _) _ w

theorem freeWhere {α : Type} (ok : α → Bool) {f : α → State → α × State} (hf : ∀ x s, s.memWf → (f x s).2.memWf) (l : List α)
    (w : s.memWf) : (freeWhere ok f l s).2.memWf := by
  unfold Machine.freeWhere
  have keep (l : List α) : ∀ z : List α × State, z.2.memWf →
      (l.foldl (fun z x => if ok x then (let r := f x z.2; (z.1 ++ [r.1], r.2)) else (z.1 ++ [x], z.2)) z).2.memWf := by
    induction l with
    | nil => exact fun _ w => w
    | cons x l ih =>
      refine fun z w => ih _ ?_
      dsimp only
      split
      · exact hf _ _ w
      · exact w
  exact keep l _ w

theorem blur (w : s.memWf) (q : Page) (c : Cmd) : (s.blur q c).1.memWf := by
  unfold State.blur
  dsimp only
  have base (f : Staged → Cells) : (c.att.staged.foldl (fun s st => s.freeCells st (f st)) s).memWf :=
    w.foldl (fun _ _ w => w.freeCells ..) _
  have free {u : State} (w : u.memWf) (l : List (Nat × Nat)) (f : State → Nat × Nat → List Span) :
      (l.foldl (fun s g => s.freeRuns g.1 (f s g)) u).memWf := w.foldl (fun _ _ w => w.freeRuns ..) _
  refine of_eq (of_eq (free ?_ _ fun s g => [((s.hall g.1).holdBase + 65536 * g.2, 65536)]) rfl rfl) rfl rfl
  refine freeWhere _ (fun x s w => of_eq w rfl rfl) _ ?_
  refine freeWhere _ (fun x s w => of_eq w rfl rfl) _ ?_
  refine freeWhere _ (fun x s w => of_eq w rfl rfl) _ ?_
  refine freeWhere _ (fun x s w => of_eq w rfl rfl) _ ?_
  exact freeWhere _ (fun x s w => of_eq w rfl rfl) _ (base _)

theorem redo {c : Cmd} {q : Page} {r : State × Cmd} (w : s.memWf) (e : s.redo q c = some r) : r.1.memWf := by
  unfold State.redo at e
  dsimp only at e
  have start (f : Attempt → Attempt) : ((s.unsure c).modAtt q c.slot f).memWf := (w.freeHits c.att).modAtt ..
  split at e
  · cases e
  next t ht =>
  have wt : t.memWf := by
    refine (?_ : Answers State.memWf _) t ht
    exact .ite ((start _).loadWork _ _) (.ite ((start _).storeWork _ _) (.ite ((start _).copyWork _ _) .error))
  split at e
  · cases e
  next y _ =>
  obtain ⟨z, _, rfl⟩ := Option.map_eq_some_iff.mp e
  refine (wt.deriveAll q y).foldl (fun t e wt => ?_) _
  refine wt.foldl (fun t i wt => ?_) _
  exact ite (wt.freeRuns ..) (wt.writeHall _ fun H w => Mem.wf_memWrites _ w _)

theorem unspecify (w : s.memWf) (q : Page) (c : Cmd) : (s.unspecify q c).1.memWf := by
  unfold State.unspecify
  split
  · exact w
  · split
    · next e => exact w.redo e
    · exact w.blur q c

/-! ### The commit -/

theorem flipAll (w : s.memWf) (q : Page) (c : Cmd) : (s.flipAll q c).memWf := by
  unfold State.flipAll
  refine w.foldl (fun t st wt => ?_) _
  split
  · exact wt
  · exact wt.modHall _ fun _ => Hall.flip_hbm ..

theorem commitRows (w : s.memWf) (q : Page) (c : Cmd) : (s.commitRows q c).memWf := by
  unfold State.commitRows State.keepRows
  dsimp only
  refine State.memWf.foldl ((w.modJob ..).foldl (fun t x wt => ?_) _) (fun t x wt => ?_) _
  · exact wt.modHall _ fun _ => Hall.takeTwin_hbm ..
  · exact wt.modHall _ fun _ => Hall.freeRow_hbm ..

theorem commitHall (w : s.memWf) (q : Page) (c : Cmd) (h : Nat) : (s.commitHall q c h).memWf := by
  unfold State.commitHall
  exact w.writeHall _ fun H w => Hall.collRecords_wf (Hall.commitTiles_wf (H := H.accumulate c.att h) w ..) ..

theorem endSteps (w : s.memWf) (q : Page) (c : Cmd) (p : Plan) (skip : Bool) : (s.endSteps q c p skip).memWf := by
  unfold State.endSteps
  refine w.foldl (fun t h wt => ?_) _
  refine wt.writeHall _ fun H w => ?_
  dsimp only
  split
  · exact Hall.endStep_wf w _
  · exact Hall.endStep_wf w _

theorem commitCounters (w : s.memWf) (q : Page) (c : Cmd) (stepped : Bool) : (s.commitCounters q c stepped).memWf := by
  unfold State.commitCounters
  refine w.foldl (fun t h wt => ?_) _
  refine wt.modHall _ fun H => ?_
  rw [Hall.putJob_hbm, Hall.advance_hbm]

theorem commitEffects (w : s.memWf) (q : Page) (c : Cmd) : (s.commitEffects q c).1.memWf := by
  unfold State.commitEffects
  have v := w.unspecify q c
  generalize s.unspecify q c = r at v
  obtain ⟨u, c'⟩ := r
  dsimp only
  refine commitCounters ?_ ..
  have halls {u : State} (w : u.memWf) (l : List Nat) : (l.foldl (fun s h => s.commitHall q c' h) u).memWf :=
    w.foldl (fun _ _ w => w.commitHall ..) l
  split
  · exact State.memWf.endSteps (halls (State.memWf.commitRows (ite v (v.flipAll ..)) ..) _) ..
  · exact halls (State.memWf.commitRows (ite v (v.flipAll ..)) ..) _

theorem finishCmd (w : s.memWf) (q : Page) (c : Cmd) (post : Bool) : (s.finishCmd q c post).memWf := by
  unfold State.finishCmd
  dsimp only
  refine State.memWf.rehold (ite (State.memWf.postRecord (State.memWf.modJob ?_ ..) ..) (State.memWf.modJob (State.memWf.modJob ?_ ..) ..)) .. <;>
    exact (w.modPart ..).putHost (Mem.wf_foldl (fun _ _ h => Mem.wf_memWrites _ h _) _ (w.modPart (pageFn q) id).1)

theorem commitPoint (w : s.memWf) (q : Page) (c : Cmd) : (s.commitPoint q c).memWf := by
  unfold State.commitPoint
  exact ((w.commitEffects q c).finishCmd ..).fetchAll ..

theorem commitQuiet (w : s.memWf) (q : Page) (c : Cmd) : (s.commitQuiet q c).memWf := by
  unfold State.commitQuiet
  exact (w.commitEffects q c).finishCmd ..

theorem shareDigest (w : s.memWf) (q : Page) (c : Cmd) : (s.shareDigest q c).memWf := by
  unfold State.shareDigest
  exact ite w (State.memWf.compareDigest (ite w ((w.modAtt ..).sendDigest ..)) ..)

theorem openWindow (w : s.memWf) (q : Page) : (s.openWindow q).memWf := by
  unfold State.openWindow
  split
  · exact w
  refine ite ?_ w
  split
  · exact State.memWf.failCmd (ite (w.log ..) w) ..
  · dsimp only
    have v (c : Cmd) := w.deriveAll q c
    refine ite (v _) ?_
    split
    · exact v _
    · split
      · exact (v _).shareDigest ..
      · exact ite (((v _).shareDigest ..).modCmd ..) ((v _).shareDigest ..)

theorem commitOldest (w : s.memWf) (q : Page) : (s.commitOldest q).memWf := by
  unfold State.commitOldest
  split
  · exact w
  · exact ite (w.commitPoint ..) w

theorem execCommit (w : s.memWf) (q : Page) (st : CommitStep) : Nexts State.memWf (execCommit q st s) := by
  cases st with
  | window => exact w.whenRunning (w.openWindow q)
  | point => exact w.whenRunning (w.commitOldest q)

end State.memWf

end Sys2Proof.Machine
end

section
/-! PROOFS. Canonical memory over plans, slices, bindings, freezes and key commands. -/

namespace Sys2Proof.Machine

@[simp] theorem Hall.dropJob_hbm (H : Hall) (j : Nat) : (H.dropJob j).hbm = H.hbm := rfl

@[simp] theorem Hall.swapPlan_hbm (H : Hall) (old : Option Plan) (p : Plan) (lh : Nat) : (H.swapPlan old p lh).hbm = H.hbm := rfl

@[simp] theorem Hall.leave_hbm (H : Hall) : H.leave.hbm = H.hbm := rfl

namespace State.memWf

variable {s t : State}

/-! ### Plans -/

theorem sendExchange (w : s.memWf) (v : Fn) (p : Plan) : (s.sendExchange v p).memWf := by
  unfold State.sendExchange
  split
  · exact w
  · exact w

theorem planRead (w : s.memWf) (q : Page) (slot : Nat) : (s.planRead q slot).memWf := by
  unfold State.planRead
  dsimp only
  split
  · exact w
  refine ite ?_ w
  split
  · exact w.failWork ..
  have v (n : Nat) : State.memWf { s with free := n } := w
  split
  · exact (v _).failCmd ..
  · exact ite ((v _).modPart ..) (((v _).modPart ..).sendExchange ..)

/-- Ports of a partition's halls grant anew. -/
theorem regrantAll (w : t.memWf) (l : List Nat) :
    (l.foldl (fun t h => (List.range 5).foldl (fun t i => State.regrant s t h i) t) t).memWf :=
  w.foldl (fun _ _ w => w.foldl (fun _ _ w => State.memWf.regrant s w ..) _) l

theorem swapBanks (w : s.memWf) (v : Fn) (p : Plan) (alone : Bool) : (s.swapBanks v p alone).memWf := by
  unfold State.swapBanks
  refine State.memWf.regrantAll (State.memWf.modPart (w.foldl (fun t h wt => ?_) _) ..) _
  exact wt.modHall _ fun _ => Hall.swapPlan_hbm ..

theorem plannedBy (w : s.memWf) (v : Fn) (l : Loading) (c : Cmd) : (s.plannedBy v l c).1.memWf := by
  unfold State.plannedBy
  split
  · exact w
  · exact w

theorem planSwap (w : s.memWf) (v : Fn) : (s.planSwap v).memWf := by
  unfold State.planSwap
  split
  · exact w
  split
  · exact w
  refine ite (ite ?_ (w.failCmd ..)) w
  have p := w.plannedBy v
  dsimp only
  split
  · exact ((p _ _).swapBanks ..).commitPoint ..
  · exact (p _ _).failCmd ..

theorem sendSamplers (w : s.memWf) (v : Fn) : (s.sendSamplers v).memWf := by
  unfold State.sendSamplers
  split
  · exact w
  · refine (w.flipRoute v).foldl (fun t h wt => ?_) _
    exact wt.enqueue _

theorem takeSamplers (w : s.memWf) (v : Fn) (l : List DWord) : (s.takeSamplers v l).memWf := by
  unfold State.takeSamplers
  refine w.foldl (fun t h wt => ?_) _
  refine wt.modHall _ fun _ => ?_
  rfl

theorem rejoinEnd (w : s.memWf) (v : Fn) (p : Plan) (same : Bool) (l : List DWord) : (s.rejoinEnd v p same l).memWf := by
  unfold State.rejoinEnd
  exact ite (ite ((w.sendSamplers ..).modPart ..) (ite (w.sendExchange ..) ((w.takeSamplers ..).modPart ..))) (w.modPart ..)

theorem exchange (w : s.memWf) (v : Fn) (digest record : List Byte) (steps riser : List DWord) (leg : LegWord) :
    (s.exchange v digest record steps riser leg).memWf := by
  unfold State.exchange
  dsimp only
  split
  · exact ite w (ite (w.modPart ..) (w.failCmd ..))
  · split
    · exact w
    · exact ite (w.rejoinEnd ..) (ite (w.sendExchange ..) w)

/-! ### Slices -/

theorem preempt (w : s.memWf) (q : Page) : (s.preempt q).memWf := by
  unfold State.preempt
  refine w.foldl (fun t c wt => ?_) _
  exact (wt.killCmd ..).modJob ..

theorem sliceEnd (w : s.memWf) (v : Fn) : (s.sliceEnd v).memWf := by
  unfold State.sliceEnd
  dsimp only
  split
  · exact w
  · exact ite w (ite (((w.modPart ..).preempt ..).rehold ..) (w.setHolder ..))

theorem countRerun (w : s.memWf) (q : Page) (c : Cmd) : (s.countRerun q c).memWf := by
  unfold State.countRerun
  refine ite (w.foldl (fun t h wt => ?_) _) w
  refine wt.modHall _ fun _ => ?_
  rfl

theorem watchdog (w : s.memWf) (v : Fn) : (s.watchdog v).memWf := by
  unfold State.watchdog
  dsimp only
  split
  · exact w
  split
  · exact w
  · refine ite (State.memWf.failCmd (State.memWf.countRerun ((w.modJob ..).foldl (fun t x wt => ?_) _) ..) ..) w
    exact wt.killCmd ..

theorem windowOverrun (w : s.memWf) (q : Page) (hall : Nat) : (s.windowOverrun q hall).memWf := by
  unfold State.windowOverrun
  split
  · exact w
  · exact ite ((w.log ..).loseHall ..) w

/-! ### Jobs and partitions -/

theorem dropJob (w : s.memWf) (v : Fn) (j : Nat) : (s.dropJob v j).memWf := by
  unfold State.dropJob
  refine State.memWf.modPart (State.memWf.modJob (w.foldl (fun t h wt => ?_) _) ..) ..
  exact wt.modHall _ fun _ => Hall.dropJob_hbm ..

theorem admitJob (w : s.memWf) (v : Fn) (j : Nat) : (s.admitJob v j).memWf := by
  unfold State.admitJob
  refine State.memWf.modJob (w.foldl (fun t h wt => ?_) _) ..
  have one (f : Hall → Hall) (hf : ∀ H, (f H).hbm = H.hbm) (n : Nat) : State.memWf { t.modHall h f with free := n } := wt.modHall h hf
  refine one _ (fun _ => ?_) _
  rfl

theorem setResident (w : s.memWf) (f : Fn) (q : Page) (res wcommon : Bool) : (s.setResident f q res wcommon).memWf := by
  unfold State.setResident
  have v := w.modJob q fun x => { x with wcommon := wcommon }
  exact ite (w.accessErr f) (ite v (ite ((v.dropJob ..).rehold ..) (ite ((v.admitJob ..).rehold ..) (v.modJob ..))))

theorem writeJobCtrl (w : s.memWf) (f : Fn) (q : Page) (v : Word) : (s.writeJobCtrl f q v).memWf := by
  unfold State.writeJobCtrl
  exact ite (w.accessErr f) (ite (w.record ..) (State.memWf.setResident (ite (w.modJob ..) w) ..))

theorem rekeySet (w : s.memWf) (base size : Nat) : (s.rekeySet base size).memWf := by
  unfold State.rekeySet
  have v (n : Nat) : State.memWf { s with keyDrawsHbm := n } := w
  refine (v _).foldl (fun t h wt => ?_) _
  exact wt.writeHall _ fun _ _ => rfl

theorem closeWindows (w : s.memWf) (v : Fn) : (s.closeWindows v).memWf := w.foldl (fun _ _ w => w.commitOldest _) _

theorem failReset (w : s.memWf) (q : Page) : (s.failReset q).memWf := by
  unfold State.failReset
  refine State.memWf.drainFailed (w.foldl (fun t c wt => ?_) _) _
  exact (wt.dropAttempt ..).modCmd ..

theorem unbindPart (w : s.memWf) (v : Fn) : (s.unbindPart v).memWf := by
  unfold State.unbindPart
  refine State.memWf.regrantAll (State.memWf.modPart (State.memWf.foldl (w.foldl (fun t j wt => ?_) _) (fun t h wt => ?_) _) ..) _
  · exact wt.dropJob ..
  · exact wt.modHall _ fun _ => Hall.leave_hbm _

theorem unbind (w : s.memWf) (v : Fn) : (s.unbind v).memWf := by
  unfold State.unbind
  refine ite (State.memWf.unbindPart ((w.closeWindows v).foldl (fun t q wt => ?_) _) v) (w.modPart ..)
  exact wt.failReset q

theorem writeBind (w : s.memWf) (f v : Fn) (base size : Nat) (bnd rekey : Bool) : (s.writeBind f v base size bnd rekey).memWf := by
  unfold State.writeBind
  have p := w.modPart v fun p => { p with base := base, size := size }
  exact ite (w.accessErr f) (ite (w.record ..) (ite (ite (w.accessErr f) (w.unbind v)) (ite p (ite ((ite (p.rekeySet ..) p).modPart ..) (p.modPart ..)))))

theorem bindEffect (w : s.memWf) (v : Fn) : (s.bindEffect v).memWf := by
  unfold State.bindEffect
  refine ite (State.memWf.foldl ((w.modPart ..).foldl (fun t j wt => ?_) _) (fun t h wt => ?_) _) w
  · exact wt.dropJob ..
  · refine wt.modHall _ fun _ => ?_
    rfl

theorem rejoinCtl (w : s.memWf) (v : Fn) : (s.rejoinCtl v).memWf := by
  unfold State.rejoinCtl
  split
  · exact w
  · exact ite (ite ((w.sendExchange ..).modPart ..) (ite ((w.sendExchange ..).modPart ..) (w.sendExchange ..))) w

theorem writeScissor (w : s.memWf) (f v : Fn) (retire solo rejoin : Bool) : (s.writeScissor f v retire solo rejoin).memWf := by
  unfold State.writeScissor
  have a : (if retire then s.retireCtl v else s).memWf := ite (ite (w.retireLeg v) w) w
  have b : (if solo then (if retire then s.retireCtl v else s).standAlone v 0 else if retire then s.retireCtl v else s).memWf :=
    ite (a.standAlone v 0) a
  exact ite (w.accessErr f) (ite (ite (w.record ..) w) (ite (b.rejoinCtl v) b))

theorem setEpoch (w : s.memWf) (h j : Nat) (e : BitVec 16) : (s.setEpoch h j e).memWf := by
  unfold State.setEpoch
  refine w.foldl (fun t k wt => ?_) _
  exact wt.modHJob ..

theorem writeEpoch (w : s.memWf) (f : Fn) (h j : Nat) (e : BitVec 16) : (s.writeEpoch f h j e).memWf :=
  ite (w.accessErr f) (w.setEpoch ..)

theorem writeMezzCfg (w : s.memWf) (f : Fn) (h : Nat) (on : Bool) (peerHall : BitVec 3) (peerAddr : BitVec 18) :
    (s.writeMezzCfg f h on peerHall peerAddr).memWf := by
  unfold State.writeMezzCfg
  refine ite (w.accessErr f) (ite (ite (w.accessErr f) ?_) (ite (w.accessErr f) ?_)) <;> exact w.modHall h fun _ => rfl

/-! ### Freezes and the cabling check -/

theorem sbSend (w : s.memWf) (h i : Nat) (f : Frame) : (s.sbSend h i f).memWf := ite (w.modPort ..) w

theorem sbFlood (w : s.memWf) (f : Frame) (skip : Option (Nat × Nat)) : (s.sbFlood f skip).memWf :=
  w.foldl (fun _ _ w => w.sbSend ..) _

theorem sbTake (w : s.memWf) (f : Frame) : (s.sbTake f).memWf := w

theorem sbOrigin (w : s.memWf) (op : Nat) : (s.sbOrigin op).memWf := by
  unfold State.sbOrigin
  have v (n : Nat) : State.memWf { s with sbNext := n } := w
  exact ite (((v _).sbTake _).sbFlood ..) w

theorem pausePairs (w : s.memWf) : s.pausePairs.memWf := by
  unfold State.pausePairs
  refine w.foldl (fun t v wt => ?_) _
  exact ite (wt.sendDigest ..) wt

theorem startFreeze (w : s.memWf) (src : Nat) (landing : Bool) : (s.startFreeze src landing).memWf := by
  unfold State.startFreeze
  extract_lets origin told paused
  have wo : origin.memWf := w.sbOrigin 1
  clear_value origin
  have wt : told.memWf := by
    simp only [told]
    split
    · exact of_eq wo rfl rfl
    · exact w
  clear_value told
  have wp : paused.memWf := wt.pausePairs
  clear_value paused
  split
  · exact of_eq wt rfl rfl
  · exact of_eq wp rfl rfl

theorem noteFreeze (w : s.memWf) (kind what : Nat) : (s.noteFreeze kind what).memWf := by
  unfold State.noteFreeze
  refine State.memWf.notify (w.foldl (fun t h wt => ?_) _) ..
  exact wt.log ..

theorem freezeHeld (w : s.memWf) : s.freezeHeld.memWf := by
  unfold State.freezeHeld
  have v : State.memWf { s with holding := false, frozen := true } := w
  exact ite (v.noteFreeze ..) w

theorem pinFall (w : s.memWf) : s.pinFall.memWf := by
  unfold State.pinFall
  have v (b : Bool) : State.memWf { s with pinLow := true, byPin := b } := w
  exact ite ((v true).startFreeze ..) (v s.byPin)

theorem sbPass (w : s.memWf) {h i op : Nat} {f : Frame} (e : s.sbPass h i op f = some t) : t.memWf := by
  unfold State.sbPass at e
  split at e <;> cases e
  exact (w.sbTake f).sbFlood ..

theorem sbFreeze (w : s.memWf) (h i : Nat) (f : Frame) : (s.sbFreeze h i f).memWf := by
  unfold State.sbFreeze
  split
  · exact w
  · next t e =>
    have v := w.sbPass e
    have passed (l : List Nat) : State.memWf { t with bySide := l } := v.of_eq rfl rfl
    clear e
    exact ite ((passed _).startFreeze ..) v

theorem writeEcho (w : s.memWf) (f : Fn) (port : BitVec 6) (go : Bool) : (s.writeEcho f port go).memWf := by
  unfold State.writeEcho
  have v (n : Nat) : State.memWf { s with echoPort := port, echoAsk := port, echoBusy := true, echoDone := false, echoTimeout := false, sbNext := n } := w
  exact ite (w.accessErr f) (ite (w.record ..) (ite (ite ((v _).sbSend ..) (v s.sbNext)) w))

theorem echoAnswer (w : s.memWf) (h i : Nat) (f : Frame) : (s.echoAnswer h i f).memWf := by
  unfold State.echoAnswer
  have v (n : Nat) : State.memWf { s with sbNext := n } := w
  exact ite ((v _).modPort ..) w

theorem echoTake (w : s.memWf) (h i : Nat) (f : Frame) : (s.echoTake h i f).memWf := by
  unfold State.echoTake
  exact ite w w

/-! ### Key commands -/

theorem loseBurn (w : s.memWf) : s.loseBurn.memWf := by
  unfold State.loseBurn
  split
  · exact w
  · exact w

theorem keyEnd (w : s.memWf) (code : Nat) : (s.keyEnd code).memWf := w

theorem keyRun (w : s.memWf) : s.keyRun.memWf := by
  unfold State.keyRun
  dsimp only
  split
  · exact w
  · exact w

theorem keyBurned (w : s.memWf) (b : List Byte) : (s.keyBurned b).memWf := by
  unfold State.keyBurned
  have v (l : List KeySlot) (n : Nat) : State.memWf { s with slots := l, free := n } := w
  exact ite ((v _ s.free).keyEnd 0) ((v _ _).keyEnd _)

theorem keyStart (w : s.memWf) : s.keyStart.memWf := ite w w.keyRun

theorem keyTick (w : s.memWf) : s.keyTick.memWf := by
  unfold State.keyTick
  split
  · exact w.keyBurned _
  · exact ite w.keyRun w

theorem writeKeyCtrl (w : s.memWf) (f : Fn) (v : Word) : (s.writeKeyCtrl f v).memWf :=
  ite (w.accessErr f) (ite w (ite (w.record ..) w.keyStart))

theorem keyRow (w : s.memWf) (op : Nat) (f : Fn) : Nexts State.memWf (keyRow op f s) := .next (ite w (w.writeKeyCtrl ..))

end State.memWf

end Sys2Proof.Machine
end

section
/-! PROOFS. Canonical memory over resets, self-test, supplies and the host port. -/

namespace Sys2Proof.Machine

@[simp] theorem Hall.gate_hbm (H : Hall) : H.gate.hbm = H.hbm := rfl

@[simp] theorem Hall.underTest_hbm (H : Hall) (seed : DWord) : (H.underTest seed).hbm = H.hbm := rfl

/-- A hall that leaves its test has a cleared stack (R288). -/
@[simp] theorem Hall.tested_hbm (H : Hall) (x : Fuses) (h : Nat) (r : HallTest) (key : DWord × DWord) :
    (H.tested x h r key).hbm = [] := by
  unfold Hall.tested
  dsimp only
  split <;> rfl

namespace State.memWf

variable {s t : State}

/-! ### Resets -/

/-- A state whose halls stand at their reset values. -/
theorem of_noHalls (hh : Mem.wf s.host = true) (hb : s.halls = []) : s.memWf :=
  ⟨hh, fun h => by rw [State.hall, hb]; rfl⟩

theorem wipe (w : s.memWf) (keepAddr : Bool) : (s.wipe keepAddr).memWf := of_noHalls w.loseBurn.1 rfl

theorem begin (w : s.memWf) : s.begin.memWf := by
  unfold State.begin
  split
  · exact w.of_eq rfl rfl
  · exact w.of_eq rfl rfl

theorem hardReset (w : s.memWf) (cause : Nat) (keepAddr : Bool) : (s.hardReset cause keepAddr).memWf :=
  begin ((w.wipe keepAddr).of_eq rfl rfl)

theorem powerUp (w : s.memWf) : s.powerUp.memWf := (w.wipe false).of_eq rfl rfl

theorem chainPut (w : s.memWf) (f : ChainFrame) : (s.chainPut f).memWf := w

theorem flushWalks (w : s.memWf) : s.flushWalks.memWf := by
  unfold State.flushWalks
  have v : State.memWf { s with heldWalks := [] } := w
  exact v.foldl (fun _ _ wt => wt.chainPut _) _

theorem sysReset (w : s.memWf) (high : Bool) : (s.sysReset high).memWf := by
  unfold State.sysReset
  have v : State.memWf { s with sysHigh := true } := w
  have low : State.memWf { s with sysHigh := false, vcoreEn := true, tripLow := false } := w
  split
  · exact ite w v.begin
  · split
    · exact flushWalks ((low.hardReset _ _).of_eq rfl rfl)
    · exact w

theorem trainLink (w : s.memWf) : s.trainLink.memWf := w

theorem setPerst (w : s.memWf) (high : Bool) : (s.setPerst high).memWf := by
  unfold State.setPerst
  have v (b : Bool) : State.memWf { s with perstHigh := b } := w
  split
  · dsimp only
    split
    · exact (v true).trainLink
    · exact v true
  · exact ite ((v false).hardReset ..) w

/-! ### Self-test -/

theorem ringLink (w : s.memWf) (h : Nat) : (s.ringLink h).memWf := by
  unfold State.ringLink
  exact ite ((((w.modPort ..).modPort ..).grant ..).grant ..) w

theorem hallTested (w : s.memWf) (h : Nat) (r : HallTest) : (s.hallTested h r).memWf := by
  unfold State.hallTested
  have v : (s.putHall h ((s.hall h).tested s.fuses h r (Config.interleaveKey s.keyDrawsHbm))).memWf :=
    w.putHall h (by rw [Hall.tested_hbm]; rfl)
  refine ringLink (ringLink (ite ?_ ?_) _) _ <;> exact v.of_eq rfl rfl

theorem countTests (w : s.memWf) : s.countTests.memWf := w

theorem startTest (w : s.memWf) (h : Nat) : (s.startTest h).memWf := w.modHall h fun H => H.underTest_hbm _

theorem walkFull (w : s.memWf) (f : ChainFrame) (status addr seat pos : Nat) : (s.walkFull f status addr seat pos).memWf := by
  unfold State.walkFull
  have v (a : BitVec 18) (b : Bool) : State.memWf { s with chainAddr := a, chainValid := b } := w
  exact ite (chainPut (ite w (v _ _)) _) (chainPut (ite w (v _ _)) _)

theorem walkFill (w : s.memWf) (f : ChainFrame) (status addr seat pos : Nat) : (s.walkFill f status addr seat pos).memWf := by
  unfold State.walkFill
  exact ite w (ite w w)

theorem walkServe (w : s.memWf) (f : ChainFrame) : (s.walkServe f).memWf := by
  unfold State.walkServe
  exact ite w (ite (w.walkFull ..) (ite (w.walkFill ..) w))

theorem serveWalks (w : s.memWf) : s.serveWalks.memWf := by
  unfold State.serveWalks
  have v : State.memWf { s with heldWalks := [] } := w
  exact v.foldl (fun _ _ wt => wt.walkServe _) _

theorem sharedTested (w : s.memWf) (ok : Bool) : (s.sharedTested ok).memWf := by
  unfold State.sharedTested
  have byp : State.memWf { s with chainStage := .bypass } := w
  have srv : State.memWf { s with chainStage := .serving, devDomains := 4 } := w
  refine ite w (ite byp.flushWalks (startTest (startTest ?_ 0) 4))
  exact ite srv.serveWalks.trainLink srv.serveWalks

theorem pairTested (w : s.memWf) (a b : HallTest) : (s.pairTested a b).memWf := by
  unfold State.pairTested
  dsimp only
  split
  · have v := ((w.hallTested s.selfPair a).hallTested (s.selfPair + 4) b).countTests
    have u (n : Nat) : State.memWf { ((s.hallTested s.selfPair a).hallTested (s.selfPair + 4) b).countTests with selfPair := n } := v
    exact ite (((u _).startTest _).startTest _) (u _)
  · exact w

theorem pinFreeze (w : s.memWf) : (if s.pinLow then State.startFreeze { s with byPin := true } srcPin s.pinScope else s).memWf := by
  have v : State.memWf { s with byPin := true } := w
  exact ite (v.startFreeze ..) w

theorem selfFinished (w : s.memWf) : s.selfFinished.memWf := by
  unfold State.selfFinished
  have v : State.memWf { s with selfDone := true } := w
  exact ite (v.notify 1 0xFF).pinFreeze w

theorem outOfService (w : s.memWf) (h : Nat) : (s.outOfService h).memWf := by
  unfold State.outOfService
  have v : (s.modHall h Hall.gate).memWf := w.modHall h Hall.gate_hbm
  have u (m : Byte) : State.memWf { s.modHall h Hall.gate with hallmap := m } := v
  exact ite (((u _).ringDown ..).ringDown ..) w

theorem nextTests (w : s.memWf) : s.nextTests.memWf := by
  unfold State.nextTests
  dsimp only
  split
  · exact w
  · split
    · exact w
    · exact w.foldl (fun _ _ wt => wt.startTest _) _

theorem writeSelfCtrl (w : s.memWf) (f : Fn) (halls : Byte) (go : Bool) : (s.writeSelfCtrl f halls go).memWf := by
  unfold State.writeSelfCtrl
  have v (t : Byte) (b : Bool) : State.memWf { s with selfHalls := halls, testing := t, selfBusy := b } := w
  refine ite (w.accessErr f) (ite (w.record ..) (ite (w.accessErr f) (ite w (nextTests ?_))))
  exact (v _ _).foldl (fun _ _ wt => wt.outOfService _) _

theorem retested (w : s.memWf) (h : Nat) (r : HallTest) : (s.retested h r).memWf := by
  unfold State.retested
  split
  · extract_lets u left_
    have v : u.memWf := (w.hallTested h r).countTests
    clear_value left_ u
    exact nextTests (v.of_eq rfl rfl)
  · exact w

theorem suspect (w : s.memWf) (h : Nat) : (s.suspect h).memWf := by
  unfold State.suspect
  split
  · extract_lets u
    have v : u.memWf := w.loseHall h
    clear_value u
    exact nextTests (v.of_eq rfl rfl)
  · exact w

/-! ### Supplies -/

theorem trip (w : s.memWf) : s.trip.memWf := by
  unfold State.trip
  split
  · exact w
  · extract_lets was frozen told fallen
    have v : told.memWf := (w.startFreeze srcPorter false).chainPut _
    clear_value told
    have off : State.memWf { told with vcoreEn := false, tripLow := true, tripped := true } := v
    have u : fallen.memWf := off.hardReset 4 false
    clear_value fallen
    exact flushWalks (u.of_eq rfl rfl)

theorem ceiling (w : s.memWf) (m : Sensors) : (s.ceiling m).memWf := by
  unfold State.ceiling
  extract_lets n u
  have v : u.memWf := w.of_eq rfl rfl
  exact ite v.trip v

theorem watch (w : s.memWf) (m : Sensors) : (s.watch m).memWf := ite w.trip w

/-! ### The host port -/

theorem answer (w : s.memWf) (b : List Byte) : (s.answer b).memWf := w

theorem config (w : s.memWf) (f : Fn) (r : CfgReq) : (s.config f r).memWf := by
  unfold State.config
  have v (b : Bool) : State.memWf { s with cfgRetry := b } := w
  refine ite w (ite (v true) ?_)
  cases r with
  | read reg => exact ite (v false) (v false)
  | bar reg x => exact ite (v false) (v false)
  | sriov n en =>
    dsimp only
    split
    · exact v false
    · exact (ite (v false) (v false) : (if s.vfEnable = true ∨ 8 < n then ({ s with cfgRetry := false } : State)
        else { s with cfgRetry := false, numVFs := n }).memWf).of_eq rfl rfl

theorem spdmAnswer (w : s.memWf) (code : Nat) (param : List Byte) : (s.spdmAnswer code param).memWf := by
  unfold State.spdmAnswer
  split
  · exact w.of_eq rfl rfl
  · exact w

end State.memWf

end Sys2Proof.Machine
end

section
/-! PROOFS. Canonical memory over register accesses, BAR2, thaws, function resets, the management chain and the idle step. -/

namespace Sys2Proof.Machine

@[simp] theorem Hall.raiseOne_hbm (H : Hall) : H.raiseOne.hbm = H.hbm := by
  unfold Hall.raiseOne
  split
  · rfl
  · split <;> rfl

namespace State.memWf

variable {s t : State}

/-! ### Reads -/

theorem freeBytes (w : s.memWf) (n : Nat) : (s.freeBytes n).2.memWf := w

theorem spaceRead (w : s.memWf) (space h g a : Nat) : (s.spaceRead space h g a).2.memWf := by
  unfold State.spaceRead
  dsimp only
  split
  · split <;> exact w
  · exact w
  · exact w
  · exact w
  · exact w
  · split <;> exact w
  · exact w
  · exact w
  · exact w
  · exact w

theorem rdwin (w : s.memWf) (f : Fn) : (s.rdwin f).2.memWf := by
  unfold State.rdwin
  dsimp only
  split
  · exact w.accessErr f
  · exact (w.spaceRead ..).of_eq rfl rfl

theorem readReg (w : s.memWf) (f lf : Fn) (off : Nat) : (s.readReg f lf off).2.memWf := by
  unfold State.readReg
  dsimp only
  split
  · exact w.accessErr f
  · split
    · exact w.rdwin f
    · split
      · exact w
      · split
        · exact w.accessErr f
        · split <;> exact w

theorem read (w : s.memWf) (f : Fn) (off : Nat) : (s.read f off).memWf := by
  unfold State.read
  split
  · exact (w.accessErr f).answer _
  · exact (w.readReg f f off).answer _

/-! ### Writes -/

theorem writeRingReg (w : s.memWf) (f : Fn) (q : Page) (g : Job → Job) : (s.writeRingReg f q g).memWf :=
  ite (w.accessErr f) (w.modJob ..)

theorem writePage (w : s.memWf) (f : Fn) (q : Page) (off : Nat) (v : Word) : (s.writePage f q off v).memWf := by
  unfold State.writePage
  refine ite (w.writeCtrl ..) (ite (w.accessErr f) ?_)
  split
  · exact w.writeTail ..
  · exact w.writeCqHead ..
  · exact ite (w.modJob ..) w
  · exact w.writeRingReg ..
  · exact w.modJob ..
  · exact w.writeRingReg ..
  · exact w.writeRingReg ..
  · exact w.writeRingReg ..
  · exact w.writeRingReg ..
  · exact ite (w.modJob ..) (w.accessErr f)
  · exact w

theorem writeJobBlock (w : s.memWf) (q : Page) (off : Nat) (v : Word) : (s.writeJobBlock q off v).memWf := by
  unfold State.writeJobBlock
  dsimp only
  split
  · exact w.writeJobCtrl ..
  · exact ite (w.modJob ..) (w.accessErr _)
  · exact ite (w.modJob ..) w
  · exact w

theorem writePartBlock (w : s.memWf) (v : Fn) (off : Nat) (x : Word) : (s.writePartBlock v off x).memWf := by
  unfold State.writePartBlock
  dsimp only
  split
  · exact w.writeBind ..
  · exact ite (w.modPart ..) w
  · exact w.writeScissor ..
  · exact w

theorem writePrt (w : s.memWf) (off : Nat) (v : Word) : (s.writePrt off v).memWf := by
  unfold State.writePrt
  dsimp only
  split
  · exact w.writeSelfCtrl ..
  · exact w.writeEcho ..
  · exact w.of_eq rfl rfl
  · exact w.of_eq rfl rfl
  · exact w.writeKeyCtrl ..
  · exact ite (w.of_eq rfl rfl) w
  · exact w.of_eq rfl rfl
  · exact w.of_eq rfl rfl
  · exact w.of_eq rfl rfl
  · exact w

theorem writeBase (w : s.memWf) (h : Nat) (free hi : Bool) (n : Nat) (g : Hall → Nat) {put : Hall → Nat → Hall}
    (hp : ∀ H b, (put H b).hbm = H.hbm) : (s.writeBase h free hi n g put).memWf :=
  ite (w.accessErr _) (w.modHall h fun _ => hp _ _)

theorem putReg (w : s.memWf) (h : Nat) (ok : Bool) {g : Hall → Hall} (hg : ∀ H, (g H).hbm = H.hbm) : (s.putReg h ok g).memWf :=
  ite (w.modHall h hg) (w.accessErr _)

theorem writeHallJob (w : s.memWf) (h j off n : Nat) : (s.writeHallJob h j off n).memWf := by
  unfold State.writeHallJob
  have put (b : Bool) (g : HJob → HJob) : (if b then s.accessErr 0 else s.modHJob h j g).memWf :=
    ite (w.accessErr _) (w.modHJob ..)
  dsimp only
  split
  · exact put ..
  · exact put ..
  · exact put ..
  · exact put ..
  · exact w

theorem writeHallFixed (w : s.memWf) (h off : Nat) (v : Word) : (s.writeHallFixed h off v).memWf := by
  unfold State.writeHallFixed
  dsimp only
  split
  · exact w.putReg _ _ fun _ => rfl
  · exact w.modHall _ fun _ => rfl
  · exact w.writeBase _ _ _ _ _ fun _ _ => rfl
  · exact w.writeBase _ _ _ _ _ fun _ _ => rfl
  · exact w.putReg _ _ fun _ => rfl
  · exact w.writeBase _ _ _ _ _ fun _ _ => rfl
  · exact w.writeBase _ _ _ _ _ fun _ _ => rfl
  · exact w.putReg _ _ fun _ => rfl
  · exact ite (w.modHall _ fun _ => rfl) w
  · exact w.writeBase _ _ _ _ _ fun _ _ => rfl
  · exact w.writeBase _ _ _ _ _ fun _ _ => rfl
  · exact w.writeBase _ _ _ _ _ fun _ _ => rfl
  · exact w.writeBase _ _ _ _ _ fun _ _ => rfl
  · exact w.putReg _ _ fun _ => rfl
  · exact w.writeBase _ _ _ _ _ fun _ _ => rfl
  · exact w.writeBase _ _ _ _ _ fun _ _ => rfl
  · exact w.putReg _ _ fun _ => rfl
  · exact w.writeMezzCfg ..
  · exact w

theorem writeHallBlock (w : s.memWf) (h off : Nat) (v : Word) : (s.writeHall h off v).memWf := by
  unfold State.writeHall
  exact ite (w.writeHallJob ..) (ite (ite (ite (w.modPort ..) w) (w.portCtrl ..)) (w.writeHallFixed ..))

theorem writeRest (w : s.memWf) (f : Fn) (off : Nat) (v : Word) : (s.writeRest f off v).memWf := by
  unfold State.writeRest
  dsimp only
  split
  · exact w.writePage ..
  · exact ite (w.modFn ..) (ite (w.accessErr f) w)
  · split
    · exact w.writeEpoch ..
    · exact ite (w.writeHallBlock ..) (ite (w.accessErr f) w)
  · exact ite (w.writePrt ..) (ite (w.accessErr f) w)
  · exact ite (w.writeJobBlock ..) (ite (w.accessErr f) w)
  · exact ite (w.writePartBlock ..) (ite (w.accessErr f) w)
  · exact w

/-! ### BAR2 -/

theorem taint (w : s.memWf) (h : Nat) (x : Span) : (s.taint h x).memWf :=
  w.foldl (fun _ _ wt => wt.foldl (fun _ _ wu => ite (wu.modAtt ..) wu) _) _

theorem bar2 (w : s.memWf) (f : Fn) (off : Nat) (wr : Option (List Byte)) (len : Nat) : (s.bar2 f off wr len).memWf := by
  have r := w.accessErr f
  unfold State.bar2
  cases wr with
  | some b =>
    dsimp only
    split
    · exact r
    · refine ite r (ite r ?_)
      exact (w.taint ..).writeHall _ fun _ wf => Mem.wf_memWrites _ wf _
  | none =>
    dsimp only
    split
    · exact r
    · exact ite r (ite w w)

/-! ### Thaws and function resets -/

theorem replay (w : s.memWf) : s.replay.memWf := by
  unfold State.replay
  have v : State.memWf { s with held := [] } := w
  exact (v.foldl (fun _ _ wt => wt.writeRest ..) _).foldl (fun _ _ wt => wt.fetchAll _) _

theorem thawed (w : s.memWf) : s.thawed.memWf := by
  unfold State.thawed
  split
  · extract_lets told landed
    have v : told.memWf := w.noteFreeze ..
    have u : landed.memWf := ite (v.sbOrigin 2) v
    clear_value landed
    exact replay (u.of_eq rfl rfl)
  · exact w

theorem writeFreeze (w : s.memWf) (f : Fn) (v : Word) : (s.writeFreeze f v).memWf := by
  unfold State.writeFreeze
  extract_lets u
  have wu : u.memWf := w
  clear_value u
  have ask : State.memWf { u with byPorter := true } := wu
  have free : State.memWf { u with byPorter := false, bySide := [] } := wu
  exact ite (w.accessErr f) (ite (ask.startFreeze ..) (ite free.thawed wu))

theorem pinRise (w : s.memWf) : (State.thawed { s with pinLow := false, byPin := false }).memWf := by
  have v : State.memWf { s with pinLow := false, byPin := false } := w
  exact v.thawed

theorem sbThaw (w : s.memWf) (h i : Nat) (f : Frame) : (s.sbThaw h i f).memWf := by
  unfold State.sbThaw
  split
  · exact w
  · next t e =>
    have v := w.sbPass e
    clear e
    have gone (l : List Nat) : State.memWf { t with bySide := l } := v.of_eq rfl rfl
    exact (gone _).thawed

theorem abortLoads (w : s.memWf) : s.abortLoads.memWf := by
  unfold State.abortLoads
  refine w.foldl (fun t v wt => wt.foldl (fun u q wu => wu.foldl (fun x c wx => ?_) _) _) _
  exact ite (wx.failCmd ..) wx

theorem endFreeze (w : s.memWf) : s.endFreeze.memWf := by
  unfold State.endFreeze
  have v : State.memWf { s with frozenAt := true, held := [], byPin := false, byPorter := false, bySide := [] } := w
  exact ite v.thawed.abortLoads w

theorem closeQuiet (w : s.memWf) (v : Fn) : (s.closeQuiet v).memWf := by
  unfold State.closeQuiet
  refine w.foldl (fun t q wt => ?_) _
  split
  · exact wt
  · exact ite (wt.commitQuiet ..) wt

theorem putFn (w : s.memWf) (f : Fn) (x : FnRegs) : (s.putFn f x).memWf := w

theorem putPart (w : s.memWf) (v : Nat) (p : Part) : (s.putPart v p).memWf := w

theorem clearVf (w : s.memWf) (v : Fn) : (s.clearVf v).memWf := by
  unfold State.clearVf
  extract_lets closed dropped left_ paged held_
  have h1 : closed.memWf := w.closeQuiet v
  have h2 : dropped.memWf := h1.foldl (fun t q wt => wt.foldl (fun u c wu => wu.dropAttempt ..) _) _
  have h3 : left_.memWf := h2.foldl (fun t j wt => wt.dropJob ..) _
  have h4 : paged.memWf := h3.foldl (fun t q wt => wt.modJob ..) _
  have h5 : held_.memWf := by
    refine h4.foldl (fun t h wt => wt.modHall h fun _ => ?_) _
    rfl
  clear_value held_
  exact (h5.modPart v _).putFn v _

theorem resetVf (w : s.memWf) (v : Fn) : (s.resetVf v).memWf := (w.clearVf v).endFreeze

theorem resetPf (w : s.memWf) : s.resetPf.memWf := by
  unfold State.resetPf
  extract_lets vs cleared unbound fresh
  have h1 : cleared.memWf := w.foldl (fun _ _ wt => wt.clearVf _) _
  have h2 : unbound.memWf := h1.foldl (fun t v wt => (wt.unbindPart v).putPart v _) _
  have h3 : fresh.memWf := h2.putFn 0 _
  clear_value fresh
  exact endFreeze (h3.of_eq rfl rfl)

theorem writeReg (w : s.memWf) (f : Fn) (off : Nat) (v : Word) : (s.writeReg f off v).memWf :=
  ite (w.accessErr f) (ite (w.writeFreeze ..) (w.writeRest ..))

theorem oddAccess (w : s.memWf) (f : Fn) (off width : Nat) (wr : Option Word) : (s.oddAccess f off width wr).memWf := by
  unfold State.oddAccess
  split
  · exact ite (w.writeReg ..) (w.accessErr f)
  · exact ite (w.read ..) ((w.accessErr f).answer _)

/-! ### The management chain -/

theorem chainIn (w : s.memWf) (f : ChainFrame) {act : State → State} (ha : (act s).memWf) : (s.chainIn f act).memWf := by
  unfold State.chainIn
  refine ite w ?_
  split
  · exact w.chainPut _
  · exact w.chainPut _
  · exact ite (w.of_eq rfl rfl) (ite ha (w.chainPut _))
  · exact ite ha (w.chainPut _)

theorem chainRow (w : s.memWf) (ty : Byte) (f : ChainFrame) {act : State → State} (ha : (act s).memWf) :
    Nexts State.memWf (chainRow ty f act s) := .next (ite (w.chainIn f ha) w)

theorem respond (w : s.memWf) (f : ChainFrame) (status : Nat) (data : Word) : (s.respond f status data).memWf := w.emitChain _

theorem chainReadAct (w : s.memWf) (f : ChainFrame) : (s.chainReadAct f).memWf := by
  unfold State.chainReadAct
  exact ite (w.respond ..) (ite (w.respond ..) ((w.readReg ..).respond ..))

theorem chainWriteAct (w : s.memWf) (f : ChainFrame) : (s.chainWriteAct f).memWf := by
  unfold State.chainWriteAct
  exact ite (w.respond ..) (ite (w.respond ..) ((w.writeFreeze ..).respond ..))

/-! ### The idle step -/

theorem holdOverruns (w : s.memWf) : s.holdOverruns.memWf := by
  unfold State.holdOverruns
  exact ite (w.foldl (fun _ _ wt => ite (wt.modPart ..) wt) _) w

theorem raiseDomains (w : s.memWf) : s.raiseDomains.memWf := by
  unfold State.raiseDomains
  extract_lets u
  have v : u.memWf := ite (w.of_eq rfl rfl) w
  exact v.foldl (fun _ _ wt => ite (wt.modHall _ Hall.raiseOne_hbm) wt) _

theorem idleTick (w : s.memWf) : (idleTick s).memWf := by
  unfold Machine.idleTick
  extract_lets u x
  have hu : u.memWf := w.holdOverruns.keyTick
  have hx : x.memWf := ite hu.raiseDomains hu
  clear_value x
  exact hx.of_eq rfl rfl

end State.memWf

end Sys2Proof.Machine
end

section
/-! PROOFS. Canonical memory: the rows that are left, and O3 over every command. -/

namespace Sys2Proof.Machine

namespace State.memWf

variable {s t : State}

/-! ### Timers of the links -/

theorem race (w : s.memWf) (q : Page) (slot : Nat) (arb : Arb) : (s.race q slot arb).memWf := by
  unfold State.race
  exact ite (ite ((w.modCmd ..).modJob ..) (w.modCmd ..)) w

theorem deadline (w : s.memWf) (a : Site) (shard node : Nat) (arb : Arb) : (s.deadline a shard node arb).memWf := by
  unfold State.deadline
  split
  · exact w
  · have v := w.race a.page a.slot arb
    exact ite w (ite v (ite ((v.modHJob ..).sendDigest ..) (v.modHJob ..)))

theorem downLate (w : s.memWf) (a : Site) : (s.downLate a).memWf := by
  unfold State.downLate
  exact ite (w.failCmd ..) w

theorem linkTimeout (w : s.memWf) (q : Page) (slot : Nat) (arb : Arb) : (s.linkTimeout q slot arb).memWf := by
  unfold State.linkTimeout
  split
  · exact w
  · have v := w.race q slot arb
    refine ite w (ite (ite w (State.memWf.failCmd (v.foldl (fun t x wt => ?_) _) ..)) v)
    exact wt.modHJob ..

/-! ### Rows with an outcome of their own -/

theorem patrolScrub (w : s.memWf) (hall granule flipped : Nat) : Nexts State.memWf (execPatrolScrub hall granule flipped s) := by
  unfold execPatrolScrub
  refine w.whenRunning (ite w (ite ?_ (w.hbmUncorrectable ..)))
  refine State.memWf.evidence (State.memWf.log (State.memWf.modHall w hall ?_) ..) ..
  exact fun _ => rfl

theorem vcoreCeilingUpdate (w : s.memWf) (m : Sensors) : Nexts State.memWf (execVcoreCeilingUpdate m s) := by
  unfold execVcoreCeilingUpdate
  split
  · exact fun _ e => by simp only [reduceCtorEq] at e
  · exact .next (ite (w.ceiling m) (w.watch m))

theorem selftestComplete (w : s.memWf) (sharedOk : Option Bool) (halls : Option (HallTest × HallTest)) :
    Nexts State.memWf (execSelftestComplete sharedOk halls s) := by
  refine .next ?_
  split
  · exact w.sharedTested _
  · exact (w.sharedTested _).pairTested ..
  · exact w.pairTested ..
  · exact w.selfFinished

theorem hallTestComplete (w : s.memWf) (hall : Nat) (r : Option HallTest) : Nexts State.memWf (execHallTestComplete hall r s) := by
  refine .next ?_
  split
  · exact w.retested ..
  · exact w.suspect _

/-! ### Every command -/

theorem exec (w : s.memWf) (c : Instr) : Nexts State.memWf (exec c s) := by
  cases c with
  | run q st => exact w.execRun q st
  | load q st => exact w.execLoad q st
  | planLoad q st => exact w.cmdRow q _ _ (fun slot => w.planRead q slot) st
  | store q st => exact w.execStore q st
  | copy q st => exact w.execCopy q st
  | fence q st => exact w.execFence q st
  | checkpoint q st => exact w.execCheckpoint q st
  | gangReduceToOwner q st => exact w.gangRow _ q st
  | gangAllReduce q st => exact w.gangRow _ q st
  | gangGather q st => exact w.gangRow _ q st
  | gangBroadcast q st => exact w.gangRow _ q st
  | commandDispatch q => exact w.whenRunning (f := (·.dispatch q)) (w.dispatch q)
  | commit q st => exact w.execCommit q st
  | semaphoreEarlyRelease q slot => exact w.whenRunning (f := (·.earlyRelease q slot)) (w.earlyRelease q slot)
  | doorbell fn q v => exact .next (w.writeTail ..)
  | cqHeadWrite fn q v => exact .next (w.writeCqHead ..)
  | queueEnable fn q irqAll => exact .next (w.writeCtrl ..)
  | queueDisable fn q irqAll => exact .next (w.writeCtrl ..)
  | resume fn q enable irqAll => exact .next (w.writeCtrl ..)
  | drain fn q enable irqAll => exact .next (w.writeCtrl ..)
  | semaphoreTimeout q arb => exact w.whenRunning (f := (·.semTimeout q arb)) (w.semTimeout ..)
  | linkArrivalTimeout q slot arb => exact w.whenRunning (f := (·.linkTimeout q slot arb)) (w.linkTimeout ..)
  | bayload at_ u => exact w.execBayload at_ u
  | matpassL at_ u => exact w.matRow _ at_ u
  | matpassWideSum at_ u => exact w.matRow _ at_ u
  | matpassT at_ u => exact w.matRow _ at_ u
  | matpassB at_ u => exact w.matRow _ at_ u
  | eMul at_ u => exact w.eRow _ at_ u
  | eDiv at_ u => exact w.eRow _ at_ u
  | recip at_ u => exact w.eRow _ at_ u
  | eSqrt at_ u => exact w.eRow _ at_ u
  | rsqrt at_ u => exact w.eRow _ at_ u
  | pow at_ u => exact w.eRow _ at_ u
  | scale at_ u => exact w.eRow _ at_ u
  | exp at_ u => exact w.eRow _ at_ u
  | log2 at_ u => exact w.eRow _ at_ u
  | ln at_ u => exact w.eRow _ at_ u
  | abs at_ u => exact w.eRow _ at_ u
  | neg at_ u => exact w.eRow _ at_ u
  | eMax at_ u => exact w.eRow _ at_ u
  | eMin at_ u => exact w.eRow _ at_ u
  | cmpgt at_ u => exact w.eRow _ at_ u
  | cmpeq at_ u => exact w.eRow _ at_ u
  | func at_ u => exact w.eRow _ at_ u
  | newelAdd at_ u => exact w.newelRow _ at_ u
  | newelMul at_ u => exact w.newelRow _ at_ u
  | fma at_ u => exact w.newelRow _ at_ u
  | newelDiv at_ u => exact w.newelRow _ at_ u
  | newelSqrt at_ u => exact w.newelRow _ at_ u
  | maximum at_ u => exact w.newelRow _ at_ u
  | minimum at_ u => exact w.newelRow _ at_ u
  | maxnum at_ u => exact w.newelRow _ at_ u
  | minnum at_ u => exact w.newelRow _ at_ u
  | cmp at_ u => exact w.newelRow _ at_ u
  | rowmax at_ u => exact w.newelRow _ at_ u
  | xent at_ u => exact w.newelRow _ at_ u
  | sample at_ u => exact w.newelRow _ at_ u
  | verify at_ u => exact w.newelRow _ at_ u
  | hold at_ u => exact w.riserRow false at_ u
  | apply at_ u => exact w.riserRow true at_ u
  | save at_ => exact w.execSave at_
  | reblock at_ => exact w.execReblock at_
  | storeOperation at_ => exact w.execStoreOperation at_
  | hbmcopy at_ => exact w.execHbmcopy at_
  | hallwait at_ => exact w.execHallwait at_
  | send at_ => exact w.execSend at_
  | recv at_ => exact w.execRecv at_
  | pull at_ => exact w.execPull at_
  | mezzRestore at_ => exact w.execMezzRestore at_
  | reduceToRiserHold at_ => exact w.reduceRow _ at_
  | reduceToOwnerRows at_ => exact w.reduceRow _ at_
  | allReduce at_ => exact w.reduceRow _ at_
  | normPacket at_ => exact w.reduceRow _ at_
  | deadlineExpiry at_ shard node arb => exact w.whenRunning (f := (·.deadline at_ shard node arb)) (w.deadline ..)
  | unanswered hall job key round shard node kind => exact w.whenRunning (f := fun s => s.unanswered hall (s.xid hall job kind key round shard node)) (w.unanswered ..)
  | downValueTimeout at_ => exact w.whenRunning (f := (·.downLate at_)) (w.downLate _)
  | holdResend hall job key round shard node kind => exact w.whenRunning (f := fun s => s.holdResend hall (s.xid hall job kind key round shard node)) (w.holdResend ..)
  | frameTransmit hall port => exact w.whenRunning (f := (·.frameTransmit hall port)) (w.frameTransmit ..)
  | dataFrame hall port f => exact .next (ite (w.dataFrame ..) w)
  | lack hall port f => exact .next (ite (w.onPort ..) w)
  | lnak hall port f => exact .next (ite (w.lnak ..) w)
  | credit hall port f => exact .next (ite (w.onPort ..) w)
  | ackseqReport hall port => exact .next (w.onPort ..)
  | transitForward hall port => exact w.whenRunning (f := (·.transit hall port)) (w.transit ..)
  | push hall port => exact w.whenRunning (f := (·.takeKind hall port kPUSH)) (w.takeKind ..)
  | pullreq hall port => exact w.whenRunning (f := (·.servePull hall port)) (w.servePull ..)
  | pulldata hall port => exact w.whenRunning (f := (·.takeKind hall port kPULLDATA)) (w.takeKind ..)
  | up hall port => exact w.whenRunning (f := fun s => (s.takeKind hall port kUP).relaysDue hall) ((w.takeKind ..).relaysDue _)
  | down hall port => exact w.whenRunning (f := (·.takeKind hall port kDOWN)) (w.takeKind ..)
  | receipt hall port => exact w.whenRunning (f := (·.receiptRow hall port)) (w.receiptRow ..)
  | mezz hall port => exact w.whenRunning (f := (·.mezzFrame hall port)) (w.mezzFrame ..)
  | mezzreq hall port => exact w.whenRunning (f := (·.mezzServe hall port)) (w.mezzServe ..)
  | mezzdata hall port => exact w.whenRunning (f := (·.takeKind hall port kMEZZDATA)) (w.takeKind ..)
  | digestCommit hall port => exact w.whenRunning (f := (·.digestCommit hall port)) (w.digestCommit ..)
  | digestAlive hall port => exact w.whenRunning (f := (·.digestAlive hall port)) (w.digestAlive ..)
  | aliveSend v => exact w.whenRunning (f := fun s => if (s.part v).scState = 1 then s.sendDigest v 0 (DBody.of 2) else s) (ite (w.sendDigest ..) w)
  | digestPropose hall port taken => exact w.whenRunning (f := (·.digestPropose hall port taken)) (w.digestPropose ..)
  | digestAnswer hall port => exact w.whenRunning (f := (·.digestAnswer hall port)) (w.digestAnswer ..)
  | digestRelay hall port => exact w.whenRunning (f := (·.digestRelay hall port)) (w.digestRelay ..)
  | digestRetire hall port => exact w.whenRunning (f := (·.digestRetire hall port)) (w.digestRetire ..)
  | digestPause hall port => exact w.whenRunning (f := (·.digestPause hall port)) (w.digestPause ..)
  | scissorSilence v => exact w.whenRunning (f := (·.silence v)) (w.silence _)
  | relayTimeout hall job key round shard node kind => exact w.whenRunning (f := fun s => s.relayTimeout hall (s.xid hall job kind key round shard node)) (w.relayTimeout ..)
  | sidebandFreeze hall port f => exact .next (w.sbFreeze ..)
  | sidebandThaw hall port f => exact .next (w.sbThaw ..)
  | echoReq hall port f => exact .next (w.echoAnswer ..)
  | echoReply hall port f => exact .next (w.echoTake ..)
  | echoTimeout => exact .next (ite (w.of_eq rfl rfl) w)
  | echoGo fn port => exact .next (w.writeEcho ..)
  | laneDegrade hall port lane => exact .next (w.laneDegrade ..)
  | portRetrainComplete hall port lanes peerAck => exact .next (w.retrainEnd ..)
  | retrain fn hall port holdDown => exact .next (w.portCtrl ..)
  | holdDown fn hall port on => exact .next (w.portCtrl ..)
  | sliceEnd v => exact w.whenRunning (f := (·.sliceEnd v)) (w.sliceEnd _)
  | overrunWatchdog v => exact w.whenRunning (f := (·.watchdog v)) (w.watchdog _)
  | commitWindowOverrun q hall => exact w.whenRunning (f := (·.windowOverrun q hall)) (w.windowOverrun ..)
  | hallLoss hall => exact .next (w.loseHall _)
  | hbmUncorrectableError hall addr => exact .next (ite (w.hbmUncorrectable ..) w)
  | hbmInterfaceError hall target => exact .next (ite (w.log ..) w)
  | undercroftEccError hall row corrected => exact .next (ite (w.undercroftEcc ..) w)
  | patrolScrub hall granule flipped => exact w.patrolScrub _ _ _
  | hbmConcWindow hall counts => exact .next (ite (w.concWindow ..) w)
  | vcoreCeilingUpdate m => exact w.vcoreCeilingUpdate m
  | throttleN low => exact .next (w.of_eq rfl rfl)
  | supplyThermalTrip cause => exact .next w.trip
  | powerOn => exact .next w.powerUp
  | sysResetN high => exact .next (w.sysReset _)
  | perst high => exact .next (w.setPerst _)
  | pfFlr hot => exact .next w.resetPf
  | vfFlr v => exact .next (w.resetVf _)
  | selftestComplete sharedOk halls => exact w.selftestComplete _ _
  | selftestGo fn halls => exact .next (w.writeSelfCtrl ..)
  | hallTestComplete hall r => exact w.hallTestComplete _ _
  | configRequest fn r => exact .next (w.config ..)
  | spdmRequest code param => exact .next (w.spdmAnswer ..)
  | walk f => exact w.chainRow _ f (w.walkServe f)
  | chainRead f => exact w.chainRow _ f (w.chainReadAct f)
  | chainWrite f => exact w.chainRow _ f (w.chainWriteAct f)
  | chainReset f => exact w.chainRow _ f ((w.chainPut f).hardReset ..)
  | chainForward f => exact .next (ite w (w.chainIn f w))
  | keyProvision fn => exact w.keyRow _ _
  | keyRevoke fn => exact w.keyRow _ _
  | keyRaiseMin fn => exact w.keyRow _ _
  | freeze fn scope pinScope sbAccept => exact .next (w.writeFreeze ..)
  | freezeNFall => exact .next w.pinFall
  | freezeNRise => exact .next w.pinRise
  | thaw fn scope pinScope sbAccept => exact .next (w.writeFreeze ..)
  | freezeComplete => exact .next w.freezeHeld
  | rdwinDataRead fn => exact .next (w.read ..)
  | counterLowRead fn off => exact .next (w.read ..)
  | bar2Access fn off wr len => exact .next (w.bar2 ..)
  | bound fn v base size => exact .next (w.writeBind ..)
  | rekey fn v base size => exact .next (w.writeBind ..)
  | bindingTakesEffect v => exact .next (w.bindEffect _)
  | unbind fn v => exact .next (w.writeBind ..)
  | retire fn v => exact .next (w.writeScissor ..)
  | solo fn v => exact .next (w.writeScissor ..)
  | rejoin fn v => exact .next (w.writeScissor ..)
  | residentSet fn q wcommon => exact .next (w.writeJobCtrl ..)
  | residentClear fn q wcommon => exact .next (w.writeJobCtrl ..)
  | epochWrite fn hall job epoch => exact .next (w.writeEpoch ..)
  | mezzEnable fn hall peerHall peerAddr => exact .next (w.writeMezzCfg ..)
  | planBankSwap v => exact w.whenRunning (f := (·.planSwap v)) (w.planSwap _)
  | invalidRegisterAccess fn off width wr => exact .next (w.oddAccess ..)
  | registerWrite fn off v => exact .next (w.writeReg ..)
  | pairingDigest v digest record step riser leg => exact w.whenRunning (f := fun s => s.exchange v digest record step riser leg) (w.exchange ..)

end State.memWf

/-- Settles O3: each command keeps the canonical form (`State.memWf.exec`), and so does the idle step. -/
theorem stepKeepsMemoryCanonical : Obligations.StepKeepsMemoryCanonical := by
  unfold Obligations.StepKeepsMemoryCanonical
  intro s t w e
  unfold step at e
  split at e
  · exact Host.Outcome.next.inj e ▸ w.idleTick
  · next c rest _ =>
    have v : State.memWf { s with pending := rest } := w
    exact v.exec c t e

end Sys2Proof.Machine
end

section
/-! PROOFS. Bytes: little-endian numbers and the round trip of a descriptor. -/

namespace Sys2Proof.Machine

/-! ### Little-endian numbers -/

theorem leNat_natLE (len n : Nat) : leNat (natLE n len) = n % 256 ^ len := by
  induction len generalizing n with
  | zero => simp [natLE, leNat, Nat.mod_one]
  | succ len ih =>
    have hm : n % 256 ^ (len + 1) = n % 256 + 256 * (n / 256 % 256 ^ len) := by
      rw [Nat.pow_succ, Nat.mul_comm (256 ^ len), Nat.mod_mul]
    rw [natLE, leNat, ih, BitVec.toNat_ofNat, hm]

theorem leNat_natLE_of_lt {n len : Nat} (h : n < 256 ^ len) : leNat (natLE n len) = n := by
  rw [leNat_natLE, Nat.mod_eq_of_lt h]

theorem leNat_lt (l : List Byte) : leNat l < 256 ^ l.length := by
  induction l with
  | nil => decide
  | cons b r ih =>
    have := b.isLt
    rw [leNat, List.length_cons, Nat.pow_succ]
    omega

theorem natLE_leNat (l : List Byte) : natLE (leNat l) l.length = l := by
  induction l with
  | nil => rfl
  | cons b r ih =>
    have hb := b.isLt
    have hq : (b.toNat + 256 * leNat r) / 256 = leNat r := by omega
    rw [leNat, List.length_cons, natLE, hq, ih]
    congr 1
    apply BitVec.eq_of_toNat_eq
    rw [BitVec.toNat_ofNat]
    omega

/-- A word's four bytes give the word again. -/
theorem ofNat_leNat_natLE (x : Word) : BitVec.ofNat 32 (leNat (natLE x.toNat 4)) = x := by
  rw [leNat_natLE_of_lt x.isLt]
  exact BitVec.ofNat_toNat ..

/-! ### Descriptors -/

/-- The fields of a descriptor, each at its offset of Table 05-6. -/
theorem Desc.parse_bytes (op : Nat) (d : Desc) (x0 x1 x2 x3 : Word) (hs : d.slots = [x0, x1, x2, x3]) :
    Desc.parse (d.bytes op) =
      { flags := BitVec.ofNat 8 d.flags.toNat, rsv2 := leNat (natLE d.rsv2 2),
        tag := BitVec.ofNat 32 (leNat (natLE d.tag.toNat 4)), timeout := leNat (natLE d.timeout 4),
        rsv12 := leNat (natLE d.rsv12 4), slots := [x0, x1, x2, x3].map fun x => BitVec.ofNat 32 (leNat (natLE x.toNat 4)),
        body := d.body.take 32 } := by
  obtain ⟨flags, rsv2, tag, timeout, rsv12, slots, body⟩ := d
  subst hs
  rfl

theorem Desc.length_bytes (op : Nat) (d : Desc) (x0 x1 x2 x3 : Word) (hs : d.slots = [x0, x1, x2, x3])
    (hb : d.body.length = 32) : (d.bytes op).length = 64 := by
  simp [Desc.bytes, hs, hb]

/-- A list of four is its four elements. -/
theorem exists_four {α : Type} {l : List α} (h : l.length = 4) : ∃ a b c d, l = [a, b, c, d] := by
  match l, h with
  | [a, b, c, d], _ => exact ⟨a, b, c, d, rfl⟩

/-- Settles O4: each field stands at its own offset, little-endian within its width. -/
theorem descriptorRoundTrip : Obligations.DescriptorRoundTrip := by
  unfold Obligations.DescriptorRoundTrip
  intro op d hop hd
  simp only [Desc.wf, Bool.and_eq_true, decide_eq_true_eq, beq_iff_eq] at hd
  obtain ⟨⟨⟨⟨h2, ht⟩, h12⟩, hs⟩, hb⟩ := hd
  obtain ⟨x0, x1, x2, x3, e⟩ := exists_four hs
  refine ⟨Desc.length_bytes op d x0 x1 x2 x3 e hb, ?_, ?_⟩
  · change (BitVec.ofNat 8 op).toNat + 256 * 0 = op
    rw [BitVec.toNat_ofNat]
    omega
  · rw [Desc.parse_bytes op d x0 x1 x2 x3 e, leNat_natLE_of_lt h2, leNat_natLE_of_lt (n := d.timeout) ht, leNat_natLE_of_lt (n := d.rsv12) h12]
    simp only [List.map_cons, List.map_nil, ofNat_leNat_natLE, BitVec.ofNat_toNat, BitVec.setWidth_eq]
    rw [← e, List.take_of_length_le hb.le]

end Sys2Proof.Machine
end
section
/-! PROOFS. ZL16 and ZL8 as W-forms. -/

namespace Sys2Proof.Machine

/-! ### Rounding and signs -/

/-- A multiple of 2^n is not rounded. -/
theorem rne_mul (k : Int) (n : Nat) : rne (k * (2 ^ n : Nat)) n = k := by
  have h0 : ((2 ^ n : Nat) : Int) ≠ 0 := by positivity
  have hp : (0 : Int) < ((2 ^ n : Nat) : Int) := by positivity
  unfold rne rneDiv
  rw [Int.mul_ediv_cancel k h0]
  dsimp only
  rw [Int.sub_self, if_neg]
  omega

theorem sgn16_code {code : Nat} (h : code < 65536) : sgn16 (bit code 15) (fld code 0 15) = code := by
  simp only [sgn16, bit, fld, pow_zero, Nat.div_one, beq_iff_eq]
  split <;> omega

theorem bit_sgn16 {n : Nat} (s : Bool) (h : n < 2 ^ 15) : bit (sgn16 s n) 15 = s := by
  cases s
  · have hq : n / 2 ^ 15 % 2 = 0 := by omega
    simp only [bit, sgn16, Bool.false_eq_true, if_false, hq]
    rfl
  · have hq : (n + 2 ^ 15) / 2 ^ 15 % 2 = 1 := by omega
    simp only [bit, sgn16, if_true, hq]
    rfl

theorem fld_sgn16 {n : Nat} (s : Bool) (h : n < 2 ^ 15) : fld (sgn16 s n) 0 15 = n := by
  cases s <;> simp only [fld, sgn16, pow_zero, Nat.div_one, if_true, Bool.false_eq_true, if_false] <;> omega

/-! ### Finite values -/

theorem wFinite_cls_fin {s : Bool} {t : Int} (h : (wFinite s t).cls = .fin) : wFinite s t = ⟨.fin, s, t⟩ := by
  unfold wFinite at h ⊢
  split at h
  · cases h
  · split at h
    · cases h
    · rw [if_neg ‹_›, if_neg ‹_›]

/-- The log that a ZL16 code of magnitude e stands for under a scale (R26). -/
def zl16Log (e : Nat) (c : Int) (fine : Nat) : Int := ((e : Int) - 16384) * 32 + scaleLog c (sext 8 fine)

/-- A finite ZL16 code: its magnitude is neither zero nor the infinite one, and the log is in range. -/
theorem zl16_finite {code fine : Nat} {c : Int} (h : (zl16ToW code c fine).cls = .fin) :
    fine ≠ 0x80 ∧ 0 < fld code 0 15 ∧ fld code 0 15 < 0x7FFF
      ∧ zl16ToW code c fine = wFinite (bit code 15) (zl16Log (fld code 0 15) c fine)
      ∧ zl16ToW code c fine = ⟨.fin, bit code 15, zl16Log (fld code 0 15) c fine⟩ := by
  have hlt : fld code 0 15 < 2 ^ 15 := Nat.mod_lt _ (by decide)
  unfold zl16ToW at h ⊢
  by_cases hf : fine = 0x80
  · rw [if_pos hf] at h; cases h
  by_cases hn : code = 0x8000
  · rw [if_neg hf, if_pos hn] at h; cases h
  rw [if_neg hf, if_neg hn] at h
  dsimp only at h
  by_cases h0 : fld code 0 15 = 0
  · rw [if_pos h0] at h; cases h
  by_cases hi : fld code 0 15 = 0x7FFF
  · rw [if_neg h0, if_pos hi] at h; cases h
  rw [if_neg h0, if_neg hi] at h
  refine ⟨hf, by omega, by omega, ?_, ?_⟩
  · rw [if_neg hf, if_neg hn]
    dsimp only
    rw [if_neg h0, if_neg hi, zl16Log]
  · rw [if_neg hf, if_neg hn]
    dsimp only
    rw [if_neg h0, if_neg hi, zl16Log]
    exact wFinite_cls_fin h

/-- A code of finite magnitude decodes to its sign and log, held to the range of the W-form. -/
theorem zl16ToW_sgn16 {e fine : Nat} (s : Bool) (c : Int) (hf : fine ≠ 0x80) (h0 : 0 < e) (hi : e < 0x7FFF) :
    zl16ToW (sgn16 s e) c fine = wFinite s (zl16Log e c fine) := by
  have hlt : e < 2 ^ 15 := by omega
  have hn : sgn16 s e ≠ 0x8000 := by cases s <;> simp only [sgn16, if_true, Bool.false_eq_true, if_false] <;> omega
  unfold zl16ToW
  dsimp only
  rw [if_neg hf, if_neg hn, fld_sgn16 s hlt, bit_sgn16 s hlt, if_neg (by omega), if_neg (by omega), zl16Log]

/-- A value on the grid of ZL16 within its range encodes to its own magnitude (R39). -/
theorem wToZl16_grid {e fine : Nat} (s : Bool) (c : Int) (sat : Bool) (h0 : 0 < e) (hi : e < 0x7FFF) :
    wToZl16 ⟨.fin, s, zl16Log e c fine⟩ c (sext 8 fine) sat = ⟨sgn16 s e, false⟩ := by
  have hk : rne (zl16Log e c fine - scaleLog c (sext 8 fine)) 5 = (e : Int) - 16384 := by
    have hg : zl16Log e c fine - scaleLog c (sext 8 fine) = ((e : Int) - 16384) * (2 ^ 5 : Nat) := by
      rw [zl16Log]; omega
    rw [hg, rne_mul]
  unfold wToZl16
  dsimp only
  rw [hk, if_neg (by omega), if_neg (by omega)]
  congr 2
  omega

/-- A finite ZL8 value is on the grid of ZL16: its magnitude m has the ZL16 magnitude 64 m + 12288. -/
theorem zl8_finite {code fine : Nat} {c : Int} (h : (zl8ToW code c fine false none).cls = .fin) :
    fine ≠ 0x80 ∧ zl8ToW code c fine false none
      = wFinite (bit code 7) (zl16Log (64 * fld code 0 7 + 12288) c fine) := by
  unfold zl8ToW at h ⊢
  by_cases hf : fine = 0x80
  · rw [if_pos hf] at h; cases h
  by_cases h0 : code = 0
  · rw [if_neg hf, if_pos h0] at h; cases h
  by_cases hn : code = 0x80
  · rw [if_neg hf, if_neg h0, if_pos hn] at h; cases h
  rw [if_neg hf, if_neg h0, if_neg hn, if_neg (by simp)]
  have hl : ((fld code 0 7 : Nat) : Int) * 2048 - 64 * 2048 + scaleLog c (sext 8 fine)
      = zl16Log (64 * fld code 0 7 + 12288) c fine := by
    rw [zl16Log]
    push_cast
    omega
  exact ⟨hf, by rw [hl]⟩

/-- Settles O60: codes and W-forms correspond on the grid of 32 units, so decoding and encoding are inverse there, and the log
rises with the magnitude. -/
theorem zl16IsExact : Obligations.Zl16IsExact := by
  unfold Obligations.Zl16IsExact
  intro code other fine c sat hcode hother
  refine ⟨fun h => ?_, fun _ h => ?_, fun h h' hs hlt => ?_⟩
  · obtain ⟨_, h0, hi, _, e⟩ := zl16_finite h
    rw [e, wToZl16_grid _ _ _ h0 hi, sgn16_code hcode]
  · obtain ⟨hf, e⟩ := zl8_finite h
    have hm : fld code 0 7 < 2 ^ 7 := Nat.mod_lt _ (by decide)
    have hfin : wFinite (bit code 7) (zl16Log (64 * fld code 0 7 + 12288) c fine) = _ := wFinite_cls_fin (e ▸ h)
    rw [e, hfin, wToZl16_grid _ _ _ (by omega) (by omega), zl16ToW_sgn16 _ _ hf (by omega) (by omega), hfin]
  · obtain ⟨_, _, _, _, e⟩ := zl16_finite h
    obtain ⟨_, _, _, _, e'⟩ := zl16_finite h'
    have hmag : fld code 0 15 < fld other 0 15 := by
      have hc := sgn16_code hcode
      have ho := sgn16_code hother
      rw [hs] at hc
      cases hb : bit other 15 <;> rw [hb] at hc ho
      · simp only [sgn16, Bool.false_eq_true, if_false] at hc ho; omega
      · simp only [sgn16, if_true] at hc ho; omega
    rw [e, e']
    simp only [zl16Log]
    omega

end Sys2Proof.Machine
end

section
/-! PROOFS. The step, reset values, frozen devices and the doorbell page. -/

namespace Sys2Proof.Machine

/-- Settles O1: `step` takes the front command off the queue. -/
theorem stepRunsFrontCommand : Obligations.StepRunsFrontCommand := by
  unfold Obligations.StepRunsFrontCommand
  intro s c rest
  rfl

/-- Settles O58: every table of `State.reset` is empty, so each unit reads its own reset value. -/
theorem resetValues : Obligations.ResetValues := by
  unfold Obligations.ResetValues
  intro q h v f
  refine ⟨rfl, rfl, rfl, rfl, rfl, rfl, rfl, rfl, rfl, rfl, rfl, rfl, rfl, rfl, rfl, rfl, rfl, rfl, rfl, rfl, rfl, rfl, ?_⟩
  exact State.memWf.of_noHalls rfl rfl

/-- Settles O5: each of these rows is guarded by `whenRunning`, or by the same test of its own. -/
theorem frozenDeviceHoldsWork : Obligations.FrozenDeviceHoldsWork := by
  unfold Obligations.FrozenDeviceHoldsWork
  intro s q slot a u h i v arb job key round shard node kind taken dg rec steps riser leg hz
  have still (x : State) : (Host.Outcome.next (if s.frozen = true then s else x) : Out) = .next s := by rw [if_pos hz]
  have run : exec (.run q (.work slot)) s = .next s := by
    change (if s.frozen = true then Host.Outcome.next s else _) = _
    rw [if_pos hz]
  simp only [List.map_cons, List.map_nil, List.forall_mem_append, List.forall_mem_cons, List.not_mem_nil, false_implies,
    implies_true, and_true]
  refine ⟨⟨⟨⟨⟨⟨⟨run, ?_⟩, ?_⟩, ?_⟩, ?_⟩, ?_⟩, ?_⟩, ?_⟩
  all_goals
    and_intros
    all_goals exact still _

end Sys2Proof.Machine
end

section
/-! PROOFS. The queue of a page: what fetching, completion records and failures leave of it, and what becomes of its oldest command. -/

namespace Sys2Proof.Machine

/-! ### What the operations on a queue leave alone -/

/-- A page without what fetching, completing and failing of commands change: its registers and its share of the partition. -/
def Job.regs (j : Job) : Job :=
  { j with sqHead := 0, cqTail := 0, fetch := 0, fetched := 0, halted := false, haltCode := 0, phaseBit := false, cmds := [],
           lastOverrun := 0, sliceCut := 0 }

/-- A page without the bookkeeping of slices. -/
def Job.offSlice (j : Job) : Job := { j with lastOverrun := 0, sliceCut := 0 }

/-- Operations on the queue of page q: its registers stand, and of every other page all but the bookkeeping of slices. -/
structure PageFrame (q : Page) (s t : State) : Prop where
  own : (t.job q).regs = (s.job q).regs
  others : ∀ k, k ≠ q → (t.job k).offSlice = (s.job k).offSlice

namespace PageFrame

variable {q : Page} {s t u : State}

theorem refl (s : State) : PageFrame q s s := ⟨rfl, fun _ _ => rfl⟩

theorem trans (a : PageFrame q s t) (b : PageFrame q t u) : PageFrame q s u :=
  ⟨b.own.trans a.own, fun k hk => (b.others k hk).trans (a.others k hk)⟩

theorem of_jobs (h : PageFrame q s t) (e : u.jobs = t.jobs) : PageFrame q s u := by
  have j (k : Page) : u.job k = t.job k := by rw [State.job, e, State.job]
  exact ⟨by rw [j]; exact h.own, fun k hk => by rw [j]; exact h.others k hk⟩

theorem modJob (h : PageFrame q s t) {f : Job → Job} (hf : ∀ j, (f j).regs = j.regs) : PageFrame q s (t.modJob q f) := by
  refine h.trans ⟨?_, fun k hk => ?_⟩
  · rw [State.job_modJob_self]; exact hf _
  · rw [State.job_modJob, if_neg hk]

theorem modCmd (h : PageFrame q s t) (slot : Nat) (f : Cmd → Cmd) : PageFrame q s (t.modCmd q slot f) := h.modJob fun _ => rfl

theorem modPart (h : PageFrame q s t) (v : Nat) (f : Part → Part) : PageFrame q s (t.modPart v f) := h.of_jobs rfl
theorem modHall (h : PageFrame q s t) (k : Nat) (f : Hall → Hall) : PageFrame q s (t.modHall k f) := h.of_jobs rfl
theorem log (h : PageFrame q s t) (k : Nat) (e : LogEnt) : PageFrame q s (t.log k e) := h.of_jobs rfl

theorem foldl {α : Type} {f : State → α → State} (h : PageFrame q s t) (hf : ∀ t a, PageFrame q s t → PageFrame q s (f t a))
    (l : List α) : PageFrame q s (l.foldl f t) := by
  induction l generalizing t with
  | nil => exact h
  | cons a l ih => exact ih (hf t a h)

theorem ite {c : Prop} [Decidable c] (ht : PageFrame q s t) (hu : PageFrame q s u) : PageFrame q s (if c then t else u) := by
  by_cases hc : c
  · rw [if_pos hc]; exact ht
  · rw [if_neg hc]; exact hu

theorem writeRing (h : PageFrame q s t) (k : Page) (hbm : Bool) (a : Nat) (b : List Byte) : PageFrame q s (t.writeRing k hbm a b) := by
  unfold State.writeRing
  split <;> exact h.of_jobs rfl

theorem rehold (h : PageFrame q s t) (v : Fn) : PageFrame q s (t.rehold v) := by
  refine h.trans ⟨?_, fun k _ => ?_⟩ <;> rw [t.job_rehold v] <;> rfl

theorem msix (h : PageFrame q s t) (f : Fn) (v : Nat) : PageFrame q s (t.msix f v) := h.of_jobs rfl

theorem postRecord (h : PageFrame q s t) (c : Cmd) (status detail : Nat) (ok : Bool) (tst : DWord) :
    PageFrame q s (t.postRecord q c status detail ok tst) := by
  unfold State.postRecord
  have v := h.writeRing q (t.job q).cqHbm ((t.job q).cqBase + 32 * (t.job q).cqTail)
  dsimp only
  split
  · refine PageFrame.msix (PageFrame.modJob (v _) ?_) ..
    exact fun _ => rfl
  · refine PageFrame.modJob (v _) ?_
    exact fun _ => rfl

theorem countRerun (h : PageFrame q s t) (k : Page) (c : Cmd) : PageFrame q s (t.countRerun k c) := by
  unfold State.countRerun
  exact ite (h.foldl (fun _ _ h => h.modHall ..) _) h

theorem stopImage (h : PageFrame q s t) (k : Page) (seq : Nat) : PageFrame q s (t.stopImage k seq) :=
  h.foldl (fun _ _ h => h.modHall ..) _

theorem dropAttempt (h : PageFrame q s t) (slot : Nat) : PageFrame q s (t.dropAttempt q slot) := by
  unfold State.dropAttempt
  have v := h.modPart (pageFn q) fun p => { p.releaseAll (q, slot) with loading := match p.loading with
        | some l => if l.page = q ∧ l.slot = slot then none else some l
        | none => none }
  dsimp only
  refine PageFrame.modCmd ?_ ..
  split
  · exact ite (v.stopImage ..) v
  · exact v

theorem postFailed (h : PageFrame q s t) : PageFrame q s (t.postFailed q) := by
  unfold State.postFailed
  split
  · exact h
  split
  · have v := h.postRecord (q := q)
    refine ite h (ite (PageFrame.modJob (v ..) ?_) (PageFrame.modJob (foldl (v ..) (fun _ _ h => ?_) _) ?_))
    · exact fun _ => rfl
    · exact (h.countRerun ..).dropAttempt _
    · exact fun _ => rfl
  · exact h

theorem drainFailed (h : PageFrame q s t) : PageFrame q s (t.drainFailed q) := h.foldl (fun _ _ h => h.postFailed) _

theorem failCmd (h : PageFrame q s t) (slot code detail : Nat) : PageFrame q s (t.failCmd q slot code detail) := by
  unfold State.failCmd
  have v := h.dropAttempt slot
  dsimp only
  refine (PageFrame.drainFailed (PageFrame.modCmd ?_ ..)).rehold _
  split
  · exact v.foldl (fun _ _ h => h.modHall ..) _
  · exact v

theorem logPoison (h : PageFrame q s t) (k : Page) (x : Submitted) : PageFrame q s (t.logPoison k x) := by
  unfold State.logPoison
  split
  · exact h.log ..
  · exact h

theorem fetchOne (h : PageFrame q s t) : PageFrame q s (t.fetchOne q) := by
  unfold State.fetchOne
  dsimp only
  refine PageFrame.modJob (logPoison (ite ?_ h) ..) ?_
  · exact h.of_jobs rfl
  · exact fun _ => rfl

theorem fetchLoop (n : Nat) : ∀ {t : State}, PageFrame q s t → PageFrame q s (t.fetchLoop q n) := by
  induction n with
  | zero => exact fun h => h
  | succ n ih =>
    intro t h
    unfold State.fetchLoop
    exact ite (ih h.fetchOne) h

theorem fetchAll (h : PageFrame q s t) : PageFrame q s (t.fetchAll q) := ((fetchLoop _ h).drainFailed).rehold _

/-! What the frame says of one register. -/

theorem sqTail (h : PageFrame q s t) : (t.job q).sqTail = (s.job q).sqTail := (congrArg Job.sqTail h.own :)
theorem cqHead (h : PageFrame q s t) : (t.job q).cqHead = (s.job q).cqHead := (congrArg Job.cqHead h.own :)
theorem enable (h : PageFrame q s t) : (t.job q).enable = (s.job q).enable := (congrArg Job.enable h.own :)
theorem irqAll (h : PageFrame q s t) : (t.job q).irqAll = (s.job q).irqAll := (congrArg Job.irqAll h.own :)
theorem cfgErr (h : PageFrame q s t) : (t.job q).cfgErr = (s.job q).cfgErr := (congrArg Job.cfgErr h.own :)
theorem cmds (h : PageFrame q s t) {k : Page} (hk : k ≠ q) : (t.job k).cmds = (s.job k).cmds :=
  (congrArg Job.cmds (h.others k hk) :)

end PageFrame

/-! ### The oldest command -/

theorem State.job_modHJob (s : State) (h j : Nat) (f : HJob → HJob) (q : Page) : (s.modHJob h j f).job q = s.job q := rfl

/-- Changes of halls leave every page. -/
theorem State.job_foldl {α : Type} {f : State → α → State} {k : Page} (hf : ∀ t a, (f t a).job k = t.job k) (l : List α) (s : State) :
    (l.foldl f s).job k = s.job k := List.foldl_keeps (fun t : State => t.job k) hf l s

theorem State.job_stopImage (s : State) (q : Page) (seq : Nat) (k : Page) : (s.stopImage q seq).job k = s.job k := by
  refine State.job_foldl (fun t h => ?_) ..
  rfl

theorem State.job_countRerun (s : State) (q : Page) (c : Cmd) (k : Page) : (s.countRerun q c).job k = s.job k := by
  unfold State.countRerun
  split
  · refine State.job_foldl (fun t h => ?_) ..
    rfl
  · rfl

/-- Discarding an attempt sends its command back to wait (R162). -/
theorem State.job_dropAttempt (s : State) (q : Page) (slot : Nat) :
    (s.dropAttempt q slot).job q = (s.job q).modCmd slot fun c => { c with att := Attempt.empty, phase := .waiting } := by
  unfold State.dropAttempt
  dsimp only
  rw [State.modCmd, State.job_modJob_self]
  congr 1
  split
  · split
    · rw [State.job_stopImage]; rfl
    · rfl
  · rfl

/-- The page after its command has failed, before its completion is posted. -/
def State.failing (s : State) (q : Page) (slot code detail : Nat) : State :=
  (match (s.dropAttempt q slot).cmd? q slot with
    | some c => ((s.dropAttempt q slot).pageHalls q).foldl (fun (t : State) h => t.modHJob h (pageJob q) (·.dropMezz c.seq))
        (s.dropAttempt q slot)
    | none => s.dropAttempt q slot).modCmd q slot fun c => { c with phase := .failed code detail }

theorem State.failCmd_eq (s : State) (q : Page) (slot code detail : Nat) :
    s.failCmd q slot code detail = ((s.failing q slot code detail).drainFailed q).rehold (pageFn q) := rfl

theorem Job.modCmd_modCmd (j : Job) (slot : Nat) (f g : Cmd → Cmd) (hf : ∀ c, (f c).slot = c.slot) :
    (j.modCmd slot f).modCmd slot g = j.modCmd slot fun c => g (f c) := by
  unfold Job.modCmd
  dsimp only
  rw [List.map_map]
  congr 1
  refine List.map_congr_left fun c _ => ?_
  by_cases hc : c.slot = slot <;> simp [Function.comp, hc, hf]

theorem State.job_failing (s : State) (q : Page) (slot code detail : Nat) : (s.failing q slot code detail).job q
    = (s.job q).modCmd slot fun c => { c with att := Attempt.empty, phase := .failed code detail } := by
  unfold State.failing
  rw [State.modCmd, State.job_modJob_self]
  have hd : (match (s.dropAttempt q slot).cmd? q slot with
    | some c => ((s.dropAttempt q slot).pageHalls q).foldl (fun (t : State) h => t.modHJob h (pageJob q) (·.dropMezz c.seq))
        (s.dropAttempt q slot)
    | none => s.dropAttempt q slot).job q = (s.dropAttempt q slot).job q := by
    split
    · refine State.job_foldl (fun t h => ?_) ..
      rfl
    · rfl
  rw [hd, State.job_dropAttempt, Job.modCmd_modCmd]
  exact fun _ => rfl

/-- Other commands than the one of a slot stand. -/
theorem Job.modCmd_head {j : Job} {c : Cmd} {rest : List Cmd} (f : Cmd → Cmd) (h : j.cmds = c :: rest)
    (hr : rest.all (fun x => x.slot != c.slot) = true) : (j.modCmd c.slot f).cmds = f c :: rest := by
  have hrest : rest.map (fun x => if x.slot = c.slot then f x else x) = rest.map id := by
    refine List.map_congr_left fun x hx => ?_
    have := List.all_eq_true.mp hr x hx
    rw [if_neg (by simpa using this), id]
  change j.cmds.map (fun x => if x.slot = c.slot then f x else x) = _
  rw [h, List.map_cons, if_pos rfl, hrest, List.map_id]

/-- A page whose oldest command has posted an error completion: halted behind it, with no command left (R175). -/
def Job.haltedAfter (j : Job) (c : Cmd) (code : Nat) : Job :=
  { j with cqTail := (j.cqTail + 1) % j.cqSize, phaseBit := if (j.cqTail + 1) % j.cqSize = 0 then !j.phaseBit else j.phaseBit,
           sqHead := (c.slot % 65536 + 1) % j.sqSize, cmds := [], halted := true, haltCode := code,
           fetch := (c.slot % 65536 + 1) % j.sqSize }

theorem State.job_writeRing (s : State) (q : Page) (hbm : Bool) (a : Nat) (b : List Byte) (k : Page) :
    (s.writeRing q hbm a b).job k = s.job k := by
  unfold State.writeRing
  split <;> rfl

/-- The page of a posted record. -/
theorem State.job_postRecord (s : State) (q : Page) (c : Cmd) (status detail : Nat) (ok : Bool) (tst : DWord) :
    (s.postRecord q c status detail ok tst).job q = { s.job q with
      cqTail := ((s.job q).cqTail + 1) % (s.job q).cqSize,
      phaseBit := if ((s.job q).cqTail + 1) % (s.job q).cqSize = 0 then !(s.job q).phaseBit else (s.job q).phaseBit,
      sqHead := (c.slot % 65536 + 1) % (s.job q).sqSize, cmds := (s.job q).cmds.filter (·.slot != c.slot) } := by
  unfold State.postRecord
  dsimp only
  have e (t : State) (f : Job → Job) (b : Bool) (v n : Nat) :
      (if b then (t.modJob q f).msix v n else t.modJob q f).job q = f (t.job q) := by
    split
    · exact t.job_modJob_self q f
    · exact t.job_modJob_self q f
  rw [e, State.job_writeRing]

theorem State.postFailed_nil {s : State} {q : Page} (h : (s.job q).cmds = []) : s.postFailed q = s := by
  unfold State.postFailed
  rw [h]

/-- Once no command is left, no completion is posted. -/
theorem State.foldl_postFailed_nil {s : State} {q : Page} (h : (s.job q).cmds = []) (l : List Cmd) :
    l.foldl (fun t _ => t.postFailed q) s = s := by
  induction l with
  | nil => rfl
  | cons c l ih => rw [List.foldl_cons, State.postFailed_nil h, ih]

/-- The commands behind a failed one are killed, each in its place. -/
theorem State.job_killRest (q : Page) (l : List Cmd) (s : State) :
    { (l.foldl (fun s x => (s.countRerun q x).dropAttempt q x.slot) s).job q with cmds := [] } = { s.job q with cmds := [] } := by
  refine List.foldl_keeps (fun t : State => { t.job q with cmds := [] }) (fun t x => ?_) l s
  rw [State.job_dropAttempt, State.job_countRerun]
  rfl

/-- A failed oldest command posts its completion where the completion ring has room, and halts the queue (R175). -/
theorem State.job_postFailed {s : State} {q : Page} {c : Cmd} {rest : List Cmd} {code detail : Nat} (h : (s.job q).cmds = c :: rest)
    (hp : c.phase = .failed code detail) (hf : (s.job q).cqFull = false) (hc : code ≠ errReset) :
    (s.postFailed q).job q = (s.job q).haltedAfter c code := by
  unfold State.postFailed
  rw [h]
  dsimp only
  rw [hp]
  dsimp only
  rw [if_neg (by simp [hf]), if_neg hc, State.job_modJob_self]
  have e := State.job_killRest q rest (s.postRecord q c code detail false 0x700)
  have g := congrArg (fun j : Job => { j with halted := true, haltCode := code, fetch := j.sqHead }) e
  dsimp only at g
  rw [State.job_postRecord] at g
  exact g

theorem State.job_drainFailed {s : State} {q : Page} {c : Cmd} {rest : List Cmd} {code detail : Nat} (h : (s.job q).cmds = c :: rest)
    (hp : c.phase = .failed code detail) (hf : (s.job q).cqFull = false) (hc : code ≠ errReset) :
    (s.drainFailed q).job q = (s.job q).haltedAfter c code := by
  have e := State.job_postFailed h hp hf hc
  unfold State.drainFailed
  rw [h, List.foldl_cons, State.foldl_postFailed_nil (by rw [e]; rfl), e]

/-- The oldest command fails with a code: the page is halted behind it, but for the bookkeeping of slices. -/
theorem State.job_failCmd_oldest {s : State} {q : Page} {c : Cmd} {rest : List Cmd} (code detail : Nat) (h : (s.job q).cmds = c :: rest)
    (hr : rest.all (fun x => x.slot != c.slot) = true) (hf : (s.job q).cqFull = false) (hc : code ≠ errReset) :
    ((s.failCmd q c.slot code detail).job q).offSlice = ((s.job q).haltedAfter c code).offSlice := by
  have hj := s.job_failing q c.slot code detail
  have hcmds : ((s.failing q c.slot code detail).job q).cmds
      = { c with att := Attempt.empty, phase := .failed code detail } :: rest := by
    rw [hj]; exact Job.modCmd_head _ h hr
  have hfull : ((s.failing q c.slot code detail).job q).cqFull = false := by rw [hj]; exact hf
  rw [State.failCmd_eq, State.job_rehold, State.job_drainFailed hcmds rfl hfull hc, hj]
  rfl

/-- Pages that differ in the bookkeeping of slices alone. -/
theorem Job.offSlice_fields {j k : Job} (e : j.offSlice = k.offSlice) : j.cmds = k.cmds ∧ j.halted = k.halted
    ∧ j.haltCode = k.haltCode ∧ j.sqHead = k.sqHead ∧ j.fetch = k.fetch ∧ j.cqTail = k.cqTail :=
  ⟨(congrArg Job.cmds e :), (congrArg Job.halted e :), (congrArg Job.haltCode e :), (congrArg Job.sqHead e :),
    (congrArg Job.fetch e :), (congrArg Job.cqTail e :)⟩

/-- Settles O9: the failed command is the oldest, so its completion is posted at once. -/
theorem errorHaltsTheQueue : Obligations.ErrorHaltsTheQueue := by
  unfold Obligations.ErrorHaltsTheQueue
  intro s q c rest code detail h hr hf hc
  obtain ⟨hcmds, hhalt, hcode, hhead, hfetch, htail⟩ := Job.offSlice_fields (State.job_failCmd_oldest code detail h hr hf hc)
  exact ⟨hcmds, hhalt, hcode, hhead, hfetch.trans hhead.symm, htail⟩

/-! ### The doorbell page -/

theorem State.frozen_of_freezing {s : State} (h : s.freezing = false) : s.frozen = false := by
  unfold State.freezing at h
  simp only [Bool.or_eq_false_iff] at h
  tauto

/-- Settles O7: fetching leaves both pointers that the host writes. -/
theorem doorbellPointersTakeTheWrite : Obligations.DoorbellPointersTakeTheWrite := by
  unfold Obligations.DoorbellPointersTakeTheWrite
  intro s f q v
  refine ⟨fun hz hv => ⟨_, rfl, ?_⟩, fun hv => ⟨_, rfl, ?_⟩, fun h => ?_, fun h => ?_⟩
  · have e : s.writeTail (pageFn q) q v = (s.modJob q fun j => { j with sqTail := v.toNat }).fetchAll q := by
      unfold State.writeTail
      rw [if_neg (by simp [hv]), if_neg (by simp [hz])]
    have k := (PageFrame.refl (s.modJob q fun j => { j with sqTail := v.toNat })).fetchAll (q := q)
    rw [e]
    refine ⟨k.sqTail.trans ?_, k.cqHead.trans ?_⟩ <;> rw [State.job_modJob_self]
  · have e : s.writeCqHead (pageFn q) q v = (if (s.modJob q fun j => { j with cqHead := v.toNat }).frozen
        then s.modJob q fun j => { j with cqHead := v.toNat }
        else (s.modJob q fun j => { j with cqHead := v.toNat }).fetchAll q) := by
      unfold State.writeCqHead
      rw [if_neg (by simp [hv])]
    have r := PageFrame.refl (q := q) (s.modJob q fun j => { j with cqHead := v.toNat })
    have k := PageFrame.ite (c := (s.modJob q fun j => { j with cqHead := v.toNat }).frozen = true) r r.fetchAll
    rw [e]
    refine ⟨k.cqHead.trans ?_, k.sqTail.trans ?_⟩ <;> rw [State.job_modJob_self]
  · change Host.Outcome.next (s.writeTail f q v) = _
    unfold State.writeTail
    rw [if_pos (by tauto)]
  · change Host.Outcome.next (s.writeCqHead f q v) = _
    unfold State.writeCqHead
    rw [if_pos (by tauto)]

/-- A disabled ring fetches nothing. -/
theorem State.fetchLoop_of_disabled {s : State} {q : Page} (h : (s.job q).enable = false) (n : Nat) : s.fetchLoop q n = s := by
  cases n with
  | zero => rfl
  | succ n =>
    unfold State.fetchLoop
    rw [if_neg (by simp [h])]

theorem State.drainFailed_nil {s : State} {q : Page} (h : (s.job q).cmds = []) : s.drainFailed q = s := by
  unfold State.drainFailed
  rw [h]
  rfl

/-- A disabled ring without commands: a control write chooses the holder anew and leaves the page. -/
theorem State.offSlice_fetchAll_idle {s : State} {q : Page} (he : (s.job q).enable = false) (hc : (s.job q).cmds = []) :
    ((s.fetchAll q).job q).offSlice = (s.job q).offSlice := by
  unfold State.fetchAll
  rw [State.fetchLoop_of_disabled he, State.drainFailed_nil hc, State.job_rehold]
  rfl

/-- The bits of a control word. -/
theorem ctrlWord_bits : ∀ enable resume drain irqAll : Bool, let v := ctrlWord enable resume drain irqAll
    v.getLsbD 0 = enable ∧ v.getLsbD 1 = resume ∧ v.getLsbD 2 = drain ∧ v.getLsbD 3 = irqAll := by decide

/-- What a control write makes of the page before fetching goes on (Table 05-3). -/
def Job.control (j : Job) (enable resume drain irqAll bad : Bool) : Job :=
  let k := { j with irqAll := irqAll, enable := enable && !bad, cfgErr := j.cfgErr || bad }
  if drain then k.unhalt true else if resume then k.unhalt false else k

theorem State.writeCtrl_live {s : State} {q : Page} (hz : s.freezing = false) (enable resume drain irqAll : Bool) :
    s.writeCtrl (pageFn q) q (ctrlWord enable resume drain irqAll) = (s.modJob q fun j =>
      j.control enable resume drain irqAll (enable && !(s.job q).enable && s.ringBad q)).fetchAll q := by
  obtain ⟨h0, h1, h2, h3⟩ := ctrlWord_bits enable resume drain irqAll
  unfold State.writeCtrl
  rw [if_neg (by simp), if_neg (by simp [hz])]
  dsimp only
  rw [h0, h1, h2, h3, if_neg]
  · rfl
  · change ¬ s.frozen = true
    rw [State.frozen_of_freezing hz]
    exact Bool.false_ne_true

theorem Job.unhalt_regs (j : Job) (drain : Bool) : (j.unhalt drain).enable = j.enable ∧ (j.unhalt drain).irqAll = j.irqAll
    ∧ (j.unhalt drain).cfgErr = j.cfgErr ∧ (j.unhalt drain).cmds = j.cmds := by
  unfold Job.unhalt
  split
  · exact ⟨rfl, rfl, rfl, rfl⟩
  · split <;> exact ⟨rfl, rfl, rfl, rfl⟩

/-- Settles O8: a control write changes the page as Table 05-3 says, and fetching leaves these registers. -/
theorem queueControlActs : Obligations.QueueControlActs := by
  unfold Obligations.QueueControlActs
  refine ⟨fun s q irqAll hz => ?_, fun s q irqAll hz hh hc => ?_⟩
  · have k (e : Bool) := (PageFrame.refl (s.modJob q fun j =>
      j.control e false false irqAll (e && !(s.job q).enable && s.ringBad q))).fetchAll (q := q)
    have reg (e : Bool) := congrArg (fun t : State => t.job q) (State.writeCtrl_live (q := q) hz e false false irqAll)
    refine ⟨fun hb => ⟨_, rfl, ?_⟩, ⟨_, rfl, ?_⟩, fun he hb => ⟨_, rfl, ?_⟩⟩
    · rw [State.writeCtrl_live hz]
      refine ⟨(k true).enable.trans ?_, (k true).irqAll.trans ?_, (k true).cfgErr.trans ?_⟩ <;> rw [State.job_modJob_self]
        <;> simp [Job.control, hb]
    · rw [State.writeCtrl_live hz]
      refine ⟨(k false).enable.trans ?_, (k false).irqAll.trans ?_⟩ <;> rw [State.job_modJob_self] <;> simp [Job.control]
    · rw [State.writeCtrl_live hz]
      refine ⟨(k true).enable.trans ?_, (k true).cfgErr.trans ?_⟩ <;> rw [State.job_modJob_self] <;> simp [Job.control, he, hb]
  · have idle (f : Job → Job) (he : (f (s.job q)).enable = false) (hn : (f (s.job q)).cmds = []) :
        (((s.modJob q f).fetchAll q).job q).offSlice = (f (s.job q)).offSlice := by
      have := State.offSlice_fetchAll_idle (s := s.modJob q f) (q := q) (by rw [State.job_modJob_self]; exact he)
        (by rw [State.job_modJob_self]; exact hn)
      rwa [State.job_modJob_self] at this
    refine ⟨⟨_, rfl, ?_⟩, ⟨_, rfl, ?_⟩⟩
    · rw [State.writeCtrl_live hz]
      have e := idle (fun j => j.control false true false irqAll (false && !(s.job q).enable && s.ringBad q))
        (by simp [Job.control, Job.unhalt, hh]) (by simp [Job.control, Job.unhalt, hh, hc])
      have u : (s.job q).control false true false irqAll (false && !(s.job q).enable && s.ringBad q)
          = { s.job q with irqAll := irqAll, enable := false, fetch := (s.job q).sqHead, halted := false, haltCode := 0 } := by
        simp [Job.control, Job.unhalt, hh]
      rw [u] at e
      obtain ⟨_, hhalt, hcode, hhead, hfetch, _⟩ := Job.offSlice_fields e
      exact ⟨hhalt, hcode, hfetch, hhead⟩
    · rw [State.writeCtrl_live hz]
      have e := idle (fun j => j.control false false true irqAll (false && !(s.job q).enable && s.ringBad q))
        (by simp [Job.control, Job.unhalt, hh]) (by simp [Job.control, Job.unhalt, hh, hc])
      have u : (s.job q).control false false true irqAll (false && !(s.job q).enable && s.ringBad q)
          = { s.job q with irqAll := irqAll, enable := false, sqHead := (s.job q).sqTail, fetch := (s.job q).sqTail,
                           halted := false, haltCode := 0 } := by
        simp [Job.control, Job.unhalt, hh]
      rw [u] at e
      obtain ⟨_, hhalt, hcode, hhead, hfetch, _⟩ := Job.offSlice_fields e
      exact ⟨hhalt, hcode, hhead, hfetch⟩

end Sys2Proof.Machine
end

section
/-! PROOFS. Submission, dispatch, commit windows, semaphores and timeouts. -/

namespace Sys2Proof.Machine

/-! ### Choosing the holder -/

/-- The state without what a choice of the holder changes. -/
def State.offHolder (s : State) : State := { s with jobs := [], parts := [], free := 0 }
def Part.offHolder (p : Part) : Part := { p with holder := none, last := 0, sliceOver := false, overran := false }

/-- A choice of the holder: partitions keep all but their holder and its slice, pages all but the bookkeeping of slices. -/
structure HolderFrame (s t : State) : Prop where
  rest : t.offHolder = s.offHolder
  part : ∀ v, (t.part v).offHolder = (s.part v).offHolder
  job : ∀ q, (t.job q).offSlice = (s.job q).offSlice

namespace HolderFrame

variable {s t u : State}

theorem refl (s : State) : HolderFrame s s := ⟨rfl, fun _ => rfl, fun _ => rfl⟩

theorem trans (a : HolderFrame s t) (b : HolderFrame t u) : HolderFrame s u :=
  ⟨b.rest.trans a.rest, fun v => (b.part v).trans (a.part v), fun q => (b.job q).trans (a.job q)⟩

theorem modPart (h : HolderFrame s t) (v : Nat) {f : Part → Part} (hf : ∀ p, (f p).offHolder = p.offHolder) :
    HolderFrame s (t.modPart v f) := by
  refine h.trans ⟨rfl, fun k => ?_, fun _ => rfl⟩
  rw [State.part_modPart]
  split
  · next e => subst e; exact hf _
  · rfl

theorem modJob (h : HolderFrame s t) (q : Page) {f : Job → Job} (hf : ∀ j, (f j).offSlice = j.offSlice) :
    HolderFrame s (t.modJob q f) := by
  refine h.trans ⟨rfl, fun _ => rfl, fun k => ?_⟩
  rw [State.job_modJob]
  split
  · next e => subst e; exact hf _
  · rfl

theorem setHolder (h : HolderFrame s t) (v : Fn) (j : Nat) : HolderFrame s (t.setHolder v j) := by
  refine modJob (modPart h v ?_) _ ?_ <;> exact fun _ => rfl

theorem unhold (h : HolderFrame s t) (v : Fn) : HolderFrame s (t.modPart v fun p => { p with holder := none }) :=
  h.modPart v fun _ => rfl

theorem endOverrun (h : HolderFrame s t) (v : Fn) (j : Nat) : HolderFrame s (t.endOverrun v j) := by
  unfold State.endOverrun State.fresh
  dsimp only
  split
  · have u : HolderFrame s { t with free := t.free + 1 } := h.trans ⟨rfl, fun _ => rfl, fun _ => rfl⟩
    refine modJob (modPart u v ?_) _ ?_ <;> exact fun _ => rfl
  · exact h.modPart v fun _ => rfl

/-- The next ready job takes the partition, or nobody. -/
theorem handOn (h : HolderFrame s t) (v : Fn) (o : Option Nat) (ho : HolderFrame s u) :
    HolderFrame s (match o with | some j => t.setHolder v j | none => u) := by
  split
  · exact h.setHolder ..
  · exact ho

theorem rehold (h : HolderFrame s t) (v : Fn) : HolderFrame s (t.rehold v) := by
  unfold State.rehold
  dsimp only
  split
  · split
    · split
      · exact h
      · have e := h.endOverrun v
        split
        · exact (e _).setHolder ..
        · split
          · exact (e _).setHolder ..
          · exact (e _).unhold v
    · split
      · exact h
      · split
        · exact h.setHolder ..
        · exact h.unhold v
  · split
    · exact h.setHolder ..
    · exact h

theorem halls (h : HolderFrame s t) : t.halls = s.halls := (congrArg State.halls h.rest :)
theorem host (h : HolderFrame s t) : t.host = s.host := (congrArg State.host h.rest :)
theorem hall (h : HolderFrame s t) (k : Nat) : t.hall k = s.hall k := by rw [State.hall, h.halls, State.hall]
theorem sems (h : HolderFrame s t) (v : Nat) : (t.part v).sems = (s.part v).sems := (congrArg Part.sems (h.part v) :)
theorem base (h : HolderFrame s t) (v : Nat) : (t.part v).base = (s.part v).base := (congrArg Part.base (h.part v) :)
theorem cmds (h : HolderFrame s t) (q : Page) : (t.job q).cmds = (s.job q).cmds := (congrArg Job.cmds (h.job q) :)

end HolderFrame

/-! ### Submission -/

theorem setBody_wf {d : Desc} (h : d.wf = true) (i v : Nat) : (setBody d i v).wf = true := by
  have hl : (setBody d i v).body.length = d.body.length := List.length_set ..
  unfold Desc.wf at h ⊢
  rw [hl]
  exact h

theorem Desc.length_bytes_of_wf {d : Desc} (h : d.wf = true) (op : Nat) : (d.bytes op).length = 64 := by
  simp only [Desc.wf, Bool.and_eq_true, decide_eq_true_eq, beq_iff_eq] at h
  obtain ⟨⟨_, hs⟩, hb⟩ := h
  obtain ⟨x0, x1, x2, x3, e⟩ := exists_four hs
  exact Desc.length_bytes op d x0 x1 x2 x3 e hb

/-- What is written to a ring reads back from it. -/
theorem State.readRing_writeRing (s : State) (q : Page) (hbm : Bool) (a : Nat) (b : List Byte) :
    (s.writeRing q hbm a b).readRing q hbm a b.length = b := by
  cases hbm
  · exact memReads_memWrites_same ..
  · rw [State.writeRing, if_pos rfl, State.readRing, if_pos rfl]
    change memReads ((s.modHall (s.phys q (hbmHall a)) _).hall (s.phys q (hbmHall a))).hbm (hbmOff a) b.length = b
    rw [State.hall_modHall_self]
    exact memReads_memWrites_same ..

/-- A ring reads the same where host memory, the halls and the place of the partition do. -/
theorem State.readRing_congr {s t : State} {q : Page} (hh : t.halls = s.halls) (hm : t.host = s.host)
    (hp : (t.part (pageFn q)).base = (s.part (pageFn q)).base) (hbm : Bool) (a n : Nat) :
    t.readRing q hbm a n = s.readRing q hbm a n := by
  unfold State.readRing State.phys State.hall
  rw [hh, hm, hp]

/-- A submission that passes its checks has met no poison. -/
theorem State.submit_poison {s : State} {q : Page} {b : List Byte} (h : (s.submit q b).err = none) :
    (s.submit q b).poison = none := by
  unfold State.submit at h ⊢
  dsimp only at h ⊢
  split at h
  · cases h
  · split at h
    · cases h
    · rfl


/-- A submission at the tail of an idle, enabled ring, before fetching. -/
def State.submitted (s : State) (q : Page) (b : List Byte) : State :=
  (s.writeRing q (s.job q).sqHbm ((s.job q).sqBase + 64 * (s.job q).sqTail) b).modJob q fun k =>
    { k with sqTail := ((s.job q).sqTail + 1) % (s.job q).sqSize }

theorem State.job_submitted (s : State) (q : Page) (b : List Byte) :
    (s.submitted q b).job q = { s.job q with sqTail := ((s.job q).sqTail + 1) % (s.job q).sqSize } := by
  rw [State.submitted, State.job_modJob_self, State.job_writeRing]

theorem State.job_submitted_other (s : State) {q k : Page} (hk : k ≠ q) (b : List Byte) : (s.submitted q b).job k = s.job k := by
  rw [State.submitted, State.job_modJob, if_neg hk, State.job_writeRing]

theorem State.part_submitted (s : State) (q : Page) (b : List Byte) (v : Nat) : (s.submitted q b).part v = s.part v := by
  unfold State.submitted State.writeRing
  split <;> rfl

theorem State.readRing_submitted (s : State) (q : Page) {b : List Byte} (hb : b.length = 64) :
    (s.submitted q b).readRing q (s.job q).sqHbm ((s.job q).sqBase + 64 * (s.job q).sqTail) 64 = b := by
  have e := s.readRing_writeRing q (s.job q).sqHbm ((s.job q).sqBase + 64 * (s.job q).sqTail) b
  rw [hb] at e
  exact (State.readRing_congr rfl rfl rfl ..).trans e

/-- A ring whose one fetched entry has reached the tail fetches no more. -/
theorem State.fetchLoop_done {s : State} {q : Page} (h : (s.job q).fetch = (s.job q).sqTail) (n : Nat) : s.fetchLoop q n = s := by
  cases n with
  | zero => rfl
  | succ n =>
    unfold State.fetchLoop
    rw [if_neg (by simp [h])]

/-- A ring with one entry to fetch fetches it. -/
theorem State.fetchLoop_one {s : State} {q : Page} (hs : (s.part (pageFn q)).scState ≠ 3) (he : (s.job q).enable = true)
    (hh : (s.job q).halted = false) (hc : (s.job q).cmds = []) (hne : (s.job q).fetch ≠ (s.job q).sqTail)
    (hd : ((s.fetchOne q).job q).fetch = ((s.fetchOne q).job q).sqTail) {n : Nat} (hn : 0 < n) :
    s.fetchLoop q n = s.fetchOne q := by
  obtain ⟨m, rfl⟩ := Nat.exists_eq_succ_of_ne_zero hn.ne'
  unfold State.fetchLoop
  rw [if_pos (by simp [hs, he, hh, hc, hne]), State.fetchLoop_done hd]

/-- Fetching an entry that passes the checks of submission queues its command and changes nothing else. -/
theorem State.fetchOne_clean {s : State} {q : Page} (hc : (s.job q).cmds = [])
    (hp : s.poisonAt q (s.job q).sqHbm ((s.job q).sqBase + 64 * (s.job q).fetch) 64 = none)
    (he : (s.submit q (s.readRing q (s.job q).sqHbm ((s.job q).sqBase + 64 * (s.job q).fetch) 64)).err = none) :
    s.fetchOne q = s.modJob q fun j => { j with
      cmds := [Cmd.ofSubmitted (s.job q).fetch (s.job q).fetched
        (s.submit q (s.readRing q (s.job q).sqHbm ((s.job q).sqBase + 64 * (s.job q).fetch) 64))],
      fetch := ((s.job q).fetch + 1) % (s.job q).sqSize, fetched := (s.job q).fetched + 1 } := by
  have hx : s.submitAt q (s.job q).sqHbm ((s.job q).sqBase + 64 * (s.job q).fetch)
      = s.submit q (s.readRing q (s.job q).sqHbm ((s.job q).sqBase + 64 * (s.job q).fetch) 64) := by
    rw [State.submitAt, hp]
  have hslot : (s.job q).slotFor (s.job q).fetch = (s.job q).fetch := by
    simp [Job.slotFor, Job.cmd?, hc]
  unfold State.fetchOne
  dsimp only
  rw [hx, hp, if_neg (by simp)]
  have hl : s.logPoison q (s.submit q (s.readRing q (s.job q).sqHbm ((s.job q).sqBase + 64 * (s.job q).fetch) 64)) = s := by
    rw [State.logPoison, State.submit_poison he]
  rw [hl, State.modJob, State.modJob, hslot, hc]
  rfl

/-- A queue whose one command waits posts nothing. -/
theorem State.drainFailed_waiting {s : State} {q : Page} {c : Cmd} (h : (s.job q).cmds = [c]) (hp : c.phase = .waiting) :
    s.drainFailed q = s := by
  unfold State.drainFailed
  rw [h, List.foldl_cons, List.foldl_nil, State.postFailed, h]
  dsimp only
  rw [hp]

theorem State.submitRow_idle {s : State} {q : Page} {op : Nat} {d : Desc} (hz : s.freezing = false)
    (hf : ((s.job q).sqTail + 1) % (s.job q).sqSize ≠ (s.job q).sqHead) :
    s.submitRow q op d = (s.submitted q (d.bytes op)).fetchAll q := by
  unfold State.submitRow State.hostSubmit
  rw [if_neg (by simp [hz])]
  dsimp only
  rw [if_neg hf]
  rfl

/-- A descriptor at the tail of an idle, enabled ring is fetched as the queue's one command. -/
theorem State.submitRow_queues {s : State} {q : Page} {op : Nat} {d : Desc} (hd : d.wf = true) (hz : s.freezing = false)
    (hs : (s.part (pageFn q)).scState ≠ 3) (he : (s.job q).enable = true) (hh : (s.job q).halted = false) (hc : (s.job q).cmds = [])
    (hfetch : (s.job q).fetch = (s.job q).sqTail) (hsize : (s.job q).sqTail < (s.job q).sqSize)
    (hfull : ((s.job q).sqTail + 1) % (s.job q).sqSize ≠ (s.job q).sqHead)
    (hne : (s.job q).sqTail ≠ ((s.job q).sqTail + 1) % (s.job q).sqSize)
    (hp : (s.submitted q (d.bytes op)).poisonAt q (s.job q).sqHbm ((s.job q).sqBase + 64 * (s.job q).sqTail) 64 = none)
    (hok : ((s.submitted q (d.bytes op)).submit q (d.bytes op)).err = none) :
    let t := s.submitRow q op d
    (t.job q).sqTail = ((s.job q).sqTail + 1) % (s.job q).sqSize
      ∧ (t.job q).cmds = [Cmd.ofSubmitted (s.job q).sqTail (s.job q).fetched ((s.submitted q (d.bytes op)).submit q (d.bytes op))]
      ∧ t.readRing q (s.job q).sqHbm ((s.job q).sqBase + 64 * (s.job q).sqTail) 64 = d.bytes op
      ∧ (∀ k, k ≠ q → (t.job k).cmds = (s.job k).cmds) := by
  have hw := s.job_submitted q (d.bytes op)
  have hread := s.readRing_submitted q (Desc.length_bytes_of_wf hd op)
  generalize ew : s.submitted q (d.bytes op) = w at hw hread hp hok
  have hwread : w.readRing q (w.job q).sqHbm ((w.job q).sqBase + 64 * (w.job q).fetch) 64 = d.bytes op := by
    rw [hw]; dsimp only; rw [hfetch]; exact hread
  have hone := State.fetchOne_clean (s := w) (q := q) (by rw [hw]; exact hc) (by rw [hw]; dsimp only; rw [hfetch]; exact hp)
    (by rw [hwread]; exact hok)
  rw [hwread] at hone
  have hloop : w.fetchLoop q (w.job q).sqSize = w.fetchOne q := by
    refine State.fetchLoop_one ?_ (by rw [hw]; exact he) (by rw [hw]; exact hh) (by rw [hw]; exact hc) ?_ ?_ ?_
    · rw [← ew, State.part_submitted]; exact hs
    · rw [hw]; dsimp only; rw [hfetch]; exact hne
    · rw [hone, State.job_modJob_self, hw]; dsimp only; rw [hfetch]; rfl
    · rw [hw]; exact Nat.zero_lt_of_lt hsize
  have hjob := congrArg (State.job · q) hone
  rw [State.job_modJob_self, hw] at hjob
  have ht : s.submitRow q op d = (w.fetchOne q).rehold (pageFn q) := by
    rw [State.submitRow_idle hz hfull, ew, State.fetchAll, hloop, State.drainFailed_waiting (by rw [hjob]) ?_]
    unfold Cmd.ofSubmitted
    dsimp only
    rw [hok]
  have fr := (HolderFrame.refl (w.fetchOne q)).rehold (pageFn q)
  dsimp only
  rw [ht]
  refine ⟨?_, (fr.cmds q).trans ?_, ?_, fun k hk => (fr.cmds k).trans ?_⟩
  · have := (PageFrame.refl (w.fetchOne q)).rehold (q := q) (pageFn q)
    rw [this.sqTail, hjob]
  · rw [hjob]; dsimp only; rw [hfetch]
  · refine (State.readRing_congr fr.halls fr.host (fr.base _) ..).trans ?_
    rw [hone]
    exact (State.readRing_congr rfl rfl rfl ..).trans hread
  · rw [hone, State.job_modJob, if_neg hk, ← ew, State.job_submitted_other s hk]

/-- Settles O6: each of the eleven rows writes its descriptor and rings the doorbell. -/
theorem submissionQueuesTheDescriptor : Obligations.SubmissionQueuesTheDescriptor := by
  unfold Obligations.SubmissionQueuesTheDescriptor
  intro s q d c op b hrow hd hz hs he hh hc hfetch hsize hfull hne j w hp hok
  obtain ⟨d', hd', rfl, e⟩ : ∃ d' : Desc, d'.wf = true ∧ b = d'.bytes op ∧ exec c s = .next (s.submitRow q op d') := by
    simp only [List.mem_cons, Prod.mk.injEq, List.not_mem_nil, or_false] at hrow
    rcases hrow with ⟨rfl, rfl, rfl⟩ | ⟨rfl, rfl, rfl⟩ | ⟨rfl, rfl, rfl⟩ | ⟨rfl, rfl, rfl⟩ | ⟨rfl, rfl, rfl⟩ | ⟨rfl, rfl, rfl⟩
      | ⟨rfl, rfl, rfl⟩ | ⟨rfl, rfl, rfl⟩ | ⟨rfl, rfl, rfl⟩ | ⟨rfl, rfl, rfl⟩ | ⟨rfl, rfl, rfl⟩
    case inr.inr.inl => exact ⟨_, setBody_wf hd 0 3, rfl, rfl⟩
    case inr.inr.inr.inr.inr.inr.inr.inl => exact ⟨_, setBody_wf hd 2 1, rfl, rfl⟩
    case inr.inr.inr.inr.inr.inr.inr.inr.inl => exact ⟨_, setBody_wf hd 2 2, rfl, rfl⟩
    case inr.inr.inr.inr.inr.inr.inr.inr.inr.inl => exact ⟨_, setBody_wf hd 2 3, rfl, rfl⟩
    case inr.inr.inr.inr.inr.inr.inr.inr.inr.inr => exact ⟨_, setBody_wf hd 2 4, rfl, rfl⟩
    all_goals exact ⟨d, hd, rfl, rfl⟩
  exact ⟨_, e, State.submitRow_queues hd' hz hs he hh hc hfetch hsize hfull hne hp hok⟩

end Sys2Proof.Machine
end

section
/-! PROOFS. Dispatch, the commit window, early release and the timeouts. -/

namespace Sys2Proof.Machine

/-! ### Dispatch -/

@[simp] theorem Part.sem_putSem_self (p : Part) (n : Nat) (x : Sem) : (p.putSem n x).sem n = x := tabGet_tabSet_self ..

theorem Part.sem_putSem (p : Part) (n m : Nat) (x : Sem) : (p.putSem n x).sem m = if m = n then x else p.sem m := tabGet_tabSet ..

/-- Semaphores taken by a list of slots, those taken before among them. -/
theorem Part.holder_acquireList (who : Nat × Nat) (l : List (Nat × Nat)) (p : Part) (n : Nat)
    (h : (p.sem n).holder = some who ∨ n ∈ l.map (·.1)) :
    ((l.foldl (fun (p : Part) x => p.putSem x.1 { p.sem x.1 with holder := some who }) p).sem n).holder = some who := by
  induction l generalizing p with
  | nil => simpa using h
  | cons x l ih =>
    refine ih _ ?_
    rw [Part.sem_putSem]
    by_cases hx : n = x.1
    · exact Or.inl (by rw [if_pos hx])
    · rw [if_neg hx]
      exact h.imp id fun h => by simpa [hx] using h

theorem Part.holder_acquire (p : Part) (d : Desc) (who : Nat × Nat) {x : Nat × Nat} (hx : x ∈ d.semsOf 1) :
    ((p.acquire d who).sem x.1).holder = some who :=
  Part.holder_acquireList who _ p x.1 (Or.inr (List.mem_map_of_mem hx))

/-- Changes of halls leave partitions and pages. -/
theorem State.parts_foldl {α : Type} {f : State → α → State} (hf : ∀ t a, (f t a).parts = t.parts) (l : List α) (s : State) :
    (l.foldl f s).parts = s.parts := List.foldl_keeps State.parts hf l s

theorem State.jobs_foldl {α : Type} {f : State → α → State} (hf : ∀ t a, (f t a).jobs = t.jobs) (l : List α) (s : State) :
    (l.foldl f s).jobs = s.jobs := List.foldl_keeps State.jobs hf l s

theorem State.powerPass_outside (s : State) (q : Page) (c : Cmd) :
    (s.powerPass q c).parts = s.parts ∧ (s.powerPass q c).jobs = s.jobs := by
  unfold State.powerPass
  split
  · exact ⟨rfl, rfl⟩
  · split
    · refine ⟨State.parts_foldl (fun t a => ?_) .., State.jobs_foldl (fun t a => ?_) ..⟩ <;> rfl
    · exact ⟨rfl, rfl⟩

theorem State.freeTarget_outside (s : State) (c : Cmd) : (s.freeTarget c).parts = s.parts ∧ (s.freeTarget c).jobs = s.jobs := by
  unfold State.freeTarget
  split <;> exact ⟨rfl, rfl⟩

/-- The command as its dispatch leaves it, for some attempt. -/
def Cmd.started (c : Cmd) (now : DWord) (a : Attempt) : Cmd :=
  { c with phase := .running, att := a, firstT := some (c.firstT.getD now.toNat) }

theorem State.part_of_parts {s t : State} (h : t.parts = s.parts) (v : Nat) : t.part v = s.part v := by
  rw [State.part, h, State.part]

theorem State.job_of_jobs {s t : State} (h : t.jobs = s.jobs) (q : Page) : t.job q = s.job q := by
  rw [State.job, h, State.job]

/-- Bindings of descriptors: halls alone. -/
theorem State.bindAll_outside (q : Page) (l : List TDesc) (s : State) :
    let t := l.foldl (fun s d => if d.host then s else s.modHall (s.phys q d.lhall) fun H =>
      H.bindGen d (s.scopeOf q (s.phys q d.lhall) d)) s
    t.parts = s.parts ∧ t.jobs = s.jobs ∧ t.time = s.time := by
  refine ⟨State.parts_foldl (fun t a => ?_) .., State.jobs_foldl (fun t a => ?_) .., List.foldl_keeps State.time (fun t a => ?_) ..⟩ <;>
    split <;> rfl

/-- A dispatch takes the semaphores of its command and starts it; other pages and partitions stand. -/
theorem State.startCmd_outside (s : State) (q : Page) (c : Cmd) : ∃ a : Attempt,
    (s.startCmd q c).job q = (s.job q).modCmd c.slot (fun x => x.started s.time a)
      ∧ (∀ k, k ≠ q → (s.startCmd q c).job k = s.job k)
      ∧ (s.startCmd q c).part (pageFn q) = (s.part (pageFn q)).acquire c.desc (q, c.slot) := by
  obtain ⟨hp, hj, ht⟩ := State.bindAll_outside q c.tds s
  unfold State.startCmd
  generalize c.tds.foldl _ s = b at hp hj ht
  extract_lets v bound taken none_ att running counted
  have hparts : counted.parts = running.parts := by
    simp only [counted]
    split
    · refine State.parts_foldl (fun t a => ?_) ..
      rfl
    · rfl
  have hjobs : counted.jobs = running.jobs := by
    simp only [counted]
    split
    · refine State.jobs_foldl (fun t a => ?_) ..
      rfl
    · rfl
  obtain ⟨hp1, hj1⟩ := counted.powerPass_outside q c
  obtain ⟨hp2, hj2⟩ := (counted.powerPass q c).freeTarget_outside c
  have jobs (k : Page) : ((counted.powerPass q c).freeTarget c).job k = running.job k :=
    State.job_of_jobs (hj2.trans (hj1.trans hjobs)) k
  have bj (k : Page) : taken.job k = s.job k := State.job_of_jobs (t := taken) (s := s) hj k
  refine ⟨att, ?_, fun k hk => ?_, ?_⟩
  · rw [jobs]
    simp only [running]
    rw [State.modCmd, State.job_modJob_self, bj]
    have htime : taken.time = s.time := ht
    simp only [htime, Cmd.started]
  · rw [jobs]
    simp only [running]
    rw [State.modCmd, State.job_modJob, if_neg hk, bj]
  · rw [State.part_of_parts (hp2.trans (hp1.trans hparts))]
    have e : running.part (pageFn q) = taken.part (pageFn q) := rfl
    rw [e]
    simp only [taken, bound, v]
    rw [State.part_modPart_self, State.part_of_parts hp]

theorem Job.cmd?_modCmd (j : Job) (slot : Nat) (f : Cmd → Cmd) (hf : ∀ c, (f c).slot = c.slot) (k : Nat) :
    (j.modCmd slot f).cmd? k = (j.cmd? k).map fun c => if c.slot = slot then f c else c := by
  unfold Job.cmd? Job.modCmd
  dsimp only
  rw [List.find?_map]
  congr 2
  funext c
  simp only [Function.comp]
  split
  · rw [hf]
  · rfl

theorem State.slot_of_cmd? {s : State} {q : Page} {slot : Nat} {c : Cmd} (h : s.cmd? q slot = some c) : c.slot = slot := by
  simpa using List.find?_some h

/-- Settles O10: the ready command passes the checks of dispatch, so it starts. -/
theorem dispatchStartsTheCommand : Obligations.DispatchStartsTheCommand := by
  unfold Obligations.DispatchStartsTheCommand
  intro s q c r hz hh ho hs hhalt hcan herr hcmd
  have e : exec (.commandDispatch q) s = .next (r.startCmd q c) := by
    change whenRunning s (·.dispatch q) = _
    rw [whenRunning_live hz]
    change Host.Outcome.next (State.dispatch s q) = _
    unfold State.dispatch
    dsimp only
    rw [if_pos ⟨hh, ho, hs, hhalt⟩, hcan]
    dsimp only
    rw [herr]
  obtain ⟨a, hj, hk, hp⟩ := r.startCmd_outside q c
  have ht : r.time = s.time := (congrArg State.time ((HolderFrame.refl s).rehold (pageFn q)).rest :)
  have hc : (r.startCmd q c).cmd? q c.slot = some (c.started s.time a) := by
    change ((r.startCmd q c).job q).cmd? c.slot = _
    rw [hj, Job.cmd?_modCmd _ _ (fun x => x.started r.time a) fun _ => rfl, hcmd, Option.map_some, if_pos rfl, ht]
  refine ⟨_, e, by rw [hc]; rfl, by rw [hc]; rfl, fun x hx => ?_, fun k hne => by rw [hk k hne]⟩
  rw [hp]
  exact Part.holder_acquire _ _ _ hx

/-! ### The commit window -/

/-- A full completion ring holds the commit window back. -/
theorem State.openWindow_full {s : State} {q : Page} {c : Cmd} {rest : List Cmd} (h : (s.job q).cmds = c :: rest)
    (hs : c.att.staged = []) (hf : (s.job q).cqFull = true) : s.openWindow q = s := by
  have he : s.fillErr c = none := by rw [State.fillErr, hs]; rfl
  have hd : s.deriveAll q c = s := by rw [State.deriveAll, hs]; rfl
  unfold State.openWindow
  rw [h]
  dsimp only
  rw [he]
  dsimp only
  rw [hd, if_pos hf, ite_self]

/-- A command that is done, with nothing staged and a digest that agrees, opens its window. -/
theorem State.openWindow_opens {s : State} {q : Page} {c : Cmd} {rest : List Cmd} (h : (s.job q).cmds = c :: rest)
    (hs : c.att.staged = []) (hp : c.phase = .running) (hw : s.workDone q c = true) (hf : (s.job q).cqFull = false)
    (hd : s.shareDigest q c = s) (ha : s.agreed q c = true) :
    s.openWindow q = s.modCmd q c.slot fun x => { x with phase := .window } := by
  have hc : s.cmd? q c.slot = some c := by simp [State.cmd?, Job.cmd?, h]
  have he : s.fillErr c = none := by rw [State.fillErr, hs]; rfl
  have hall : s.deriveAll q c = s := by rw [State.deriveAll, hs]; rfl
  unfold State.openWindow
  rw [h]
  dsimp only
  rw [if_pos ⟨hp, hw⟩, he]
  dsimp only
  rw [hall, if_neg (by simp [hf]), hc]
  dsimp only
  rw [hd, hc]
  dsimp only
  rw [if_pos ⟨hp, ha⟩]

theorem State.cmd?_modCmd_self {s : State} {q : Page} {slot : Nat} {f : Cmd → Cmd} {c : Cmd} (hf : ∀ c, (f c).slot = c.slot)
    (h : s.cmd? q slot = some c) : (s.modCmd q slot f).cmd? q slot = some (f c) := by
  rw [State.cmd?_modCmd _ _ _ _ hf, h, Option.map_some, if_pos (State.slot_of_cmd? h)]

/-- A row of a device that is not frozen. -/
theorem next_live {s : State} (h : s.frozen = false) (x : State) :
    (Host.Outcome.next (if s.frozen = true then s else x) : Out) = .next x := by
  rw [if_neg (by simp [h])]

theorem State.cmd?_head {s : State} {q : Page} {c : Cmd} {rest : List Cmd} (h : (s.job q).cmds = c :: rest) :
    s.cmd? q c.slot = some c := by
  simp [State.cmd?, Job.cmd?, h]

/-- Settles O11: nothing staged leaves nothing to fill, and a leg without a partner agrees with itself. -/
theorem commitWindowOpens : Obligations.CommitWindowOpens := by
  unfold Obligations.CommitWindowOpens
  intro s q c rest h hs
  refine ⟨fun hz hp hw hf hsc => ?_, fun hf => ?_⟩
  · have hshare : s.shareDigest q c = s := by rw [State.shareDigest, if_pos (Or.inl hsc)]
    have hagree : s.agreed q c = true := by simp [State.agreed, hsc]
    have e := State.openWindow_opens h hs hp hw hf hshare hagree
    have ex : exec (.commit q .window) s = .next (s.openWindow q) := next_live hz _
    rw [e] at ex
    refine ⟨_, ex, ?_, ⟨rfl, rfl, rfl, rfl, rfl, fun k hk => ?_⟩, rfl⟩
    · rw [State.cmd?_modCmd_self (f := fun x : Cmd => { x with phase := .window }) (fun _ => rfl) (State.cmd?_head h)]
      rfl
    · rw [State.modCmd, State.job_modJob, if_neg hk]
  · have e := State.openWindow_full h hs hf
    change Host.Outcome.next (if s.frozen then s else s.openWindow q) = _
    rw [e, ite_self]

/-! ### Semaphores -/

theorem Part.holder_releaseSem (p : Part) (who : Nat × Nat) (n m : Nat) (h : (p.sem m).holder ≠ some who ∨ m = n) :
    ((p.releaseSem who n).sem m).holder ≠ some who := by
  unfold Part.releaseSem
  split
  · rw [Part.sem_putSem]
    split
    · exact nofun
    · next hne => exact h.resolve_right hne
  · next hn =>
    rcases h with h | h
    · exact h
    · subst h; exact hn

theorem Part.holder_releaseList (who : Nat × Nat) (l : List Nat) (p : Part) (m : Nat) (h : (p.sem m).holder ≠ some who ∨ m ∈ l) :
    ((l.foldl (fun P n => P.releaseSem who n) p).sem m).holder ≠ some who := by
  induction l generalizing p with
  | nil => simpa using h
  | cons n l ih =>
    rw [List.foldl_cons]
    by_cases hn : m = n
    · exact ih _ (Or.inl (p.holder_releaseSem who n m (Or.inr hn)))
    · rcases h with h | h
      · exact ih _ (Or.inl (p.holder_releaseSem who n m (Or.inl h)))
      · exact ih _ (Or.inr (by simpa [hn] using h))

theorem State.phase_modAtt {s : State} {q : Page} {slot : Nat} {f : Attempt → Attempt} {c : Cmd} (h : s.cmd? q slot = some c) :
    ((s.modAtt q slot f).cmd? q slot).map Cmd.phase = some c.phase := by
  rw [State.modAtt, State.cmd?_modCmd_self (f := fun x : Cmd => { x with att := f x.att }) (fun _ => rfl) h, Option.map_some]

/-- Settles O13: the comparison is one of 16-bit numbers, and an early release changes holders and the attempt's list alone. -/
theorem semaphoresCompareAndRelease : Obligations.SemaphoresCompareAndRelease := by
  unfold Obligations.SemaphoresCompareAndRelease
  refine ⟨fun x target ht => ?_, fun s q slot c p i hz hc hp hd hop hi hsem hdone => ?_⟩
  · have hv := x.value.isLt
    have e : (x.value - BitVec.ofNat 16 target).toNat = (x.value.toNat + 2 ^ 16 - target) % 2 ^ 16 := by
      rw [BitVec.toNat_sub, BitVec.toNat_ofNat]
      omega
    rw [Sem.reaches, decide_eq_true_eq, e]
  · have e : exec (.semaphoreEarlyRelease q slot) s = .next (s.earlyRelease q slot) := next_live hz _
    refine ⟨_, e, ?_⟩
    unfold State.earlyRelease
    rw [hc, hp]
    dsimp only
    rw [if_pos (by simp [hd, hop])]
    refine ⟨?_, ?_, rfl, rfl⟩
    · rw [State.modAtt, State.modCmd, State.part_modJob, State.part_modPart_self]
      refine Part.holder_releaseList _ _ _ _ (Or.inr (List.mem_map.mpr ⟨i, List.mem_filter.mpr ⟨List.mem_range.mpr hi, ?_⟩, rfl⟩))
      simp [hsem, hdone]
    · exact State.phase_modAtt (s := s.modPart _ _) hc

/-! ### Timeouts -/

theorem Job.next?_waiting {j : Job} {c : Cmd} {rest : List Cmd} (h : j.cmds = c :: rest) (hp : c.phase = .waiting) :
    j.next? = some ([], c) := by
  have hd : c.dispatched = false := by rw [Cmd.dispatched, hp]
  have hf : c.failed = false := by rw [Cmd.failed, hp]
  simp [Job.next?, h, hd, hf]

/-- A condition that does not hold is one that the header names. -/
theorem Part.waits_of_not_ready {p : Part} {d : Desc} (h : p.semsReady d = false) : (d.semsOf 1 ++ d.semsOf 2).isEmpty = false := by
  cases e : (d.semsOf 1 ++ d.semsOf 2).isEmpty with
  | false => rfl
  | true =>
    rw [List.isEmpty_iff, List.append_eq_nil_iff] at e
    rw [Part.semsReady, e.1, e.2] at h
    cases h

/-- The oldest command fails, its page but for its commands as before: the queue halts with the code. -/
theorem State.failCmd_halts {u : State} {q : Page} {c d : Cmd} {rest : List Cmd} (code detail : Nat) (hu : (u.job q).cmds = d :: rest)
    (hd : d.slot = c.slot) (hr : rest.all (fun x => x.slot != c.slot) = true) (hf : (u.job q).cqFull = false) (hc : code ≠ errReset) :
    ((u.failCmd q c.slot code detail).job q).halted = true ∧ ((u.failCmd q c.slot code detail).job q).haltCode = code := by
  have e := State.job_failCmd_oldest (s := u) (q := q) (c := d) (rest := rest) code detail hu (by rw [hd]; exact hr) hf hc
  rw [hd] at e
  obtain ⟨_, hh, hcode, _⟩ := Job.offSlice_fields e
  exact ⟨hh, hcode⟩

/-- The command with the race of an arrival that did not win the arbiter. -/
def State.unraced (s : State) (q : Page) (slot : Nat) : State := s.modCmd q slot fun c => { c with race := c.race || false }

/-- The arbiter grants the timer: the command fails. -/
theorem State.arbiter_timer (s : State) (q : Page) (slot code : Nat) :
    s.arbiter q slot ⟨true, false⟩ code = (s.unraced q slot).failCmd q slot code 0xFFFF := by
  unfold State.arbiter
  extract_lets t u
  rw [if_pos rfl]
  exact congrArg (fun x : State => x.failCmd q slot code 0xFFFF) (rfl : u = t)

theorem State.job_unraced {s : State} {q : Page} {c : Cmd} {rest : List Cmd} (h : (s.job q).cmds = c :: rest)
    (hr : rest.all (fun x => x.slot != c.slot) = true) :
    ((s.unraced q c.slot).job q).cmds = { c with race := c.race || false } :: rest
      ∧ ((s.unraced q c.slot).job q).cqFull = (s.job q).cqFull := by
  rw [State.unraced, State.modCmd, State.job_modJob_self]
  exact ⟨Job.modCmd_head _ h hr, rfl⟩

theorem State.semTimeout_timer {s : State} {q : Page} {c : Cmd} {rest : List Cmd} (h : (s.job q).cmds = c :: rest)
    (hp : c.phase = .waiting) (hn : (s.part (pageFn q)).semsReady c.desc = false) (hh : (s.job q).halted = false)
    (he : (s.job q).enable = true) : s.semTimeout q ⟨true, false⟩ = s.arbiter q c.slot ⟨true, false⟩ 0x0502 := by
  unfold State.semTimeout
  dsimp only
  rw [Job.next?_waiting h hp]
  dsimp only
  rw [hn, if_neg (by simp [Part.waits_of_not_ready hn, hh, he])]

/-- Settles O14: the timer wins, and the command is the oldest of its queue. -/
theorem timeoutsFailTheCommand : Obligations.TimeoutsFailTheCommand := by
  unfold Obligations.TimeoutsFailTheCommand
  intro s q c rest hz h hr hf hh he
  refine ⟨fun hp hn => ?_, fun hp hhold hun => ?_⟩
  · obtain ⟨hc, hq⟩ := State.job_unraced h hr
    refine ⟨_, (next_live hz _ : exec (.semaphoreTimeout q ⟨true, false⟩) s = .next (s.semTimeout q ⟨true, false⟩)), ?_⟩
    beta_reduce
    rw [State.semTimeout_timer h hp hn hh he, State.arbiter_timer]
    exact State.failCmd_halts _ _ hc rfl hr (hq.trans hf) (by decide)
  · have e : ∃ u : State, u.job q = s.job q ∧ s.linkTimeout q c.slot ⟨true, false⟩ = u.failCmd q c.slot 0x0503 0xFFFF := by
      unfold State.linkTimeout
      rw [State.cmd?_head h]
      dsimp only
      rw [if_neg (by simp [hp, hhold]), if_pos rfl, if_neg (by simp [hun])]
      refine ⟨_, State.job_foldl (fun t a => ?_) .., rfl⟩
      rfl
    obtain ⟨u, hu, e⟩ := e
    refine ⟨_, (next_live hz _ : exec (.linkArrivalTimeout q c.slot ⟨true, false⟩) s
      = .next (s.linkTimeout q c.slot ⟨true, false⟩)), ?_⟩
    beta_reduce
    rw [e]
    exact State.failCmd_halts (d := c) (rest := rest) _ _ (hu ▸ h) rfl hr (hu ▸ hf) (by decide)

end Sys2Proof.Machine
end

section
/-! PROOFS. What queues, faults and frames leave of the device: its registers and its freeze. -/

namespace Sys2Proof.Machine

/-- The device apart from its halls, functions, partitions, queues and memory, and from what leaves it. -/
def State.device (s : State) : State :=
  { s with halls := [], fns := [], parts := [], jobs := [], host := [], free := 0, chainOut := [], msixOut := [], exchOut := [] }

/-- Operations of queues, faults and frames, which leave the device's own registers. -/
def SameDevice (s t : State) : Prop := t.device = s.device

namespace SameDevice

variable {s t u : State}

theorem refl (s : State) : SameDevice s s := rfl

theorem trans (a : SameDevice s t) (b : SameDevice t u) : SameDevice s u := Eq.trans b a

theorem of_eq (h : SameDevice s t) (e : u.device = t.device) : SameDevice s u := e.trans h

theorem foldl {α : Type} {f : State → α → State} (h : SameDevice s t) (hf : ∀ t a, SameDevice s t → SameDevice s (f t a))
    (l : List α) : SameDevice s (l.foldl f t) := by
  induction l generalizing t with
  | nil => exact h
  | cons a l ih => exact ih (hf t a h)

theorem ite {c : Prop} [Decidable c] (ht : SameDevice s t) (hu : SameDevice s u) : SameDevice s (if c then t else u) := by
  split
  · exact ht
  · exact hu

theorem modHall (h : SameDevice s t) (k : Nat) (f : Hall → Hall) : SameDevice s (t.modHall k f) := h.of_eq rfl
theorem modHJob (h : SameDevice s t) (k j : Nat) (f : HJob → HJob) : SameDevice s (t.modHJob k j f) := h.of_eq rfl
theorem modPort (h : SameDevice s t) (k i : Nat) (f : Port → Port) : SameDevice s (t.modPort k i f) := h.of_eq rfl
theorem modPart (h : SameDevice s t) (v : Nat) (f : Part → Part) : SameDevice s (t.modPart v f) := h.of_eq rfl
theorem modJob (h : SameDevice s t) (q : Page) (f : Job → Job) : SameDevice s (t.modJob q f) := h.of_eq rfl
theorem modCmd (h : SameDevice s t) (q : Page) (slot : Nat) (f : Cmd → Cmd) : SameDevice s (t.modCmd q slot f) := h.of_eq rfl
theorem log (h : SameDevice s t) (k : Nat) (e : LogEnt) : SameDevice s (t.log k e) := h.of_eq rfl

/-- What the operations on queues leave alone holds the device. -/
theorem queue (h : SameDevice s t) (f : QueueFrame t u) : SameDevice s u := h.of_eq (congrArg State.device f.rest :)

theorem failCmd (h : SameDevice s t) (q : Page) (slot code detail : Nat) : SameDevice s (t.failCmd q slot code detail) :=
  h.queue ((QueueFrame.refl t).failCmd ..)
theorem killCmd (h : SameDevice s t) (q : Page) (slot : Nat) (fault : Bool) : SameDevice s (t.killCmd q slot fault) :=
  h.queue ((QueueFrame.refl t).killCmd ..)
theorem fetchAll (h : SameDevice s t) (q : Page) : SameDevice s (t.fetchAll q) := h.queue ((QueueFrame.refl t).fetchAll ..)

theorem emitChain (h : SameDevice s t) (f : ChainFrame) : SameDevice s (t.emitChain f) := by
  unfold State.emitChain
  split
  · exact h
  · exact h
  · exact h.of_eq rfl

theorem notify (h : SameDevice s t) (what hall : Nat) : SameDevice s (t.notify what hall) := h.emitChain _

theorem enqueue (h : SameDevice s t) (fs : List Frame) : SameDevice s (t.enqueue fs) := by
  unfold State.enqueue
  exact h.foldl (fun _ _ h => h.modPort ..) _

theorem sendDigest (h : SameDevice s t) (v : Fn) (job : Nat) (b : DBody) : SameDevice s (t.sendDigest v job b) := by
  unfold State.sendDigest
  split
  · exact h
  · exact ((h.enqueue _).modPart ..).modPart ..

theorem pausePairs (h : SameDevice s t) : SameDevice s t.pausePairs :=
  h.foldl (fun _ _ h => ite (h.sendDigest ..) h) _

theorem abortLoads (h : SameDevice s t) : SameDevice s t.abortLoads := by
  unfold State.abortLoads
  refine h.foldl (fun _ _ h => h.foldl (fun _ _ h => h.foldl (fun _ _ h => ite ?_ h) _) _) _
  exact h.failCmd ..

end SameDevice

/-! ### A freeze -/

/-- The state without its halls and the chain's output: what a log entry and a NOTIFY change. -/
def State.offLogs (s : State) : State := { s with halls := [], chainOut := [] }

/-- And without the sideband's own records. -/
def State.offSideband (s : State) : State := { s.offLogs with sbNext := 0, sbSeen := [], frzOrigin := false }

theorem State.offLogs_sbFlood (s : State) (f : Frame) (skip : Option (Nat × Nat)) : (s.sbFlood f skip).offLogs = s.offLogs := by
  refine List.foldl_keeps State.offLogs (fun t p => ?_) ..
  unfold State.sbSend
  split <;> rfl

theorem State.offLogs_noteFreeze (s : State) (kind what : Nat) : (s.noteFreeze kind what).offLogs = s.offLogs := by
  have e : (s.present.foldl (fun s h => s.log h (LogEnt.of kind 0)) s).offLogs = s.offLogs :=
    by
    refine List.foldl_keeps State.offLogs (fun t k => ?_) _ s
    rfl
  unfold State.noteFreeze State.notify State.emitChain
  split
  · exact e
  · exact e
  · exact e

theorem State.offSideband_sbOrigin (s : State) (op : Nat) : (s.sbOrigin op).offSideband = s.offSideband := by
  unfold State.sbOrigin
  split
  · extract_lets f
    have e := State.offLogs_sbFlood ({ s with sbNext := s.sbNext + 1 }.sbTake f) f none
    generalize State.sbFlood _ f none = t at e
    exact (congrArg State.offSideband e :)
  · rfl

/-- The part of a freeze's start that follows the sideband's frames. -/
def State.beginFreeze (s : State) (src : Nat) (landing : Bool) : State :=
  if s.freezing then { s with frzLanding := s.frzLanding || landing }
  else { s.pausePairs with holding := true, frzSource := src, frzLanding := landing, frzCount := min 255 (s.pausePairs.frzCount + 1) }

theorem State.startFreeze_eq (s : State) (src : Nat) (landing : Bool) : s.startFreeze src landing =
    (if landing && src != srcSide then { s.sbOrigin 1 with frzOrigin := s.frzOrigin || s.chainValid } else s).beginFreeze src landing := rfl

/-- A freeze that begins changes these fields of the device. -/
theorem State.beginFreeze_device {s : State} (hz : s.freezing = false) (src : Nat) (landing : Bool) :
    (s.beginFreeze src landing).device
      = { s.device with holding := true, frzSource := src, frzLanding := landing, frzCount := min 255 (s.frzCount + 1) } := by
  have hp : s.pausePairs.device = s.device := (SameDevice.refl s).pausePairs
  unfold State.beginFreeze
  rw [if_neg (by simp [hz])]
  generalize s.pausePairs = t at hp
  have hc : t.frzCount = s.frzCount := (congrArg State.frzCount hp :)
  rw [hc, ← hp]
  rfl

/-- The device without the sideband's records. -/
def State.offSends (s : State) : State := { s.device with sbNext := 0, sbSeen := [], frzOrigin := false }

/-- A source that begins a freeze holds the handshakes, and the freeze is counted. -/
theorem State.startFreeze_offSends {s : State} (hz : s.freezing = false) (src : Nat) (landing : Bool) :
    (s.startFreeze src landing).offSends
      = { s.offSends with holding := true, frzSource := src, frzLanding := landing, frzCount := min 255 (s.frzCount + 1) } := by
  rw [State.startFreeze_eq]
  split
  · have e := State.offSideband_sbOrigin s 1
    generalize s.sbOrigin 1 = t at e
    have d : t.device.offSends = s.device.offSends := (congrArg State.offSends e :)
    have hf : ({ t with frzOrigin := s.frzOrigin || s.chainValid } : State).freezing = false := (congrArg State.freezing e :).trans hz
    have hc : t.frzCount = s.frzCount := (congrArg State.frzCount e :)
    have b := congrArg State.offSends (State.beginFreeze_device hf src landing)
    rw [← hc]
    exact b.trans (congrArg (fun x : State =>
      { x with holding := true, frzSource := src, frzLanding := landing, frzCount := min 255 (t.frzCount + 1) }) d)
  · exact (congrArg State.offSends (State.beginFreeze_device hz src landing) :)

/-- Every page's registers stand. -/
theorem PageFrame.regs {q : Page} {s t : State} (h : PageFrame q s t) (k : Page) : (t.job k).regs = (s.job k).regs := by
  by_cases hk : k = q
  · rw [hk]; exact h.own
  · exact (congrArg Job.regs (h.others k hk) :)

/-- With nothing recorded, a replay fetches on every page. -/
theorem State.replay_nil {s : State} (h : s.held = []) :
    SameDevice s s.replay ∧ ∀ k, (s.replay.job k).regs = (s.job k).regs := by
  unfold State.replay
  rw [h, List.foldl_nil]
  refine ⟨?_, fun k => List.foldl_keeps (fun s : State => (s.job k).regs) (fun t q => ((PageFrame.refl t).fetchAll (q := q)).regs k) ..⟩
  refine SameDevice.foldl (SameDevice.of_eq (.refl s) ?_) (fun _ _ h => h.fetchAll _) _
  obtain ⟨⟩ := s
  subst h
  rfl

/-- No source is left: the freeze is over, and what was recorded takes effect. -/
theorem State.thawed_eq {s : State} (hz : s.freezing = true) (hpin : s.byPin = false) (hport : s.byPorter = false) (hside : s.bySide = []) :
    ∃ u : State, u.offSideband = s.offSideband
      ∧ s.thawed = { u with frozen := false, holding := false, frzSource := 0, frzLanding := false, frzOrigin := false }.replay := by
  unfold State.thawed
  rw [if_pos (by simp [hz, hpin, hport, hside])]
  refine ⟨_, ?_, rfl⟩
  have e : (s.noteFreeze 0x10 5).offSideband = s.offSideband := (congrArg State.offSideband (s.offLogs_noteFreeze 0x10 5) :)
  split
  · exact (State.offSideband_sbOrigin ..).trans e
  · exact e

end Sys2Proof.Machine
end

section
/-! PROOFS. Freezes and the sideband. -/

namespace Sys2Proof.Machine

theorem State.freezing_of_held {s : State} (h : s.holding = true) : s.freezing = true := by simp [State.freezing, h]

/-- The last source ends: the freeze is over, and with nothing recorded the device's registers are as they were. -/
theorem State.thawed_idle {s : State} (hz : s.freezing = true) (hpin : s.byPin = false) (hport : s.byPorter = false) (hside : s.bySide = [])
    (hh : s.held = []) : s.thawed.offSends
      = { s.offSends with frozen := false, holding := false, frzSource := 0, frzLanding := false } := by
  obtain ⟨u, hu, e⟩ := State.thawed_eq hz hpin hport hside
  have hh' : u.held = [] := (congrArg State.held hu :).trans hh
  have hr := (State.replay_nil (s := { u with frozen := false, holding := false, frzSource := 0, frzLanding := false, frzOrigin := false }) hh').1
  rw [← e] at hr
  generalize s.thawed = t at hr
  refine (congrArg State.offSends hr :).trans ?_
  exact (congrArg (fun x : State => { x.offSends with frozen := false, holding := false, frzSource := 0, frzLanding := false }) hu :)

theorem areaOf_pageOff {q : Nat} (hq : q < 128) {off : Nat} (ho : off < 0x1000) : areaOf (pageOff q off) = .page q off := by
  unfold areaOf pageOff
  rw [if_neg (by omega), if_neg (by omega), if_neg (by omega), if_neg (by omega), if_neg (by omega), if_pos (by omega)]
  have page : (0x0900000 + q * 0x1000 + off - 0x900000) / 0x1000 = q := by omega
  have reg : (0x0900000 + q * 0x1000 + off) % 0x1000 = off := by omega
  rw [page, reg]

theorem State.writeRest_tail (s : State) {q : Page} (hq : q < 128) (v : Word) :
    s.writeRest (pageFn q) (pageOff q 0) v = s.writeTail (pageFn q) q v := by
  unfold State.writeRest
  rw [areaOf_pageOff hq (by decide)]
  dsimp only
  unfold State.writePage
  dsimp only
  rw [if_neg (by decide), if_neg (by simp)]
  rfl

/-- A tail below the ring size, of a device that is not in a freeze. -/
theorem State.writeTail_live {s : State} {q : Page} (hz : s.freezing = false) {v : Word} (hv : v.toNat < (s.job q).sqSize) :
    SameDevice s (s.writeTail (pageFn q) q v) ∧ ((s.writeTail (pageFn q) q v).job q).sqTail = v.toNat
      ∧ ((s.writeTail (pageFn q) q v).job q).sqSize = (s.job q).sqSize := by
  unfold State.writeTail
  rw [if_neg (by simp [hv]), if_neg (by simp [hz])]
  have f := (PageFrame.refl (q := q) (s.modJob q fun j => { j with sqTail := v.toNat })).fetchAll
  refine ⟨((SameDevice.refl s).modJob ..).fetchAll _, f.sqTail.trans ?_, (congrArg Job.sqSize f.own :).trans ?_⟩
  · rw [State.job_modJob_self]
  · rw [State.job_modJob_self]; rfl

/-- Two tails that a freeze recorded take effect in their order. -/
theorem State.replay_tails {s : State} {q : Page} (hq : q < 128) (hz : s.freezing = false) {v w : Word}
    (hv : v.toNat < (s.job q).sqSize) (hw : w.toNat < (s.job q).sqSize)
    (hh : s.held = [(pageFn q, pageOff q 0, v), (pageFn q, pageOff q 0, w)]) :
    s.replay.device = { s.device with held := [] } ∧ (s.replay.job q).sqTail = w.toNat := by
  unfold State.replay
  rw [hh, List.foldl_cons, List.foldl_cons, List.foldl_nil, State.writeRest_tail _ hq, State.writeRest_tail _ hq]
  have a := State.writeTail_live (s := { s with held := [] }) hz hv
  generalize State.writeTail _ (pageFn q) q v = t at a
  obtain ⟨a1, -, a3⟩ := a
  have hz' : t.freezing = false := (congrArg State.freezing a1 :).trans hz
  have b := State.writeTail_live hz' (v := w) (by rw [a3]; exact hw)
  generalize State.writeTail t (pageFn q) q w = u at b
  obtain ⟨b1, b2, -⟩ := b
  refine ⟨(SameDevice.foldl (a1.trans b1) (fun _ _ h => h.fetchAll _) _ :), ?_⟩
  refine Eq.trans (List.foldl_keeps (fun s : State => (s.job q).sqTail) (fun t k => ?_) ..) b2
  exact (congrArg Job.sqTail (((PageFrame.refl t).fetchAll (q := k)).regs q) :)

theorem State.thawed_tails {s : State} {q : Page} (hq : q < 128) (hz : s.freezing = true) (hpin : s.byPin = false)
    (hport : s.byPorter = false) (hside : s.bySide = []) {v w : Word}
    (hv : v.toNat < (s.job q).sqSize) (hw : w.toNat < (s.job q).sqSize)
    (hh : s.held = [(pageFn q, pageOff q 0, v), (pageFn q, pageOff q 0, w)]) :
    s.thawed.freezing = false ∧ s.thawed.held = [] ∧ (s.thawed.job q).sqTail = w.toNat := by
  obtain ⟨u, hu, e⟩ := State.thawed_eq hz hpin hport hside
  have hj : u.job q = s.job q := State.job_of_jobs (congrArg State.jobs hu :) q
  obtain ⟨d, ht⟩ := State.replay_tails (s := { u with frozen := false, holding := false, frzSource := 0, frzLanding := false, frzOrigin := false })
    hq rfl (hj ▸ hv) (hj ▸ hw) ((congrArg State.held hu :).trans hh)
  rw [← e] at d ht
  exact ⟨(congrArg State.freezing d :), (congrArg State.held d :), ht⟩

theorem freezeWord_bits : ∀ freeze thaw scope pinScope sbAccept : Bool, let v := freezeWord freeze thaw scope pinScope sbAccept
    v.getLsbD 0 = freeze ∧ v.getLsbD 1 = thaw ∧ v.getLsbD 2 = scope ∧ v.getLsbD 3 = pinScope ∧ v.getLsbD 4 = sbAccept := by
  decide

/-- The state with the enables of PRT_FREEZE_CTRL. -/
def State.scoped (s : State) (scope pinScope sbAccept : Bool) : State :=
  { s with scope := scope, pinScope := pinScope, sbAccept := sbAccept }

theorem State.writeFreeze_freeze (s : State) (scope pinScope sbAccept : Bool) :
    s.writeFreeze 0 (freezeWord true false scope pinScope sbAccept)
      = { s.scoped scope pinScope sbAccept with byPorter := true }.startFreeze srcPorter scope := by
  obtain ⟨h0, h1, h2, h3, h4⟩ := freezeWord_bits true false scope pinScope sbAccept
  unfold State.writeFreeze
  rw [if_neg (by simp)]
  dsimp only
  rw [h0, h2, h3, h4]
  rfl

theorem State.writeFreeze_thaw {s : State} (h : s.pinLow = false) (scope pinScope sbAccept : Bool) :
    s.writeFreeze 0 (freezeWord false true scope pinScope sbAccept)
      = { s.scoped scope pinScope sbAccept with byPorter := false, bySide := [] }.thawed := by
  obtain ⟨h0, h1, h2, h3, h4⟩ := freezeWord_bits false true scope pinScope sbAccept
  unfold State.writeFreeze
  rw [if_neg (by simp)]
  dsimp only
  rw [h0, h1, h2, h3, h4, if_neg Bool.false_ne_true, if_pos (c := (true && !s.pinLow) = true) (by rw [h]; rfl)]
  rfl

/-- The physical function alone may write PRT_FREEZE_CTRL. -/
theorem State.writeFreeze_other (s : State) {f : Fn} (hf : f ≠ 0) (v : Word) : s.writeFreeze f v = s.accessErr f := by
  unfold State.writeFreeze
  rw [if_pos hf]

/-- Settles O50: recorded tails are replayed in order, and each source starts and ends a freeze by the two lemmas above. -/
theorem freezesStartAndEnd : Obligations.FreezesStartAndEnd := by
  unfold Obligations.FreezesStartAndEnd
  refine ⟨fun s q sc psc sba v w hq hz hv hw => ⟨?_, fun hh => ⟨fun hpin hlow => ?_, fun hport hside => ?_⟩⟩,
    fun s f sc psc sba => ⟨fun hz => ?_, fun hf => ⟨?_, ?_⟩, fun hz hd => ?_, fun hh => ?_,
      fun hz hheld => ⟨fun hpin hlow => ?_, fun hport hside => ?_⟩⟩⟩
  · change Host.Outcome.next (State.writeTail s (pageFn q) q v) = _
    unfold State.writeTail
    rw [if_neg (by simp [hv]), if_pos hz]
    rfl
  · refine ⟨_, congrArg Host.Outcome.next (State.writeFreeze_thaw hlow sc psc sba), ?_⟩
    exact State.thawed_tails (s := { s.scoped sc psc sba with byPorter := false, bySide := [] }) hq hz hpin rfl rfl hv hw hh
  · exact ⟨_, rfl, State.thawed_tails (s := { s with pinLow := false, byPin := false }) hq hz rfl hport hside hv hw hh⟩
  · have e := State.startFreeze_offSends (s := { s.scoped sc psc sba with byPorter := true }) hz srcPorter sc
    refine ⟨_, congrArg Host.Outcome.next (State.writeFreeze_freeze s sc psc sba), ?_⟩
    generalize State.startFreeze _ srcPorter sc = t at e
    exact ⟨(congrArg State.holding e :), (congrArg State.frzSource e :), (congrArg State.frzLanding e :),
      (congrArg State.byPorter e :), (congrArg State.frzCount e :),
      (congrArg (fun x : State => (x.scope, x.pinScope, x.sbAccept)) e :)⟩
  · exact congrArg Host.Outcome.next (s.writeFreeze_other hf _)
  · exact congrArg Host.Outcome.next (s.writeFreeze_other hf _)
  · have e := State.startFreeze_offSends (s := { s with pinLow := true, byPin := true }) hz srcPin s.pinScope
    refine ⟨State.startFreeze { s with pinLow := true, byPin := true } srcPin s.pinScope,
      congrArg Host.Outcome.next (?_ : s.pinFall = _), ?_⟩
    · unfold State.pinFall
      dsimp only
      rw [if_pos hd]
    · generalize State.startFreeze _ srcPin s.pinScope = t at e
      exact ⟨(congrArg State.holding e :), (congrArg State.frzSource e :), (congrArg State.byPin e :), (congrArg State.pinLow e :)⟩
  · have e := State.offLogs_noteFreeze { s with holding := false, frozen := true } 0x0F 4
    refine ⟨State.noteFreeze { s with holding := false, frozen := true } 0x0F 4,
      congrArg Host.Outcome.next (?_ : s.freezeHeld = _), ?_⟩
    · unfold State.freezeHeld
      rw [if_pos hh]
    · generalize State.noteFreeze _ 0x0F 4 = t at e
      exact ⟨(congrArg State.frozen e :), (congrArg State.holding e :), (congrArg State.frzSource e :), (congrArg State.jobs e :)⟩
  · have e := State.thawed_idle (s := { s.scoped sc psc sba with byPorter := false, bySide := [] }) hz hpin rfl rfl hheld
    refine ⟨_, congrArg Host.Outcome.next (State.writeFreeze_thaw hlow sc psc sba), ?_⟩
    generalize State.thawed _ = t at e
    exact ⟨(congrArg State.frozen e :), (congrArg State.holding e :), (congrArg State.byPorter e :), (congrArg State.bySide e :),
      (congrArg State.frzSource e :)⟩
  · have e := State.thawed_idle (s := { s with pinLow := false, byPin := false }) hz rfl hport hside hheld
    refine ⟨_, rfl, ?_⟩
    generalize State.thawed _ = t at e
    exact ⟨(congrArg State.frozen e :), (congrArg State.holding e :), (congrArg State.pinLow e :), (congrArg State.frzSource e :)⟩

end Sys2Proof.Machine
end

section
/-! PROOFS. Sideband frames, the cabling check, idle steps and key commands. -/

namespace Sys2Proof.Machine

/-! ### Changes of halls, one after the other -/

/-- Halls of a list without repeats, each changed in its turn. -/
theorem State.hall_foldl {F : State → Nat → State} {f : Nat → Hall → Hall}
    (hF : ∀ t h k, (F t h).hall k = if k = h then f h (t.hall h) else t.hall k) {l : List Nat} (hl : l.Nodup) (s : State) (k : Nat) :
    (l.foldl F s).hall k = if k ∈ l then f k (s.hall k) else s.hall k := by
  induction l generalizing s with
  | nil => simp
  | cons h l ih =>
    obtain ⟨hh, hl⟩ := List.nodup_cons.mp hl
    rw [List.foldl_cons, ih hl, hF]
    by_cases hk : k = h
    · subst hk
      simp [hh]
    · simp [hk]

theorem State.hall_foldl_modHall (f : Nat → Hall → Hall) {l : List Nat} (hl : l.Nodup) (s : State) (k : Nat) :
    (l.foldl (fun s h => s.modHall h (f h)) s).hall k = if k ∈ l then f k (s.hall k) else s.hall k :=
  State.hall_foldl (fun t h k => t.hall_modHall h k (f h)) hl s k

/-! ### The sideband -/

theorem frameOk_sealFrame (f : Frame) : frameOk (sealFrame f) = true := by
  rw [frameOk, beq_iff_eq]
  rfl

theorem State.port_modPort_self (s : State) (h i : Nat) (f : Port → Port) :
    ((s.modPort h i f).hall h).port i = f ((s.hall h).port i) := by
  rw [State.modPort, State.hall_modHall_self, Hall.port_putPort, if_pos rfl]

/-- The number of a port names its site. -/
theorem portSite_portNum {h i : Nat} (hh : h < 8) (hi : i < 5) : portSite (portNum h i) = (h, i) := by
  unfold portSite portNum
  split
  · rw [if_pos (by omega)]
    exact Prod.ext_iff.mpr ⟨by dsimp only; omega, by dsimp only; omega⟩
  · rw [if_neg (by omega)]
    exact Prod.ext_iff.mpr ⟨by dsimp only; omega, by dsimp only; omega⟩

theorem portNum_range {h i : Nat} (hh : h < 8) (hi : i < 5) : portNum h i < 24 ∨ (32 ≤ portNum h i ∧ portNum h i < 48) := by
  unfold portNum
  split <;> omega

theorem State.sbPass_first {s : State} {h i op : Nat} {f : Frame} (hv : s.chainValid = true) (hd : f.dest = landingDest s.chainAddr.toNat)
    (hn : s.sbDup f = false) (hg : s.sbGood h i op f = true) :
    ∃ u : State, s.sbPass h i op f = some u ∧ u.offLogs = (s.sbTake f).offLogs := by
  refine ⟨_, ?_, State.offLogs_sbFlood (s.sbTake f) f (some (h, i))⟩
  rw [State.sbPass, if_pos (by simp [hg, hv, hd, hn])]

/-- A sideband freeze begins: no frame of this device's own leaves it. -/
theorem State.startFreeze_side {s : State} (hz : s.freezing = false) : (s.startFreeze srcSide true).device
    = { s.device with holding := true, frzSource := srcSide, frzLanding := true, frzCount := min 255 (s.frzCount + 1) } := by
  rw [State.startFreeze_eq, if_neg (by decide)]
  exact State.beginFreeze_device hz srcSide true

/-- The state once GO has asked on a port. -/
def State.asked (s : State) (port : BitVec 6) : State :=
  { s with echoPort := port, echoAsk := port, echoBusy := true, echoDone := false, echoTimeout := false, sbNext := s.sbNext + 1 }

/-- GO on a port that carries frames sends the request three times. -/
theorem State.writeEcho_go {s : State} {h i : Nat} {port : BitVec 6} (hz : s.freezing = false) (hp : portNum h i = port.toNat)
    (hh : h < 8) (hi : i < 5) (hu : ((s.hall h).port i).usable = true) :
    s.writeEcho 0 port true = (s.asked port).modPort h i fun p =>
      let f := sbFrame 0x10 0 (s.rank h) (s.sbNext % 2 ^ 32)
      ((p.emit f).emit f).emit f := by
  have hsite : portSite port.toNat = (h, i) := by rw [← hp, portSite_portNum hh hi]
  unfold State.writeEcho
  rw [if_neg (by simp), if_neg (by simp [hz])]
  dsimp only
  rw [if_pos rfl, if_pos (hp ▸ portNum_range hh hi), hsite]
  unfold State.sbSend
  exact if_pos hu

/-- The answer to a request on a port. -/
def State.echoFrame (s : State) (h i : Nat) : Frame :=
  { sbFrame 0x11 0 (s.rank h) (s.sbNext % 2 ^ 32) with hopIdx := portNum h i + 32768 * b2n (!s.chainValid) }

theorem State.echoAnswer_good {s : State} {h i : Nat} {f : Frame} (hg : s.sbGood h i 0x10 f = true) :
    s.echoAnswer h i f = { s with sbNext := s.sbNext + 1 }.modPort h i (·.emit (s.echoFrame h i)) := by
  unfold State.echoAnswer
  exact if_pos hg

/-- Settles O39: the first copy starts or ends a freeze, and the frames of the cabling check act on the state's own record of it. -/
theorem sidebandFramesAct : Obligations.SidebandFramesAct := by
  unfold Obligations.SidebandFramesAct
  refine ⟨fun s h i f hv hd hn => ⟨fun hg ha hz => ?_, fun hg ha => ?_, fun hg hz hpin hport hside hheld => ?_⟩,
    fun s h i f port => ⟨fun hz hp hh hi hu => ?_, fun hg => ?_, fun hg hb hp => ?_, fun hb => ?_⟩⟩
  · obtain ⟨u, hp, hu⟩ := State.sbPass_first hv hd hn hg
    have ha' : u.sbAccept = true := (congrArg State.sbAccept hu :).trans ha
    have e : s.sbFreeze h i f = State.startFreeze { u with
        bySide := if u.bySide.contains (rankChain f.src) then u.bySide else u.bySide ++ [rankChain f.src] } srcSide true := by
      unfold State.sbFreeze
      rw [hp]
      dsimp only
      rw [if_pos ha']
    have hc : u.frzCount = s.frzCount := (congrArg State.frzCount hu :)
    have hs : u.sbSeen = (s.sbTake f).sbSeen := (congrArg State.sbSeen hu :)
    have d := State.startFreeze_side (s := { u with
        bySide := if u.bySide.contains (rankChain f.src) then u.bySide else u.bySide ++ [rankChain f.src] })
      ((congrArg State.freezing hu :).trans hz)
    refine ⟨_, congrArg Host.Outcome.next e, ?_⟩
    generalize State.startFreeze _ srcSide true = t at d
    refine ⟨(congrArg State.holding d :), (congrArg State.frzSource d :), (congrArg State.frzLanding d :), ?_, ?_, ?_⟩
    · have b : t.bySide = _ := (congrArg State.bySide d :)
      rw [b]
      by_cases hx : u.bySide.contains (rankChain f.src) = true
      · change rankChain f.src ∈ (if u.bySide.contains (rankChain f.src) then u.bySide else u.bySide ++ [rankChain f.src])
        rw [if_pos hx]
        simpa using hx
      · change rankChain f.src ∈ (if u.bySide.contains (rankChain f.src) then u.bySide else u.bySide ++ [rankChain f.src])
        rw [if_neg hx]
        simp
    · exact (congrArg State.frzCount d :).trans (congrArg (fun n => min 255 (n + 1)) hc)
    · have b : t.sbSeen = u.sbSeen := (congrArg State.sbSeen d :)
      rw [b, hs]
      exact List.mem_cons_self
  · obtain ⟨u, hp, hu⟩ := State.sbPass_first hv hd hn hg
    have ha' : u.sbAccept = false := (congrArg State.sbAccept hu :).trans ha
    have e : s.sbFreeze h i f = u := by
      unfold State.sbFreeze
      rw [hp]
      dsimp only
      rw [if_neg (by rw [ha']; exact Bool.false_ne_true)]
    exact ⟨u, congrArg Host.Outcome.next e, (congrArg State.freezing hu :), (congrArg State.bySide hu :)⟩
  · obtain ⟨u, hp, hu⟩ := State.sbPass_first hv hd hn hg
    have e : s.sbThaw h i f = State.thawed { u with bySide := u.bySide.filter (· != rankChain f.src) } := by
      unfold State.sbThaw
      rw [hp]
    have hb : u.bySide.filter (· != rankChain f.src) = [] := by
      have hs : u.bySide = [rankChain f.src] := (congrArg State.bySide hu :).trans hside
      simp [hs]
    have d := State.thawed_idle (s := { u with bySide := u.bySide.filter (· != rankChain f.src) })
      ((congrArg State.freezing hu :).trans hz) ((congrArg State.byPin hu :).trans hpin) ((congrArg State.byPorter hu :).trans hport)
      hb ((congrArg State.held hu :).trans hheld)
    refine ⟨_, congrArg Host.Outcome.next e, ?_⟩
    generalize State.thawed _ = t at d
    exact ⟨(congrArg State.frozen d :), (congrArg State.holding d :), (congrArg State.bySide d :).trans hb, (congrArg State.frzSource d :)⟩
  · refine ⟨_, congrArg Host.Outcome.next (State.writeEcho_go hz hp hh hi hu), rfl, rfl, rfl, rfl, rfl, ?_⟩
    rw [State.port_modPort_self]
    simp only [Port.emit, List.length_append, List.length_cons, List.length_nil]
    rfl
  · refine ⟨_, sealFrame { s.echoFrame h i with ackseq := (((s.hall h).port i).rxNext + 0xFFFF) % 65536 },
      congrArg Host.Outcome.next (State.echoAnswer_good hg), ?_⟩
    rw [State.port_modPort_self]
    exact ⟨rfl, frameOk_sealFrame _, rfl, rfl, rfl⟩
  · change Host.Outcome.next (s.echoTake h i f) = _
    rw [State.echoTake, if_pos (by simp [hg, hb, hp])]
  · change Host.Outcome.next (if s.echoBusy then _ else _) = _
    rw [if_pos hb]

/-! ### Idle steps -/

theorem State.keyTick_outside (s : State) :
    s.keyTick.halls = s.halls ∧ s.keyTick.pending = s.pending ∧ s.keyTick.jobs = s.jobs := by
  have run : s.keyRun.halls = s.halls ∧ s.keyRun.pending = s.pending ∧ s.keyRun.jobs = s.jobs := by
    unfold State.keyRun
    dsimp only
    split <;> exact ⟨rfl, rfl, rfl⟩
  unfold State.keyTick
  split
  · unfold State.keyBurned
    dsimp only
    split <;> exact ⟨rfl, rfl, rfl⟩
  · split
    · exact run
    · exact ⟨rfl, rfl, rfl⟩

theorem State.holdOverruns_outside (s : State) :
    s.holdOverruns.halls = s.halls ∧ s.holdOverruns.pending = s.pending := by
  unfold State.holdOverruns
  split
  · refine ⟨List.foldl_keeps State.halls (fun t v => ?_) .., List.foldl_keeps State.pending (fun t v => ?_) ..⟩ <;> split <;> rfl
  · exact ⟨rfl, rfl⟩

theorem State.pending_raiseDomains (s : State) : s.raiseDomains.pending = s.pending := by
  unfold State.raiseDomains
  refine Eq.trans (List.foldl_keeps State.pending (fun t h => ?_) ..) ?_
  · split <;> rfl
  · split <;> rfl

theorem State.hall_raiseDomains (s : State) {h : Nat} (hh : h < 8) :
    s.raiseDomains.hall h = if (s.hall h).rises then (s.hall h).raiseOne else s.hall h := by
  unfold State.raiseDomains
  dsimp only
  rw [State.hall_foldl (f := fun _ H => if H.rises then H.raiseOne else H) (fun t h k => ?_) List.nodup_range,
    if_pos (List.mem_range.mpr hh)]
  · split <;> rfl
  · by_cases hr : (t.hall h).rises = true
    · rw [if_pos hr, if_pos hr, State.hall_modHall]
    · rw [if_neg hr, if_neg hr]
      split
      · next hk => rw [hk]
      · rfl

theorem step_idle {s : State} (hp : s.pending = []) : step s = .next (idleTick s) := by
  rw [step, hp]

/-- On every second microsecond the domains of a hall rise as the hall alone says. -/
theorem State.hall_idleTick {s : State} {h : Nat} (hh : h < 8) (ht : s.time.getLsbD 0 = true) :
    (idleTick s).hall h = if (s.hall h).rises then (s.hall h).raiseOne else s.hall h := by
  have e : s.holdOverruns.keyTick.hall h = s.hall h := by
    rw [State.hall, (State.keyTick_outside _).1, s.holdOverruns_outside.1, State.hall]
  have r := s.holdOverruns.keyTick.hall_raiseDomains hh
  rw [e] at r
  unfold idleTick
  extract_lets t u
  have hu : u = t.raiseDomains := if_pos ht
  rw [← hu] at r
  clear_value u
  exact r

/-- Settles O2: an idle step is a tick, of which the halls see the domains that rise. -/
theorem idleStepPassesTime : Obligations.IdleStepPassesTime := by
  unfold Obligations.IdleStepPassesTime
  intro s hp
  refine ⟨⟨_, step_idle hp, rfl, ?_⟩, fun hw hb hz hq => ?_, fun h hh ht h3 h9 => ⟨_, step_idle hp, ?_⟩,
    fun h hh g r ht hr hn => ⟨_, step_idle hp, ?_⟩⟩
  · have e : s.holdOverruns.keyTick.pending = [] := by
      rw [(State.keyTick_outside _).2.1, s.holdOverruns_outside.2, hp]
    unfold idleTick
    dsimp only
    split
    · rw [State.pending_raiseDomains, e]
    · exact e
  · have a : s.holdOverruns = s := by rw [State.holdOverruns, if_neg (by simp [hz])]
    have b : s.keyTick = s := by
      rw [State.keyTick, hb]
      dsimp only
      rw [if_neg (by simp [hw])]
    rw [step_idle hp]
    unfold idleTick
    rw [a, b]
    dsimp only
    rcases hq with hq | ⟨hq, hall⟩
    · rw [if_neg (by rw [hq]; exact Bool.false_ne_true)]
    · have c : s.raiseDomains = s := by
        unfold State.raiseDomains
        dsimp only
        rw [if_neg (by simp [hq])]
        refine List.foldlRecOn (motive := fun t : State => t = s) _ _ rfl fun t e h hh => ?_
        rw [e, if_neg (by simp [hall h (List.mem_range.mp hh)])]
      rw [c, ite_self]
  · have hrise : (s.hall h).rises = true := by simp [Hall.rises, h3, h9]
    rw [State.hall_idleTick hh ht, if_pos hrise, Hall.raiseOne, if_pos ⟨h3, h9⟩]
  · have hrise : (s.hall h).rises = true := by simp [Hall.rises, hr]
    rw [State.hall_idleTick hh ht, if_pos hrise, Hall.raiseOne, if_neg (by omega), hr]
    refine ⟨rfl, ?_⟩
    rw [Hall.gal_putGal, if_pos rfl]

end Sys2Proof.Machine
end

section
/-! PROOFS. Key commands, resets and start-up. -/

namespace Sys2Proof.Machine

/-! ### Key commands -/

/-- The state without the domains that rise. -/
def State.offDomains (s : State) : State := { s with halls := [], devDomains := 0 }

theorem State.offDomains_raiseDomains (s : State) : s.raiseDomains.offDomains = s.offDomains := by
  unfold State.raiseDomains
  refine Eq.trans (List.foldl_keeps State.offDomains (fun t h => ?_) ..) ?_
  · split <;> rfl
  · split <;> rfl

theorem SameDevice.holdOverruns (s : State) : SameDevice s s.holdOverruns := by
  unfold State.holdOverruns
  exact .ite (.foldl (.refl s) (fun _ _ h => .ite (h.modPart ..) h) _) (.refl s)

/-- A tick but for the domains and the time is what a key command does. -/
theorem idleTick_device (s : State) :
    (idleTick s).device.offDomains = { s.holdOverruns.keyTick.device.offDomains with time := s.time + 1 } := by
  unfold idleTick
  extract_lets t u
  have hu : u.offDomains = t.offDomains := by
    simp only [u]
    split
    · exact t.offDomains_raiseDomains
    · rfl
  have e : u.device.offDomains = t.device.offDomains := (congrArg State.device hu :)
  clear_value u
  exact (congrArg (fun x : State => { x with time := s.time + 1 }) e :)

/-- START with nothing in progress runs the command of its block. -/
theorem keyRow_zero {s : State} {op : Nat} (hop : u8 s.keyBlock 4 = op) (hz : s.freezing = false) (hl : s.anyLoading = false)
    (hb : s.keyBurn = none) : keyRow op 0 s = .next s.keyRun := by
  unfold keyRow State.writeKeyCtrl
  rw [if_neg (by simp [hop]), if_neg (by simp), if_neg (by decide), hz, if_neg (by simp), State.keyStart, hl, hb]
  rfl

/-- A burn that reads back. -/
theorem State.keyBurned_read {s : State} (b : List Byte) (h : Config.fuseOk s.keyDraws = true) :
    (s.keyBurned b).keyCode = 0 ∧ (s.keyBurned b).slots = s.slots.set (u8 b 5) ((s.keySlot (u8 b 5)).burned b) := by
  unfold State.keyBurned
  rw [if_pos h]
  exact ⟨rfl, rfl⟩

/-- A burn that does not read back. -/
theorem State.keyBurned_lost {s : State} (b : List Byte) (h : Config.fuseOk s.keyDraws = false) :
    (s.keyBurned b).keyCode = 0x0709 ∧ (s.keyBurned b).slots = s.slots.set (u8 b 5) ((s.keySlot (u8 b 5)).misburned b s.free) := by
  unfold State.keyBurned
  rw [if_neg (by simp [h])]
  exact ⟨rfl, rfl⟩

/-- Every burn ends the command. -/
theorem State.keyBurned_ends (s : State) (b : List Byte) :
    (s.keyBurned b).keyBurn = none ∧ (s.keyBurned b).keyDone = true ∧ (s.keyBurned b).keyDraws = s.keyDraws + 1 := by
  unfold State.keyBurned
  dsimp only
  split <;> exact ⟨rfl, rfl, rfl⟩

/-- A command that fails a check ends with its code. -/
theorem State.keyRun_fails {s : State} {e : Nat} (h : s.keyErr s.keyBlock = some e) :
    s.keyRun = { s with keyWait := false }.keyEnd e := by
  have h' : State.keyErr { s with keyWait := false } s.keyBlock = some e := h
  unfold State.keyRun
  dsimp only
  rw [h']

/-- One that passes them burns. -/
theorem State.keyRun_burns {s : State} (h : s.keyErr s.keyBlock = none) :
    s.keyRun = { s with keyWait := false, keyBurn := some s.keyBlock } := by
  have h' : State.keyErr { s with keyWait := false } s.keyBlock = none := h
  unfold State.keyRun
  dsimp only
  rw [h']

/-- Settles O49: the row runs the checks, and the tick ends a burn. -/
theorem keyCommandsEnd : Obligations.KeyCommandsEnd := by
  unfold Obligations.KeyCommandsEnd
  refine ⟨fun s op c hc hop hz hl hb => ?_, fun s b hp hb => ?_⟩
  · have e : exec (c 0) s = .next s.keyRun := by
      simp only [List.mem_cons, Prod.mk.injEq, List.not_mem_nil, or_false] at hc
      rcases hc with ⟨rfl, rfl⟩ | ⟨rfl, rfl⟩ | ⟨rfl, rfl⟩
      all_goals exact keyRow_zero hop hz hl hb
    cases he : s.keyErr s.keyBlock with
    | some code =>
      rw [State.keyRun_fails he] at e
      exact ⟨_, e, rfl, rfl, rfl, rfl, fun d hd => ⟨rfl, Option.some.inj hd, rfl, rfl⟩, nofun⟩
    | none =>
      rw [State.keyRun_burns he] at e
      exact ⟨_, e, rfl, rfl, rfl, rfl, nofun, fun _ => ⟨rfl, rfl⟩⟩
  · have hd := idleTick_device s
    have ho : s.holdOverruns.device = s.device := SameDevice.holdOverruns s
    refine ⟨_, step_idle hp, ?_⟩
    generalize idleTick s = t at hd
    generalize s.holdOverruns = r at ho hd
    have burn : r.keyBurn = some b := (congrArg State.keyBurn ho :).trans hb
    have draws : r.keyDraws = s.keyDraws := (congrArg State.keyDraws ho :)
    have slots : r.slots = s.slots := (congrArg State.slots ho :)
    have slot : r.keySlot (u8 b 5) = s.keySlot (u8 b 5) := by rw [State.keySlot, slots, State.keySlot]
    have hk : r.keyTick = r.keyBurned b := by rw [State.keyTick, burn]
    obtain ⟨e1, e2, e3⟩ := r.keyBurned_ends b
    have read := State.keyBurned_read (s := r) b
    have lost := State.keyBurned_lost (s := r) b
    rw [draws, slots, slot] at read lost
    rw [hk] at hd
    generalize r.keyBurned b = w at *
    refine ⟨(congrArg State.keyBurn hd :).trans e1, (congrArg State.keyDone hd :).trans e2,
      (congrArg State.keyDraws hd :).trans (e3.trans (congrArg (· + 1) draws)), fun hf => ?_, fun hf => ?_⟩
    · obtain ⟨code, sl⟩ := read hf
      exact ⟨(congrArg State.keyCode hd :).trans code, (congrArg State.slots hd :).trans sl⟩
    · obtain ⟨code, sl⟩ := lost hf
      refine ⟨(congrArg State.keyCode hd :).trans code, fun k hk => ?_⟩
      have e : t.slots = s.slots.set _ _ := (congrArg State.slots hd :).trans sl
      rw [e, List.getElem?_set_ne (Ne.symm hk)]

/-! ### Resets -/

/-- The state without a burn and what its loss draws. -/
def State.offBurn (s : State) : State := { s with keyBurn := none, slots := [], free := 0 }

theorem State.offBurn_loseBurn (s : State) : s.loseBurn.offBurn = s.offBurn := by
  unfold State.loseBurn
  split <;> rfl

theorem State.loseBurn_none {s : State} (h : s.keyBurn = none) : s.loseBurn = s := by rw [State.loseBurn, h]

/-- The state without the stage of the start and what it sets. -/
def State.offStage (s : State) : State := { s with chainStage := .held, devDomains := 0, target := 0 }

theorem State.offStage_begin (s : State) : s.begin.offStage = s.offStage := by
  unfold State.begin
  split <;> rfl

/-- What a reset leaves of the device: halls, jobs and partitions at their reset values, fuses and host memory as they were. -/
def Fresh (s t : State) : Prop :=
  t.halls = State.reset.halls ∧ t.jobs = State.reset.jobs ∧ t.parts = State.reset.parts
    ∧ (s.keyBurn = none → t.slots = s.slots) ∧ t.fuses = s.fuses ∧ t.host = s.host ∧ t.frozen = false

theorem State.wipe_fresh (s : State) (keep : Bool) : Fresh s (s.wipe keep) := by
  have e := s.offBurn_loseBurn
  have d := State.loseBurn_none (s := s)
  unfold State.wipe
  generalize s.loseBurn = t at e d
  exact ⟨rfl, rfl, rfl, fun hb => (congrArg State.slots (d hb) :), (congrArg State.fuses e :), (congrArg State.host e :), rfl⟩

/-- The pins and records that a wipe keeps. -/
theorem State.wipe_keeps (s : State) (keep : Bool) : let t := s.wipe keep
    t.sysHigh = s.sysHigh ∧ t.vcoreEn = s.vcoreEn ∧ t.tripLow = s.tripLow ∧ t.tripped = s.tripped ∧ t.frozenAt = s.frozenAt
      ∧ t.chainOut = s.chainOut ∧ t.heldWalks = s.heldWalks ∧ t.linkStat = 0
      ∧ t.chainAddr = (if keep then s.chainAddr else 0) ∧ t.chainValid = (keep && s.chainValid) := by
  have e := s.offBurn_loseBurn
  unfold State.wipe
  generalize s.loseBurn = t at e
  exact ⟨(congrArg State.sysHigh e :), (congrArg State.vcoreEn e :), (congrArg State.tripLow e :), (congrArg State.tripped e :),
    (congrArg State.frozenAt e :), (congrArg State.chainOut e :), (congrArg State.heldWalks e :), rfl,
    (congrArg (fun x : State => if keep then x.chainAddr else 0) e :), (congrArg (fun x : State => keep && x.chainValid) e :)⟩

theorem State.hardReset_fresh (s : State) (cause : Nat) (keep : Bool) : Fresh s (s.hardReset cause keep) := by
  have w := s.wipe_fresh keep
  unfold State.hardReset
  generalize s.wipe keep = t at w
  have e := State.offStage_begin { t with resetCause := cause, frozenAt := s.freezing, warmCnt := min 255 (s.warmCnt + 1) }
  generalize State.begin _ = u at e
  obtain ⟨w1, w2, w3, w4, w5, w6, w7⟩ := w
  exact ⟨(congrArg State.halls e :).trans w1, (congrArg State.jobs e :).trans w2, (congrArg State.parts e :).trans w3,
    fun hb => (congrArg State.slots e :).trans (w4 hb), (congrArg State.fuses e :).trans w5, (congrArg State.host e :).trans w6,
    (congrArg State.frozen e :).trans w7⟩

/-- What a reset records, and the stage that its pins let it begin. -/
theorem State.hardReset_records (s : State) (cause : Nat) (keep : Bool) : let t := s.hardReset cause keep
    t.resetCause = cause ∧ t.frozenAt = s.freezing ∧ t.warmCnt = min 255 (s.warmCnt + 1) ∧ t.linkStat = 0
      ∧ t.chainAddr = (if keep then s.chainAddr else 0) ∧ t.chainValid = (keep && s.chainValid)
      ∧ t.vcoreEn = s.vcoreEn ∧ t.tripLow = s.tripLow ∧ t.tripped = s.tripped ∧ t.chainOut = s.chainOut
      ∧ (s.sysHigh = false → t.chainStage = .held) := by
  have k := s.wipe_keeps keep
  unfold State.hardReset
  generalize s.wipe keep = t at k
  obtain ⟨sys, vcore, low, trip, -, out, -, link, addr, valid⟩ := k
  have e := State.offStage_begin { t with resetCause := cause, frozenAt := s.freezing, warmCnt := min 255 (s.warmCnt + 1) }
  have held : s.sysHigh = false →
      (State.begin { t with resetCause := cause, frozenAt := s.freezing, warmCnt := min 255 (s.warmCnt + 1) }).chainStage = .held := by
    intro hs
    unfold State.begin
    rw [if_neg (by rw [sys, hs]; exact Bool.false_ne_true)]
  generalize State.begin _ = u at e held
  exact ⟨(congrArg State.resetCause e :), (congrArg State.frozenAt e :), (congrArg State.warmCnt e :), (congrArg State.linkStat e :).trans link,
    (congrArg State.chainAddr e :).trans addr, (congrArg State.chainValid e :).trans valid, (congrArg State.vcoreEn e :).trans vcore,
    (congrArg State.tripLow e :).trans low, (congrArg State.tripped e :).trans trip, (congrArg State.chainOut e :).trans out, held⟩

/-- The walks that a device holds leave it; nothing else changes. -/
theorem State.flushWalks_eq (s : State) : ∃ l, s.flushWalks = { s with heldWalks := [], chainOut := s.chainOut ++ l } := by
  have key (l : List ChainFrame) (t : State) :
      ∃ r, l.foldl (fun s f => s.chainPut (bypassWalk f)) t = { t with chainOut := t.chainOut ++ r } := by
    induction l generalizing t with
    | nil => exact ⟨[], by simp⟩
    | cons f l ih =>
      obtain ⟨r, e⟩ := ih (t.chainPut (bypassWalk f))
      exact ⟨bypassWalk f :: r, by rw [List.foldl_cons, e]; simp [State.chainPut]⟩
  exact key s.heldWalks { s with heldWalks := [] }

/-- SYS_RESET_N falls in a device that it has not reset yet, or that a trip holds. -/
theorem State.sysReset_low {s : State} (h : (s.sysHigh || s.tripped) = true) : ∃ (u : State) (l : List ChainFrame),
    Fresh s u ∧ u.resetCause = (if s.tripped then 4 else 1) ∧ u.warmCnt = min 255 (s.warmCnt + 1) ∧ u.chainValid = false
      ∧ u.chainStage = .held ∧ u.vcoreEn = true
      ∧ s.sysReset false = { u with
          frozenAt := if s.tripped then s.frozenAt else s.freezing, tripped := false, heldWalks := [], chainOut := u.chainOut ++ l } := by
  have f := State.hardReset_fresh { s with sysHigh := false, vcoreEn := true, tripLow := false } (if s.tripped then 4 else 1) false
  have r := State.hardReset_records { s with sysHigh := false, vcoreEn := true, tripLow := false } (if s.tripped then 4 else 1) false
  unfold State.sysReset
  rw [if_neg Bool.false_ne_true, if_pos h]
  dsimp only
  generalize State.hardReset _ _ false = u at f r
  obtain ⟨cause, -, warm, -, -, valid, vcore, -, -, -, held⟩ := r
  obtain ⟨l, e⟩ := State.flushWalks_eq { u with frozenAt := if s.tripped then s.frozenAt else s.freezing, tripped := false }
  exact ⟨u, l, f, cause, warm, valid, held rfl, vcore, e⟩

/-- A link that trains reads another status than zero. -/
theorem State.trainLink_link (s : State) : s.trainLink.linkStat ≠ 0 ∧ s.trainLink.clkreqLow = true ∧ s.trainLink.halls = s.halls
    ∧ s.trainLink.perstHigh = s.perstHigh := by
  refine ⟨fun h => ?_, rfl, rfl, rfl⟩
  have e := congrArg BitVec.toNat h
  unfold State.trainLink State.fresh at e
  dsimp only at e
  rw [BitVec.toNat_ofNat] at e
  change _ = 0 at e
  split at e <;> split at e <;> omega

/-- Settles O44: every reset is a wipe with its cause, and the pins decide the rest. -/
theorem resetsRecordTheirCause : Obligations.ResetsRecordTheirCause := by
  unfold Obligations.ResetsRecordTheirCause
  intro s f fresh
  refine ⟨?_, fun hs ht => ?_, fun ht => ?_, fun hs hv => ?_, fun hp hs ht => ?_, fun hc hl => ?_, fun hc hok hty hm => ?_⟩
  · have w := s.wipe_fresh false
    have k := s.wipe_keeps false
    refine ⟨s.powerUp, rfl, ?_⟩
    unfold State.powerUp
    generalize s.wipe false = t at w k
    obtain ⟨-, -, -, -, -, -, -, -, -, valid⟩ := k
    exact ⟨w, rfl, rfl, valid, rfl⟩
  · obtain ⟨u, l, hu, cause, warm, valid, held, -, e⟩ := State.sysReset_low (s := s) (by simp [hs])
    refine ⟨_, congrArg Host.Outcome.next e, hu, cause.trans (if_neg (by simp [ht])), if_neg (by simp [ht]), warm, valid, held⟩
  · obtain ⟨u, l, hu, cause, -, -, -, vcore, e⟩ := State.sysReset_low (s := s) (by simp [ht])
    exact ⟨_, congrArg Host.Outcome.next e, hu, cause.trans (if_pos ht), if_pos ht, rfl, vcore⟩
  · change Host.Outcome.next (s.sysReset true) = _
    rw [State.sysReset, if_pos rfl, if_neg (by simp [hs]), State.begin, if_pos (by simp [hv])]
  · have fr := State.hardReset_fresh { s with perstHigh := false } 2 true
    have re := State.hardReset_records { s with perstHigh := false } 2 true
    refine ⟨State.hardReset { s with perstHigh := false } 2 true, congrArg Host.Outcome.next (?_ : s.setPerst false = _), ?_⟩
    · rw [State.setPerst, if_neg Bool.false_ne_true, if_pos (by simp [hp, hs, ht])]
    · generalize State.hardReset _ 2 true = t at fr re
      obtain ⟨cause, frozen, -, link, addr, valid, -⟩ := re
      exact ⟨fr, cause, frozen, addr, valid, link⟩
  · obtain ⟨l1, l2, l3, l4⟩ := State.trainLink_link { s with perstHigh := true }
    refine ⟨State.trainLink { s with perstHigh := true }, congrArg Host.Outcome.next (?_ : s.setPerst true = _), l4, l1, l2, l3⟩
    rw [State.setPerst, if_pos rfl]
    exact if_pos ⟨hc, hl⟩
  · have fr := State.hardReset_fresh (s.chainPut f) 3 false
    have re := State.hardReset_records (s.chainPut f) 3 false
    refine ⟨(s.chainPut f).hardReset 3 false, ?_, ?_⟩
    · change Host.Outcome.next (if f.typ = cRESET then s.chainIn f _ else s) = _
      rw [if_pos hty, State.chainIn, if_neg (by simp [hok]), hc]
      dsimp only
      rw [if_pos (by simp [State.chainTakes, hty, hm])]
    · generalize State.hardReset _ 3 false = t at fr re
      obtain ⟨cause, frozen, -, -, -, -, -, -, -, out, -⟩ := re
      exact ⟨fr, cause, frozen, out⟩

end Sys2Proof.Machine
end

section
/-! PROOFS. The core voltage, trips, the host port and the chain. -/

namespace Sys2Proof.Machine

/-! ### Trips -/

/-- The state without what a freeze of Porter's own begins. -/
def State.offPause (s : State) : State :=
  { s with halls := [], parts := [], holding := false, frzSource := 0, frzLanding := false, frzCount := 0 }

theorem State.offPause_enqueue (s : State) (fs : List Frame) : (s.enqueue fs).offPause = s.offPause := by
  refine List.foldl_keeps State.offPause (fun t f => ?_) fs s
  rfl

theorem State.offPause_modPart (s : State) (v : Nat) (f : Part → Part) : (s.modPart v f).offPause = s.offPause := rfl

theorem State.offPause_sendDigest (s : State) (v : Fn) (job : Nat) (b : DBody) : (s.sendDigest v job b).offPause = s.offPause := by
  unfold State.sendDigest
  split
  · rfl
  · rw [State.flipRoute, State.offPause_modPart, State.digestOn, State.digestOver]
    rw [State.offPause_modPart, State.offPause_enqueue]

theorem State.offPause_pausePairs (s : State) : s.pausePairs.offPause = s.offPause := by
  refine List.foldl_keeps State.offPause (fun t v => ?_) ..
  split
  · exact t.offPause_sendDigest ..
  · rfl

theorem State.offPause_startFreeze (s : State) (src : Nat) : (s.startFreeze src false).offPause = s.offPause := by
  rw [State.startFreeze_eq, if_neg (by simp)]
  unfold State.beginFreeze
  split
  · rfl
  · have e := s.offPause_pausePairs
    generalize s.pausePairs = t at e
    exact e

/-- What a trip leaves (Table 12-8). -/
def Tripped (s t : State) : Prop :=
  t.tripped = true ∧ t.vcoreEn = false ∧ t.tripLow = true ∧ t.resetCause = 4
    ∧ t.frozenAt = s.freezing ∧ t.halls = State.reset.halls ∧ (s.keyBurn = none → t.slots = s.slots)
    ∧ ∃ l, t.chainOut = s.chainOut ++ sealChain (s.notice 3 0xFF) :: l

theorem State.trip_trips {s : State} (h : s.tripped = false) : Tripped s s.trip := by
  have e := s.offPause_startFreeze srcPorter
  unfold State.trip
  rw [if_neg (by simp [h])]
  dsimp only
  generalize s.startFreeze srcPorter false = a at e
  have hn : (a.notice 3 0xFF) = s.notice 3 0xFF := (congrArg (fun x : State => x.notice 3 0xFF) e :)
  have f := State.hardReset_fresh { a.chainPut (sealChain (a.notice 3 0xFF)) with vcoreEn := false, tripLow := true, tripped := true } 4 false
  have r := State.hardReset_records { a.chainPut (sealChain (a.notice 3 0xFF)) with vcoreEn := false, tripLow := true, tripped := true } 4 false
  generalize State.hardReset _ 4 false = u at f r
  obtain ⟨halls, -, -, slots, -⟩ := f
  obtain ⟨cause, -, -, -, -, -, vcore, low, trip, out, -⟩ := r
  obtain ⟨l, e2⟩ := State.flushWalks_eq { u with frozenAt := s.freezing }
  rw [e2]
  refine ⟨trip, vcore, low, cause, rfl, halls, fun hb => (slots ((congrArg State.keyBurn e :).trans hb)).trans (congrArg State.slots e :), l, ?_⟩
  change u.chainOut ++ l = _
  rw [out, ← hn, show s.chainOut = a.chainOut from (congrArg State.chainOut e :).symm]
  simp [State.chainPut]

/-! ### The target of the core voltage -/

/-- R331's target in whole steps. -/
theorem State.coreTarget_spec (s : State) (m : Sensors) : let t := s.coreTarget m
    let allowed := fun (n : Nat) => n ≤ s.powerCeil m ∧ n ≤ s.thermalCeil m ∧ (s.throttle = true → n ≤ 720)
    t % 5 = 0 ∧ 650 ≤ t ∧ t ≤ 900 ∧ (650 < t → allowed t)
      ∧ ∀ n, n % 5 = 0 → 650 ≤ n → n ≤ 900 → allowed n → n ≤ t := by
  unfold State.coreTarget
  generalize s.powerCeil m = p
  generalize s.thermalCeil m = h
  cases s.throttle
  · simp only [Bool.false_eq_true, if_false, false_imp_iff, and_true]
    refine ⟨by omega, by omega, by omega, fun _ => by omega, fun n h5 _ _ _ => by omega⟩
  · simp only [if_true, true_imp_iff]
    refine ⟨by omega, by omega, by omega, fun _ => by omega, fun n h5 _ _ _ => by omega⟩

/-- Above 1,300 W, 100 °C or 85 °C the target lies below the present voltage, or at the least one. -/
theorem State.coreTarget_below {s : State} {m : Sensors} (ha : m.avsOk = true)
    (h : 1300000000 < m.vcoreMv * m.vcoreMa ∨ 100 < m.tjMax ∨ 85 < m.hbmMax) :
    s.coreTarget m < m.vcoreMv ∨ s.coreTarget m = 650 := by
  have key : s.powerCeil m < m.vcoreMv ∨ s.thermalCeil m < m.vcoreMv ∨ s.thermalCeil m = 0 := by
    rcases h with h | h
    · left
      unfold State.powerCeil
      rw [ha, if_pos rfl]
      dsimp only
      have hma : m.vcoreMa ≠ 0 := by
        rintro e
        rw [e] at h
        omega
      rw [if_neg hma]
      exact lt_of_le_of_lt (min_le_right _ _) (Nat.div_lt_of_lt_mul (by rwa [Nat.mul_comm]))
    · right
      unfold State.thermalCeil
      rw [if_pos h, ha, if_pos rfl]
      omega
  unfold State.coreTarget
  generalize s.powerCeil m = p at key
  generalize s.thermalCeil m = t at key
  generalize (if s.throttle = true then 720 else 900) = k
  dsimp only
  omega

/-! ### The interval of R331 -/

/-- The state with the readings of an interval and the target that follows from them. -/
def State.read331 (s : State) (m : Sensors) : State :=
  { s with
    vcoreMv := if m.avsOk then m.vcoreMv else s.vcoreMv, vcoreMa := if m.avsOk then m.vcoreMa else s.vcoreMa, tjMax := m.tjMax,
    tjHall := m.tjHall, target := s.coreTarget m, avsFails := if m.avsOk then 0 else s.avsFails + 1 }

theorem State.ceiling_eq (s : State) (m : Sensors) : s.ceiling m =
    if Sensors.trips m ∨ 3 ≤ (if m.avsOk then 0 else s.avsFails + 1) then (s.read331 m).trip else s.read331 m := rfl

/-- Settles O43: intervals, trips and THROTTLE_N, with the arithmetic of the target in its own lemmas. -/
theorem coreVoltageFollowsTheCeilings : Obligations.CoreVoltageFollowsTheCeilings := by
  unfold Obligations.CoreVoltageFollowsTheCeilings
  intro s m allowed tripped
  refine ⟨fun hs => ?_, fun hs hr => ?_, fun hs hr => ⟨fun ht ha => ?_, fun ht hx => ?_⟩, fun ht hr => ?_, fun h => ?_, ?_,
    fun cause => ⟨fun ht => ⟨_, rfl, State.trip_trips ht⟩, fun ht => ?_⟩⟩
  · exact if_pos hs
  · have e : exec (.vcoreCeilingUpdate m) s = .next (s.watch m) := by
      refine (if_neg (by simp [hs])).trans ?_
      rw [hr, if_neg Bool.false_ne_true]
    rw [e]
    intro trips
    refine ⟨fun h => ?_, fun h ht => ⟨_, congrArg Host.Outcome.next (if_pos h), State.trip_trips ht⟩⟩
    by_cases hw : trips = true
    · have ht : s.tripped = true := h.resolve_left (by simp [hw])
      refine congrArg Host.Outcome.next ((if_pos hw).trans ?_)
      rw [State.trip, if_pos ht]
    · exact congrArg Host.Outcome.next (if_neg hw)
  · have e : exec (.vcoreCeilingUpdate m) s = .next (s.read331 m) := by
      refine (if_neg (by simp [hs])).trans ?_
      rw [hr, if_pos rfl, State.ceiling_eq, if_neg]
      rw [not_or]
      refine ⟨by simp [ht], ?_⟩
      rcases ha with ha | ha
      · rw [if_pos ha]; decide
      · split <;> omega
    obtain ⟨h5, h650, h900, hal, hmax⟩ := s.coreTarget_spec m
    exact ⟨_, e, h5, h650, h900, hal, hmax, fun ha h => State.coreTarget_below ha h, rfl, rfl, rfl, rfl, rfl⟩
  · have e : exec (.vcoreCeilingUpdate m) s = .next (s.read331 m).trip := by
      refine (if_neg (by simp [hs])).trans ?_
      rw [hr, if_pos rfl, State.ceiling_eq, if_pos]
      refine hx.imp id fun ⟨ha, h2⟩ => ?_
      rw [ha, if_neg Bool.false_ne_true]
      omega
    exact ⟨_, e, State.trip_trips (s := s.read331 m) ht⟩
  · change Host.Outcome.next _ = _
    rw [hr, ht]
    rfl
  · have hc : (true && s.porterRuns && !s.tripped) = false := by
      rcases h with h | h <;> simp [h]
    change Host.Outcome.next { s with throttle := true, target := if (true && s.porterRuns && !s.tripped) = true then min s.target 720 else s.target } = _
    rw [hc]
    rfl
  · rfl
  · change Host.Outcome.next s.trip = _
    rw [State.trip, if_pos ht]

/-! ### The management chain -/

theorem chainOk_sealChain (f : ChainFrame) : chainOk (sealChain f) = true := by
  rw [chainOk, beq_iff_eq]
  rfl

/-- The state without what a register read changes. -/
def State.offRead (s : State) : State := { s with fns := [], free := 0, rdwAddr := 0 }

theorem State.offRead_spaceRead (s : State) (space h g a : Nat) : (s.spaceRead space h g a).2.offRead = s.offRead := by
  unfold State.spaceRead State.freeBytes
  dsimp only
  repeat' split
  all_goals rfl

theorem State.offRead_readReg (s : State) (f lf : Fn) (off : Nat) : (s.readReg f lf off).2.offRead = s.offRead := by
  unfold State.readReg
  dsimp only
  split
  · rfl
  split
  · unfold State.rdwin
    dsimp only
    split
    · rfl
    · have e := s.offRead_spaceRead (fld s.rdwSel.toNat 8 4) (fld s.rdwSel.toNat 0 3) (fld s.rdwSel.toNat 16 6) s.rdwAddr.toNat
      generalize State.spaceRead .. = r at e
      exact e
  split
  · rfl
  split
  · rfl
  split <;> rfl

/-- The answer of a serving device. -/
theorem State.respond_serving {s : State} (h : s.chainStage = .serving) (f : ChainFrame) (status : Nat) (data : Word) :
    s.respond f status data = { s with chainOut := s.chainOut ++ [sealChain ⟨4, 1,
      if f.src.getLsbD 18 then s.chainSrc else f.src &&& 0x3FFFF, s.chainSrc,
      natLE status 1 ++ natLE 0 3 ++ natLE data.toNat 4, 0⟩] } := by
  unfold State.respond State.emitChain
  rw [h]

/-- A good frame that a serving device takes has its row's effect. -/
theorem chainRow_takes {s : State} {f : ChainFrame} {t : Byte} (hs : s.chainStage = .serving) (hok : chainOk f = true) (ht : f.typ = t)
    (hm : s.chainTakes f = true) (act : State → State) : chainRow t f act s = .next (act s) := by
  rw [chainRow, if_pos ht, State.chainIn, if_neg (by simp [hok]), hs]
  dsimp only
  rw [if_pos hm]

theorem State.chainTakes_addressed {s : State} {f : ChainFrame} (ht : f.typ ∈ [cREAD, cWRITE, cRESP, cNOTIFY]) (hv : s.chainValid = true)
    (hm : s.chainMine f = true) : s.chainTakes f = true := by
  simp only [List.mem_cons, List.not_mem_nil, or_false] at ht
  unfold State.chainTakes
  rcases ht with h | h | h | h <;> rw [h, hv, hm] <;> rfl

/-- The counts of a WALK that goes on. -/
theorem walkBytes_counts {f : ChainFrame} (h : f.payload.length = 8) (status seat pos : Nat) :
    u8 (walkBytes f status seat pos).payload 4 = seat % 256 ∧ u8 (walkBytes f status seat pos).payload 5 = pos % 256 := by
  obtain ⟨typ, flags, dest, src, payload, crc⟩ := f
  match payload, h with
  | [_, _, _, _, _, _, _, _], _ => simp [walkBytes, sealChain, u8, bytesAt, natLE, leNat]

/-- A FULL WALK finds a seat in a device without a plan. -/
theorem State.walkServe_full {s : State} {f : ChainFrame} (hl : f.payload.length = 8) (h0 : u8 f.payload 0 = 0) (h4 : u8 f.payload 4 < 64)
    (hp : s.anyPlan = false) : ∃ status, s.walkServe f = State.chainPut { s with
        chainAddr := BitVec.ofNat 18 (u16 f.payload 2 % 4096 * 64 + u8 f.payload 4), chainValid := true }
      (walkBytes f status (u8 f.payload 4 + 1) (u8 f.payload 5 + 1)) := by
  unfold State.walkServe
  dsimp only
  rw [if_neg (by simp [hl]), if_pos h0]
  unfold State.walkFull
  rw [if_pos h4, hp]
  exact ⟨_, rfl⟩

/-- Settles O48: each frame that a serving device takes is answered by its row, and any other goes on. -/
theorem chainFramesAreServed : Obligations.ChainFramesAreServed := by
  unfold Obligations.ChainFramesAreServed
  intro s f hs hok off resp
  refine ⟨fun ht hl h0 h4 hp => ?_, fun ht hv hm ho ha => ?_, fun ht hv hm ho => ⟨fun hne => ?_, fun he h1 hz => ?_⟩,
    fun ht hv hm => ?_, fun hn hw => ?_⟩
  · obtain ⟨status, e⟩ := State.walkServe_full hl h0 h4 hp
    obtain ⟨seat, pos⟩ := walkBytes_counts hl status (u8 f.payload 4 + 1) (u8 f.payload 5 + 1)
    have hm : s.chainTakes f = true := by simp [State.chainTakes, ht, hl]
    refine ⟨_, _, (chainRow_takes hs hok ht hm fun s => s.walkServe f).trans (congrArg Host.Outcome.next e), rfl, rfl, rfl,
      chainOk_sealChain _, seat.trans (by omega), pos, rfl⟩
  · have hm' := State.chainTakes_addressed (by rw [ht]; simp) hv hm
    have r := State.offRead_readReg s 0 chainLatch off
    refine ⟨_, chainRow_takes hs hok ht hm' fun s => s.chainReadAct f, ?_⟩
    unfold State.chainReadAct
    dsimp only
    rw [if_neg (by omega), if_neg (by omega)]
    change (State.respond (s.readReg 0 chainLatch off).2 f 0 (s.readReg 0 chainLatch off).1).chainOut = _
    generalize s.readReg 0 chainLatch off = w at r
    have stage : w.2.chainStage = .serving := (congrArg State.chainStage r :).trans hs
    rw [State.respond_serving stage]
    have hsrc : w.2.chainSrc = s.chainSrc := (congrArg State.chainSrc r :)
    have hout : w.2.chainOut = s.chainOut := (congrArg State.chainOut r :)
    dsimp only
    rw [hsrc, hout]
  · have hm' := State.chainTakes_addressed (by rw [ht]; simp) hv hm
    refine (chainRow_takes hs hok ht hm' fun s => s.chainWriteAct f).trans (congrArg Host.Outcome.next ?_)
    unfold State.chainWriteAct
    dsimp only
    rw [if_neg (by omega), if_pos hne, State.respond_serving hs]
    rfl
  · have hm' := State.chainTakes_addressed (by rw [ht]; simp) hv hm
    have e : s.writeFreeze 0 (BitVec.ofNat 32 (u32 f.payload 4))
        = { s.scoped false false false with byPorter := true }.startFreeze srcPorter false := by
      rw [h1]
      exact s.writeFreeze_freeze false false false
    have p := State.offPause_startFreeze { s.scoped false false false with byPorter := true } srcPorter
    have q := State.startFreeze_offSends (s := { s.scoped false false false with byPorter := true }) hz srcPorter false
    refine ⟨_, chainRow_takes hs hok ht hm' fun s => s.chainWriteAct f, ?_⟩
    unfold State.chainWriteAct
    dsimp only
    rw [if_neg (by omega), if_neg (by simpa using he), e]
    generalize State.startFreeze _ srcPorter false = w at p q
    have stage : w.chainStage = .serving := (congrArg State.chainStage p :).trans hs
    rw [State.respond_serving stage]
    have hsrc : w.chainSrc = s.chainSrc := (congrArg State.chainSrc p :)
    have hout : w.chainOut = s.chainOut := (congrArg State.chainOut p :)
    refine ⟨(congrArg State.holding q :), (congrArg State.byPorter q :), ?_⟩
    dsimp only
    rw [hsrc, hout]
    rfl
  · have hm' := State.chainTakes_addressed (by rcases ht with h | h <;> rw [h] <;> simp) hv hm
    refine congrArg Host.Outcome.next (if_pos ?_)
    rw [State.chainElsewhere, hs]
    simp [hm']
  · have hw' : (f.typ == cWALK && f.payload.length == 8) = false := by
      rw [Bool.and_eq_false_iff, beq_eq_false_iff_ne, beq_eq_false_iff_ne]
      exact hw
    have he : s.chainElsewhere f = false := by
      rw [State.chainElsewhere, hs]
      simp only [hn, hw', Bool.or_self]
    have e : s.chainIn f id = s.chainPut f := by
      rw [State.chainIn, if_neg (by simp [hok]), hs]
      dsimp only
      rw [if_neg (by simp [hn])]
    exact congrArg Host.Outcome.next ((if_neg (by simp [he])).trans e)

end Sys2Proof.Machine
end

section
/-! PROOFS. The register file, the host port, and the windows. -/

namespace Sys2Proof.Machine

/-! ### Where registers lie -/

theorem areaOf_jobOff {q : Nat} (hq : q < 128) {off : Nat} (ho : off < 0x10) : areaOf (jobOff q off) = .job q off := by
  unfold areaOf jobOff
  rw [if_neg (by omega), if_neg (by omega), if_pos (by omega)]
  have block : (0x0020000 + 0x10 * q + off - 0x20000) / 0x10 = q := by omega
  have reg : (0x0020000 + 0x10 * q + off) % 0x10 = off := by omega
  rw [block, reg]

theorem areaOf_partOff {v : Nat} (h1 : 1 ≤ v) (h8 : v ≤ 8) {off : Nat} (ho : off < 0x40) : areaOf (partOff v off) = .part v off := by
  unfold areaOf partOff
  rw [if_neg (by omega), if_neg (by omega), if_neg (by omega), if_pos (by omega)]
  have block : (0x0030000 + 0x40 * (v - 1) + off - 0x30000) / 0x40 + 1 = v := by omega
  have reg : (0x0030000 + 0x40 * (v - 1) + off) % 0x40 = off := by omega
  rw [block, reg]

/-- BAR0 offset of a register of a hall. -/
def hallOff (h k : Nat) : Nat := 0x100000 + h * 0x100000 + k

theorem areaOf_hallOff {h k : Nat} (hh : h < 8) (hk : k < 0x100000) : areaOf (hallOff h k) = .hall h k := by
  unfold areaOf hallOff
  rw [if_neg (by omega), if_neg (by omega), if_neg (by omega), if_neg (by omega), if_pos (by omega)]
  have hall : (0x100000 + h * 0x100000 + k - 0x100000) / 0x100000 = h := by omega
  have reg : (0x100000 + h * 0x100000 + k) % 0x100000 = k := by omega
  rw [hall, reg]

/-- An aligned write, but for PRT_FREEZE_CTRL. -/
theorem exec_registerWrite {s : State} {f : Fn} {off : Nat} (ha : off % 4 = 0) (hf : off ≠ offFreeze) (v : Word) :
    exec (.registerWrite f off v) s = .next (s.writeRest f off v) := by
  change Host.Outcome.next (s.writeReg f off v) = _
  rw [State.writeReg, if_neg (by simp [ha]), if_neg hf]

/-- A write of Porter's own block. -/
theorem exec_writePrt (s : State) {off : Nat} (ha : off % 4 = 0) (hf : off ≠ offFreeze) (ho : off < 0x1000) (v : Word) :
    exec (.registerWrite 0 off v) s = .next (s.writePrt off v) := by
  rw [exec_registerWrite ha hf, State.writeRest, areaOf, if_pos ho]
  rfl

/-- A write of a hall's block by the physical function, but for the epochs. -/
theorem exec_writeHall (s : State) {h k : Nat} (hh : h < 8) (ha : k % 4 = 0) (hk : k < 0x13100) (v : Word) :
    exec (.registerWrite 0 (hallOff h k) v) s = .next (s.writeHall h k v) := by
  have hoff : hallOff h k % 4 = 0 ∧ hallOff h k ≠ offFreeze := by unfold hallOff offFreeze; omega
  rw [exec_registerWrite hoff.1 hoff.2, State.writeRest, areaOf_hallOff hh (by omega)]
  have he : epochJob k = none := if_neg (by omega)
  dsimp only
  rw [he]
  rfl

/-- A hall's register that another function writes. -/
theorem exec_writeHall_other (s : State) {f : Fn} (hf : f ≠ 0) {h k : Nat} (hh : h < 8) (ha : k % 4 = 0) (hk : k < 0x13100)
    (hr : (s.hallReg h k).isSome = true) (v : Word) :
    exec (.registerWrite f (hallOff h k) v) s = .next (s.accessErr f) := by
  have hoff : hallOff h k % 4 = 0 ∧ hallOff h k ≠ offFreeze := by unfold hallOff offFreeze; omega
  rw [exec_registerWrite hoff.1 hoff.2, State.writeRest, areaOf_hallOff hh (by omega)]
  have he : epochJob k = none := if_neg (by omega)
  dsimp only
  rw [he]
  dsimp only
  rw [if_neg hf]
  exact congrArg Host.Outcome.next (if_pos hr)

/-- A register of a job in a hall. -/
theorem State.writeHall_job (s : State) {h j k : Nat} (hj : j < 16) (hk : k < 0x20) (v : Word) :
    s.writeHall h (0x8000 + 0x20 * j + k) v = s.writeHallJob h j k v.toNat := by
  have block : (0x8000 + 0x20 * j + k - 0x8000) / 0x20 = j := by omega
  have reg : (0x8000 + 0x20 * j + k) % 0x20 = k := by omega
  rw [State.writeHall, if_pos (by omega), block, reg]

/-- A register of the fixed part of a hall. -/
theorem State.writeHall_fixed (s : State) {h k : Nat} (hj : k < 0x8000 ∨ 0x13028 ≤ k) (v : Word) :
    s.writeHall h k v = s.writeHallFixed h k v := by
  rw [State.writeHall, if_neg (by omega), if_neg (by omega)]

/-! ### Registers of a job in a hall -/

/-- A job is resident in the partition that holds a hall. -/
def State.residesIn (s : State) (h j : Nat) : Prop := ∃ o, s.ownerOf h = some o ∧ (s.job (pageOf o j)).resident = true

theorem State.writeHallJob_free {s : State} {h j : Nat} (hr : ¬ s.residesIn h j) (n : Nat) :
    s.writeHallJob h j 0 n = s.modHJob h j (fun J => { J with hbmBase := n % 2 ^ 20 })
    ∧ s.writeHallJob h j 4 n = s.modHJob h j (fun J => { J with hbmSize := n % 2 ^ 20 })
    ∧ s.writeHallJob h j 8 n = s.modHJob h j (fun J => { J with rows := n % 2048 })
    ∧ s.writeHallJob h j 12 n = s.modHJob h j (fun J => { J with bayBase := fld n 0 9, bayCount := fld n 16 10 }) := by
  unfold State.writeHallJob
  cases ho : s.ownerOf h with
  | none => exact ⟨rfl, rfl, rfl, rfl⟩
  | some o =>
    have hb : (s.job (pageOf o j)).resident = false := by
      cases e : (s.job (pageOf o j)).resident with
      | false => rfl
      | true => exact absurd ⟨o, ho, e⟩ hr
    dsimp only
    rw [hb]
    exact ⟨rfl, rfl, rfl, rfl⟩

theorem State.writeHallJob_busy {s : State} {h j : Nat} (hr : s.residesIn h j) (n : Nat) :
    ∀ k ∈ [0, 4, 8, 12], s.writeHallJob h j k n = s.accessErr 0 := by
  obtain ⟨o, ho, hb⟩ := hr
  intro k hk
  unfold State.writeHallJob
  rw [ho]
  dsimp only
  rw [hb]
  simp only [List.mem_cons, List.not_mem_nil, or_false] at hk
  rcases hk with rfl | rfl | rfl | rfl <;> rfl

theorem State.hjob_modHJob_self (s : State) (h j : Nat) (f : HJob → HJob) : ((s.modHJob h j f).hall h).job j = f ((s.hall h).job j) := by
  rw [State.modHJob, State.hall_modHall_self, Hall.job_putJob, if_pos rfl]

/-- A change of one hall that keeps its stack. -/
theorem SameStacks.modHall (s : State) (h : Nat) (f : Hall → Hall) (hf : ∀ H, (f H).hbm = H.hbm) : SameStacks s (s.modHall h f) := by
  intro k
  rw [State.hall_modHall]
  split
  · next e => rw [e, hf]
  · rfl

/-! ### Configuration space -/

/-- The upper half of a word whose upper half is fixed. -/
theorem upper_fixed (w : Word) : ((w &&& ~~~(BitVec.ofNat 32 0xFFFF0000)) ||| BitVec.ofNat 32 0x00820000).toNat / 65536 = 0x0082 := by
  rw [BitVec.toNat_or, BitVec.toNat_and, ← Nat.shiftRight_eq_div_pow _ 16, Nat.shiftRight_or_distrib, Nat.shiftRight_and_distrib]
  have h : (~~~(BitVec.ofNat 32 0xFFFF0000)).toNat >>> 16 = 0 := by decide
  rw [h, Nat.and_zero]
  decide

theorem u16_natLE (n : Nat) (h : n < 2 ^ 32) : u16 (natLE n 4) 2 = n / 65536 := by
  simp only [u16, bytesAt, natLE, List.drop_succ_cons, List.drop_zero, List.take_succ_cons, List.take_zero, leNat, BitVec.toNat_ofNat]
  omega

theorem State.cfgValue_identity (s : State) : (s.cfgValue 0 0).toNat / 65536 = 0x0082 := upper_fixed (Config.cfgWord 0 0)

/-- What the identity registers read. -/
theorem State.read_identity (s : State) (f : Fn) : ∀ x ∈ [(0, prtIdent), (4, prtFampar), (8, s.hallmap.toNat)],
    s.read f x.1 = s.answer (natLE x.2 4) := by
  have key {off n : Nat} (ha : off % 4 = 0) (ho : off < 0x100) (hm : [0x0, 0x4, 0x8, 0x1A0, 0x1A4].contains off = true)
      (hr : s.regAt f (.prt off) = some (.word n)) (hn : n < 2 ^ 32) : s.read f off = s.answer (natLE n 4) := by
    have area : areaOf off = .prt off := if_pos (by omega)
    have e : s.readReg f f off = (BitVec.ofNat 32 n, s) := by
      unfold State.readReg
      rw [area]
      dsimp only
      rw [if_neg (by simp [Area.isPage]), if_neg (by rw [Area.prt.injEq]; omega), hr]
      dsimp only
      have may : s.mayRead f (.prt off) = true := by rw [State.mayRead, hm, Bool.or_true]
      rw [may]
      rfl
    rw [State.read, if_neg (by omega), e]
    dsimp only
    rw [BitVec.toNat_ofNat, Nat.mod_eq_of_lt hn]
  intro x hx
  simp only [List.mem_cons, List.not_mem_nil, or_false] at hx
  rcases hx with rfl | rfl | rfl
  · exact key (off := 0) rfl (by decide) (by decide) rfl (by decide)
  · exact key (off := 4) rfl (by decide) (by decide) rfl (by decide)
  · exact key (off := 8) rfl (by decide) (by decide) rfl (by have := s.hallmap.isLt; omega)

/-- A write of an identity register. -/
theorem exec_writeIdentity (s : State) (f : Fn) (v : Word) {off : Nat} (ho : off = 0 ∨ off = 4 ∨ off = 8) :
    exec (.registerWrite f off v) s = .next (if f = 0 then s else s.accessErr f) := by
  by_cases hf : f = 0
  · subst hf
    rw [if_pos rfl, exec_writePrt s (by omega) (by unfold offFreeze; omega) (by omega)]
    rcases ho with rfl | rfl | rfl <;> rfl
  · have area : areaOf off = .prt off := if_pos (by omega)
    rw [if_neg hf, exec_registerWrite (by omega) (by unfold offFreeze; omega), State.writeRest, area]
    dsimp only
    rw [if_neg hf]
    rcases ho with rfl | rfl | rfl <;> rfl

/-- The registers of a hall that R311 gives to the physical function alone are registers. -/
theorem State.hallReg_isSome (s : State) (h j : Nat) (hj : j < 16) : ∀ k ∈ [0x14, 0x18, 0x20, 0x28, 0x8000 + 0x20 * j, 0x13004, 0x1305C],
    (s.hallReg h k).isSome = true ∧ k % 4 = 0 ∧ k < 0x13100 := by
  intro k hk
  simp only [List.mem_cons, List.not_mem_nil, or_false] at hk
  rcases hk with rfl | rfl | rfl | rfl | rfl | rfl | rfl
  case inr.inr.inr.inr.inl =>
    refine ⟨?_, by omega, by omega⟩
    have reg : (0x8000 + 0x20 * j) % 0x20 = 0 := by omega
    rw [State.hallReg, if_pos (by omega), reg]
    rfl
  all_goals exact ⟨rfl, by decide, by decide⟩

/-- Settles O47: each register of the lists takes or refuses a write in its own block; configuration and measurement requests are answered. -/
theorem hostPortAnswers : Obligations.HostPortAnswers := by
  unfold Obligations.HostPortAnswers
  refine ⟨fun s f v => ⟨fun x hx => ⟨?_, ?_⟩, ?_, ?_, fun w h1 h8 => ?_, ?_⟩,
    fun s f r hl => ⟨fun hd => ?_, fun hd => ⟨?_, fun n en he hn => ?_, fun n en he => ?_, fun param => ?_⟩⟩⟩
  · refine exec_writeIdentity s f v ?_
    simp only [List.mem_cons, List.not_mem_nil, or_false] at hx
    rcases hx with rfl | rfl | rfl <;> simp
  · exact congrArg Host.Outcome.next (s.read_identity f x hx)
  · have e : exec (.registerWrite f 0x1008 v) s = .next (s.modFn f fun x => { x with bar2Hall := v.toNat % 8 }) := by
      rw [exec_registerWrite (by decide) (by decide)]
      rfl
    refine ⟨_, e, ?_, ?_, fun g hg => ?_⟩
    · rw [State.fn_modFn_self]
    · rw [State.fn_modFn_self]
    · rw [State.fn_modFn, if_neg hg]
  · intro q hq n b
    rw [exec_registerWrite (by unfold jobOff; omega) (by unfold jobOff offFreeze; omega), State.writeRest, areaOf_jobOff hq (by decide)]
    rfl
  · rw [exec_registerWrite (by unfold partOff; omega) (by unfold partOff offFreeze; omega), State.writeRest, areaOf_partOff h1 h8 (by decide)]
    have bit1 : bit v.toNat 1 = v.getLsbD 1 := by
      rw [bit, BitVec.getLsbD, Nat.testBit_eq_decide_div_mod_eq]
      rfl
    change Host.Outcome.next (if bit v.toNat 1 then s.modPart w fun p => { p with bindErr := false } else s) = _
    rw [bit1]
  · intro h j hh hj at_ own resident
    have job {k : Nat} (h4 : k % 4 = 0) (hk : k < 0x20) :
        exec (.registerWrite 0 (own + k) v) s = .next (s.writeHallJob h j k v.toNat) := by
      have e := exec_writeHall s (k := 0x8000 + 0x20 * j + k) hh (by omega) (by omega) v
      rw [State.writeHall_job s hj hk] at e
      have off : own + k = hallOff h (0x8000 + 0x20 * j + k) := by
        unfold hallOff
        simp only [own, at_]
        omega
      rw [off, e]
    refine ⟨fun hr => ?_, fun hr k hk => ?_, fun hp hv => ?_, fun hn => ?_, ?_, fun hf k hk => ?_⟩
    · obtain ⟨w0, w4, w8, w12⟩ := State.writeHallJob_free (s := s) (h := h) (j := j) hr v.toNat
      refine ⟨⟨_, (job rfl (by decide)).trans (congrArg Host.Outcome.next w0), ?_⟩, ⟨_, (job rfl (by decide)).trans (congrArg Host.Outcome.next w4), ?_⟩,
        ⟨_, (job rfl (by decide)).trans (congrArg Host.Outcome.next w8), ?_⟩, ⟨_, (job rfl (by decide)).trans (congrArg Host.Outcome.next w12), ?_⟩⟩
      all_goals rw [State.hjob_modHJob_self]
      · exact ⟨rfl, rfl⟩
      · exact ⟨rfl, rfl⟩
      · simp [fld]
    · have hb := State.writeHallJob_busy (s := s) (h := h) (j := j) hr v.toNat k hk
      simp only [List.mem_cons, List.not_mem_nil, or_false] at hk
      rw [job (by omega) (by omega), hb]
    · have e := exec_writeHall s (k := 0x20) hh (by decide) (by decide) v
      have b : s.writeHallFixed h 0x20 v = s.modHall h fun H => { H with shrBase := setLo H.shrBase v.toNat, shrHead := 0 } :=
        if_neg (by simp [hp, hv])
      rw [State.writeHall_fixed s (by omega), b] at e
      refine ⟨_, e, ?_, ?_, SameStacks.modHall _ _ _ fun _ => rfl⟩
      all_goals rw [State.hall_modHall_self]
      rfl
    · have e := exec_writeHall s (k := 0x20) hh (by decide) (by decide) v
      rw [State.writeHall_fixed s (by omega)] at e
      rw [show at_ 0x20 = hallOff h 0x20 from rfl, e]
      refine congrArg Host.Outcome.next (if_pos ?_)
      simpa using hn
    · have e := exec_writeHall s (k := 0x18) hh (by decide) (by decide) v
      rw [State.writeHall_fixed s (by omega)] at e
      have b : s.writeHallFixed h 0x18 v = s.modHall h fun H => { H with scaleSel := v.toNat % 65536 } := rfl
      rw [b] at e
      refine ⟨_, e, ?_, SameStacks.modHall _ _ _ fun _ => rfl⟩
      rw [State.hall_modHall_self]
    · obtain ⟨hr, h4, hlt⟩ := s.hallReg_isSome h j hj k hk
      exact exec_writeHall_other s hf hh h4 hlt hr v
  · exact congrArg Host.Outcome.next ((if_neg hl).trans (if_pos (by simp [hd])))
  · have e : exec (.configRequest 0 (.read 0)) s
        = .next (State.answer { s with cfgRetry := false } (natLE (s.cfgValue 0 0).toNat 4)) := by
      refine congrArg Host.Outcome.next ((if_neg hl).trans ((if_neg (by simp [hd])).trans ?_))
      exact if_pos (Or.inl rfl)
    refine ⟨_, _, e, rfl, rfl, rfl, ?_⟩
    rw [u16_natLE _ (s.cfgValue 0 0).isLt, State.cfgValue_identity]
  · refine congrArg Host.Outcome.next ((if_neg hl).trans ((if_neg (by simp [hd])).trans ((if_neg (by simp)).trans ?_)))
    dsimp only
    rw [if_neg (by rw [not_or]; exact ⟨by simp [he], by omega⟩)]
  · refine congrArg Host.Outcome.next ((if_neg hl).trans ((if_neg (by simp [hd])).trans ((if_neg (by simp)).trans ?_)))
    dsimp only
    rw [if_pos (Or.inl he)]
  · have e : exec (.spdmRequest 0xE0 param) s = .next (s.spdmAnswer 0xE0 param) := rfl
    rw [State.spdmAnswer, if_pos ⟨hd, hl⟩] at e
    exact ⟨_, _, e, rfl, rfl, rfl, rfl, rfl⟩

end Sys2Proof.Machine
end

section
/-! PROOFS. The BAR2 window and the read-out window. -/

namespace Sys2Proof.Machine

/-! ### BAR2 -/

theorem State.taint_outside (s : State) (h : Nat) (x : Span) : (s.taint h x).halls = s.halls ∧ (s.taint h x).host = s.host := by
  unfold State.taint
  refine ⟨List.foldl_keeps State.halls (fun t q => List.foldl_keeps State.halls (fun u c => ?_) ..) ..,
    List.foldl_keeps State.host (fun t q => List.foldl_keeps State.host (fun u c => ?_) ..) ..⟩ <;> split <;> rfl

/-- Settles O53: the target and the span of an access decide which branch of the window it takes. -/
theorem bar2ReachesTheStack : Obligations.Bar2ReachesTheStack := by
  unfold Obligations.Bar2ReachesTheStack
  intro s f off len b ones
  have write : exec (.bar2Access f off (some b) len) s = .next (s.bar2 f off (some b) len) := rfl
  have read : exec (.bar2Access f off none len) s = .next (s.bar2 f off none len) := rfl
  unfold State.bar2 at write read
  dsimp only at write read
  constructor
  · intro ht
    rw [ht] at write read
    exact ⟨write, read⟩
  intro h ht H
  refine ⟨fun hs hh hm => ?_, fun hs hh hp => ?_, fun hr => ?_, fun hr => ?_⟩
  · rw [ht] at write
    dsimp only at write
    rw [if_neg (by rw [not_or]; exact ⟨not_lt.mpr hs, Bool.eq_false_iff.mp hh⟩), if_neg (Bool.eq_false_iff.mp hm)] at write
    obtain ⟨e1, e2⟩ := s.taint_outside h (off, b.length)
    have eh (k : Nat) : (s.taint h (off, b.length)).hall k = s.hall k := by rw [State.hall, e1, State.hall]
    refine ⟨_, write, ?_, fun a ha => ?_, fun k hk => ?_, ?_⟩
    · rw [State.hall_modHall_self]
      exact memReads_memWrites_same ..
    · rw [State.hall_modHall_self]
      exact (memRead_memWrites_outside _ _ _ _ ha).trans (by rw [eh])
    · rw [State.hall_modHall, if_neg hk, eh]
    · generalize s.taint h (off, b.length) = w at e2
      exact e2
  · rw [ht] at read
    dsimp only at read
    rw [if_neg (by rw [not_or]; exact ⟨not_lt.mpr hs, Bool.eq_false_iff.mp hh⟩), if_neg (Bool.eq_false_iff.mp hp)] at read
    exact read
  · rw [ht] at write
    dsimp only at write
    rw [write]
    split
    · rfl
    · next hn =>
      rw [not_or] at hn
      rw [if_pos ((hr.resolve_left hn.1).resolve_left hn.2)]
  · rw [ht] at read
    dsimp only at read
    rw [if_pos hr] at read
    exact read

/-! ### The read-out window -/

theorem spaceSize_eq (space : Nat) (h : space < 10) : spaceSize space
    = [0xC00000000, 0x400000, 0x40000, 0x80000, 0x1000, 0x1000000, 0x80000, 0x1000000, 0x2000, 0x200].getD space 0 := by
  interval_cases space <;> rfl

theorem spaceSize_beyond {space : Nat} (h : 10 ≤ space) : spaceSize space = 0 := by
  unfold spaceSize
  split
  all_goals omega

theorem exec_rdwin (s : State) (f : Fn) : exec (.rdwinDataRead f) s = .next ((s.rdwin f).2.answer (natLE (s.rdwin f).1.toNat 4)) := rfl

/-- A read that the window refuses. -/
theorem exec_rdwin_refused {s : State} {f : Fn}
    (h : f ≠ 0 ∨ s.frozen = false ∨ spaceSize (fld s.rdwSel.toNat 8 4) < s.rdwAddr.toNat + 4) :
    exec (.rdwinDataRead f) s = .next ((s.accessErr f).answer (natLE 0xFFFFFFFF 4)) := by
  have e : s.rdwin f = (0xFFFFFFFF, s.accessErr f) := if_pos (by simpa using h)
  rw [exec_rdwin, e]
  rfl

/-- A read that it serves shows four bytes of the space and moves on. -/
theorem exec_rdwin_shows {s : State} {b : List Byte} {t : State} (hz : s.frozen = true)
    (hsize : s.rdwAddr.toNat + 4 ≤ spaceSize (fld s.rdwSel.toNat 8 4))
    (hr : s.spaceRead (fld s.rdwSel.toNat 8 4) (fld s.rdwSel.toNat 0 3) (fld s.rdwSel.toNat 16 6) s.rdwAddr.toNat = (b, t))
    (hb : b.length = 4) (ht : t.rdwAddr = s.rdwAddr) (hh : t.halls = s.halls) :
    ∃ u, exec (.rdwinDataRead 0) s = .next u ∧ u.rdata = some b ∧ u.rdwAddr = s.rdwAddr + 4 ∧ u.halls = s.halls := by
  have e : s.rdwin 0 = (BitVec.ofNat 32 (leNat b), { t with rdwAddr := t.rdwAddr + 4 }) := by
    unfold State.rdwin
    dsimp only
    rw [if_neg (by simp [hz, hsize]), hr]
  have four : natLE (BitVec.ofNat 32 (leNat b)).toNat 4 = b := by
    have hlt : leNat b < 2 ^ 32 := by
      have := leNat_lt b
      rwa [hb] at this
    rw [BitVec.toNat_ofNat, Nat.mod_eq_of_lt hlt, ← hb, natLE_leNat]
  refine ⟨_, exec_rdwin s 0, ?_⟩
  rw [e]
  refine ⟨congrArg some four, ?_, hh⟩
  change t.rdwAddr + 4 = _
  rw [ht]

theorem word4_eq {byte : Nat → Byte} {a : Nat} {f : Nat → Byte} (h : ∀ i < 4, byte (a + i) = f i) :
    word4 byte a = (List.range 4).map f := List.map_congr_left fun i hi => h i (List.mem_range.mp hi)

/-- Four bytes within one entry of a space of bays. -/
theorem word4_bayByte {G : Gal} {size a : Nat} {pick : Bay → List Byte} {b : Nat × Bay} (hs : a % size + 4 ≤ size)
    (hb : G.bays.find? (·.1 == a / size) = some b) :
    word4 (bayByte G size pick) a = (List.range 4).map fun i => (pick b.2).getD (a % size + i) 0 := by
  refine word4_eq fun i hi => ?_
  have hlt : a % size + i < size := by omega
  have hdiv : (a + i) / size = a / size := by
    rw [← Nat.div_add_mod a size, Nat.add_assoc, Nat.mul_add_div (by omega), Nat.div_eq_of_lt hlt, Nat.div_add_mod]
    rfl
  have hmod : (a + i) % size = a % size + i := by
    rw [← Nat.div_add_mod a size, Nat.add_assoc, Nat.mul_add_mod, Nat.mod_eq_of_lt hlt, Nat.div_add_mod]
  unfold bayByte
  rw [hdiv, hb, hmod]
  rfl

/-- Bytes of words, one after the other. -/
theorem getD_words (l : List Word) (k i : Nat) (w : Word) (hi : i < 4) (h : l[k]? = some w) :
    (l.flatMap fun w => natLE w.toNat 4).getD (4 * k + i) 0 = (natLE w.toNat 4).getD i 0 := by
  induction l generalizing k with
  | nil => cases h
  | cons x l ih =>
    have hx : (natLE x.toNat 4).length = 4 := rfl
    rw [List.flatMap_cons]
    cases k with
    | zero =>
      cases h
      rw [List.getD_append _ _ _ _ (by omega)]
      congr 1
      omega
    | succ k =>
      rw [List.getD_append_right _ _ _ _ (by omega), ← ih k h]
      congr 1
      omega

/-- The low four bytes of an entry whose first eight bytes hold a counter. -/
theorem word4_low {n m a : Nat} (ha : a % 16 = 0) {byte : Nat → Byte}
    (hb : ∀ i < 4, byte (a + i) = (natLE n 8 ++ natLE m 8).getD ((a + i) % 16) 0) : word4 byte a = natLE (n % 2 ^ 32) 4 := by
  rw [word4_eq (f := fun i => (natLE n 8).getD i 0)]
  · have low {x y : Nat} (h : x % 256 = y % 256) : BitVec.ofNat 8 x = BitVec.ofNat 8 y := BitVec.eq_of_toNat_eq (by simpa using h)
    have e : (List.range 4).map (fun i => (natLE n 8).getD i 0)
        = [BitVec.ofNat 8 n, BitVec.ofNat 8 (n / 256), BitVec.ofNat 8 (n / 256 / 256), BitVec.ofNat 8 (n / 256 / 256 / 256)] := rfl
    rw [e]
    simp only [natLE]
    rw [low (show n % 256 = n % 2 ^ 32 % 256 by omega), low (show n / 256 % 256 = n % 2 ^ 32 / 256 % 256 by omega),
      low (show n / 256 / 256 % 256 = n % 2 ^ 32 / 256 / 256 % 256 by omega),
      low (show n / 256 / 256 / 256 % 256 = n % 2 ^ 32 / 256 / 256 / 256 % 256 by omega)]
  · intro i hi
    have hm : (a + i) % 16 = i := by omega
    rw [hb i hi, hm, List.getD_append]
    rw [show (natLE n 8).length = 8 from rfl]
    omega

/-- The half of a 64-bit pair that a write replaces. -/
theorem setLo_toNat (d : DWord) (v : Word) : (BitVec.ofNat 64 (setLo d.toNat v.toNat)).toNat = d.toNat / 2 ^ 32 * 2 ^ 32 + v.toNat := by
  have := d.isLt
  have := v.isLt
  rw [BitVec.toNat_ofNat, setLo]
  omega

theorem setHi_toNat (d : DWord) (v : Word) : (BitVec.ofNat 64 (setHi d.toNat v.toNat)).toNat = d.toNat % 2 ^ 32 + v.toNat * 2 ^ 32 := by
  have := d.isLt
  have := v.isLt
  rw [BitVec.toNat_ofNat, setHi]
  omega

/-- Writes of the window's registers. -/
theorem exec_writeWindow (s : State) (v : Word) :
    exec (.registerWrite 0 0x190 v) s = .next { s with rdwSel := v &&& 0x003F0F07 }
    ∧ exec (.registerWrite 0 0x194 v) s = .next { s with rdwAddr := BitVec.ofNat 64 (setLo s.rdwAddr.toNat v.toNat) }
    ∧ exec (.registerWrite 0 0x198 v) s = .next { s with rdwAddr := BitVec.ofNat 64 (setHi s.rdwAddr.toNat v.toNat) } := by
  refine ⟨?_, ?_, ?_⟩ <;> rw [exec_writePrt s (by decide) (by decide) (by decide)] <;> rfl

/-- The bays' spaces show a bay's own bytes. -/
theorem State.spaceRead_bay (s : State) (h g : Nat) {space size a : Nat} {pick : Bay → List Byte}
    (hx : (space, size, pick) ∈ [(1, 8192, Bay.data), (2, 512, Bay.strip), (3, 1024, Bay.witBytes), (4, 8, Bay.header)]) :
    s.spaceRead space h g a = (word4 (bayByte ((s.hall h).gal g) size pick) a, s) ∧ spaceSize space = 512 * size := by
  simp only [List.mem_cons, Prod.mk.injEq, List.not_mem_nil, or_false] at hx
  rcases hx with ⟨rfl, rfl, rfl⟩ | ⟨rfl, rfl, rfl⟩ | ⟨rfl, rfl, rfl⟩ | ⟨rfl, rfl, rfl⟩ <;> exact ⟨rfl, rfl⟩

/-- A row that is not dark shows its words. -/
theorem State.spaceRead_row {s : State} {h a : Nat} {w : Word} (g : Nat) (ha : a % 4 = 0) (hd : s.rowDark h (a / 256) = false)
    (hw : (s.rowShown h (a / 256)).data[a % 256 / 4]? = some w) : s.spaceRead 5 h g a = (natLE w.toNat 4, s) := by
  have e3 : (a + 3) / 256 = a / 256 := by omega
  have e : s.spaceRead 5 h g a = (if s.rowDark h (a / 256) || s.rowDark h ((a + 3) / 256) then s.freeBytes 4
    else (word4 (fun x => ((s.rowShown h (x / 256)).data.flatMap fun w => natLE w.toNat 4).getD (x % 256) 0) a, s)) := rfl
  rw [e, e3, hd, if_neg (by simp)]
  refine congrArg (·, s) ((word4_eq (f := fun i => (natLE w.toNat 4).getD i 0) fun i hi => ?_).trans rfl)
  have hdiv : (a + i) / 256 = a / 256 := by omega
  have hmod : (a + i) % 256 = 4 * (a % 256 / 4) + i := by omega
  rw [hdiv, hmod]
  exact getD_words _ _ _ _ hi hw

/-- A row's tag. -/
theorem State.spaceRead_tag (s : State) (h g : Nat) {a : Nat} (ha : a % 8 ≤ 4) : s.spaceRead 6 h g a
    = ((List.range 4).map fun i => (s.rowShown h (a / 8)).tag.bytes.getD (a % 8 + i) 0, s) := by
  have e : s.spaceRead 6 h g a = (word4 (fun x => (s.rowShown h (x / 8)).tag.bytes.getD (x % 8) 0) a, s) := rfl
  rw [e]
  refine congrArg (·, s) (word4_eq fun i hi => ?_)
  have hdiv : (a + i) / 8 = a / 8 := by omega
  have hmod : (a + i) % 8 = a % 8 + i := by omega
  rw [hdiv, hmod]

/-- The committed counters of sampler and Riser lanes. -/
theorem State.spaceRead_sampler (s : State) (h g : Nat) {a : Nat} (ha : a % 16 = 0) :
    s.spaceRead 8 h g a = (natLE (tabGet 0 (s.hall h).sampler (a / 16) % 2 ^ 32) 4, s) := by
  refine congrArg (·, s) (word4_low (m := s.drawn h (fun q => pageJob q == a / 16 / 32) Attempt.sampDraw (a / 16 % 32)) ha
    fun i hi => ?_)
  have hdiv : (a + i) / 16 = a / 16 := by omega
  unfold State.samplerByte
  rw [hdiv]

theorem State.spaceRead_riser (s : State) (h g : Nat) {a : Nat} (ha : a % 16 = 0) :
    s.spaceRead 9 h g a = (natLE ((tabGet 0 (s.hall h).riser (a / 16)).toNat % 2 ^ 32) 4, s) := by
  refine congrArg (·, s) (word4_low (m := s.drawn h (fun _ => true) Attempt.riserDraw (a / 16)) ha fun i hi => ?_)
  have hdiv : (a + i) / 16 = a / 16 := by omega
  unfold State.riserByte
  rw [hdiv]

/-- Settles O51: the registers of the window, the bytes of each space, and what the window refuses. -/
theorem readOutWindow : Obligations.ReadOutWindow := by
  unfold Obligations.ReadOutWindow
  intro s v f a h H G space shows
  have shown {b : List Byte} {t : State} (hz : s.frozen = true) (hsize : a + 4 ≤ spaceSize space)
      (hr : s.spaceRead space h (fld s.rdwSel.toNat 16 6) a = (b, t)) (hb : b.length = 4) (ht : t.rdwAddr = s.rdwAddr)
      (hh : t.halls = s.halls) : shows b := exec_rdwin_shows hz hsize hr hb ht hh
  obtain ⟨sel, lo, hi⟩ := exec_writeWindow s v
  refine ⟨⟨_, sel, rfl, rfl⟩, ⟨_, lo, setLo_toNat _ _, rfl⟩, ⟨_, hi, setHi_toNat _ _, rfl⟩,
    fun hz => ⟨fun hs ha hp => ?_, fun x hx b hs ha ha' hb => ?_, fun w hs ha ha' hd hw => ?_, fun hs ha ha' => ?_, fun hs ha => ?_,
      fun hs ha ha' => ?_, fun hs ha ha' => ?_, fun ha => ?_⟩, fun h => exec_rdwin_refused (h.imp id Or.inl)⟩
  · refine shown hz (by rw [hs]; exact ha) (t := s) ?_ (by simp) rfl rfl
    rw [hs]
    exact if_neg (by rw [hp]; exact Bool.false_ne_true)
  · obtain ⟨hr, hsize⟩ := s.spaceRead_bay h (fld s.rdwSel.toNat 16 6) (a := a) hx
    rw [← hs] at hr hsize
    rw [word4_bayByte ha' hb] at hr
    refine shown hz ?_ hr (by simp) rfl rfl
    rw [hsize]
    simp only [List.mem_cons, List.not_mem_nil, or_false] at hx
    rcases hx with rfl | rfl | rfl | rfl <;> dsimp only at ha ha' ⊢ <;> omega
  · refine shown hz ?_ (hs ▸ State.spaceRead_row _ ha hd hw) rfl rfl rfl
    rw [hs, show spaceSize 5 = 65536 * 256 from rfl]
    omega
  · refine shown hz ?_ (hs ▸ s.spaceRead_tag h _ ha) (by simp) rfl rfl
    rw [hs, show spaceSize 6 = 65536 * 8 from rfl]
    omega
  · have hr : s.spaceRead space h (fld s.rdwSel.toNat 16 6) a = s.freeBytes 4 := by rw [hs]; rfl
    exact ⟨_, shown hz (by rw [hs]; exact ha) hr (by simp) rfl rfl⟩
  · refine shown hz ?_ (hs ▸ s.spaceRead_sampler h _ ha) rfl rfl rfl
    rw [hs, show spaceSize 8 = 8192 from rfl]
    omega
  · refine shown hz ?_ (hs ▸ s.spaceRead_riser h _ ha) rfl rfl rfl
    rw [hs, show spaceSize 9 = 512 from rfl]
    omega
  · refine exec_rdwin_refused (Or.inr (Or.inr ?_))
    change spaceSize space < a + 4
    by_cases h10 : 10 ≤ space
    · rw [spaceSize_beyond h10]; omega
    · rw [spaceSize_eq space (by omega)]
      exact ha.resolve_left h10

end Sys2Proof.Machine
end

section
/-! PROOFS. Self-test: which halls serve. -/

namespace Sys2Proof.Machine

/-! ### What leaves the device's registers alone -/

namespace SameDevice

variable {s t : State}

theorem failAll (h : SameDevice s t) (v : Fn) (code : Nat) : SameDevice s (t.failAll v code) := by
  unfold State.failAll
  refine h.foldl (fun _ _ h => ?_) _
  split
  · exact h
  · exact ite h (h.failCmd ..)

theorem haltAll (h : SameDevice s t) (v : Fn) (code : Nat) : SameDevice s (t.haltAll v code) := h.foldl (fun _ _ h => h.modJob ..) _

theorem logPart (h : SameDevice s t) (v : Fn) (e : LogEnt) : SameDevice s (t.logPart v e) := h.foldl (fun _ _ h => h.log ..) _

theorem digestOn (h : SameDevice s t) (v : Fn) (job : Nat) (b : DBody) (r : HallRoute) : SameDevice s (t.digestOn v job b r) :=
  (h.enqueue _).modPart ..

theorem retireLeg (h : SameDevice s t) (v : Fn) : SameDevice s (t.retireLeg v) :=
  (((h.foldl (fun _ _ h => h.digestOn ..) _).modPart ..).failAll ..).haltAll ..

theorem leavePair (h : SameDevice s t) (v : Fn) : SameDevice s (t.leavePair v) := by
  unfold State.leavePair
  exact ite (h.retireLeg v) h

theorem standAlone (h : SameDevice s t) (v : Fn) (cause : Nat) : SameDevice s (t.standAlone v cause) := by
  unfold State.standAlone
  exact ite (((h.foldl (fun _ _ h => h.modHall ..) _).modPart ..).logPart ..) h

theorem ringDown (h : SameDevice s t) (k i : Nat) : SameDevice s (t.ringDown k i) := by
  unfold State.ringDown State.portDown
  exact ite ((h.modPort ..).log ..) h

theorem grant (h : SameDevice s t) (k i : Nat) : SameDevice s (t.grant k i) := h.foldl (fun _ _ h => h.modPort ..) _

theorem ringLink (h : SameDevice s t) (k : Nat) : SameDevice s (t.ringLink k) := by
  unfold State.ringLink
  exact ite ((((h.modPort ..).modPort ..).grant ..).grant ..) h

end SameDevice

/-! ### HALL_OK -/

theorem clearBit (m : Byte) {h : Nat} (hh : h < 8) (k : Nat) : (m &&& ~~~(1#8 <<< h)).getLsbD k = (m.getLsbD k && decide (k ≠ h)) := by
  by_cases hk : k < 8
  · simp only [BitVec.getLsbD_and, BitVec.getLsbD_not, BitVec.getLsbD_shiftLeft, BitVec.getLsbD_one, hk]
    by_cases e : k = h
    · subst e; simp
    · have : ¬ (k - h = 0 ∧ h ≤ k) := by omega
      by_cases l : k < h
      · simp [l, e]
      · simp [l, e, show k - h ≠ 0 by omega]
  · rw [BitVec.getLsbD_of_ge _ _ (by omega), BitVec.getLsbD_of_ge _ _ (by omega)]
    rfl

theorem setBit (m : Byte) {h : Nat} (hh : h < 8) (k : Nat) : (m ||| (1#8 <<< h)).getLsbD k = (m.getLsbD k || decide (k = h)) := by
  by_cases hk : k < 8
  · simp only [BitVec.getLsbD_or, BitVec.getLsbD_shiftLeft, BitVec.getLsbD_one, hk]
    by_cases e : k = h
    · subst e; simp
    · by_cases l : k < h
      · simp [l, e]
      · simp [l, e, show k - h ≠ 0 by omega]
  · rw [BitVec.getLsbD_of_ge _ _ (by omega), BitVec.getLsbD_of_ge _ _ (by omega)]
    simp
    omega

/-- The state without the bits of HALL_OK. -/
def State.offMap (s : State) : State := { s.device with hallmap := 0 }

/-- A hall that leaves service takes its bit of HALL_OK along; the device's other registers stand. -/
theorem State.outOfService_device (s : State) (h : Nat) : (s.outOfService h).device
    = { s.device with hallmap := if s.hallOk h then s.hallmap &&& ~~~(1#8 <<< h) else s.hallmap } := by
  unfold State.outOfService
  split
  · exact (((SameDevice.refl { s.modHall h Hall.gate with hallmap := s.hallmap &&& ~~~(1#8 <<< h) }).ringDown ..).ringDown .. :)
  · rfl

theorem State.loseHall_device (s : State) (h : Nat) : (s.loseHall h).device
    = { s.device with hallmap := if s.hallOk h then s.hallmap &&& ~~~(1#8 <<< h) else s.hallmap } := by
  unfold State.loseHall
  split
  · have a := ((SameDevice.refl { s.modHall h Hall.gate with hallmap := s.hallmap &&& ~~~(1#8 <<< h) }).ringDown
      ((h + 7) % 8) 4).ringDown ((h + 1) % 8) 3
    have b (l : List Nat) (e : LogEnt) := (a.foldl (f := fun s k => s.log k e) (fun _ _ h => h.log ..) l).notify 2 h
    dsimp only
    split
    · exact b ..
    · split
      · exact (SameDevice.ite ((b ..).leavePair _) ((b ..).failAll ..)).standAlone ..
      · exact SameDevice.ite ((b ..).leavePair _) ((b ..).failAll ..)
  · rfl

theorem State.hallOk_cleared {s t : State} {h : Nat}
    (e : t.device = { s.device with hallmap := if s.hallOk h then s.hallmap &&& ~~~(1#8 <<< h) else s.hallmap }) (k : Nat) :
    t.hallOk k = (s.hallOk k && decide (k ≠ h)) := by
  have m : t.hallmap = if s.hallOk h then s.hallmap &&& ~~~(1#8 <<< h) else s.hallmap := (congrArg State.hallmap e :)
  unfold State.hallOk
  rw [m]
  by_cases ho : s.hallOk h = true
  · have hh : h < 8 := by
      by_contra hh
      rw [State.hallOk, BitVec.getLsbD_of_ge _ _ (by omega)] at ho
      cases ho
    rw [if_pos ho, clearBit _ hh]
  · rw [if_neg ho]
    by_cases hk : k = h
    · subst hk
      simpa [State.hallOk] using ho
    · simp [hk]

/-! ### One hall's test -/

theorem State.test_modPort (s : State) (h i : Nat) (f : Port → Port) (k : Nat) : ((s.modPort h i f).hall k).test = (s.hall k).test := by
  rw [State.modPort, State.hall_modHall]
  split
  · next e => rw [e]; rfl
  · rfl

theorem State.test_grant (s : State) (h i : Nat) (k : Nat) : ((s.grant h i).hall k).test = (s.hall k).test :=
  List.foldl_keeps (fun s : State => (s.hall k).test) (fun t _ => t.test_modPort ..) _ s

theorem State.test_ringLink (s : State) (h k : Nat) : ((s.ringLink h).hall k).test = (s.hall k).test := by
  unfold State.ringLink
  dsimp only
  split
  · rw [State.test_grant, State.test_grant, State.test_modPort, State.test_modPort]
  · rfl

theorem Hall.test_tested (old : Hall) (x : Fuses) (h : Nat) (r : HallTest) (key : DWord × DWord) : (old.tested x h r key).test = x.judge h r := by
  unfold Hall.tested
  dsimp only
  split <;> rfl

/-- The device but for what the test of a hall decides. -/
def State.offTest (s : State) : State := { s.device with hallmap := 0, hallFail := 0, keyDrawsHbm := 0 }

/-- What the test of a hall decides. -/
theorem State.hallTested_spec (s : State) {h : Nat} (hh : h < 8) (r : HallTest) : let t := s.hallTested h r
    t.offTest = s.offTest
    ∧ (∀ k, (t.hall k).test = if k = h then s.fuses.judge h r else (s.hall k).test)
    ∧ (∀ k, t.hallOk k = if k = h then (s.fuses.judge h r).pass else s.hallOk k)
    ∧ (∀ k, t.hallFail.getLsbD k = if k = h then !(s.fuses.judge h r).pass else s.hallFail.getLsbD k) := by
  unfold State.hallTested
  extract_lets a b c t
  have ta (k : Nat) : (a.hall k).test = if k = h then s.fuses.judge h r else (s.hall k).test := by
    simp only [a]
    rw [State.hall_putHall]
    split
    · exact Hall.test_tested ..
    · rfl
  have tb (k : Nat) : (b.hall k).test = if k = h then s.fuses.judge h r else (s.hall k).test := ta k
  have pass : (b.hall h).test.pass = (s.fuses.judge h r).pass := by rw [tb, if_pos rfl]
  have tc (k : Nat) : (c.hall k).test = (b.hall k).test := by
    simp only [c]
    split <;> rfl
  have dc : c.offTest = s.offTest := by
    simp only [c]
    split <;> rfl
  have okc (k : Nat) : c.hallOk k = if k = h then (s.fuses.judge h r).pass else s.hallOk k := by
    simp only [c]
    split
    · next hp =>
      refine (setBit s.hallmap hh k).trans ?_
      rw [← pass, hp]
      split <;> simp [*, State.hallOk]
    · next hp =>
      refine (clearBit s.hallmap hh k).trans ?_
      rw [← pass, Bool.eq_false_iff.mpr hp]
      split <;> simp [*, State.hallOk]
  have failc (k : Nat) : c.hallFail.getLsbD k = if k = h then !(s.fuses.judge h r).pass else s.hallFail.getLsbD k := by
    simp only [c]
    split
    · next hp =>
      refine (clearBit s.hallFail hh k).trans ?_
      rw [← pass, hp]
      split <;> simp [*]
    · next hp =>
      refine (setBit s.hallFail hh k).trans ?_
      rw [← pass, Bool.eq_false_iff.mpr hp]
      split <;> simp [*]
  have d : SameDevice c t := ((SameDevice.refl c).ringLink _).ringLink h
  have tr (k : Nat) : (t.hall k).test = (c.hall k).test := by
    simp only [t]
    rw [State.test_ringLink, State.test_ringLink]
  clear_value a b c t
  refine ⟨(congrArg State.offTest d : t.device.offTest = c.device.offTest).trans dc, fun k => by rw [tr, tc, tb], fun k => ?_, fun k => ?_⟩
  · rw [← okc]
    exact (congrArg (fun s : State => s.hallOk k) d :)
  · rw [← failc]
    exact (congrArg (fun s : State => s.hallFail.getLsbD k) d :)

/-! ### Tests that start -/

theorem State.test_startTest (s : State) (h k : Nat) :
    ((s.startTest h).hall k).test = if k = h then { (s.hall k).test with result := 3 } else (s.hall k).test := by
  rw [State.startTest, State.hall_modHall]
  split
  · next e => rw [e]; rfl
  · rfl

theorem SameDevice.startTest {s t : State} (e : SameDevice s t) (h : Nat) : SameDevice s (t.startTest h) := e.modHall ..

/-- A hall of the list is under test once every hall of the list is. -/
theorem State.result_startTests {h : Nat} (l : List Nat) (s : State) (hh : h ∈ l ∨ (s.hall h).test.result = 3) :
    ((l.foldl State.startTest s).hall h).test.result = 3 := by
  induction l generalizing s with
  | nil => exact hh.resolve_left (by simp)
  | cons k l ih =>
    refine ih _ ?_
    rw [State.test_startTest]
    by_cases e : h = k
    · exact Or.inr (by rw [if_pos e])
    · rw [if_neg e]
      exact hh.imp (fun m => (List.mem_cons.mp m).resolve_left e) id

theorem SameDevice.nextTests {s t : State} (e : SameDevice s t) : SameDevice s t.nextTests := by
  unfold State.nextTests
  dsimp only
  split
  · exact e
  · split
    · exact e
    · exact e.foldl (fun _ _ h => h.startTest _) _

/-- Where no test runs, those of the lowest pair start. -/
theorem State.nextTests_starts {s : State} (hn : ∀ h, s.testing.getLsbD h = true → (s.hall h).test.result ≠ 3) {k : Nat} (hk : k < 4)
    (hmin : ∀ j < k, s.testing.getLsbD j = false ∧ s.testing.getLsbD (j + 4) = false) {h : Nat} (hh : h ∈ [k, k + 4])
    (hb : s.testing.getLsbD h = true) : (s.nextTests.hall h).test.result = 3 := by
  have want (j : Nat) : ((List.range 8).filter s.testing.getLsbD).contains j = (decide (j < 8) && s.testing.getLsbD j) := by
    rw [Bool.eq_iff_iff]
    simp
  have h8 : h < 8 := by
    simp only [List.mem_cons, List.not_mem_nil, or_false] at hh
    omega
  have hwant : ((List.range 8).filter s.testing.getLsbD).contains h = true := by rw [want, hb]; simpa using h8
  unfold State.nextTests
  dsimp only
  rw [if_neg]
  · have hfind : ((List.range 4).find? fun k => ((List.range 8).filter s.testing.getLsbD).contains k
        || ((List.range 8).filter s.testing.getLsbD).contains (k + 4)) = some k := by
      rw [List.find?_range_eq_some]
      refine ⟨?_, List.mem_range.mpr hk, fun j hj => ?_⟩
      · simp only [List.mem_cons, List.not_mem_nil, or_false] at hh
        rcases hh with rfl | rfl
        · rw [hwant, Bool.true_or]
        · rw [hwant, Bool.or_true]
      · rw [want, want, (hmin j hj).1, (hmin j hj).2]
        simp
    rw [hfind]
    exact State.result_startTests _ _ (Or.inl (List.mem_filter.mpr ⟨hh, hwant⟩))
  · rw [List.any_eq_true]
    rintro ⟨j, hj, h3⟩
    exact hn j (List.mem_filter.mp hj).2 (by simpa using h3)

/-! ### Halls that leave service for their test -/

theorem State.test_log (s : State) (h : Nat) (e : LogEnt) (k : Nat) : ((s.log h e).hall k).test = (s.hall k).test :=
  (congrArg Hall.test (((QueueFrame.refl s).log h e).hall k) :)

theorem State.test_ringDown (s : State) (h i k : Nat) : ((s.ringDown h i).hall k).test = (s.hall k).test := by
  unfold State.ringDown State.portDown
  split
  · rw [State.test_log, State.test_modPort]
  · rfl

theorem State.test_outOfService (s : State) (h k : Nat) : ((s.outOfService h).hall k).test = (s.hall k).test := by
  unfold State.outOfService
  split
  · rw [State.test_ringDown, State.test_ringDown]
    change ((s.modHall h Hall.gate).hall k).test = _
    rw [State.hall_modHall]
    split
    · next e => rw [e]; rfl
    · rfl
  · rfl

/-- A list of halls leaves service. -/
theorem State.outOfServices (l : List Nat) (s : State) : let t := l.foldl State.outOfService s
    t.offMap = s.offMap ∧ (∀ k, (t.hall k).test = (s.hall k).test) ∧ ∀ k ∈ l, t.hallOk k = false := by
  have ok (k : Nat) : ∀ (l : List Nat) (s : State), (k ∈ l ∨ s.hallOk k = false) → (l.foldl State.outOfService s).hallOk k = false := by
    intro l
    induction l with
    | nil => exact fun s h => h.resolve_left (by simp)
    | cons h l ih =>
      intro s hk
      refine ih _ ?_
      rw [State.hallOk_cleared (s.outOfService_device h)]
      by_cases e : k = h
      · exact Or.inr (by simp [e])
      · exact hk.imp (fun m => (List.mem_cons.mp m).resolve_left e) fun m => by simp [m]
  refine ⟨List.foldl_keeps State.offMap (fun t h => ?_) l s, fun k => ?_, fun k hk => ok k l s (Or.inl hk)⟩
  · exact (congrArg State.offMap (t.outOfService_device h) :)
  · exact List.foldl_keeps (fun s : State => (s.hall k).test) (fun t h => t.test_outOfService h k) l s

/-! ### The shared blocks -/

/-- The device without what WALKs and the training of the host link change. -/
def State.offWalk (s : State) : State :=
  { s with chainAddr := 0, chainValid := false, chainOut := [], heldWalks := [], linkStat := 0, clkreqLow := false, free := 0 }

theorem State.offWalk_walkServe (s : State) (f : ChainFrame) : (s.walkServe f).offWalk = s.offWalk := by
  have full (a b c d : Nat) : (s.walkFull f a b c d).offWalk = s.offWalk := by
    unfold State.walkFull
    dsimp only
    split <;> split <;> rfl
  have fill (a b c d : Nat) : (s.walkFill f a b c d).offWalk = s.offWalk := by
    unfold State.walkFill
    split
    · rfl
    · split <;> rfl
  unfold State.walkServe
  dsimp only
  split
  · rfl
  · split
    · exact full ..
    · split
      · exact fill ..
      · rfl

theorem State.offWalk_serveWalks (s : State) : s.serveWalks.offWalk = s.offWalk :=
  (List.foldl_keeps State.offWalk (fun t f => t.offWalk_walkServe f) s.heldWalks { s with heldWalks := [] } :)

/-- Shared blocks that fail leave the device in bypass. -/
theorem State.sharedTested_fails {s : State} (hs : s.chainStage = .starting) :
    (s.sharedTested false).chainStage = .bypass ∧ (s.sharedTested false).selfDone = s.selfDone := by
  obtain ⟨l, e⟩ := State.flushWalks_eq { s with chainStage := .bypass }
  have e' : s.sharedTested false = State.flushWalks { s with chainStage := .bypass } := by
    rw [State.sharedTested, if_neg (by simp [hs]), if_pos (by simp)]
  rw [e', e]
  exact ⟨rfl, rfl⟩

/-- Shared blocks that pass let it serve, and the tests of the first pair start. -/
theorem State.sharedTested_passes {s : State} (hs : s.chainStage = .starting) : let t := s.sharedTested true
    t.chainStage = .serving ∧ t.selfDone = s.selfDone ∧ (t.hall 0).test.result = 3 ∧ (t.hall 4).test.result = 3 := by
  have w := State.offWalk_serveWalks { s with chainStage := .serving, devDomains := 4 }
  unfold State.sharedTested
  rw [if_neg (by simp [hs]), if_neg (by simp)]
  extract_lets u v
  have hv : v.offWalk = State.offWalk { s with chainStage := .serving, devDomains := 4 } := by
    refine Eq.trans (b := u.offWalk) ?_ w
    simp only [v]
    clear_value u
    split <;> rfl
  have d : SameDevice v ((v.startTest 0).startTest 4) := ((SameDevice.refl v).startTest 0).startTest 4
  clear_value v
  refine ⟨(congrArg State.chainStage d :).trans (congrArg State.chainStage hv :), (congrArg State.selfDone d :).trans (congrArg State.selfDone hv :),
    ?_, ?_⟩
  · rw [State.test_startTest, if_neg (by decide), State.test_startTest, if_pos rfl]
  · rw [State.test_startTest, if_pos rfl]

/-- A pair of halls is judged, and the next pair's tests start. -/
theorem State.pairTested_judges {s : State} (hs : s.chainStage = .serving) (hd : s.selfDone = false) (hk : s.selfPair < 4) (a b : HallTest) :
    let t := s.pairTested a b
    t.selfPair = s.selfPair + 1 ∧ ∀ x ∈ [(s.selfPair, a), (s.selfPair + 4, b)], let j := s.fuses.judge x.1 x.2
      (t.hall x.1).test = j ∧ t.hallOk x.1 = j.pass ∧ t.hallFail.getLsbD x.1 = !j.pass := by
  obtain ⟨d1, t1, o1, f1⟩ := s.hallTested_spec (h := s.selfPair) (by omega) a
  obtain ⟨-, t2, o2, f2⟩ := (s.hallTested s.selfPair a).hallTested_spec (h := s.selfPair + 4) (by omega) b
  have fuses : (s.hallTested s.selfPair a).fuses = s.fuses := (congrArg State.fuses d1 :)
  rw [fuses] at t2 o2 f2
  unfold State.pairTested
  dsimp only
  rw [if_pos ⟨hs, hd, hk⟩]
  generalize (s.hallTested s.selfPair a).hallTested (s.selfPair + 4) b = u at t2 o2 f2
  have counted : u.countTests.halls = u.halls ∧ u.countTests.hallmap = u.hallmap ∧ u.countTests.hallFail = u.hallFail := ⟨rfl, rfl, rfl⟩
  generalize u.countTests = w at counted
  obtain ⟨wh, wm, wf⟩ := counted
  have hall (k : Nat) : w.hall k = u.hall k := by rw [State.hall, wh, State.hall]
  have ok (k : Nat) : w.hallOk k = u.hallOk k := by rw [State.hallOk, wm, State.hallOk]
  have judged : ∀ x ∈ [(s.selfPair, a), (s.selfPair + 4, b)], let j := s.fuses.judge x.1 x.2
      (w.hall x.1).test = j ∧ w.hallOk x.1 = j.pass ∧ w.hallFail.getLsbD x.1 = !j.pass := by
    intro x hx
    rw [hall, ok, wf]
    simp only [List.mem_cons, List.not_mem_nil, or_false] at hx
    rcases hx with rfl | rfl
    · refine ⟨?_, ?_, ?_⟩
      · rw [t2, if_neg (by simp), t1, if_pos rfl]
      · rw [o2, if_neg (by simp), o1, if_pos rfl]
      · rw [f2, if_neg (by simp), f1, if_pos rfl]
    · exact ⟨by rw [t2, if_pos rfl], by rw [o2, if_pos rfl], by rw [f2, if_pos rfl]⟩
  split
  · next h3 =>
    refine ⟨rfl, fun x hx => ?_⟩
    obtain ⟨j1, j2, j3⟩ := judged x hx
    refine ⟨?_, j2, j3⟩
    have hne : x.1 ≠ s.selfPair + 5 ∧ x.1 ≠ s.selfPair + 1 := by
      simp only [List.mem_cons, List.not_mem_nil, or_false] at hx
      rcases hx with rfl | rfl <;> dsimp only <;> omega
    rw [State.test_startTest, if_neg hne.1, State.test_startTest, if_neg hne.2]
    exact j1
  · exact ⟨rfl, judged⟩

/-- The last pair lets self-test end. -/
theorem State.selfFinished_done {s : State} (hs : s.chainStage = .serving) (hd : s.selfDone = false) (hk : s.selfPair = 4) :
    s.selfFinished.selfDone = true := by
  have n : SameDevice { s with selfDone := true } (State.notify { s with selfDone := true } 1 0xFF) := (SameDevice.refl _).notify ..
  unfold State.selfFinished
  rw [if_pos ⟨hs, hd, hk⟩]
  dsimp only
  generalize State.notify _ 1 0xFF = t at n
  have hn : t.selfDone = true := (congrArg State.selfDone n :)
  split
  · cases hz : t.freezing with
    | false =>
      have e := State.startFreeze_offSends (s := { t with byPin := true }) hz srcPin t.pinScope
      generalize State.startFreeze _ srcPin t.pinScope = u at e
      exact (congrArg State.selfDone e :).trans hn
    | true =>
      have e := State.offSideband_sbOrigin { t with byPin := true } 1
      rw [State.startFreeze_eq]
      unfold State.beginFreeze
      split
      · generalize State.sbOrigin _ 1 = u at e
        have hu : u.selfDone = true := (congrArg State.selfDone e :).trans hn
        split
        · exact hu
        · next hz' => exact absurd ((congrArg State.freezing e :).trans hz) hz'
      · split
        · exact hn
        · next hz' => exact absurd hz hz'
  · exact hn

/-- GO takes the named halls out of service and starts the tests of their lowest pair. -/
theorem State.writeSelfCtrl_go {s : State} {halls : Byte} (hz : s.freezing = false) (hbusy : s.selfBusy = false) (hne : halls ≠ 0)
    (hall : ∀ h, halls.getLsbD h = true → s.inPartition h = false ∧ (s.hall h).test.result ≠ 3) :
    let t := s.writeSelfCtrl 0 halls true
    t.selfBusy = true ∧ t.testing = halls ∧ (∀ h, halls.getLsbD h = true → t.hallOk h = false)
      ∧ ∀ k < 4, (∀ j < k, halls.getLsbD j = false ∧ halls.getLsbD (j + 4) = false) →
        ∀ h ∈ [k, k + 4], halls.getLsbD h = true → (t.hall h).test.result = 3 := by
  have mem (h : Nat) : h ∈ (List.range 8).filter halls.getLsbD ↔ halls.getLsbD h = true := by
    rw [List.mem_filter, List.mem_range]
    refine ⟨And.right, fun hb => ⟨?_, hb⟩⟩
    by_contra hh
    rw [BitVec.getLsbD_of_ge _ _ (by omega)] at hb
    cases hb
  have hnone : ((List.range 8).filter halls.getLsbD).any s.inPartition = false := by
    rw [List.any_eq_false]
    intro h hh
    rw [(hall h ((mem h).mp hh)).1]
    exact Bool.false_ne_true
  have hsome : ((List.range 8).filter halls.getLsbD).isEmpty = false := by
    rw [List.isEmpty_eq_false_iff_exists_mem]
    by_contra hno
    refine hne (BitVec.eq_of_getLsbD_eq fun i hi => ?_)
    have hi0 : (0 : Byte).getLsbD i = false := BitVec.getLsbD_zero
    rw [hi0, Bool.eq_false_iff]
    exact fun hb => hno ⟨i, (mem i).mpr hb⟩
  unfold State.writeSelfCtrl
  rw [if_neg (by simp), if_neg (by simp [hz])]
  dsimp only
  rw [hnone, hbusy, hsome, if_neg (by simp), if_neg (by simp)]
  obtain ⟨map, tests, ok⟩ := State.outOfServices ((List.range 8).filter halls.getLsbD)
    { s with selfHalls := halls, testing := halls, selfBusy := true }
  rw [Bool.not_false]
  generalize List.foldl State.outOfService _ _ = u at map tests ok
  have htest : u.testing = halls := (congrArg State.testing map :)
  have d : SameDevice u u.nextTests := (SameDevice.refl u).nextTests
  have idle (h : Nat) (hb : u.testing.getLsbD h = true) : (u.hall h).test.result ≠ 3 := by
    rw [tests]
    exact (hall h (htest ▸ hb)).2
  have starts {k : Nat} := State.nextTests_starts idle (k := k)
  rw [htest] at starts
  generalize u.nextTests = t at d starts
  refine ⟨(congrArg State.selfBusy d :).trans (congrArg State.selfBusy map :), (congrArg State.testing d :).trans htest, fun h hb => ?_,
    fun k hk hmin h hh hb => starts hk hmin hh hb⟩
  exact (congrArg (fun s : State => s.hallOk h) d :).trans (ok h ((mem h).mpr hb))

/-- A repeated test of one hall ends. -/
theorem State.retested_judges {s : State} {h : Nat} {r : HallTest} (hb : s.testing.getLsbD h = true) (h3 : (s.hall h).test.result = 3) :
    let t := s.retested h r
    t.hallOk h = (s.fuses.judge h r).pass ∧ t.testing.getLsbD h = false ∧ (t.selfBusy = true ↔ t.testing ≠ 0) := by
  have hh : h < 8 := by
    by_contra hh
    rw [BitVec.getLsbD_of_ge _ _ (by omega)] at hb
    cases hb
  obtain ⟨-, -, ok, -⟩ := s.hallTested_spec hh r
  unfold State.retested
  rw [if_pos ⟨hb, h3⟩]
  generalize s.hallTested h r = u at ok
  have counted : u.countTests.hallmap = u.hallmap := rfl
  generalize u.countTests = w at counted
  dsimp only
  have d := (SameDevice.refl { w with
    testing := w.testing &&& ~~~(1#8 <<< h), selfBusy := w.testing &&& ~~~(1#8 <<< h) != 0 }).nextTests
  generalize State.nextTests _ = t at d
  have ht : t.testing = w.testing &&& ~~~(1#8 <<< h) := (congrArg State.testing d :)
  have hb' : t.selfBusy = (w.testing &&& ~~~(1#8 <<< h) != 0) := (congrArg State.selfBusy d :)
  refine ⟨?_, ?_, ?_⟩
  · refine (congrArg (fun s : State => s.hallOk h) d :).trans ?_
    change w.hallmap.getLsbD h = _
    rw [counted]
    exact (ok h).trans (if_pos rfl)
  · rw [ht, clearBit _ hh]
    simp
  · rw [hb', ht, bne_iff_ne]

/-- Porter suspects a hall: it is lost, and its test is asked for. -/
theorem State.suspect_tests {s : State} {h : Nat} (hb : s.testing.getLsbD h = false) (hd : s.selfDone = true) (hh : h < 8) :
    let t := s.suspect h
    t.hallOk h = false ∧ t.testing.getLsbD h = true ∧ t.selfBusy = true := by
  have e := s.loseHall_device h
  have ok := State.hallOk_cleared e h
  unfold State.suspect
  rw [if_pos ⟨hd, hb⟩]
  generalize s.loseHall h = u at e ok
  dsimp only
  have d := (SameDevice.refl { u with testing := u.testing ||| (1#8 <<< h), selfBusy := true }).nextTests
  generalize State.nextTests _ = t at d
  refine ⟨(congrArg (fun s : State => s.hallOk h) d :).trans ?_, ?_, (congrArg State.selfBusy d :)⟩
  · exact (ok :).trans (by simp)
  have ht : t.testing = u.testing ||| (1#8 <<< h) := (congrArg State.testing d :)
  rw [ht, setBit _ hh]
  simp

/-- Settles O46: pairs are judged by the lemmas above, and a repeated test starts with the lowest pair that it names. -/
theorem selfTestDecidesTheHalls : Obligations.SelfTestDecidesTheHalls := by
  unfold Obligations.SelfTestDecidesTheHalls
  intro s
  exact ⟨fun hs => ⟨⟨_, rfl, State.sharedTested_fails hs⟩, ⟨_, rfl, State.sharedTested_passes hs⟩⟩,
    fun hs hd => ⟨fun a b hk => ⟨_, rfl, State.pairTested_judges hs hd hk a b⟩, fun hk => ⟨_, rfl, State.selfFinished_done hs hd hk⟩⟩,
    fun halls hz hbusy hne hall => ⟨_, rfl, State.writeSelfCtrl_go hz hbusy hne hall⟩,
    fun h => ⟨fun r hb h3 => ⟨_, rfl, State.retested_judges hb h3⟩, fun hb hd hh => ⟨_, rfl, State.suspect_tests hb hd hh⟩⟩⟩

end Sys2Proof.Machine
end

section
/-! PROOFS. Plans at their swap, bindings, residency and slices. -/

namespace Sys2Proof.Machine

/-! ### O57: what a plan keeps of the bays is formed anew at its swap -/

/-- The bays that the active plan of a partition keeps, of an outcome that goes on. -/
def Out.keptBy (v : Fn) : Out → Option (List (List KeptBay))
  | .next t => (t.part v).plan.map Plan.kept
  | _ => none

/-- A plan of one hall that stands by with a bay whose tensor has left it since the plan was read. -/
def stalePlan : Plan :=
  { planId := 5, strict := false, scissorF := false, test := false, phalls := 1, struct_ := [],
    tables := ⟨[], [], [], [], [], [], [], []⟩, funcs := [], tensors := [], sched := [], rescale := [], trees := [],
    routes := [], vchans := [], seedM := [], streams := [], tau := 0x2E00, strikeWin := 65536, staging := 0, pols := [],
    bounds := ⟨50, 1000000, 40, 100⟩, scissor := none, pairDigest := [], ledgers := [], canon := (true, true, true),
    funcNc := 0, kept := [[⟨7, 0, 0, []⟩]] }

/-- The running LOAD that has read the plan. -/
def staleCmd : Cmd :=
  { slot := 0, seq := 0, opcode := opLOAD, desc := ⟨0, 0, 7, 0, 0, [0, 0, 0, 0], List.replicate 32 0⟩, tds := [], tens := [],
    known := true, phase := .running, kills := 0, faultKills := 0, race := false, absentF := false, firstT := none,
    mism := 0, evid := 0, evidP := 0, tauTest := false, att := Attempt.empty }

/-- That load's turn has come: hall 0 is partition 1, and nothing else runs. -/
def staleLoad : State :=
  { State.reset with
    hallmap := 1,
    parts := [(1, { Part.reset with bindReq := true, bound := true, loading := some ⟨0, 0, stalePlan, true, false⟩ })],
    jobs := [(0, { Job.reset with cmds := [staleCmd] })] }

theorem staleLoad_swap : Out.keptBy 1 (exec (.planBankSwap 1) staleLoad) = some [[]] := by decide +kernel

theorem staleLoad_ready :
    staleLoad.frozen = false ∧ (staleLoad.part 1).loading = some ⟨0, 0, stalePlan, true, false⟩
      ∧ staleLoad.cmd? 0 0 = some staleCmd ∧ staleLoad.swapReady 1 ⟨0, 0, stalePlan, true, false⟩ = true
      ∧ ((staleLoad.part 1).halls.all fun h => (staleLoad.hall h).rowsFree && (staleLoad.hall h).holdValid.isEmpty) = true
      ∧ staleCmd.att.hits = [] := by decide +kernel

/-- Refutes O57: `swapBanks` stores the plan with the bays that it keeps formed anew (`Plan.keeps`), so the plan that
becomes active is not the one that stood by when a bay has changed since that was read. Here the plan that stands by
keeps bay 0 of gallery 0, which holds nothing any more, and the active plan keeps none. -/
theorem not_plansPairAndSwap : ¬ Obligations.PlansPairAndSwap := by
  unfold Obligations.PlansPairAndSwap
  intro h
  obtain ⟨hfrozen, hload, hcmd, hready, hfree, hhits⟩ := staleLoad_ready
  obtain ⟨hswap, -, hplanned⟩ := ((h staleLoad 1 _ hfrozen hload).1 staleCmd hcmd hready).1 hfree
  obtain ⟨t, hrun, hplan, -⟩ := hswap stalePlan (congrArg Prod.snd (hplanned hhits))
  have hkept := staleLoad_swap
  rw [hrun] at hkept
  have hstale : Out.keptBy 1 (.next t) = some [[⟨7, 0, 0, []⟩]] := congrArg (Option.map Plan.kept) hplan
  exact absurd (hkept.symm.trans hstale) (by decide)

end Sys2Proof.Machine
end

section
/-! PROOFS. What stages bytes, and where it stores them. -/

namespace Sys2Proof.Machine

/-! ### O22: a LOAD of a scale plane stores where a tensor without one would have it -/

/-- A tensor of one element, without a scale plane and a side list, whose descriptor names a plane's place all the same. -/
def bareDesc : TDesc :=
  { fmtRaw := 0, affRaw := 0, tensor := 7, host := false, dogleg := true, rsv := false, rows := 1, cols := 1, pitch := 64,
    addr0 := 0, addr1 := 64, plane := 0x1000, side := 0 }

/-- The running LOAD of its fine codes (PART 1, COUNT 1) from host address 0x4000. -/
def bareLoad : Cmd :=
  { slot := 0, seq := 0, opcode := opLOAD,
    desc := ⟨0, 0, 7, 0, 0, [0, 0, 0, 0], [1, 0, 0, 0, 1, 0, 0, 0, 0, 0x40] ++ List.replicate 22 0⟩, tds := [], tens := [],
    known := true, phase := .running, kills := 0, faultKills := 0, race := false, absentF := false, firstT := none,
    mism := 0, evid := 0, evidP := 0, tauTest := false,
    att := { Attempt.empty with uses := [⟨0, bareDesc, 0, none, 0, 0, 0, 0, false, false, true⟩] } }

def bareState : State :=
  { State.reset with host := [(0x4000, 5)], jobs := [(0, { Job.reset with cmds := [bareLoad] })] }

/-- The command has finished, it stages the element's other face alone, and the plane's byte has changed. -/
def Out.storedAt (q : Page) (slot : Nat) (b : Nat) : Out → Option (Bool × List Span × Byte)
  | .next t => some ((t.att q slot).finished, (t.att q slot).stagedSpans 0, memRead (t.hall 0).hbm b)
  | _ => none

theorem bareState_load : Out.storedAt 0 0 0x1040 (exec (.load 0 (.work 0)) bareState) = some (true, [(64, 8)], 5) := by
  decide +kernel

/-- Refutes O22: `loadPlane` stores at the plane's address of a descriptor whatever its format word says, and a tensor
without a scale plane has no plane among its faces. The LOAD of PART 1 into such a tensor puts a byte at the place that the
descriptor names for a plane, outside every face that it stages. -/
theorem not_stagedBytesStayInTheirFaces : ¬ Obligations.StagedBytesStayInTheirFaces := by
  unfold Obligations.StagedBytesStayInTheirFaces
  rintro ⟨-, h⟩
  have hload := bareState_load
  cases hrun : exec (.load 0 (.work 0)) bareState with
  | next t =>
    rw [hrun] at hload
    simp only [Out.storedAt, Option.some.injEq, Prod.mk.injEq] at hload
    obtain ⟨hfinished, hspans, hbyte⟩ := hload
    have hsame := h bareState t 0 0 .load (List.mem_cons_self ..) hrun hfinished (by decide) 0 0x1040
      (by rw [hspans]; decide)
    exact absurd (hbyte.symm.trans hsame) (by decide)
  | _ => rw [hrun] at hload; cases hload

end Sys2Proof.Machine
end

section
/-! PROOFS. Bindings of partitions and residency of jobs. -/

namespace Sys2Proof.Machine

/-! ### What a change of halls leaves alone -/

/-- A state without its halls. -/
def State.offHalls (s : State) : State := { s with halls := [] }

theorem State.offHalls_parts {s t : State} (h : t.offHalls = s.offHalls) : t.parts = s.parts := (congrArg State.parts h :)
theorem State.offHalls_jobs {s t : State} (h : t.offHalls = s.offHalls) : t.jobs = s.jobs := (congrArg State.jobs h :)

theorem State.offHalls_modHalls (f : Nat → Hall → Hall) (l : List Nat) (s : State) :
    (l.foldl (fun s h => s.modHall h (f h)) s).offHalls = s.offHalls :=
  List.foldl_keeps State.offHalls (fun _ _ => by rfl) l s

theorem State.offHalls_regrant (u t : State) (h i : Nat) : (u.regrant t h i).offHalls = t.offHalls := by
  unfold State.regrant
  split
  · exact List.foldl_keeps State.offHalls (fun _ _ => by rfl) _ t
  · rfl

theorem State.offHalls_regrantAll (u t : State) (l : List Nat) :
    (l.foldl (fun t h => (List.range 5).foldl (fun t i => State.regrant u t h i) t) t).offHalls = t.offHalls :=
  List.foldl_keeps State.offHalls (fun t h => List.foldl_keeps State.offHalls (fun t i => u.offHalls_regrant t h i) _ t) l t

theorem Part.halls_nodup (p : Part) : p.halls.Nodup :=
  List.nodup_range.map fun _ _ h => Nat.add_left_cancel h

theorem pageOf_pageFn (q : Page) : pageOf (pageFn q) (pageJob q) = q := by
  show @Eq Nat (16 * (q / 16 + 1 - 1) + q % 16) q
  omega

/-! ### A job that gives up its rows -/

theorem Hall.dropJob_rowMap (H : Hall) (j : Nat) : ((H.dropJob j).job j).rowMap = [] := by
  unfold Hall.dropJob
  simp [Hall.job_putJob, HJob.vacate]

theorem State.dropJob_hall (s : State) (v : Fn) (j k : Nat) :
    (s.dropJob v j).hall k = if k ∈ (s.part v).halls then (s.hall k).dropJob j else s.hall k :=
  State.hall_foldl_modHall (fun _ H => H.dropJob j) (Part.halls_nodup _) s k

/-- A job that is dropped is not resident; its partition may lose its holder. -/
theorem State.dropJob_job (s : State) (v : Fn) (j : Nat) (q : Page) :
    (s.dropJob v j).job q = if q = pageOf v j then { s.job q with resident := false } else s.job q := by
  have hoff := State.offHalls_modHalls (fun _ H => H.dropJob j) (s.part v).halls s
  unfold State.dropJob
  generalize (s.part v).halls.foldl _ s = t at hoff
  rw [State.job_modPart, State.job_modJob, State.job_of_jobs (State.offHalls_jobs hoff), State.job_of_jobs (State.offHalls_jobs hoff)]
  split
  · next e => rw [e]
  · rfl

theorem State.dropJob_part (s : State) (v : Fn) (j : Nat) :
    (s.dropJob v j).part v = { s.part v with
      holder := if (s.part v).holder = some j then none else (s.part v).holder,
      sliceOver := (s.part v).sliceOver && (s.part v).holder != some j } := by
  have hoff := State.offHalls_modHalls (fun _ H => H.dropJob j) (s.part v).halls s
  unfold State.dropJob
  generalize (s.part v).halls.foldl _ s = t at hoff
  rw [State.part_modPart_self, State.part_modJob, State.part_of_parts (State.offHalls_parts hoff)]

/-- No job of a partition is resident once each has been dropped. -/
theorem State.dropJobs_resident (v : Fn) (l : List Nat) (s : State) (q : Page) :
    ((l.foldl (fun s j => s.dropJob v j) s).job q).resident = true → (s.job q).resident = true ∧ ∀ j ∈ l, q ≠ pageOf v j := by
  induction l generalizing s with
  | nil => exact fun h => ⟨h, by simp⟩
  | cons j l ih =>
    intro h
    obtain ⟨hres, hne⟩ := ih _ h
    rw [State.dropJob_job] at hres
    split at hres
    · cases hres
    · next hq => exact ⟨hres, List.forall_mem_cons.mpr ⟨hq, hne⟩⟩

/-- What a binding keeps of a partition through the jobs that it drops. -/
def Part.offHolding (p : Part) : Part := { p with holder := none, sliceOver := false }

theorem State.dropJobs_part (v : Fn) (l : List Nat) (s : State) :
    ((l.foldl (fun s j => s.dropJob v j) s).part v).offHolding = (s.part v).offHolding :=
  List.foldl_keeps (fun t : State => (t.part v).offHolding) (fun t j => by rw [State.dropJob_part]; rfl) l s

/-! ### A binding and its end -/

/-- The conditions of R315 look at the other partitions alone. -/
theorem State.bindOk_modPart (s : State) (v : Fn) (f : Part → Part) (base size : Nat) (rekey : Bool) :
    (s.modPart v f).bindOk v base size rekey = s.bindOk v base size rekey := by
  unfold State.bindOk
  have hany : ∀ h, (((List.range 8).map (· + 1)).any fun w => w != v && ((s.modPart v f).part w).bindReq
      && ((List.range (2 ^ ((s.modPart v f).part w).size)).map (((s.modPart v f).part w).base + ·)).contains h)
      = (((List.range 8).map (· + 1)).any fun w => w != v && (s.part w).bindReq
      && ((List.range (2 ^ (s.part w).size)).map ((s.part w).base + ·)).contains h) := by
    intro h
    congr 1
    funext w
    by_cases hw : w = v
    · simp [hw]
    · rw [State.part_modPart, if_neg hw]
  simp only [hany]
  rfl

theorem State.rekeySet_hall (s : State) (base size i : Nat) (hi : i < 2 ^ size) :
    (s.rekeySet base size).hall (base + i)
      = { s.hall (base + i) with
            key := Config.interleaveKey s.keyDrawsHbm, hbm := [], poison := [], shrHead := 0, xlogHead := 0, clogHead := 0 } := by
  unfold State.rekeySet
  extract_lets k drawn
  have hn : ((List.range (2 ^ size)).map (base + ·)).Nodup := List.nodup_range.map fun _ _ h => Nat.add_left_cancel h
  refine (State.hall_foldl_modHall (fun _ H => { H with
    key := k, hbm := [], poison := [], shrHead := 0, xlogHead := 0, clogHead := 0 }) hn drawn (base + i)).trans ?_
  rw [if_pos (List.mem_map.mpr ⟨i, List.mem_range.mpr hi, rfl⟩)]
  rfl

/-- A partition whose binding takes effect. -/
def Part.boundAs (p : Part) : Part :=
  { Part.reset with base := p.base, size := p.size, bindReq := true, bound := true, bindErr := p.bindErr }

/-- A hall of a partition whose binding takes effect. -/
def Hall.atBinding (H : Hall) : Hall := { H with step := 0, sampler := [] }

/-- A partition whose binding takes effect, and the jobs that it drops. -/
def State.rebound (s : State) (v : Fn) : State :=
  (List.range 16).foldl (fun s j => s.dropJob v j) (s.modPart v Part.boundAs)

theorem State.bindEffect_eq {s : State} {v : Fn} (hr : (s.part v).bindReq = true) (hb : (s.part v).bound = false) :
    s.bindEffect v = ((s.rebound v).part v).halls.foldl (fun t h => t.modHall h Hall.atBinding) (s.rebound v) :=
  if_pos ⟨hr, by rw [hb]; rfl⟩

theorem State.rebound_part (s : State) (v : Fn) :
    ((s.rebound v).part v).offHolding = (s.part v).boundAs.offHolding := by
  refine (State.dropJobs_part v _ _).trans ?_
  rw [State.part_modPart_self]

theorem State.bindEffect_bound {s : State} {v : Fn} (hr : (s.part v).bindReq = true) (hb : (s.part v).bound = false) :
    ((s.bindEffect v).part v).bound = true ∧ ((s.bindEffect v).part v).plan = none ∧ ((s.bindEffect v).part v).sems = []
      ∧ ∀ h ∈ ((s.bindEffect v).part v).halls, ((s.bindEffect v).hall h).step = 0 ∧ ((s.bindEffect v).hall h).sampler = [] := by
  have hpart := s.rebound_part v
  rw [State.bindEffect_eq hr hb]
  generalize s.rebound v = d at hpart
  rw [State.part_of_parts (State.offHalls_parts (State.offHalls_modHalls (fun _ => Hall.atBinding) (d.part v).halls d))]
  refine ⟨(congrArg Part.bound hpart :), (congrArg Part.plan hpart :), (congrArg Part.sems hpart :), fun h hh => ?_⟩
  rw [State.hall_foldl_modHall (fun _ => Hall.atBinding) (Part.halls_nodup _) d h, if_pos hh]
  exact ⟨rfl, rfl⟩

/-- The partition that an unbinding leaves, and its jobs. -/
theorem State.unbindPart_leaves (s : State) (v : Fn) :
    (s.unbindPart v).part v
        = { Part.reset with base := (s.part v).base, size := (s.part v).size, bindErr := (s.part v).bindErr }
      ∧ ∀ j < 16, ((s.unbindPart v).job (pageOf v j)).resident = false := by
  unfold State.unbindPart
  extract_lets hs dropped left reset emptied
  have hoff := State.offHalls_regrantAll s emptied hs
  generalize hs.foldl _ emptied = t at hoff
  have hleft := State.offHalls_modHalls (fun _ H => H.leave) hs dropped
  constructor
  · rw [State.part_of_parts (State.offHalls_parts hoff)]
    refine (State.part_modPart_self ..).trans ?_
    rw [State.part_of_parts (State.offHalls_parts hleft)]
    have hkept := State.dropJobs_part v (List.range 16) s
    generalize dropped.part v = d at hkept
    have hb : d.base = (s.part v).base := (congrArg Part.base hkept :)
    have hsz : d.size = (s.part v).size := (congrArg Part.size hkept :)
    have he : d.bindErr = (s.part v).bindErr := (congrArg Part.bindErr hkept :)
    rw [hb, hsz, he]
  · intro j hj
    rw [State.job_of_jobs (State.offHalls_jobs hoff)]
    refine Bool.eq_false_iff.mpr fun hr => ?_
    rw [show (emptied.job (pageOf v j)) = left.job (pageOf v j) from rfl, State.job_of_jobs (State.offHalls_jobs hleft)] at hr
    exact (State.dropJobs_resident v _ s _ hr).2 j (List.mem_range.mpr hj) rfl

theorem exec_bound (s : State) (v : Fn) (base : BitVec 3) (size : BitVec 2) :
    exec (.bound 0 v base size) s = .next (s.writeBind 0 v base.toNat size.toNat true false) := rfl
theorem exec_rekey (s : State) (v : Fn) (base : BitVec 3) (size : BitVec 2) :
    exec (.rekey 0 v base size) s = .next (s.writeBind 0 v base.toNat size.toNat true true) := rfl
theorem exec_bindEffect (s : State) (v : Fn) : exec (.bindingTakesEffect v) s = .next (s.bindEffect v) := rfl

/-- A write of BOUND while no binding is asked for, as R315 decides. -/
theorem State.writeBind_asks {s : State} {v : Fn} (hz : s.freezing = false) (hr : (s.part v).bindReq = false) (base size : Nat)
    (rekey : Bool) :
    s.writeBind 0 v base size true rekey
      = if s.bindOk v base size rekey then
          (if rekey then (s.modPart v fun p => { p with base := base, size := size }).rekeySet base size
            else s.modPart v fun p => { p with base := base, size := size }).modPart v fun p => { p with bindReq := true }
        else (s.modPart v fun p => { p with base := base, size := size }).modPart v fun p => { p with bindErr := true } := by
  unfold State.writeBind
  extract_lets p asked
  rw [if_neg (by decide), if_neg (by simp [hz]), if_neg (c := p.bindReq = true) (by simp [p, hr]), if_neg (by decide)]
  rw [show asked.bindOk v base size rekey = _ from State.bindOk_modPart ..]

theorem exec_unbind (s : State) (v : Fn) (hz : s.freezing = false) (hr : (s.part v).bindReq = true) :
    exec (.unbind 0 v) s = .next (s.unbind v) := by
  refine congrArg Host.Outcome.next (?_ : s.writeBind 0 v (s.part v).base (s.part v).size false false = s.unbind v)
  unfold State.writeBind
  extract_lets p asked
  rw [if_neg (by decide), if_neg (by simp [hz]), if_pos hr, if_neg (by decide)]

/-- Settles O55: a binding that R315 admits is asked for, under REKEY over cleared stacks; it takes effect over a reset
partition, and its end resets the partition again. -/
theorem partitionsBindAndUnbind : Obligations.PartitionsBindAndUnbind := by
  unfold Obligations.PartitionsBindAndUnbind
  intro s v base size hz _ _
  refine ⟨fun hr => ⟨fun hok => ⟨_, exec_bound .., ?_⟩, fun hbad => ⟨_, exec_bound .., ?_⟩, fun hok => ⟨_, exec_rekey .., ?_⟩⟩,
    fun hr hb => ⟨⟨_, exec_bindEffect .., State.bindEffect_bound hr hb⟩, ⟨_, exec_unbind s v hz hr, ?_⟩⟩,
    fun hr hb => ⟨_, exec_unbind s v hz hr, ?_⟩⟩
  · rw [State.writeBind_asks hz hr, if_pos hok, if_neg (by decide)]
    simp
  · rw [State.writeBind_asks hz hr, if_neg (by simp [hbad])]
    simp [hr]
  · rw [State.writeBind_asks hz hr, if_pos hok, if_pos rfl]
    refine ⟨by simp, fun i hi => ?_⟩
    rw [State.hall_modPart, State.rekeySet_hall _ _ _ _ hi]
    exact ⟨rfl, rfl, rfl⟩
  · unfold State.unbind
    rw [if_neg (by simp [hb])]
    exact ⟨by simp, rfl⟩
  · unfold State.unbind
    rw [if_pos hb]
    extract_lets closed failed
    obtain ⟨hpart, hres⟩ := failed.unbindPart_leaves v
    rw [hpart]
    exact ⟨rfl, rfl, rfl, rfl, hres⟩

/-! ### Residency -/

theorem exec_residentSet (s : State) (q : Page) (w : Bool) (hz : s.freezing = false) :
    exec (.residentSet 0 q w) s = .next (s.setResident 0 q true w) := by
  refine congrArg Host.Outcome.next (?_ : s.writeJobCtrl 0 q (BitVec.ofNat 32 (1 + 2 * b2n w)) = _)
  unfold State.writeJobCtrl
  rw [if_neg (by decide), if_neg (by simp [hz])]
  cases w <;> rfl

theorem exec_residentClear (s : State) (q : Page) (w : Bool) (hz : s.freezing = false) :
    exec (.residentClear 0 q w) s = .next (s.setResident 0 q false w) := by
  refine congrArg Host.Outcome.next (?_ : s.writeJobCtrl 0 q (BitVec.ofNat 32 (2 * b2n w)) = _)
  unfold State.writeJobCtrl
  rw [if_neg (by decide), if_neg (by simp [hz])]
  cases w <;> rfl

/-- One hall gives a job the rows that are drawn for it. -/
def State.admitHall (j : Nat) (s : State) (h : Nat) : State :=
  let m : Tab Nat := s.drawMap h ((s.hall h).job j).rows s.free
  let s := s.modHall h fun H =>
    ({ H with taken := H.taken ++ m.map fun (e : Nat × Nat) => e.2 }).putJob j { (H.job j).vacate with rowMap := m }
  { s with free := s.free + 64 }

theorem State.drawMap_length (s : State) (h n k : Nat) : (s.drawMap h n k).length = 64 * n := by
  unfold State.drawMap
  simp

/-- A hall with the rows of a job. -/
def Hall.giveRows (H : Hall) (j : Nat) (m : Tab Nat) : Hall :=
  ({ H with taken := H.taken ++ m.map fun (e : Nat × Nat) => e.2 }).putJob j { (H.job j).vacate with rowMap := m }

theorem State.admitHall_hall (j : Nat) (s : State) (h k : Nat) :
    (s.admitHall j h).hall k = (s.modHall h fun H => H.giveRows j (s.drawMap h ((s.hall h).job j).rows s.free)).hall k := rfl

theorem State.admitHall_other (j : Nat) (s : State) {h k : Nat} (hk : k ≠ h) : (s.admitHall j h).hall k = s.hall k := by
  rw [State.admitHall_hall, State.hall_modHall, if_neg hk]

theorem State.admitHall_rowMap (j : Nat) (s : State) (h : Nat) :
    (((s.admitHall j h).hall h).job j).rowMap.length = 64 * ((s.hall h).job j).rows := by
  rw [State.admitHall_hall, State.hall_modHall_self, Hall.giveRows, Hall.job_putJob, if_pos rfl]
  exact s.drawMap_length ..

theorem State.admitHalls_other (j : Nat) (l : List Nat) (s : State) {k : Nat} (hk : k ∉ l) :
    (l.foldl (State.admitHall j) s).hall k = s.hall k := by
  induction l generalizing s with
  | nil => rfl
  | cons h l ih =>
    obtain ⟨hh, hl⟩ := List.ne_and_not_mem_of_not_mem_cons hk
    exact (ih _ hl).trans (State.admitHall_other j s hh)

theorem State.admitHalls_rowMap (j : Nat) {l : List Nat} (hl : l.Nodup) (s : State) {k : Nat} (hk : k ∈ l) :
    (((l.foldl (State.admitHall j) s).hall k).job j).rowMap.length = 64 * ((s.hall k).job j).rows := by
  induction l generalizing s with
  | nil => cases hk
  | cons h l ih =>
    obtain ⟨hh, hl⟩ := List.nodup_cons.mp hl
    rcases List.mem_cons.mp hk with rfl | hk
    · rw [List.foldl_cons, State.admitHalls_other j l _ hh]
      exact State.admitHall_rowMap j s k
    · rw [List.foldl_cons, ih hl _ hk, State.admitHall_other j s fun e : k = h => hh (e ▸ hk)]

theorem State.admitHalls_jobs (j : Nat) (l : List Nat) (s : State) : (l.foldl (State.admitHall j) s).jobs = s.jobs :=
  State.jobs_foldl (fun _ _ => by rfl) l s

theorem State.admitJob_eq (s : State) (v : Fn) (j : Nat) :
    s.admitJob v j = ((s.part v).halls.foldl (State.admitHall j) s).modJob (pageOf v j) fun x => { x with resident := true } := rfl

theorem State.admitJob_hall (s : State) (v : Fn) (j k : Nat) :
    (s.admitJob v j).hall k = ((s.part v).halls.foldl (State.admitHall j) s).hall k := by
  rw [State.admitJob_eq, State.hall_modJob]

theorem State.admitJob_job (s : State) (q : Page) :
    (s.admitJob (pageFn q) (pageJob q)).job q = { s.job q with resident := true } := by
  rw [State.admitJob_eq, pageOf_pageFn, State.job_modJob_self, State.job_of_jobs (State.admitHalls_jobs ..)]

/-- WCOMMON of a job is no condition of R247. -/
theorem State.residents_modJob (s : State) (q : Page) {f : Job → Job} (hf : ∀ j, (f j).resident = j.resident) (v : Fn) :
    (s.modJob q f).residents v = s.residents v := by
  unfold State.residents
  refine List.filter_congr fun j _ => ?_
  rw [State.job_modJob]
  split
  · next e => rw [hf, ← e]
  · rfl

/-- RESIDENT of a job that every hall of its partition admits. -/
theorem State.setResident_admits {s : State} {q : Page} (w : Bool) (he : (s.job q).enabled = false) (hr : (s.job q).resident = false)
    (hb : (s.part (pageFn q)).bound = true)
    (ha : ∀ h ∈ (s.part (pageFn q)).halls,
      (s.hall h).admits (s.residents (pageFn q)) (((s.part (pageFn q)).plan.map Plan.staging).getD 0) (pageJob q) = true) :
    s.setResident 0 q true w
      = ((s.modJob q fun x => { x with wcommon := w }).admitJob (pageFn q) (pageJob q)).rehold (pageFn q) := by
  unfold State.setResident
  extract_lets v j J t P others staging
  rw [if_neg (by simp [J, he]), if_neg (by simp [J, hr]), if_neg (by decide)]
  refine if_pos ⟨hb, List.all_eq_true.mpr fun h hh => ?_⟩
  rw [show others = s.residents (pageFn q) from State.residents_modJob s q (f := fun x => { x with wcommon := w }) (fun _ => rfl) _]
  exact ha h hh

theorem State.setResident_clears {s : State} {q : Page} (w : Bool) (he : (s.job q).enabled = false) (hr : (s.job q).resident = true) :
    s.setResident 0 q false w
      = ((s.modJob q fun x => { x with wcommon := w }).dropJob (pageFn q) (pageJob q)).rehold (pageFn q) := by
  unfold State.setResident
  extract_lets v j J t
  rw [if_neg (by simp [J, he]), if_neg (by simp [J, hr])]
  exact if_pos rfl

theorem State.rehold_hall (s : State) (v : Fn) (k : Nat) : (s.rehold v).hall k = s.hall k :=
  ((HolderFrame.refl s).rehold v).hall k

theorem State.rehold_resident (s : State) (v : Fn) (q : Page) :
    ((s.rehold v).job q).resident = (s.job q).resident ∧ ((s.rehold v).job q).wcommon = (s.job q).wcommon := by
  rw [State.job_rehold]
  exact ⟨rfl, rfl⟩

/-! ### Epochs and the Mezzanine -/

theorem exec_epochWrite (s : State) (h j : Nat) (e : BitVec 16) (hb : s.epochBusy h j = false) :
    exec (.epochWrite 0 h j e) s = .next (s.setEpoch h j e) :=
  congrArg Host.Outcome.next (if_neg (by simp [hb]))

/-- The halls in which a write of an epoch takes effect. -/
def State.epochHalls (s : State) (h : Nat) : List Nat := ((s.ownerOf h).map fun v => (s.part v).halls).getD [h]

/-- What a write of the epoch leaves of a job in a hall. -/
def HJob.begin_ (e : BitVec 16) (J : HJob) : HJob := { J.vacate with epoch := e.toNat, rowMap := J.rowMap }

theorem State.setEpoch_eq (s : State) (h j : Nat) (e : BitVec 16) :
    s.setEpoch h j e = (s.epochHalls h).foldl (fun s k => s.modHJob k j (HJob.begin_ e)) s := by
  unfold State.setEpoch State.epochHalls
  cases s.ownerOf h <;> rfl

theorem State.epochHalls_nodup (s : State) (h : Nat) : (s.epochHalls h).Nodup := by
  unfold State.epochHalls
  cases s.ownerOf h with
  | none => exact List.nodup_singleton h
  | some v => exact Part.halls_nodup _

theorem State.mem_epochHalls {s : State} {h k : Nat}
    (hk : (s.ownerOf h = none ∧ k = h) ∨ ∃ o, s.ownerOf h = some o ∧ k ∈ (s.part o).halls) : k ∈ s.epochHalls h := by
  unfold State.epochHalls
  rcases hk with ⟨ho, rfl⟩ | ⟨o, ho, hk⟩
  · rw [ho]
    exact List.mem_singleton.mpr rfl
  · rw [ho]
    exact hk

theorem State.setEpoch_job (s : State) (h j k : Nat) (e : BitVec 16) (hk : k ∈ s.epochHalls h) :
    ((s.setEpoch h j e).hall k).job j = HJob.begin_ e ((s.hall k).job j) := by
  rw [State.setEpoch_eq]
  refine (congrArg (fun H => Hall.job H j) ((State.hall_foldl_modHall (fun _ H => H.putJob j (HJob.begin_ e (H.job j)))
    (s.epochHalls_nodup h) s k).trans (if_pos hk))).trans ?_
  exact (Hall.job_putJob ..).trans (if_pos rfl)

theorem State.setEpoch_jobs (s : State) (h j : Nat) (e : BitVec 16) : (s.setEpoch h j e).jobs = s.jobs := by
  rw [State.setEpoch_eq]
  exact State.jobs_foldl (fun _ _ => by rfl) _ s

theorem exec_mezzEnable {s : State} {h : Nat} (hm : (s.hall h).mezzOn = false) (ha : s.mezzMeets h = false) (ph : BitVec 3)
    (pa : BitVec 18) :
    exec (.mezzEnable 0 h ph pa) s
      = .next (s.modHall h fun H => { H with mezzOn := true, mezzHall := ph.toNat, mezzAddr := pa.toNat }) := by
  refine congrArg Host.Outcome.next (?_ : s.writeMezzCfg 0 h true ph pa = _)
  unfold State.writeMezzCfg
  rw [if_neg (by decide), if_neg (by simp [hm]), if_neg (by simp [ha])]

/-- Settles O56: each hall that admits a job draws 64 rows for each of its ROWS, and a job that is no longer resident has
none; a write of the epoch leaves the rows and empties the rest; the Mezzanine takes its peer. -/
theorem jobsBecomeResident : Obligations.JobsBecomeResident := by
  unfold Obligations.JobsBecomeResident
  intro s q w hz v
  refine ⟨fun he hr hb ha => ⟨_, exec_residentSet s q w hz, ?_⟩, fun he hr => ⟨_, exec_residentClear s q w hz, ?_⟩,
    fun h j e hb => ⟨_, exec_epochWrite s h j e hb, s.setEpoch_jobs h j e, fun k hk => ?_⟩,
    fun h ph pa hm ha => ⟨_, exec_mezzEnable hm ha ph pa, ?_⟩⟩
  · rw [State.setResident_admits w he hr hb ha]
    obtain ⟨hres, hw⟩ := State.rehold_resident ((s.modJob q fun x => { x with wcommon := w }).admitJob (pageFn q) (pageJob q)) (pageFn q) q
    rw [hres, hw, State.admitJob_job, State.job_modJob_self]
    refine ⟨rfl, rfl, fun h hh => ?_⟩
    rw [State.rehold_hall, State.admitJob_hall, State.part_modJob]
    exact State.admitHalls_rowMap _ (Part.halls_nodup _) _ hh
  · rw [State.setResident_clears w he hr]
    obtain ⟨hres, -⟩ := State.rehold_resident ((s.modJob q fun x => { x with wcommon := w }).dropJob (pageFn q) (pageJob q)) (pageFn q) q
    rw [hres, State.dropJob_job, pageOf_pageFn, if_pos rfl]
    refine ⟨rfl, fun h hh => ?_⟩
    rw [State.rehold_hall, State.dropJob_hall, State.part_modJob, if_pos hh]
    exact Hall.dropJob_rowMap ..
  · rw [State.setEpoch_job s h j k e (State.mem_epochHalls hk)]
    exact ⟨rfl, rfl, rfl, rfl⟩
  · refine ⟨by simp, by simp, by simp, SameStacks.modHall s h _ fun _ => rfl⟩

end Sys2Proof.Machine
end

section
/-! PROOFS. Slices of the jobs of a partition. -/

namespace Sys2Proof.Machine

/-! ### The holder's choice without an overrun -/

/-- A partition that records no overrun, and the overruns that its jobs have recorded. -/
def OnTime (v : Fn) (s t : State) : Prop :=
  (t.part v).overran = false ∧ ∀ q, (t.job q).lastOverrun = (s.job q).lastOverrun

namespace OnTime

variable {v : Fn} {s t : State}

theorem setHolder (h : OnTime v s t) (j : Nat) : OnTime v s (t.setHolder v j) := by
  obtain ⟨ho, hj⟩ := h
  refine ⟨?_, fun q => ?_⟩
  · unfold State.setHolder
    rw [State.part_modJob, State.part_modPart_self]
    exact ho
  · unfold State.setHolder
    rw [State.job_modJob, State.job_modPart]
    split
    · next e => rw [e]; exact hj _
    · exact hj q

theorem modPart (h : OnTime v s t) {f : Part → Part} (hf : ∀ p, (f p).overran = p.overran) : OnTime v s (t.modPart v f) := by
  obtain ⟨ho, hj⟩ := h
  refine ⟨?_, hj⟩
  rw [State.part_modPart_self, hf]
  exact ho

theorem endOverrun (h : OnTime v s t) (j : Nat) : OnTime v s (t.endOverrun v j) := by
  unfold State.endOverrun
  rw [if_neg (by rw [h.1]; decide)]
  exact h.modPart fun _ => rfl

theorem rehold (h : OnTime v s t) : OnTime v s (t.rehold v) := by
  unfold State.rehold
  dsimp only
  split
  · split
    · split
      · exact h
      · split
        · exact (h.endOverrun _).setHolder _
        · split
          · exact (h.endOverrun _).setHolder _
          · exact (h.endOverrun _).modPart fun _ => rfl
    · split
      · exact h
      · split
        · exact h.setHolder _
        · exact h.modPart fun _ => rfl
  · split
    · exact h.setHolder _
    · exact h

end OnTime

/-! ### A killed command -/

theorem tabGet_map {α : Type} (d : α) (f : α → α) (hd : f d = d) (l : Tab α) (n : Nat) :
    tabGet d (l.map fun e => (e.1, f e.2)) n = f (tabGet d l n) := by
  induction l with
  | nil => exact hd.symm
  | cons e l ih =>
    simp only [List.map_cons, tabGet]
    split
    · rfl
    · exact ih

theorem Part.holder_releaseAll (p : Part) (who : Nat × Nat) (n : Nat) : ((p.releaseAll who).sem n).holder ≠ some who := by
  unfold Part.releaseAll Part.sem
  rw [tabGet_map Sem.reset (fun x => if x.holder = some who then { x with holder := none } else x) rfl]
  split
  · simp
  · assumption

theorem State.parts_stopImage (s : State) (q : Page) (seq : Nat) : (s.stopImage q seq).parts = s.parts :=
  State.parts_foldl (fun _ _ => by rfl) _ s

theorem State.parts_countRerun (s : State) (q : Page) (c : Cmd) : (s.countRerun q c).parts = s.parts := by
  unfold State.countRerun
  split
  · exact State.parts_foldl (fun _ _ => by rfl) _ s
  · rfl

/-- A partition whose command loses its attempt. -/
def Part.dropped (p : Part) (q : Page) (slot : Nat) : Part :=
  { p.releaseAll (q, slot) with loading := match p.loading with
      | some l => if l.page = q ∧ l.slot = slot then none else some l
      | none => none }

theorem State.part_dropAttempt (s : State) (q : Page) (slot : Nat) :
    (s.dropAttempt q slot).part (pageFn q) = (s.part (pageFn q)).dropped q slot := by
  unfold State.dropAttempt
  extract_lets v released stopped
  have hparts : released.part (pageFn q) = (s.part (pageFn q)).dropped q slot := State.part_modPart_self ..
  have hstop : stopped.parts = released.parts := by
    simp only [stopped]
    split
    · split
      · exact State.parts_stopImage ..
      · rfl
    · rfl
  rw [State.modCmd, State.part_modJob, State.part_of_parts hstop, hparts]

/-- A command after a kill: it waits with nothing of its attempt. -/
def Cmd.killed (c : Cmd) (fault : Bool) : Cmd :=
  { c with att := Attempt.empty, phase := .waiting, kills := c.kills + 1,
           faultKills := if fault then c.faultKills + 1 else c.faultKills }

/-- The state of a kill before the holder is chosen anew. -/
def State.killing (s : State) (q : Page) (c : Cmd) (fault : Bool) : State :=
  ((s.countRerun q c).dropAttempt q c.slot).modCmd q c.slot fun x =>
    { x with kills := x.kills + 1, faultKills := if fault then c.faultKills + 1 else c.faultKills }

theorem State.killCmd_eq {s : State} {q : Page} {c : Cmd} {slot : Nat} {fault : Bool} (hc : s.cmd? q slot = some c) (hs : c.slot = slot)
    (hd : c.dispatched = true) :
    s.killCmd q slot fault = if fault = true ∧ 16 ≤ (if fault then c.faultKills + 1 else c.faultKills)
      then (s.killing q c fault).failCmd q slot 0x0901 0xFFFF else (s.killing q c fault).rehold (pageFn q) := by
  subst hs
  unfold State.killCmd
  rw [hc]
  exact if_pos hd

/-- The page of a kill. -/
theorem State.job_killing {s : State} {q : Page} {c : Cmd} (fault : Bool) :
    (s.killing q c fault).job q = (s.job q).modCmd c.slot fun x => { x with
      att := Attempt.empty, phase := .waiting, kills := x.kills + 1,
      faultKills := if fault then c.faultKills + 1 else c.faultKills } := by
  unfold State.killing
  rw [State.modCmd, State.job_modJob_self, State.job_dropAttempt, State.job_countRerun]
  exact Job.modCmd_modCmd _ _ _ _ fun _ => rfl

theorem State.cmd?_killing {s : State} {q : Page} {c : Cmd} {slot : Nat} (fault : Bool) (hc : s.cmd? q slot = some c) (hs : c.slot = slot) :
    (s.killing q c fault).cmd? q slot = some (c.killed fault) := by
  subst hs
  unfold State.cmd? at hc ⊢
  rw [State.job_killing, Job.cmd?_modCmd _ _ (fun x => { x with
      att := Attempt.empty, phase := .waiting, kills := x.kills + 1,
      faultKills := if fault then c.faultKills + 1 else c.faultKills }) fun _ => rfl, hc, Option.map_some, if_pos rfl]
  rfl

theorem State.part_killing {s : State} {q : Page} {c : Cmd} (fault : Bool) :
    (s.killing q c fault).part (pageFn q) = (s.part (pageFn q)).dropped q c.slot := by
  unfold State.killing
  rw [State.modCmd, State.part_modJob, State.part_dropAttempt, State.part_of_parts (State.parts_countRerun ..)]

theorem State.rehold_cmd? (s : State) (v : Fn) (q : Page) (slot : Nat) : (s.rehold v).cmd? q slot = s.cmd? q slot := by
  unfold State.cmd? Job.cmd?
  rw [((HolderFrame.refl s).rehold v).cmds]

/-! ### The end of a slice -/

theorem protectedCmds_single {c : Cmd} (hw : c.inWindow = false) (hg : c.att.collective = false) : protectedCmds [c] = [] := by
  simp [protectedCmds, hw, hg]

/-- A pre-emption of the one command that is not protected. -/
theorem State.preempt_single {s : State} {q : Page} {c : Cmd} (h : (s.job q).cmds = [c]) (hd : c.dispatched = true)
    (hw : c.inWindow = false) (hg : c.att.collective = false) :
    s.preempt q = (s.killCmd q c.slot false).modJob q fun j => { j with preempts := satAdd 0xFFFF j.preempts 1 } := by
  unfold State.preempt
  rw [h, protectedCmds_single hw hg]
  simp [hd]

theorem exec_sliceEnd {s : State} {v : Fn} (hz : s.frozen = false) : exec (.sliceEnd v) s = .next (s.sliceEnd v) :=
  next_live hz _

theorem exec_overrunWatchdog {s : State} {v : Fn} (hz : s.frozen = false) : exec (.overrunWatchdog v) s = .next (s.watchdog v) :=
  next_live hz _

/-- The holder's slice is over. -/
def State.sliceEnded (s : State) (v : Fn) (l : List Cmd) : State :=
  s.modPart v fun p => { p with
    sliceOver := true, overrunFrom := s.time.toNat, overran := !(protectedCmds l).isEmpty }

theorem State.sliceEnded_job (s : State) (v : Fn) (l : List Cmd) (q : Page) : (s.sliceEnded v l).job q = s.job q := rfl

theorem State.sliceEnded_onTime (s : State) (v : Fn) {c : Cmd} (hw : c.inWindow = false) (hg : c.att.collective = false) :
    ((s.sliceEnded v [c]).part v).overran = false := by
  rw [State.sliceEnded, State.part_modPart_self, protectedCmds_single hw hg]
  rfl

/-- A slice that ends while another job is ready. -/
theorem State.sliceEnd_preempts {s : State} {v : Fn} {h : Nat} (hh : (s.part v).holder = some h) (hs : (s.job (pageOf v h)).slice ≠ 0)
    (ho : (s.part v).sliceOver = false)
    (hr : (((jobsAfter h).filter (· != h)).any fun j => s.ready (pageOf v j)) = true) :
    s.sliceEnd v = ((s.sliceEnded v (s.job (pageOf v h)).cmds).preempt (pageOf v h)).rehold v := by
  unfold State.sliceEnd
  extract_lets p
  rw [hh]
  dsimp only
  rw [if_neg (by simp [hs, p, ho]), if_pos hr]
  rfl

theorem State.sliceEnd_restarts {s : State} {v : Fn} {h : Nat} (hh : (s.part v).holder = some h) (hs : (s.job (pageOf v h)).slice ≠ 0)
    (ho : (s.part v).sliceOver = false)
    (hr : (((jobsAfter h).filter (· != h)).any fun j => s.ready (pageOf v j)) = false) :
    s.sliceEnd v = s.setHolder v h := by
  unfold State.sliceEnd
  extract_lets p
  rw [hh]
  dsimp only
  rw [if_neg (by simp [hs, p, ho]), if_neg (by simp [hr])]

theorem pageFn_pageOf {v h : Nat} (hv : 1 ≤ v) (hh : h < 16) : pageFn (pageOf v h) = v := by
  show (16 * (v - 1) + h) / 16 + 1 = v
  omega

theorem Job.watchdog_haltedAfter {j k : Job} {c : Cmd} {code : Nat} (e : j.offSlice = (k.haltedAfter c code).offSlice) :
    j.watchdog = k.watchdog := (congrArg Job.watchdog e :)

/-- The watchdog fails the one command that runs on. -/
theorem State.watchdog_fails {s : State} {v : Fn} {h : Nat} {c : Cmd} (hh : (s.part v).holder = some h) (ho : (s.part v).sliceOver = true)
    (hc : (s.job (pageOf v h)).cmds = [c]) (hd : c.dispatched = true) (hw : c.inWindow = false) :
    s.watchdog v = ((s.modJob (pageOf v h) fun j => { j with watchdog := true }).countRerun (pageOf v h) c).failCmd (pageOf v h) c.slot
      0x0904 0xFFFF := by
  have hf : (s.job (pageOf v h)).cmds.filter (fun c => c.dispatched && !c.inWindow) = [c] := by rw [hc]; simp [hd, hw]
  unfold State.watchdog
  extract_lets p
  rw [hh]
  dsimp only
  rw [hf]
  exact if_pos ho

/-- The holder's one command is pre-empted, and the holder chosen anew: no overrun is recorded. -/
theorem State.preempt_keeps {u : State} {v h : Nat} {c : Cmd} (hv : 1 ≤ v) (hh : h < 16) (hc : (u.job (pageOf v h)).cmds = [c])
    (hd : c.dispatched = true) (hw : c.inWindow = false) (hg : c.att.collective = false) (ho : (u.part v).overran = false) :
    let q := pageOf v h
    let t := (u.preempt q).rehold v
    (t.job q).preempts = satAdd 0xFFFF (u.job q).preempts 1 ∧ (t.job q).lastOverrun = (u.job q).lastOverrun
      ∧ (t.cmd? q c.slot).map (fun k => (k.phase, k.kills, k.faultKills, k.att))
          = some (.waiting, c.kills + 1, c.faultKills, Attempt.empty) := by
  intro q
  have hq : pageFn q = v := pageFn_pageOf hv hh
  have hcmd : u.cmd? q c.slot = some c := State.cmd?_head hc
  rw [State.preempt_single hc hd hw hg, State.killCmd_eq hcmd rfl hd, if_neg (by simp), hq]
  have hkeep : ((u.killing q c false).part v).overran = false := by
    rw [← hq, State.part_killing, hq]
    exact ho
  have hjob := State.job_killing (s := u) (q := q) (c := c) false
  have hkcmd := State.cmd?_killing false hcmd rfl
  generalize u.killing q c false = k at hkeep hjob hkcmd
  have hfirst : OnTime v k (k.rehold v) := OnTime.rehold ⟨hkeep, fun _ => rfl⟩
  have hcmds : (k.rehold v).cmd? q c.slot = some (c.killed false) := (k.rehold_cmd? v q c.slot).trans hkcmd
  have hpre : ((k.rehold v).job q).preempts = (u.job q).preempts := by
    rw [State.job_rehold, hjob]
    rfl
  have hover : ((k.rehold v).job q).lastOverrun = (u.job q).lastOverrun := by
    rw [hfirst.2 q, hjob]
    rfl
  have hon := hfirst.1
  generalize k.rehold v = w at hcmds hpre hover hon
  have hsecond : OnTime v (w.modJob q fun j => { j with preempts := satAdd 0xFFFF j.preempts 1 })
      ((w.modJob q fun j => { j with preempts := satAdd 0xFFFF j.preempts 1 }).rehold v) := OnTime.rehold ⟨hon, fun _ => rfl⟩
  have hwcmd : (w.modJob q fun j => { j with preempts := satAdd 0xFFFF j.preempts 1 }).cmd? q c.slot = w.cmd? q c.slot := by
    unfold State.cmd?
    rw [State.job_modJob_self]
    rfl
  refine ⟨?_, ?_, ?_⟩
  · rw [State.job_rehold, State.job_modJob_self]
    exact congrArg (satAdd 0xFFFF · 1) hpre
  · rw [hsecond.2 q, State.job_modJob_self]
    exact hover
  · rw [State.rehold_cmd?, hwcmd, hcmds]
    rfl

/-- Settles O40: a slice that another job ends kills the holder's one command without an overrun, and the holder's choice
keeps what was recorded of earlier ones. -/
theorem slicesEnd : Obligations.SlicesEnd := by
  unfold Obligations.SlicesEnd
  intro s v h hz hv hh16 hh q
  refine ⟨fun hs ho hr => ⟨_, exec_sliceEnd hz, ?_⟩, fun c hs ho hr hc hd hw hg => ⟨_, exec_sliceEnd hz, ?_⟩,
    fun c ho hc hd hw hf => ⟨_, exec_overrunWatchdog hz, ?_⟩⟩
  · rw [State.sliceEnd_restarts hh hs ho hr]
    unfold State.setHolder
    rw [State.part_modJob, State.part_modPart_self]
    exact ⟨rfl, rfl, rfl⟩
  · rw [State.sliceEnd_preempts hh hs ho hr, hc]
    have hjob := s.sliceEnded_job v [c] q
    have hpart := s.sliceEnded_onTime v hw hg
    generalize s.sliceEnded v [c] = u at hjob hpart
    obtain ⟨hpre, hover, hcmd⟩ := State.preempt_keeps hv hh16 (hjob ▸ hc) hd hw hg hpart
    rw [hjob] at hpre hover
    exact ⟨hpre, hover, hcmd⟩
  · rw [State.watchdog_fails hh ho hc hd hw]
    generalize hu : (s.modJob q fun j => { j with watchdog := true }).countRerun q c = u
    have hjob : u.job q = { s.job q with watchdog := true } := by rw [← hu, State.job_countRerun, State.job_modJob_self]
    have hoff := State.job_failCmd_oldest 0x0904 0xFFFF (c := c) (rest := []) (by rw [hjob]; exact hc) rfl (by rw [hjob]; exact hf)
      (by decide)
    obtain ⟨hcmds, hhalt, hcode, -⟩ := Job.offSlice_fields hoff
    exact ⟨(Job.watchdog_haltedAfter hoff).trans (by rw [hjob]), hhalt, hcode, hcmds⟩

end Sys2Proof.Machine
end

section
/-! PROOFS. What a commit changes beside the halls and the queue's commands, and resets of functions. -/

namespace Sys2Proof.Machine

/-- What the end of a command's staging and its commit leave alone: all but the halls, the commands of its queue, in their
slots, and the count of free values. -/
structure CommitFrame (q : Page) (s t : State) : Prop where
  rest : t.offWork = s.offWork
  others : ∀ k, k ≠ q → t.job k = s.job k
  own : { t.job q with cmds := [] } = { s.job q with cmds := [] }
  slots : (t.job q).cmds.map Cmd.slot = (s.job q).cmds.map Cmd.slot

theorem Job.modCmd_slots (j : Job) (slot : Nat) {f : Cmd → Cmd} (hf : ∀ c, (f c).slot = c.slot) :
    (j.modCmd slot f).cmds.map Cmd.slot = j.cmds.map Cmd.slot := by
  unfold Job.modCmd
  rw [List.map_map]
  refine List.map_congr_left fun c _ => ?_
  simp only [Function.comp]
  split
  · exact hf c
  · rfl

theorem OpFrame.commits {q : Page} {slot : Nat} {U : List Use} {s t : State} (h : OpFrame q slot U s t) : CommitFrame q s t where
  rest := h.rest
  others := h.others
  own := (congrArg (fun j : Job => { j with cmds := [] }) h.own :)
  slots := by
    have e := congrArg (fun j : Job => j.cmds.map Cmd.slot) h.own
    have off (j : Job) : (j.offWork slot).cmds.map Cmd.slot = j.cmds.map Cmd.slot :=
      j.modCmd_slots slot (f := fun c => { c with att := c.att.offWork }) fun _ => rfl
    exact (off _).symm.trans (e.trans (off _))

namespace CommitFrame

variable {q : Page} {s t u : State}

theorem refl (s : State) : CommitFrame q s s := ⟨rfl, fun _ _ => rfl, rfl, rfl⟩

theorem trans (a : CommitFrame q s t) (b : CommitFrame q t u) : CommitFrame q s u :=
  ⟨b.rest.trans a.rest, fun k hk => (b.others k hk).trans (a.others k hk), b.own.trans a.own, b.slots.trans a.slots⟩

theorem foldl {α : Type} {f : State → α → State} (h : CommitFrame q s t) (hf : ∀ t a, CommitFrame q s t → CommitFrame q s (f t a))
    (l : List α) : CommitFrame q s (l.foldl f t) := by
  induction l generalizing t with
  | nil => exact h
  | cons a l ih => exact ih (hf t a h)

theorem ite {c : Prop} [Decidable c] (ht : CommitFrame q s t) (hu : CommitFrame q s u) : CommitFrame q s (if c then t else u) := by
  split
  · exact ht
  · exact hu

theorem modHall (h : CommitFrame q s t) (k : Nat) (f : Hall → Hall) : CommitFrame q s (t.modHall k f) :=
  h.trans ⟨rfl, fun _ _ => rfl, rfl, rfl⟩

theorem bumpFree (h : CommitFrame q s t) (n : Nat) : CommitFrame q s { t with free := n } :=
  h.trans ⟨rfl, fun _ _ => rfl, rfl, rfl⟩

/-- The commands of the queue, each in its slot. -/
theorem modJob (h : CommitFrame q s t) {f : Job → Job} (hf : ∀ j, { f j with cmds := [] } = { j with cmds := [] })
    (hs : ∀ j, (f j).cmds.map Cmd.slot = j.cmds.map Cmd.slot) : CommitFrame q s (t.modJob q f) := by
  refine h.trans ⟨rfl, fun k hk => ?_, ?_, ?_⟩
  · rw [State.job_modJob, if_neg hk]
  · rw [State.job_modJob_self]; exact hf _
  · rw [State.job_modJob_self]; exact hs _

theorem modAtt (h : CommitFrame q s t) (slot : Nat) (f : Attempt → Attempt) : CommitFrame q s (t.modAtt q slot f) :=
  h.modJob (f := fun j => j.modCmd slot fun c => { c with att := f c.att }) (fun _ => rfl)
    fun j => j.modCmd_slots slot (f := fun c => { c with att := f c.att }) fun _ => rfl

theorem op {slot : Nat} {U : List Use} (h : CommitFrame q s t) (f : OpFrame q slot U t u) : CommitFrame q s u := h.trans f.commits

section
variable {slot : Nat} (v : Use)

theorem modStat (h : CommitFrame q s t) (c : Int) (f : Stat → Stat) : CommitFrame q s (t.modStat q slot v c f) :=
  h.op (U := [v]) ((OpFrame.refl t).modStat v c f)
theorem addSqs (h : CommitFrame q s t) (l : List (Nat × Nat)) : CommitFrame q s (t.addSqs q slot v l) :=
  h.op (U := [v]) ((OpFrame.refl t).addSqs v l)
theorem countRead (h : CommitFrame q s t) (l : List (Nat × Nat)) : CommitFrame q s (t.countRead q slot v l) :=
  h.op (U := [v]) ((OpFrame.refl t).countRead v l)
theorem countFace (h : CommitFrame q s t) (packed : Bool) (rows : List Nat) (col n : Nat) :
    CommitFrame q s (t.countFace q slot v packed rows col n) := h.op (U := [v]) ((OpFrame.refl t).countFace v packed rows col n)
theorem faceAffine (h : CommitFrame q s t) (a : Nat) : CommitFrame q s (t.faceAffine q slot v a) :=
  h.op (U := [v]) ((OpFrame.refl t).faceAffine v a)
theorem putRows (h : CommitFrame q s t) (x : WriteCtx) (first col0 : Nat) (vals : List (List Val)) :
    CommitFrame q s (t.putRows q slot v x first col0 vals) :=
  h.op (U := [v]) ((OpFrame.refl t).putRows (List.mem_singleton.mpr rfl) x first col0 vals)
theorem modFace (h : CommitFrame q s t) (f : Mem → Mem) : CommitFrame q s (t.modFace v f) := h.modHall ..
theorem modStaged (h : CommitFrame q s t) (f : Staged → Staged) : CommitFrame q s (t.modStaged q slot v f) := h.modAtt ..

theorem openFace (h : CommitFrame q s t) (w : Writer) : CommitFrame q s (t.openFace q slot v w) := by
  unfold State.openFace
  split
  · exact h.modAtt ..
  · exact (h.modHall ..).modAtt ..

end

/-! ### LOAD, STORE and COPY -/

section
variable (slot : Nat) (v : Use)

theorem loadCodes (h : CommitFrame q s t) (e0 : Nat) (codes : List Nat) : CommitFrame q s (t.loadCodes q slot v e0 codes) := by
  unfold State.loadCodes
  split
  · exact h
  · dsimp only
    exact ite (((h.modFace v _).modStaged v _).modStat v ..) ((h.modFace v _).modStaged v _)

theorem loadUnits (h : CommitFrame q s t) (part first n : Nat) (b : List Byte) :
    CommitFrame q s (t.loadUnits q slot v part first n b) := by
  have w := h.openFace (slot := slot) v .loaded
  refine ite (w.loadCodes slot v ..) (ite ?_ ?_)
  · unfold State.loadPlane
    split
    · exact w
    · exact ((w.modFace v _).modStaged v _).modStat v ..
  · unfold State.loadSide
    split
    · exact w
    · exact ((w.modFace v _).modStaged v _).modStat v ..

end

theorem loadWork (h : CommitFrame q s t) (c : Cmd) : Answers (CommitFrame q s) (t.loadWork q c) := by
  unfold State.loadWork
  split
  · dsimp only
    split
    · exact .error
    · exact .guard (.ok ((h.loadUnits ..).modAtt ..))
  · exact .error

theorem countStore (h : CommitFrame q s t) (c : Cmd) (v : Use) (b : List Byte) : CommitFrame q s (t.countStore q c v b) :=
  ite (h.countRead ..) h

theorem storeWork (h : CommitFrame q s t) (c : Cmd) : Answers (CommitFrame q s) (t.storeWork q c) := by
  unfold State.storeWork
  split
  · split
    · exact .error
    · exact .ok ((h.countStore ..).modAtt ..)
  · exact .error

theorem copyRows (h : CommitFrame q s t) (c : Cmd) (a b : Use) : Answers (CommitFrame q s) (t.copyRows q c a b) := by
  unfold State.copyRows
  dsimp only
  split
  · exact .error
  · exact .error
  · split
    · exact .error
    · exact .ok (((h.countFace ..).openFace ..).putRows ..)

theorem copyWork (h : CommitFrame q s t) (c : Cmd) : Answers (CommitFrame q s) (t.copyWork q c) := by
  unfold State.copyWork
  split
  · dsimp only
    split
    · split
      · exact .error
      · exact .ok (((((h.countStore ..).openFace ..).faceAffine ..).loadUnits ..).modAtt ..)
    · split
      · exact .error
      · next e => exact .ok (CommitFrame.modAtt (h.copyRows c _ _ _ e) ..)
  · exact .error

/-! ### The end of staging -/

theorem unlist (h : CommitFrame q s t) (slot : Nat) (v : Use) (st : Staged) (i bits : Nat) :
    CommitFrame q s (t.unlist q slot v st i bits) := by
  unfold State.unlist
  dsimp only
  exact ite h (((h.modFace v _).modStat v ..).modAtt ..)

theorem settleSide (h : CommitFrame q s t) (slot : Nat) (v : Use) (st : Staged) : CommitFrame q s (t.settleSide q slot v st) := by
  unfold State.settleSide
  dsimp only
  exact ite h (CommitFrame.modStaged _ (CommitFrame.foldl (h.modFace v _) (fun t e w => w.unlist ..) _) _)

theorem countRefits (h : CommitFrame q s t) (slot : Nat) (v : Use) (st : Staged) : CommitFrame q s (t.countRefits q slot v st) := by
  unfold State.countRefits
  split
  · exact h
  · exact (h.modStaged v _).modStat v ..

theorem derive (h : CommitFrame q s t) (slot : Nat) (v : Use) (st : Staged) : CommitFrame q s (t.derive q slot v st) := by
  unfold State.derive
  dsimp only
  refine ite h (CommitFrame.modAtt (ite (CommitFrame.modAtt ?_ ..) ?_) ..) <;>
    exact (((h.modFace v _).modStaged v _).modStat v ..).addSqs v _

theorem deriveAll (h : CommitFrame q s t) (c : Cmd) : CommitFrame q s (t.deriveAll q c) := by
  unfold State.deriveAll
  refine h.foldl (fun t st w => ?_) _
  split
  · exact ((w.countRefits ..).settleSide ..).derive ..
  · exact w

/-! ### Free bytes -/

theorem freeRuns (h : CommitFrame q s t) (k : Nat) (l : List Span) : CommitFrame q s (t.freeRuns k l) := by
  unfold State.freeRuns
  exact h.foldl (fun t sp w => (w.bumpFree (t.free + sp.2)).modHall ..) _

theorem freeHits (h : CommitFrame q s t) (a : Attempt) : CommitFrame q s (t.freeHits a) := h.foldl (fun _ _ w => w.freeRuns ..) _

theorem freeCells (h : CommitFrame q s t) (st : Staged) (x : Cells) : CommitFrame q s (t.freeCells st x) := by
  unfold State.freeCells
  dsimp only
  refine freeRuns (ite (h.freeRuns ..) ?_) ..
  exact (h.bumpFree _).modHall ..

theorem freeWhere {α : Type} (ok : α → Bool) {f : α → State → α × State}
    (hf : ∀ x t, CommitFrame q s t → CommitFrame q s (f x t).2) (l : List α) (h : CommitFrame q s t) :
    CommitFrame q s (freeWhere ok f l t).2 := by
  unfold Machine.freeWhere
  have keep (l : List α) : ∀ z : List α × State, CommitFrame q s z.2 →
      CommitFrame q s (l.foldl (fun z x => if ok x then (let r := f x z.2; (z.1 ++ [r.1], r.2)) else (z.1 ++ [x], z.2)) z).2 := by
    induction l with
    | nil => exact fun _ w => w
    | cons x l ih =>
      refine fun z w => ih _ ?_
      dsimp only
      split
      · exact hf _ _ w
      · exact w
  exact keep l _ h

theorem blur (h : CommitFrame q s t) (c : Cmd) : CommitFrame q s (t.blur q c).1 := by
  unfold State.blur
  dsimp only
  have base (f : Staged → Cells) : CommitFrame q s (c.att.staged.foldl (fun s st => s.freeCells st (f st)) t) :=
    h.foldl (fun _ _ w => w.freeCells ..) _
  have free {u : State} (w : CommitFrame q s u) (l : List (Nat × Nat)) (f : State → Nat × Nat → List Span) :
      CommitFrame q s (l.foldl (fun s g => s.freeRuns g.1 (f s g)) u) := w.foldl (fun _ _ w => w.freeRuns ..) _
  refine bumpFree (bumpFree (free ?_ _ fun s g => [((s.hall g.1).holdBase + 65536 * g.2, 65536)]) _) _
  refine freeWhere _ (fun x s w => (w.bumpFree _).bumpFree _) _ ?_
  refine freeWhere _ (fun x s w => w.bumpFree _) _ ?_
  refine freeWhere _ (fun x s w => (w.bumpFree _).bumpFree _) _ ?_
  refine freeWhere _ (fun x s w => w.bumpFree _) _ ?_
  exact freeWhere _ (fun x s w => w.bumpFree _) _ (base _)

theorem redo {c : Cmd} {r : State × Cmd} (h : CommitFrame q s t) (e : t.redo q c = some r) : CommitFrame q s r.1 := by
  unfold State.redo at e
  dsimp only at e
  have start (f : Attempt → Attempt) : CommitFrame q s ((t.unsure c).modAtt q c.slot f) := (h.freeHits c.att).modAtt ..
  split at e
  · cases e
  next w hw =>
  have fw : CommitFrame q s w := by
    refine (?_ : Answers (CommitFrame q s) _) w hw
    exact .ite ((start _).loadWork _) (.ite ((start _).storeWork _) (.ite ((start _).copyWork _) .error))
  split at e
  · cases e
  next y _ =>
  obtain ⟨z, _, rfl⟩ := Option.map_eq_some_iff.mp e
  refine (fw.deriveAll y).foldl (fun t e w => ?_) _
  refine w.foldl (fun t i w => ?_) _
  exact ite (w.freeRuns ..) (w.modHall ..)

theorem unspecify (h : CommitFrame q s t) (c : Cmd) : CommitFrame q s (t.unspecify q c).1 := by
  unfold State.unspecify
  split
  · exact h
  · split
    · next e => exact h.redo e
    · exact h.blur c

/-! ### The commit -/

theorem flipAll (h : CommitFrame q s t) (c : Cmd) : CommitFrame q s (t.flipAll q c) := by
  unfold State.flipAll
  refine h.foldl (fun t st w => ?_) _
  split
  · exact w
  · exact w.modHall ..

theorem keepRows (h : CommitFrame q s t) (c : Cmd) : CommitFrame q s (t.keepRows q c) := by
  unfold State.keepRows
  refine h.modJob (fun j => ?_) fun j => ?_
  · rfl
  rw [List.map_map]
  refine List.map_congr_left fun x _ => ?_
  simp only [Function.comp]
  split
  · rfl
  · rfl

theorem commitRows (h : CommitFrame q s t) (c : Cmd) : CommitFrame q s (t.commitRows q c) := by
  unfold State.commitRows
  exact CommitFrame.foldl ((h.keepRows c).foldl (fun t x w => w.modHall ..) _) (fun t x w => w.modHall ..) _

theorem commitHall (h : CommitFrame q s t) (c : Cmd) (k : Nat) : CommitFrame q s (t.commitHall q c k) := by
  unfold State.commitHall
  exact h.modHall ..

theorem endSteps (h : CommitFrame q s t) (c : Cmd) (p : Plan) (skip : Bool) : CommitFrame q s (t.endSteps q c p skip) := by
  unfold State.endSteps
  exact h.foldl (fun _ _ w => w.modHall ..) _

theorem commitCounters (h : CommitFrame q s t) (c : Cmd) (stepped : Bool) : CommitFrame q s (t.commitCounters q c stepped) := by
  unfold State.commitCounters
  exact h.foldl (fun _ _ w => w.modHall ..) _

theorem commitEffects (h : CommitFrame q s t) (c : Cmd) : CommitFrame q s (t.commitEffects q c).1 := by
  unfold State.commitEffects
  have v := h.unspecify c
  generalize t.unspecify q c = r at v
  obtain ⟨u, c'⟩ := r
  dsimp only
  refine commitCounters ?_ ..
  have halls {u : State} (w : CommitFrame q s u) (l : List Nat) : CommitFrame q s (l.foldl (fun s k => s.commitHall q c' k) u) :=
    w.foldl (fun _ _ w => w.commitHall ..) l
  split
  · exact CommitFrame.endSteps (halls (CommitFrame.commitRows (ite v (v.flipAll ..)) ..) _) ..
  · exact halls (CommitFrame.commitRows (ite v (v.flipAll ..)) ..) _

/-! ### What follows of the frame -/

theorem device (h : CommitFrame q s t) : SameDevice s t := (congrArg State.device h.rest :)
theorem parts (h : CommitFrame q s t) : t.parts = s.parts := (congrArg State.parts h.rest :)
theorem host (h : CommitFrame q s t) : t.host = s.host := (congrArg State.host h.rest :)

end CommitFrame

end Sys2Proof.Machine
end

section
/-! PROOFS. Resets of functions. -/

namespace Sys2Proof.Machine

/-! ### What operations on the queues of other functions leave of a partition -/

/-- The partition of a function stands. -/
def SamePart (v : Fn) (s t : State) : Prop := t.part v = s.part v

namespace SamePart

variable {v : Fn} {s t : State}

theorem of_parts {u : State} (h : SamePart v s t) (e : u.parts = t.parts) : SamePart v s u :=
  (State.part_of_parts e v).trans h

theorem foldl {α : Type} {f : State → α → State} (h : SamePart v s t) (hf : ∀ t a, SamePart v s t → SamePart v s (f t a)) (l : List α) :
    SamePart v s (l.foldl f t) := by
  induction l generalizing t with
  | nil => exact h
  | cons a l ih => exact ih (hf t a h)

theorem ite {c : Prop} [Decidable c] {u : State} (ht : SamePart v s t) (hu : SamePart v s u) : SamePart v s (if c then t else u) := by
  split
  · exact ht
  · exact hu

theorem modPart (h : SamePart v s t) {w : Nat} (hw : w ≠ v) (f : Part → Part) : SamePart v s (t.modPart w f) :=
  ((t.part_modPart w v f).trans (if_neg hw.symm)).trans h

theorem modJob (h : SamePart v s t) (q : Page) (f : Job → Job) : SamePart v s (t.modJob q f) := h
theorem modHall (h : SamePart v s t) (k : Nat) (f : Hall → Hall) : SamePart v s (t.modHall k f) := h

section
variable {w : Fn} (hw : w ≠ v)
include hw

theorem setHolder (h : SamePart v s t) (j : Nat) : SamePart v s (t.setHolder w j) := (h.modPart hw _).modJob ..

theorem endOverrun (h : SamePart v s t) (j : Nat) : SamePart v s (t.endOverrun w j) := by
  unfold State.endOverrun
  refine ite ?_ (h.modPart hw _)
  exact (modPart (t := { t with free := t.free + 1 }) h hw _).modJob ..

theorem rehold (h : SamePart v s t) : SamePart v s (t.rehold w) := by
  unfold State.rehold
  dsimp only
  split
  · split
    · split
      · exact h
      · have e := h.endOverrun hw
        split
        · exact (e _).setHolder hw ..
        · split
          · exact (e _).setHolder hw ..
          · exact (e _).modPart hw _
    · split
      · exact h
      · split
        · exact h.setHolder hw ..
        · exact h.modPart hw _
  · split
    · exact h.setHolder hw ..
    · exact h

end

theorem fetchOne (h : SamePart v s t) (q : Page) : SamePart v s (t.fetchOne q) := by
  unfold State.fetchOne State.logPoison
  dsimp only
  refine modJob ?_ ..
  split
  · refine modHall ?_ ..
    split
    · exact h
    · exact h
  · split
    · exact h
    · exact h

section
variable {q : Page} (hq : pageFn q ≠ v)
include hq

theorem dropAttempt (h : SamePart v s t) (slot : Nat) : SamePart v s (t.dropAttempt q slot) := by
  unfold State.dropAttempt
  have w := h.modPart hq fun p => { p.releaseAll (q, slot) with loading := match p.loading with
        | some l => if l.page = q ∧ l.slot = slot then none else some l
        | none => none }
  dsimp only
  refine modJob ?_ ..
  split
  · exact ite (w.of_parts (State.parts_stopImage ..)) w
  · exact w

theorem postFailed (h : SamePart v s t) : SamePart v s (t.postFailed q) := by
  have post (c : Cmd) (status detail : Nat) (ok : Bool) (tst : DWord) : SamePart v s (t.postRecord q c status detail ok tst) := by
    refine h.of_parts ?_
    unfold State.postRecord State.writeRing
    dsimp only
    split <;> split <;> rfl
  unfold State.postFailed
  split
  · exact h
  split
  · exact ite h (ite (modJob (post ..) ..) (modJob (foldl (post ..)
      (fun _ _ h => dropAttempt hq (h.of_parts (State.parts_countRerun ..)) _) _) ..))
  · exact h

theorem drainFailed (h : SamePart v s t) : SamePart v s (t.drainFailed q) := h.foldl (fun _ _ h => h.postFailed hq) _

theorem failCmd (h : SamePart v s t) (slot code detail : Nat) : SamePart v s (t.failCmd q slot code detail) := by
  unfold State.failCmd
  have w := h.dropAttempt hq slot
  dsimp only
  refine rehold hq (drainFailed hq (modJob ?_ ..))
  split
  · exact w.foldl (fun _ _ h => h.modHall ..) _
  · exact w

theorem fetchAll (h : SamePart v s t) : SamePart v s (t.fetchAll q) := by
  have loop (n : Nat) : ∀ {t : State}, SamePart v s t → SamePart v s (t.fetchLoop q n) := by
    induction n with
    | zero => exact fun h => h
    | succ n ih =>
      intro t h
      unfold State.fetchLoop
      exact ite (ih (h.fetchOne q)) h
  exact rehold hq (drainFailed hq (loop _ h))

end

end SamePart

/-! ### A function whose queues are idle -/

/-- A page at its reset values, as far as a reset of its function says. -/
def Job.idle (j : Job) : Prop :=
  j.cmds = [] ∧ j.enable = false ∧ j.sqTail = 0 ∧ j.commits = 0 ∧ j.resident = false

/-- Every page of a function is at its reset values. -/
def Idle (v : Fn) (s : State) : Prop := ∀ q ∈ vfPages v, (s.job q).idle

theorem Job.idle_of_offSlice {j k : Job} (e : k.offSlice = j.offSlice) (h : j.idle) : k.idle := by
  obtain ⟨hc, he, ht, hn, hr⟩ := h
  exact ⟨(congrArg Job.cmds e :).trans hc, (congrArg Job.enable e :).trans he, (congrArg Job.sqTail e :).trans ht,
    (congrArg Job.commits e :).trans hn, (congrArg Job.resident e :).trans hr⟩

theorem mem_vfPages {v q : Nat} (hv : 1 ≤ v) : q ∈ vfPages v ↔ pageFn q = v := by
  unfold vfPages
  rw [List.mem_map]
  constructor
  · rintro ⟨j, hj, rfl⟩
    exact pageFn_pageOf hv (List.mem_range.mp hj)
  · rintro rfl
    exact ⟨pageJob q, List.mem_range.mpr (Nat.mod_lt _ (by decide)), pageOf_pageFn q⟩

/-- Nothing of an idle function is ready, so that no holder is chosen. -/
theorem Idle.rehold {v : Nat} {s : State} (h : Idle v s) (hv : 1 ≤ v) (hh : (s.part v).holder = none) : s.rehold v = s := by
  have ready (j : Nat) (hj : j < 16) : s.ready (pageOf v j) = false := by
    obtain ⟨-, -, -, -, hr⟩ := h _ ((mem_vfPages hv).mpr (pageFn_pageOf hv hj))
    unfold State.ready
    rw [hr, Bool.false_and]
  have none_ : ∀ n, (jobsAfter n).find? (fun j => s.ready (pageOf v j)) = none := by
    intro n
    refine List.find?_eq_none.mpr fun j hj => ?_
    obtain ⟨i, -, rfl⟩ := List.mem_map.mp hj
    rw [ready _ (Nat.mod_lt _ (by decide))]
    decide
  unfold State.rehold
  dsimp only
  rw [hh]
  dsimp only
  rw [none_]

/-- Fetching on a page of an idle function does nothing. -/
theorem Idle.fetchAll {v : Nat} {s : State} (h : Idle v s) (hv : 1 ≤ v) (hh : (s.part v).holder = none) {q : Page} (hq : pageFn q = v) :
    s.fetchAll q = s := by
  obtain ⟨hc, he, -⟩ := h q ((mem_vfPages hv).mpr hq)
  unfold State.fetchAll
  rw [State.fetchLoop_of_disabled he, State.drainFailed_nil hc, hq, h.rehold hv hh]

/-- Operations on other functions' queues leave an idle function as it is. -/
theorem Idle.page {v : Nat} {s t : State} (h : Idle v s) (hv : 1 ≤ v) {q : Page} (hq : pageFn q ≠ v) (f : PageFrame q s t) : Idle v t := by
  intro k hk
  refine Job.idle_of_offSlice (f.others k ?_) (h k hk)
  rintro rfl
  exact hq ((mem_vfPages hv).mp hk)

/-- An idle function without a holder, whose partition is as in a state. -/
structure Rests (v : Fn) (s t : State) : Prop where
  idle : Idle v t
  part : t.part v = s.part v

theorem Rests.fetchAll {v : Nat} {s t : State} (h : Rests v s t) (hv : 1 ≤ v) (hh : (s.part v).holder = none) (q : Page) :
    Rests v s (t.fetchAll q) := by
  by_cases hq : pageFn q = v
  · rw [h.idle.fetchAll hv (by rw [h.part]; exact hh) hq]
    exact h
  · exact ⟨h.idle.page hv hq ((PageFrame.refl t).fetchAll), SamePart.fetchAll hq h.part⟩

theorem Rests.replay {v : Nat} {s t : State} (h : Rests v s t) (hv : 1 ≤ v) (hh : (s.part v).holder = none) (hn : t.held = []) :
    Rests v s t.replay := by
  unfold State.replay
  rw [hn, List.foldl_nil]
  have start : Rests v s { t with held := [] } := ⟨h.idle, h.part⟩
  generalize ({ t with held := [] } : State) = u at start
  generalize List.range 128 = l
  induction l generalizing u with
  | nil => exact start
  | cons q l ih => exact ih _ (start.fetchAll hv hh q)

theorem Rests.abortLoads {v : Nat} {s t : State} (h : Rests v s t) (hv : 1 ≤ v) : Rests v s t.abortLoads := by
  have fold {α : Type} {f : State → α → State} (hf : ∀ t a, Rests v s t → Rests v s (f t a)) (l : List α) :
      ∀ {t : State}, Rests v s t → Rests v s (l.foldl f t) := by
    induction l with
    | nil => exact fun h => h
    | cons a l ih => exact fun h => ih (hf _ a h)
  unfold State.abortLoads
  refine fold (fun t w h => fold (fun t q h => ?_) _ h) _ h
  by_cases hq : pageFn q = v
  · obtain ⟨hc, -⟩ := h.idle q ((mem_vfPages hv).mpr hq)
    rw [hc]
    exact h
  · refine fold (fun t c h => ?_) _ h
    split
    · exact ⟨h.idle.page hv hq ((PageFrame.refl t).failCmd ..), SamePart.failCmd hq h.part ..⟩
    · exact h

/-- With nothing recorded, a replay and the failures of plan loads are operations on queues. -/
theorem State.replayed {s : State} (h : s.held = []) : QueueFrame s s.replay.abortLoads := by
  have fold {α : Type} {f : State → α → State} (hf : ∀ t a, QueueFrame s t → QueueFrame s (f t a)) (l : List α) :
      ∀ {t : State}, QueueFrame s t → QueueFrame s (l.foldl f t) := by
    induction l with
    | nil => exact fun h => h
    | cons a l ih => exact fun h => ih (hf _ a h)
  have start : QueueFrame s { s with held := [] } := by
    obtain ⟨⟩ := s
    subst h
    exact .refl _
  unfold State.replay
  rw [h, List.foldl_nil]
  unfold State.abortLoads
  refine fold (fun t w h => fold (fun t q h => fold (fun t c h => ?_) _ h) _ h) _ (fold (fun t q h => h.fetchAll q) _ start)
  split
  · exact h.failCmd ..
  · exact h

/-- The end of a freeze at a reset, of an idle function: its pages and its partition stand, and what was recorded is gone. -/
theorem State.endFreeze_rests {v : Nat} {s : State} (h : Idle v s) (hv : 1 ≤ v) (hh : (s.part v).holder = none) :
    Rests v s s.endFreeze ∧ s.endFreeze.fns = s.fns ∧ s.endFreeze.vfEnable = s.vfEnable ∧ s.endFreeze.numVFs = s.numVFs
      ∧ (s.freezing = true → s.endFreeze.held = [] ∧ s.endFreeze.freezing = false ∧ s.endFreeze.frozenAt = true) := by
  unfold State.endFreeze
  by_cases hz : s.freezing = true
  · rw [if_pos hz]
    obtain ⟨u, hu, hthaw⟩ := State.thawed_eq (s := { s with
      frozenAt := true, held := [], byPin := false, byPorter := false, bySide := [] }) hz rfl rfl rfl
    have hparts : u.parts = s.parts := (congrArg State.parts hu :)
    have hjobs : u.jobs = s.jobs := (congrArg State.jobs hu :)
    have hfns : u.fns = s.fns := (congrArg State.fns hu :)
    have hheld : u.held = [] := (congrArg State.held hu :)
    have hat : u.frozenAt = true := (congrArg State.frozenAt hu :)
    have hvf : u.vfEnable = s.vfEnable := (congrArg State.vfEnable hu :)
    have hnum : u.numVFs = s.numVFs := (congrArg State.numVFs hu :)
    rw [hthaw]
    have start : Rests v s { u with frozen := false, holding := false, frzSource := 0, frzLanding := false, frzOrigin := false } :=
      ⟨fun q hq => (State.job_of_jobs (s := s) hjobs q : u.job q = s.job q) ▸ h q hq, State.part_of_parts hparts v⟩
    have hqueue := State.replayed (s := { u with
      frozen := false, holding := false, frzSource := 0, frzLanding := false, frzOrigin := false }) hheld
    have hrests := (start.replay hv hh hheld).abortLoads hv
    generalize (State.replay _).abortLoads = t at hqueue hrests
    have rest := hqueue.rest
    have hfrozen : t.frozen = false := (congrArg State.frozen rest :)
    have hholding : t.holding = false := (congrArg State.holding rest :)
    exact ⟨hrests, (congrArg State.fns rest :).trans hfns, (congrArg State.vfEnable rest :).trans hvf,
      (congrArg State.numVFs rest :).trans hnum, fun _ => ⟨(congrArg State.held rest :).trans hheld,
        by rw [State.freezing, hfrozen, hholding]; rfl, (congrArg State.frozenAt rest :).trans hat⟩⟩
  · rw [if_neg hz]
    exact ⟨⟨h, rfl⟩, rfl, rfl, rfl, fun e => absurd e hz⟩

/-! ### The reset of a function -/

theorem SameDevice.rehold {s t : State} (h : SameDevice s t) (v : Fn) : SameDevice s (t.rehold v) :=
  h.queue ((QueueFrame.refl t).rehold v)

theorem SameDevice.dropAttempt {s t : State} (h : SameDevice s t) (q : Page) (slot : Nat) : SameDevice s (t.dropAttempt q slot) :=
  h.queue ((QueueFrame.refl t).dropAttempt q slot)

theorem SameDevice.freezing {s t : State} (h : SameDevice s t) : t.freezing = s.freezing := (congrArg State.freezing h :)

theorem SameDevice.putHost {s t : State} (h : SameDevice s t) (m : Mem) : SameDevice s { t with host := m } := h.of_eq rfl

theorem SameDevice.commitQuiet {s t : State} (h : SameDevice s t) (q : Page) (c : Cmd) : SameDevice s (t.commitQuiet q c) := by
  have e := ((CommitFrame.refl (q := q) t).commitEffects c).device
  unfold State.commitQuiet
  generalize t.commitEffects q c = r at e
  unfold State.finishCmd
  dsimp only
  rw [if_neg (by decide)]
  exact SameDevice.rehold (SameDevice.modJob (SameDevice.modJob (SameDevice.putHost (SameDevice.modPart (h.trans e) ..) _) ..) ..) _

theorem SameDevice.closeQuiet {s t : State} (h : SameDevice s t) (v : Fn) : SameDevice s (t.closeQuiet v) := by
  unfold State.closeQuiet
  refine h.foldl (fun t q h => ?_) _
  split
  · exact h
  · exact SameDevice.ite (h.commitQuiet ..) h

theorem SameDevice.dropJob {s t : State} (h : SameDevice s t) (v : Fn) (j : Nat) : SameDevice s (t.dropJob v j) := by
  unfold State.dropJob
  exact ((h.foldl (fun _ _ h => h.modHall ..) _).modJob ..).modPart ..

theorem SameDevice.putFn {s t : State} (h : SameDevice s t) (f : Fn) (x : FnRegs) : SameDevice s (t.putFn f x) := h.of_eq rfl

theorem SameDevice.clearVf {s t : State} (h : SameDevice s t) (v : Fn) : SameDevice s (t.clearVf v) := by
  unfold State.clearVf
  extract_lets closed dropped emptied paged released
  have hdropped : SameDevice s dropped := (h.closeQuiet v).foldl (fun _ q h => h.foldl (fun _ c h => h.dropAttempt q c.slot) _) _
  have hemptied : SameDevice s emptied := hdropped.foldl (fun _ _ h => h.dropJob ..) _
  have hpaged : SameDevice s paged := hemptied.foldl (fun _ _ h => h.modJob ..) _
  have hreleased : SameDevice s released := hpaged.foldl (fun _ _ h => h.modHall ..) _
  exact (hreleased.modPart ..).putFn ..

/-! Its pages are idle. -/

theorem Job.idle_pageReset (j : Job) : j.pageReset.idle := ⟨rfl, rfl, rfl, rfl, rfl⟩

theorem Job.idle_notResident {j : Job} (h : j.idle) : ({ j with resident := false } : Job).idle := by
  obtain ⟨hc, he, ht, hn, -⟩ := h
  exact ⟨hc, he, ht, hn, rfl⟩

theorem State.pageResets_idle (l : List Page) (s : State) (q : Page) (h : q ∈ l ∨ (s.job q).idle) :
    ((l.foldl (fun (s : State) q => s.modJob q Job.pageReset) s).job q).idle := by
  induction l generalizing s with
  | nil => simpa using h
  | cons k l ih =>
    refine ih _ ?_
    rw [State.job_modJob]
    split
    · exact .inr (Job.idle_pageReset _)
    · next hk => simpa [hk] using h

theorem Idle.of_jobs {v : Fn} {s t : State} (h : Idle v s) (e : t.jobs = s.jobs) : Idle v t := fun q hq => by
  rw [State.job_of_jobs e]
  exact h q hq

theorem Idle.foldl {v : Fn} {α : Type} {f : State → α → State} (hf : ∀ t a, Idle v t → Idle v (f t a)) (l : List α) {s : State}
    (h : Idle v s) : Idle v (l.foldl f s) := by
  induction l generalizing s with
  | nil => exact h
  | cons a l ih => exact ih (hf _ a h)

theorem Idle.foldl_mem {v : Fn} {α : Type} {f : State → α → State} {l : List α} {s : State} (h : Idle v s)
    (hf : ∀ t, ∀ a ∈ l, Idle v t → Idle v (f t a)) : Idle v (l.foldl f s) := by
  induction l generalizing s with
  | nil => exact h
  | cons a l ih => exact ih (hf _ a (List.mem_cons_self ..) h) fun t b hb => hf t b (List.mem_cons_of_mem _ hb)

theorem Idle.dropJob {w : Fn} {s : State} (h : Idle w s) (v : Fn) (j : Nat) : Idle w (s.dropJob v j) := fun q hq => by
  rw [State.dropJob_job]
  split
  · exact Job.idle_notResident (h q hq)
  · exact h q hq

theorem Idle.pageReset {w : Fn} {s : State} (h : Idle w s) (q : Page) : Idle w (s.modJob q Job.pageReset) := fun k hk => by
  rw [State.job_modJob]
  split
  · exact Job.idle_pageReset _
  · exact h k hk

/-- A commit without a record leaves the pages of other functions. -/
theorem Idle.commitQuiet {w : Nat} {s : State} (h : Idle w s) (hw : 1 ≤ w) {q : Page} (hq : pageFn q ≠ w) (c : Cmd) :
    Idle w (s.commitQuiet q c) := by
  have e := ((CommitFrame.refl (q := q) s).commitEffects c).others
  unfold State.commitQuiet
  generalize s.commitEffects q c = r at e
  intro k hk
  have hkq : k ≠ q := by
    rintro rfl
    exact hq ((mem_vfPages hw).mp hk)
  unfold State.finishCmd
  dsimp only
  rw [if_neg (by decide), State.job_rehold, State.job_modJob, if_neg hkq, State.job_modJob, if_neg hkq]
  refine Job.idle_of_offSlice (j := s.job k) ?_ (h k hk)
  rw [← e k hkq]
  rfl

theorem Idle.clearVf_other {v w : Nat} {s : State} (h : Idle w s) (hw : 1 ≤ w) (hv : 1 ≤ v) (hvw : v ≠ w) : Idle w (s.clearVf v) := by
  have other {q : Page} (hq : q ∈ vfPages v) : pageFn q ≠ w := by rw [(mem_vfPages hv).mp hq]; exact hvw
  unfold State.clearVf
  extract_lets closed dropped emptied paged released
  have hclosed : Idle w closed := by
    refine h.foldl_mem (fun t q hq h => ?_)
    split
    · exact h
    · split
      · exact h.commitQuiet hw (other hq) _
      · exact h
  have hdropped : Idle w dropped :=
    hclosed.foldl_mem fun t q hq h => h.foldl (fun t c h => h.page hw (other hq) ((PageFrame.refl t).dropAttempt c.slot)) _
  have hpaged : Idle w paged := (hdropped.foldl (fun _ j h => h.dropJob v j) _).foldl (fun _ q h => h.pageReset q) _
  have hreleased : Idle w released :=
    hpaged.of_jobs (State.offHalls_jobs (State.offHalls_modHalls (fun _ H => { H with holdValid := [] }) _ paged))
  clear_value released
  exact hreleased

/-- A partition without semaphores, plan load and holder. -/
def Part.clear (p : Part) : Part := { p with sems := [], loading := none, holder := none, sliceOver := false, overran := false }

/-- A function after its reset. -/
theorem State.clearVf_idle (s : State) (v : Nat) : Idle v (s.clearVf v) ∧ ((s.clearVf v).part v).sems = []
    ∧ ((s.clearVf v).part v).holder = none ∧ ((s.clearVf v).part v).loading = none ∧ (s.clearVf v).fn v = FnRegs.reset := by
  unfold State.clearVf
  extract_lets closed dropped emptied paged released
  have hpaged : Idle v paged := fun q hq => State.pageResets_idle _ _ q (.inl hq)
  have hreleased : Idle v released :=
    hpaged.of_jobs (State.offHalls_jobs (State.offHalls_modHalls (fun _ H => { H with holdValid := [] }) _ paged))
  clear_value released
  have hpart : ((released.modPart v Part.clear).putFn v FnRegs.reset).part v = (released.part v).clear :=
    State.part_modPart_self released v Part.clear
  exact ⟨hreleased, (congrArg Part.sems hpart :), (congrArg Part.holder hpart :), (congrArg Part.loading hpart :),
    (tabGet_tabSet ..).trans (if_pos rfl)⟩

/-! ### The reset of the physical function -/

/-- The physical function's part of the reset of a virtual function: no partition. -/
def State.noPart (s : State) (v : Fn) : State := (s.unbindPart v).putPart v Part.reset

theorem State.noPart_part (s : State) (v w : Fn) : (s.noPart v).part w = if w = v then Part.reset else (s.unbindPart v).part w :=
  tabGet_tabSet ..

theorem SamePart.unbindPart {v w : Nat} {s t : State} (h : SamePart w s t) (hvw : v ≠ w) : SamePart w s (t.unbindPart v) := by
  unfold State.unbindPart
  extract_lets hs dropped left reset emptied
  have hdropped : SamePart w s dropped := h.foldl (fun t j h => by
    unfold State.dropJob
    exact (SamePart.modJob (h.foldl (fun _ _ h => h.modHall ..) _) ..).modPart hvw _) _
  have hleft : SamePart w s left := hdropped.foldl (fun _ _ h => h.modHall ..) _
  have hemptied : SamePart w s emptied := hleft.modPart hvw _
  exact hemptied.of_parts (State.offHalls_parts (State.offHalls_regrantAll ..))

theorem Idle.noPart {w : Nat} {s : State} (h : Idle w s) (v : Nat) : Idle w (s.noPart v) := by
  unfold State.noPart State.unbindPart
  extract_lets hs dropped left reset emptied
  have hdropped : Idle w dropped := h.foldl (fun _ j h => h.dropJob v j) _
  have hleft : Idle w left := hdropped.of_jobs (State.offHalls_jobs (State.offHalls_modHalls (fun _ H => H.leave) hs dropped))
  have hemptied : Idle w emptied := hleft.of_jobs rfl
  exact Idle.of_jobs (hemptied.of_jobs (State.offHalls_jobs (State.offHalls_regrantAll ..))) rfl

theorem SameDevice.regrant {s t : State} (h : SameDevice s t) (u : State) (k i : Nat) : SameDevice s (u.regrant t k i) := by
  unfold State.regrant
  exact SameDevice.ite (h.foldl (fun _ _ h => h.modPort ..) _) h

theorem SameDevice.noPart {s t : State} (h : SameDevice s t) (v : Fn) : SameDevice s (t.noPart v) := by
  unfold State.noPart State.unbindPart
  extract_lets hs dropped left reset emptied
  have hdropped : SameDevice s dropped := h.foldl (fun _ j h => h.dropJob v j) _
  have hemptied : SameDevice s emptied := (hdropped.foldl (fun _ _ h => h.modHall ..) _).modPart ..
  exact (hemptied.foldl (fun _ _ h => h.foldl (fun _ _ h => h.regrant ..) _) _).of_eq rfl

/-- Every function whose turn has come is idle. -/
theorem State.clearVfs_idle {w : Nat} (hw : 1 ≤ w) (l : List Nat) (hl : ∀ v ∈ l, 1 ≤ v) (s : State) (h : w ∈ l ∨ Idle w s) :
    Idle w (l.foldl State.clearVf s) := by
  induction l generalizing s with
  | nil => simpa using h
  | cons v l ih =>
    have next : w ∈ l ∨ Idle w (s.clearVf v) := by
      rcases eq_or_ne v w with rfl | hvw
      · exact .inr (s.clearVf_idle v).1
      · rcases h with h | h
        · exact .inl ((List.mem_cons.mp h).resolve_left hvw.symm)
        · exact .inr (h.clearVf_other hw (hl v (List.mem_cons_self ..)) hvw)
    rw [List.foldl_cons]
    exact ih (fun v hv => hl v (List.mem_cons_of_mem _ hv)) _ next

theorem State.noParts_part {w : Nat} (l : List Nat) (s : State) (h : w ∈ l ∨ s.part w = Part.reset) :
    (l.foldl State.noPart s).part w = Part.reset := by
  induction l generalizing s with
  | nil => simpa using h
  | cons v l ih =>
    refine ih _ ?_
    rw [State.noPart_part]
    by_cases hvw : w = v
    · exact .inr (if_pos hvw)
    · rw [if_neg hvw]
      rcases h with h | h
      · exact .inl ((List.mem_cons.mp h).resolve_left hvw)
      · exact .inr ((SamePart.unbindPart (s := s) rfl fun e => hvw e.symm).trans h)

/-- Virtual functions. -/
def vfs : List Nat := (List.range 8).map (· + 1)

theorem mem_vfs {v : Nat} (h1 : 1 ≤ v) (h8 : v ≤ 8) : v ∈ vfs := List.mem_map.mpr ⟨v - 1, List.mem_range.mpr (by omega), by omega⟩

/-- The state that the physical function's reset leaves before a freeze ends. -/
def State.clearPf (s : State) : State := vfs.foldl State.noPart (vfs.foldl State.clearVf s)

theorem State.resetPf_eq (s : State) :
    s.resetPf = { s.clearPf.putFn 0 FnRegs.reset with vfEnable := false, numVFs := 0, bars := [] }.endFreeze := rfl

/-- The physical function's reset, before a freeze ends. -/
theorem State.clearPf_spec (s : State) {v : Nat} (h1 : 1 ≤ v) (h8 : v ≤ 8) :
    Idle v s.clearPf ∧ s.clearPf.part v = Part.reset ∧ s.clearPf.freezing = s.freezing := by
  have ge : ∀ v ∈ vfs, 1 ≤ v := by decide
  have hidle := State.clearVfs_idle h1 vfs ge s (.inl (mem_vfs h1 h8))
  have hdev : SameDevice s (vfs.foldl State.clearVf s) := (SameDevice.refl s).foldl (fun _ v h => h.clearVf v) _
  unfold State.clearPf
  generalize vfs.foldl State.clearVf s = t at hidle hdev
  exact ⟨hidle.foldl (fun _ v h => h.noPart v) _, State.noParts_part vfs t (.inl (mem_vfs h1 h8)),
    (hdev.foldl (fun _ v h => h.noPart v) vfs).freezing⟩

/-- Settles O45: a function is idle after its reset, so that the end of a freeze, which fetches on every page, leaves it. -/
theorem functionResets : Obligations.FunctionResets := by
  unfold Obligations.FunctionResets
  intro s v hot hv1 hv8 ends
  refine ⟨⟨s.resetVf v, rfl, ?_⟩, ⟨s.resetPf, rfl, ?_⟩⟩
  · obtain ⟨hidle, hsems, hholder, hload, hfn⟩ := s.clearVf_idle v
    have hz : (s.clearVf v).freezing = s.freezing := ((SameDevice.refl s).clearVf v).freezing
    obtain ⟨hrest, hfns, -, -, hends⟩ := State.endFreeze_rests hidle hv1 hholder
    have hpart := hrest.part
    have hpages := hrest.idle
    unfold State.resetVf
    refine ⟨by rw [hpart, hsems], by rw [hpart, hholder], by rw [hpart, hload], by rw [State.fn, hfns]; exact hfn,
      fun h => hends (hz.trans h), fun q hq => ?_⟩
    exact hpages q hq
  · obtain ⟨hidle, hpart, hz⟩ := s.clearPf_spec hv1 hv8
    rw [State.resetPf_eq]
    generalize s.clearPf = t at hidle hpart hz
    obtain ⟨hrest, hfns, hvf, hnum, hends⟩ := State.endFreeze_rests
      (s := { t.putFn 0 FnRegs.reset with vfEnable := false, numVFs := 0, bars := [] }) hidle hv1 (congrArg Part.holder hpart)
    have hfn : (t.putFn 0 FnRegs.reset).fn 0 = FnRegs.reset := (tabGet_tabSet ..).trans (if_pos rfl)
    exact ⟨hvf, hnum, (congrArg (fun l => tabGet FnRegs.reset l 0) hfns).trans hfn, hrest.part.trans hpart, fun h => hends (hz.trans h)⟩

end Sys2Proof.Machine
end

section
/-! PROOFS. The work of commands that move whole tensors, and of plan loads. -/

namespace Sys2Proof.Machine

/-! ### The end of a command's work -/

theorem Attempt.mem_doneAt_addDone (a : Attempt) (h off : Nat) : off ∈ (a.addDone h off).doneAt h := by
  unfold Attempt.doneAt Attempt.addDone
  rw [tabGet_tabSet, if_pos rfl]
  exact List.mem_append_right _ (List.mem_singleton.mpr rfl)

theorem Attempt.finished_finish (a : Attempt) : a.finish.finished = true := by
  have h := a.mem_doneAt_addDone 0x100 0
  unfold Attempt.finished Attempt.finish
  cases e : (a.addDone 0x100 0).doneAt 0x100 with
  | nil => rw [e] at h; cases h
  | cons x l => rfl

/-- The work of a running command that is not finished. -/
theorem State.work_ok {s t : State} {q : Page} {slot : Nat} {c : Cmd} {want : Cmd → Bool} {f : Cmd → State → Except Nat State}
    (hc : s.cmd? q slot = some c) (hp : c.phase = .running) (hw : want c = true) (hn : c.noWork = false) (hf : c.att.finished = false)
    (h : f c s = .ok t) : s.work q slot want f = t := by
  unfold State.work
  rw [hc]
  dsimp only
  rw [if_pos ⟨hp, hw, by simp [hn], by simp [hf]⟩, h]

theorem State.att_of_cmd? {s : State} {q : Page} {slot : Nat} {c : Cmd} (h : s.cmd? q slot = some c) : s.att q slot = c.att := by
  unfold State.att
  rw [h]
  rfl

/-! ### What counting changes -/

/-- Counting what a STORE reads changes the statistics of its attempt at most. -/
theorem State.countStore_cases (s : State) (q : Page) (c : Cmd) (u : Use) (b : List Byte) :
    s.countStore q c u b = s
      ∨ ∃ f : Attempt → Attempt, (∀ a, (f a).staged = a.staged) ∧ s.countStore q c u b = s.modAtt q c.slot f := by
  unfold State.countStore State.countRead State.countInvalid
  dsimp only
  split
  · split
    · exact .inr ⟨_, fun a => by rfl, rfl⟩
    · exact .inl rfl
  · exact .inl rfl

/-- The work of a STORE changes its attempt alone. -/
theorem State.storeWork_ok {s : State} {q : Page} {c : Cmd} {u : Use} {b : List Byte} (hc : s.cmd? q c.slot = some c)
    (hu : c.att.uses = [u]) (hb : s.unitData q u c.desc.part c.desc.first c.desc.count = .ok b) :
    ∃ t, s.storeWork q c = .ok t ∧ (t.att q c.slot).hostOut = [(c.desc.b 48 8, b)] ∧ t.host = s.host
      ∧ (t.att q c.slot).finished = true ∧ (t.att q c.slot).staged = c.att.staged ∧ t.halls = s.halls ∧ t.parts = s.parts := by
  refine ⟨_, by unfold State.storeWork; rw [hu]; dsimp only; rw [hb], ?_⟩
  have hsome : (s.cmd? q c.slot).isSome = true := by rw [hc]; rfl
  rcases s.countStore_cases q c u b with e | ⟨f, hf, e⟩
  · rw [e, State.att_modAtt _ _ _ _ hsome, State.att_of_cmd? hc]
    exact ⟨rfl, rfl, Attempt.finished_finish _, rfl, rfl, rfl⟩
  · rw [e, State.att_modAtt _ _ _ _ (by rw [State.cmd?_modAtt_isSome]; exact hsome), State.att_modAtt _ _ _ _ hsome, State.att_of_cmd? hc]
    exact ⟨rfl, rfl, Attempt.finished_finish _, hf _, rfl, rfl⟩

/-- Settles O15: the work of a STORE reads the committed face and changes its attempt alone. -/
theorem storeTakesTheFace : Obligations.StoreTakesTheFace := by
  unfold Obligations.StoreTakesTheFace
  intro s q slot c u b hz hc hs hp hop hn hf hu hb
  subst hs
  obtain ⟨t, ht, h⟩ := State.storeWork_ok hc hu hb
  refine ⟨t, (next_live hz _).trans (congrArg Host.Outcome.next ?_), h⟩
  exact State.work_ok hc hp (by simp [hop]) hn hf ht

/-! ### O16: a COPY of fine codes between tensors of different widths -/

/-- A tensor of one row of `n` elements. -/
def rowDesc (n : Nat) : TDesc :=
  { fmtRaw := 0, affRaw := 0, tensor := 7, host := false, dogleg := true, rsv := false, rows := 1, cols := n, pitch := 0x1000,
    addr0 := 0, addr1 := 0x2000, plane := 0x4000, side := 0 }

/-- The running COPY of the fine codes of one row (PART 1) of a source of 256 elements into a target of one. -/
def narrowCopy : Cmd :=
  { slot := 0, seq := 0, opcode := opCOPY,
    desc := ⟨0, 0, 7, 0, 0, [0, 0, 0, 0], [1, 0, 0, 0, 1, 0, 0, 0] ++ List.replicate 24 0⟩, tds := [], tens := [],
    known := true, phase := .running, kills := 0, faultKills := 0, race := false, absentF := false, firstT := none,
    mism := 0, evid := 0, evidP := 0, tauTest := false,
    att := { Attempt.empty with uses :=
      [⟨0, rowDesc 256, 0, none, 0, 0, 0, 0, false, true, false⟩, ⟨0, rowDesc 1, 0, none, 0, 0, 0, 0, false, false, true⟩] } }

def narrowState : State := { State.reset with jobs := [(0, { Job.reset with cmds := [narrowCopy] })] }

/-- The two uses of the COPY. -/
def wideSource : Use := ⟨0, rowDesc 256, 0, none, 0, 0, 0, 0, false, true, false⟩
def narrowTarget : Use := ⟨0, rowDesc 1, 0, none, 0, 0, 0, 0, false, false, true⟩

theorem narrowState_copies :
    narrowState.frozen = false ∧ narrowState.cmd? 0 0 = some narrowCopy ∧ narrowCopy.att.uses = [wideSource, narrowTarget]
      ∧ narrowCopy.att.finished = false ∧ narrowCopy.noWork = false ∧ narrowCopy.desc.part = 1
      ∧ narrowCopy.desc.first2 = 0 ∧ narrowCopy.desc.count = 1
      ∧ narrowState.unitData 0 wideSource narrowCopy.desc.part narrowCopy.desc.first narrowCopy.desc.count
        = .ok (List.replicate 16 0) := by decide +kernel

/-- Refutes O16: the fine codes of a row are as many as its blocks, and nothing in the statement makes source and target
equally wide. Sixteen fine codes of a source of 256 elements cannot be what the one block of the target holds. -/
theorem not_loadAndCopyStage : ¬ Obligations.LoadAndCopyStage := by
  unfold Obligations.LoadAndCopyStage
  intro h
  obtain ⟨hz, hc, huses, hfin, hwork, hpart, hfirst, hcount, hdata⟩ := narrowState_copies
  obtain ⟨-, hcopy⟩ := h narrowState 0 0 narrowCopy narrowTarget hz hc rfl rfl hwork hfin rfl
  obtain ⟨t, -, -, hholds⟩ := hcopy wideSource (List.replicate 16 0) rfl (by rw [hpart]; decide) huses rfl hdata
  obtain ⟨-, -, hfines, -⟩ := hholds
  have hlen := congrArg List.length (hfines hpart (by rw [hfirst, hcount]; decide))
  rw [hcount, memReads_length] at hlen
  exact absurd hlen (by decide)

/-! ### Plan loads -/

theorem State.sendExchange_outside (s : State) (v : Fn) (p : Plan) :
    (s.sendExchange v p).parts = s.parts ∧ (s.sendExchange v p).halls = s.halls ∧ (s.sendExchange v p).jobs = s.jobs
      ∧ (s.sendExchange v p).host = s.host := by
  unfold State.sendExchange
  split <;> exact ⟨rfl, rfl, rfl, rfl⟩

section
variable {s : State} {q : Page} {slot : Nat} {c : Cmd} (hc : s.cmd? q slot = some c) (hp : c.phase = .running)
  (hop : c.opcode = opLOAD) (hpart : c.desc.part = 3) (hn : c.noWork = false) (hload : (s.part (pageFn q)).loading = none)
  (hkey : s.keyBurn = none) (hpoison : s.addrPoison q (c.desc.b 40 8) c.desc.count = none)
include hc hp hop hpart hn hload hkey hpoison

/-- A plan that passes every check stands by. -/
theorem State.planRead_ok {p : Plan}
    (h : readPlan (s.planCtx (pageFn q)) ((s.unsure c).readAt q (c.desc.b 40 8) c.desc.count) = .ok p) :
    ∃ t : State, t.part (pageFn q) = { s.part (pageFn q) with
          loading := some ⟨q, slot, p, p.scissor.isNone || (s.part (pageFn q)).scState == 2, false⟩ }
      ∧ t.halls = s.halls ∧ t.jobs = s.jobs ∧ t.host = s.host
      ∧ (s.planRead q slot = t ∨ s.planRead q slot = t.sendExchange (pageFn q) p) := by
  refine ⟨({ s with free := (s.unsure c).free } : State).modPart (pageFn q) fun P => { P with
      loading := some ⟨q, slot, p, p.scissor.isNone || (s.part (pageFn q)).scState == 2, false⟩ },
    State.part_modPart_self .., rfl, rfl, rfl, ?_⟩
  unfold State.planRead
  extract_lets v
  rw [hc]
  dsimp only
  rw [if_pos ⟨hp, hop, hpart, by simp [hn], by simp [v, hload], by simp [hkey]⟩, hpoison]
  dsimp only
  rw [show readPlan (({ s with free := (s.unsure c).free } : State).planCtx v) _ = .ok p from h]
  dsimp only
  split
  · exact .inl rfl
  · exact .inr rfl

/-- An image that fails a check fails its command. -/
theorem State.planRead_error {e : Nat}
    (h : readPlan (s.planCtx (pageFn q)) ((s.unsure c).readAt q (c.desc.b 40 8) c.desc.count) = .error e) :
    s.planRead q slot = ({ s with free := (s.unsure c).free } : State).failCmd q slot e 0xFFFF := by
  unfold State.planRead
  extract_lets v
  rw [hc]
  dsimp only
  rw [if_pos ⟨hp, hop, hpart, by simp [hn], by simp [v, hload], by simp [hkey]⟩, hpoison]
  dsimp only
  rw [show readPlan (({ s with free := (s.unsure c).free } : State).planCtx v) _ = .error e from h]

end

/-- Settles O17: a good image stands by, for a leg beside the exchange that it sends; a bad one fails with its code. -/
theorem planLoadStandsBy : Obligations.PlanLoadStandsBy := by
  unfold Obligations.PlanLoadStandsBy
  intro s q slot c hz hc hp hop hpart hn hload hkey hpoison r image
  refine ⟨s.planRead q slot, next_live hz _, fun p hi => ?_, fun e hi => ?_⟩
  · obtain ⟨t, ht, hhalls, hjobs, hhost, hcases⟩ := State.planRead_ok hc hp hop hpart hn hload hkey hpoison hi
    obtain ⟨xparts, xhalls, xjobs, xhost⟩ := t.sendExchange_outside (pageFn q) p
    rcases hcases with e | e
    · rw [e, ht]
      exact ⟨rfl, rfl, hhalls, hjobs, hhost⟩
    · rw [e, State.part_of_parts xparts, ht]
      exact ⟨rfl, rfl, xhalls.trans hhalls, xjobs.trans hjobs, xhost.trans hhost⟩
  · exact State.planRead_error hc hp hop hpart hn hload hkey hpoison hi

end Sys2Proof.Machine
end

section
/-! PROOFS. Ports: frames in, acknowledgements, frames out, training. -/

namespace Sys2Proof.Machine

/-! ### What queues, digests and logs leave of the ports -/

/-- A port without the frames that wait to be sent. -/
def Port.offTxq (p : Port) : Port := { p with txq := [] }

/-- Every port stands, but for the frames that wait. -/
structure QuietPorts (s t : State) : Prop where
  same : ∀ h i, ((t.hall h).port i).offTxq = ((s.hall h).port i).offTxq

namespace QuietPorts

variable {s t : State}

theorem refl (s : State) : QuietPorts s s := ⟨fun _ _ => rfl⟩

theorem of_halls {u : State} (h : QuietPorts s t) (e : ∀ k, u.hall k = t.hall k) : QuietPorts s u := ⟨fun k i => by
  rw [e]
  exact h.same k i⟩

theorem foldl {α : Type} {f : State → α → State} (h : QuietPorts s t) (hf : ∀ t a, QuietPorts s t → QuietPorts s (f t a)) (l : List α) :
    QuietPorts s (l.foldl f t) := by
  induction l generalizing t with
  | nil => exact h
  | cons a l ih => exact ih (hf t a h)

theorem ite {c : Prop} [Decidable c] {u : State} (ht : QuietPorts s t) (hu : QuietPorts s u) : QuietPorts s (if c then t else u) := by
  split
  · exact ht
  · exact hu

theorem modHall (h : QuietPorts s t) (k : Nat) {f : Hall → Hall} (hf : ∀ H i, ((f H).port i).offTxq = (H.port i).offTxq) :
    QuietPorts s (t.modHall k f) := ⟨fun j i => by
  rw [State.hall_modHall]
  split
  · next e => rw [e, hf]; exact h.same k i
  · exact h.same j i⟩

theorem modPort (h : QuietPorts s t) (k n : Nat) {f : Port → Port} (hf : ∀ p, (f p).offTxq = p.offTxq) :
    QuietPorts s (t.modPort k n f) := by
  refine h.modHall k fun H i => ?_
  rw [Hall.port_putPort]
  split
  · next e => rw [e, hf]
  · rfl

theorem modJob (h : QuietPorts s t) (q : Page) (f : Job → Job) : QuietPorts s (t.modJob q f) := ⟨h.same⟩
theorem modPart (h : QuietPorts s t) (v : Fn) (f : Part → Part) : QuietPorts s (t.modPart v f) := ⟨h.same⟩
theorem modHJob (h : QuietPorts s t) (k j : Nat) (f : HJob → HJob) : QuietPorts s (t.modHJob k j f) :=
  h.modHall k fun _ _ => by rfl

theorem Hall.port_xlog (H : Hall) (now : DWord) (e : LogEnt) (i : Nat) : (H.xlog now e).port i = H.port i := by
  unfold Hall.xlog
  split <;> rfl

theorem log (h : QuietPorts s t) (k : Nat) (e : LogEnt) : QuietPorts s (t.log k e) :=
  h.modHall k fun H i => by rw [Hall.port_xlog]

theorem logPart (h : QuietPorts s t) (v : Fn) (e : LogEnt) : QuietPorts s (t.logPart v e) := h.foldl (fun _ _ h => h.log ..) _

theorem rehold (h : QuietPorts s t) (v : Fn) : QuietPorts s (t.rehold v) := h.of_halls fun k => t.rehold_hall v k

theorem stopImage (h : QuietPorts s t) (q : Page) (seq : Nat) : QuietPorts s (t.stopImage q seq) := by
  refine h.foldl (fun u k h => h.modHall k fun H i => ?_) _
  refine (congrArg Port.offTxq (tabGet_map Port.reset (fun p => { p with
    txq := p.txq.filter fun f => !ofImage (rankWord u.chainAddr.toNat k) (pageJob q) seq f }) rfl H.ports i)).trans ?_
  rfl

theorem dropAttempt (h : QuietPorts s t) (q : Page) (slot : Nat) : QuietPorts s (t.dropAttempt q slot) := by
  unfold State.dropAttempt
  dsimp only
  refine modJob ?_ ..
  split
  · exact ite (stopImage (h.modPart ..) ..) (h.modPart ..)
  · exact h.modPart ..

theorem countRerun (h : QuietPorts s t) (q : Page) (c : Cmd) : QuietPorts s (t.countRerun q c) := by
  unfold State.countRerun
  refine ite (h.foldl (fun _ _ h => h.modHall _ ?_) _) h
  exact fun _ _ => rfl

theorem postRecord (h : QuietPorts s t) (q : Page) (c : Cmd) (status detail : Nat) (ok : Bool) (tst : DWord) :
    QuietPorts s (t.postRecord q c status detail ok tst) := by
  have ring (a : Nat) (hbm : Bool) (b : List Byte) : QuietPorts s (t.writeRing q hbm a b) := by
    unfold State.writeRing
    refine ite (h.modHall _ ?_) ⟨h.same⟩
    exact fun _ _ => rfl
  unfold State.postRecord
  dsimp only
  split
  · exact of_halls (ring ((t.job q).cqBase + 32 * (t.job q).cqTail) (t.job q).cqHbm _) fun _ => rfl
  · exact modJob (ring ..) ..

theorem postFailed (h : QuietPorts s t) (q : Page) : QuietPorts s (t.postFailed q) := by
  unfold State.postFailed
  split
  · exact h
  split
  · exact ite h (ite (modJob (h.postRecord ..) ..) (modJob (foldl (h.postRecord ..)
      (fun _ _ h => (h.countRerun ..).dropAttempt ..) _) ..))
  · exact h

theorem drainFailed (h : QuietPorts s t) (q : Page) : QuietPorts s (t.drainFailed q) := h.foldl (fun _ _ h => h.postFailed q) _

theorem failCmd (h : QuietPorts s t) (q : Page) (slot code detail : Nat) : QuietPorts s (t.failCmd q slot code detail) := by
  unfold State.failCmd
  have w := h.dropAttempt q slot
  dsimp only
  refine rehold (drainFailed (modJob ?_ ..) _) _
  split
  · exact w.foldl (fun _ _ h => h.modHJob ..) _
  · exact w

theorem killCmd (h : QuietPorts s t) (q : Page) (slot : Nat) (fault : Bool) : QuietPorts s (t.killCmd q slot fault) := by
  unfold State.killCmd
  dsimp only
  split
  · exact h
  · next c _ =>
    have w := (h.countRerun q c).dropAttempt q slot
    exact ite (ite (failCmd (w.modJob ..) ..) (rehold (w.modJob ..) _)) h

theorem enqueue (h : QuietPorts s t) (fs : List Frame) : QuietPorts s (t.enqueue fs) :=
  h.foldl (fun _ _ h => h.modPort _ _ fun _ => by rfl) _

theorem digestOver (h : QuietPorts s t) (v : Fn) (r : HallRoute) (x : XHdr) (data : List Byte) (relay : Option (Nat × Nat)) :
    QuietPorts s (t.digestOver v r x data relay) := by
  unfold State.digestOver
  exact (h.enqueue _).modPart ..

theorem failAll (h : QuietPorts s t) (v : Fn) (code : Nat) : QuietPorts s (t.failAll v code) := by
  unfold State.failAll
  refine h.foldl (fun t q h => ?_) _
  split
  · exact h
  · exact ite h (h.failCmd ..)

theorem retireLeg (h : QuietPorts s t) (v : Fn) : QuietPorts s (t.retireLeg v) := by
  unfold State.retireLeg State.haltAll
  exact foldl (failAll (modPart (h.foldl (fun _ _ h => h.digestOver ..) _) ..) ..) (fun _ _ h => h.modJob ..) _

theorem leavePair (h : QuietPorts s t) (v : Fn) : QuietPorts s (t.leavePair v) := by
  unfold State.leavePair
  exact ite (h.retireLeg v) h

theorem standAlone (h : QuietPorts s t) (v : Fn) (cause : Nat) : QuietPorts s (t.standAlone v cause) := by
  unfold State.standAlone
  refine ite (logPart (modPart (h.foldl (fun _ _ h => h.modHall _ ?_) _) ..) ..) h
  exact fun _ _ => rfl

theorem evidence (h : QuietPorts s t) (k n : Nat) : QuietPorts s (t.evidence k n) := by
  unfold State.evidence
  refine h.foldl (fun u x h => ?_) _
  exact ⟨h.same⟩

end QuietPorts

/-! ### One port -/

theorem State.port_modPort (s : State) (h i k n : Nat) (f : Port → Port) :
    ((s.modPort h i f).hall k).port n = if k = h ∧ n = i then f ((s.hall h).port i) else (s.hall k).port n := by
  rw [State.modPort, State.hall_modHall]
  by_cases hk : k = h
  · subst hk
    rw [if_pos rfl, Hall.port_putPort]
    by_cases hn : n = i
    · rw [if_pos hn, if_pos ⟨rfl, hn⟩]
    · rw [if_neg hn, if_neg (fun e => hn e.2)]
  · rw [if_neg hk, if_neg (fun e => hk e.1)]

theorem State.hall_modPort_other (s : State) (h i : Nat) (f : Port → Port) {k : Nat} (hk : k ≠ h) :
    (s.modPort h i f).hall k = s.hall k := (State.hall_modHall ..).trans (if_neg hk)

theorem State.port_log (s : State) (h : Nat) (e : LogEnt) (k i : Nat) : ((s.log h e).hall k).port i = (s.hall k).port i := by
  rw [State.log, State.hall_modHall]
  split
  · next hk => rw [hk, QuietPorts.Hall.port_xlog]
  · rfl

theorem State.hall_log_other (s : State) (h : Nat) (e : LogEnt) {k : Nat} (hk : k ≠ h) : (s.log h e).hall k = s.hall k :=
  (State.hall_modHall ..).trans (if_neg hk)

/-! ### Lanes, training and HOLD_DOWN -/

/-- A port without what it has put on the wire. -/
def Port.offWire (p : Port) : Port := { p with outQ := [] }

theorem Port.offWire_grantUnits (p : Port) (vc units : Nat) : (p.grantUnits vc units).offWire = p.offWire := by
  unfold Port.grantUnits
  split <;> rfl

theorem State.grant_port (s : State) (h i : Nat) : (((s.grant h i).hall h).port i).offWire = ((s.hall h).port i).offWire := by
  unfold State.grant
  refine List.foldl_keeps (fun t : State => ((t.hall h).port i).offWire) (fun t g => ?_) _ s
  rw [State.port_modPort_self, Port.offWire_grantUnits]

/-- What follows the end of a training leaves the ports. -/
theorem State.retrainEnd_quiet (s : State) (h i : Nat) (good : Byte) (peerAck : Nat) :
    QuietPorts (s.retrained h i good peerAck) (s.retrainEnd h i good peerAck) := by
  unfold State.retrainEnd
  exact .ite (.ite ((QuietPorts.refl _).evidence ..) (.refl _))
    (.ite ((QuietPorts.refl _).foldl (fun _ _ h => h.leavePair _) _) (.refl _))

/-- A training that ends with enough lanes brings its port up. -/
theorem State.retrainEnd_up {s : State} {h i : Nat} {good : Byte} (peerAck : Nat) (ht : ((s.hall h).port i).training = true)
    (h7 : 7 ≤ lanesOf (good &&& ((s.hall h).port i).offer)) (hd : ((s.hall h).port i).holdDown = false) :
    let p := ((s.retrainEnd h i good peerAck).hall h).port i
    p.up = true ∧ p.training = false ∧ p.lanes = good &&& ((s.hall h).port i).offer
      ∧ p.degraded = (lanesOf (good &&& ((s.hall h).port i).offer) == 7) := by
  have hr : s.retrained h i good peerAck = if ((s.hall h).port i).up then s.modPort h i (·.resume (good &&& ((s.hall h).port i).offer) peerAck)
      else (s.modPort h i (·.resume (good &&& ((s.hall h).port i).offer) peerAck)).grant h i := by
    unfold State.retrained
    extract_lets p m s1
    rw [if_pos ht, if_pos ⟨h7, hd⟩]
  have hoff : (((s.retrained h i good peerAck).hall h).port i).offWire
      = (((s.hall h).port i).resume (good &&& ((s.hall h).port i).offer) peerAck).offWire := by
    rw [hr]
    split
    · rw [State.port_modPort_self]
    · rw [State.grant_port, State.port_modPort_self]
  have hres (p : Port) (m : Byte) : (p.resume m peerAck).up = true ∧ (p.resume m peerAck).training = false
      ∧ (p.resume m peerAck).lanes = m ∧ (p.resume m peerAck).degraded = (lanesOf m == 7) := by
    unfold Port.resume
    extract_lets left q
    split <;> exact ⟨rfl, rfl, rfl, rfl⟩
  obtain ⟨rup, rtrain, rlanes, rdeg⟩ := hres ((s.hall h).port i) (good &&& ((s.hall h).port i).offer)
  have hquiet := (s.retrainEnd_quiet h i good peerAck).same h i
  generalize s.retrained h i good peerAck = t at hoff hquiet
  generalize s.retrainEnd h i good peerAck = u at hquiet
  exact ⟨((congrArg Port.up hquiet :).trans (congrArg Port.up hoff :)).trans rup,
    ((congrArg Port.training hquiet :).trans (congrArg Port.training hoff :)).trans rtrain,
    ((congrArg Port.lanes hquiet :).trans (congrArg Port.lanes hoff :)).trans rlanes,
    ((congrArg Port.degraded hquiet :).trans (congrArg Port.degraded hoff :)).trans rdeg⟩

theorem State.portDown_port (s : State) (h i : Nat) : ((s.portDown h i).hall h).port i = ((s.hall h).port i).fallen := by
  rw [State.portDown, State.port_log, State.port_modPort_self]

/-- A training that ends with too few lanes, or of a port that is held down, takes its port down. -/
theorem State.retrainEnd_down {s : State} {h i : Nat} {good : Byte} (peerAck : Nat) (ht : ((s.hall h).port i).training = true)
    (h7 : ¬ (7 ≤ lanesOf (good &&& ((s.hall h).port i).offer) ∧ ((s.hall h).port i).holdDown = false)) :
    let p := ((s.retrainEnd h i good peerAck).hall h).port i
    p.up = false ∧ p.training = false ∧ p.downEvt = true := by
  have hr : s.retrained h i good peerAck = s.portDown h i := by
    unfold State.retrained
    extract_lets p m s1
    rw [if_pos ht, if_neg h7]
  have hquiet := (s.retrainEnd_quiet h i good peerAck).same h i
  rw [hr, State.portDown_port] at hquiet
  generalize s.retrainEnd h i good peerAck = u at hquiet
  exact ⟨(congrArg Port.up hquiet :), (congrArg Port.training hquiet :), (congrArg Port.downEvt hquiet :)⟩

theorem State.setHoldDown_port (s : State) (h i : Nat) (on : Bool) : ((s.setHoldDown h i on).hall h).port i
    = if on ∧ (((s.hall h).port i).up ∨ ((s.hall h).port i).training) then ({ (s.hall h).port i with holdDown := on } : Port).fallen
      else { (s.hall h).port i with holdDown := on } := by
  unfold State.setHoldDown
  extract_lets t p
  have hp : p = { (s.hall h).port i with holdDown := on } := State.port_modPort_self ..
  split
  · next hc =>
    rw [State.portDown_port, show (t.hall h).port i = _ from hp, if_pos (by rw [hp] at hc; exact hc)]
  · next hc =>
    rw [show (t.hall h).port i = _ from hp, if_neg (by rw [hp] at hc; exact hc)]

/-- A write of a port's control register that takes effect. -/
theorem State.portCtrl_takes {s : State} {h i : Nat} (retrain hold : Bool)
    (hz : ¬ (s.freezing = true ∧ (retrain = true ∨ s.heldAt (portCtrlOff h i) = true))) :
    s.portCtrl 0 h i retrain hold = if retrain = false then s.setHoldDown h i hold
      else if 3 ≤ i ∨ ((s.hall h).port i).holdDown ∨ hold then (s.setHoldDown h i hold).accessErr 0
      else (s.setHoldDown h i hold).modPort h i fun p => { p with training := true, offer := 0xFF } := by
  unfold State.portCtrl
  rw [if_neg (by decide), if_neg hz]
  extract_lets was t
  cases retrain <;> rfl

/-- Settles O32: of a port that trains to come up, what follows its end sends and logs alone. -/
theorem portsTrainOrGoDown : Obligations.PortsTrainOrGoDown := by
  unfold Obligations.PortsTrainOrGoDown
  intro s h i lane lanes peerAck p m
  refine ⟨fun hi hu hl => ⟨_, rfl, ?_⟩, fun ht h7 hh => ⟨_, rfl, State.retrainEnd_up peerAck ht h7 hh⟩,
    fun ht h7 => ⟨_, rfl, State.retrainEnd_down peerAck ht fun h => ?_⟩, fun hi hh hz => ⟨_, rfl, ?_⟩,
    fun hz => ⟨⟨_, rfl, ?_⟩, ⟨_, rfl, ?_⟩⟩⟩
  · rw [State.laneDegrade, if_pos ⟨hi, hu, hl⟩, State.port_log, State.port_modPort_self]
    exact ⟨rfl, rfl, rfl, rfl⟩
  · rcases h7 with h7 | h7
    · exact absurd h.1 (Nat.not_le_of_gt h7)
    · exact absurd (h7.symm.trans h.2) (by decide)
  · rw [State.portCtrl_takes true false (by simp [hz]), if_neg (by decide), if_neg (by simp [hh, p]; omega), State.port_modPort_self,
      State.setHoldDown_port, if_neg (by simp)]
    exact ⟨rfl, rfl, rfl, rfl⟩
  · rw [State.portCtrl_takes false true (by rcases hz with e | e <;> simp [e]), if_pos rfl, State.setHoldDown_port]
    split
    · exact ⟨rfl, fun _ => ⟨rfl, rfl⟩⟩
    · next hc => exact ⟨rfl, fun hup => absurd ⟨rfl, hup⟩ hc⟩
  · rw [State.portCtrl_takes false false (by rcases hz with e | e <;> simp [e]), if_pos rfl, State.setHoldDown_port, if_neg (by simp)]
    exact ⟨rfl, rfl⟩

end Sys2Proof.Machine
end

section
/-! PROOFS. Frames on the links. -/

namespace Sys2Proof.Machine

/-! ### Acknowledgements -/

theorem State.onPort_usable {s : State} {h i : Nat} (hu : ((s.hall h).port i).usable = true) (f : Port → Port) :
    s.onPort h i f = s.modPort h i f := if_pos hu

theorem State.halls_evidence (s : State) (h n : Nat) : (s.evidence h n).halls = s.halls := by
  unfold State.evidence
  exact List.foldl_keeps State.halls (fun _ _ => by rfl) _ s

/-- What a good header leaves of a port: acknowledged frames go, and the credits come. -/
theorem Port.takeHeader_credits (p : Port) (f : Frame) (v : Nat) :
    tabGet 0 (p.takeHeader f).credits v = tabGet 0 p.credits v + if v = f.crVc then f.crUnits else 0 := by
  unfold Port.takeHeader
  dsimp only
  split
  · next h => rw [h]; split <;> rfl
  · rw [tabGet_tabSet]
    split
    · next e => rw [e]
    · rfl

theorem Port.mem_takeHeader_retry (p : Port) (f g : Frame) :
    g ∈ (p.takeHeader f).retry ↔ g ∈ p.retry ∧ seqLe g.seq f.ackseq = false := by
  unfold Port.takeHeader
  simp [List.mem_filter]

/-- The port of an acknowledgement, resent or not. -/
def Port.acknowledged (p : Port) (f : Frame) (again : Bool) : Port := if again then (p.takeHeader f).resend else p.takeHeader f

theorem Port.acknowledged_spec (p : Port) (f : Frame) (again : Bool) :
    (∀ g, g ∈ (p.acknowledged f again).retry ↔ g ∈ p.retry ∧ seqLe g.seq f.ackseq = false)
      ∧ tabGet 0 (p.acknowledged f again).credits f.crVc = tabGet 0 p.credits f.crVc + f.crUnits
      ∧ (∀ v, v ≠ f.crVc → tabGet 0 (p.acknowledged f again).credits v = tabGet 0 p.credits v)
      ∧ (p.acknowledged f again).outQ = p.outQ ++ (if again then (p.acknowledged f again).retry.map sealFrame else [])
      ∧ (p.acknowledged f again).rxbuf = p.rxbuf := by
  have hc := p.takeHeader_credits f
  have hr : (p.acknowledged f again).retry = (p.takeHeader f).retry := by cases again <;> rfl
  have hcr : (p.acknowledged f again).credits = (p.takeHeader f).credits := by cases again <;> rfl
  refine ⟨fun g => ?_, ?_, fun v hv => ?_, ?_, ?_⟩
  · rw [hr]
    exact p.mem_takeHeader_retry f g
  · rw [hcr, hc, if_pos rfl]
  · rw [hcr, hc, if_neg hv, Nat.add_zero]
  · cases again
    · exact (List.append_nil _).symm
    · rfl
  · cases again <;> rfl

/-- The three rows of acknowledgements, on a port that carries frames. -/
theorem exec_acknowledged {s : State} {h i n : Nat} {f : Frame} {c : Nat → Nat → Frame → Instr}
    (hu : ((s.hall h).port i).usable = true)
    (hn : (n, c) ∈ [(tLACK, Instr.lack), (tLNAK, Instr.lnak), (tCREDIT, Instr.credit)]) (ht : f.typ = n) (hf : frameOk f = true) :
    ∃ t : State, exec (c h i f) s = .next t ∧ (t.hall h).port i = ((s.hall h).port i).acknowledged f (n == tLNAK)
      ∧ ∀ k, k ≠ h → t.hall k = s.hall k := by
  simp only [List.mem_cons, Prod.mk.injEq, List.mem_nil_iff, or_false] at hn
  rcases hn with ⟨rfl, rfl⟩ | ⟨rfl, rfl⟩ | ⟨rfl, rfl⟩
  · refine ⟨_, congrArg Host.Outcome.next (if_pos (by simp [ht, hf])), ?_⟩
    rw [State.onPort_usable hu]
    exact ⟨State.port_modPort_self .., fun k hk => State.hall_modPort_other s h i _ hk⟩
  · refine ⟨_, congrArg Host.Outcome.next (if_pos (by simp [ht, hf])), ?_⟩
    unfold State.lnak
    rw [if_pos hu]
    have hhall (k : Nat) : ((((s.modPort h i fun p => p.takeHeader f).modPort h i Port.resend).evidence h
        (((s.modPort h i fun p => p.takeHeader f).hall h).port i).retry.length).hall k)
        = ((s.modPort h i fun p => p.takeHeader f).modPort h i Port.resend).hall k := by
      rw [State.hall, State.halls_evidence, State.hall]
    refine ⟨?_, fun k hk => ?_⟩
    · rw [hhall, State.port_modPort_self, State.port_modPort_self]
      rfl
    · rw [hhall, State.hall_modPort_other _ _ _ _ hk, State.hall_modPort_other _ _ _ _ hk]
  · refine ⟨_, congrArg Host.Outcome.next (if_pos (by simp [ht, hf])), ?_⟩
    rw [State.onPort_usable hu]
    exact ⟨State.port_modPort_self .., fun k hk => State.hall_modPort_other s h i _ hk⟩

/-- Settles O30: a header frees and grants on its port, and an LNAK sends again what is left there. -/
theorem acknowledgementsAndCredits : Obligations.AcknowledgementsAndCredits := by
  unfold Obligations.AcknowledgementsAndCredits
  intro s h i f hu p
  refine ⟨fun n c hn ht hf => ?_, ⟨s.modPort h i _, congrArg Host.Outcome.next (State.onPort_usable hu _), ?_⟩⟩
  · obtain ⟨t, hrun, hport, hhalls⟩ := exec_acknowledged hu hn ht hf
    obtain ⟨hretry, hcredit, hother, hout, hrx⟩ := p.acknowledged_spec f (n == tLNAK)
    refine ⟨t, hrun, ?_⟩
    rw [hport]
    refine ⟨hretry, hcredit, hother, ?_, hrx, hhalls⟩
    rw [hout]
    by_cases e : n = tLNAK <;> simp [e, p]
  · rw [State.port_modPort_self]
    rfl

/-! ### Frames in -/

/-- A port without its receive buffer, its wire and what it keeps back of credits. -/
def Port.offSweep (p : Port) : Port := { p with rxbuf := [], outQ := [], withheld := [] }

theorem Port.giveBack_keeps (p : Port) (f : Frame) : (p.giveBack f).offSweep = p.offSweep ∧ (p.giveBack f).rxbuf = p.rxbuf := by
  unfold Port.giveBack
  dsimp only
  split <;> exact ⟨rfl, rfl⟩

theorem Port.sweep_keeps (p : Port) : p.sweep.offSweep = p.offSweep
    ∧ p.sweep.rxbuf = p.rxbuf.filter (fun f => !(arrived f && isStray f)) := by
  unfold Port.sweep
  exact ⟨List.foldl_keeps Port.offSweep (fun p f => (p.giveBack_keeps f).1) _ _, List.foldl_keeps Port.rxbuf (fun p f => (p.giveBack_keeps f).2) _ _⟩

/-- With nothing to sweep a port puts nothing on the wire. -/
theorem Port.sweep_outQ {p : Port} (h : p.rxbuf.filter (fun f => !(arrived f && isStray f)) = p.rxbuf) : p.sweep.outQ = p.outQ := by
  have hnone : p.rxbuf.filter (fun f => arrived f && isStray f) = [] := by
    refine List.filter_eq_nil_iff.mpr fun f hf => ?_
    exact Bool.eq_false_iff.mp ((Bool.not_eq_true' _).mp (List.filter_eq_self.mp h f hf))
  unfold Port.sweep
  rw [hnone]
  rfl

theorem State.crcDegrade_port (s : State) (h i : Nat) : (((s.crcDegrade h i).hall h).port i)
    = if i < 3 ∧ ((s.hall h).port i).usable ∧ 8 ≤ ((s.hall h).port i).crcRun
      then { (s.hall h).port i with training := true, offer := ((s.hall h).port i).lanes, crcRun := 0 } else (s.hall h).port i := by
  unfold State.crcDegrade
  split
  · rw [State.port_log, State.port_modPort_self]
  · rfl

theorem State.crcDegrade_outside (s : State) (h i : Nat) : (∀ k, k ≠ i → ((s.crcDegrade h i).hall h).port k = (s.hall h).port k)
    ∧ (∀ k, k ≠ h → (s.crcDegrade h i).hall k = s.hall k) ∧ (s.crcDegrade h i).jobs = s.jobs ∧ (s.crcDegrade h i).parts = s.parts := by
  unfold State.crcDegrade
  split
  · refine ⟨fun k hk => ?_, fun k hk => ?_, rfl, rfl⟩
    · rw [State.port_log, State.port_modPort, if_neg fun e => hk e.2]
    · rw [State.hall_log_other _ _ _ hk, State.hall_modPort_other _ _ _ _ hk]
  · exact ⟨fun _ _ => rfl, fun _ _ => rfl, rfl, rfl⟩

/-- A good frame in sequence. -/
theorem Port.receive_taken {p : Port} {f : Frame} (num : Nat) (hf : frameOk f = true) (hs : f.seq = p.rxNext) :
    (p.receive num f).rxbuf = p.rxbuf ++ [hopDone num f] ∧ (p.receive num f).rxNext = (p.rxNext + 1) % 65536
      ∧ (p.receive num f).outQ = p.outQ := by
  unfold Port.receive
  rw [if_neg (by simp [hf]), if_neg (by simp [hs])]
  exact ⟨rfl, rfl, rfl⟩

/-- Any other frame. -/
theorem Port.receive_refused {p : Port} {f : Frame} (num : Nat) (h : frameOk f = false ∨ f.seq ≠ p.rxNext) :
    (p.receive num f).rxbuf = p.rxbuf ∧ (p.receive num f).rxNext = p.rxNext
      ∧ (p.receive num f).outQ = p.outQ ++ [sealFrame { Frame0 with typ := tLNAK, ackseq := (p.rxNext + 0xFFFF) % 65536 }] := by
  unfold Port.receive
  by_cases hf : frameOk f = true
  · rw [if_neg (by simp [hf]), if_pos (h.resolve_left (by simp [hf]))]
    exact ⟨rfl, rfl, rfl⟩
  · rw [if_pos (by simp [hf])]
    exact ⟨rfl, rfl, rfl⟩

/-- A bad frame that is expected next is one failure more. -/
theorem Port.receive_crcRun {p : Port} {f : Frame} (num : Nat) (hf : frameOk f = false) (hs : f.seq = p.rxNext) :
    (p.receive num f).crcRun = p.crcRun + 1 ∧ (p.receive num f).usable = p.usable := by
  unfold Port.receive
  rw [if_pos (by simp [hf]), if_pos hs]
  exact ⟨rfl, rfl⟩

/-- Settles O29: the sweep of strays and a degrade follow on what the port makes of the frame. -/
theorem inOrderFramesAreTaken : Obligations.InOrderFramesAreTaken := by
  unfold Obligations.InOrderFramesAreTaken
  intro s h i f ht hu p keep next
  refine ⟨s.dataFrame h i f, congrArg Host.Outcome.next (if_pos ht), ?_⟩
  have hport := (s.modPort h i fun p => (p.receive (portNum h i) f).sweep).crcDegrade_port h i
  obtain ⟨hother, hhalls, hjobs, hparts⟩ := (s.modPort h i fun p => (p.receive (portNum h i) f).sweep).crcDegrade_outside h i
  have hdata : s.dataFrame h i f = (s.modPort h i fun p => (p.receive (portNum h i) f).sweep).crcDegrade h i := by
    rw [State.dataFrame, State.onPort_usable hu]
  rw [State.port_modPort_self] at hport
  rw [hdata]
  obtain ⟨hoff, hrx⟩ := ((s.hall h).port i |>.receive (portNum h i) f).sweep_keeps
  have hout := Port.sweep_outQ (p := ((s.hall h).port i).receive (portNum h i) f)
  have htake := Port.receive_taken (p := p) (f := f) (portNum h i)
  have hrefuse := Port.receive_refused (p := p) (f := f) (portNum h i)
  have hcrc := Port.receive_crcRun (p := p) (f := f) (portNum h i)
  have hkeep : (((((s.modPort h i fun p => (p.receive (portNum h i) f).sweep).crcDegrade h i).hall h).port i).rxbuf
        = keep (p.receive (portNum h i) f).rxbuf)
      ∧ ((((s.modPort h i fun p => (p.receive (portNum h i) f).sweep).crcDegrade h i).hall h).port i).rxNext
        = (p.receive (portNum h i) f).rxNext
      ∧ (keep (p.receive (portNum h i) f).rxbuf = (p.receive (portNum h i) f).rxbuf →
        ((((s.modPort h i fun p => (p.receive (portNum h i) f).sweep).crcDegrade h i).hall h).port i).outQ
          = (p.receive (portNum h i) f).outQ) := by
    rw [hport]
    have hnext := (congrArg Port.rxNext hoff :)
    split
    · exact ⟨hrx, hnext, hout⟩
    · exact ⟨hrx, hnext, hout⟩
  obtain ⟨krx, knext, kout⟩ := hkeep
  refine ⟨fun hf hs => ?_, fun hbad => ?_, fun hf hs hi h7 => ?_, fun k hk => ?_, fun k hk => ?_, hjobs, hparts⟩
  · obtain ⟨rrx, rnext, rout⟩ := htake hf hs
    rw [rrx] at krx kout
    exact ⟨krx, knext.trans rnext, fun e => (kout e).trans rout⟩
  · obtain ⟨rrx, rnext, rout⟩ := hrefuse hbad
    rw [rrx] at krx kout
    exact ⟨krx, knext.trans rnext, fun e => (kout e).trans rout⟩
  · obtain ⟨rcrc, ruse⟩ := hcrc hf hs
    have scrc : (((s.hall h).port i).receive (portNum h i) f).sweep.crcRun = p.crcRun + 1 := (congrArg Port.crcRun hoff :).trans rcrc
    have suse : (((s.hall h).port i).receive (portNum h i) f).sweep.usable = true :=
      ((congrArg Port.usable hoff :).trans ruse).trans hu
    rw [hport, if_pos ⟨hi, suse, by rw [scrc]; omega⟩]
  · rw [hother k hk, State.port_modPort, if_neg fun e => hk e.2]
  · rw [hhalls k hk, State.hall_modPort_other _ _ _ _ hk]

/-! ### Frames out -/

theorem pickFrame_spec {credits : Tab Nat} {f : Frame} (l : List Frame) (seen : List Nat) (h : pickFrame credits seen l = some f) :
    f ∈ l ∧ frameUnits f ≤ tabGet 0 credits f.vc := by
  induction l generalizing seen with
  | nil => cases h
  | cons g l ih =>
    unfold pickFrame at h
    split at h
    · next hc =>
      obtain rfl := Option.some.inj h
      exact ⟨List.mem_cons_self .., by simpa using (Bool.and_eq_true_iff.mp hc).2⟩
    · obtain ⟨hm, hu⟩ := ih _ h
      exact ⟨List.mem_cons_of_mem _ hm, hu⟩

theorem dropFirst_length {f : Frame} {l : List Frame} (h : f ∈ l) : (dropFirst f l).length + 1 = l.length := by
  induction l with
  | nil => cases h
  | cons g l ih =>
    unfold dropFirst
    split
    · rfl
    · next hg =>
      have := ih ((List.mem_cons.mp h).resolve_left fun e => hg e.symm)
      simpa using this

/-- The frame as it leaves. -/
def Port.stamp (p : Port) (f : Frame) : Frame := { f with seq := p.txSeq, ackseq := (p.rxNext + 0xFFFF) % 65536 }

theorem Port.sendOne_sends {p : Port} {f : Frame} (h : pickFrame p.credits [] p.txq = some f)
    (hfit : (p.retry.map frameSize).sum + frameSize f ≤ 2 ^ 20) :
    p.sendOne = { p with
      txq := dropFirst f p.txq, txSeq := (p.txSeq + 1) % 65536, retry := p.retry ++ [p.stamp f],
      outQ := p.outQ ++ [sealFrame (p.stamp f)], credits := tabSet p.credits f.vc (tabGet 0 p.credits f.vc - frameUnits f) } := by
  unfold Port.sendOne
  rw [h]
  exact if_neg (Nat.not_lt.mpr hfit)

theorem State.port_endServing (s : State) (num : Nat) (f : Frame) (k i : Nat) :
    ((s.endServing num f).hall k).port i = (s.hall k).port i := by
  unfold State.endServing
  split
  · rfl
  · split
    · rw [State.hall_modHall]
      split
      · next e => rw [e]; rfl
      · rfl
    · rfl

/-- A frame leaves. -/
theorem State.frameTransmit_port {s : State} {h i : Nat} (hu : ((s.hall h).port i).usable = true) :
    ((s.frameTransmit h i).hall h).port i = ((s.hall h).port i).sendOne := by
  unfold State.frameTransmit
  extract_lets p t
  rw [if_pos hu]
  split
  · rw [State.port_endServing, State.port_modPort_self]
  · rw [State.port_modPort_self]

theorem frameUnits_pos (f : Frame) : 0 < frameUnits f := by
  unfold frameUnits ceilDiv
  omega

/-- A consumed frame's credits return in full where the channel keeps none back. -/
theorem Port.giveBack_full {p : Port} {f : Frame} (hu : p.up = true) (hw : tabGet 0 p.withheld f.vc = 0) :
    (p.giveBack f).outQ = p.outQ ++ [sealFrame { Frame0 with
      typ := tCREDIT, crVc := f.vc, crUnits := frameUnits f, ackseq := (p.rxNext + 0xFFFF) % 65536 }] := by
  have hpos := frameUnits_pos f
  unfold Port.giveBack
  rw [hw, Nat.zero_min]
  dsimp only
  rw [if_neg (by simp [hu]; omega)]
  rfl

theorem State.enqueue_one (s : State) (f : Frame) :
    ((s.enqueue [f]).portOf (f.ports.getD f.hopIdx 0)).txq = (s.portOf (f.ports.getD f.hopIdx 0)).txq ++ [f] := by
  unfold State.enqueue State.portOf
  rw [List.foldl_cons, List.foldl_nil]
  dsimp only
  rw [State.port_modPort_self]

/-- The state in which a frame has left a receive buffer and its credits have returned. -/
def State.consumed (s : State) (h i : Nat) (f : Frame) : State :=
  (s.modPort h i fun p => { p with rxbuf := dropFirst f p.rxbuf }).credit h i f

/-- A port without its receive buffer, its wire and what it keeps back stands when a frame is consumed. -/
theorem State.consumed_port (s : State) (h i : Nat) (f : Frame) (k n : Nat) :
    (((s.consumed h i f).hall k).port n).offSweep = ((s.hall k).port n).offSweep := by
  unfold State.consumed State.credit
  rw [State.port_modPort]
  split
  · next e =>
    obtain ⟨rfl, rfl⟩ := e
    rw [(Port.giveBack_keeps _ _).1, State.port_modPort_self]
    rfl
  · next e => rw [State.port_modPort, if_neg e]

theorem State.consumed_outQ {s : State} {h i : Nat} {f : Frame} (hu : ((s.hall h).port i).up = true)
    (hw : tabGet 0 ((s.hall h).port i).withheld f.vc = 0) :
    (((s.consumed h i f).hall h).port i).outQ = ((s.hall h).port i).outQ ++ [sealFrame { Frame0 with
      typ := tCREDIT, crVc := f.vc, crUnits := frameUnits f, ackseq := (((s.hall h).port i).rxNext + 0xFFFF) % 65536 }] := by
  unfold State.consumed State.credit
  rw [State.port_modPort_self, State.port_modPort_self]
  exact Port.giveBack_full hu hw

/-- A transit frame goes on over a port that is up. -/
theorem State.transit_goes {s : State} {h i : Nat} {f : Frame} (hp : pickRx (fun f => !arrived f) [] ((s.hall h).port i).rxbuf = some f)
    (hu : (s.portOf (f.ports.getD f.hopIdx 0)).up = true) : s.transit h i = (s.consumed h i f).enqueue [f] := by
  have hup : ((s.consumed h i f).portOf (f.ports.getD f.hopIdx 0)).up = true :=
    (congrArg Port.up (s.consumed_port h i f _ _) :).trans hu
  unfold State.transit
  rw [hp]
  exact if_pos (by rw [show ((s.modPort h i fun p => { p with rxbuf := dropFirst f p.rxbuf }).credit h i f).portOf _ = _ from rfl, Bool.or_eq_true]; exact .inl hup)

/-- Settles O31: the frame that is picked has its credits, and the port that a route names takes a transit frame. -/
theorem framesLeaveUnderCredit : Obligations.FramesLeaveUnderCredit := by
  unfold Obligations.FramesLeaveUnderCredit
  intro s h i f hz p
  refine ⟨fun hu hp hfit => ⟨_, p.stamp f, next_live hz _, rfl, rfl, rfl, ?_⟩, fun hp hu => ⟨_, next_live hz _, ?_⟩⟩
  · obtain ⟨hmem, hunits⟩ := pickFrame_spec _ _ hp
    rw [State.frameTransmit_port hu, Port.sendOne_sends hp hfit]
    exact ⟨rfl, frameOk_sealFrame _, rfl, rfl, hunits, by rw [tabGet_tabSet, if_pos rfl], dropFirst_length hmem⟩
  · beta_reduce
    rw [State.transit_goes hp hu]
    have hq := ((QuietPorts.refl (s.consumed h i f)).enqueue [f]).same h i
    have htx : ((s.consumed h i f).portOf (f.ports.getD f.hopIdx 0)).txq = (s.portOf (f.ports.getD f.hopIdx 0)).txq :=
      (congrArg Port.txq (s.consumed_port h i f _ _) :)
    refine ⟨by rw [State.enqueue_one, htx], fun hup hw => ?_⟩
    exact (congrArg Port.outQ hq :).trans (State.consumed_outQ hup hw)

end Sys2Proof.Machine
end

section
/-! PROOFS. Scissor pairs: digests, and the states of a leg. -/

namespace Sys2Proof.Machine

/-! ### What operations on queues leave of the partitions -/

/-- A partition without what work on its queues changes. -/
def Part.offWork (p : Part) : Part := { p.offHolder with sems := [], loading := none }

/-- Every partition keeps all but its semaphores, the load in progress, and the holder of its slice. -/
structure PartFrame (s t : State) : Prop where
  same : ∀ v, (t.part v).offWork = (s.part v).offWork

namespace PartFrame

variable {s t : State}

theorem refl (s : State) : PartFrame s s := ⟨fun _ => rfl⟩

theorem trans {u : State} (a : PartFrame s t) (b : PartFrame t u) : PartFrame s u := ⟨fun v => (b.same v).trans (a.same v)⟩

theorem of_parts {u : State} (h : PartFrame s t) (e : u.parts = t.parts) : PartFrame s u :=
  ⟨fun v => by rw [State.part_of_parts e v, h.same v]⟩

theorem foldl {α : Type} {f : State → α → State} (h : PartFrame s t) (hf : ∀ t a, PartFrame s t → PartFrame s (f t a))
    (l : List α) : PartFrame s (l.foldl f t) := by
  induction l generalizing t with
  | nil => exact h
  | cons a l ih =>
    rw [List.foldl_cons]
    exact ih (hf t a h)

theorem ite {c : Prop} [Decidable c] {u : State} (ht : PartFrame s t) (hu : PartFrame s u) :
    PartFrame s (if c then t else u) := by
  split
  · exact ht
  · exact hu

theorem modPart (h : PartFrame s t) (w : Fn) {f : Part → Part} (hf : ∀ p, (f p).offWork = p.offWork) :
    PartFrame s (t.modPart w f) := ⟨fun v => by
  rw [State.part_modPart]
  split
  · next e => rw [hf, e, h.same]
  · exact h.same v⟩

theorem modJob (h : PartFrame s t) (q : Page) (f : Job → Job) : PartFrame s (t.modJob q f) := ⟨h.same⟩
theorem modHall (h : PartFrame s t) (k : Nat) (f : Hall → Hall) : PartFrame s (t.modHall k f) := ⟨h.same⟩

theorem rehold (h : PartFrame s t) (v : Fn) : PartFrame s (t.rehold v) :=
  ⟨fun w => (congrArg (fun p : Part => { p with sems := [], loading := none }) (((HolderFrame.refl t).rehold v).part w) :).trans (h.same w)⟩

theorem dropAttempt (h : PartFrame s t) (q : Page) (slot : Nat) : PartFrame s (t.dropAttempt q slot) := by
  unfold State.dropAttempt
  have w : PartFrame s (t.modPart (pageFn q) fun p => { p.releaseAll (q, slot) with loading := match p.loading with
        | some l => if l.page = q ∧ l.slot = slot then none else some l
        | none => none }) := h.modPart _ fun _ => rfl
  dsimp only
  refine modJob ?_ ..
  split
  · exact ite (w.of_parts (State.parts_stopImage ..)) w
  · exact w

theorem postFailed (h : PartFrame s t) (q : Page) : PartFrame s (t.postFailed q) := by
  have post (c : Cmd) (status detail : Nat) (ok : Bool) (tst : DWord) : PartFrame s (t.postRecord q c status detail ok tst) := by
    refine h.of_parts ?_
    unfold State.postRecord State.writeRing
    dsimp only
    split <;> split <;> rfl
  unfold State.postFailed
  split
  · exact h
  split
  · exact ite h (ite (modJob (post ..) ..) (modJob (foldl (post ..)
      (fun _ _ h => (h.of_parts (State.parts_countRerun ..)).dropAttempt ..) _) ..))
  · exact h

theorem drainFailed (h : PartFrame s t) (q : Page) : PartFrame s (t.drainFailed q) := h.foldl (fun _ _ h => h.postFailed q) _

theorem failCmd (h : PartFrame s t) (q : Page) (slot code detail : Nat) : PartFrame s (t.failCmd q slot code detail) := by
  unfold State.failCmd
  have w := h.dropAttempt q slot
  dsimp only
  refine rehold (drainFailed (modJob ?_ ..) _) _
  split
  · exact w.foldl (fun _ _ h => h.modHall ..) _
  · exact w

theorem killCmd (h : PartFrame s t) (q : Page) (slot : Nat) (fault : Bool) : PartFrame s (t.killCmd q slot fault) := by
  unfold State.killCmd
  dsimp only
  split
  · exact h
  · next c _ =>
    have w := (h.of_parts (t.parts_countRerun q c)).dropAttempt q slot
    exact ite (ite (failCmd (w.modJob ..) ..) (rehold (w.modJob ..) _)) h

theorem failAll (h : PartFrame s t) (v : Fn) (code : Nat) : PartFrame s (t.failAll v code) := by
  unfold State.failAll
  refine h.foldl (fun t q h => ?_) _
  split
  · exact h
  · exact ite h (h.failCmd ..)

theorem haltAll (h : PartFrame s t) (v : Fn) (code : Nat) : PartFrame s (t.haltAll v code) :=
  h.foldl (fun _ _ h => h.modJob ..) _

theorem scState (h : PartFrame s t) (v : Fn) : (t.part v).scState = (s.part v).scState := (congrArg Part.scState (h.same v) :)
theorem scCause (h : PartFrame s t) (v : Fn) : (t.part v).scCause = (s.part v).scCause := (congrArg Part.scCause (h.same v) :)

end PartFrame

/-! ### Frames that go to a port -/

theorem State.parts_enqueue (s : State) (fs : List Frame) : (s.enqueue fs).parts = s.parts := by
  unfold State.enqueue
  exact State.parts_foldl (fun _ _ => by rfl) fs s

theorem State.jobs_enqueue (s : State) (fs : List Frame) : (s.enqueue fs).jobs = s.jobs := by
  unfold State.enqueue
  exact State.jobs_foldl (fun _ _ => by rfl) fs s

theorem State.enqueue_cons (s : State) (f : Frame) (fs : List Frame) : s.enqueue (f :: fs) = (s.enqueue [f]).enqueue fs := rfl

/-- Frames whose route names the same port next go to the end of that port's queue. -/
theorem State.enqueue_txq {n : Nat} {fs : List Frame} (hn : ∀ f ∈ fs, f.ports.getD f.hopIdx 0 = n) (s : State) :
    ((s.enqueue fs).portOf n).txq = (s.portOf n).txq ++ fs := by
  induction fs generalizing s with
  | nil => exact (List.append_nil _).symm
  | cons f fs ih =>
    obtain ⟨hf, hr⟩ := List.forall_mem_cons.mp hn
    rw [s.enqueue_cons, ih hr, ← hf, s.enqueue_one, List.append_assoc]
    rfl

theorem mkFrames_port {src dest : Nat} {ports : List Nat} {vc : Nat} {x : XHdr} {data : List Byte} {f : Frame}
    (h : f ∈ mkFrames src dest ports vc x data) : f.ports.getD f.hopIdx 0 = ports.getD 0 0 := by
  obtain ⟨i, -, rfl⟩ := List.mem_map.mp h
  rfl

theorem mkFrames_length (src dest : Nat) (ports : List Nat) (vc : Nat) (x : XHdr) (data : List Byte) :
    (mkFrames src dest ports vc x data).length = max 1 (ceilDiv data.length 4096) := by
  unfold mkFrames
  rw [List.length_map, List.length_range]

/-- A transfer of at most one payload is one frame. -/
theorem mkFrames_single {src dest : Nat} {ports : List Nat} {vc : Nat} {x : XHdr} {data : List Byte} (h : data.length ≤ 4096) :
    (mkFrames src dest ports vc x data).length = 1 := by
  rw [mkFrames_length]
  unfold ceilDiv
  omega

theorem DBody.length_bytes (b : DBody) : b.bytes.length = 64 := by
  unfold DBody.bytes
  simp only [List.length_append, natLE_length]

theorem State.digestOver_txq (s : State) (v : Fn) (r : HallRoute) (x : XHdr) (data : List Byte) (relay : Option (Nat × Nat)) :
    ((s.digestOver v r x data relay).portOf (r.2.2.getD 0 0)).txq.length
      = (s.portOf (r.2.2.getD 0 0)).txq.length + max 1 (ceilDiv data.length 4096) := by
  unfold State.digestOver
  dsimp only
  refine (congrArg List.length (State.enqueue_txq (fun f hf => mkFrames_port hf) s) :).trans ?_
  rw [List.length_append, mkFrames_length]

theorem State.jobs_sendDigest (s : State) (v : Fn) (job : Nat) (b : DBody) : (s.sendDigest v job b).jobs = s.jobs := by
  unfold State.sendDigest
  split
  · rfl
  · exact State.jobs_enqueue ..

/-- A DIGEST of the leg is one frame on the route whose turn it is, and the other route is next. -/
theorem State.sendDigest_goes {s : State} {v : Fn} {r : HallRoute} (h : s.nextRoute v = some r) (job : Nat) (b : DBody) :
    ((s.sendDigest v job b).portOf (r.2.2.getD 0 0)).txq.length = (s.portOf (r.2.2.getD 0 0)).txq.length + 1
      ∧ ((s.sendDigest v job b).part v).altRoute = !(s.part v).altRoute := by
  unfold State.sendDigest
  rw [h]
  dsimp only
  constructor
  · refine (s.digestOver_txq v r _ _ none).trans ?_
    rw [List.length_append, DBody.length_bytes, show Lead.none.bytes.length = 64 by decide +kernel]
    exact congrArg _ (by decide)
  · unfold State.flipRoute State.digestOn State.digestOver
    rw [State.part_modPart, if_pos rfl]
    dsimp only
    rw [State.part_modPart, if_pos rfl, State.part_of_parts (State.parts_enqueue ..)]

/-! ### A frame taken from a receive buffer -/

theorem State.takeRx_outside {s t : State} {h i : Nat} {ok : XHdr → Frame → Bool} {f : Frame} {x : XHdr}
    (e : s.takeRx h i ok = some (f, x, t)) : t.parts = s.parts ∧ t.jobs = s.jobs := by
  unfold State.takeRx at e
  split at e
  · cases e
  split at e
  · cases e
  cases e
  exact ⟨rfl, rfl⟩

theorem State.takeDigest_outside {s t : State} {h i sub : Nat} {v : Fn} {f : Frame} {x : XHdr} {b : DBody}
    (e : s.takeDigest h i sub = some (v, f, x, b, t)) : t.parts = s.parts ∧ t.jobs = s.jobs := by
  unfold State.takeDigest at e
  split at e
  · cases e
  next et =>
  split at e
  · cases e
  cases e
  obtain ⟨hp, hj⟩ := State.takeRx_outside et
  exact ⟨(State.parts_enqueue ..).trans hp, (State.jobs_enqueue ..).trans hj⟩

/-! ### The partner's digest of a commit -/

/-- The partition keeps this digest of its partner, in place of any other for the same command. -/
def State.keepDigest (s : State) (v : Fn) (d : PDigest) : State :=
  s.modPart v fun p => { p.dropDigest d.job d.qseq with digests := (p.dropDigest d.job d.qseq).digests ++ [d], paused := false }

theorem State.digestCommit_eq {s t : State} {h i : Nat} {v : Fn} {f : Frame} {x : XHdr} {b : DBody}
    (e : s.takeDigest h i 1 = some (v, f, x, b, t)) :
    s.digestCommit h i = (t.keepDigest v ⟨x.job, b.qseq, b.digest, b.evidence, b.attempt⟩).compareDigest (pageOf v x.job) := by
  unfold State.digestCommit
  rw [e]
  rfl

theorem State.keepDigest_part (s : State) (v : Fn) (d : PDigest) :
    ((s.keepDigest v d).part v).digest? d.job d.qseq = some d ∧ ((s.keepDigest v d).part v).paused = false
      ∧ ((s.keepDigest v d).part v).mismatch = (s.part v).mismatch := by
  unfold State.keepDigest
  rw [State.part_modPart, if_pos rfl]
  refine ⟨?_, rfl, rfl⟩
  unfold Part.digest? Part.dropDigest
  rw [List.find?_append, List.find?_eq_none.mpr fun e he => ?_]
  · simp
  · have := (List.mem_filter.mp he).2
    simp only [Bool.not_eq_true', Bool.and_eq_false_iff, beq_eq_false_iff_ne] at this
    simpa [← not_and_or] using this

theorem State.compareDigest_none {s : State} {q : Page} (h : (s.job q).cmds = []) : s.compareDigest q = s := by
  unfold State.compareDigest
  rw [h]

/-- The oldest command that has sent a digest equal to the partner's may commit. -/
theorem State.compareDigest_equal {s : State} {q : Page} {c : Cmd} {rest : List Cmd} {d : PDigest} (h : (s.job q).cmds = c :: rest)
    (hr : c.phase = .running) (ho : c.att.digestOut = true) (hk : c.att.digestOk = false)
    (hd : (s.part (pageFn q)).digest? (pageJob q) (s.job q).qseq = some d) (he : d.digest = c.att.ownDigest) :
    s.compareDigest q = s.modAtt q c.slot fun a => { a with digestOk := true } := by
  unfold State.compareDigest
  rw [h]
  dsimp only
  rw [if_pos ⟨hr, ho, hk⟩, hd]
  exact if_pos he

theorem pageJob_pageOf {v j : Nat} (hj : j < 16) : pageJob (pageOf v j) = j :=
  @Eq.trans Nat _ ((16 * (v - 1) + j) % 16) _ rfl (by omega)

/-- Settles O36: the digest kept is the only one of its command, so that the comparison finds it. -/
theorem equalDigestsLetCommit : Obligations.EqualDigestsLetCommit := by
  unfold Obligations.EqualDigestsLetCommit
  intro s s1 h i v f x b hz hj hv e q
  have hfn : pageFn q = v := pageFn_pageOf hv hj
  have hjob : pageJob q = x.job := pageJob_pageOf hj
  obtain ⟨hdig, hpaused, hmis⟩ := s1.keepDigest_part v ⟨x.job, b.qseq, b.digest, b.evidence, b.attempt⟩
  have hjobs : (s1.keepDigest v ⟨x.job, b.qseq, b.digest, b.evidence, b.attempt⟩).job q = s1.job q := rfl
  have hcommit := State.digestCommit_eq e
  generalize s1.keepDigest v ⟨x.job, b.qseq, b.digest, b.evidence, b.attempt⟩ = u at hdig hpaused hmis hjobs hcommit
  refine ⟨fun hc => ⟨_, next_live hz _, ?_⟩, fun c rest hc hr ho hk hq hd => ⟨_, next_live hz _, ?_⟩⟩
  · beta_reduce
    rw [hcommit, State.compareDigest_none (by rw [hjobs, hc])]
    exact ⟨hpaused, by rw [hdig]; rfl⟩
  · beta_reduce
    have hu : (u.job q).cmds = c :: rest := by rw [hjobs, hc]
    have hcmd := State.cmd?_head hu
    rw [hcommit, State.compareDigest_equal hu hr ho hk (by rw [hfn, hjob, hjobs, hq]; exact hdig) hd]
    exact ⟨by rw [State.att_modAtt _ _ _ _ (by rw [hcmd]; rfl)], hmis⟩

/-! ### The states of a leg -/

theorem State.logPart_parts (s : State) (v : Fn) (e : LogEnt) : (s.logPart v e).parts = s.parts := by
  unfold State.logPart
  exact State.parts_foldl (fun _ _ => by rfl) _ s

theorem State.logPart_jobs (s : State) (v : Fn) (e : LogEnt) : (s.logPart v e).jobs = s.jobs := by
  unfold State.logPart
  exact State.jobs_foldl (fun _ _ => by rfl) _ s

theorem State.standAlone_spec {s : State} {v : Fn} (h : (s.part v).scState = 1) (cause : Nat) :
    ((s.standAlone v cause).part v).scState = 2 ∧ ((s.standAlone v cause).part v).scCause = cause
      ∧ (s.standAlone v cause).jobs = s.jobs := by
  unfold State.standAlone
  rw [if_pos h]
  dsimp only
  rw [State.part_of_parts (State.logPart_parts ..), State.part_modPart, if_pos rfl]
  exact ⟨rfl, rfl, (State.logPart_jobs ..).trans (State.jobs_foldl (fun _ _ => by rfl) _ s)⟩

theorem State.retireLeg_part (s : State) (v : Fn) : ((s.retireLeg v).part v).scState = 3 ∧ ((s.retireLeg v).part v).scCause = 3 := by
  unfold State.retireLeg
  dsimp only
  generalize (s.digestRoutes v).foldl (fun s r => s.digestOn v 0 (DBody.of 6) r) s = u
  have hp : (u.modPart v fun p => { p with scState := 3, scCause := 3 }).part v = { u.part v with scState := 3, scCause := 3 } := by
    rw [State.part_modPart, if_pos rfl]
  generalize u.modPart v (fun p => { p with scState := 3, scCause := 3 }) = w at hp
  have e := ((PartFrame.refl w).failAll v 0x0906).haltAll v 0x0906
  rw [e.scState, e.scCause, hp]
  exact ⟨rfl, rfl⟩

/-- Outside a freeze a bit of PRT_SCISSOR_CTRL that the physical function writes acts at once. -/
theorem State.writeScissor_live {s : State} (h : s.freezing = false) (v : Fn) :
    s.writeScissor 0 v true false false = s.retireCtl v ∧ s.writeScissor 0 v false true false = s.standAlone v 0
      ∧ s.writeScissor 0 v false false true = s.rejoinCtl v := by
  unfold State.writeScissor
  rw [h]
  exact ⟨rfl, rfl, rfl⟩

theorem State.silence_stands {s : State} {v : Fn} {z : ScissorRec} (h : (s.part v).plan.bind Plan.scissor = some z)
    (hf : z.form = 1) (hp : (s.part v).paused = false) : s.silence v = s.standAlone v 2 := by
  unfold State.silence
  rw [h]
  exact if_pos ⟨hf, hp⟩

/-- Settles O37: each message, register bit and silence by what it does to the fields of its leg. -/
theorem partnersLiveAndLeave : Obligations.PartnersLiveAndLeave := by
  unfold Obligations.PartnersLiveAndLeave
  refine ⟨fun s hz => ⟨fun s1 h i v f x b => ⟨fun e => ?_, fun e => ?_, fun e hs => ?_⟩, fun v z hp hf hq hs => ?_, fun v r hs hr => ?_⟩,
    fun s v hz => ⟨fun hs => ?_, fun hs => ?_, fun hs hd p hp => ?_⟩⟩
  · refine ⟨_, next_live hz _, ?_⟩
    beta_reduce
    unfold State.digestAlive
    rw [e]
    dsimp only
    rw [State.part_modPart, if_pos rfl, State.part_of_parts (State.takeDigest_outside e).1]
    exact ⟨rfl, rfl⟩
  · refine ⟨_, next_live hz _, ?_⟩
    beta_reduce
    unfold State.digestPause
    rw [e]
    dsimp only
    rw [State.part_modPart, if_pos rfl, State.part_of_parts (State.takeDigest_outside e).1]
    exact ⟨rfl, rfl⟩
  · refine ⟨_, next_live hz _, ?_⟩
    beta_reduce
    unfold State.digestRetire
    rw [e]
    obtain ⟨hst, hca, -⟩ := State.standAlone_spec hs 1
    exact ⟨hst, hca⟩
  · refine ⟨_, next_live hz _, ?_⟩
    beta_reduce
    rw [State.silence_stands hp hf hq]
    exact State.standAlone_spec hs 2
  · refine ⟨_, next_live hz _, ?_⟩
    beta_reduce
    rw [if_pos hs]
    obtain ⟨htx, halt⟩ := State.sendDigest_goes hr 0 (DBody.of 2)
    exact ⟨halt, htx, State.jobs_sendDigest ..⟩
  · refine ⟨_, rfl, ?_⟩
    rw [(State.writeScissor_live hz v).1]
    unfold State.retireCtl
    rw [if_pos hs]
    exact s.retireLeg_part v
  · refine ⟨_, rfl, ?_⟩
    rw [(State.writeScissor_live hz v).2.1]
    obtain ⟨hst, -, hj⟩ := State.standAlone_spec hs 0
    exact ⟨hst, hj⟩
  · refine ⟨_, rfl, ?_⟩
    rw [(State.writeScissor_live hz v).2.2]
    unfold State.rejoinCtl
    rw [hp]
    dsimp only
    rw [if_pos hs, if_pos hd, State.part_modPart, if_pos rfl]
    obtain ⟨-, xhalls, xjobs, -⟩ := s.sendExchange_outside v p
    refine ⟨rfl, xhalls, xjobs, fun hx => ?_⟩
    obtain ⟨z, hz⟩ := Option.isSome_iff_exists.mp hx
    unfold State.sendExchange
    rw [hz]
    exact List.length_append

end Sys2Proof.Machine
end

section
/-! PROOFS. Absent children and relays. -/

namespace Sys2Proof.Machine

/-! ### O38: a transfer between two halls of the partner is not taken where its DEST stands -/

/-- The plan of a leg whose partner has chain address 5. -/
def relayPlan : Plan := { stalePlan with scissor := some ⟨1, 0, 5, 0, 0, []⟩, kept := [] }

/-- A PUSH, as the header in front of a relayed payload names it. -/
def relayedPush : XHdr := xhdrOf ⟨kPUSH, 0, 0, 3, 0, 0, 0⟩ 0

/-- A RELAY from hall 1 of the partner to its hall 0. -/
def relayFrame : Frame :=
  { Frame0 with
    typ := tDATA, vc := 14, src := rankWord 5 1, dest := rankWord 5 0, hops := 1, hopIdx := 1, ports := [0], ret := [0],
    hdr := some (digestHdr 0 0),
    payload := Lead.none.bytes ++ (DBody.of 5).bytes ++ xhdrBytes relayedPush ++ [1, 2] }

/-- That RELAY has reached hall 0, the one hall of a partition with the job resident. -/
def relaySt : State :=
  { State.reset with
    hallmap := 1,
    parts := [(1, { Part.reset with bindReq := true, bound := true, scState := 1, plan := some relayPlan })],
    jobs := [(0, { Job.reset with resident := true })],
    halls := [(0, { Hall.reset with ports := [(0, { Port.reset with rxbuf := [relayFrame] })] })] }

/-- Of an outcome that goes on: what the ledger of hall 0 holds of the transfer. -/
def Out.pushHeld : Out → Option (Option LState)
  | .next t => some (((t.hall 0).job 0).rxState (xferOf relayedPush))
  | _ => none

theorem relaySt_relay : Out.pushHeld (exec (.digestRelay 0 0) relaySt) = some none := by decide +kernel

/-- The hypotheses on the state behind the frame, as a test. -/
def relayReady (t : State) : Bool :=
  t.ownerOf 0 == some 1 && relayFrame.dest != t.rank 0 && t.partnerRank 1 relayFrame.dest
    && t.twinHall 1 relayFrame.dest == 0 && t.jobAt 0 0 == some 0 && ((t.hall 0).job 0).epoch == 0
    && ((t.hall 0).job 0).counter kPUSH 3 == 0 && (((t.hall 0).job 0).rx? (xferOf relayedPush)).isNone
    && !t.treeDiffers 0 { relayFrame with payload := relayFrame.payload.drop 160 } { relayedPush with first := true }

/-- The RELAY in hand, and the state behind it. -/
def relayTaken : Option (Frame × XHdr × State) :=
  relaySt.takeRx 0 0 fun x f => x.kind == kDIGEST && (!x.first || (DBody.parse f.payload 64).sub == 5)

theorem relayTaken_ready :
    relayTaken.map (fun r => (r.1, r.2.1, relayReady r.2.2)) = some (relayFrame, digestHdr 0 0, true) := by decide +kernel

theorem relayFrame_inner : parseXHdr (bytesAt relayFrame.payload 128 32) = relayedPush := by decide +kernel

/-- Refutes O38: a RELAY whose SRC and DEST are two halls of the partner is answered as the partner's own transfer
(`askRelayed`), and the statement has it taken in the hall that its DEST stands for. The ledger holds nothing of this one. -/
theorem not_absenceAndRelays : ¬ Obligations.AbsenceAndRelays := by
  unfold Obligations.AbsenceAndRelays
  intro h
  obtain ⟨⟨f, x, t⟩, htake, hr⟩ := Option.map_eq_some_iff.mp relayTaken_ready
  obtain ⟨rfl, rfl, hready⟩ : f = relayFrame ∧ x = digestHdr 0 0 ∧ relayReady t = true := by simpa using hr
  simp only [relayReady, Bool.and_eq_true, beq_iff_eq, bne_iff_ne, Bool.not_eq_true'] at hready
  obtain ⟨⟨⟨⟨⟨⟨⟨⟨howner, hrank⟩, hpartner⟩, htwin⟩, hjob⟩, hepoch⟩, hround⟩, hnew⟩, htree⟩ := hready
  have hrow := ((h relaySt t 0 0 1 relayFrame (digestHdr 0 0) (by decide +kernel)).2.2.1 htake howner rfl rfl rfl).2 0
  rw [relayFrame_inner, htwin] at hrow
  obtain ⟨u, hrun, hheld⟩ := hrow hrank hpartner hjob hepoch (.inl rfl) hround.symm (Option.isNone_iff_eq_none.mp hnew) htree
  have hout := relaySt_relay
  rw [hrun] at hout
  have hnone : ((u.hall 0).job relayedPush.job).rx? (xferOf relayedPush) = none :=
    Option.map_eq_none_iff.mp (Option.some.inj hout)
  rw [hnone] at hheld
  cases hheld

end Sys2Proof.Machine
end

section
/-! PROOFS. Transfers: what the ledger takes, receipts, what is served, and images. -/

namespace Sys2Proof.Machine

/-! ### What sending leaves -/

/-- A hall without its ports. -/
def Hall.offPorts (H : Hall) : Hall := { H with ports := [] }

/-- Frames are sent: queues of ports grow at their end, and halls stand beside their ports. -/
structure Sends (s t : State) : Prop where
  txq : ∀ n, (s.portOf n).txq <+: (t.portOf n).txq
  hall : ∀ k, (t.hall k).offPorts = (s.hall k).offPorts
  jobs : t.jobs = s.jobs

namespace Sends

variable {s t : State}

theorem refl (s : State) : Sends s s := ⟨fun _ => List.prefix_rfl, fun _ => rfl, rfl⟩

theorem trans {u : State} (a : Sends s t) (b : Sends t u) : Sends s u :=
  ⟨fun n => (a.txq n).trans (b.txq n), fun k => (b.hall k).trans (a.hall k), b.jobs.trans a.jobs⟩

theorem foldl {α : Type} {f : State → α → State} (h : Sends s t) (hf : ∀ t a, Sends s t → Sends s (f t a)) (l : List α) :
    Sends s (l.foldl f t) := by
  induction l generalizing t with
  | nil => exact h
  | cons a l ih =>
    rw [List.foldl_cons]
    exact ih (hf t a h)

theorem ite {c : Prop} [Decidable c] {u : State} (ht : Sends s t) (hu : Sends s u) : Sends s (if c then t else u) := by
  split
  · exact ht
  · exact hu

theorem modPart (h : Sends s t) (v : Fn) (f : Part → Part) : Sends s (t.modPart v f) := ⟨h.txq, h.hall, h.jobs⟩

theorem push (h : Sends s t) (k i : Nat) (f : Frame) : Sends s (t.modPort k i fun p => { p with txq := p.txq ++ [f] }) := by
  refine ⟨fun n => (h.txq n).trans ?_, fun m => ?_, h.jobs⟩
  · unfold State.portOf
    rw [State.port_modPort]
    split
    · next e =>
      rw [e.1, e.2]
      exact List.prefix_append ..
    · exact List.prefix_rfl
  · rw [← h.hall m]
    unfold State.modPort
    rw [State.hall_modHall]
    split
    · next e => rw [e]; rfl
    · rfl

theorem enqueue (h : Sends s t) (fs : List Frame) : Sends s (t.enqueue fs) := by
  unfold State.enqueue
  exact h.foldl (fun _ _ h => h.push ..) fs

theorem reply (h : Sends s t) (k : Nat) (f : Frame) (x : XHdr) (code reason : Nat) : Sends s (t.reply k f x code reason) :=
  h.enqueue _

theorem digestOver (h : Sends s t) (v : Fn) (r : HallRoute) (x : XHdr) (data : List Byte) (relay : Option (Nat × Nat)) :
    Sends s (t.digestOver v r x data relay) := by
  unfold State.digestOver
  exact (h.enqueue _).modPart ..

theorem relayToPartner (h : Sends s t) (v : Fn) (src dest : Nat) (x : XHdr) (data : List Byte) :
    Sends s (t.relayToPartner v src dest x data) := by
  unfold State.relayToPartner
  split
  · exact h
  · exact modPart (modPart (h.digestOver ..) ..) ..

theorem relaysDue (h : Sends s t) (k : Nat) : Sends s (t.relaysDue k) := by
  unfold State.relaysDue
  split
  · exact h
  · refine h.foldl (fun u d h => ?_) _
    split
    · exact ite (modPart (h.relayToPartner ..) ..) h
    · exact h

theorem ledger (h : Sends s t) (k j : Nat) : (t.hall k).job j = (s.hall k).job j := by
  have e := congrArg Hall.jobs (h.hall k)
  unfold Hall.job
  exact congrArg (tabGet HJob.reset · j) e

theorem sameStacks (h : Sends s t) : SameStacks s t := fun k => (congrArg Hall.hbm (h.hall k) :)

theorem serving (h : Sends s t) (k : Nat) : (t.hall k).serving = (s.hall k).serving := (congrArg Hall.serving (h.hall k) :)

end Sends

theorem State.relaysDue_nil {s : State} {h : Nat} (hn : ∀ v, s.ownerOf h = some v → (s.part v).relayDue = []) :
    s.relaysDue h = s := by
  unfold State.relaysDue
  split
  · rfl
  · next v hv =>
    rw [hn v hv]
    rfl

/-- The receipt of a frame goes to the port by which the frame came in. -/
theorem State.receipt_txq (s : State) (f : Frame) (g : Frame) (hp : g.ports = f.ret.reverse) (hi : g.hopIdx = 0) :
    ((s.enqueue [g]).portOf (f.ret.reverse.getD 0 0)).txq = (s.portOf (f.ret.reverse.getD 0 0)).txq ++ [g] :=
  s.enqueue_txq (fun a ha => by rw [List.mem_singleton.mp ha, hp, hi])

/-! ### A transfer taken into the ledger -/

theorem pickRx_spec {ok : Frame → Bool} {f : Frame} (l : List Frame) (seen : List Nat) (h : pickRx ok seen l = some f) :
    f ∈ l ∧ ok f = true := by
  induction l generalizing seen with
  | nil => cases h
  | cons g r ih =>
    unfold pickRx at h
    split at h
    · next hg =>
      cases h
      exact ⟨List.mem_cons_self .., (Bool.and_eq_true_iff.mp hg).2⟩
    · obtain ⟨hm, hk⟩ := ih _ h
      exact ⟨List.mem_cons_of_mem _ hm, hk⟩

/-- The kind of a frame taken is the one asked for. -/
theorem State.takeRx_ok {s t : State} {h i : Nat} {ok : XHdr → Frame → Bool} {f : Frame} {x : XHdr}
    (e : s.takeRx h i ok = some (f, x, t)) : ok x f = true ∧ f.hdr = some x := by
  unfold State.takeRx at e
  split at e
  · cases e
  next g hpick =>
  split at e
  · cases e
  next y hy =>
  cases e
  have hok := (pickRx_spec _ _ hpick).2
  rw [Bool.and_eq_true, hy] at hok
  exact ⟨hok.2, hy⟩

/-- The ledger with a transfer of one frame in its place. -/
def HJob.filled (j : HJob) (f : Frame) (x : XHdr) (port : Nat) : HJob :=
  j.putRx ⟨xferOf x, .full, f.payload, f.src, f.vc, port, f.ret, false⟩

/-- A list in which one key's entry has been replaced finds that entry, and the others as before. -/
theorem find?_put {α : Type} (key : α → XferId) (l : List α) (e : α) (id : XferId) :
    (l.filter (fun a => key a != key e) ++ [e]).find? (fun a => key a == id)
      = if id = key e then some e else l.find? fun a => key a == id := by
  rw [List.find?_append, List.find?_filter]
  split
  · next h =>
    subst h
    rw [List.find?_eq_none.mpr fun a _ => by simp]
    simp
  · next h =>
    have hk : ∀ a, (key a != key e && key a == id) = (key a == id) := fun a => by
      by_cases ha : key a = id
      · simp [ha, h]
      · simp [ha]
    simp only [← Bool.and_eq_true, hk, Bool.decide_eq_true]
    cases l.find? (fun a => key a == id) with
    | some a => rfl
    | none => simp [Ne.symm h]

theorem HJob.tx?_putTx (j : HJob) (e : TxEnt) (id : XferId) : (j.putTx e).tx? id = if id = e.id then some e else j.tx? id :=
  find?_put TxEnt.id j.tx e id

theorem HJob.rx?_putRx (j : HJob) (e : RxEnt) (id : XferId) : (j.putRx e).rx? id = if id = e.id then some e else j.rx? id :=
  find?_put RxEnt.id j.rx e id

theorem HJob.takeFrame_fills {j : HJob} {f : Frame} {x : XHdr} (port : Nat)
    (hr : x.kind ≤ kDOWN → x.round = j.counter x.kind x.key) (h1 : x.first = true) (h2 : x.last = true) (h3 : x.offset = 0)
    (hn : j.rx? (xferOf x) = none) : j.takeFrame f x port = (j.filled f x port, some 1) := by
  unfold HJob.takeFrame
  have hlate : ¬ (decide (x.kind ≤ kDOWN) = true ∧ j.counter x.kind x.key + 4 ≤ x.round) := by
    rw [decide_eq_true_iff]
    rintro ⟨hk, hc⟩
    rw [hr hk] at hc
    omega
  have hstale : ¬ (decide (x.kind ≤ kDOWN) = true ∧ x.round + 4 < j.counter x.kind x.key) := by
    rw [decide_eq_true_iff]
    rintro ⟨hk, hc⟩
    rw [hr hk] at hc
    omega
  have hpast : ¬ (decide (x.kind ≤ kDOWN) = true ∧ x.round < j.counter x.kind x.key) := by
    rw [decide_eq_true_iff]
    rintro ⟨hk, hc⟩
    rw [hr hk] at hc
    omega
  rw [if_neg hlate, if_neg hstale, if_neg hpast, if_neg (by simp [h1]), hn]
  dsimp only
  rw [if_pos h3, h2, h3]
  simp [HJob.filled]

theorem State.portOf_modHJob (s : State) (h j : Nat) (f : HJob → HJob) (n : Nat) : (s.modHJob h j f).portOf n = s.portOf n := by
  unfold State.portOf State.modHJob
  rw [State.hall_modHall]
  split
  · next e => rw [e]; rfl
  · rfl

/-- The state in which the ledger has taken a transfer whole and its receipt has been sent. -/
def State.fills (s : State) (h i : Nat) (f : Frame) (x : XHdr) : State :=
  (s.modHJob h x.job fun _ => ((s.hall h).job x.job).filled f x i).enqueue [receiptFrame s h f x 1 0 x.epoch]

theorem State.fills_txq (s : State) (h i : Nat) (f : Frame) (x : XHdr) :
    ((s.fills h i f x).portOf (f.ret.reverse.getD 0 0)).txq
      = (s.portOf (f.ret.reverse.getD 0 0)).txq ++ [receiptFrame s h f x 1 0 x.epoch] := by
  unfold State.fills
  rw [State.receipt_txq _ _ _ rfl rfl, State.portOf_modHJob]

theorem State.parts_fills (s : State) (h i : Nat) (f : Frame) (x : XHdr) : (s.fills h i f x).parts = s.parts :=
  State.parts_enqueue ..

theorem State.ownerOf_of_parts {s t : State} (h : t.parts = s.parts) (k : Nat) : t.ownerOf k = s.ownerOf k := by
  unfold State.ownerOf State.part
  rw [h]

/-- A transfer of one frame, in its round and epoch, of a resident job, is taken and answered with code 1. -/
theorem State.takeKind_fills {s t : State} {h i kind : Nat} {f : Frame} {x : XHdr} {q : Page}
    (e : s.takeRx h i (fun x _ => x.kind == kind) = some (f, x, t)) (hj : t.jobAt h x.job = some q)
    (he : ((t.hall h).job x.job).epoch = x.epoch) (ht : t.treeDiffers q f x = false)
    (hr : x.kind ≤ kDOWN → x.round = ((t.hall h).job x.job).counter x.kind x.key) (h1 : x.first = true) (h2 : x.last = true)
    (h3 : x.offset = 0) (hn : ((t.hall h).job x.job).rx? (xferOf x) = none) :
    s.takeKind h i kind = t.fills h i f x := by
  have htake : t.takeXfer h i f x = (t.modHJob h x.job fun _ => ((t.hall h).job x.job).filled f x i, some 1) := by
    unfold State.takeXfer
    rw [hj]
    dsimp only
    rw [if_neg (by simp [he]), if_neg (by simp [ht]), HJob.takeFrame_fills i hr h1 h2 h3 hn]
    rfl
  unfold State.takeKind
  rw [e]
  dsimp only
  rw [htake]
  rfl

/-! ### Receipts -/

/-- The partner's asks are answered: frames leave, and the ledgers stand. -/
theorem State.answerAsks_sends (s : State) (h : Nat) (id : XferId) (code reason : Nat) : Sends s (s.answerAsks h id code reason) := by
  unfold State.answerAsks
  split
  · exact Sends.refl s
  · dsimp only
    exact Sends.foldl ((Sends.refl s).modPart ..) (fun _ _ h => h.reply ..) _

theorem State.modHJob_jobs (s : State) (h j : Nat) (f : HJob → HJob) : (s.modHJob h j f).jobs = s.jobs := rfl

/-- A receipt that fails no command stands with its transfer. -/
theorem HJob.tx?_ack (j : HJob) (id : XferId) {e : TxEnt} (h : j.tx? id = some e) :
    (j.ack id).tx? id = some { e with acked := true } := by
  have hid : e.id = id := by simpa using List.find?_some h
  unfold HJob.tx? at h
  unfold HJob.tx? HJob.ack
  dsimp only
  rw [List.find?_map]
  have hk : ((fun t : TxEnt => t.id == id) ∘ fun t => if t.id = id then { t with acked := true } else t) = fun t => t.id == id := by
    funext t
    dsimp only [Function.comp]
    split <;> rfl
  rw [hk, h, Option.map_some, if_pos hid]

/-- The open transfer of an identity is the one that a receipt meets. -/
theorem HJob.find_open {j : HJob} {id : XferId} {e : TxEnt} (h : j.tx? id = some e) (hr : e.receipt = none) :
    (j.tx.find? fun t => t.receipt.isNone && t.id == id) = some e := by
  unfold HJob.tx? at h
  generalize j.tx = l at h
  induction l with
  | nil => cases h
  | cons a l ih =>
    rw [List.find?_cons] at h ⊢
    cases ha : a.id == id with
    | true =>
      rw [ha] at h
      cases h
      rw [hr]
      rfl
    | false =>
      rw [ha] at h
      rw [Bool.and_false]
      exact ih h

/-- A receipt COMPLETE or LATE is recorded with its transfer, and fails no command. -/
theorem State.takeReceipt_good {s : State} {h : Nat} {id : XferId} {e : TxEnt} {code : Nat} (reason : Nat)
    (he : ((s.hall h).job id.job).tx? id = some e) (hr : e.receipt = none) (hc : code = 1 ∨ code = 2) :
    (((s.takeReceipt h id code reason).hall h).job id.job).tx? id
        = some { e with receipt := some (code, reason), acked := e.acked || code == 1 }
      ∧ (s.takeReceipt h id code reason).jobs = s.jobs := by
  have hid : e.id = id := by simpa using List.find?_some he
  have herr : receiptErr code reason = none := by rcases hc with rfl | rfl <;> rfl
  unfold State.takeReceipt
  have hack : (((if code = 1 then s.modHJob h id.job (·.ack id) else s).hall h).job id.job).tx? id
        = some { e with acked := e.acked || code == 1 }
      ∧ (if code = 1 then s.modHJob h id.job (·.ack id) else s).jobs = s.jobs := by
    split
    · next h1 =>
      rw [State.hjob_modHJob_self, HJob.tx?_ack _ _ he, h1]
      simp
      rfl
    · next h1 =>
      rw [he, beq_false_of_ne h1, Bool.or_false]
      exact ⟨rfl, rfl⟩
  generalize (if code = 1 then s.modHJob h id.job (·.ack id) else s) = u at hack
  obtain ⟨hu, hjobs⟩ := hack
  dsimp only
  rw [HJob.find_open hu hr]
  dsimp only
  rw [if_neg (by omega), herr]
  dsimp only
  have hs := (u.modHJob h id.job fun j => j.putTx { e with receipt := some (code, reason), acked := e.acked || code == 1 }).answerAsks_sends h id code reason
  rw [hs.ledger, hs.jobs, State.hjob_modHJob_self, HJob.tx?_putTx, if_pos hid.symm]
  exact ⟨rfl, hjobs⟩

/-- Of a transfer taken whole: its place in the ledger, and the receipt in front of what is sent after it. -/
theorem State.fills_answers {s u : State} {h i : Nat} {f : Frame} {x : XHdr} (hu : Sends (s.fills h i f x) u) :
    (((u.hall h).job x.job).rx? (xferOf x)).map (fun e => (e.st, e.data, e.src)) = some (.full, f.payload, f.src)
      ∧ (∃ more, (u.portOf (f.ret.reverse.getD 0 0)).txq
          = (s.portOf (f.ret.reverse.getD 0 0)).txq ++ receiptFrame s h f x 1 0 x.epoch :: more)
      ∧ u.jobs = s.jobs := by
  have hs : Sends (s.modHJob h x.job fun _ => ((s.hall h).job x.job).filled f x i) (s.fills h i f x) := (Sends.refl _).enqueue _
  refine ⟨?_, ?_, hu.jobs.trans hs.jobs⟩
  · rw [hu.ledger, hs.ledger, State.hjob_modHJob_self, HJob.filled, HJob.rx?_putRx, if_pos rfl]
    rfl
  · obtain ⟨more, hmore⟩ := hu.txq (f.ret.reverse.getD 0 0)
    exact ⟨more, by rw [← hmore, State.fills_txq, List.append_assoc]; rfl⟩

/-- Settles O33: a transfer of one frame is taken whole, and a receipt COMPLETE or LATE is recorded. -/
theorem transfersFillTheLedger : Obligations.TransfersFillTheLedger := by
  unfold Obligations.TransfersFillTheLedger
  refine ⟨fun s s1 h i kind c f x q hkind hz e hj he ht hr h1 h2 h3 hn => ?_, fun s s1 h i f x e hz et => ?_⟩
  · have hk : x.kind = kind := by simpa using (State.takeRx_ok e).1
    have hfill := State.takeKind_fills e hj he ht (fun hle => by rw [hk] at hle ⊢; exact hr hle) h1 h2 h3 hn
    obtain ⟨hparts, hjobs⟩ := State.takeRx_outside e
    intro r
    obtain ⟨hplace, -, hj1⟩ := State.fills_answers (Sends.refl (s1.fills h i f x))
    have plain (hrun : exec (c h i) s = .next (s1.fills h i f x)) : ∃ t more, exec (c h i) s = .next t
        ∧ (((t.hall h).job x.job).rx? (xferOf x)).map (fun e => (e.st, e.data, e.src)) = some (.full, f.payload, f.src)
        ∧ (t.portOf r).txq = (s1.portOf r).txq ++ receiptFrame s1 h f x 1 0 x.epoch :: more ∧ t.jobs = s.jobs
        ∧ (kind ≠ kUP ∨ (∀ v, s1.ownerOf h = some v → (s1.part v).relayDue = []) → more = [] ∧ t.parts = s.parts) :=
      ⟨_, [], hrun, hplace, State.fills_txq .., hj1.trans hjobs, fun _ => ⟨rfl, (State.parts_fills ..).trans hparts⟩⟩
    simp only [List.mem_cons, Prod.mk.injEq, List.not_mem_nil, or_false] at hkind
    rcases hkind with ⟨rfl, rfl⟩ | ⟨rfl, rfl⟩ | ⟨rfl, rfl⟩ | ⟨rfl, rfl⟩ | ⟨rfl, rfl⟩
    case inr.inr.inl =>
      have hrun : exec (.up h i) s = .next ((s1.fills h i f x).relaysDue h) := (next_live hz _).trans (congrArg (fun u : State => (.next (u.relaysDue h) : Out)) hfill)
      by_cases hdue : ∀ v, s1.ownerOf h = some v → (s1.part v).relayDue = []
      · rw [State.relaysDue_nil fun v hv => by
          rw [State.part_of_parts (State.parts_fills ..)]
          exact hdue v ((State.ownerOf_of_parts (State.parts_fills ..) h).symm.trans hv)] at hrun
        exact plain hrun
      · obtain ⟨hplace, ⟨more, hmore⟩, hj1⟩ := State.fills_answers ((Sends.refl (s1.fills h i f x)).relaysDue h)
        exact ⟨_, more, hrun, hplace, hmore, hj1.trans hjobs, fun hc => absurd (hc.resolve_left (by simp)) hdue⟩
    all_goals exact plain ((next_live hz _).trans (congrArg (fun u : State => (.next u : Out)) hfill))
  · intro id k hk he hr hc
    refine ⟨_, next_live hz _, ?_⟩
    beta_reduce
    unfold State.receiptRow
    rw [et]
    dsimp only
    unfold State.receiptHere
    rw [if_neg hk]
    obtain ⟨htx, hjobs⟩ := State.takeReceipt_good x.reason he hr hc
    exact ⟨htx, hjobs.trans (State.takeRx_outside et).2⟩

/-! ### What is served to a requester -/

/-- The stacks stand. -/
theorem State.takeRx_stacks {s t : State} {h i : Nat} {ok : XHdr → Frame → Bool} {f : Frame} {x : XHdr}
    (e : s.takeRx h i ok = some (f, x, t)) : SameStacks s t := by
  unfold State.takeRx at e
  split at e
  · cases e
  split at e
  · cases e
  cases e
  have hport (u : State) (g : Port → Port) : SameStacks u (u.modPort h i g) := SameStacks.modHall _ _ _ fun _ => rfl
  exact fun k => ((hport _ _) k).trans ((hport _ _) k)

theorem SameStacks.trans {s t u : State} (a : SameStacks s t) (b : SameStacks t u) : SameStacks s u := fun k => (b k).trans (a k)

/-- A request that is not served is answered by its receipt alone. -/
theorem State.enqueue_receipt (s : State) (h : Nat) (f : Frame) (x : XHdr) (code reason epoch : Nat) :
    ((s.enqueue [receiptFrame s h f x code reason epoch]).portOf (f.ret.reverse.getD 0 0)).txq
        = (s.portOf (f.ret.reverse.getD 0 0)).txq ++ [receiptFrame s h f x code reason epoch]
      ∧ SameStacks s (s.enqueue [receiptFrame s h f x code reason epoch]) :=
  ⟨State.receipt_txq _ _ _ rfl rfl, ((Sends.refl s).enqueue _).sameStacks⟩

/-- What a leg that is not single sends to a requester leaves on the way that the request came by. -/
theorem State.sendServed_goes {s : State} {h : Nat} (hs : ∀ v, s.ownerOf h = some v → (s.part v).scState ≠ 2) (f : Frame) (y : XHdr)
    (data : List Byte) :
    ((s.sendServed h f y data).portOf (f.ret.reverse.getD 0 0)).txq
        = (s.portOf (f.ret.reverse.getD 0 0)).txq ++ mkFrames (s.rank h) f.src f.ret.reverse f.vc y data
      ∧ SameStacks s (s.sendServed h f y data) ∧ ∀ k, ((s.sendServed h f y data).hall k).serving = (s.hall k).serving := by
  have hq := s.enqueue_txq (fs := mkFrames (s.rank h) f.src f.ret.reverse f.vc y data) fun g hg => mkFrames_port hg
  have hk := (Sends.refl s).enqueue (mkFrames (s.rank h) f.src f.ret.reverse f.vc y data)
  have hp := State.parts_enqueue s (mkFrames (s.rank h) f.src f.ret.reverse f.vc y data)
  unfold State.sendServed
  dsimp only
  generalize s.enqueue (mkFrames (s.rank h) f.src f.ret.reverse f.vc y data) = u at hq hk hp
  have halso : u.alsoRelay h f.src f.ret.reverse y data = u := by
    unfold State.alsoRelay
    split
    · next v hv =>
      refine if_neg ?_
      rw [State.part_of_parts hp]
      exact hs v ((State.ownerOf_of_parts hp h).symm.trans hv)
    · rfl
  rw [halso]
  have keeps (g : HJob → HJob) : ((u.modHJob h y.job g).portOf (f.ret.reverse.getD 0 0)).txq
        = (s.portOf (f.ret.reverse.getD 0 0)).txq ++ mkFrames (s.rank h) f.src f.ret.reverse f.vc y data
      ∧ SameStacks s (u.modHJob h y.job g) ∧ ∀ k, ((u.modHJob h y.job g).hall k).serving = (s.hall k).serving := by
    refine ⟨by rw [State.portOf_modHJob, hq], hk.sameStacks.trans (SameStacks.modHall _ _ _ fun _ => rfl), fun k => ?_⟩
    rw [← hk.serving k, State.modHJob, State.hall_modHall]
    split
    · next e => rw [e]; rfl
    · rfl
  split
  · split
    · exact keeps _
    · exact ⟨hq, hk.sameStacks, hk.serving⟩
  · exact ⟨hq, hk.sameStacks, hk.serving⟩

/-- No granule of the runs is poisoned. -/
theorem Hall.poisonIn_none {H : Hall} {l : List Span} (h : l.any H.poisoned = false) : H.poisonIn l = none := by
  unfold Hall.poisonIn
  induction l with
  | nil => rfl
  | cons x l ih =>
    rw [List.any_cons, Bool.or_eq_false_iff] at h
    obtain ⟨hx, hl⟩ := h
    have hnone : (H.poison.filter fun g => x.overlaps (32 * g, 32)) = [] :=
      List.filter_eq_nil_iff.mpr fun g hg => by
        have := List.any_eq_false.mp hx g hg
        exact this
    unfold firstSome
    rw [hnone]
    exact ih hl

theorem Lead.length_bytes_plain {l : Lead} (h : l.tdigest.length = 16) (hl : l.list = []) : l.bytes.length = 64 := by
  unfold Lead.bytes
  rw [hl]
  simp only [List.length_append, natLE_length, h]
  rfl

/-- The lead block in front of rows that are served. -/
def pullLead (d : TDesc) (face : Face) (n : Nat) : Lead :=
  { Lead.none with
    format := d.fmtRaw, cols := d.cols, rows := n, coarse := face.coarse, affine := if d.w.zi then face.aff.toNat else 0 }

theorem receiptFrame_rank {s t : State} {h : Nat} (e : t.rank h = s.rank h) (f : Frame) (x : XHdr) (code reason epoch : Nat) :
    receiptFrame t h f x code reason epoch = receiptFrame s h f x code reason epoch := by
  unfold receiptFrame
  rw [e]

/-- A pull that the plan and the tensor meet, of rows without poison, is served behind a lead block of 64 bytes. -/
theorem State.pullData_ok {s : State} {h : Nat} {q : Page} {f : Frame} {x : XHdr} {p : Plan} {d : TDesc} (hp : s.plan? q = some p)
    (hd : s.binding? h (u16 (Lead.parse f.payload).2 8) x.job = some d) (hid : p.planId.toNat = u64 (Lead.parse f.payload).2 0)
    (ht : (p.tensor? (u16 (Lead.parse f.payload).2 8)).isSome = true)
    (hr : u32 (Lead.parse f.payload).2 12 + u32 (Lead.parse f.payload).2 16 ≤ d.rows)
    (hn : (s.hall h).poisonIn ((s.committedFace h d).rowsSpans (u32 (Lead.parse f.payload).2 12) (u32 (Lead.parse f.payload).2 16)) = none) :
    ∃ l : List Byte, l.length = 64 ∧ s.pullData h q f x = .ok (s.committedFace h d, u32 (Lead.parse f.payload).2 12,
      u32 (Lead.parse f.payload).2 16,
      l ++ (s.committedFace h d).rowsBytes (u32 (Lead.parse f.payload).2 12) (u32 (Lead.parse f.payload).2 16)) := by
  refine ⟨(pullLead d (s.committedFace h d) (u32 (Lead.parse f.payload).2 16)).bytes, Lead.length_bytes_plain rfl rfl, ?_⟩
  unfold State.pullData
  dsimp only
  rw [hp, hd]
  dsimp only
  rw [if_neg, hn]
  · rfl
  rintro (h1 | h2 | h3)
  · exact h1 hid
  · rw [Option.isNone_iff_eq_none.mp h2] at ht
    cases ht
  · omega

theorem State.portOf_modHall (s : State) (h : Nat) {f : Hall → Hall} (hf : ∀ H, (f H).ports = H.ports) (n : Nat) :
    (s.modHall h f).portOf n = s.portOf n := by
  unfold State.portOf
  rw [State.hall_modHall]
  split
  · next e => rw [e, Hall.port, hf]; rfl
  · rfl

theorem State.countPull_keeps (s : State) (h : Nat) (q : Page) (face : Face) (first n : Nat) :
    (s.countPull h q face first n).parts = s.parts ∧ (s.countPull h q face first n).chainAddr = s.chainAddr
      ∧ (∀ m, (s.countPull h q face first n).portOf m = s.portOf m) ∧ SameStacks s (s.countPull h q face first n) := by
  unfold State.countPull State.countHall
  dsimp only
  split
  · exact ⟨rfl, rfl, s.portOf_modHall h fun _ => by rfl, SameStacks.modHall _ _ _ fun _ => by rfl⟩
  · exact ⟨rfl, rfl, fun _ => rfl, fun _ => rfl⟩

theorem State.chainAddr_enqueue (s : State) (fs : List Frame) : (s.enqueue fs).chainAddr = s.chainAddr :=
  (congrArg State.chainAddr ((SameDevice.refl s).enqueue fs) :)

/-- The data of a request follow its receipt, whatever stood between in the hall alone. -/
theorem State.served_goes {s u : State} {h : Nat} (hs : ∀ v, s.ownerOf h = some v → (s.part v).scState ≠ 2) (f : Frame) (x y : XHdr)
    (data : List Byte) (hparts : u.parts = (s.reply h f x 1 0).parts) (hchain : u.chainAddr = (s.reply h f x 1 0).chainAddr)
    (hport : ∀ n, u.portOf n = (s.reply h f x 1 0).portOf n) (hstack : SameStacks (s.reply h f x 1 0) u) :
    ((u.sendServed h f y data).portOf (f.ret.reverse.getD 0 0)).txq = (s.portOf (f.ret.reverse.getD 0 0)).txq
        ++ receiptFrame s h f x 1 0 x.epoch :: mkFrames (s.rank h) f.src f.ret.reverse f.vc y data
      ∧ SameStacks s (u.sendServed h f y data) ∧ ∀ k, ((u.sendServed h f y data).hall k).serving = (u.hall k).serving := by
  obtain ⟨hq, hst⟩ := s.enqueue_receipt h f x 1 0 x.epoch
  have hp : u.parts = s.parts := hparts.trans (State.parts_enqueue ..)
  have hrank : u.rank h = s.rank h :=
    congrArg (fun a : BitVec 18 => rankWord a.toNat h) (hchain.trans (s.chainAddr_enqueue _))
  obtain ⟨htx, hstack', hserving⟩ := State.sendServed_goes (s := u) (h := h) (fun v hv => by
      rw [State.part_of_parts hp]
      exact hs v ((State.ownerOf_of_parts hp h).symm.trans hv)) f y data
  refine ⟨?_, hst.trans (hstack.trans hstack'), hserving⟩
  rw [htx, hrank, hport]
  refine (congrArg (fun l : List Frame => l ++ mkFrames (s.rank h) f.src f.ret.reverse f.vc y data) hq).trans ?_
  rw [List.append_assoc]
  rfl

/-- Settles O34: each request by what the row answers. -/
theorem pullsAreServed : Obligations.PullsAreServed := by
  unfold Obligations.PullsAreServed
  intro s s1 h i f x hz hs r back
  refine ⟨fun e => ?_, fun e => ?_⟩
  · have hst := State.takeRx_stacks e
    refine ⟨fun hj => ⟨_, next_live hz _, ?_⟩, fun q hj he h1 => ⟨_, next_live hz _, ?_⟩, ?_⟩
    · beta_reduce
      unfold State.servePull
      rw [e]
      dsimp only
      rw [hj]
      obtain ⟨htx, hkeep⟩ := s1.enqueue_receipt h f x 6 1 x.epoch
      exact ⟨htx, hst.trans hkeep⟩
    · beta_reduce
      unfold State.servePull
      rw [e]
      dsimp only
      rw [hj]
      dsimp only
      rw [if_pos he]
      unfold State.strayFrame
      dsimp only
      rw [if_pos h1]
      have hcount : (((s1.countStray h x).hall h).job x.job).epoch = ((s1.hall h).job x.job).epoch := by
        rw [State.countStray, State.hjob_modHJob_self]
      obtain ⟨htx, hkeep⟩ := (s1.countStray h x).enqueue_receipt h f x 4 0 ((s1.hall h).job x.job).epoch
      rw [hcount]
      exact ⟨htx.trans (by rw [State.countStray, State.portOf_modHJob]; rfl), hst.trans ((SameStacks.modHall _ _ _ fun _ => by rfl).trans hkeep)⟩
    · intro q p d b face hj he hp hd hid hpt hrows hpoison
      obtain ⟨l, hl, hpull⟩ := State.pullData_ok hp hd hid hpt hrows (Hall.poisonIn_none hpoison)
      obtain ⟨cparts, cchain, cport, cstack⟩ := s1.countPull_keeps h q face (u32 b 12) (u32 b 16)
      have cowner := State.ownerOf_of_parts cparts h
      have crank : (s1.countPull h q face (u32 b 12) (u32 b 16)).rank h = s1.rank h :=
        congrArg (fun a : BitVec 18 => rankWord a.toNat h) cchain
      refine ⟨_, l, next_live hz _, ?_⟩
      beta_reduce
      unfold State.servePull
      rw [e]
      dsimp only
      rw [hj]
      dsimp only
      rw [if_neg (fun hne => hne he), hpull]
      dsimp only
      generalize s1.countPull h q face (u32 b 12) (u32 b 16) = u at cparts cchain cport cstack cowner crank
      generalize l ++ face.rowsBytes (u32 b 12) (u32 b 16) = data
      obtain ⟨htx, hkeep, hserving⟩ := State.served_goes (s := u)
        (u := (u.reply h f x 1 0).holdFace h face (xferOf { x with kind := kPULLDATA }) f.ret.reverse f.src)
        (fun v hv => by
          rw [State.part_of_parts cparts]
          exact hs v (cowner.symm.trans hv)) f x { x with kind := kPULLDATA } data rfl rfl
        ((u.reply h f x 1 0).portOf_modHall h fun _ => by rfl) (SameStacks.modHall _ _ _ fun _ => by rfl)
      refine ⟨hst.trans (cstack.trans hkeep), ?_, hl, ⟨face.d.pair, face.k, xferOf { x with kind := kPULLDATA }, f.ret.reverse.getD 0 0, f.src⟩, ?_,
        rfl, rfl⟩
      · rw [htx, cport, crank, receiptFrame_rank crank]
      · rw [hserving, State.holdFace, State.hall_modHall_self]
        exact List.mem_append_right _ (List.mem_singleton_self _)
  · intro b n hper hstate hpoison
    have hst := State.takeRx_stacks e
    refine ⟨_, next_live hz _, ?_⟩
    beta_reduce
    have hdata : s1.mezzData h f = .ok (Lead.none.bytes ++ memReads (s1.hall h).hbm b n) := by
      unfold State.mezzData
      dsimp only
      rw [if_neg (by simp [hper]), if_neg (fun hne => hne hstate), Hall.poisonIn_none (by simpa using hpoison)]
    unfold State.mezzServe
    rw [e]
    dsimp only
    rw [hdata]
    dsimp only
    obtain ⟨htx, hkeep, -⟩ := State.served_goes (u := s1.reply h f x 1 0) hs f x { x with kind := kMEZZDATA }
      (Lead.none.bytes ++ memReads (s1.hall h).hbm b n) rfl rfl (fun _ => rfl) (fun _ => rfl)
    exact ⟨hst.trans hkeep, htx⟩

/-! ### An image at the neighbour -/

theorem memReads_getElem (m : Mem) (a : Nat) {n k : Nat} (h : k < (memReads m a n).length) :
    (memReads m a n)[k] = memRead m (a + k) := by simp [memReads]

theorem memReads_memWrites_inside {m : Mem} {a : Nat} {l : List Byte} {i n : Nat} (h : i + n ≤ l.length) :
    memReads (memWrites m a l) (a + i) n = (l.drop i).take n := by
  apply List.ext_getElem
  · rw [memReads_length, List.length_take, List.length_drop]
    omega
  · intro k hk _
    rw [memReads_length] at hk
    rw [memReads_getElem, memRead_memWrites, if_pos (by omega), List.getElem_take, List.getElem_drop,
      List.getD_eq_getElem _ _ (by omega)]
    congr 1
    omega

/-- A byte written outside a run leaves what the run reads. -/
theorem memReads_memWrite_outside {m : Mem} {c : Nat} (b : Byte) {a n : Nat} (h : c < a ∨ a + n ≤ c) :
    memReads (memWrite m c b) a n = memReads m a n := by
  refine List.map_congr_left fun i hi => ?_
  have := List.mem_range.mp hi
  rw [memRead_memWrite, if_neg (by omega)]

/-- A stack in which an image, its slot header with it, has been written whole. -/
def imageStored (m : Mem) (b : Nat) (d : List Byte) : Mem := memWrite (memWrite (memWrites m b d) (b + 4) 1) (b + 4) 2

theorem imageStored_spec {m : Mem} {b : Nat} {d : List Byte} (h : 64 ≤ d.length) :
    memRead (imageStored m b d) (b + 4) = 2 ∧ memReads (imageStored m b d) b 4 = d.take 4
      ∧ memReads (imageStored m b d) (b + 5) (d.length - 5) = d.drop 5
      ∧ ∀ a, a < b ∨ b + d.length ≤ a → memRead (imageStored m b d) a = memRead m a := by
  unfold imageStored
  refine ⟨by rw [memRead_memWrite, if_pos rfl], ?_, ?_, fun a ha => ?_⟩
  · rw [memReads_memWrite_outside _ (by omega), memReads_memWrite_outside _ (by omega)]
    exact memReads_memWrites_inside (i := 0) (by omega)
  · rw [memReads_memWrite_outside _ (by omega), memReads_memWrite_outside _ (by omega), memReads_memWrites_inside (by omega),
      List.take_of_length_le (by rw [List.length_drop])]
  · rw [memRead_memWrite, if_neg (by omega), memRead_memWrite, if_neg (by omega), memRead_memWrites_outside _ _ _ _ ha]

/-- The state in which an image has been stored in its slot. -/
def State.imageTaken (s : State) (h b : Nat) (d : List Byte) : State :=
  (s.modHall h fun H => { H with hbm := memWrite (memWrites (s.hall h).hbm b d) (b + 4) 1, mezzIn := none }).modHall h fun H =>
    { H with hbm := memWrite H.hbm (b + 4) 2 }

theorem State.imageTaken_hbm (s : State) (h b : Nat) (d : List Byte) :
    ((s.imageTaken h b d).hall h).hbm = imageStored (s.hall h).hbm b d := by
  unfold State.imageTaken
  rw [State.hall_modHall_self, State.hall_modHall_self]
  rfl

theorem State.imageTaken_portOf (s : State) (h b : Nat) (d : List Byte) (n : Nat) : (s.imageTaken h b d).portOf n = s.portOf n :=
  (State.portOf_modHall _ h (fun _ => by rfl) n).trans (State.portOf_modHall _ h (fun _ => by rfl) n)

/-- An image of one frame that is permitted, fits, and has the CRC of its header is stored, and answered with code 1. -/
theorem State.mezzTake_stores {s : State} {h : Nat} {f : Frame} {x : XHdr} {b : Nat} {d : List Byte}
    (hb : b = (s.hall h).mezzSlotBase (fld (u8 d 5) 0 1)) (hd : d = f.payload.drop 64)
    (h1 : x.first = true) (h2 : x.last = true) (hper : (s.hall h).mezzPermits f.src = true) (hlen : d.length = 64 + u64 d 32)
    (hfits : 64 + u64 d 32 ≤ (s.hall h).mezzSlotLen) (hcrc : crc64 (d.drop 64) = BitVec.ofNat 64 (u64 d 40)) :
    s.mezzTake h f x = (s.imageTaken h b d, some (1, 0)) := by
  have hdr {o n : Nat} (ho : o + n ≤ 64) : bytesAt (bytesAt f.payload 64 64) o n = bytesAt d o n := by
    unfold bytesAt
    rw [hd, List.drop_take, List.take_take, Nat.min_eq_left (by omega)]
  have h32 : u64 (bytesAt f.payload 64 64) 32 = u64 d 32 := congrArg leNat (hdr (by omega))
  have h5 : u8 (bytesAt f.payload 64 64) 5 = u8 d 5 := congrArg leNat (hdr (by omega))
  have read {o n : Nat} (ho : 5 ≤ o) (hn : o + n ≤ d.length) :
      memReads (memWrite (memWrites (s.hall h).hbm b d) (b + 4) 1) (b + o) n = bytesAt d o n := by
    rw [memReads_memWrite_outside _ (by omega), memReads_memWrites_inside hn]
    rfl
  have hsize : leNat (memReads (memWrite (memWrites (s.hall h).hbm b d) (b + 4) 1) (b + 32) 8) = u64 d 32 :=
    congrArg leNat (read (by omega) (by omega))
  have hsum : leNat (memReads (memWrite (memWrites (s.hall h).hbm b d) (b + 4) 1) (b + 40) 8) = u64 d 40 :=
    congrArg leNat (read (by omega) (by omega))
  have hbody : memReads (memWrite (memWrites (s.hall h).hbm b d) (b + 4) 1) (b + 64) (u64 d 32) = d.drop 64 := by
    rw [read (by omega) (by omega)]
    exact List.take_of_length_le (by rw [List.length_drop]; omega)
  unfold State.mezzTake
  dsimp only
  rw [if_neg (by simp [hper]), if_neg (fun hc => absurd hc.2 (by rw [h32]; omega)), if_pos h1]
  dsimp only
  rw [h5, ← hb, if_pos h1, if_pos h1, if_pos h1, if_pos h2, if_pos h2, ← hd, hsize, hsum, hbody, if_pos hcrc]
  rfl

/-- Settles O35: the image stands behind its own header, and only the byte of the slot's state is written again. -/
theorem imagesArriveInTheirSlot : Obligations.ImagesArriveInTheirSlot := by
  unfold Obligations.ImagesArriveInTheirSlot
  intro s s1 h i f x hz e h1 h2 H d len b r hper hlen hfits hcrc
  refine ⟨_, next_live hz _, ?_⟩
  beta_reduce
  unfold State.mezzFrame
  rw [e]
  dsimp only
  rw [State.mezzTake_stores rfl rfl h1 h2 hper hlen hfits hcrc]
  dsimp only
  obtain ⟨hstate, hhead, hrest, hframe⟩ := imageStored_spec (m := H.hbm) (b := b) (d := d) (by omega)
  obtain ⟨htx, hkeep⟩ := (s1.imageTaken h b d).enqueue_receipt h f x 1 0 x.epoch
  have hmem := (hkeep h).trans (s1.imageTaken_hbm h b d)
  have htxq := htx.trans (by rw [State.imageTaken_portOf])
  have hjobs : ((s1.imageTaken h b d).reply h f x 1 0).jobs = s.jobs := (State.jobs_enqueue ..).trans (State.takeRx_outside e).2
  unfold State.reply at hjobs ⊢
  rw [hmem]
  refine ⟨hstate, hhead, ?_, fun a ha => hframe a (by omega), htxq, hjobs⟩
  rw [← hrest]
  congr 1
  omega

end Sys2Proof.Machine
end

section
/-! PROOFS. Timers of links. -/

namespace Sys2Proof.Machine

theorem HJob.tx?_id {j : HJob} {id : XferId} {e : TxEnt} (h : j.tx? id = some e) : e.id = id := by simpa using List.find?_some h

/-! ### A transfer sent anew -/

theorem Sends.alsoRelay {s t : State} (hs : Sends s t) (h dest : Nat) (ports : List Nat) (x : XHdr) (data : List Byte) :
    Sends s (t.alsoRelay h dest ports x data) := by
  unfold State.alsoRelay
  split
  · exact Sends.ite ((hs.enqueue _).modPart ..) hs
  · exact hs

/-- A transfer's next attempt. -/
def TxEnt.anew (e : TxEnt) (slot dest : Nat) (ports : List Nat) (vc : Nat) (data : List Byte) : TxEnt :=
  { id := e.id, dest := dest, ports := ports, vc := vc, data := data, receipt := none, held := false, tries := e.tries + 1,
    relay := false, slot := slot, late := false, acked := false }

/-- A transfer without a receipt whose port is up is sent once more, as a new attempt. -/
theorem State.sendXfer_again {s : State} {h : Nat} {e : TxEnt} (slot dest : Nat) (ports : List Nat) (vc : Nat) (data : List Byte)
    (he : ((s.hall h).job e.id.job).tx? e.id = some e) (hr : e.receipt = none) (hup : (s.portOf (ports.getD 0 0)).up = true) :
    ((((s.sendXfer h slot e.id dest ports vc data).hall h).job e.id.job).tx? e.id).map (fun n => (n.held, n.tries, n.receipt))
        = some (false, e.tries + 1, none)
      ∧ (s.sendXfer h slot e.id dest ports vc data).jobs = s.jobs := by
  have hs : ∀ (fs : List Frame) (x : XHdr), Sends (s.modHJob h e.id.job fun j => j.putTx (e.anew slot dest ports vc data))
      (((s.modHJob h e.id.job fun j => j.putTx (e.anew slot dest ports vc data)).enqueue fs).alsoRelay h dest ports x data) :=
    fun fs x => ((Sends.refl _).enqueue fs).alsoRelay ..
  have hsend : ∃ fs x, s.sendXfer h slot e.id dest ports vc data
      = ((s.modHJob h e.id.job fun j => j.putTx (e.anew slot dest ports vc data)).enqueue fs).alsoRelay h dest ports x data := by
    refine ⟨mkFrames (s.rank h) dest ports vc (xhdrOf e.id (e.tries + 1 - 1)) data, xhdrOf e.id (e.tries + 1 - 1), ?_⟩
    unfold State.sendXfer
    dsimp only
    rw [he]
    refine (if_neg (by simp [hr])).trans ?_
    rw [hup]
    rfl
  obtain ⟨fs, x, hsend⟩ := hsend
  rw [hsend, (hs fs x).ledger, (hs fs x).jobs, State.hjob_modHJob_self, HJob.tx?_putTx, if_pos (show e.id = (e.anew slot dest ports vc data).id from rfl)]
  exact ⟨rfl, rfl⟩

/-- A held transfer is sent again from its first byte. -/
theorem State.holdResend_sends {s : State} {h : Nat} {id : XferId} {e : TxEnt} (he : ((s.hall h).job id.job).tx? id = some e)
    (hr : e.receipt = none) (hh : e.held = true) (hup : (s.portOf (e.ports.getD 0 0)).up = true) :
    ((((s.holdResend h id).hall h).job id.job).tx? id).map (fun n => (n.held, n.tries, n.receipt)) = some (false, e.tries + 1, none)
      ∧ (s.holdResend h id).jobs = s.jobs := by
  obtain rfl := HJob.tx?_id he
  unfold State.holdResend
  rw [he]
  dsimp only
  rw [hh, hup, if_neg (by simp), if_pos (by rfl)]
  unfold State.resendXfer
  have hput : (((s.modHJob h e.id.job fun j => j.putTx { e with held := false }).hall h).job e.id.job).tx? e.id
      = some { e with held := false } := by
    rw [State.hjob_modHJob_self, HJob.tx?_putTx, if_pos rfl]
  exact State.sendXfer_again (e := { e with held := false }) _ _ _ _ _ hput hr (by rw [State.portOf_modHJob]; exact hup)

theorem State.unanswered_records {s : State} {h : Nat} {id : XferId} {e : TxEnt} (he : ((s.hall h).job id.job).tx? id = some e)
    (hr : e.receipt = none) (hk : id.kind = kUP ∨ id.kind = kDOWN) :
    s.unanswered h id = s.modHJob h id.job fun j => j.putTx { e with receipt := some (8, 0), late := true } := by
  unfold State.unanswered
  rw [he]
  exact if_pos ⟨hk, by rw [hr]; rfl⟩

/-! ### Deadlines -/

/-- A collective that awaits a right child's value runs its clock. -/
theorem State.clocked_isSome {s : State} {a : Site} {shard node leaf : Nat} {c : CollCtx} (hc : c ∈ s.collsAt a) (hu : c.up = true)
    (hs : shard ∈ c.shards) (hf : c.forced = none) (hl : c.tree.leafOf? shard (s.rankOf c) = some leaf)
    (hn : node ∈ c.tree.awaits leaf) : (s.clocked a shard node).isSome = true := by
  unfold State.clocked
  refine List.find?_isSome.mpr ⟨c, hc, ?_⟩
  rw [hu, hf, hl, List.contains_iff_mem.mpr hs]
  exact List.contains_iff_mem.mpr hn

/-- The arbiter's grant changes the command's page alone. -/
theorem State.race_outside (s : State) (q : Page) (slot : Nat) (arb : Arb) :
    (s.race q slot arb).halls = s.halls ∧ (s.race q slot arb).parts = s.parts ∧ (s.race q slot arb).host = s.host := by
  unfold State.race
  dsimp only
  split
  · split <;> exact ⟨rfl, rfl, rfl⟩
  · exact ⟨rfl, rfl, rfl⟩

/-- Unpaired, a deadline that wins before the child's first frame records the child as ABSENT. -/
theorem State.deadline_absent {s : State} {a : Site} {shard node : Nat} (close : Bool) {c : CollCtx} (hc : s.clocked a shard node = some c)
    (hn : ((s.hall a.hall).job c.k.job).rx? (s.upId c shard node) = none) (hp : s.isPaired a.hall = false) :
    s.deadline a shard node ⟨true, close⟩
      = (s.race a.page a.slot ⟨true, close⟩).modHJob a.hall c.k.job fun j => j.markAbsent (s.upId c shard node) := by
  obtain ⟨-, hparts, -⟩ := s.race_outside a.page a.slot ⟨true, close⟩
  have hpair : (s.race a.page a.slot ⟨true, close⟩).isPaired a.hall = false := by
    rw [← hp]
    unfold State.isPaired State.ownerOf State.part
    rw [hparts]
  unfold State.deadline
  rw [hc]
  dsimp only
  rw [hn, if_neg (by simp), if_neg (by simp), if_neg (by simp [hpair])]

theorem HJob.rxState_setAbsent (j : HJob) (id k : XferId) :
    (j.setAbsent id).rxState k = if k = id then some .absent else j.rxState k := by
  unfold HJob.rxState HJob.setAbsent
  rw [HJob.rx?_putRx]
  split <;> rfl

/-- Settles O28: each timer by what its row does. -/
theorem linkTimersAct : Obligations.LinkTimersAct := by
  unfold Obligations.LinkTimersAct
  intro s hz
  refine ⟨fun hall job key round shard node kind e => ?_, fun a c sh leaf hc hu hd hs hl h0 hsent hfull => ?_,
    fun a shard node leaf c hc hu hs hf hl hn => State.clocked_isSome hc hu hs hf hl hn, fun a shard node close c hc hn hp => ?_⟩
  · intro id he hr
    refine ⟨fun hk => ⟨_, next_live hz _, ?_⟩, fun hh hup => ⟨_, next_live hz _, State.holdResend_sends he hr hh hup⟩⟩
    beta_reduce
    rw [State.unanswered_records he hr hk]
    change (((s.modHJob hall job _).hall hall).job job).tx? id = _ ∧ _
    rw [State.hjob_modHJob_self, HJob.tx?_putTx, if_pos (HJob.tx?_id he).symm, State.modHJob,
      State.hall_modHall_self]
    exact ⟨rfl, rfl, rfl⟩
  · refine (next_live hz _).trans (congrArg (fun t : State => (.next t : Out)) ?_)
    unfold State.downLate
    dsimp only
    refine if_pos (List.any_eq_true.mpr ⟨c, hc, ?_⟩)
    rw [hu, hd]
    refine List.any_eq_true.mpr ⟨sh, hs, ?_⟩
    rw [hl]
    dsimp only
    rw [bne_iff_ne.mpr h0, List.contains_iff_mem.mpr hsent, hfull]
    rfl
  · refine ⟨_, next_live hz _, ?_⟩
    beta_reduce
    obtain ⟨hhalls, hparts, hhost⟩ := s.race_outside a.page a.slot ⟨true, close⟩
    rw [State.deadline_absent close hc hn hp]
    generalize s.race a.page a.slot ⟨true, close⟩ = u at hhalls hparts hhost
    have hledger : (u.hall a.hall).job c.k.job = (s.hall a.hall).job c.k.job := by rw [State.hall, hhalls, State.hall]
    have habsent : ((s.hall a.hall).job c.k.job).markAbsent (s.upId c shard node)
        = ((s.hall a.hall).job c.k.job).setAbsent (s.upId c shard node) := by
      unfold HJob.markAbsent
      rw [hn]
    rw [State.hjob_modHJob_self, hledger, habsent]
    refine ⟨by rw [HJob.rxState_setAbsent, if_pos rfl], fun id hid => by rw [HJob.rxState_setAbsent, if_neg hid],
      fun k hk => ?_, hparts, hhost⟩
    rw [State.modHJob, State.hall_modHall, if_neg hk, State.hall, hhalls, State.hall]

end Sys2Proof.Machine
end

section
/-! PROOFS. Memory errors, kills by faults, and lost halls. -/

namespace Sys2Proof.Machine

/-! ### What an exception log leaves of its hall -/

/-- A hall without its stack and the head of its exception log. -/
def Hall.offLog (H : Hall) : Hall := { H with hbm := [], xlogHead := 0 }

theorem Hall.offLog_xlog (H : Hall) (now : DWord) (e : LogEnt) : (H.xlog now e).offLog = H.offLog := by
  unfold Hall.xlog
  split <;> rfl

theorem State.hall_log_offLog (s : State) (h : Nat) (e : LogEnt) : ((s.log h e).hall h).offLog = (s.hall h).offLog := by
  rw [State.log, State.hall_modHall_self, Hall.offLog_xlog]

/-! ### Memory errors (R263, R264) -/

/-- The command that an uncorrectable error in a stack byte meets. -/
def State.hbmVictim (s : State) (h addr : Nat) : Option (Page × Cmd) :=
  (s.hallCmds h).find? fun x => x.2.stages h addr || s.inLedger x.1 h addr

/-- A hall in which an uncorrectable stack error has been counted. -/
def State.countUncorr (s : State) (h : Nat) : State := s.modHall h fun H => { H with hbmUncorr := satAdd 255 H.hbmUncorr 1 }

theorem State.hbmVictim_countUncorr (s : State) (h addr : Nat) : (s.countUncorr h).hbmVictim h addr = s.hbmVictim h addr := by
  have hl (q : Page) : (s.countUncorr h).inLedger q h addr = s.inLedger q h addr := by
    unfold State.inLedger State.countUncorr
    rw [State.hall_modHall_self]
    rfl
  unfold State.hbmVictim
  rw [show (fun x : Page × Cmd => x.2.stages h addr || (s.countUncorr h).inLedger x.1 h addr)
    = fun x => x.2.stages h addr || s.inLedger x.1 h addr from funext fun x => by rw [hl]]
  rfl

theorem State.hbmUncorrectable_kills {s : State} {h addr : Nat} {q : Page} {c : Cmd} (hv : s.hbmVictim h addr = some (q, c)) :
    ∃ e, s.hbmUncorrectable h addr = ((s.countUncorr h).log h e).killCmd q c.slot true := by
  have hv' := (s.hbmVictim_countUncorr h addr).trans hv
  unfold State.hbmVictim at hv'
  refine ⟨⟨3, pageJob q, 0, if c.opcode = opRUN then c.desc.pass else 0xFFFF, addr⟩, ?_⟩
  unfold State.hbmUncorrectable
  dsimp only
  rw [show s.modHall h (fun H => { H with hbmUncorr := satAdd 255 H.hbmUncorr 1 }) = s.countUncorr h from rfl, hv']

theorem State.parts_log (s : State) (h : Nat) (e : LogEnt) : (s.log h e).parts = s.parts := rfl
theorem State.jobs_log (s : State) (h : Nat) (e : LogEnt) : (s.log h e).jobs = s.jobs := rfl
theorem State.parts_modHall (s : State) (h : Nat) (f : Hall → Hall) : (s.modHall h f).parts = s.parts := rfl
theorem State.jobs_modHall (s : State) (h : Nat) (f : Hall → Hall) : (s.modHall h f).jobs = s.jobs := rfl

theorem State.paired_of_parts {s t : State} (e : t.parts = s.parts) (h : Nat) : t.paired h = s.paired h := by
  unfold State.paired State.ownerOf State.part
  rw [e]

/-- Outside a pair no leg leaves. -/
theorem State.poisonLeave_unpaired {s : State} {h : Nat} (hp : s.paired h = none) : s.poisonLeave h = s := by
  unfold State.poisonLeave
  rw [hp]

theorem State.hbmUncorrectable_poisons {s : State} {h addr : Nat} (hv : s.hbmVictim h addr = none) (hp : s.paired h = none) :
    ∃ e, s.hbmUncorrectable h addr = ((s.countUncorr h).modHall h fun H =>
      { H with poison := if H.poison.contains (addr / 32) then H.poison else H.poison ++ [addr / 32] }).log h e := by
  have hv' := (s.hbmVictim_countUncorr h addr).trans hv
  unfold State.hbmVictim at hv'
  refine ⟨⟨3, 0x80, 0, 0xFFFF, addr⟩, ?_⟩
  unfold State.hbmUncorrectable
  dsimp only
  rw [show s.modHall h (fun H => { H with hbmUncorr := satAdd 255 H.hbmUncorr 1 }) = s.countUncorr h from rfl, hv']
  rw [State.poisonLeave_unpaired]
  rw [← hp]
  exact State.paired_of_parts ((State.parts_log ..).trans ((State.parts_modHall ..).trans (State.parts_modHall ..))) h

/-- The list with an entry, once. -/
theorem mem_noted (l : List Nat) (n : Nat) : n ∈ (if l.contains n then l else l ++ [n]) := by
  split
  · next h => exact List.contains_iff_mem.mp h
  · exact List.mem_append_right _ (List.mem_singleton_self n)

/-- What a log entry leaves of the error registers of its hall. -/
theorem State.log_errors (s : State) (h : Nat) (e : LogEnt) :
    ((s.log h e).hall h).poison = (s.hall h).poison ∧ ((s.log h e).hall h).poisonRows = (s.hall h).poisonRows
      ∧ ((s.log h e).hall h).hbmUncorr = (s.hall h).hbmUncorr ∧ ((s.log h e).hall h).uncUncorr = (s.hall h).uncUncorr
      ∧ ((s.log h e).hall h).hbmCorr = (s.hall h).hbmCorr ∧ ((s.log h e).hall h).uncCorr = (s.hall h).uncCorr
      ∧ ((s.log h e).hall h).unc = (s.hall h).unc := by
  have hl := s.hall_log_offLog h e
  generalize (s.log h e).hall h = H at hl
  exact ⟨(congrArg Hall.poison hl :), (congrArg Hall.poisonRows hl :), (congrArg Hall.hbmUncorr hl :),
    (congrArg Hall.uncUncorr hl :), (congrArg Hall.hbmCorr hl :), (congrArg Hall.uncCorr hl :), (congrArg Hall.unc hl :)⟩

theorem State.hall_evidence (s : State) (h n k : Nat) : (s.evidence h n).hall k = s.hall k := by
  rw [State.hall, State.halls_evidence, State.hall]

theorem State.undercroftEcc_poisons {s : State} {h row : Nat} (hp : s.paired h = none)
    (hv : (s.hallCmds h).find? (fun x => x.2.twins h row) = none) (hr : row ∈ (s.hall h).taken) :
    ∃ e, s.undercroftEcc h row false = ((s.modHall h fun H => { H with uncUncorr := satAdd 255 H.uncUncorr 1 }).modHall h fun H =>
      { H with poisonRows := if H.poisonRows.contains row then H.poisonRows else H.poisonRows ++ [row] }).log h e := by
  refine ⟨⟨3, 0x80, row % 64, 0xFFFF, 0⟩, ?_⟩
  have hv' : ((s.modHall h fun H => { H with uncUncorr := satAdd 255 H.uncUncorr 1 }).hallCmds h).find? (fun x => x.2.twins h row)
      = none := hv
  unfold State.undercroftEcc
  rw [if_neg (by simp)]
  dsimp only
  rw [hv']
  dsimp only
  rw [State.hall_modHall_self, if_pos (List.contains_iff_mem.mpr hr)]
  rw [State.poisonLeave_unpaired]
  rw [← hp]
  exact State.paired_of_parts ((State.parts_log ..).trans ((State.parts_modHall ..).trans (State.parts_modHall ..))) h

theorem foldl_max_mem (l : List Nat) (a : Nat) : l.foldl max a = a ∨ l.foldl max a ∈ l := by
  induction l generalizing a with
  | nil => exact .inl rfl
  | cons b l ih =>
    rw [List.foldl_cons]
    rcases ih (max a b) with h | h
    · rcases Nat.le_total a b with hab | hab
      · rw [Nat.max_eq_right hab] at h ⊢
        rw [h]
        exact .inr (List.mem_cons_self ..)
      · rw [Nat.max_eq_left hab] at h ⊢
        exact .inl h
    · exact .inr (List.mem_cons_of_mem _ h)

/-- A window above the limit names a target with the highest count. -/
theorem concWindow_alerts {H : Hall} {counts : List Nat} (h : 8192 < counts.foldl max 0) :
    (concWindow H counts).concAlert = true ∧ (concWindow H counts).concCount = satAdd 0xFFFF H.concCount 1
      ∧ counts.getD (concWindow H counts).concTarget 0 = counts.foldl max 0 := by
  have htop : counts.foldl max 0 ∈ counts := (foldl_max_mem counts 0).resolve_left (by omega)
  have hbest (i : Nat) : i ∈ (List.range counts.length).filter (fun i => counts.getD i 0 == counts.foldl max 0)
      → counts.getD i 0 = counts.foldl max 0 := fun hi => by simpa using (List.mem_filter.mp hi).2
  have hsome : (List.range counts.length).filter (fun i => counts.getD i 0 == counts.foldl max 0) ≠ [] := by
    obtain ⟨i, hi, he⟩ := List.getElem_of_mem htop
    refine List.ne_nil_of_mem (a := i) (List.mem_filter.mpr ⟨List.mem_range.mpr hi, ?_⟩)
    rw [List.getD_eq_getElem _ _ hi, he]
    exact beq_self_eq_true _
  unfold concWindow
  dsimp only
  rw [if_pos h]
  refine ⟨rfl, rfl, ?_⟩
  generalize (List.range counts.length).filter (fun i => counts.getD i 0 == counts.foldl max 0) = best at hbest hsome
  split
  · exact hbest _ (List.mem_singleton_self _)
  · have hlt : Config.tieTarget counts % best.length < best.length := Nat.mod_lt _ (List.length_pos_iff.mpr hsome)
    refine hbest _ ?_
    rw [List.getD_eq_getElem _ _ hlt]
    exact List.getElem_mem hlt

theorem concWindow_hbm (H : Hall) (counts : List Nat) : (concWindow H counts).hbm = H.hbm := by
  unfold concWindow
  dsimp only
  split <;> rfl

/-- Settles O42: each error by what its row does to the hall. -/
theorem memoryErrorsAreCounted : Obligations.MemoryErrorsAreCounted := by
  unfold Obligations.MemoryErrorsAreCounted
  intro s h hok
  refine ⟨fun addr hp hv => ⟨_, congrArg (fun t : State => (.next t : Out)) (if_pos hok), ?_⟩, fun g hz => ⟨_, next_live hz _, ?_⟩,
    fun g n hz hn => ?_, fun row => ⟨_, congrArg (fun t : State => (.next t : Out)) (if_pos hok), ?_⟩,
    fun row hp hv hr => ⟨_, congrArg (fun t : State => (.next t : Out)) (if_pos hok), ?_⟩,
    fun target => ⟨_, congrArg (fun t : State => (.next t : Out)) (if_pos hok), ?_⟩,
    fun counts => ⟨_, congrArg (fun t : State => (.next t : Out)) (if_pos hok), ?_⟩⟩
  · obtain ⟨e, he⟩ := State.hbmUncorrectable_poisons hv hp
    rw [he]
    obtain ⟨hpoison, -, hcount, -⟩ := State.log_errors ((s.countUncorr h).modHall h fun H =>
      { H with poison := if H.poison.contains (addr / 32) then H.poison else H.poison ++ [addr / 32] }) h e
    rw [hpoison, hcount, State.hall_modHall_self, State.countUncorr, State.hall_modHall_self]
    exact ⟨mem_noted .., rfl, (State.jobs_log ..).trans ((State.jobs_modHall ..).trans (State.jobs_modHall ..))⟩
  · beta_reduce
    rw [if_neg (by simp [hok]), if_pos rfl]
    obtain ⟨hpoison, -, -, -, hcorr, -, -⟩ := State.log_errors (s.modHall h fun H => { H with hbmCorr := satAdd 0xFFFF H.hbmCorr 1 }) h
      ⟨2, 0, 0, 0xFFFF, 32 * g⟩
    rw [State.hall_evidence, hpoison, hcorr, State.hall_modHall_self]
    exact ⟨rfl, rfl⟩
  · refine (next_live hz _).trans (congrArg (fun t : State => (.next t : Out)) ?_)
    beta_reduce
    rw [if_neg (by simp [hok]; omega), if_neg (by omega), if_pos hok]
  · obtain ⟨-, -, -, -, -, hcorr, hunc⟩ := State.log_errors (s.modHall h fun H => { H with uncCorr := satAdd 0xFFFF H.uncCorr 1 }) h
      ⟨2, 0, row % 64, 0xFFFF, 0⟩
    unfold State.undercroftEcc
    rw [if_pos rfl, State.hall_evidence, hcorr, hunc, State.hall_modHall_self]
    exact ⟨rfl, rfl⟩
  · obtain ⟨e, he⟩ := State.undercroftEcc_poisons hp hv hr
    rw [he]
    obtain ⟨-, hpoison, -, hcount, -⟩ := State.log_errors ((s.modHall h fun H => { H with uncUncorr := satAdd 255 H.uncUncorr 1 }).modHall h
      fun H => { H with poisonRows := if H.poisonRows.contains row then H.poisonRows else H.poisonRows ++ [row] }) h e
    rw [hpoison, hcount, State.hall_modHall_self, State.hall_modHall_self]
    exact ⟨mem_noted .., rfl, (State.jobs_log ..).trans ((State.jobs_modHall ..).trans (State.jobs_modHall ..))⟩
  · refine ⟨(s.log_errors h (LogEnt.of 0x0A target)).1, ?_, rfl⟩
    rw [State.log, State.hall_modHall_self]
    unfold Hall.xlog
    split <;> rfl
  · rw [State.hall_modHall_self]
    exact ⟨concWindow_hbm .., concWindow_alerts⟩

end Sys2Proof.Machine
end

section
/-! PROOFS. Kills by faults, strikes, and lost halls. -/

namespace Sys2Proof.Machine

/-! ### A kill -/

/-- A command with the counts of another is killed where that one is. -/
theorem Killed.of_counts {q : Page} {c d : Cmd} {t : State} (h : Killed q d t) (hs : d.slot = c.slot) (hk : d.kills = c.kills)
    (hf : d.faultKills = c.faultKills) : Killed q c t := by
  unfold Killed at *
  rw [hs, hk, hf] at h
  exact h

/-- A fault kills a dispatched command, which waits for its re-run and holds no semaphore. -/
theorem State.killCmd_killed {s : State} {q : Page} {c : Cmd} (hc : s.cmd? q c.slot = some c) (hd : c.dispatched = true)
    (hk : c.faultKills < 15) : s.killCmd q c.slot true = (s.killing q c true).rehold (pageFn q) ∧ Killed q c (s.killCmd q c.slot true) := by
  have he : s.killCmd q c.slot true = (s.killing q c true).rehold (pageFn q) := by
    rw [State.killCmd_eq hc rfl hd]
    exact if_neg (by simp; omega)
  refine ⟨he, ?_⟩
  rw [he]
  unfold Killed
  rw [State.rehold_cmd?, State.cmd?_killing true hc rfl]
  refine ⟨rfl, fun n => ?_⟩
  have hsems : (((s.killing q c true).rehold (pageFn q)).part (pageFn q)).sems = ((s.part (pageFn q)).releaseAll (q, c.slot)).sems := by
    rw [((HolderFrame.refl (s.killing q c true)).rehold (pageFn q)).sems, State.part_killing]
    rfl
  unfold Part.sem
  rw [hsems]
  exact Part.holder_releaseAll (s.part (pageFn q)) (q, c.slot) n

theorem Job.fields_haltedAfter {j k : Job} {c : Cmd} {code : Nat} (e : j.offSlice = (k.haltedAfter c code).offSlice) :
    j.cmds = [] ∧ j.halted = true ∧ j.haltCode = code :=
  ⟨(congrArg Job.cmds e :), (congrArg Job.halted e :), (congrArg Job.haltCode e :)⟩

/-- The sixteenth kill in a row fails the command, and halts its queue. -/
theorem State.killCmd_fails {s : State} {q : Page} {c : Cmd} (hc : s.cmd? q c.slot = some c) (hd : c.dispatched = true)
    (hk : 15 ≤ c.faultKills) (ho : (s.job q).cmds = [c]) (hf : (s.job q).cqFull = false) :
    ((s.killCmd q c.slot true).job q).cmds = [] ∧ ((s.killCmd q c.slot true).job q).halted = true
      ∧ ((s.killCmd q c.slot true).job q).haltCode = 0x0901 := by
  have he : s.killCmd q c.slot true = (s.killing q c true).failCmd q c.slot 0x0901 0xFFFF := by
    rw [State.killCmd_eq hc rfl hd]
    exact if_pos (by simp; omega)
  have hj : ((s.killing q c true).job q).cmds = [c.killed true] := by
    rw [State.job_killing, Job.modCmd, ho, List.map_singleton, if_pos rfl]
    rfl
  have hfull : ((s.killing q c true).job q).cqFull = false := by
    rw [State.job_killing]
    exact hf
  have hafter := State.job_failCmd_oldest 0x0901 0xFFFF hj rfl hfull (by decide)
  rw [he]
  exact Job.fields_haltedAfter hafter

/-- A change of a hall that keeps its jobs. -/
theorem State.hall_jobs_modHall (s : State) (h : Nat) {f : Hall → Hall} (hf : ∀ H, (f H).jobs = H.jobs) (k : Nat) :
    ((s.modHall h f).hall k).jobs = (s.hall k).jobs := by
  rw [State.hall_modHall]
  split
  · next e => rw [hf, e]
  · rfl

theorem State.hall_jobs_countRerun (s : State) (q : Page) (c : Cmd) (k : Nat) : ((s.countRerun q c).hall k).jobs = (s.hall k).jobs := by
  unfold State.countRerun
  split
  · exact List.foldl_keeps (fun t : State => (t.hall k).jobs) (fun t h => t.hall_jobs_modHall h (fun _ => by rfl) k) ..
  · rfl

theorem State.hall_jobs_stopImage (s : State) (q : Page) (n k : Nat) : ((s.stopImage q n).hall k).jobs = (s.hall k).jobs := by
  unfold State.stopImage
  exact List.foldl_keeps (fun t : State => (t.hall k).jobs) (fun t h => t.hall_jobs_modHall h (fun _ => by rfl) k) ..

theorem State.hall_jobs_dropAttempt (s : State) (q : Page) (slot k : Nat) : ((s.dropAttempt q slot).hall k).jobs = (s.hall k).jobs := by
  unfold State.dropAttempt
  dsimp only
  rw [State.modCmd, State.hall_modJob]
  split
  · split
    · exact State.hall_jobs_stopImage ..
    · rfl
  · rfl

/-- A kill leaves the ledgers. -/
theorem State.killing_ledger (s : State) (q : Page) (c : Cmd) (fault : Bool) (k j : Nat) :
    ((s.killing q c fault).hall k).job j = (s.hall k).job j := by
  have h : ((s.killing q c fault).hall k).jobs = (s.hall k).jobs :=
    (State.hall_jobs_dropAttempt (s.countRerun q c) q c.slot k).trans (s.hall_jobs_countRerun q c k)
  unfold Hall.job
  rw [h]

/-! ### What the loss of a hall leaves of the halls -/

/-- Halls keep all but what waits in their queues, ports and ledgers. -/
structure HallsStand (s t : State) : Prop where
  hall : ∀ k, (t.hall k).offQueue = (s.hall k).offQueue

namespace HallsStand

variable {s t u : State}

theorem refl (s : State) : HallsStand s s := ⟨fun _ => rfl⟩

theorem queue (h : HallsStand s t) (f : QueueFrame t u) : HallsStand s u := ⟨fun k => (f.hall k).trans (h.hall k)⟩

theorem of_halls (h : HallsStand s t) (e : u.halls = t.halls) : HallsStand s u :=
  ⟨fun k => by rw [State.hall, e]; exact h.hall k⟩

theorem foldl {α : Type} {f : State → α → State} (h : HallsStand s t) (hf : ∀ t a, HallsStand s t → HallsStand s (f t a))
    (l : List α) : HallsStand s (l.foldl f t) := by
  induction l generalizing t with
  | nil => exact h
  | cons a l ih =>
    rw [List.foldl_cons]
    exact ih (hf t a h)

theorem ite {c : Prop} [Decidable c] (ht : HallsStand s t) (hu : HallsStand s u) : HallsStand s (if c then t else u) := by
  split
  · exact ht
  · exact hu

theorem modHall (h : HallsStand s t) (n : Nat) {f : Hall → Hall} (hf : ∀ H, (f H).offQueue = H.offQueue) :
    HallsStand s (t.modHall n f) := ⟨fun k => by
  rw [State.hall_modHall]
  split
  · next e => rw [hf, e, h.hall]
  · exact h.hall k⟩

theorem modPart (h : HallsStand s t) (v : Fn) (f : Part → Part) : HallsStand s (t.modPart v f) := ⟨h.hall⟩
theorem modJob (h : HallsStand s t) (q : Page) (f : Job → Job) : HallsStand s (t.modJob q f) := ⟨h.hall⟩
theorem modPort (h : HallsStand s t) (k i : Nat) (f : Port → Port) : HallsStand s (t.modPort k i f) := h.modHall k fun _ => by rfl

theorem log (h : HallsStand s t) (k : Nat) (e : LogEnt) : HallsStand s (t.log k e) := h.modHall k fun H => by
  unfold Hall.xlog
  split <;> rfl

theorem logPart (h : HallsStand s t) (v : Fn) (e : LogEnt) : HallsStand s (t.logPart v e) := h.foldl (fun _ _ h => h.log ..) _

theorem enqueue (h : HallsStand s t) (fs : List Frame) : HallsStand s (t.enqueue fs) := by
  unfold State.enqueue
  exact h.foldl (fun _ _ h => h.modPort ..) _

theorem digestOver (h : HallsStand s t) (v : Fn) (r : HallRoute) (x : XHdr) (data : List Byte) (relay : Option (Nat × Nat)) :
    HallsStand s (t.digestOver v r x data relay) := by
  unfold State.digestOver
  exact (h.enqueue _).modPart ..

theorem failAll (h : HallsStand s t) (v : Fn) (code : Nat) : HallsStand s (t.failAll v code) := by
  unfold State.failAll
  refine h.foldl (fun t q h => ?_) _
  split
  · exact h
  · exact ite h (h.queue ((QueueFrame.refl t).failCmd ..))

theorem retireLeg (h : HallsStand s t) (v : Fn) : HallsStand s (t.retireLeg v) := by
  unfold State.retireLeg State.haltAll
  exact foldl (failAll (modPart (h.foldl (fun _ _ h => h.digestOver ..) _) ..) ..) (fun _ _ h => h.modJob ..) _

theorem leavePair (h : HallsStand s t) (v : Fn) : HallsStand s (t.leavePair v) := by
  unfold State.leavePair
  exact ite (h.retireLeg v) h

theorem standAlone (h : HallsStand s t) (v : Fn) (cause : Nat) : HallsStand s (t.standAlone v cause) := by
  unfold State.standAlone
  exact ite (logPart (modPart (h.foldl (fun _ _ h => h.modHall _ fun _ => by rfl) _) ..) ..) h

theorem notify (h : HallsStand s t) (what k : Nat) : HallsStand s (t.notify what k) := by
  unfold State.notify State.emitChain
  split
  · exact h
  · exact h
  · exact ⟨h.hall⟩

end HallsStand

/-- The state in which a hall has been gated and its bit taken from the map. -/
abbrev State.gated (s : State) (h : Nat) : State := { s.modHall h Hall.gate with hallmap := s.hallmap &&& ~~~(1#8 <<< h) }

theorem QuietPorts.notify {s t : State} (h : QuietPorts s t) (what k : Nat) : QuietPorts s (t.notify what k) := by
  unfold State.notify State.emitChain
  split
  · exact h
  · exact h
  · exact ⟨h.same⟩

theorem State.ringDown_other (s : State) {h k i : Nat} (hk : h ≠ k) : (s.ringDown k i).hall h = s.hall h := by
  unfold State.ringDown State.portDown
  split
  · rw [State.hall_log_other _ _ _ hk, State.hall_modPort_other _ _ _ _ hk]
  · rfl

/-- The loss of a hall, after its gating and the fall of the ring ports that face it, leaves every port but for its queue,
and what stands in the halls. -/
theorem State.loseHall_gated {s : State} {h : Nat} (hok : s.hallOk h = true) :
    ∃ u, u.hall h = (s.hall h).gate ∧ HallsStand u (s.loseHall h) ∧ QuietPorts u (s.loseHall h) := by
  have hh : h < 8 := by
    by_contra hh
    rw [State.hallOk, BitVec.getLsbD_of_ge _ _ (by omega)] at hok
    cases hok
  refine ⟨((s.gated h).ringDown ((h + 7) % 8) 4).ringDown ((h + 1) % 8) 3, ?_, ?_, ?_⟩
  · rw [State.ringDown_other _ (by omega), State.ringDown_other _ (by omega), State.gated]
    exact State.hall_modHall_self ..
  all_goals
    unfold State.loseHall
    rw [if_pos hok]
    dsimp only
  · have hn (l : List Nat) (e : LogEnt) := ((HallsStand.refl (((s.gated h).ringDown ((h + 7) % 8) 4).ringDown ((h + 1) % 8) 3)).foldl (f := fun s k => s.log k e) (fun _ _ h => h.log ..) l).notify 2 h
    split
    · exact hn ..
    · split
      · exact (HallsStand.ite ((hn ..).leavePair _) ((hn ..).failAll ..)).standAlone ..
      · exact HallsStand.ite ((hn ..).leavePair _) ((hn ..).failAll ..)
  · have hn (l : List Nat) (e : LogEnt) := ((QuietPorts.refl (((s.gated h).ringDown ((h + 7) % 8) 4).ringDown ((h + 1) % 8) 3)).foldl (f := fun s k => s.log k e) (fun _ _ h => h.log ..) l).notify 2 h
    split
    · exact hn ..
    · split
      · exact (QuietPorts.ite ((hn ..).leavePair _) ((hn ..).failAll ..)).standAlone ..
      · exact QuietPorts.ite ((hn ..).leavePair _) ((hn ..).failAll ..)

theorem Hall.gal_gate (H : Hall) (g : Nat) : H.gate.gal g = { H.gal g with powered := false } :=
  tabGet_map Gal.reset (fun x : Gal => { x with powered := false }) rfl H.gals g

theorem Hall.port_gate (H : Hall) (i : Nat) : (H.gate.port i).up = false :=
  congrArg Port.up (tabGet_map Port.reset (fun p : Port => { p with up := false, training := false, lanes := 0, offer := 0 }) rfl H.ports i)

theorem HallsStand.gal {s t : State} (h : HallsStand s t) (k g : Nat) : (t.hall k).gal g = (s.hall k).gal g := by
  have e : (t.hall k).gals = (s.hall k).gals := (congrArg Hall.gals (h.hall k) :)
  unfold Hall.gal
  rw [e]

theorem State.loseHall_hallOk (s : State) (h : Nat) : (s.loseHall h).hallOk h = false := by
  rw [State.hallOk_cleared (s.loseHall_device h)]
  simp

/-- A hall that is lost is out of service: gated, and its ports silent. -/
theorem State.loseHall_leaves {s : State} {h : Nat} (hok : s.hallOk h = true) :
    ((s.loseHall h).hall h).present = false ∧ ((s.loseHall h).hall h).domains = 0
      ∧ ∀ i, (((s.loseHall h).hall h).port i).up = false := by
  obtain ⟨u, hu, hstand, hquiet⟩ := State.loseHall_gated hok
  have hhall := hstand.hall h
  refine ⟨?_, ?_, fun i => ?_⟩
  · exact (congrArg Hall.present hhall :).trans (by rw [hu]; rfl)
  · exact (congrArg Hall.domains hhall :).trans (by rw [hu]; rfl)
  · exact (congrArg Port.up (hquiet.same h i) :).trans (by rw [hu]; exact Hall.port_gate ..)

/-- What the loss of a hall leaves of its galleries. -/
theorem State.loseHall_gal (s : State) (h g : Nat) :
    (((s.loseHall h).hall h).gal g).mismatch = ((s.hall h).gal g).mismatch
      ∧ (((s.loseHall h).hall h).gal g).fenced = ((s.hall h).gal g).fenced
      ∧ (((s.hall h).gal g).powered = false → (((s.loseHall h).hall h).gal g).powered = false) := by
  by_cases hok : s.hallOk h = true
  · obtain ⟨u, hu, hstand, -⟩ := State.loseHall_gated hok
    rw [hstand.gal, hu, Hall.gal_gate]
    exact ⟨rfl, rfl, fun _ => rfl⟩
  · unfold State.loseHall
    rw [if_neg hok]
    exact ⟨rfl, rfl, id⟩

/-! ### Strikes (R88, R89) -/

theorem State.gal_modGal (s : State) (h g k : Nat) (f : Gal → Gal) :
    ((s.modGal h g f).hall h).gal k = if k = g then f ((s.hall h).gal g) else (s.hall h).gal k := by
  rw [State.modGal, State.hall_modHall_self, Hall.gal_putGal]

theorem State.gal_modHall (s : State) (h k : Nat) {f : Hall → Hall} (hf : ∀ H, (f H).gals = H.gals) (n : Nat) :
    ((s.modHall h f).hall n).gal k = (s.hall n).gal k := by
  rw [State.hall_modHall]
  split
  · next e => rw [e, Hall.gal, hf]; rfl
  · rfl

theorem Hall.gals_xlog (H : Hall) (now : DWord) (e : LogEnt) : (H.xlog now e).gals = H.gals := by
  unfold Hall.xlog
  split <;> rfl

/-- A spare that takes a bay changes no other gallery. -/
theorem State.reloadBay_other (s : State) (h f : Nat) (e : Nat × Bay) {g : Nat} (hg : g ≠ f) :
    ((s.reloadBay h f e).hall h).gal g = (s.hall h).gal g := by
  have hcount (t : State) (p : Option Plan) (d : TDesc) (c : Int) (n : Nat) : ((t.countHall h p d c n).hall h).gal g = (t.hall h).gal g := by
    unfold State.countHall
    split
    · exact State.gal_modHall _ _ _ (fun _ => by rfl) _
    · rfl
  unfold State.reloadBay
  dsimp only
  split
  · rfl
  split
  · rfl
  split
  · rfl
  rw [hcount, State.gal_modGal, if_neg hg]

/-- The state in which a gallery has been fenced, before a spare takes its place. -/
def State.fencing (s : State) (h g job pass : Nat) : State :=
  ((s.modGal h g fun x => { x with fenced := true, powered := false, serves := none }).modHall h fun H =>
    { H with raising := H.raising.filter (· != g) }).log h ⟨5, job, g, pass, 0⟩

theorem State.fencing_gal (s : State) (h g job pass : Nat) :
    ((s.fencing h g job pass).hall h).gal g = { (s.hall h).gal g with fenced := true, powered := false, serves := none } := by
  unfold State.fencing State.log
  rw [State.gal_modHall _ _ _ (fun H => Hall.gals_xlog ..), State.gal_modHall _ _ _ (fun _ => by rfl), State.gal_modGal, if_pos rfl]

/-- A fenced gallery is out of power, whatever takes its place. -/
theorem State.fenceGal_gal (s : State) (h g job pass : Nat) :
    (((s.fenceGal h g job pass).hall h).gal g).mismatch = ((s.hall h).gal g).mismatch
      ∧ (((s.fenceGal h g job pass).hall h).gal g).fenced = true
      ∧ (((s.fenceGal h g job pass).hall h).gal g).powered = false := by
  have hg := s.fencing_gal h g job pass
  unfold State.fencing at hg
  unfold State.fenceGal
  dsimp only
  generalize State.log _ h ⟨5, job, g, pass, 0⟩ = u at hg
  split
  · next f hf =>
    have hne : g ≠ f := fun e => by
      have hfree := List.find?_some hf
      rw [← e, hg] at hfree
      simp at hfree
    have hbays (l : List (Nat × Bay)) (t : State) : ((l.foldl (fun s e => s.reloadBay h f e) t).hall h).gal g = (t.hall h).gal g :=
      List.foldl_keeps (fun t : State => (t.hall h).gal g) (fun t e => t.reloadBay_other h f e hne) l t
    rw [hbays, State.gal_modHall _ _ _ (fun _ => by rfl), State.gal_modGal, if_neg hne, hg]
    exact ⟨rfl, rfl, rfl⟩
  · obtain ⟨hm, hf, hp⟩ := u.loseHall_gal h g
    rw [hg] at hm hf hp
    exact ⟨hm, hf, hp rfl⟩

/-- The state in which a strike has been counted, a second one within the window or not. -/
def State.struck (s : State) (h g job pass : Nat) (again : Bool) : State :=
  ((s.modGal h g fun y =>
    { y with mismatch := satAdd 255 y.mismatch 1, strikes := if again then 2 else 1,
             firstStrike := if again then y.firstStrike else (s.hall h).commits }).modHall h fun H =>
    { H with stepStrikes := H.stepStrikes + 1 }).log h ⟨4, job, g, pass, 0⟩

theorem State.struck_gal (s : State) (h g job pass : Nat) (again : Bool) :
    ((s.struck h g job pass again).hall h).gal g = { (s.hall h).gal g with
      mismatch := satAdd 255 ((s.hall h).gal g).mismatch 1, strikes := if again then 2 else 1,
      firstStrike := if again then ((s.hall h).gal g).firstStrike else (s.hall h).commits } := by
  unfold State.struck State.log
  rw [State.gal_modHall _ _ _ (fun H => Hall.gals_xlog ..), State.gal_modHall _ _ _ (fun _ => by rfl), State.gal_modGal, if_pos rfl]

/-- A second strike within the window. -/
def State.strikesAgain (s : State) (h g : Nat) : Bool :=
  decide (1 ≤ ((s.hall h).gal g).strikes) && decide ((s.hall h).commits - ((s.hall h).gal g).firstStrike < s.strikeWin h)

theorem State.strike_eq (s : State) (h g job pass : Nat) :
    s.strike h g job pass true = if s.strikesAgain h g then (s.struck h g job pass true).fenceGal h g job pass
      else s.struck h g job pass false := by
  unfold State.strike
  dsimp only
  rw [show (decide (1 ≤ ((s.hall h).gal g).strikes) && decide ((s.hall h).commits - ((s.hall h).gal g).firstStrike < s.strikeWin h))
    = s.strikesAgain h g from rfl]
  cases s.strikesAgain h g <;> rfl

/-- A strike is counted; a second one within the window fences the gallery. -/
theorem State.strike_gal (s : State) (h g job pass : Nat) :
    (((s.strike h g job pass true).hall h).gal g).mismatch = satAdd 255 ((s.hall h).gal g).mismatch 1
      ∧ (s.strikesAgain h g = true →
        (((s.strike h g job pass true).hall h).gal g).fenced = true ∧ (((s.strike h g job pass true).hall h).gal g).powered = false) := by
  rw [State.strike_eq]
  split
  · obtain ⟨hm, hf, hp⟩ := (s.struck h g job pass true).fenceGal_gal h g job pass
    rw [hm, State.struck_gal]
    exact ⟨rfl, fun _ => ⟨hf, hp⟩⟩
  · next hn =>
    rw [State.struck_gal]
    exact ⟨rfl, fun hy => absurd hy hn⟩

/-- A gallery's first strike fences nothing. -/
theorem State.strike_first {s : State} {h g : Nat} (job pass : Nat) (h0 : ((s.hall h).gal g).strikes = 0) :
    s.strike h g job pass true = s.struck h g job pass false := by
  rw [State.strike_eq, if_neg]
  unfold State.strikesAgain
  rw [h0]
  simp

/-! ### Residue mismatches (R265) -/

/-- The state in which a residue mismatch of a Newel lane has been counted. -/
def State.residueCounted (s : State) (h job pass lane : Nat) : State :=
  (s.modHall h fun H =>
    { H with nwlResidue := satAdd 255 H.nwlResidue 1,
             resStrike := (lane, H.allCommits) :: H.resStrike.filter (·.1 != lane) }).log h ⟨7, job, lane, pass, 0⟩

theorem State.residueHit_cases (s : State) (h job pass lane : Nat) :
    ((s.hall h).resStrike.find? (·.1 == lane) = none → s.residueHit h job pass 0 lane = s.residueCounted h job pass lane)
      ∧ ∀ e, (s.hall h).resStrike.find? (·.1 == lane) = some e → s.residueHit h job pass 0 lane
        = if (s.hall h).allCommits - e.2 < 1048576 then (s.residueCounted h job pass lane).loseHall h else s.residueCounted h job pass lane := by
  have hkey : 64 * 0 + lane = lane := by omega
  unfold State.residueHit
  dsimp only
  rw [hkey]
  refine ⟨fun hn => ?_, fun e he => ?_⟩
  · rw [hn]
    rfl
  · rw [he]
    rfl

theorem State.residueCounted_nwl (s : State) (h job pass lane : Nat) :
    ((s.residueCounted h job pass lane).hall h).nwlResidue = satAdd 255 (s.hall h).nwlResidue 1 := by
  unfold State.residueCounted
  have hl := State.hall_log_offLog (s.modHall h fun H =>
    { H with nwlResidue := satAdd 255 H.nwlResidue 1, resStrike := (lane, H.allCommits) :: H.resStrike.filter (·.1 != lane) }) h
    ⟨7, job, lane, pass, 0⟩
  generalize (State.log _ h ⟨7, job, lane, pass, 0⟩).hall h = H at hl
  rw [State.hall_modHall_self] at hl
  exact (congrArg Hall.nwlResidue hl :)

theorem State.loseHall_nwl (s : State) (h : Nat) : ((s.loseHall h).hall h).nwlResidue = (s.hall h).nwlResidue := by
  by_cases hok : s.hallOk h = true
  · obtain ⟨u, hu, hstand, -⟩ := State.loseHall_gated hok
    exact (congrArg Hall.nwlResidue (hstand.hall h) :).trans (by rw [hu]; rfl)
  · unfold State.loseHall
    rw [if_neg hok]

/-- A residue mismatch is counted, whether or not it loses the hall. -/
theorem State.residueHit_nwl (s : State) (h job pass lane : Nat) :
    ((s.residueHit h job pass 0 lane).hall h).nwlResidue = satAdd 255 (s.hall h).nwlResidue 1 := by
  obtain ⟨hfirst, hagain⟩ := s.residueHit_cases h job pass lane
  cases hf : (s.hall h).resStrike.find? (·.1 == lane) with
  | none => rw [hfirst hf, State.residueCounted_nwl]
  | some e =>
    rw [hagain e hf]
    split
    · rw [State.loseHall_nwl, State.residueCounted_nwl]
    · exact State.residueCounted_nwl ..

/-! ### O41 -/

/-- What a kill of a command leaves of the halls and of the device. -/
theorem State.killCmd_stands (s : State) (q : Page) (slot : Nat) :
    HallsStand s (s.killCmd q slot true) ∧ SameDevice s (s.killCmd q slot true) :=
  ⟨(HallsStand.refl s).queue ((QueueFrame.refl s).killCmd ..), (SameDevice.refl s).killCmd ..⟩

/-- The command of an operation, after the operation's work. -/
theorem OpFrame.cmd {q : Page} {slot : Nat} {U : List Use} {s t : State} (h : OpFrame q slot U s t) {c : Cmd} (hc : s.cmd? q slot = some c) :
    ∃ d, t.cmd? q slot = some d ∧ d.slot = c.slot ∧ d.phase = c.phase ∧ d.kills = c.kills ∧ d.faultKills = c.faultKills := by
  have hown := congrArg (fun j : Job => j.cmd? slot) h.own
  unfold Job.offWork at hown
  rw [Job.cmd?_modCmd _ _ (fun c => { c with att := c.att.offWork }) (fun _ => rfl),
    Job.cmd?_modCmd _ _ (fun c => { c with att := c.att.offWork }) (fun _ => rfl)] at hown
  rw [show (s.job q).cmd? slot = some c from hc, Option.map_some] at hown
  obtain ⟨d, hd, e⟩ := Option.map_eq_some_iff.mp hown
  have hf : ∀ b : Cmd, (if b.slot = slot then { b with att := b.att.offWork } else b).slot = b.slot
      ∧ (if b.slot = slot then { b with att := b.att.offWork } else b).phase = b.phase
      ∧ (if b.slot = slot then { b with att := b.att.offWork } else b).kills = b.kills
      ∧ (if b.slot = slot then { b with att := b.att.offWork } else b).faultKills = b.faultKills := fun b => by
    split <;> exact ⟨rfl, rfl, rfl, rfl⟩
  obtain ⟨hs, hp, hk, hfk⟩ := hf d
  obtain ⟨hs', hp', hk', hfk'⟩ := hf c
  rw [e] at hs hp hk hfk
  exact ⟨d, hd, hs.symm.trans hs', hp.symm.trans hp', hk.symm.trans hk', hfk.symm.trans hfk'⟩

/-- A pass whose turn it is has a kill for its end when one observed mismatch strikes its gallery. -/
theorem matEnd_kills {x : OpCtx} {o : MatOp} {u : Upset} {s : State} {m : MatRun} {t : State} {g : Nat} (hm : s.matpass x o = .ok m)
    (hb : m.bad = []) (hh : m.hold = false) (hd : (m.close x o).drain x = .ok t) (hu : u.mismatch = [g]) (hp : u.parity = [])
    (hg : g ∈ (s.hall x.hall).galsOf o.gals) : matEnd x o u s = .kill (t.strike x.hall g x.job x.pass true) := by
  have hpar (gs : List Nat) : t.parityHits s x gs u = (t, false) := by
    unfold State.parityHits
    rw [hp]
    rfl
  unfold matEnd
  rw [hm]
  dsimp only
  rw [hh, if_neg (by simp), hd, hb, hu]
  dsimp only
  rw [hpar, List.nil_append, List.filter_cons, if_pos (List.contains_iff_mem.mpr hg)]
  rfl

theorem matTurn_kills {x : OpCtx} {o : MatOp} {u : Upset} {s t : State} (n : Nat) (hop : x.op = .matpass o)
    (he : matEnd x o u s = .kill t) : matTurn u (n + 1) x s = (x, .kill t) := by
  unfold matTurn
  rw [hop]
  dsimp only
  rw [he]

/-- The row of a Newel operation ends with a kill when a residue mismatch was observed. -/
theorem newelRow_kills {s t : State} {a : Site} {u : Upset} {x : OpCtx} {o : NewelOp} {k lane : Nat}
    (hat : AtTurn s a (fun _ => Op.isNewel k) x) (hop : x.op = .newel o) (hn : s.newel x o = .ok t) (hu : u.residue = some lane) :
    newelRow k a u s = .next ((s.residueHit x.hall x.job x.pass 0 lane).killCmd x.page x.slot true) := by
  unfold newelRow
  refine (runOp_atTurn hat _ ?_).trans ?_
  · rw [hop]
    dsimp only
    rw [hu, hn]
    exact fun _ => OpEnd.noConfusion
  · rw [hop]
    dsimp only
    rw [hu, hn]
    rfl

/-- Settles O41: each fault by what its row does to its command and its hall. -/
theorem lostHallsLeaveService : Obligations.LostHallsLeaveService := by
  unfold Obligations.LostHallsLeaveService
  refine ⟨?_, ?_, fun s h addr q c hok hv hc => ⟨_, congrArg (fun t : State => (.next t : Out)) (if_pos hok), ?_⟩,
    fun s h hok => ⟨⟨_, rfl, s.loseHall_hallOk h, State.loseHall_leaves hok⟩, fun q c rest hz hc hw hh => ⟨_, next_live hz _, ?_⟩⟩⟩
  · intro s a u x o k g c m t1 hc hat hop hm hbad hhold hdrain hmis hpar hg G
    obtain ⟨-, -, -, -, hcmd, hrun, -, -, -, -, -, hplace⟩ := opAt_spec hat.2
    obtain ⟨hpage, hslot, -⟩ := opAt_spec hat.2
    have hlen : ∃ n, (x.plan.passOps x.lh x.pass).length = n + 1 :=
      ⟨(x.plan.passOps x.lh x.pass).length - 1, by have := (List.getElem?_eq_some_iff.mp hplace).1; simp only [OpCtx.pass] at *; omega⟩
    obtain ⟨n, hn⟩ := hlen
    have hend := matTurn_kills n hop (matEnd_kills hm hbad hhold hdrain hmis hpar hg)
    rw [← hn] at hend
    have hrow := matRow_atTurn hat hend (fun t => by simp)
    have hexec : exec (c a u) s = .next ((t1.strike x.hall g x.job x.pass true).killCmd x.page x.slot true) := by
      simp only [List.mem_cons, Prod.mk.injEq, List.not_mem_nil, or_false] at hc
      rcases hc with ⟨rfl, rfl⟩ | ⟨rfl, rfl⟩ | ⟨rfl, rfl⟩ | ⟨rfl, rfl⟩ <;> exact hrow
    obtain ⟨hmism, hfence⟩ := t1.strike_gal x.hall g x.job x.pass
    have hstand := (State.killCmd_stands (t1.strike x.hall g x.job x.pass true) x.page x.slot).1.gal x.hall g
    refine ⟨_, hexec, by rw [hstand]; exact hmism, fun h0 hk => ?_, fun h1 hw => by rw [hstand]; exact hfence (Bool.and_eq_true_iff.mpr ⟨decide_eq_true h1, decide_eq_true hw⟩)⟩
    have hworks : x.Works s t1 := OpFrame.drain (MatRun.close_works (OpFrame.matpass (.refl s) o m hm) o) t1 hdrain
    obtain ⟨d, hd, hds, hdp, hdk, hdf⟩ := hworks.cmd (c := x.cmd) (by rw [hpage, hslot]; exact hcmd)
    have hxs : x.cmd.slot = x.slot := (State.slot_of_cmd? hcmd).trans hslot.symm
    rw [hstand]
    refine ⟨?_, ?_, ?_⟩
    · rw [State.strike_first _ _ h0, State.struck_gal]
      rfl
    · rw [State.strike_first _ _ h0, State.struck_gal]
    · rw [State.strike_first _ _ h0]
      have hkill := (State.killCmd_killed (s := t1.struck x.hall g x.job x.pass false) (q := x.page) (c := d)
        (by rw [hds, hxs]; exact hd) (by rw [Cmd.dispatched, hdp, hrun]) (by omega)).2
      rw [hds, hxs] at hkill
      exact hkill.of_counts hds hdk hdf
  · intro s a u x o k lane c t1 hc hat hop hn hres H
    obtain ⟨hpage, hslot, -, -, hcmd, hrun, -⟩ := opAt_spec hat.2
    have hxs : x.cmd.slot = x.slot := (State.slot_of_cmd? hcmd).trans hslot.symm
    have hexec : exec (c a u) s = .next ((s.residueHit x.hall x.job x.pass 0 lane).killCmd x.page x.slot true) := by
      have hrow := newelRow_kills hat hop hn hres
      simp only [List.mem_cons, Prod.mk.injEq, List.not_mem_nil, or_false] at hc
      rcases hc with ⟨rfl, rfl⟩ | ⟨rfl, rfl⟩ | ⟨rfl, rfl⟩ | ⟨rfl, rfl⟩ | ⟨rfl, rfl⟩ | ⟨rfl, rfl⟩ | ⟨rfl, rfl⟩ | ⟨rfl, rfl⟩ | ⟨rfl, rfl⟩
        | ⟨rfl, rfl⟩ | ⟨rfl, rfl⟩ | ⟨rfl, rfl⟩ | ⟨rfl, rfl⟩ | ⟨rfl, rfl⟩ <;> exact hrow
    obtain ⟨hstand, hdev⟩ := State.killCmd_stands (s.residueHit x.hall x.job x.pass 0 lane) x.page x.slot
    obtain ⟨hfirst, hagain⟩ := s.residueHit_cases x.hall x.job x.pass lane
    refine ⟨_, hexec, (congrArg Hall.nwlResidue (hstand.hall x.hall) :).trans (s.residueHit_nwl ..), fun hnone hk => ?_, fun n hf hw => ?_⟩
    · rw [hfirst hnone]
      have hkill := (State.killCmd_killed (s := s.residueCounted x.hall x.job x.pass lane) (q := x.page) (c := x.cmd)
        (by rw [hxs, hpage, hslot]; exact hcmd) (by rw [Cmd.dispatched, hrun]) hk).2
      rw [hxs] at hkill
      exact hkill
    · rw [hagain _ hf, if_pos hw] at hdev
      rw [hagain _ hf, if_pos hw]
      have hmap : ∀ {u v : State}, SameDevice u v → v.hallOk x.hall = u.hallOk x.hall := fun h => (congrArg (fun s => s.hallOk x.hall) h :)
      rw [hmap hdev]
      exact State.loseHall_hallOk ..
  · obtain ⟨e, he⟩ := State.hbmUncorrectable_kills hv
    rw [he]
    have hd : c.dispatched = true := by
      have hm := List.mem_of_find?_eq_some hv
      unfold State.hallCmds at hm
      split at hm
      · obtain ⟨q', -, hm⟩ := List.mem_flatMap.mp hm
        obtain ⟨c', hc', e'⟩ := List.mem_map.mp hm
        cases e'
        exact (List.mem_filter.mp hc').2
      · cases hm
    have hstand := (State.killCmd_stands ((s.countUncorr h).log h e) q c.slot).1.hall h
    obtain ⟨hpoison, -, hcount, -⟩ := (s.countUncorr h).log_errors h e
    rw [State.countUncorr, State.hall_modHall_self] at hpoison hcount
    have hc' : ((s.countUncorr h).log h e).cmd? q c.slot = some c := hc
    refine ⟨(congrArg Hall.hbmUncorr hstand :).trans hcount, (congrArg Hall.poison hstand :).trans hpoison, fun hk => ?_, fun hk ho hf => ?_⟩
    · obtain ⟨hkill, hkilled⟩ := State.killCmd_killed hc' hd hk
      refine ⟨hkilled, fun k j => ?_⟩
      have hlog : (((s.countUncorr h).log h e).hall k).jobs = (s.hall k).jobs :=
        (State.hall_jobs_modHall _ h (fun H => by unfold Hall.xlog; split <;> rfl) k).trans (State.hall_jobs_modHall s h (fun _ => by rfl) k)
      have hj : (((s.countUncorr h).log h e).hall k).job j = (s.hall k).job j := by
        unfold Hall.job
        rw [hlog]
      rw [hkill, State.rehold_hall, State.killing_ledger, hj]
      exact ⟨rfl, rfl⟩
    · exact State.killCmd_fails hc' hd hk ho hf
  · beta_reduce
    unfold State.windowOverrun
    rw [hc]
    dsimp only
    rw [if_pos ⟨hw, List.contains_iff_mem.mpr hh, hok⟩]
    exact State.loseHall_hallOk ..

end Sys2Proof.Machine
end

section
/-! PROOFS. How an operation's row ends its turn, what loading bays leaves of a hall, and the operations on memory. -/

namespace Sys2Proof.Machine

/-! ### The end of an operation -/

/-- The state in which an operation's work has ended with its completion. -/
def OpCtx.finish (x : OpCtx) (t : State) : State := t.modAtt x.page x.slot (·.addDone x.hall x.off)

section
variable {s t : State} {a : Site} {want : Plan → Op → Bool} {x : OpCtx}

theorem runOp_done (hat : AtTurn s a want x) {f : OpCtx → State → OpEnd} (hf : f x s = .done t) :
    runOp a want f s = .next (x.finish t) := by
  rw [runOp_atTurn hat f (fun u e => by rw [hf] at e; cases e), hf]
  rfl

theorem AtTurn.cmd (hat : AtTurn s a want x) : s.cmd? x.page x.slot = some x.cmd := by
  obtain ⟨hpage, hslot, -, -, hcmd, -⟩ := opAt_spec hat.2
  rw [hpage, hslot]
  exact hcmd

theorem AtTurn.isSome (hat : AtTurn s a want x) : (s.cmd? x.page x.slot).isSome = true := by rw [hat.cmd]; rfl

theorem OpCtx.finish_done (h : (t.cmd? x.page x.slot).isSome = true) : OpDone x (x.finish t) := by
  unfold OpDone OpCtx.finish
  rw [State.att_modAtt _ _ _ _ h]
  exact Attempt.mem_doneAt_addDone ..

theorem OpCtx.finish_outside (h : SameOutside x.page s t) : SameOutside x.page s (x.finish t) := by
  obtain ⟨hparts, hfns, hhost, hslots, hpending, hjobs⟩ := h
  refine ⟨hparts, hfns, hhost, hslots, hpending, fun k hk => (State.job_modJob ..).trans ?_⟩
  rw [if_neg hk]
  exact hjobs k hk

/-- Another part of the attempt than the list of what is done stands when the operation ends. -/
theorem OpCtx.att_finish {β : Type} (g : Attempt → β) (hg : ∀ a d, g { a with done := d } = g a) (x : OpCtx) (t : State) :
    g ((x.finish t).att x.page x.slot) = g (t.att x.page x.slot) :=
  State.att_modAtt_keeps g (fun a => hg a _) t x.page x.slot

/-- An operation whose work keeps the frame of the work completes, and leaves what is outside and what is committed. -/
theorem AtTurn.completes (hat : AtTurn s a want x) (h : x.Works s t) :
    OpDone x (x.finish t) ∧ SameOutside x.page s (x.finish t) ∧ SameCommitted s (x.finish t) :=
  ⟨OpCtx.finish_done (h.here.trans hat.isSome), OpCtx.finish_outside h.sameOutside, h.sameCommitted⟩

end

theorem withParity_done {x : OpCtx} {s0 t : State} {loaded : State → List Nat} {u : Upset} {r : Except Nat State}
    (hp : u.parity = []) (hr : r = .ok t) : withParity x s0 loaded u r = .done t := by
  unfold withParity State.parityHits
  rw [hr, hp]
  rfl

/-! ### What loading bays leaves -/

/-- A hall without the bays of its galleries. -/
def Hall.offGals (H : Hall) : Hall := { H with gals := [] }

/-- No hall changes outside its galleries. -/
structure BayFrame (s t : State) : Prop where
  hall : ∀ h, (t.hall h).offGals = (s.hall h).offGals

namespace BayFrame

variable {s t u : State}

theorem refl (s : State) : BayFrame s s := ⟨fun _ => by rfl⟩

theorem trans (a : BayFrame s t) (b : BayFrame t u) : BayFrame s u := ⟨fun h => (b.hall h).trans (a.hall h)⟩

theorem ite {c : Prop} [Decidable c] (ht : BayFrame s t) (hu : BayFrame s u) : BayFrame s (if c then t else u) := by
  by_cases hc : c
  · rw [if_pos hc]; exact ht
  · rw [if_neg hc]; exact hu

theorem sameStacks (h : BayFrame s t) : SameStacks s t := fun k => (congrArg Hall.hbm (h.hall k) :)

theorem modAtt (h : BayFrame s t) (q : Page) (slot : Nat) (f : Attempt → Attempt) : BayFrame s (t.modAtt q slot f) := ⟨h.hall⟩

theorem bumpFree (h : BayFrame s t) (n : Nat) : BayFrame s { t with free := n } := ⟨h.hall⟩

theorem modGal (h : BayFrame s t) (k g : Nat) (f : Gal → Gal) : BayFrame s (t.modGal k g f) where
  hall n := by
    rw [State.modGal, State.hall_modHall]
    split
    · next e => rw [e]; exact h.hall k
    · exact h.hall n

theorem countInvalid (h : BayFrame s t) (q : Page) (slot : Nat) (u : Use) (n : Nat) : BayFrame s (t.countInvalid q slot u n) := by
  unfold State.countInvalid
  exact .ite (h.modAtt ..) h

theorem loadBay {x : OpCtx} (h : BayFrame s t) (g b n : Nat) (chunks : List ChunkPos) :
    Answers (BayFrame s) (t.loadBay x g b n chunks) := by
  unfold State.loadBay
  dsimp only
  split
  · exact .error
  split
  · exact .error
  split
  · exact .error
  exact .ok (((h.bumpFree _).modGal _ _ _).countInvalid _ _ _ _)

theorem bayload {x : OpCtx} (h : BayFrame s t) (o : BayloadOp) : Answers (BayFrame s) (t.bayload x o) :=
  Answers.foldE (fun _ _ h => Answers.foldE (fun _ _ h => h.loadBay _ _ _ _) _ h) _ h

end BayFrame

/-! ### O21 -/

/-- Settles O21: each row ends its operation's work, which keeps the frame of the work. -/
theorem memoryOperationsComplete : Obligations.MemoryOperationsComplete := by
  unfold Obligations.MemoryOperationsComplete
  intro s a x t1
  refine ⟨fun o u hat hop hr hp => ?_, fun o re hat hop hr => ?_, fun o hat hop hr => ?_, fun o hat hop hr => ?_⟩
  · obtain ⟨hdone, hout, hcom⟩ := hat.completes ((OpFrame.refl s).bayload o t1 hr)
    exact ⟨_, runOp_done hat (by rw [hop]; exact withParity_done hp hr), hdone, hout, hcom,
      ((BayFrame.refl s).bayload o t1 hr).sameStacks⟩
  · cases re
    · obtain ⟨hdone, hout, hcom⟩ := hat.completes ((OpFrame.refl s).save o t1 hr)
      exact ⟨_, runOp_done hat (by rw [hop]; exact congrArg OpEnd.ofExcept hr), hdone, hout, hcom⟩
    · obtain ⟨hdone, hout, hcom⟩ := hat.completes ((OpFrame.refl s).reblock o t1 hr)
      exact ⟨_, runOp_done hat (by rw [hop]; exact congrArg OpEnd.ofExcept hr), hdone, hout, hcom⟩
  · obtain ⟨hdone, hout, hcom⟩ := hat.completes ((OpFrame.refl s).storeRows o t1 hr)
    exact ⟨_, runOp_done hat (by rw [hop]; exact congrArg OpEnd.ofExcept hr), hdone, hout, hcom⟩
  · obtain ⟨hdone, hout, hcom⟩ := hat.completes ((OpFrame.refl s).hbmcopy o t1 hr)
    exact ⟨_, runOp_done hat (by rw [hop]; exact congrArg OpEnd.ofExcept hr), hdone, hout, hcom⟩

end Sys2Proof.Machine
end

section
/-! PROOFS. Operations that wait while a later one may end, HOLD and APPLY. -/

namespace Sys2Proof.Machine

/-! ### Turns that wait -/

/-- Operations that may start at a site stand at different places of the hall's share. -/
theorem opsAt_off_ne (s : State) (a : Site) (want : Plan → Op → Bool) : (s.opsAt a want).Pairwise fun x y => x.off ≠ y.off := by
  unfold State.opsAt
  split
  · split
    · refine List.pairwise_filterMap.mpr (List.nodup_range.imp fun {i j} hij x hx y hy => ?_)
      split at hx
      · split at hx
        · cases hx
          split at hy
          · split at hy
            · cases hy
              exact hij
            · cases hy
          · cases hy
        · cases hx
      · cases hx
    · exact .nil
  · exact .nil

/-- Of operations that wait, changing nothing, or complete, one at most completes. -/
theorem turns_ends {Q : OpCtx → State → Prop} {f : OpCtx → State → OpEnd} {s : State} : ∀ {l : List OpCtx},
    (∀ y ∈ l, f y s = .wait s ∨ ∃ u, f y s = .done u ∧ Q y u) →
    State.turns f l s = s ∨ ∃ y ∈ l, ∃ u, Q y u ∧ State.turns f l s = y.finish u
  | [], _ => .inl rfl
  | y :: r, h => by
    rw [turns_cons]
    rcases h y List.mem_cons_self with e | ⟨u, e, hq⟩
    · rw [e]
      rcases turns_ends fun z hz => h z (List.mem_cons_of_mem y hz) with k | ⟨z, hz, u, hq, k⟩
      · exact .inl k
      · exact .inr ⟨z, List.mem_cons_of_mem y hz, u, hq, k⟩
    · rw [e]
      exact .inr ⟨y, List.mem_cons_self, u, hq, rfl⟩

section
variable {s : State} {a : Site} {want : Plan → Op → Bool} {x : OpCtx}

theorem AtTurn.att (hat : AtTurn s a want x) : s.att x.page x.slot = x.cmd.att := State.att_of_cmd? hat.cmd

/-- The operation whose turn it is has not completed. -/
theorem AtTurn.not_done (hat : AtTurn s a want x) : ¬ OpDone x s := by
  obtain ⟨-, -, hhall, -, -, -, -, -, -, -, hoff, -⟩ := opAt_spec hat.2
  unfold OpDone
  rw [hat.att, hhall]
  exact hoff

/-- What another operation of the site completes is not this one. -/
theorem OpCtx.finish_other {y : OpCtx} {u : State} (hp : y.page = x.page) (hs : y.slot = x.slot) (hh : y.hall = x.hall)
    (hne : y.off ≠ x.off) (hd : ¬ OpDone x u) : ¬ OpDone x (y.finish u) := by
  unfold OpDone OpCtx.finish at *
  rw [hp, hs, hh]
  cases hc : u.cmd? x.page x.slot with
  | none =>
    have e : (u.modAtt x.page x.slot (·.addDone x.hall y.off)).cmd? x.page x.slot = none := by
      simpa [hc] using u.cmd?_modAtt_isSome x.page x.slot (·.addDone x.hall y.off) x.slot
    simp only [State.att, hc, e] at hd ⊢
    exact hd
  | some c =>
    rw [State.att_modAtt _ _ _ _ (by rw [hc]; rfl), Attempt.doneAt, Attempt.addDone, tabGet_tabSet, if_pos rfl,
      List.mem_append, List.mem_singleton]
    rintro (h | h)
    · exact hd h
    · exact hne h.symm

/-- A row whose operation at its turn waits, and whose others wait or complete: nothing changes, or another one completes. -/
theorem runOp_waits (hat : AtTurn s a want x) {Q : State → Prop} {f : OpCtx → State → OpEnd}
    (hf : ∀ y ∈ s.opsAt a want, f y s = .wait s ∨ ∃ u, f y s = .done u ∧ Q u) (hx : f x s = .wait s)
    (hd : ∀ u, Q u → (u.att x.page x.slot).done = (s.att x.page x.slot).done) :
    ∃ t, runOp a want f s = .next t ∧ ¬ OpDone x t ∧ (s.opsAt a want = [x] → t = s)
      ∧ (t = s ∨ ∃ (y : OpCtx) (u : State), Q u ∧ t = y.finish u) := by
  obtain ⟨r, hr⟩ := opAt_head hat.2
  have hrow : runOp a want f s = .next (State.turns f r s) := by
    rw [runOp, whenRunning_live hat.1, hr, turns_cons, hx]
  obtain ⟨hp, hs, hh, -⟩ := opAt_spec hat.2
  refine ⟨_, hrow, ?_, fun h1 => ?_, ?_⟩
  · rcases turns_ends (Q := fun _ u => Q u) fun y hy => hf y (by rw [hr]; exact List.mem_cons_of_mem x hy) with e | ⟨y, hy, u, hq, e⟩
    · rw [e]
      exact hat.not_done
    · rw [e]
      obtain ⟨hp', hs', hh', -⟩ := opsAt_spec (s := s) (a := a) (want := want) (x := y) (by rw [hr]; exact List.mem_cons_of_mem x hy)
      have hne := opsAt_off_ne s a want
      rw [hr] at hne
      refine OpCtx.finish_other (hp'.trans hp.symm) (hs'.trans hs.symm) (hh'.trans hh.symm) ((List.pairwise_cons.mp hne).1 y hy).symm ?_
      unfold OpDone Attempt.doneAt
      rw [hd u hq]
      exact hat.not_done
  · rw [hr] at h1
    rw [(List.cons.inj h1).2]
    rfl
  · rcases turns_ends (Q := fun _ u => Q u) fun y hy => hf y (by rw [hr]; exact List.mem_cons_of_mem x hy) with e | ⟨y, -, u, hq, e⟩
    · exact .inl e
    · exact .inr ⟨y, u, hq, e⟩

end

theorem State.hall_modAtt (s : State) (q : Page) (slot : Nat) (f : Attempt → Attempt) (h : Nat) :
    (s.modAtt q slot f).hall h = s.hall h := rfl

theorem OpCtx.hall_finish (x : OpCtx) (s : State) (h : Nat) : (x.finish s).hall h = s.hall h := rfl

/-! ### HOLD (R193) -/

theorem Attempt.handed_putHanded (a : Attempt) (h tree : Nat) (l : List Word) : (a.putHanded h tree l).handed h tree = l := by
  unfold Attempt.handed Attempt.putHanded
  have hrest : (a.holdQ.filter fun e => !(e.1 == h && e.2.1 == tree)).filter (fun e => e.1 == h && e.2.1 == tree) = [] := by
    rw [List.filter_filter]
    exact List.filter_eq_nil_iff.mpr fun e _ => by cases (e.1 == h && e.2.1 == tree) <;> simp
  rw [List.filter_append, hrest, List.nil_append]
  cases l with
  | nil => rfl
  | cons w l => simp

/-- The state in which a HOLD has written its values, before it enters them in its attempt. -/
def State.holdWrote (s : State) (x : OpCtx) (o : RiserOp) : State :=
  s.modHall x.hall fun H => { H with
    hbm := memWrites H.hbm (H.holdAt o 0) ((((s.att x.page x.slot).handed x.hall o.tree).take o.elCount).flatMap fun v => natLE v.toNat 4) }

/-- What a HOLD enters in its attempt. -/
def Attempt.holds (a : Attempt) (x : OpCtx) (o : RiserOp) (l : List Word) : Attempt :=
  let sq := laneSquares ((l.take o.elCount).map fun v => f32to64 v.toNat)
  let bad := ((l.take o.elCount).filter fun v => !(b32.dec v.toNat).isFin).length
  let a := a.putHanded x.hall o.tree (l.drop o.elCount)
  { a with holdSegs := a.holdSegs ++ o.segs.map fun g => (x.hall, g),
           norms := a.norms ++ [(x.hall, x.off, ⟨o.layer, 0, o.elCount, 0, sq, 0⟩)],
           normOps := a.normOps ++ [(x.hall, x.off, sq)],
           nf := a.nf ++ [(x.hall, bad)] }

theorem State.riserHold_cases (s : State) (x : OpCtx) (o : RiserOp) :
    (((s.att x.page x.slot).handed x.hall o.tree).length < o.elCount → s.riserHold x o = .wait s)
    ∧ (o.elCount ≤ ((s.att x.page x.slot).handed x.hall o.tree).length → s.riserHold x o
      = .done ((s.holdWrote x o).modAtt x.page x.slot (·.holds x o ((s.att x.page x.slot).handed x.hall o.tree)))) := by
  unfold State.riserHold
  dsimp only
  refine ⟨fun h => if_pos h, fun h => if_neg (by omega)⟩

theorem flatMap_natLE_length (l : List Word) : (l.flatMap fun v => natLE v.toNat 4).length = 4 * l.length := by
  induction l with
  | nil => rfl
  | cons v l ih => rw [List.flatMap_cons, List.length_append, ih, List.length_cons, natLE_length]; omega

theorem Op.isRiser_riser {apply : Bool} {o : Op} (h : Op.isRiser apply o = true) : ∃ r, o = .riser r ∧ r.apply = apply := by
  cases o with
  | riser r => exact ⟨r, rfl, by simpa [Op.isRiser] using h⟩
  | _ => simp [Op.isRiser] at h

/-- How the turn of a HOLD or an APPLY ends, under an upset. -/
def riserEnd (apply : Bool) (u : Upset) (x : OpCtx) (s : State) : OpEnd :=
  match x.op with
  | .riser o =>
    match u.residue, (if apply then s.riserApply x o else s.riserHold x o) with
    | some lane, .done _ => .kill (s.residueHit x.hall x.job x.pass 1 lane)
    | _, r => r
  | _ => .wait s

theorem riserRow_eq (apply : Bool) (a : Site) (u : Upset) (s : State) :
    riserRow apply a u s = runOp a (fun _ => Op.isRiser apply) (riserEnd apply u) s := rfl

theorem riserEnd_riser {u : Upset} (hu : u.residue = none) {x : OpCtx} {o : RiserOp} (hop : x.op = .riser o) (apply : Bool) (s : State) :
    riserEnd apply u x s = if apply then s.riserApply x o else s.riserHold x o := by
  unfold riserEnd
  rw [hop]
  dsimp only
  rw [hu]

/-- A HOLD waits, changing nothing, or completes without another completion in its attempt. -/
theorem riserEnd_hold {u : Upset} (hu : u.residue = none) {y : OpCtx} {o : RiserOp} (hop : y.op = .riser o) (s : State) :
    riserEnd false u y s = .wait s ∨ ∃ t, riserEnd false u y s = .done t ∧ (t.att y.page y.slot).done = (s.att y.page y.slot).done := by
  rw [riserEnd_riser hu hop]
  obtain ⟨hwaits, hwrites⟩ := s.riserHold_cases y o
  by_cases hl : ((s.att y.page y.slot).handed y.hall o.tree).length < o.elCount
  · exact .inl (hwaits hl)
  · exact .inr ⟨_, hwrites (by omega), State.att_modAtt_keeps Attempt.done (fun _ => by rfl) (s.holdWrote y o) y.page y.slot⟩

/-- What a HOLD that has its values leaves of the halls and the device. -/
theorem State.holdWrote_hall (s : State) (x : OpCtx) (o : RiserOp) {h : Nat} (hh : h ≠ x.hall) : (s.holdWrote x o).hall h = s.hall h := by
  unfold State.holdWrote
  rw [State.hall_modHall, if_neg hh]

theorem State.holdWrote_self (s : State) (x : OpCtx) (o : RiserOp) : (s.holdWrote x o).hall x.hall = { s.hall x.hall with
    hbm := memWrites (s.hall x.hall).hbm ((s.hall x.hall).holdAt o 0)
      ((((s.att x.page x.slot).handed x.hall o.tree).take o.elCount).flatMap fun v => natLE v.toNat 4) } := by
  unfold State.holdWrote
  rw [State.hall_modHall_self]

/-- The bytes that a HOLD writes, and those that it leaves. -/
theorem memWrites_values (m : Mem) (base n : Nat) {l : List Word} (hl : n ≤ l.length) :
    memReads (memWrites m base ((l.take n).flatMap fun v => natLE v.toNat 4)) base (4 * n) = (l.take n).flatMap (fun v => natLE v.toNat 4)
      ∧ ∀ b, b < base ∨ base + 4 * n ≤ b →
        memRead (memWrites m base ((l.take n).flatMap fun v => natLE v.toNat 4)) b = memRead m b := by
  have hlen : ((l.take n).flatMap fun v => natLE v.toNat 4).length = 4 * n := by
    rw [flatMap_natLE_length, List.length_take, Nat.min_eq_left hl]
  generalize (l.take n).flatMap (fun v => natLE v.toNat 4) = w at hlen
  refine ⟨?_, fun b hb => memRead_memWrites_outside _ _ _ _ (by rw [hlen]; exact hb)⟩
  have h0 := memReads_memWrites_inside (m := m) (a := base) (i := 0) (l := w) (Nat.le_of_eq (Nat.zero_add w.length))
  rw [Nat.add_zero, List.drop_zero, List.take_length, hlen] at h0
  exact h0

theorem State.holdWrote_committed (s : State) (x : OpCtx) (o : RiserOp) : SameCommitted s (s.holdWrote x o) := fun h => by
  by_cases hh : h = x.hall
  · subst hh
    rw [s.holdWrote_self x o]
    exact ⟨rfl, rfl, rfl, rfl, rfl, rfl, rfl, rfl⟩
  · rw [s.holdWrote_hall x o hh]
    exact ⟨rfl, rfl, rfl, rfl, rfl, rfl, rfl, rfl⟩

/-- What a HOLD that has its values leaves outside its command, and what it keeps of the values. -/
theorem State.holdWrote_rest {s : State} {x : OpCtx} (o : RiserOp) (hc : (s.cmd? x.page x.slot).isSome = true) (l : List Word) :
    SameOutside x.page s ((s.holdWrote x o).modAtt x.page x.slot (·.holds x o l))
      ∧ (((s.holdWrote x o).modAtt x.page x.slot (·.holds x o l)).att x.page x.slot).handed x.hall o.tree = l.drop o.elCount := by
  refine ⟨⟨rfl, rfl, rfl, rfl, rfl, fun k hk => (State.job_modJob ..).trans (if_neg hk)⟩, ?_⟩
  rw [State.att_modAtt (s.holdWrote x o) _ _ _ hc]
  exact Attempt.handed_putHanded ..

/-- Settles O23: a HOLD with too few values waits, and one with enough writes them as its work says. -/
theorem holdWritesTheValues : Obligations.HoldWritesTheValues := by
  unfold Obligations.HoldWritesTheValues
  intro s a u x o hat hop hu l base
  obtain ⟨hwaits, hwrites⟩ := s.riserHold_cases x o
  refine ⟨fun hl => ?_, fun hl => ?_⟩
  · obtain ⟨hpage, hslot, -⟩ := opAt_spec hat.2
    have hends : ∀ y ∈ s.opsAt a fun _ => Op.isRiser false, riserEnd false u y s = .wait s
        ∨ ∃ t, riserEnd false u y s = .done t ∧ (t.att x.page x.slot).done = (s.att x.page x.slot).done := fun y hy => by
      obtain ⟨hp, hs, -, -, -, -, -, -, -, hwant, -⟩ := opsAt_spec hy
      obtain ⟨o', hop', -⟩ := Op.isRiser_riser hwant
      rw [hpage, hslot, ← hp, ← hs]
      exact riserEnd_hold hu hop' s
    obtain ⟨t, hrow, hnot, hone, -⟩ := runOp_waits hat hends ((riserEnd_riser hu hop false s).trans (hwaits hl)) fun _ h => h
    exact ⟨t, (riserRow_eq false a u s).trans hrow, hnot, hone⟩
  · have hrow := runOp_done hat ((riserEnd_riser hu hop false s).trans (hwrites hl))
    obtain ⟨hin, hout⟩ := memWrites_values (s.hall x.hall).hbm base o.elCount hl
    obtain ⟨houtside, hleft⟩ := State.holdWrote_rest o hat.isSome l
    refine ⟨_, (riserRow_eq false a u s).trans hrow, OpCtx.finish_done ((State.cmd?_modAtt_isSome ..).trans hat.isSome), ?_, fun b hb => ?_,
      fun h hh => ?_, ?_, OpCtx.finish_outside houtside, s.holdWrote_committed x o⟩
    · rw [OpCtx.hall_finish, State.hall_modAtt, State.holdWrote_self]
      exact hin
    · rw [OpCtx.hall_finish, State.hall_modAtt, State.holdWrote_self]
      exact hout b hb
    · rw [OpCtx.hall_finish, State.hall_modAtt, State.holdWrote_hall _ _ _ hh]
    · exact (OpCtx.att_finish (fun a => a.handed x.hall o.tree) (fun _ _ => by rfl) x _).trans hleft

end Sys2Proof.Machine
end

section
/-! PROOFS. What an APPLY stages, and how it follows the verdict. -/

namespace Sys2Proof.Machine

/-! ### Faces that are staged stay staged -/

theorem Attempt.staged?_isSome {a : Attempt} {u : Use} : (a.staged? u).isSome = true ↔
    ∃ p ∈ a.staged.map Staged.place, p.1 = u.hall ∧ p.2.1.pair = u.d.pair := by
  unfold Attempt.staged?
  rw [List.find?_isSome]
  constructor
  · rintro ⟨st, hst, h⟩
    exact ⟨st.place, List.mem_map_of_mem hst, by simpa [Staged.place] using h⟩
  · rintro ⟨_, hp, h⟩
    obtain ⟨st, hst, rfl⟩ := List.mem_map.mp hp
    exact ⟨st, hst, by simpa [Staged.place] using h⟩

theorem StagesMore.staged? {a b : Attempt} (hm : StagesMore a b) {u : Use} (h : (a.staged? u).isSome = true) :
    (b.staged? u).isSome = true := by
  obtain ⟨l, hl⟩ := hm
  obtain ⟨p, hp, hu⟩ := Attempt.staged?_isSome.mp h
  exact Attempt.staged?_isSome.mpr ⟨p, by rw [hl]; exact List.mem_append_left l hp, hu⟩

/-- A face that a command opens is staged. -/
theorem State.openFace_staged {s : State} {q : Page} {slot : Nat} (hc : (s.cmd? q slot).isSome = true) (u : Use) (w : Writer) :
    (((s.openFace q slot u w).att q slot).staged? u).isSome = true := by
  unfold State.openFace
  split
  · next st hst =>
    rw [State.att_modAtt _ _ _ _ hc]
    obtain ⟨p, hp, hu⟩ := Attempt.staged?_isSome.mp (by rw [hst]; rfl)
    refine Attempt.staged?_isSome.mpr ⟨p, ?_, hu⟩
    rw [List.map_map, List.map_congr_left (g := Staged.place) fun st _ => by dsimp only [Function.comp]; split <;> rfl]
    exact hp
  · dsimp only
    rw [State.att_modAtt (s.modHall u.hall _) _ _ _ hc]
    refine Attempt.staged?_isSome.mpr ⟨_, List.mem_map_of_mem (List.mem_append_right _ (List.mem_singleton.mpr rfl)), rfl, rfl⟩

/-! ### What an APPLY stages -/

/-- An APPLY's write of a moment, which it may not have. -/
def State.stageMoment (s : State) (x : OpCtx) (first cols : Nat) (f : Option (Use × Face)) (vs : List Nat) : State :=
  match f with
  | none => s
  | some f => (s.openFace x.page x.slot f.1 .encoded).putRows x.page x.slot f.1 WriteCtx.plain first 0 (chunksOf cols (vs.map Val.f32))

namespace OpFrame

variable {x : OpCtx} {s t : State}

theorem stageMoment (h : x.Works s t) (first cols : Nat) {f : Option (Use × Face)}
    (hf : ∀ z, f = some z → z.1 ∈ (s.att x.page x.slot).uses) (vs : List Nat) : x.Works s (t.stageMoment x first cols f vs) := by
  unfold State.stageMoment
  cases f with
  | none => exact h
  | some z => exact (h.openFace (hf z rfl) (h.uses ▸ hf z rfl) _).putRows (hf z rfl) ..

/-- A moment's face is staged once it is written. -/
theorem stageMoment_staged (hc : (t.cmd? x.page x.slot).isSome = true) (first cols : Nat) (z : Use × Face) (vs : List Nat) :
    (((t.stageMoment x first cols (some z) vs).att x.page x.slot).staged? z.1).isSome = true := by
  have hopen := State.openFace_staged hc z.1 .encoded
  exact ((OpFrame.refl (U := [z.1]) (t.openFace x.page x.slot z.1 .encoded)).putRows (List.mem_singleton.mpr rfl) ..).staged.staged? hopen

/-- The parameter's face is staged once it is written. -/
theorem putParam_staged (hc : (t.cmd? x.page x.slot).isSome = true) {u : Use} (hu : u ∈ (t.att x.page x.slot).uses) {rem : Option Use}
    (hr : ∀ r ∈ rem, r ∈ (t.att x.page x.slot).uses) (round first : Nat) (rows : List (List Nat)) :
    (((t.putParam x u rem round first rows).att x.page x.slot).staged? u).isSome = true := by
  have hopen := State.openFace_staged hc u .encoded
  have opened := (OpFrame.refl (U := (t.att x.page x.slot).uses) t).openFace hu hu .encoded
  have huses := opened.uses
  unfold State.putParam
  dsimp only
  split
  · exact hopen
  · next st hst =>
    generalize t.openFace x.page x.slot u .encoded = v at *
    have more {w : State} (h : x.Works v w) := h.staged.staged? hopen
    rw [← huses] at hu hr
    split
    · exact more ((OpFrame.refl v).putRows hu ..)
    · have drew (n : Nat) : x.Works v (if round = 1 then v.modAtt x.page x.slot (·.riserDrew x.hall n) else v) :=
        .ite ((OpFrame.refl v).modAtt' (fun _ => rfl) fun _ => rfl) (.refl v)
      cases rem with
      | none => exact more ((drew _).putBlocks hu ..)
      | some ru =>
        have wrote := (drew (rows.length * u.d.cols)).putBlocks hu
        exact more (((wrote ..).openFace (hr ru rfl) ((wrote ..).uses ▸ hr ru rfl) _).putCodesRows (hr ru rfl) ..)

end OpFrame

/-- An APPLY's writes of its results, before its norms. -/
def State.applyStages (s : State) (x : OpCtx) (o : RiserOp) (pol : TPolicy) (a : ApplyIn) (els : List (Nat × Elem)) : State :=
  let cols := a.p.1.d.cols
  let first := o.elFirst / cols
  (((s.countRows x a.p.1 ((List.range (o.elCount / cols)).map (first + ·))).putParam x a.p.1 (a.rem.map (·.1)) pol.round first
    (chunksOf cols (els.map fun e => e.2.p))).stageMoment x first cols a.m (els.map fun e => e.2.m)).stageMoment x first cols a.v
      (els.map fun e => e.2.v)

theorem State.applyRun_eq {s : State} {x : OpCtx} {o : RiserOp} (pol : TPolicy) (k : Nat) (a : ApplyIn)
    (hp : (s.hall x.hall).poisonIn [((s.hall x.hall).holdAt o 0, 4 * o.elCount)] = none) :
    s.applyRun x o pol k a = .ok ((s.applyStages x o pol a (s.applyEls x o pol k a)).modAtt x.page x.slot
      (·.applied x (applyNorm o.layer (s.applyEls x o pol k a)) o.elCount)) := by
  unfold State.applyRun
  dsimp only
  rw [hp]
  rfl

/-- A stage of a command's work in which the faces of some uses are staged. -/
structure OpCtx.Stages (x : OpCtx) (s t : State) (l : List Use) : Prop where
  works : x.Works s t
  staged : ∀ u ∈ l, ((t.att x.page x.slot).staged? u).isSome = true

namespace OpCtx.Stages

variable {x : OpCtx} {s t : State} {l : List Use}

theorem param (h : x.Works s t) (hc : (s.cmd? x.page x.slot).isSome = true) {u : Use} (hu : u ∈ (s.att x.page x.slot).uses)
    {rem : Option Use} (hr : ∀ r ∈ rem, r ∈ (s.att x.page x.slot).uses) (round first : Nat) (rows : List (List Nat)) :
    x.Stages s (t.putParam x u rem round first rows) [u] where
  works := h.putParam hu hr ..
  staged v hv := by
    rw [List.mem_singleton.mp hv]
    exact OpFrame.putParam_staged (h.here.trans hc) (h.uses ▸ hu) (h.uses ▸ hr) ..

theorem moment (h : x.Stages s t l) (hc : (s.cmd? x.page x.slot).isSome = true) {f : Option (Use × Face)}
    (hf : ∀ z, f = some z → z.1 ∈ (s.att x.page x.slot).uses) (first cols : Nat) (vs : List Nat) :
    x.Stages s (t.stageMoment x first cols f vs) (l ++ (f.map (·.1)).toList) where
  works := h.works.stageMoment first cols hf vs
  staged u hu := by
    rcases List.mem_append.mp hu with hu | hu
    · exact ((OpFrame.refl t).stageMoment first cols (fun z hz => h.works.uses ▸ hf z hz) vs).staged.staged? (h.staged u hu)
    · cases f with
      | none => cases hu
      | some z =>
        rw [List.mem_singleton.mp hu]
        exact OpFrame.stageMoment_staged (h.works.here.trans hc) first cols z vs

end OpCtx.Stages

/-- The faces that an APPLY writes are staged at its end, within the frame of its work. -/
theorem State.applyStages_stages {s : State} {x : OpCtx} (o : RiserOp) (pol : TPolicy) {a : ApplyIn} (els : List (Nat × Elem))
    (hc : (s.cmd? x.page x.slot).isSome = true) (ha : a.Reads (s.att x.page x.slot).uses) :
    x.Stages s (s.applyStages x o pol a els) ([a.p.1] ++ (a.m.map (·.1)).toList ++ (a.v.map (·.1)).toList) := by
  refine ((OpCtx.Stages.param (OpFrame.countRows (.refl s) ..) hc ha.p (fun r hr => ?_) ..).moment hc ha.m ..).moment hc ha.v ..
  obtain ⟨r', hr', rfl⟩ := Option.map_eq_some_iff.mp hr
  exact ha.rem r' hr'

/-! ### O24 -/

theorem State.riserApply_cases {s : State} {x : OpCtx} {o : RiserOp} :
    ((s.att x.page x.slot).verdict.find? (·.1 == x.hall) = none → s.riserApply x o = .wait s)
    ∧ ∀ v, (s.att x.page x.slot).verdict.find? (·.1 == x.hall) = some v →
      (v.2.apply = false → s.riserApply x o = .done s)
      ∧ ∀ ai pol, v.2.apply = true → s.applyIn x o = .ok ai → x.plan.policyOf o.ptensor = some pol →
        s.riserApply x o = OpEnd.ofExcept (s.applyRun x o pol v.2.k ai) := by
  unfold State.riserApply
  refine ⟨fun h => by rw [h], fun v h => ?_⟩
  rw [h]
  dsimp only
  refine ⟨fun hs => if_neg (by simp [hs]), fun ai pol ha hin hpol => ?_⟩
  rw [if_pos ha, hin, hpol]

/-- Settles O24: by the verdict of the hall, with the faces of an APPLY staged by its writes. -/
theorem applyFollowsTheVerdict : Obligations.ApplyFollowsTheVerdict := by
  unfold Obligations.ApplyFollowsTheVerdict
  intro s a u x o hat hop hu
  obtain ⟨hwait, hverdict⟩ := State.riserApply_cases (s := s) (x := x) (o := o)
  have hend := riserEnd_riser hu hop true s
  rw [if_pos rfl] at hend
  refine ⟨fun hn => ?_, fun v hv => ⟨fun hskip => ?_, fun ai pol happ hin hpol hpoison => ?_⟩⟩
  · obtain ⟨hpage, hslot, hhall, -⟩ := opAt_spec hat.2
    rw [hpage, hslot, hhall] at hn
    refine (riserRow_eq true a u s).trans ((whenRunning_live hat.1 _).trans (congrArg (fun t : State => (.next t : Out)) (turns_wait fun y hy => ?_)))
    obtain ⟨hp, hs, hh, -, -, -, -, -, -, hwant, -⟩ := opsAt_spec hy
    obtain ⟨o', hop', -⟩ := Op.isRiser_riser hwant
    rw [riserEnd_riser hu hop', if_pos rfl]
    exact State.riserApply_cases.1 (by rw [hp, hs, hh]; exact hn)
  · have hrow := runOp_done hat (hend.trans ((hverdict v hv).1 hskip))
    exact ⟨_, (riserRow_eq true a u s).trans hrow, OpCtx.finish_done hat.isSome,
      OpCtx.finish_outside ⟨rfl, rfl, rfl, rfl, rfl, fun _ _ => rfl⟩, rfl, OpCtx.att_finish Attempt.staged (fun _ _ => rfl) x s⟩
  · have hreads := State.applyIn_reads hin
    obtain ⟨hworks, hstaged⟩ := State.applyStages_stages o pol (s.applyEls x o pol v.2.k ai) hat.isSome hreads
    have hdone : s.riserApply x o = .done _ := ((hverdict v hv).2 ai pol happ hin hpol).trans
      (congrArg OpEnd.ofExcept (State.applyRun_eq pol v.2.k ai hpoison))
    have hrow := runOp_done hat (hend.trans hdone)
    generalize s.applyStages x o pol ai (s.applyEls x o pol v.2.k ai) = w at *
    have hsome := hworks.here.trans hat.isSome
    have hatt := w.att_modAtt x.page x.slot (·.applied x (applyNorm o.layer (s.applyEls x o pol v.2.k ai)) o.elCount) hsome
    have hnorms : (w.att x.page x.slot).norms = (s.att x.page x.slot).norms := (congrArg Attempt.norms hworks.attempt :)
    have hels : (w.att x.page x.slot).rsrElems = (s.att x.page x.slot).rsrElems := (congrArg Attempt.rsrElems hworks.attempt :)
    refine ⟨_, (riserRow_eq true a u s).trans hrow, OpCtx.finish_done ((State.cmd?_modAtt_isSome ..).trans hsome),
      OpCtx.finish_outside ?_, hworks.sameCommitted, fun f hf z hz => ?_, ?_, ?_⟩
    · obtain ⟨hparts, hfns, hhost, hslots, hpending, hjobs⟩ := hworks.sameOutside
      exact ⟨hparts, hfns, hhost, hslots, hpending, fun k hk => (State.job_modJob ..).trans ((if_neg hk).trans (hjobs k hk))⟩
    · rw [OpCtx.att_finish (fun a => a.staged? z.1) (fun _ _ => by rfl), hatt]
      refine hstaged z.1 ?_
      rcases List.mem_cons.mp hf with rfl | hf
      · cases hz
        simp
      rcases List.mem_cons.mp hf with rfl | hf
      · rw [Option.mem_def] at hz
        simp [hz]
      · rw [List.mem_singleton.mp hf, Option.mem_def] at hz
        simp [hz]
    · rw [OpCtx.att_finish Attempt.norms (fun _ _ => rfl), hatt]
      exact congrArg (· ++ _) hnorms
    · rw [OpCtx.att_finish Attempt.rsrElems (fun _ _ => rfl), hatt]
      exact congrArg (· ++ _) hels

end Sys2Proof.Machine
end

section
/-! PROOFS. The Undercroft rows that a command sees: what leaves them, what a write of a row does, and a single partial. -/

namespace Sys2Proof.Machine

/-! ### What leaves the rows -/

/-- The part of an attempt that its command's view of rows, and of partials that wait, is read from. -/
def Attempt.rowPart (a : Attempt) : List Twin × List OldRow × List Early := (a.twins, a.oldRows, a.early)

/-- No hall changes outside its galleries, and the command sees every row as it did. -/
structure RowsStand (q : Page) (slot : Nat) (s t : State) : Prop where
  bays : BayFrame s t
  here : (t.cmd? q slot).isSome = (s.cmd? q slot).isSome
  att : (t.att q slot).rowPart = (s.att q slot).rowPart

namespace RowsStand

variable {q : Page} {slot : Nat} {s t u : State}

theorem refl (s : State) : RowsStand q slot s s := ⟨.refl s, rfl, rfl⟩

theorem trans (a : RowsStand q slot s t) (b : RowsStand q slot t u) : RowsStand q slot s u :=
  ⟨a.bays.trans b.bays, b.here.trans a.here, b.att.trans a.att⟩

theorem ite {c : Prop} [Decidable c] (ht : RowsStand q slot s t) (hu : RowsStand q slot s u) :
    RowsStand q slot s (if c then t else u) := by
  by_cases hc : c
  · rw [if_pos hc]; exact ht
  · rw [if_neg hc]; exact hu

theorem view (h : RowsStand q slot s t) (k l : Nat) : t.viewRow q slot k l = s.viewRow q slot k l := by
  have htwins : (t.att q slot).twins = (s.att q slot).twins := (congrArg (·.1) h.att :)
  have hold : (t.att q slot).oldRows = (s.att q slot).oldRows := (congrArg (·.2.1) h.att :)
  have hphys : (t.hall k).phys? (pageJob q) l = (s.hall k).phys? (pageJob q) l :=
    (congrArg (fun H => Hall.phys? H (pageJob q) l) (h.bays.hall k) :)
  have hrow : (t.hall k).row = (s.hall k).row := (congrArg (fun H => Hall.row H) (h.bays.hall k) :)
  unfold State.viewRow Attempt.twin? Attempt.oldRow?
  rw [htwins, hold, hphys, hrow]

theorem early (h : RowsStand q slot s t) : (t.att q slot).early = (s.att q slot).early := (congrArg (·.2.2) h.att :)

theorem bumpFree (h : RowsStand q slot s t) (n : Nat) : RowsStand q slot s { t with free := n } :=
  ⟨h.bays.bumpFree n, h.here, h.att⟩

theorem modAtt (h : RowsStand q slot s t) {f : Attempt → Attempt} (hf : ∀ a, (f a).rowPart = a.rowPart) :
    RowsStand q slot s (t.modAtt q slot f) :=
  ⟨h.bays.modAtt .., (State.cmd?_modAtt_isSome ..).trans h.here, (State.att_modAtt_keeps Attempt.rowPart hf t q slot).trans h.att⟩

theorem modGal (h : RowsStand q slot s t) (k g : Nat) (f : Gal → Gal) : RowsStand q slot s (t.modGal k g f) :=
  ⟨h.bays.modGal .., h.here, h.att⟩

theorem countInvalid (h : RowsStand q slot s t) (u : Use) (n : Nat) : RowsStand q slot s (t.countInvalid q slot u n) := by
  unfold State.countInvalid
  exact .ite (h.modAtt fun _ => by rfl) h

theorem addTiles (h : RowsStand q slot s t) (l : List Tile) : RowsStand q slot s (t.modAtt q slot (·.addTiles l)) :=
  h.modAtt fun _ => rfl

theorem releaseRows (h : RowsStand q slot s t) (k : Nat) (ls : List Nat) : RowsStand q slot s (t.releaseRows q slot k ls) :=
  h.modAtt fun _ => rfl

theorem loadBay {x : OpCtx} (h : RowsStand x.page x.slot s t) (g b n : Nat) (chunks : List ChunkPos) :
    Answers (RowsStand x.page x.slot s) (t.loadBay x g b n chunks) := by
  unfold State.loadBay
  dsimp only
  split
  · exact .error
  split
  · exact .error
  split
  · exact .error
  exact .ok (((h.bumpFree _).modGal ..).countInvalid ..)

theorem freshChunks {x : OpCtx} (h : RowsStand x.page x.slot s t) (u : Use) (gs : List Nat) (cs : List ChunkPos) :
    Answers (RowsStand x.page x.slot s) (t.freshChunks x u gs cs) := by
  refine Answers.foldE (fun t c h => ?_) cs h
  unfold State.freshChunk
  split
  · exact .error
  split
  · exact .error
  exact Answers.ite (h.loadBay _ _ _ _) (.ok h)

theorem freshTensor {x : OpCtx} (h : RowsStand x.page x.slot s t) (u : Use) (gs : List Nat) :
    Answers (RowsStand x.page x.slot s) (t.freshTensor x u gs) :=
  Answers.foldE (fun _ _ h => Answers.foldE (fun _ _ h => Answers.ite (h.loadBay _ _ _ _) (.ok h)) _ h) gs h

end RowsStand

/-! ### A write of a row -/

/-- The content that a command sees of a row of which it holds no twin. -/
def State.baseRow (s : State) (q : Page) (slot h l : Nat) : URow :=
  match (s.att q slot).oldRow? h l with
  | some r => r.row
  | none => match (s.hall h).phys? (pageJob q) l with
    | some p => (s.hall h).row p
    | none => URow.free

theorem State.viewRow_eq (s : State) (q : Page) (slot h l : Nat) :
    s.viewRow q slot h l = (((s.att q slot).twin? h l).map Twin.row).getD (s.baseRow q slot h l) := by
  unfold State.viewRow State.baseRow
  cases (s.att q slot).twin? h l with
  | some t => rfl
  | none => cases (s.att q slot).oldRow? h l <;> rfl

/-- An attempt in which a row has been written in its twin, or in a new one. -/
def Attempt.putTwin (a : Attempt) (h l p : Nat) (r : URow) : Attempt :=
  if (a.twin? h l).isSome then
    { a with twins := a.twins.map fun t : Twin => if t.hall = h ∧ t.lrow = l then { t with row := r } else t }
  else { a with twins := a.twins ++ [⟨h, l, p, r⟩] }

theorem Attempt.twin?_putTwin (a : Attempt) (h l k p : Nat) (r : URow) :
    ((a.putTwin h l p r).twin? h k).map Twin.row = if k = l then some r else (a.twin? h k).map Twin.row := by
  unfold Attempt.putTwin
  split
  · next hl =>
    have hmap : ({ a with twins := a.twins.map fun t : Twin => if t.hall = h ∧ t.lrow = l then { t with row := r } else t } : Attempt).twin? h k
        = (a.twin? h k).map fun t : Twin => if t.hall = h ∧ t.lrow = l then { t with row := r } else t := by
      unfold Attempt.twin?
      rw [List.find?_map]
      congr 2
      funext t
      dsimp only [Function.comp]
      split <;> rfl
    rw [hmap]
    by_cases hk : k = l
    · subst hk
      obtain ⟨t, ht⟩ := Option.isSome_iff_exists.mp hl
      have hspec := List.find?_some ht
      rw [ht, if_pos rfl, Option.map_some, if_pos (by simpa using hspec)]
      rfl
    · rw [if_neg hk]
      cases ht : a.twin? h k with
      | none => rfl
      | some t =>
        have hspec := List.find?_some ht
        simp only [Bool.and_eq_true, beq_iff_eq] at hspec
        rw [Option.map_some, if_neg fun e => hk (hspec.2.symm.trans e.2)]
  · next hl =>
    have happ : ({ a with twins := a.twins ++ [⟨h, l, p, r⟩] } : Attempt).twin? h k
        = (a.twin? h k).or (if l = k then some ⟨h, l, p, r⟩ else none) := by
      unfold Attempt.twin?
      rw [List.find?_append]
      by_cases hk : l = k <;> simp [hk]
    rw [happ]
    by_cases hk : k = l
    · subst hk
      rw [Option.not_isSome_iff_eq_none.mp hl, if_pos rfl, if_pos rfl]
      rfl
    · rw [if_neg hk, if_neg fun e => hk e.symm, Option.or_none]

theorem Attempt.putTwin_rest (a : Attempt) (h l p : Nat) (r : URow) :
    (a.putTwin h l p r).oldRows = a.oldRows ∧ (a.putTwin h l p r).early = a.early := by
  unfold Attempt.putTwin
  split <;> exact ⟨rfl, rfl⟩

section
variable {s : State} {q : Page} {slot h l : Nat}

/-- A row that is written changes no hall, and of its attempt the twins alone. -/
theorem State.setRow_spec (hc : (s.cmd? q slot).isSome = true) (r : URow) : (s.setRow q slot h l r).halls = s.halls
    ∧ ((s.setRow q slot h l r).cmd? q slot).isSome = true
    ∧ ∃ p, (s.setRow q slot h l r).att q slot = (s.att q slot).putTwin h l p r := by
  unfold State.setRow Attempt.putTwin
  split
  · next e =>
    refine ⟨rfl, (State.cmd?_modAtt_isSome ..).trans hc, 0, ?_⟩
    rw [State.att_modAtt _ _ _ _ hc, e, if_pos (by rfl)]
  · next e =>
    exact ⟨rfl, (State.cmd?_modAtt_isSome ..).trans hc, _,
      (State.att_modAtt s.fresh.2 q slot _ hc).trans (if_neg (by rw [e]; simp)).symm⟩

theorem State.viewRow_setRow (hc : (s.cmd? q slot).isSome = true) (r : URow) (k : Nat) :
    (s.setRow q slot h l r).viewRow q slot h k = if k = l then r else s.viewRow q slot h k := by
  obtain ⟨hhalls, -, p, hatt⟩ := State.setRow_spec (h := h) (l := l) hc r
  have hbase : (s.setRow q slot h l r).baseRow q slot h k = s.baseRow q slot h k := by
    unfold State.baseRow Attempt.oldRow? State.hall
    rw [hhalls, hatt, (Attempt.putTwin_rest ..).1]
  rw [State.viewRow_eq, hbase, hatt, Attempt.twin?_putTwin]
  split
  · rfl
  · rw [State.viewRow_eq]

end

/-! ### A single partial (R94, R96) -/

/-- A row group that holds one whole row as its only partial. -/
structure URow.Holds (r : URow) (v : List Word) (acc sfmt : Nat) : Prop where
  data : r.data = v
  state : r.tag.state = 2
  acc : r.tag.acc = acc
  sfmt : r.tag.sfmt = sfmt

/-- A row group of a hall, free before, has taken one whole row. -/
structure Enters (q : Page) (slot h l : Nat) (v : List Word) (acc sfmt : Nat) (s t : State) : Prop where
  halls : t.halls = s.halls
  here : (t.cmd? q slot).isSome = true
  early : (t.att q slot).early = (s.att q slot).early
  row : (t.viewRow q slot h l).Holds v acc sfmt
  others : ∀ k, k ≠ l → t.viewRow q slot h k = s.viewRow q slot h k

/-- A whole row that is the only partial of a row group comes to rest in its first slot. -/
theorem acceptRow_single (k : RowKey) (hk : k.chunks = 1) {data : List (List Word)} (hd : data.length = slotCount k.slots) (v : List Word) :
    acceptRow k.tag data v 1 = ({ k.tag with occ := [0], count := 1, state := 2 }, [(0, v)], noFlags) := by
  obtain ⟨n, hn⟩ : ∃ n, slotCount k.slots = n + 1 :=
    ⟨slotCount k.slots - 1, by have := Nat.two_pow_pos k.slots; unfold slotCount; omega⟩
  have hcarry : carryUp (n + 1) data (n + 1) 0 v [] noFlags = (0, v, [], noFlags) := by
    rw [carryUp, if_neg (by simp)]
  have hslots : ((List.range (n + 1)).reverse.filter fun l => [0].contains l) = [0] := by
    rw [List.filter_reverse, List.range_succ_eq_map, List.filter_cons]
    simp
  have hfold : foldSlots (data.set 0 v) [0] noFlags = (v, noFlags) := by
    cases data with
    | nil => rw [hn] at hd; cases hd
    | cons d data => rfl
  unfold acceptRow RowKey.tag
  dsimp only
  rw [hn, hcarry]
  simp [hk, hslots, hfold]

/-- A row that is free takes a whole row as its only partial. -/
theorem State.accept_single {s : State} {q : Page} {slot h l : Nat} {k : RowKey} (hk : k.chunks = 1) {v : List Word}
    (hc : (s.cmd? q slot).isSome = true) (hfree : (s.viewRow q slot h l).tag.state = 0) {r : State × List Flags}
    (e : s.accept q slot h l k v 1 = .ok r) : Enters q slot h l v k.acc k.sfmt s r.1 := by
  unfold State.accept at e
  dsimp only at e
  rw [if_pos hfree] at e
  split at e
  · cases e
  split at e
  · cases e
  split at e
  · cases e
  split at e
  · cases e
  split at e
  · cases e
  rw [acceptRow_single k hk (by simp)] at e
  cases e
  dsimp only [List.foldl_cons, List.foldl_nil]
  rw [Nat.add_zero]
  obtain ⟨hhalls, hsome, p, hatt⟩ := State.setRow_spec (h := h) (l := l) hc { s.viewRow q slot h l with data := v }
  have hview := State.viewRow_setRow (h := h) (l := l) hc { s.viewRow q slot h l with data := v }
  generalize s.setRow q slot h l _ = t at *
  rw [hview l, if_pos rfl]
  obtain ⟨hhalls', hsome', p', hatt'⟩ := State.setRow_spec (s := t) (h := h) (l := l) hsome
    ⟨{ k.tag with occ := [0], count := 1, state := 2 }, v⟩
  have hview' := State.viewRow_setRow (s := t) (h := h) (l := l) hsome ⟨{ k.tag with occ := [0], count := 1, state := 2 }, v⟩
  refine ⟨hhalls'.trans hhalls, hsome', ?_, ?_, fun k hne => ?_⟩
  · rw [hatt', (Attempt.putTwin_rest ..).2, hatt, (Attempt.putTwin_rest ..).2]
  · rw [hview', if_pos rfl]
    exact ⟨rfl, rfl, rfl, rfl⟩
  · rw [hview', if_neg hne, hview, if_neg hne]

theorem State.putSingle_enters {s t : State} {x : OpCtx} {row acc sfmt slots : Nat} {v : List Word}
    (hc : (s.cmd? x.page x.slot).isSome = true) (hfree : (s.viewRow x.page x.slot x.hall row).tag.state = 0)
    (e : s.putSingle x row acc sfmt slots v = .ok t) : Enters x.page x.slot x.hall row v acc sfmt s t := by
  unfold State.putSingle at e
  split at e
  · cases e
  · next r hr =>
    cases e
    exact State.accept_single rfl hc hfree hr

/-- What a fold that fills distinct rows, free before, leaves: each filled, and every other row as it was. -/
theorem foldE_fills {σ α : Type} {f : σ → α → Except Nat σ} {view : σ → Nat → URow} {row : α → Nat} {Inv : σ → Prop}
    {R : α → URow → Prop}
    (hf : ∀ m a m', Inv m → (view m (row a)).tag.state = 0 → f m a = .ok m' →
      Inv m' ∧ R a (view m' (row a)) ∧ ∀ k, k ≠ row a → view m' k = view m k) :
    ∀ (l : List α) {m m' : σ}, (l.map row).Nodup → (∀ a ∈ l, (view m (row a)).tag.state = 0) → Inv m → foldE f m l = .ok m' →
      Inv m' ∧ (∀ a ∈ l, R a (view m' (row a))) ∧ ∀ k, k ∉ l.map row → view m' k = view m k
  | [], m, m', _, _, hi, e => by
    cases e
    exact ⟨hi, fun _ h => (List.not_mem_nil h).elim, fun _ _ => rfl⟩
  | a :: l, m, m', hnd, hfree, hi, e => by
    unfold foldE at e
    split at e
    · cases e
    · next m1 e1 =>
      obtain ⟨hnot, hnd⟩ := List.nodup_cons.mp hnd
      obtain ⟨hi1, hrow, hothers⟩ := hf m a m1 hi (hfree a List.mem_cons_self) e1
      have hfar (b : α) (hb : b ∈ l) : row b ≠ row a := fun h => hnot (h ▸ List.mem_map_of_mem hb)
      obtain ⟨hi', hrows, hrest⟩ := foldE_fills hf l hnd
        (fun b hb => by rw [hothers _ (hfar b hb)]; exact hfree b (List.mem_cons_of_mem a hb)) hi1 e
      refine ⟨hi', fun b hb => ?_, fun k hk => ?_⟩
      · rcases List.mem_cons.mp hb with rfl | hb
        · rw [hrest _ hnot]
          exact hrow
        · exact hrows b hb
      · rw [List.map_cons, List.mem_cons, not_or] at hk
        rw [hrest k hk.2, hothers k hk.1]

/-- Rows of a command's rows filled one by one with single partials. -/
theorem State.putSingles_fill {s t : State} {x : OpCtx} {n acc sfmt slots : Nat} {row : Nat → Nat} {val : Nat → List Word}
    (hrow : ∀ i j, row i = row j → i = j) (hc : (s.cmd? x.page x.slot).isSome = true)
    (hfree : ∀ i < n, (s.viewRow x.page x.slot x.hall (row i)).tag.state = 0)
    (e : foldE (fun (s : State) i => s.putSingle x (row i) acc sfmt slots (val i)) s (List.range n) = .ok t) :
    ∀ i < n, (t.viewRow x.page x.slot x.hall (row i)).Holds (val i) acc sfmt := by
  obtain ⟨-, hrows, -⟩ := foldE_fills (view := fun s l => s.viewRow x.page x.slot x.hall l) (row := row)
    (Inv := fun s => (s.cmd? x.page x.slot).isSome = true) (R := fun i r => r.Holds (val i) acc sfmt)
    (fun s i t hi hf e => have h := State.putSingle_enters hi hf e; ⟨h.here, h.row, h.others⟩) (List.range n)
    (List.nodup_range.map fun i j h => hrow i j h) (fun i hi => hfree i (List.mem_range.mp hi)) hc e
  exact fun i hi => hrows i (List.mem_range.mpr hi)

end Sys2Proof.Machine
end

section
/-! PROOFS. Tiles that an attempt holds stay, and the elementwise and Newel rows. -/

namespace Sys2Proof.Machine

/-! ### Tiles -/

/-- What names a tile: hall, pass, operation, token-row tile, output group. -/
def Tile.key (t : Tile) : Nat × Nat × Nat × Nat × Nat := (t.hall, t.pass, t.op, t.trow, t.og)

theorem Tile.add_keys (t : Tile) (l : List Tile) (k : Nat × Nat × Nat × Nat × Nat) :
    k ∈ (t.add l).map Tile.key ↔ k = t.key ∨ k ∈ l.map Tile.key := by
  induction l with
  | nil => simp [Tile.add]
  | cons y l ih =>
    unfold Tile.add
    split
    · next h =>
      obtain ⟨h1, h2, h3, h4, h5⟩ := h
      have hkey : t.key = y.key := by unfold Tile.key; rw [h1, h2, h3, h4, h5]
      rw [List.map_cons, List.mem_cons, List.map_cons, List.mem_cons, hkey]
      change k = y.key ∨ _ ↔ _
      tauto
    · rw [List.map_cons, List.mem_cons, ih, List.map_cons, List.mem_cons]
      tauto

theorem Attempt.addTiles_keys (a : Attempt) (l : List Tile) (k : Nat × Nat × Nat × Nat × Nat) :
    k ∈ (a.addTiles l).tiles.map Tile.key ↔ k ∈ l.map Tile.key ∨ k ∈ a.tiles.map Tile.key := by
  have h (l ts : List Tile) : k ∈ (l.foldl (fun ts t => t.add ts) ts).map Tile.key ↔ k ∈ l.map Tile.key ∨ k ∈ ts.map Tile.key := by
    induction l generalizing ts with
    | nil => simp
    | cons t l ih =>
      rw [List.foldl_cons, ih, Tile.add_keys, List.map_cons, List.mem_cons]
      tauto
  exact h l a.tiles

/-- Every tile that an attempt holds stays. -/
structure TilesMore (q : Page) (slot : Nat) (s t : State) : Prop where
  keys : ∀ k ∈ (s.att q slot).tiles.map Tile.key, k ∈ (t.att q slot).tiles.map Tile.key

namespace TilesMore

variable {q : Page} {slot : Nat} {s t u : State}

theorem refl (s : State) : TilesMore q slot s s := ⟨fun _ h => h⟩

theorem trans (a : TilesMore q slot s t) (b : TilesMore q slot t u) : TilesMore q slot s u := ⟨fun k h => b.keys k (a.keys k h)⟩

theorem ite {c : Prop} [Decidable c] (ht : TilesMore q slot s t) (hu : TilesMore q slot s u) :
    TilesMore q slot s (if c then t else u) := by
  by_cases hc : c
  · rw [if_pos hc]; exact ht
  · rw [if_neg hc]; exact hu

theorem foldl {α : Type} {f : State → α → State} (hf : ∀ t a, TilesMore q slot s t → TilesMore q slot s (f t a)) (l : List α) :
    ∀ {t : State}, TilesMore q slot s t → TilesMore q slot s (l.foldl f t) := by
  induction l with
  | nil => exact fun h => h
  | cons a l ih => exact fun h => ih (hf _ a h)

/-- A change of the attempt that keeps its tiles, or adds to them. -/
theorem modAtt (h : TilesMore q slot s t) {f : Attempt → Attempt}
    (hf : ∀ a k, k ∈ a.tiles.map Tile.key → k ∈ (f a).tiles.map Tile.key) : TilesMore q slot s (t.modAtt q slot f) := by
  refine h.trans ⟨fun k hk => ?_⟩
  cases hc : t.cmd? q slot with
  | none =>
    have e : (t.modAtt q slot f).cmd? q slot = none := by simpa [hc] using t.cmd?_modAtt_isSome q slot f slot
    simp only [State.att, hc, e] at hk ⊢
    exact hk
  | some c =>
    rw [t.att_modAtt q slot f (by simp [hc])]
    exact hf _ k hk

theorem modHall (h : TilesMore q slot s t) (k : Nat) (f : Hall → Hall) : TilesMore q slot s (t.modHall k f) := ⟨h.keys⟩

theorem addTiles (h : TilesMore q slot s t) (l : List Tile) : TilesMore q slot s (t.modAtt q slot (·.addTiles l)) :=
  h.modAtt fun a k hk => (a.addTiles_keys l k).mpr (.inr hk)

theorem setRow (h : TilesMore q slot s t) (k l : Nat) (r : URow) : TilesMore q slot s (t.setRow q slot k l r) := by
  unfold State.setRow
  split
  · exact h.modAtt fun _ _ => by exact id
  · exact (TilesMore.trans h ⟨fun _ => by exact id⟩ : TilesMore q slot s t.fresh.2).modAtt fun _ _ => by exact id

theorem accept (h : TilesMore q slot s t) (k a : Nat) (key : RowKey) (v : List Word) (m : Nat) :
    Answers (fun r => TilesMore q slot s r.1) (t.accept q slot k a key v m) :=
  State.accept_answers (fun _ _ _ h => h.setRow ..) h k a key v m

theorem putSingle {x : OpCtx} (h : TilesMore x.page x.slot s t) (row acc sfmt slots : Nat) (v : List Word) :
    Answers (TilesMore x.page x.slot s) (t.putSingle x row acc sfmt slots v) := by
  unfold State.putSingle
  split
  · exact .error
  · next e => exact .ok (h.accept _ _ _ _ _ _ e)

theorem releaseRows (h : TilesMore q slot s t) (k : Nat) (ls : List Nat) : TilesMore q slot s (t.releaseRows q slot k ls) :=
  h.modAtt fun _ _ => id

/-! Writes of staged faces -/

theorem modStaged (h : TilesMore q slot s t) (u : Use) (f : Staged → Staged) : TilesMore q slot s (t.modStaged q slot u f) :=
  h.modAtt fun _ _ => by exact id

theorem openFace (h : TilesMore q slot s t) (u : Use) (w : Writer) : TilesMore q slot s (t.openFace q slot u w) := by
  unfold State.openFace
  split
  · exact h.modAtt fun _ _ => by exact id
  · exact (h.modHall ..).modAtt fun _ _ => by exact id

theorem putBlocks (h : TilesMore q slot s t) (u : Use) (x : WriteCtx) (first col0 nc : Nat) (rows : List (List BlockOut))
    (cs : List (Nat × Val)) : TilesMore q slot s (t.putBlocks q slot u x first col0 nc rows cs) := by
  unfold State.putBlocks
  split
  · exact h
  · dsimp only
    refine addTiles ?_ _
    have counted (v : State) (w : Use) (c : Int) (f : Stat → Stat) (l : List (Nat × Nat)) (hv : TilesMore q slot s v) :
        TilesMore q slot s ((v.modStat q slot w c f).addSqs q slot w l) := by
      unfold State.addSqs State.modStat
      have hstat := TilesMore.ite (c := Plan.managedT (v.plan? q) w.d.tensor = true) (hv.modAtt (f := fun a =>
        a.putStat w.hall (f { a.stat w.hall w.d.tensor c with coarse := c, wrote := true })) fun _ _ => by exact id) hv
      exact .ite (hstat.modAtt fun _ _ => by exact id) hstat
    have wrote := fun f g c p l => counted _ u c p l ((h.modHall u.hall f).modStaged u g)
    refine .ite ((wrote _ _ _ _ _).modAtt fun a k hk => ?_) (wrote _ _ _ _ _)
    unfold Attempt.pushMax
    split
    · exact hk
    · split <;> exact hk

theorem putRows (h : TilesMore q slot s t) (u : Use) (x : WriteCtx) (first col0 : Nat) (vals : List (List Val)) :
    TilesMore q slot s (t.putRows q slot u x first col0 vals) := by
  unfold State.putRows
  split
  · exact h
  · exact .ite (h.modStaged ..) (h.putBlocks ..)

theorem putElems {x : OpCtx} (h : TilesMore x.page x.slot s t) (u : Use) (r : Nat) (els : List (Nat × EOut)) :
    TilesMore x.page x.slot s (t.putElems x u r els) := by
  unfold State.putElems
  split
  · exact h
  · exact TilesMore.foldl (fun _ _ h => h.putRows ..) _ h

end TilesMore

theorem hasTile_of_key {x : OpCtx} {t : State} {i g : Nat}
    (h : (x.hall, x.pass, x.off, i, g) ∈ (t.att x.page x.slot).tiles.map Tile.key) : HasTile x i g (x.finish t) := by
  obtain ⟨z, hz, e⟩ := List.mem_map.mp h
  simp only [Tile.key, Prod.mk.injEq] at e
  exact ⟨z, by rw [OpCtx.att_finish Attempt.tiles (fun _ _ => rfl)]; exact hz, e⟩

/-- The attempt holds the tiles of an operation once they have been added, and still at its end. -/
theorem hasTile_of {x : OpCtx} {s t : State} {i g : Nat} {ev : List ((Nat × Nat) × Event)} {all : List (Nat × Nat)}
    (hc : (s.cmd? x.page x.slot).isSome = true) (hi : (i, g) ∈ all)
    (h : TilesMore x.page x.slot (s.modAtt x.page x.slot (·.addTiles (tilesOf x.hall x.pass x.off ev all))) t) :
    HasTile x i g (x.finish t) := by
  refine hasTile_of_key (h.keys _ ?_)
  rw [State.att_modAtt _ _ _ _ hc]
  refine (Attempt.addTiles_keys ..).mpr (.inl ?_)
  unfold tilesOf
  rw [List.map_map]
  exact List.mem_map.mpr ⟨(i, g), hi, rfl⟩

theorem OpCtx.finish_view (x : OpCtx) (t : State) (k l : Nat) : (x.finish t).viewRow x.page x.slot k l = t.viewRow x.page x.slot k l :=
  ((RowsStand.refl t).modAtt (f := (·.addDone x.hall x.off)) fun _ => rfl).view k l

/-! ### E-mode (R70 to R73) -/

/-- The results of an elementwise pass. -/
def EOp.outs (o : EOp) (p : Plan) (tiles : List ETile) (vecs : List (List EEl)) : List EOut :=
  tiles.zipIdx.flatMap fun z => eTile p o z.2 z.1 (vecs.getD z.2 [])

/-- The events of an elementwise pass's results. -/
def eEvents (out : List EOut) : List ((Nat × Nat) × Event) :=
  out.filterMap fun e => if e.fl.any then some ((e.tile, 0), (((0, e.j, e.t) : Pos), e.fl)) else none

/-- The state in which an elementwise pass has entered its tiles. -/
def State.eTiled (s : State) (x : OpCtx) (o : EOp) (out : List EOut) : State :=
  s.modAtt x.page x.slot (·.addTiles (tilesOf x.hall x.pass x.off (eEvents out) ((List.range o.tiles).map fun i => (i, 0))))

theorem State.epass_ok {s t : State} {x : OpCtx} {o : EOp} (e : s.epass x o = .ok t) : ∃ s1 tiles s2 vecs u,
    s.eOperandA x o = .ok (s1, tiles) ∧ s1.eVectors x o = .ok (s2, vecs)
      ∧ (if o.dest then (s2.eTiled x o (o.outs x.plan tiles vecs)).eToTensor x o tiles (o.outs x.plan tiles vecs)
        else (s2.eTiled x o (o.outs x.plan tiles vecs)).eToRows x o (o.outs x.plan tiles vecs)) = .ok u
      ∧ t = if o.release then u.releaseRows x.page x.slot x.hall o.reads else u := by
  unfold State.epass at e
  split at e
  · cases e
  next s1 tiles h1 =>
  split at e
  · cases e
  next s2 vecs h2 =>
  dsimp only at e
  split at e
  · cases e
  next u h3 => exact ⟨s1, tiles, s2, vecs, u, h1, h2, h3, (Except.ok.inj e).symm⟩

namespace RowsStand

variable {x : OpCtx} {s t : State}

theorem eOperandA (h : RowsStand x.page x.slot s t) (o : EOp) : Answers (fun r => RowsStand x.page x.slot s r.1) (t.eOperandA x o) := by
  unfold State.eOperandA
  refine Answers.ite ?_ ?_
  · split
    · exact .error
    · exact .ok h
  · dsimp only
    split
    · exact .error
    split
    · exact .error
    next e => exact .guard (.ok (h.freshTensor _ _ _ e))

theorem eVectors (h : RowsStand x.page x.slot s t) (o : EOp) : Answers (fun r => RowsStand x.page x.slot s r.1) (t.eVectors x o) := by
  unfold State.eVectors
  refine Answers.ite (.ok h) (.ite ?_ ?_)
  · split
    · exact .error
    · exact .ok h
  · dsimp only
    split
    · exact .error
    split
    · exact .error
    · exact .ok (h.countInvalid ..)

end RowsStand

theorem TilesMore.eToTensor {x : OpCtx} {s t : State} (h : TilesMore x.page x.slot s t) (o : EOp) (tiles : List ETile) (out : List EOut) :
    Answers (TilesMore x.page x.slot s) (t.eToTensor x o tiles out) := by
  unfold State.eToTensor
  split
  · exact .error
  · exact .ok (TilesMore.foldl (fun _ _ h => h.putElems ..) _ (h.openFace ..))

/-- What entering a row leaves of the halls. -/
theorem State.halls_putSingle {s t : State} (h : t.halls = s.halls) (x : OpCtx) (row acc sfmt slots : Nat) (v : List Word) :
    Answers (fun u => u.halls = s.halls) (t.putSingle x row acc sfmt slots v) := by
  have hset (t : State) (l : Nat) (r : URow) (h : t.halls = s.halls) {k : Nat} : (t.setRow x.page x.slot k l r).halls = s.halls := by
    unfold State.setRow
    split <;> exact h
  unfold State.putSingle
  split
  · exact .error
  · next e => exact .ok (State.accept_answers hset h _ _ _ _ _ _ e)

theorem BayFrame.of_halls {s t : State} (h : t.halls = s.halls) : BayFrame s t := ⟨fun k => by unfold State.hall; rw [h]⟩

/-- An elementwise pass whose results go to rows changes no stack, and fills its rows. -/
theorem State.epass_rows {s t : State} {x : OpCtx} {o : EOp} (hc : (s.cmd? x.page x.slot).isSome = true) (hd : o.dest = false)
    (e : s.epass x o = .ok t) : SameStacks s t ∧ ∀ s1 tiles s2 vecs, s.eOperandA x o = .ok (s1, tiles) →
      s1.eVectors x o = .ok (s2, vecs) →
      (∀ i < 64 * o.tiles, (s.viewRow x.page x.slot x.hall (o.drow + i * slotCount o.slots)).tag.state = 0) →
      ∀ n < 64 * o.tiles, (t.viewRow x.page x.slot x.hall (o.drow + n * slotCount o.slots)).Holds
        ((((o.outs x.plan tiles vecs).drop (64 * n)).take 64).map fun e => BitVec.ofNat 32 e.v.toF32) 5 o.sfmt := by
  obtain ⟨s1, tiles, s2, vecs, u, h1, h2, h3, h4⟩ := State.epass_ok e
  rw [if_neg (by simp [hd])] at h3
  have hstand : RowsStand x.page x.slot s (s2.eTiled x o (o.outs x.plan tiles vecs)) :=
    ((((RowsStand.refl s).eOperandA o _ h1).eVectors o _ h2).addTiles _)
  have hout : RowsStand x.page x.slot u t := by
    rw [h4]
    exact .ite ((RowsStand.refl u).releaseRows ..) (.refl u)
  generalize s2.eTiled x o (o.outs x.plan tiles vecs) = w at hstand h3
  have hhalls : u.halls = w.halls := Answers.foldE (fun t i h => State.halls_putSingle h x _ _ _ _ _) _ rfl u h3
  refine ⟨((hstand.bays.trans (.of_halls hhalls)).trans hout.bays).sameStacks, fun s1' tiles' s2' vecs' h1' h2' hfree n hn => ?_⟩
  rw [h1] at h1'
  cases h1'
  rw [h2] at h2'
  cases h2'
  rw [hout.view]
  refine State.putSingles_fill (fun i j hij => ?_) (hstand.here.trans hc) (fun i hi => ?_) h3 n hn
  · exact Nat.eq_of_mul_eq_mul_right (Nat.two_pow_pos o.slots) (Nat.add_left_cancel hij)
  · rw [hstand.view]
    exact hfree i hi

/-- The tiles of an elementwise pass stand when it ends. -/
theorem State.epass_tiles {s t : State} {x : OpCtx} {o : EOp} (hc : (s.cmd? x.page x.slot).isSome = true) (e : s.epass x o = .ok t)
    {i : Nat} (hi : i < o.tiles) : HasTile x i 0 (x.finish t) := by
  obtain ⟨s1, tiles, s2, vecs, u, h1, h2, h3, h4⟩ := State.epass_ok e
  have hstand : RowsStand x.page x.slot s s2 := ((RowsStand.refl s).eOperandA o _ h1).eVectors o _ h2
  have hmore : TilesMore x.page x.slot (s2.eTiled x o (o.outs x.plan tiles vecs)) u := by
    split at h3
    · exact (TilesMore.refl _).eToTensor o _ _ u h3
    · exact Answers.foldE (fun _ _ h => h.putSingle _ _ _ _ _) _ (.refl _) u h3
  refine hasTile_of (ev := eEvents (o.outs x.plan tiles vecs)) (hstand.here.trans hc) (List.mem_map_of_mem (f := fun i => (i, 0)) (List.mem_range.mpr hi)) ?_
  rw [h4]
  exact .ite (hmore.releaseRows ..) hmore

theorem exec_eRow (a : Site) (u : Upset) (s : State) : ∀ e ∈ [(eMUL, Instr.eMul), (eDIV, Instr.eDiv), (eRECIP, Instr.recip),
    (eSQRT, Instr.eSqrt), (eRSQRT, Instr.rsqrt), (ePOW, Instr.pow), (eSCALE, Instr.scale), (eEXP, Instr.exp), (eLOG2, Instr.log2),
    (eLN, Instr.ln), (eABS, Instr.abs), (eNEG, Instr.neg), (eMAX, Instr.eMax), (eMIN, Instr.eMin), (eCMPGT, Instr.cmpgt),
    (eCMPEQ, Instr.cmpeq), (eFUNC, Instr.func)], exec (e.2 a u) s = eRow e.1 a u s := by
  simp only [List.forall_mem_cons]
  refine ⟨?_, ?_, ?_, ?_, ?_, ?_, ?_, ?_, ?_, ?_, ?_, ?_, ?_, ?_, ?_, ?_, ?_, by simp⟩ <;> rfl

/-- Settles O19: a pass at its turn ends with its tiles, and fills the rows that its results go to. -/
theorem elementwiseCompletes : Obligations.ElementwiseCompletes := by
  unfold Obligations.ElementwiseCompletes
  intro s a u x o k c t1 hc hat hop he hp
  obtain ⟨hdone, hout, hcom⟩ := hat.completes ((OpFrame.refl s).epass o t1 he)
  have hrow : eRow k a u s = .next (x.finish t1) := runOp_done hat (by rw [hop]; exact withParity_done hp he)
  refine ⟨_, (exec_eRow a u s (k, c) hc).trans hrow, hdone, fun i hi => State.epass_tiles hat.isSome he hi, hout, hcom, fun hd => ?_⟩
  obtain ⟨hstacks, hfill⟩ := State.epass_rows hat.isSome hd he
  refine ⟨hstacks, fun s1 s2 tiles vecs n h1 h2 hfree hn => ?_⟩
  intro out r
  obtain ⟨hdata, hstate, hacc, hsfmt⟩ := hfill s1 tiles s2 vecs h1 h2 hfree n hn
  have hview : r = t1.viewRow x.page x.slot x.hall (o.drow + n * slotCount o.slots) := OpCtx.finish_view ..
  rw [hview]
  exact ⟨hdata, hstate, hacc, hsfmt⟩

/-! ### NEWEL (R74) -/

/-- Nothing but draws and losses of the attempt changes before a Newel operation enters its rows. -/
structure NewelFrame (x : OpCtx) (s t : State) : Prop where
  halls : t.halls = s.halls
  rows : RowsStand x.page x.slot s t

namespace NewelFrame

variable {x : OpCtx} {s t : State}

theorem refl (s : State) : NewelFrame x s s := ⟨rfl, .refl s⟩

theorem modAtt (h : NewelFrame x s t) {f : Attempt → Attempt} (hf : ∀ a, (f a).rowPart = a.rowPart) :
    NewelFrame x s (t.modAtt x.page x.slot f) := ⟨h.halls, h.rows.modAtt hf⟩

theorem sampDrew (h : NewelFrame x s t) (lane n : Nat) : NewelFrame x s (t.sampDrew x lane n) := by
  unfold State.sampDrew
  exact h.modAtt fun _ => by rfl

theorem sampleRows (o : NewelOp) (v : NewelIn) : NewelFrame x s (s.sampleRows x o v).1 := by
  unfold State.sampleRows
  have h (l : List (List Nat × Nat)) : ∀ acc : State × List (List Nat), NewelFrame x s acc.1 → NewelFrame x s (l.foldl (fun acc z =>
      (acc.1.sampDrew x (z.2 % 32) 1, acc.2 ++ [[tokenFp (fpOf o.fp64) (sampleFrom (asF32 o.fp64 z.1)
        (uniform (acc.1.sampWord x (z.2 % 32) 0)))]])) acc).1 := by
    induction l with
    | nil => exact fun _ h => h
    | cons z l ih => exact fun acc h => ih _ (h.sampDrew ..)
  exact h _ (s, []) (.refl s)

theorem newelOut (o : NewelOp) (v : NewelIn) : NewelFrame x s (s.newelOut x o v).1 := by
  unfold State.newelOut
  dsimp only
  split
  · exact .refl s
  split
  · exact .refl s
  split
  · exact .sampleRows o v
  split
  · exact (NewelFrame.refl s).sampDrew ..
  · exact .refl s

theorem countLoss (h : NewelFrame x s t) (o : NewelOp) (rows : List (List Nat)) : NewelFrame x s (t.countLoss x o rows) := by
  unfold State.countLoss
  split
  · exact h.modAtt fun _ => by rfl
  · exact h

end NewelFrame

theorem rowBits_append (fp64 : Bool) (a b : List Nat) : rowBits fp64 (a ++ b) = rowBits fp64 a ++ rowBits fp64 b := by
  unfold rowBits
  split
  · rw [List.flatMap_append]
  · rw [List.map_append]

/-- A result row begins with its stated elements. -/
theorem rowBits_newelRow? (x : OpCtx) (o : NewelOp) (v : NewelIn) (i : Nat) (l : List Nat) :
    (rowBits o.fp64 (newelRow? x o v i l)).take (rowBits o.fp64 l).length = rowBits o.fp64 l := by
  unfold newelRow?
  dsimp only
  rw [rowBits_append, List.take_left]

/-- What a Newel operation leaves of the halls, and the rows that it fills. -/
theorem State.newel_rows {s t : State} {x : OpCtx} {o : NewelOp} {v : NewelIn} (hc : (s.cmd? x.page x.slot).isSome = true)
    (hv : s.newelIn x o = .ok v) (e : s.newel x o = .ok t) : t.halls = s.halls ∧
      ((∀ j < o.rows, (s.viewRow x.page x.slot x.hall (o.drow + j)).tag.state = 0) → ∀ i < o.rows,
        (t.viewRow x.page x.slot x.hall (o.drow + i)).Holds
          (rowBits o.fp64 (newelRow? x o v i ((s.newelOut x o v).2.getD i []))) 6 8) := by
  unfold State.newel at e
  rw [hv] at e
  dsimp only at e
  have hframe := (NewelFrame.newelOut (s := s) (x := x) o v).countLoss o (s.newelOut x o v).2
  generalize (s.newelOut x o v).1.countLoss x o (s.newelOut x o v).2 = w at *
  refine ⟨(Answers.foldE (fun t i h => State.halls_putSingle h x _ _ _ _ _) _ rfl t e).trans hframe.halls, fun hfree i hi => ?_⟩
  exact State.putSingles_fill (fun i j hij => Nat.add_left_cancel hij) (hframe.rows.here.trans hc)
    (fun j hj => by rw [hframe.rows.view]; exact hfree j hj) e i hi

theorem exec_newelRow (a : Site) (u : Upset) (s : State) : ∀ e ∈ [(nADD, Instr.newelAdd), (nMUL, Instr.newelMul), (nFMA, Instr.fma),
    (nDIV, Instr.newelDiv), (nSQRT, Instr.newelSqrt), (nMAXIMUM, Instr.maximum), (nMINIMUM, Instr.minimum), (nMAXNUM, Instr.maxnum),
    (nMINNUM, Instr.minnum), (nCMP, Instr.cmp), (nROWMAX, Instr.rowmax), (nXENT, Instr.xent), (nSAMPLE, Instr.sample),
    (nVERIFY, Instr.verify)], exec (e.2 a u) s = newelRow e.1 a u s := by
  simp only [List.forall_mem_cons]
  refine ⟨?_, ?_, ?_, ?_, ?_, ?_, ?_, ?_, ?_, ?_, ?_, ?_, ?_, ?_, by simp⟩ <;> rfl

/-- Settles O20: an operation at its turn ends with its result rows, each entered as a single partial. -/
theorem newelCompletes : Obligations.NewelCompletes := by
  unfold Obligations.NewelCompletes
  intro s a u x o k c v t1 hc hat hop hv he hu
  obtain ⟨hdone, hout, -⟩ := hat.completes ((OpFrame.refl s).newel o t1 he)
  obtain ⟨hhalls, hfill⟩ := State.newel_rows hat.isSome hv he
  have hrow : newelRow k a u s = .next (x.finish t1) := runOp_done hat (by
    rw [hop]
    dsimp only
    rw [hu, he]
    rfl)
  refine ⟨_, (exec_newelRow a u s (k, c) hc).trans hrow, hdone, hout, hhalls, fun i hfree hi => ?_⟩
  intro w r
  obtain ⟨hdata, hstate, hacc, -⟩ := hfill hfree i hi
  have hview : r = t1.viewRow x.page x.slot x.hall (o.drow + i) := OpCtx.finish_view ..
  rw [hview, hdata]
  exact ⟨rowBits_newelRow? .., hstate, hacc⟩

end Sys2Proof.Machine
end

section
/-! PROOFS. The MATPASS rows: how a pass's turn ends, its tiles, and the sums of a single K-chunk. -/

namespace Sys2Proof.Machine

/-! ### The end of a turn -/

/-- A pass without a mismatch or an upset, whose partials find room, ends with its state. -/
theorem matEnd_done {x : OpCtx} {o : MatOp} {u : Upset} {s : State} {m : MatRun} {t : State} (hm : s.matpass x o = .ok m)
    (hb : m.bad = []) (hh : m.hold = false) (hd : (m.close x o).drain x = .ok t) (hu : u.mismatch = []) (hp : u.parity = []) :
    matEnd x o u s = .done t := by
  have hpar (gs : List Nat) : t.parityHits s x gs u = (t, false) := by
    unfold State.parityHits
    rw [hp]
    rfl
  unfold matEnd
  rw [hm]
  dsimp only
  rw [hh, if_neg (by simp), hd, hb, hu]
  dsimp only
  rw [hpar]
  rfl

theorem matTurn_done {x : OpCtx} {o : MatOp} {u : Upset} {s t : State} (n : Nat) (hop : x.op = .matpass o)
    (he : matEnd x o u s = .done t) : matTurn u (n + 1) x s = (x, .done t) := by
  unfold matTurn
  rw [hop]
  dsimp only
  rw [he]

/-- The place of an operation at its turn lies in its hall's share. -/
theorem AtTurn.share {s : State} {a : Site} {want : Plan → Op → Bool} {x : OpCtx} (hat : AtTurn s a want x) :
    ∃ n, (x.plan.passOps x.lh x.pass).length = n + 1 := by
  obtain ⟨-, -, -, -, -, -, -, -, -, -, -, hplace⟩ := opAt_spec hat.2
  have hlt : x.off < (x.plan.passOps x.lh x.pass).length := (List.getElem?_eq_some_iff.mp hplace).1
  exact Nat.exists_eq_add_one_of_ne_zero (by omega)

theorem matRow_done {s t : State} {a : Site} {k : Nat} {x : OpCtx} {o : MatOp} {u : Upset} (hat : AtTurn s a (fun _ => Op.isMat k) x)
    (hop : x.op = .matpass o) (he : matEnd x o u s = .done t) : matRow k a u s = .next (x.finish t) := by
  obtain ⟨n, hn⟩ := hat.share
  have hend := matTurn_done n hop he
  rw [← hn] at hend
  exact matRow_atTurn hat hend fun _ => OpEnd.noConfusion

/-! ### What a pass leaves of the halls, and its tiles -/

theorem State.halls_accept {s t : State} (h : t.halls = s.halls) (q : Page) (slot k a : Nat) (key : RowKey) (v : List Word) (m : Nat) :
    Answers (fun r => r.1.halls = s.halls) (t.accept q slot k a key v m) := by
  refine State.accept_answers (P := fun t => t.halls = s.halls) (fun t l r h k => ?_) h k a key v m
  unfold State.setRow
  split <;> exact h

namespace MatRun

variable {x : OpCtx} {m : MatRun} {w : State}

theorem enter_halls (h : m.s.halls = w.halls) (o : MatOp) (r g c : Nat) (y : List Word) (n : Nat) :
    Answers (fun m => m.s.halls = w.halls) (m.enter x o r g c y n) := by
  unfold MatRun.enter
  dsimp only
  refine .ite (.ite (.ok h) (.ok h)) ?_
  split
  · exact .error
  · next e => exact .ok (State.halls_accept h _ _ _ _ _ _ _ _ e)

theorem rowGroup_halls (h : m.s.halls = w.halls) (o : MatOp) (u : Use) (gs : List Nat) (a : Acts) (tau r g : Nat) :
    Answers (fun m => m.s.halls = w.halls) (m.rowGroup x o u gs a tau r g) := by
  unfold MatRun.rowGroup
  refine .ite (Answers.foldE (fun m run h => ?_) _ h) (Answers.foldE (fun m c h => ?_) _ h)
  · unfold MatRun.run
    dsimp only
    split
    · exact .error
    · refine enter_halls ?_ _ _ _ _ _ _
      split <;> exact h
  · unfold MatRun.chunk
    split
    · exact .error
    · refine enter_halls ?_ _ _ _ _ _ _
      rw [witness_s]
      exact h

/-- The end of a pass enters its tiles and leaves the rows. -/
theorem close_spec (m : MatRun) (x : OpCtx) (o : MatOp) : RowsStand x.page x.slot m.s (m.close x o)
    ∧ ∀ k ∈ (tilesOf x.hall x.pass x.off m.ev ((List.range o.tiles).flatMap fun i => (List.range (o.groups x.plan)).map fun g => (i, g))).map
      Tile.key, (m.s.cmd? x.page x.slot).isSome = true → k ∈ ((m.close x o).att x.page x.slot).tiles.map Tile.key := by
  unfold MatRun.close
  dsimp only
  generalize tilesOf x.hall x.pass x.off m.ev _ = tiles
  have hadd : RowsStand x.page x.slot m.s (m.s.modAtt x.page x.slot fun a => { a.addTiles tiles with evidence := a.evidence + m.skip.length }) :=
    (RowsStand.refl m.s).modAtt fun _ => by rfl
  have hkeys : ∀ k ∈ tiles.map Tile.key, (m.s.cmd? x.page x.slot).isSome = true → k ∈ ((m.s.modAtt x.page x.slot fun a =>
      { a.addTiles tiles with evidence := a.evidence + m.skip.length }).att x.page x.slot).tiles.map Tile.key := fun k hk hc => by
    rw [State.att_modAtt _ _ _ _ hc]
    exact (Attempt.addTiles_keys ..).mpr (.inl hk)
  generalize (m.s.modAtt x.page x.slot fun a => { a.addTiles tiles with evidence := a.evidence + m.skip.length }) = v at *
  have hskip (l : List Nat) : ∀ t, RowsStand x.page x.slot m.s t → TilesMore x.page x.slot v t →
      RowsStand x.page x.slot m.s (l.foldl (fun s g => s.modGal x.hall g fun G => { G with skip := satAdd 255 G.skip 1 }) t)
      ∧ TilesMore x.page x.slot v (l.foldl (fun s g => s.modGal x.hall g fun G => { G with skip := satAdd 255 G.skip 1 }) t) := by
    induction l with
    | nil => exact fun t h k => ⟨h, k⟩
    | cons g l ih => exact fun t h k => ih _ (h.modGal ..) (k.modHall ..)
  obtain ⟨hrows, htiles⟩ := hskip m.skip v hadd (.refl v)
  exact ⟨.ite (hrows.releaseRows ..) hrows, fun k hk hc => (TilesMore.ite (htiles.releaseRows ..) htiles).keys k (hkeys k hk hc)⟩

end MatRun

theorem State.halls_drain {s t : State} {x : OpCtx} (e : s.drain x = .ok t) : t.halls = s.halls := by
  unfold State.drain at e
  refine Answers.foldE (P := fun t : State => t.halls = s.halls) (fun t e h => .ite (.ok h) ?_) _ rfl t e
  split
  · exact .error
  · next r => exact .ok (State.halls_accept h _ _ _ _ _ _ _ _ r)

theorem TilesMore.drain {s t : State} {x : OpCtx} (e : s.drain x = .ok t) : TilesMore x.page x.slot s t := by
  unfold State.drain at e
  refine Answers.foldE (P := fun t : State => TilesMore x.page x.slot s t) (fun t e h => .ite (.ok h) ?_) _ (.refl s) t e
  split
  · exact .error
  · next r => exact .ok ((h.accept _ _ _ _ _ _ r).modAtt fun a k hk => by exact (Attempt.addTiles_keys ..).mpr (.inr hk))

/-- With no partial that waits there is nothing to drain. -/
theorem State.drain_of_early {s : State} {x : OpCtx} (h : (s.att x.page x.slot).early = []) : s.drain x = .ok s := by
  unfold State.drain
  rw [h]
  rfl

/-- What a pass reads before its partials, and the fold over its row groups. -/
theorem State.matpass_ok {s : State} {x : OpCtx} {o : MatOp} {m : MatRun} (e : s.matpass x o = .ok m) : ∃ us acts s1,
    (s.att x.page x.slot).use? x.hall o.wtensor = some us ∧ s.matActs x o = .ok acts
      ∧ s.freshChunks x us ((s.hall x.hall).galsOf o.gals) (o.needs x.plan) = .ok s1
      ∧ foldE (fun m rg => m.rowGroup x o us ((s.hall x.hall).galsOf o.gals) acts x.tau rg.1 rg.2) ⟨s1, [], [], [], false⟩
          ((List.range (64 * o.tiles)).flatMap fun r => (List.range (o.groups x.plan)).map fun g => (r, g)) = .ok m := by
  unfold State.matpass at e
  dsimp only at e
  split at e
  · cases e
  next us h1 =>
  split at e
  · cases e
  next acts h2 =>
  split at e
  · cases e
  next s1 h3 => exact ⟨us, acts, s1, h1, h2, h3, e⟩

/-- A pass changes the bays that it reloads, and no hall beside. -/
theorem State.matpass_bays {s t : State} {x : OpCtx} {o : MatOp} {m : MatRun} (e : s.matpass x o = .ok m) (hd : (m.close x o).drain x = .ok t) :
    BayFrame s t := by
  obtain ⟨us, acts, s1, -, -, h3, h4⟩ := State.matpass_ok e
  have hfresh := (RowsStand.refl s).freshChunks us _ _ s1 h3
  have hpass : m.s.halls = s1.halls := Answers.foldE (P := fun m : MatRun => m.s.halls = s1.halls)
    (fun m rg h => MatRun.rowGroup_halls h o us _ acts x.tau rg.1 rg.2) _ rfl m h4
  exact ((hfresh.bays.trans (.of_halls hpass)).trans (m.close_spec x o).1.bays).trans (.of_halls (State.halls_drain hd))

/-- The tiles of a pass stand when it ends. -/
theorem State.matpass_tiles {t : State} {x : OpCtx} {o : MatOp} {m : MatRun} (hc : (m.s.cmd? x.page x.slot).isSome = true)
    (hd : (m.close x o).drain x = .ok t) {i g : Nat} (hi : i < o.tiles) (hg : g < o.groups x.plan) : HasTile x i g (x.finish t) := by
  refine hasTile_of_key ((TilesMore.drain hd).keys _ ((m.close_spec x o).2 _ ?_ hc))
  unfold tilesOf
  rw [List.map_map]
  exact List.mem_map.mpr ⟨(i, g), List.mem_flatMap.mpr ⟨i, List.mem_range.mpr hi, List.mem_map_of_mem (List.mem_range.mpr hg)⟩, rfl⟩

/-! ### The sums of a single K-chunk -/

/-- With K-chunk 0 no pass enters earlier chunks. -/
theorem State.awaits_zero (s : State) (x : OpCtx) (but : List Nat) (off row : Nat) (k : RowKey) : s.awaits x but off row 0 k = false := by
  unfold State.awaits
  refine List.any_eq_false.mpr fun i _ => ?_
  split <;> simp

/-- A chunk is found by the halls alone. -/
theorem State.chunkOf_congr {s t : State} (h : t.halls = s.halls) (x : OpCtx) (o : MatOp) (u : Use) (gs : List Nat) (g c : Nat) :
    t.chunkOf x o u gs g c = s.chunkOf x o u gs g c := by
  unfold State.chunkOf State.chunkView State.hall
  rw [h]

/-- The sums of the flights of a row group whose chunk is K-chunk 0 alone. -/
def MatOp.sums (o : MatOp) (p : Plan) (acts : Acts) (kk : Option Chunk) (r : Nat) : List Word :=
  (List.range 64).map fun j => ((kk.map fun kk => BitVec.ofNat 32 (flight p.tables o.kind acts kk (o.klen p) r 0 j).1).getD 0)

/-- The progress of a pass whose partials all enter at once. -/
structure MatRun.Direct (w : State) (x : OpCtx) (m : MatRun) : Prop where
  halls : m.s.halls = w.halls
  here : (m.s.cmd? x.page x.slot).isSome = true
  early : (m.s.att x.page x.slot).early = []

theorem foldE_single {σ α : Type} (f : σ → α → Except Nat σ) (s : σ) (a : α) : foldE f s [a] = f s a := by
  unfold foldE
  cases f s a <;> rfl

/-- A row group of a pass of K-chunk 0 alone takes the sums of its flights. -/
theorem MatRun.rowGroup_single {w : State} {x : OpCtx} {o : MatOp} {us : Use} {gs : List Nat} {acts : Acts} {tau r g : Nat} {m m' : MatRun}
    (hk : o.kind ≠ 3) (hfirst : o.ckFirst = 0) (hcount : o.ckCount = 1) (hchunks : o.chunks = 1) (hm : MatRun.Direct w x m)
    (hfree : (m.s.viewRow x.page x.slot x.hall (o.row x.plan r g)).tag.state = 0)
    (e : m.rowGroup x o us gs acts tau r g = .ok m') : MatRun.Direct w x m' ∧ (w.chunkOf x o us gs g 0).isSome = true
      ∧ (m'.s.viewRow x.page x.slot x.hall (o.row x.plan r g)).Holds (o.sums x.plan acts (w.chunkOf x o us gs g 0) r) (o.kind + 1) o.sfmt
      ∧ ∀ k, k ≠ o.row x.plan r g → m'.s.viewRow x.page x.slot x.hall k = m.s.viewRow x.page x.slot x.hall k := by
  have hlist : o.chunkList = [0] := by
    unfold MatOp.chunkList
    rw [hfirst, hcount]
    rfl
  unfold MatRun.rowGroup at e
  rw [if_neg hk, hlist, foldE_single] at e
  unfold MatRun.chunk at e
  rw [State.chunkOf_congr hm.halls] at e
  cases hkk : w.chunkOf x o us gs g 0 with
  | none => rw [hkk] at e; cases e
  | some kk =>
    rw [hkk] at e
    dsimp only at e
    unfold MatRun.enter at e
    dsimp only at e
    rw [State.awaits_zero, if_neg (by simp), MatRun.witness_s] at e
    dsimp only at e
    split at e
    · cases e
    · next s1 fl hacc =>
      cases e
      have henter := State.accept_single (k := o.key x.pass) hchunks hm.here hfree hacc
      refine ⟨⟨henter.halls.trans hm.halls, henter.here, henter.early.trans hm.early⟩, rfl, ?_, henter.others⟩
      have hrow := henter.row
      rw [List.map_map] at hrow
      exact hrow

theorem rowNumber_inj {n r r' g g' : Nat} (hg : g < n) (hg' : g' < n) (h : r * n + g = r' * n + g') : r = r' ∧ g = g' := by
  have hmod := congrArg (· % n) h
  simp only [Nat.mul_add_mod_self_right, Nat.mod_eq_of_lt hg, Nat.mod_eq_of_lt hg'] at hmod
  subst hmod
  exact ⟨Nat.eq_of_mul_eq_mul_right (Nat.zero_lt_of_lt hg) (Nat.add_right_cancel h), rfl⟩

/-- The row groups of a pass lie at different rows. -/
theorem MatOp.row_inj (o : MatOp) (p : Plan) {r r' g g' : Nat} (hg : g < o.groups p) (hg' : g' < o.groups p)
    (h : o.row p r g = o.row p r' g') : r = r' ∧ g = g' :=
  rowNumber_inj hg hg' (Nat.eq_of_mul_eq_mul_right (Nat.two_pow_pos o.slots) (Nat.add_left_cancel h))

/-- The row groups of a pass, in the order in which they enter. -/
def MatOp.places (o : MatOp) (p : Plan) : List (Nat × Nat) :=
  (List.range (64 * o.tiles)).flatMap fun r => (List.range (o.groups p)).map fun g => (r, g)

theorem MatOp.mem_places {o : MatOp} {p : Plan} {r g : Nat} : (r, g) ∈ o.places p ↔ r < 64 * o.tiles ∧ g < o.groups p := by
  simp [MatOp.places]

theorem MatOp.places_rows_nodup (o : MatOp) (p : Plan) : ((o.places p).map fun rg => o.row p rg.1 rg.2).Nodup := by
  have hnd : (o.places p).Nodup := List.nodup_range.product List.nodup_range
  refine hnd.map_on fun a ha b hb h => ?_
  obtain ⟨hr, hg⟩ := o.row_inj p (MatOp.mem_places.mp ha).2 (MatOp.mem_places.mp hb).2 h
  exact Prod.ext hr hg

theorem MatRun.rowGroups_single {w : State} {x : OpCtx} {o : MatOp} {us : Use} {gs : List Nat} {acts : Acts} {tau : Nat} {m m' : MatRun}
    (hk : o.kind ≠ 3) (hfirst : o.ckFirst = 0) (hcount : o.ckCount = 1) (hchunks : o.chunks = 1) (hm : MatRun.Direct w x m)
    (hfree : ∀ rg ∈ o.places x.plan, (m.s.viewRow x.page x.slot x.hall (o.row x.plan rg.1 rg.2)).tag.state = 0)
    (e : foldE (fun m rg => m.rowGroup x o us gs acts tau rg.1 rg.2) m (o.places x.plan) = .ok m') :
    MatRun.Direct w x m' ∧ ∀ rg ∈ o.places x.plan, (w.chunkOf x o us gs rg.2 0).isSome = true
      ∧ (m'.s.viewRow x.page x.slot x.hall (o.row x.plan rg.1 rg.2)).Holds (o.sums x.plan acts (w.chunkOf x o us gs rg.2 0) rg.1)
        (o.kind + 1) o.sfmt := by
  obtain ⟨hdirect, hrows, -⟩ := foldE_fills (f := fun m rg => m.rowGroup x o us gs acts tau rg.1 rg.2)
    (view := fun m l => m.s.viewRow x.page x.slot x.hall l) (row := fun rg => o.row x.plan rg.1 rg.2) (Inv := MatRun.Direct w x)
    (R := fun rg row => (w.chunkOf x o us gs rg.2 0).isSome = true
      ∧ row.Holds (o.sums x.plan acts (w.chunkOf x o us gs rg.2 0) rg.1) (o.kind + 1) o.sfmt)
    (fun m rg m' hm hf e => by
      obtain ⟨hm', hsome, hrow, hothers⟩ := MatRun.rowGroup_single hk hfirst hcount hchunks hm hf e
      exact ⟨hm', ⟨hsome, hrow⟩, hothers⟩)
    (o.places x.plan) (o.places_rows_nodup x.plan) hfree hm e
  exact ⟨hdirect, hrows⟩

/-- A pass of K-chunk 0 alone fills its row groups, free before, with the sums of its flights. -/
theorem State.matpass_sums {s s1 t : State} {x : OpCtx} {o : MatOp} {m : MatRun} {us : Use} {acts : Acts} (hc : (s.cmd? x.page x.slot).isSome = true)
    (hk : o.kind ≠ 3) (hfirst : o.ckFirst = 0) (hcount : o.ckCount = 1) (hchunks : o.chunks = 1)
    (hearly : (s.att x.page x.slot).early = []) (hu : (s.att x.page x.slot).use? x.hall o.wtensor = some us)
    (ha : s.matActs x o = .ok acts) (h1 : s.freshChunks x us ((s.hall x.hall).galsOf o.gals) (o.needs x.plan) = .ok s1)
    (hfree : ∀ n < 64 * o.tiles * o.groups x.plan, (s.viewRow x.page x.slot x.hall (o.ubase + n * slotCount o.slots)).tag.state = 0)
    (e : s.matpass x o = .ok m) (hd : (m.close x o).drain x = .ok t) {r g : Nat} (hr : r < 64 * o.tiles) (hg : g < o.groups x.plan) :
    ∃ kk, s1.chunkOf x o us ((s.hall x.hall).galsOf o.gals) g 0 = some kk
      ∧ (t.viewRow x.page x.slot x.hall (o.row x.plan r g)).data = o.sums x.plan acts (some kk) r := by
  obtain ⟨us', acts', s1', hu', ha', h1', hfold⟩ := State.matpass_ok e
  rw [hu] at hu'
  cases hu'
  rw [ha] at ha'
  cases ha'
  rw [h1] at h1'
  cases h1'
  have hfresh := (RowsStand.refl s).freshChunks us _ _ s1 h1
  have hfree1 : ∀ rg ∈ o.places x.plan, (s1.viewRow x.page x.slot x.hall (o.row x.plan rg.1 rg.2)).tag.state = 0 := fun rg hrg => by
    obtain ⟨hr, hg⟩ := MatOp.mem_places.mp hrg
    have hlt : rg.1 * o.groups x.plan + rg.2 < 64 * o.tiles * o.groups x.plan := by
      calc rg.1 * o.groups x.plan + rg.2 < rg.1 * o.groups x.plan + o.groups x.plan := Nat.add_lt_add_left hg _
        _ = (rg.1 + 1) * o.groups x.plan := (Nat.succ_mul ..).symm
        _ ≤ 64 * o.tiles * o.groups x.plan := Nat.mul_le_mul_right _ hr
    rw [hfresh.view]
    exact hfree _ hlt
  obtain ⟨hdirect, hrows⟩ := MatRun.rowGroups_single hk hfirst hcount hchunks
    ⟨rfl, hfresh.here.trans hc, hfresh.early.trans hearly⟩ hfree1 hfold
  have hclose := (m.close_spec x o).1
  rw [State.drain_of_early (hclose.early.trans hdirect.early)] at hd
  cases hd
  obtain ⟨hsome, hrow⟩ := hrows (r, g) (MatOp.mem_places.mpr ⟨hr, hg⟩)
  obtain ⟨kk, hkk⟩ := Option.isSome_iff_exists.mp hsome
  refine ⟨kk, hkk, ?_⟩
  rw [hclose.view, hrow.data, hkk]

theorem exec_matRow (a : Site) (u : Upset) (s : State) : ∀ e ∈ [(0, Instr.matpassL), (1, Instr.matpassWideSum), (2, Instr.matpassT),
    (3, Instr.matpassB)], exec (e.2 a u) s = matRow e.1 a u s := by
  simp only [List.forall_mem_cons]
  refine ⟨?_, ?_, ?_, ?_, by simp⟩ <;> rfl

/-- Settles O18: a pass at its turn ends with its tiles, and the sums of a single K-chunk stand in its rows. -/
theorem matpassCompletes : Obligations.MatpassCompletes := by
  unfold Obligations.MatpassCompletes
  intro s a u x o k c m t1 hc hat hop hm hb hh hd hu hp
  have hpass := OpFrame.matpass (.refl s) o m hm
  obtain ⟨hdone, hout, hcom⟩ := hat.completes (OpFrame.drain (MatRun.close_works hpass o) t1 hd)
  refine ⟨_, (exec_matRow a u s (k, c) hc).trans (matRow_done hat hop (matEnd_done hm hb hh hd hu hp)), hdone, fun i hi g hg =>
    State.matpass_tiles (hpass.here.trans hat.isSome) hd hi hg, hout, hcom, (State.matpass_bays hm hd).sameStacks, ?_⟩
  intro us acts s1 r g hk hfirst hcount hchunks hearly huse hacts hfresh hfree hr hg
  have hkind : o.kind = k := by
    obtain ⟨-, -, -, -, -, -, -, -, -, hwant, -⟩ := opAt_spec hat.2
    rw [hop] at hwant
    simpa [Op.isMat] using hwant
  obtain ⟨kk, hkk, hdata⟩ := State.matpass_sums hat.isSome (by rw [hkind]; exact hk) hfirst hcount hchunks hearly huse hacts hfresh hfree hm hd hr hg
  refine ⟨kk, by rw [hfirst]; exact hkk, ?_⟩
  rw [OpCtx.finish_view, hfirst]
  exact hdata

end Sys2Proof.Machine
end

section
/-! PROOFS. The rows of the operations over links. -/

namespace Sys2Proof.Machine

/-! ### HALLWAIT (R359) -/

/-- How the turn of a HALLWAIT ends. -/
def hallwaitEnd (x : OpCtx) (s : State) : OpEnd :=
  match x.op with
  | .hallwait lh k => if (x.cmd.att.doneAt (s.phys x.page lh)).contains k then .done s else .wait s
  | _ => .wait s

theorem hallwaitEnd_hallwait {x : OpCtx} {lh n : Nat} (hop : x.op = .hallwait lh n) (s : State) :
    hallwaitEnd x s = if n ∈ x.cmd.att.doneAt (s.phys x.page lh) then .done s else .wait s := by
  unfold hallwaitEnd
  rw [hop]
  dsimp only
  simp only [List.contains_eq_mem, decide_eq_true_eq]

/-- A HALLWAIT completes or waits, and changes nothing. -/
theorem hallwaitEnd_cases (x : OpCtx) (s : State) : hallwaitEnd x s = .wait s ∨ ∃ u, hallwaitEnd x s = .done u ∧ u = s := by
  unfold hallwaitEnd
  split
  · split
    · exact .inr ⟨s, rfl, rfl⟩
    · exact .inl rfl
  · exact .inl rfl

/-! ### Collective records -/

theorem SameOutside.trans {q : Page} {s t u : State} (a : SameOutside q s t) (b : SameOutside q t u) : SameOutside q s u := by
  obtain ⟨a1, a2, a3, a4, a5, a6⟩ := a
  obtain ⟨b1, b2, b3, b4, b5, b6⟩ := b
  exact ⟨b1.trans a1, b2.trans a2, b3.trans a3, b4.trans a4, b5.trans a5, fun k hk => (b6 k hk).trans (a6 k hk)⟩

/-- A collective record changes the attempt of its command alone. -/
theorem State.addColl_spec {s : State} {x : OpCtx} (hc : (s.cmd? x.page x.slot).isSome = true) (c : Coll) :
    SameOutside x.page s (s.addColl x.link c) ∧ ((s.addColl x.link c).cmd? x.page x.slot).isSome = true
      ∧ ((s.addColl x.link c).att x.page x.slot).colls = (s.att x.page x.slot).colls ++ [c] := by
  refine ⟨⟨rfl, rfl, rfl, rfl, rfl, fun k hk => (State.job_modJob ..).trans (if_neg hk)⟩, (State.cmd?_modAtt_isSome ..).trans hc, ?_⟩
  unfold State.addColl
  rw [show x.link.page = x.page from rfl, show x.link.slot = x.slot from rfl, State.att_modAtt _ _ _ _ hc]

/-- The end of an operation's work that enters a collective record on its way. -/
theorem OpCtx.addColl_finish {x : OpCtx} {s t u : State} (hc : (s.cmd? x.page x.slot).isSome = true) (h : x.Works s t) (c : Coll)
    (k : x.Works (t.addColl x.link c) u) : OpDone x (x.finish u) ∧ SameOutside x.page s (x.finish u)
      ∧ SameCommitted s (x.finish u) ∧ ((x.finish u).att x.page x.slot).colls = (s.att x.page x.slot).colls ++ [c] := by
  obtain ⟨hout, hsome, hcolls⟩ := State.addColl_spec (h.here.trans hc) c
  have hstands : (t.att x.page x.slot).colls = (s.att x.page x.slot).colls := (congrArg Attempt.colls h.attempt :)
  have hkeeps : (u.att x.page x.slot).colls = ((t.addColl x.link c).att x.page x.slot).colls := (congrArg Attempt.colls k.attempt :)
  refine ⟨OpCtx.finish_done (k.here.trans hsome), OpCtx.finish_outside ((h.sameOutside.trans hout).trans k.sameOutside),
    h.sameCommitted.trans k.sameCommitted, ?_⟩
  rw [OpCtx.att_finish Attempt.colls (fun _ _ => rfl), hkeeps, hcolls, hstands]

/-- A transfer that has been sent in the attempt is not sent again. -/
theorem State.sendOnce_sent {s : State} {k : LinkCtx} {id : XferId} (h : (k.hall, id) ∈ (s.att k.page k.slot).sent) (dest : Nat)
    (ports : List Nat) (vc : Nat) (data : List Byte) : s.sendOnce k id dest ports vc data = .ok s := by
  unfold State.sendOnce
  exact if_pos (List.contains_iff_mem.mpr h)

/-! ### SEND (R222 to R224) -/

theorem State.halls_countSend (s : State) (x : OpCtx) (o : SendOp) : (s.countSend x o).halls = s.halls := by
  unfold State.countSend
  split
  · split
    · unfold State.countRead State.countInvalid
      dsimp only
      split <;> rfl
    · rfl
  · rfl

/-- A SEND whose transfer has its receipt ends with its record. -/
theorem State.send_received {s : State} {x : OpCtx} {o : SendOp} {data : List Byte} {code : Nat} (hd : s.sendData x o = .ok data)
    (hsent : (x.hall, s.linkId x.link kPUSH o.tkey (s.opRound x false o.tkey) 0 0) ∈ (s.att x.page x.slot).sent)
    (hr : s.receiptOf x.link (s.linkId x.link kPUSH o.tkey (s.opRound x false o.tkey) 0 0) = some code) : ∃ t,
      s.send x o = .done t ∧ t.halls = s.halls
        ∧ x.Works (s.addColl x.link (s.collOf x.link 9 o.tkey (s.opRound x false o.tkey) [kPUSH] [])) t := by
  unfold State.send
  dsimp only
  rw [hd]
  dsimp only
  rw [State.sendOnce_sent (k := x.link) hsent]
  dsimp only
  rw [hr]
  dsimp only
  refine ⟨_, rfl, ?_, ?_⟩
  · split
    · exact State.halls_countSend ..
    · exact State.halls_countSend ..
  · have h := OpFrame.countSend (x := x) (.refl (s.addColl x.link (s.collOf x.link 9 o.tkey (s.opRound x false o.tkey) [kPUSH] []))) o
    split
    · exact h.releaseRows ..
    · exact h

/-! ### RECV, PULL and a restore -/

/-- A RECV whose transfer is complete ends with what it takes of it and its record. -/
theorem State.recvFull_taken {s t : State} {x : OpCtx} {o : RecvOp} {kind : Nat} {b : List Byte}
    (hf : s.fullOf x.link (s.linkId x.link kind o.tkey (s.opRound x false o.tkey) 0 0) = some b)
    (ht : (if o.mode = 0 then s.takeRows x o.urow (Lead.parse b).1 o.count (Lead.parse b).2
      else s.takeTensor x o.tensor o.first o.count (Lead.parse b).1 (Lead.parse b).2) = .ok t) :
    ∃ c, s.recvFull x o kind = .done (t.addColl x.link c) := by
  unfold State.recvFull
  dsimp only
  rw [hf]
  dsimp only
  generalize Lead.parse b = p at ht
  rw [ht]
  exact ⟨_, rfl⟩

theorem OpFrame.taken {s t : State} {x : OpCtx} {o : RecvOp} {l : Lead} {d : List Byte}
    (e : (if o.mode = 0 then s.takeRows x o.urow l o.count d else s.takeTensor x o.tensor o.first o.count l d) = .ok t) : x.Works s t := by
  split at e
  · exact (OpFrame.refl s).takeRows _ _ _ _ t e
  · exact (OpFrame.refl s).takeTensor _ _ _ _ _ t e

/-- FP32 rows that are taken fill their rows, free before. -/
theorem State.takeRows_fill {s t : State} {x : OpCtx} {base n : Nat} {l : Lead} {data : List Byte}
    (hc : (s.cmd? x.page x.slot).isSome = true) (hfree : ∀ j < n, (s.viewRow x.page x.slot x.hall (base + j)).tag.state = 0)
    (e : s.takeRows x base l n data = .ok t) {i : Nat} (hi : i < n) :
    (t.viewRow x.page x.slot x.hall (base + i)).data = (List.range 64).map fun c => BitVec.ofNat 32 (u32 data (256 * i + 4 * c)) := by
  unfold State.takeRows at e
  split at e
  · cases e
  · exact (State.putSingles_fill (fun i j hij => Nat.add_left_cancel hij) hc hfree e i hi).data

/-- The end of a RECV or a PULL. -/
theorem recv_completes {s t : State} {a : Site} {want : Plan → Op → Bool} {x : OpCtx} {o : RecvOp} {l : Lead} {d : List Byte}
    (hat : AtTurn s a want x)
    (ht : (if o.mode = 0 then s.takeRows x o.urow l o.count d else s.takeTensor x o.tensor o.first o.count l d) = .ok t) (c : Coll) :
    OpDone x (x.finish (t.addColl x.link c)) ∧ SameOutside x.page s (x.finish (t.addColl x.link c))
      ∧ SameCommitted s (x.finish (t.addColl x.link c))
      ∧ ((x.finish (t.addColl x.link c)).att x.page x.slot).colls.length = (s.att x.page x.slot).colls.length + 1
      ∧ ∀ i, o.mode = 0 → (∀ j < o.count, (s.viewRow x.page x.slot x.hall (o.urow + j)).tag.state = 0) → i < o.count →
        ((x.finish (t.addColl x.link c)).viewRow x.page x.slot x.hall (o.urow + i)).data
          = (List.range 64).map fun e => BitVec.ofNat 32 (u32 d (256 * i + 4 * e)) := by
  obtain ⟨hdone, hout, hcom, hcolls⟩ := OpCtx.addColl_finish hat.isSome (OpFrame.taken ht) c (.refl _)
  refine ⟨hdone, hout, hcom, by rw [hcolls, List.length_append]; rfl, fun i hm hfree hi => ?_⟩
  rw [if_pos hm] at ht
  have hview := ((RowsStand.refl (q := x.page) (slot := x.slot) t).modAtt (f := fun a => { a with colls := a.colls ++ [c] }) fun _ => by rfl).view
    x.hall (o.urow + i)
  rw [OpCtx.finish_view]
  exact (congrArg URow.data hview).trans (State.takeRows_fill hat.isSome hfree ht hi)

/-- Settles O25: each row ends with what its operation waits for, and a HALLWAIT waits before. -/
theorem linkOperationsComplete : Obligations.LinkOperationsComplete := by
  unfold Obligations.LinkOperationsComplete
  intro s a x k
  refine ⟨fun lh n hat hop => ⟨fun hn => ?_, fun hn => ?_⟩, fun o data code hat hop hd hsent hr => ?_, ?_, fun o b t1 hat hop hsent hf hr => ?_⟩
  · have hend := (hallwaitEnd_hallwait hop s).trans (if_pos hn)
    exact ⟨_, runOp_done hat hend, OpCtx.finish_done hat.isSome, OpCtx.finish_outside ⟨rfl, rfl, rfl, rfl, rfl, fun _ _ => rfl⟩, rfl⟩
  · have hend := (hallwaitEnd_hallwait hop s).trans (if_neg hn)
    obtain ⟨t, hrow, hnot, hone, hwhat⟩ := runOp_waits hat (fun y _ => hallwaitEnd_cases y s) hend fun u hu => by rw [hu]
    refine ⟨t, hrow, hnot, ?_, hone⟩
    rcases hwhat with rfl | ⟨y, u, rfl, rfl⟩ <;> rfl
  · obtain ⟨t, hend, hhalls, hworks⟩ := State.send_received hd hsent hr
    obtain ⟨hdone, hout, -, hcolls⟩ := OpCtx.addColl_finish hat.isSome (.refl s) _ hworks
    exact ⟨_, runOp_done hat (by rw [hop]; exact hend), hdone, hout, hhalls, hcolls⟩
  · intro o pull b t1 id p hat hop hsent hf ht
    cases pull
    · obtain ⟨c, hend⟩ := State.recvFull_taken hf ht
      exact ⟨_, runOp_done hat (by rw [hop]; exact hend), recv_completes hat ht c⟩
    · obtain ⟨c, hend⟩ := State.recvFull_taken hf ht
      have hpull : s.pull x o = .done (t1.addColl x.link c) := by
        unfold State.pull
        dsimp only
        rw [State.sendOnce_sent (k := x.link) (hsent rfl)]
        exact hend
      exact ⟨_, runOp_done hat (by rw [hop]; exact hpull), recv_completes hat ht c⟩
  · have hend : ∃ c, s.mezzRestore x o = .done (t1.addColl x.link c) := by
      unfold State.mezzRestore
      dsimp only
      rw [State.sendOnce_sent (k := x.link) hsent]
      dsimp only
      rw [hf]
      dsimp only
      rw [hr]
      exact ⟨_, rfl⟩
    obtain ⟨c, hend⟩ := hend
    obtain ⟨hdone, hout, hcom, hcolls⟩ := OpCtx.addColl_finish hat.isSome ((OpFrame.refl s).restore o _ t1 hr) c (.refl _)
    exact ⟨_, runOp_done hat (by rw [hop]; exact hend), hdone, hout, hcom, by rw [hcolls, List.length_append]; rfl⟩

end Sys2Proof.Machine
end

section
/-! PROOFS. The rows of the Concourse reduction, and the value of a node. -/

namespace Sys2Proof.Machine

/-! ### The value of a node (R229) -/

theorem NodeVal.withChild_list (k : CKind) (a r : NodeVal) : (a.withChild k r).list = a.list ++ r.list := rfl

/-- Children add to the list of absent ones, and take nothing from it. -/
theorem NodeVal.list_le_children (k : CKind) : ∀ (vs : List NodeVal) (a : NodeVal),
    a.list.length ≤ (vs.foldl (NodeVal.withChild k) a).list.length
  | [], _ => Nat.le_refl _
  | v :: vs, a => by
    refine Nat.le_trans ?_ (NodeVal.list_le_children k vs (a.withChild k v))
    rw [NodeVal.withChild_list, List.length_append]
    exact Nat.le_add_right ..

/-- Children whose values are all there combine with the rank's own, in the order in which they are awaited. -/
theorem State.upValue_values (s : State) (c : CollCtx) (shard : Nat) : ∀ (ws : List Nat) (vs : List NodeVal) (own : NodeVal),
    ws.map (s.child c shard) = vs.map (fun v => .ok (.value v)) →
    (vs.foldl (NodeVal.withChild c.kind) own).list.length ≤ 255 →
    s.upValue c shard ws own = .ok (some (vs.foldl (NodeVal.withChild c.kind) own))
  | [], [], _, _, _ => rfl
  | [], v :: vs, _, h, _ => by cases h
  | w :: ws, [], _, h, _ => by cases h
  | w :: ws, v :: vs, own, h, hl => by
    obtain ⟨hw, hws⟩ := List.cons.inj h
    have hbound : (own.withChild c.kind v).list.length ≤ 255 := Nat.le_trans (NodeVal.list_le_children c.kind vs _) hl
    unfold State.upValue
    rw [hw]
    dsimp only
    rw [if_neg (by omega)]
    exact State.upValue_values s c shard ws vs _ hws hl

/-! ### The record of a collective -/

theorem SameStacks.refl (s : State) : SameStacks s s := fun _ => rfl

/-- A change of a command beside its attempt. -/
theorem State.att_modCmd (s : State) (q : Page) (slot : Nat) {f : Cmd → Cmd} (hs : ∀ c, (f c).slot = c.slot)
    (ha : ∀ c, (f c).att = c.att) : (s.modCmd q slot f).att q slot = s.att q slot := by
  unfold State.att
  rw [State.cmd?_modCmd s q slot f hs]
  cases s.cmd? q slot with
  | none => rfl
  | some c => by_cases hc : c.slot = slot <;> simp [hc, ha]

/-- What the work of a collective adds at its end: one record, and no byte of a stack. -/
structure Recorded (q : Page) (slot : Nat) (s t : State) : Prop where
  here : (t.cmd? q slot).isSome = true
  same : SameStacks s t
  colls : (t.att q slot).colls.length = (s.att q slot).colls.length + 1

namespace Recorded

variable {q : Page} {slot : Nat} {s t u : State}

/-- Work over links that adds nothing further. -/
theorem link (h : Recorded q slot s t) (k : LinkFrame q slot t u) : Recorded q slot s u :=
  ⟨k.here.trans h.here, SameStacks.trans h.same k.sameStacks, by rw [k.colls]; exact h.colls⟩

theorem after (h : LinkFrame q slot s t) (k : Recorded q slot t u) : Recorded q slot s u :=
  ⟨k.here, SameStacks.trans h.sameStacks k.same, by rw [k.colls, h.colls]⟩

theorem modAtt (h : Recorded q slot s t) {f : Attempt → Attempt} (hf : ∀ a, (f a).colls = a.colls) :
    Recorded q slot s (t.modAtt q slot f) :=
  ⟨(State.cmd?_modAtt_isSome ..).trans h.here, h.same, by rw [t.att_modAtt_keeps Attempt.colls hf q slot]; exact h.colls⟩

theorem collDone {c : CollCtx} (hc : (s.cmd? c.k.page c.k.slot).isSome = true) (op : Nat) (roots : List NodeVal) :
    Recorded c.k.page c.k.slot s ((s.collDone c op roots).countAbsent c roots) := by
  unfold State.countAbsent
  dsimp only
  refine Recorded.modAtt ?_ fun _ => by rfl
  unfold State.collDone State.addColl
  dsimp only
  have hatt := s.att_modCmd c.k.page c.k.slot (f := fun x => { x with absentF := x.absentF || s.lostLeaves c roots }) (fun _ => rfl) fun _ => rfl
  have hsome : ((s.modCmd c.k.page c.k.slot fun x => { x with absentF := x.absentF || s.lostLeaves c roots }).cmd?
      c.k.page c.k.slot).isSome = true := by
    rw [State.cmd?_modCmd s c.k.page c.k.slot (fun x => { x with absentF := x.absentF || s.lostLeaves c roots }) (fun _ => rfl), Option.isSome_map]
    exact hc
  refine ⟨(State.cmd?_modAtt_isSome ..).trans hsome, fun _ => rfl, ?_⟩
  rw [State.att_modAtt _ _ _ _ hsome, hatt]
  exact List.length_append

end Recorded

/-! ### The rows -/

/-- The delivery of a finished REDUCE enters its record. -/
theorem State.deliver_recorded {s : State} {x : OpCtx} (o : ReduceOp) {c : CollCtx} (hc : c.k = x.link)
    (hs : (s.cmd? x.page x.slot).isSome = true) (roots : List NodeVal) :
    Answers (Recorded x.page x.slot s) (s.deliver x o c roots) := by
  have hdone := Recorded.collDone (s := s) (c := c) (by rw [hc]; exact hs) 0xB roots
  unfold State.deliver
  dsimp only
  rw [hc] at hdone
  generalize (s.collDone c 0xB roots).countAbsent c roots = u at *
  refine .ite ?_ (.ite (.ok (hdone.modAtt fun _ => by rfl)) fun w e => hdone.link ((LinkFrame.refl u).putRoots o roots w e))
  split
  · exact fun w e => hdone.link ((LinkFrame.refl u).evalVerdict _ _ w e)
  · exact .ok hdone

/-- A REDUCE that ends has entered its record, and has written no stack. -/
theorem State.reduce_recorded {s t : State} {x : OpCtx} {o : ReduceOp} (hs : (s.cmd? x.page x.slot).isSome = true)
    (e : s.reduce x o = .done t) : Recorded x.page x.slot s t := by
  unfold State.reduce at e
  split at e
  · cases e
  split at e
  · cases e
  · cases e
  next c own ec _ =>
  have hc := State.reduceCtx_link ec
  split at e
  · cases e
  split at e
  · cases e
  · cases e
  next u roots eu =>
  have hsteps := LinkFrame.reduceSteps hc own _ eu
  split at e
  · cases e
  next w ew =>
  have hrec := Recorded.after hsteps (State.deliver_recorded o hc (hsteps.here.trans hs) _ _ ew)
  cases e
  split
  · exact hrec.modAtt fun _ => by rfl
  · exact hrec

/-- Settles O26: the rows by the records of their collectives, a node's value by induction over its children. -/
theorem reduceCompletes : Obligations.ReduceCompletes := by
  unfold Obligations.ReduceCompletes
  refine ⟨fun s a x o k c t1 hc hat hop hr => ?_, fun s c shard own ws vs hws hl => State.upValue_values s c shard ws vs own hws hl⟩
  have hrow : exec (c a) s = .next (x.finish t1) := by
    have hend : reduceRow k a s = .next (x.finish t1) := runOp_done hat (by rw [hop]; exact hr)
    have hrows : ∀ e ∈ [(0, Instr.reduceToRiserHold), (1, Instr.reduceToOwnerRows), (2, Instr.allReduce), (3, Instr.normPacket)],
        exec (e.2 a) s = reduceRow e.1 a s := by
      simp only [List.forall_mem_cons]
      refine ⟨?_, ?_, ?_, ?_, by simp⟩ <;> rfl
    exact (hrows (k, c) hc).trans hend
  have hkeeps : x.Keeps s t1 := by
    have h := OpCtx.Keeps.reduce (x := x) (s := s) o
    rw [hr] at h
    exact h
  have hrec := State.reduce_recorded hat.isSome hr
  refine ⟨_, hrow, OpCtx.finish_done hrec.here, hkeeps.committed, hrec.same, ?_⟩
  rw [OpCtx.att_finish (fun a => a.colls.length) (fun _ _ => rfl)]
  exact hrec.colls

end Sys2Proof.Machine
end

section
/-! PROOFS. What the commit point makes visible in the halls: faces, rows and counters. -/

namespace Sys2Proof.Machine

/-! ### Tables -/

/-- An entry found after one was set: the one that was set, or what was found before. -/
theorem find?_tabSet {α : Type} (t : Tab α) (n m : Nat) (x : α) :
    (tabSet t n x).find? (·.1 == m) = if m = n then some (n, x) else t.find? (·.1 == m) := by
  induction t with
  | nil => by_cases h : m = n <;> simp [tabSet, h, Ne.symm]
  | cons e t ih =>
    obtain ⟨k, v⟩ := e
    by_cases hm : m = n
    · subst hm
      unfold tabSet
      split
      · simp
      · split
        · simp
        · next hk => simp [ih, Ne.symm hk]
    · unfold tabSet
      split
      · simp [Ne.symm hm]
      · split
        · next hk => subst hk; simp [Ne.symm hm]
        · simp [List.find?_cons, ih, hm]

/-- Words added one by one under their keys add up. -/
theorem tabGet_addWords (k : Nat) (l : List (Nat × Nat × Nat)) (t : Tab DWord) :
    tabGet 0 (l.foldl (fun t d => tabSet t d.2.1 (tabGet 0 t d.2.1 + BitVec.ofNat 64 d.2.2)) t) k
      = tabGet 0 t k + BitVec.ofNat 64 ((l.filter (·.2.1 == k)).map (·.2.2)).sum := by
  induction l generalizing t with
  | nil => simp
  | cons d l ih =>
    rw [List.foldl_cons, ih, tabGet_tabSet]
    by_cases hk : k = d.2.1
    · subst hk
      simp [BitVec.ofNat_add, BitVec.add_assoc]
    · simp [hk, Ne.symm hk]

/-- The same modulo 2^60, each key at its place behind a base. -/
theorem tabGet_addSteps (base k : Nat) (l : List (Nat × Nat × Nat)) (t : Tab Nat) :
    tabGet 0 (l.foldl (fun t d => tabSet t (base + d.2.1) ((tabGet 0 t (base + d.2.1) + d.2.2) % 2 ^ 60)) t) (base + k) % 2 ^ 60
      = (tabGet 0 t (base + k) + ((l.filter (·.2.1 == k)).map (·.2.2)).sum) % 2 ^ 60 := by
  induction l generalizing t with
  | nil => simp
  | cons d l ih =>
    rw [List.foldl_cons, ih, tabGet_tabSet]
    by_cases hk : k = d.2.1
    · subst hk
      simp only [if_true, beq_self_eq_true, List.filter_cons_of_pos, List.map_cons, List.sum_cons]
      omega
    · rw [if_neg (by omega), List.filter_cons_of_neg (by simp [Ne.symm hk])]

/-! ### Halls that keep what a commit shows -/

theorem State.hall_modHall_keeps {β : Type} (g : Hall → β) {f : Hall → Hall} (hf : ∀ H, g (f H) = g H) (s : State) (h k : Nat) :
    g ((s.modHall h f).hall k) = g (s.hall k) := by
  rw [State.hall_modHall]
  split
  · next e => subst e; exact hf _
  · rfl

/-- The rows of a hall and a job's map of them. -/
def Hall.rowsOf (job : Nat) (H : Hall) : Tab URow × Tab Nat := (H.unc, (H.job job).rowMap)

/-- The counters that a commit advances. -/
def Hall.counts (H : Hall) : DWord × Tab DWord × Tab Nat := (H.step, H.riser, H.sampler)

/-- What the reader of a commit sees in a hall. -/
def Hall.shown (job : Nat) (H : Hall) : List (Nat × Nat) × (Tab URow × Tab Nat) × (DWord × Tab DWord × Tab Nat) :=
  (H.faces1, H.rowsOf job, H.counts)

theorem Hall.rowsOf_putJob (H : Hall) (job : Nat) {x : HJob} (hx : x.rowMap = (H.job job).rowMap) :
    (H.putJob job x).rowsOf job = H.rowsOf job := by
  unfold Hall.rowsOf
  rw [Hall.job_putJob, if_pos rfl, hx]
  rfl

theorem Hall.shown_putJob (H : Hall) (job : Nat) {x : HJob} (hx : x.rowMap = (H.job job).rowMap) :
    (H.putJob job x).shown job = H.shown job := by
  unfold Hall.shown
  rw [Hall.rowsOf_putJob H job hx]
  rfl

/-! ### Faces (R161) -/

/-- A hall without what a flip changes. -/
def Hall.offFaces (H : Hall) : Hall := { H with scale := [], faces1 := [], poison := [], gens := [], gals := [] }

theorem Hall.faces1_advanceGen (H : Hall) (t : Nat) (scope : Option Nat) : (H.advanceGen t scope).faces1 = H.faces1 := by
  unfold Hall.advanceGen
  split <;> rfl

theorem Hall.offFaces_advanceGen (H : Hall) (t : Nat) (scope : Option Nat) : (H.advanceGen t scope).offFaces = H.offFaces := by
  unfold Hall.advanceGen
  split <;> rfl

theorem Hall.offFaces_flip (H : Hall) (p : Option Plan) (st : Staged) (u : Use) (top : Option Int) :
    (H.flip p st u top).offFaces = H.offFaces := by
  unfold Hall.flip Hall.advancePair
  refine (List.foldl_keeps Hall.offFaces (fun H (g : GenEnt) => H.offFaces_advanceGen g.tensor g.job) _ _).trans ?_
  rfl

/-- The committed face of a pair after a flip. -/
theorem Hall.contains_flip (H : Hall) (p : Option Plan) (st : Staged) (u : Use) (top : Option Int) (pair : Nat × Nat) :
    (H.flip p st u top).faces1.contains pair = if pair = st.d.pair then decide (st.face = 1) else H.faces1.contains pair := by
  have e : (H.flip p st u top).faces1 = if st.face = 1 then H.faces1.filter (fun x => x != st.d.pair) ++ [st.d.pair]
      else H.faces1.filter fun x => x != st.d.pair := by
    unfold Hall.flip Hall.advancePair
    exact (List.foldl_keeps Hall.faces1 (fun H (g : GenEnt) => H.faces1_advanceGen g.tensor g.job) _ _).trans rfl
  rw [e]
  by_cases hp : pair = st.d.pair <;> by_cases hf : st.face = 1 <;> simp [hp, hf, List.contains_eq_mem]

/-- The flip of one staged face. -/
def State.flipOne (s : State) (q : Page) (c : Cmd) (st : Staged) : State := match c.att.useOfStaged st with
  | none => s
  | some u =>
    let top := (c.att.hist.find? fun x => x.1 == st.hall && x.2.1 == st.d.tensor).map fun x => x.2.2
    s.modHall st.hall fun H => H.flip (s.plan? q) st u top

theorem State.flipAll_eq (s : State) (q : Page) (c : Cmd) : s.flipAll q c = c.att.staged.foldl (fun s st => s.flipOne q c st) s := rfl

theorem State.contains_flipOne (s : State) (q : Page) (c : Cmd) (st : Staged) (h : Nat) (pair : Nat × Nat) :
    ((s.flipOne q c st).hall h).faces1.contains pair
      = if h = st.hall ∧ pair = st.d.pair ∧ (c.att.useOfStaged st).isSome = true then decide (st.face = 1)
        else (s.hall h).faces1.contains pair := by
  unfold State.flipOne
  cases hu : c.att.useOfStaged st with
  | none => rw [if_neg (by simp)]
  | some u =>
    dsimp only
    rw [State.hall_modHall]
    by_cases hh : h = st.hall
    · subst hh
      rw [if_pos rfl, Hall.contains_flip]
      simp
    · rw [if_neg hh, if_neg fun w => hh w.1]

theorem State.offFaces_flipAll (s : State) (q : Page) (c : Cmd) (k : Nat) : ((s.flipAll q c).hall k).offFaces = (s.hall k).offFaces := by
  rw [State.flipAll_eq]
  refine List.foldl_keeps (fun t : State => (t.hall k).offFaces) (fun t st => ?_) _ _
  unfold State.flipOne
  split
  · rfl
  · exact State.hall_modHall_keeps Hall.offFaces (fun H => H.offFaces_flip ..) ..

/-- Flips of a pair to one face leave it there. -/
theorem State.contains_flips (q : Page) (c : Cmd) {h : Nat} {pair : Nat × Nat} {f : Nat} (l : List Staged) (s : State)
    (hl : ∀ y ∈ l, y.hall = h → y.d.pair = pair → y.face = f ∧ (c.att.useOfStaged y).isSome = true)
    (hs : (∃ y ∈ l, y.hall = h ∧ y.d.pair = pair) ∨ (s.hall h).faces1.contains pair = decide (f = 1)) :
    ((l.foldl (fun s st => s.flipOne q c st) s).hall h).faces1.contains pair = decide (f = 1) := by
  induction l generalizing s with
  | nil => exact hs.resolve_left fun ⟨y, hy, _⟩ => by cases hy
  | cons y l ih =>
    refine ih _ (fun z hz => hl z (List.mem_cons_of_mem y hz)) ?_
    by_cases hy : y.hall = h ∧ y.d.pair = pair
    · obtain ⟨rfl, rfl⟩ := hy
      obtain ⟨hf, hu⟩ := hl y List.mem_cons_self rfl rfl
      right
      rw [State.contains_flipOne, if_pos ⟨rfl, rfl, hu⟩, hf]
    · rcases hs with ⟨z, hz, hzp⟩ | hs
      · rcases List.mem_cons.mp hz with rfl | hz
        · exact absurd hzp hy
        · exact Or.inl ⟨z, hz, hzp⟩
      · right
        rw [State.contains_flipOne, if_neg fun w => hy ⟨w.1.symm, w.2.1.symm⟩]
        exact hs

/-- Flips of other pairs leave the face of a pair. -/
theorem State.contains_flips_other (q : Page) (c : Cmd) {h : Nat} {pair : Nat × Nat} (l : List Staged) (s : State)
    (hl : ∀ y ∈ l, y.hall = h → y.d.pair ≠ pair) :
    ((l.foldl (fun s st => s.flipOne q c st) s).hall h).faces1.contains pair = (s.hall h).faces1.contains pair := by
  induction l generalizing s with
  | nil => rfl
  | cons y l ih =>
    rw [List.foldl_cons, ih _ fun z hz => hl z (List.mem_cons_of_mem y hz), State.contains_flipOne,
      if_neg fun w => hl y List.mem_cons_self w.1.symm w.2.1.symm]

theorem Attempt.useOfStaged_congr (a : Attempt) {x y : Staged} (hh : x.hall = y.hall) (hp : x.d.pair = y.d.pair) :
    a.useOfStaged x = a.useOfStaged y := by
  unfold Attempt.useOfStaged
  rw [hh, hp]

/-! ### Rows (R92) -/

theorem Hall.phys?_takeTwin (H : Hall) (job : Nat) (t : Twin) (l : Nat) :
    (H.takeTwin job t).phys? job l = if l = t.lrow then some t.phys else H.phys? job l := by
  unfold Hall.phys? Hall.takeTwin
  rw [Hall.job_putJob, if_pos rfl, find?_tabSet]
  split <;> rfl

theorem Hall.row_takeTwin (H : Hall) (job : Nat) (t : Twin) (r : Nat) :
    (H.takeTwin job t).row r = if r = t.phys then t.row else if H.phys? job t.lrow = some r then URow.free else H.row r := by
  have e : (H.takeTwin job t).unc
      = tabSet (((H.phys? job t.lrow).map fun p => tabSet H.unc p URow.free).getD H.unc) t.phys t.row := by
    unfold Hall.takeTwin Hall.phys?
    dsimp only
    cases ((H.job job).rowMap.find? (·.1 == t.lrow)).map (·.2) <;> rfl
  rw [Hall.row, e, tabGet_tabSet]
  cases H.phys? job t.lrow with
  | none => simp [Hall.row]
  | some p => simp [tabGet_tabSet, eq_comm, Hall.row]

theorem Hall.phys?_freeRow (H : Hall) (job l k : Nat) : (H.freeRow job l).phys? job k = H.phys? job k := by
  unfold Hall.freeRow
  split <;> rfl

theorem Hall.row_freeRow (H : Hall) (job l r : Nat) :
    (H.freeRow job l).row r = if H.phys? job l = some r then URow.free else H.row r := by
  unfold Hall.freeRow
  split
  · next p hp =>
    refine (Hall.row_putRow H p r URow.free).trans ?_
    simp [hp, eq_comm]
  · next hp => simp [hp]

/-- No other row of the job lies where a twin does. -/
def Hall.TwinAlone (H : Hall) (job : Nat) (w : Twin) : Prop := ∀ l, l ≠ w.lrow → H.phys? job l ≠ some w.phys

/-- A twin stands in the place of its row, and no other row of the job lies where it does. -/
structure Hall.TwinStands (H : Hall) (job : Nat) (w : Twin) : Prop where
  alone : H.TwinAlone job w
  phys : H.phys? job w.lrow = some w.phys
  row : H.row w.phys = w.row

theorem Hall.TwinAlone.takeTwin {H : Hall} {job : Nat} {w y : Twin} (h : H.TwinAlone job w)
    (hy : y = w ∨ (y.lrow ≠ w.lrow ∧ y.phys ≠ w.phys)) : (H.takeTwin job y).TwinAlone job w := by
  intro l hl
  rw [Hall.phys?_takeTwin]
  split
  · next e =>
    rcases hy with rfl | ⟨_, hp⟩
    · exact absurd e hl
    · exact fun w => hp (Option.some.inj w)
  · exact h l hl

theorem Hall.TwinAlone.takes {H : Hall} {job : Nat} {w : Twin} (h : H.TwinAlone job w) : (H.takeTwin job w).TwinStands job w where
  alone := h.takeTwin (Or.inl rfl)
  phys := by rw [Hall.phys?_takeTwin, if_pos rfl]
  row := by rw [Hall.row_takeTwin, if_pos rfl]

theorem Hall.TwinStands.takeTwin {H : Hall} {job : Nat} {w y : Twin} (h : H.TwinStands job w)
    (hy : y = w ∨ (y.lrow ≠ w.lrow ∧ y.phys ≠ w.phys)) : (H.takeTwin job y).TwinStands job w := by
  rcases hy with rfl | ⟨hl, hp⟩
  · exact h.alone.takes
  · refine ⟨h.alone.takeTwin (Or.inr ⟨hl, hp⟩), ?_, ?_⟩
    · rw [Hall.phys?_takeTwin, if_neg (Ne.symm hl), h.phys]
    · rw [Hall.row_takeTwin, if_neg (Ne.symm hp), if_neg (h.alone y.lrow hl), h.row]

theorem Hall.TwinStands.freeRow {H : Hall} {job l : Nat} {w : Twin} (h : H.TwinStands job w) (hl : l ≠ w.lrow) :
    (H.freeRow job l).TwinStands job w where
  alone := fun k hk => by rw [Hall.phys?_freeRow]; exact h.alone k hk
  phys := by rw [Hall.phys?_freeRow, h.phys]
  row := by rw [Hall.row_freeRow, if_neg (h.alone l hl), h.row]

/-- After the twins of a command each stands that no other twin displaces. -/
theorem State.twins_stand (job : Nat) {w : Twin} (l : List Twin) (s : State)
    (hl : ∀ y ∈ l, y.hall = w.hall → y = w ∨ (y.lrow ≠ w.lrow ∧ y.phys ≠ w.phys)) (ha : (s.hall w.hall).TwinAlone job w)
    (hs : w ∈ l ∨ (s.hall w.hall).TwinStands job w) :
    ((l.foldl (fun s t => s.modHall t.hall fun H => H.takeTwin job t) s).hall w.hall).TwinStands job w := by
  induction l generalizing s with
  | nil => exact hs.resolve_left (by simp)
  | cons y l ih =>
    rw [List.foldl_cons]
    have hrest : ∀ z ∈ l, z.hall = w.hall → z = w ∨ (z.lrow ≠ w.lrow ∧ z.phys ≠ w.phys) := fun z hz =>
      hl z (List.mem_cons_of_mem y hz)
    by_cases hh : w.hall = y.hall
    · have hy := hl y List.mem_cons_self hh.symm
      have e : (s.modHall y.hall fun H => H.takeTwin job y).hall w.hall = (s.hall w.hall).takeTwin job y := by
        rw [State.hall_modHall, if_pos hh, hh]
      refine ih _ hrest (by rw [e]; exact ha.takeTwin hy) ?_
      rw [e]
      rcases hs with hw | hs
      · rcases List.mem_cons.mp hw with rfl | hw
        · exact Or.inr ha.takes
        · exact Or.inl hw
      · exact Or.inr (hs.takeTwin hy)
    · have e : (s.modHall y.hall fun H => H.takeTwin job y).hall w.hall = s.hall w.hall := by rw [State.hall_modHall, if_neg hh]
      refine ih _ hrest (by rw [e]; exact ha) ?_
      rw [e]
      rcases hs with hw | hs
      · rcases List.mem_cons.mp hw with rfl | hw
        · exact absurd rfl hh
        · exact Or.inl hw
      · exact Or.inr hs

theorem State.hall_freeRow (s : State) (job : Nat) (r : Nat × Nat) (h : Nat) :
    (s.modHall r.1 fun H => H.freeRow job r.2).hall h = if h = r.1 then (s.hall h).freeRow job r.2 else s.hall h := by
  rw [State.hall_modHall]
  split
  · next e => rw [e]
  · rfl

/-- Releases of other rows leave a twin where it stands. -/
theorem State.twin_freed (job : Nat) {w : Twin} (l : List (Nat × Nat)) (s : State) (hl : (w.hall, w.lrow) ∉ l)
    (hs : (s.hall w.hall).TwinStands job w) :
    ((l.foldl (fun s r => s.modHall r.1 fun H => H.freeRow job r.2) s).hall w.hall).TwinStands job w := by
  induction l generalizing s with
  | nil => exact hs
  | cons r l ih =>
    refine ih _ (fun h => hl (List.mem_cons_of_mem r h)) ?_
    rw [State.hall_freeRow]
    split
    · next e =>
      refine hs.freeRow fun h => hl ?_
      rw [e, ← h]
      exact List.mem_cons_self
    · exact hs

theorem State.phys?_freeRows (job : Nat) (l : List (Nat × Nat)) (s : State) (h k : Nat) :
    ((l.foldl (fun s r => s.modHall r.1 fun H => H.freeRow job r.2) s).hall h).phys? job k = (s.hall h).phys? job k := by
  refine List.foldl_keeps (fun t : State => (t.hall h).phys? job k) (fun t (r : Nat × Nat) => ?_) l s
  exact State.hall_modHall_keeps (fun H => H.phys? job k) (f := fun H => H.freeRow job r.2) (fun H => H.phys?_freeRow job r.2 k) t r.1 h

/-- A released row stands free. -/
theorem State.row_freeRows (job : Nat) {h k p : Nat} (l : List (Nat × Nat)) (s : State) (hp : (s.hall h).phys? job k = some p)
    (hs : (h, k) ∈ l ∨ (s.hall h).row p = URow.free) :
    ((l.foldl (fun s r => s.modHall r.1 fun H => H.freeRow job r.2) s).hall h).row p = URow.free := by
  induction l generalizing s with
  | nil => exact hs.resolve_left (by simp)
  | cons r l ih =>
    refine ih _ ?_ ?_
    · rw [State.hall_modHall_keeps (fun H => H.phys? job k) fun H => H.phys?_freeRow job r.2 k]
      exact hp
    · rw [State.hall_freeRow]
      rcases hs with hm | hs
      · rcases List.mem_cons.mp hm with rfl | hm
        · right
          rw [if_pos rfl, Hall.row_freeRow, if_pos hp]
        · exact Or.inl hm
      · right
        split
        · rw [Hall.row_freeRow, hs]
          exact ite_self _
        · exact hs

theorem Hall.counts_freeRow (H : Hall) (job l : Nat) : (H.freeRow job l).counts = H.counts ∧ (H.freeRow job l).faces1 = H.faces1 := by
  unfold Hall.freeRow
  split <;> exact ⟨rfl, rfl⟩

/-- Rows change neither faces nor counters. -/
theorem State.commitRows_keeps {β : Type} (g : Hall → β) (ht : ∀ H job t, g (Hall.takeTwin H job t) = g H)
    (hf : ∀ H job l, g (Hall.freeRow H job l) = g H) (s : State) (q : Page) (c : Cmd) (k : Nat) :
    g ((s.commitRows q c).hall k) = g (s.hall k) := by
  unfold State.commitRows
  refine (List.foldl_keeps (fun t : State => g (t.hall k)) (fun t (r : Nat × Nat) =>
    State.hall_modHall_keeps g (f := fun H => H.freeRow (pageJob q) r.2) (fun H => hf H (pageJob q) r.2) t r.1 k) _ _).trans ?_
  exact List.foldl_keeps (fun t : State => g (t.hall k)) (fun t (w : Twin) =>
    State.hall_modHall_keeps g (f := fun H => H.takeTwin (pageJob q) w) (fun H => ht H (pageJob q) w) t w.hall k) _ _

/-! ### What is recorded -/

theorem Hall.shown_congr {H K : Hall} (j : Nat) (hf : K.faces1 = H.faces1) (hu : K.unc = H.unc) (hj : K.jobs = H.jobs)
    (hs : K.step = H.step) (hr : K.riser = H.riser) (hl : K.sampler = H.sampler) : K.shown j = H.shown j := by
  unfold Hall.shown Hall.rowsOf Hall.counts Hall.job
  rw [hf, hu, hj, hs, hr, hl]

theorem Hall.shown_xlog (H : Hall) (j : Nat) (now : DWord) (e : LogEnt) : (H.xlog now e).shown j = H.shown j := by
  unfold Hall.xlog
  split
  · rfl
  · exact Hall.shown_congr j rfl rfl rfl rfl rfl rfl

theorem Hall.shown_commitTiles (H : Hall) (j : Nat) (now : DWord) (job pass : Nat) (w : DWord) :
    (H.commitTiles now job pass w).shown j = H.shown j := by
  unfold Hall.commitTiles
  have logged : (if twKind w = 7 then H else H.xlog now ⟨1, job, 0, pass, w.toNat⟩).shown j = H.shown j := by
    split
    · rfl
    · exact Hall.shown_xlog ..
  dsimp only
  generalize (if twKind w = 7 then H else H.xlog now ⟨1, job, 0, pass, w.toNat⟩) = K at logged ⊢
  refine (Hall.shown_congr j ?_ ?_ ?_ ?_ ?_ ?_).trans logged <;> rfl

theorem Hall.shown_clogRecord (H : Hall) (j : Nat) (b : List Byte) : (H.clogRecord b).shown j = H.shown j := by
  have units (H : Hall) (b : List Byte) : (H.clogUnits b).shown j = H.shown j := by
    unfold Hall.clogUnits
    refine List.foldl_keeps (Hall.shown j) (fun H i => Hall.shown_congr j ?_ ?_ ?_ ?_ ?_ ?_) _ _ <;> rfl
  unfold Hall.clogRecord
  dsimp only
  split
  · rfl
  · exact units ..

theorem Hall.shown_collRecords (H : Hall) (job : Nat) (cs : List Coll) : (H.collRecords job cs).shown job = H.shown job := by
  unfold Hall.collRecords
  split
  · rfl
  · refine (Hall.shown_putJob _ job ?_).trans ?_
    · rfl
    · exact List.foldl_keeps (Hall.shown job) (fun H (x : Coll) => Hall.shown_clogRecord H job (x.bytes job H.step)) _ _

theorem Hall.shown_endStep (H : Hall) (j : Nat) (x : StepCtx) : (H.endStep x).shown j = H.shown j := by
  unfold Hall.endStep
  dsimp only
  split <;> exact Hall.shown_congr j rfl rfl rfl rfl rfl rfl

/-- The state of which the counters of a commit are advanced: every record stands. -/
def State.commitRecords (s : State) (q : Page) (c : Cmd) (upd skip : Bool) : State :=
  let s := (s.pageHalls q).foldl (fun s h => s.commitHall q c h) s
  match upd, s.plan? q with
  | true, some p => s.endSteps q c p skip
  | _, _ => s

theorem State.shown_commitHall (s : State) (q : Page) (c : Cmd) (h k : Nat) :
    ((s.commitHall q c h).hall k).shown (pageJob q) = (s.hall k).shown (pageJob q) := by
  unfold State.commitHall
  refine State.hall_modHall_keeps (Hall.shown (pageJob q)) (fun H => ?_) ..
  exact (Hall.shown_collRecords ..).trans (Hall.shown_commitTiles ..)

theorem State.shown_endSteps (s : State) (q : Page) (c : Cmd) (p : Plan) (skip : Bool) (k : Nat) :
    ((s.endSteps q c p skip).hall k).shown (pageJob q) = (s.hall k).shown (pageJob q) := by
  unfold State.endSteps
  refine List.foldl_keeps (fun t : State => (t.hall k).shown (pageJob q)) (fun t h => ?_) _ _
  refine State.hall_modHall_keeps (Hall.shown (pageJob q)) (fun H => ?_) ..
  dsimp only
  split
  · exact Hall.shown_endStep ..
  · exact Hall.shown_endStep ..

theorem State.shown_commitRecords (s : State) (q : Page) (c : Cmd) (upd skip : Bool) (k : Nat) :
    ((s.commitRecords q c upd skip).hall k).shown (pageJob q) = (s.hall k).shown (pageJob q) := by
  have halls := List.foldl_keeps (fun t : State => (t.hall k).shown (pageJob q)) (fun t h => t.shown_commitHall q c h k)
    (s.pageHalls q) s
  unfold State.commitRecords
  dsimp only
  split
  · exact (State.shown_endSteps ..).trans halls
  · exact halls

/-! ### Counters (R178, R201) -/

/-- A hall after the counters of a commit: its ledgers are released and its carry buffers take what was staged. -/
def Hall.counted (H : Hall) (job seq : Nat) (a : Attempt) (h : Nat) (uses : List (Bool × Nat)) (stepped : Bool) : Hall :=
  (H.advance job a h uses stepped).putJob job (((((H.advance job a h uses stepped).job job).release seq)).carryOn a h)

theorem Hall.rowsOf_advance (H : Hall) (job : Nat) (a : Attempt) (h : Nat) (uses : List (Bool × Nat)) (stepped : Bool) :
    (H.advance job a h uses stepped).faces1 = H.faces1 ∧ (H.advance job a h uses stepped).rowsOf job = H.rowsOf job := by
  unfold Hall.advance
  extract_lets riser samp J bump H1 H2
  have e : H2.faces1 = H.faces1 ∧ H2.rowsOf job = H.rowsOf job := ⟨rfl, Hall.rowsOf_putJob H1 job rfl⟩
  refine ⟨(List.foldl_keeps Hall.faces1 (fun _ _ => by rfl) _ _).trans e.1,
    (List.foldl_keeps (Hall.rowsOf job) (fun _ _ => by rfl) _ _).trans e.2⟩

theorem Hall.rowsOf_counted (H : Hall) (job seq : Nat) (a : Attempt) (h : Nat) (uses : List (Bool × Nat)) (stepped : Bool) :
    (H.counted job seq a h uses stepped).faces1 = H.faces1 ∧ (H.counted job seq a h uses stepped).rowsOf job = H.rowsOf job := by
  obtain ⟨hf, hr⟩ := H.rowsOf_advance job a h uses stepped
  exact ⟨hf, (Hall.rowsOf_putJob (H.advance job a h uses stepped) job (x := ((((H.advance job a h uses stepped).job job).release seq)).carryOn a h) rfl).trans hr⟩

/-- The words of a lane that a command drew in a hall. -/
def drawnAt (h : Nat) (l : List (Nat × Nat × Nat)) (lane : Nat) : Nat :=
  ((l.filter fun d => d.1 == h && d.2.1 == lane).map fun d => d.2.2).sum

theorem drawnAt_eq (h : Nat) (l : List (Nat × Nat × Nat)) (lane : Nat) :
    drawnAt h l lane = (((l.filter (·.1 == h)).filter (·.2.1 == lane)).map (·.2.2)).sum := by
  rw [List.filter_filter, drawnAt]
  simp only [Bool.and_comm]

/-- The counters of one hall, where no state block is restored. -/
structure Hall.CountsBy (H K : Hall) (job : Nat) (a : Attempt) (h : Nat) (stepped : Bool) : Prop where
  step : K.step = H.step + if stepped then 1 else 0
  riser : ∀ lane, tabGet 0 K.riser lane = tabGet 0 H.riser lane + BitVec.ofNat 64 (drawnAt h a.riserDraw lane)
  sampler : ∀ lane, tabGet 0 K.sampler (32 * job + lane) % 2 ^ 60
    = (tabGet 0 H.sampler (32 * job + lane) + drawnAt h a.sampDraw lane) % 2 ^ 60

theorem Hall.counted_counts (H : Hall) (job seq : Nat) (a : Attempt) {h : Nat} (uses : List (Bool × Nat)) (stepped : Bool)
    (hb : ∀ b ∈ a.stateBlk, b.1 ≠ h) : H.CountsBy (H.counted job seq a h uses stepped) job a h stepped := by
  have hnil : a.stateBlk.filter (·.1 == h) = [] := List.filter_eq_nil_iff.mpr fun b hm => by simpa using hb b hm
  have e : (H.counted job seq a h uses stepped).counts = (H.advance job a h uses stepped).counts := rfl
  have step : (H.counted job seq a h uses stepped).step = (H.advance job a h uses stepped).step := (congrArg (·.1) e :)
  have riser : (H.counted job seq a h uses stepped).riser = (H.advance job a h uses stepped).riser := (congrArg (·.2.1) e :)
  have sampler : (H.counted job seq a h uses stepped).sampler = (H.advance job a h uses stepped).sampler := (congrArg (·.2.2) e :)
  rw [Hall.advance, hnil, List.foldl_nil] at step riser sampler
  refine ⟨step.trans ?_, fun lane => ?_, fun lane => ?_⟩
  · cases stepped
    · exact (BitVec.add_zero _).symm
    · rfl
  · rw [riser, drawnAt_eq]
    exact tabGet_addWords lane _ H.riser
  · rw [sampler, drawnAt_eq]
    exact tabGet_addSteps (32 * job) lane _ H.sampler

/-- The counters of one hall at a commit. -/
def State.countOne (s : State) (q : Page) (c : Cmd) (stepped : Bool) (h : Nat) : State :=
  s.modHall h fun H => H.counted (pageJob q) c.seq c.att h (s.roundUses q c h) stepped

theorem State.commitCounters_eq (s : State) (q : Page) (c : Cmd) (stepped : Bool) :
    s.commitCounters q c stepped = (s.pageHalls q).foldl (fun s h => s.countOne q c stepped h) s := rfl

/-- Halls of a list without repeats count once each. -/
theorem State.hall_countings (q : Page) (c : Cmd) (stepped : Bool) {k : Nat} (l : List Nat) (hl : l.Nodup) (hk : k ∈ l) (s : State) :
    ∃ uses, (l.foldl (fun s h => s.countOne q c stepped h) s).hall k
      = (s.hall k).counted (pageJob q) c.seq c.att k uses stepped := by
  have other (l : List Nat) (hk : k ∉ l) (s : State) : (l.foldl (fun s h => s.countOne q c stepped h) s).hall k = s.hall k := by
    induction l generalizing s with
    | nil => rfl
    | cons h l ih =>
      obtain ⟨hh, hl⟩ := List.ne_and_not_mem_of_not_mem_cons hk
      rw [List.foldl_cons, ih hl, State.countOne, State.hall_modHall, if_neg hh]
  induction l generalizing s with
  | nil => cases hk
  | cons h l ih =>
    obtain ⟨hh, hl⟩ := List.nodup_cons.mp hl
    rw [List.foldl_cons]
    rcases List.mem_cons.mp hk with rfl | hkl
    · exact ⟨s.roundUses q c k, by rw [other l hh, State.countOne, State.hall_modHall_self]⟩
    · obtain ⟨uses, e⟩ := ih hl hkl (s.countOne q c stepped h)
      refine ⟨uses, e.trans ?_⟩
      rw [State.countOne, State.hall_modHall, if_neg (by rintro rfl; exact hh hkl)]

/-- Counting leaves faces and rows. -/
theorem State.commitCounters_rows (s : State) (q : Page) (c : Cmd) (stepped : Bool) (k : Nat) :
    ((s.commitCounters q c stepped).hall k).faces1 = (s.hall k).faces1
      ∧ ((s.commitCounters q c stepped).hall k).rowsOf (pageJob q) = (s.hall k).rowsOf (pageJob q) := by
  rw [State.commitCounters_eq]
  exact ⟨List.foldl_keeps (fun t : State => (t.hall k).faces1)
      (fun t h => State.hall_modHall_keeps Hall.faces1 (fun H => (H.rowsOf_counted ..).1) ..) _ s,
    List.foldl_keeps (fun t : State => (t.hall k).rowsOf (pageJob q))
      (fun t h => State.hall_modHall_keeps (Hall.rowsOf (pageJob q)) (fun H => (H.rowsOf_counted ..).2) ..) _ s⟩

end Sys2Proof.Machine
end

section
/-! PROOFS. The commit point of a queue's one command. -/

namespace Sys2Proof.Machine

/-! ### The effects of a commit, stage by stage -/

/-- A state with the faces of a command turned. -/
def State.turned (s : State) (q : Page) (c : Cmd) : State := if s.skips q c then s else s.flipAll q c

/-- A state in which everything of a commit but its counters stands. -/
def State.uncounted (s : State) (q : Page) (c : Cmd) : State :=
  ((s.turned q c).commitRows q c).commitRecords q c (s.isUpdate q c) (s.skips q c)

/-- What the commit point of a command that no BAR2 write met makes visible. -/
def State.committed (s : State) (q : Page) (c : Cmd) : State :=
  (s.uncounted q c).commitCounters q c (s.isUpdate q c && !s.skips q c)

theorem State.commitEffects_eq {c : Cmd} (h : c.att.hits = []) (s : State) (q : Page) : s.commitEffects q c = (s.committed q c, c) := by
  unfold State.commitEffects State.unspecify
  rw [if_pos (by rw [h]; rfl)]
  rfl

theorem CommitFrame.turned (s : State) (q : Page) (c : Cmd) : CommitFrame q s (s.turned q c) :=
  CommitFrame.ite (CommitFrame.refl s) ((CommitFrame.refl s).flipAll c)

theorem CommitFrame.commitRecords {q : Page} {s t : State} (h : CommitFrame q s t) (c : Cmd) (upd skip : Bool) :
    CommitFrame q s (t.commitRecords q c upd skip) := by
  have halls : CommitFrame q s ((t.pageHalls q).foldl (fun s k => s.commitHall q c k) t) := h.foldl (fun _ _ w => w.commitHall ..) _
  unfold State.commitRecords
  dsimp only
  split
  · exact halls.endSteps ..
  · exact halls

theorem CommitFrame.uncounted (s : State) (q : Page) (c : Cmd) : CommitFrame q s (s.uncounted q c) :=
  CommitFrame.commitRecords ((CommitFrame.turned s q c).commitRows c) c _ _

theorem CommitFrame.committed (s : State) (q : Page) (c : Cmd) : CommitFrame q s (s.committed q c) :=
  (CommitFrame.uncounted s q c).commitCounters c _

/-- Records and counters leave faces and rows as the rows' step left them. -/
theorem State.committed_rows (s : State) (q : Page) (c : Cmd) (k : Nat) :
    ((s.committed q c).hall k).faces1 = ((s.turned q c).hall k).faces1
      ∧ ((s.committed q c).hall k).rowsOf (pageJob q) = (((s.turned q c).commitRows q c).hall k).rowsOf (pageJob q) := by
  obtain ⟨hf, hr⟩ := (s.uncounted q c).commitCounters_rows q c (s.isUpdate q c && !s.skips q c) k
  have hs := ((s.turned q c).commitRows q c).shown_commitRecords q c (s.isUpdate q c) (s.skips q c) k
  refine ⟨(hf.trans (congrArg (·.1) hs)).trans ?_, hr.trans (congrArg (·.2.1) hs)⟩
  exact State.commitRows_keeps Hall.faces1 (fun _ _ _ => by rfl) (fun H job l => (H.counts_freeRow job l).2) ..

/-- The faces are turned before any row moves. -/
theorem State.turned_rows (s : State) (q : Page) (c : Cmd) (k : Nat) :
    ((s.turned q c).hall k).rowsOf (pageJob q) = (s.hall k).rowsOf (pageJob q) ∧ ((s.turned q c).hall k).counts = (s.hall k).counts := by
  unfold State.turned
  split
  · exact ⟨rfl, rfl⟩
  · have e := s.offFaces_flipAll q c k
    exact ⟨(congrArg (Hall.rowsOf (pageJob q)) e :), (congrArg Hall.counts e :)⟩

theorem State.uncounted_counts (s : State) (q : Page) (c : Cmd) (k : Nat) : ((s.uncounted q c).hall k).counts = (s.hall k).counts := by
  have hs := ((s.turned q c).commitRows q c).shown_commitRecords q c (s.isUpdate q c) (s.skips q c) k
  refine (congrArg (·.2.2) hs).trans (Eq.trans ?_ (s.turned_rows q c k).2)
  exact State.commitRows_keeps Hall.counts (fun _ _ _ => by rfl) (fun H job l => (H.counts_freeRow job l).1) ..

theorem Hall.rows_of {H K : Hall} {job : Nat} (h : K.rowsOf job = H.rowsOf job) :
    (∀ l, K.phys? job l = H.phys? job l) ∧ ∀ r, K.row r = H.row r := by
  have hu : K.unc = H.unc := congrArg Prod.fst h
  have hm : (K.job job).rowMap = (H.job job).rowMap := congrArg Prod.snd h
  exact ⟨fun l => by rw [Hall.phys?, Hall.phys?, hm], fun r => by rw [Hall.row, Hall.row, hu]⟩

/-! ### The clauses of the halls -/

/-- The staged faces of an executed command are the committed ones. -/
theorem State.committed_face (s : State) (q : Page) (c : Cmd) {st : Staged} (hm : st ∈ c.att.staged) (hk : s.skips q c = false)
    (hu : (c.att.useOfStaged st).isSome = true)
    (hl : ∀ y ∈ c.att.staged, y.hall = st.hall → y.d.pair = st.d.pair → y.face = st.face) :
    ((s.committed q c).hall st.hall).faces1.contains st.d.pair = decide (st.face = 1) := by
  rw [(s.committed_rows q c st.hall).1, State.turned, if_neg (by simp [hk]), State.flipAll_eq]
  refine State.contains_flips q c _ s (fun y hy hh hp => ⟨hl y hy hh hp, ?_⟩) (Or.inl ⟨st, hm, rfl, rfl⟩)
  rw [Attempt.useOfStaged_congr _ hh hp]
  exact hu

/-- Every other pair, and every pair under the verdict SKIP, keeps its committed face. -/
theorem State.committed_face_other (s : State) (q : Page) (c : Cmd) {h : Nat} {pair : Nat × Nat}
    (hs : s.skips q c = true ∨ ∀ st ∈ c.att.staged, st.hall = h → st.d.pair ≠ pair) :
    ((s.committed q c).hall h).faces1.contains pair = (s.hall h).faces1.contains pair := by
  rw [(s.committed_rows q c h).1, State.turned]
  split
  · rfl
  · next hk => exact State.contains_flips_other q c _ s (hs.resolve_left hk)

/-- A twin that no other displaces stands in its row's place. -/
theorem State.committed_twin (s : State) (q : Page) (c : Cmd) {w : Twin} (hm : w ∈ c.att.twins)
    (hl : ∀ y ∈ c.att.twins, y.hall = w.hall → y = w ∨ (y.lrow ≠ w.lrow ∧ y.phys ≠ w.phys))
    (ha : ∀ l, (s.hall w.hall).phys? (pageJob q) l ≠ some w.phys) (hf : (w.hall, w.lrow) ∉ c.att.freed) :
    ((s.committed q c).hall w.hall).TwinStands (pageJob q) w := by
  have alone : (((s.turned q c).keepRows q c).hall w.hall).TwinAlone (pageJob q) w := fun l _ => by
    have e := (Hall.rows_of (s.turned_rows q c w.hall).1).1 l
    exact fun h => ha l (e.symm.trans h)
  have twins := State.twins_stand (pageJob q) c.att.twins _ hl alone (Or.inl hm)
  have stands : (((s.turned q c).commitRows q c).hall w.hall).TwinStands (pageJob q) w := State.twin_freed _ _ _ hf twins
  obtain ⟨hp, hr⟩ := Hall.rows_of (s.committed_rows q c w.hall).2
  exact ⟨fun l hl => by rw [hp]; exact stands.alone l hl, by rw [hp, stands.phys], by rw [hr, stands.row]⟩

/-- A released row stands free. -/
theorem State.committed_freed (s : State) (q : Page) (c : Cmd) {r : Nat × Nat} (hm : r ∈ c.att.freed) {p : Nat}
    (hp : ((s.committed q c).hall r.1).phys? (pageJob q) r.2 = some p) : ((s.committed q c).hall r.1).row p = URow.free := by
  obtain ⟨ep, er⟩ := Hall.rows_of (s.committed_rows q c r.1).2
  rw [er]
  rw [ep] at hp
  unfold State.commitRows at hp ⊢
  dsimp only at hp ⊢
  rw [State.phys?_freeRows] at hp
  exact State.row_freeRows (pageJob q) _ _ hp (Or.inl hm)

/-- The counters of a hall of the partition. -/
theorem State.committed_counts (s : State) (q : Page) (c : Cmd) {h : Nat} (hh : h ∈ s.pageHalls q)
    (hb : ∀ b ∈ c.att.stateBlk, b.1 ≠ h) :
    (s.hall h).CountsBy ((s.committed q c).hall h) (pageJob q) c.att h (s.isUpdate q c && !s.skips q c) := by
  have hpage : (s.uncounted q c).pageHalls q = s.pageHalls q := by
    rw [State.pageHalls, State.part_of_parts (CommitFrame.uncounted s q c).parts, State.pageHalls]
  obtain ⟨uses, e⟩ := State.hall_countings q c (s.isUpdate q c && !s.skips q c) (s.pageHalls q) (Part.halls_nodup _) hh (s.uncounted q c)
  have hc := ((s.uncounted q c).hall h).counted_counts (pageJob q) c.seq c.att uses (s.isUpdate q c && !s.skips q c) hb
  rw [State.committed, State.commitCounters_eq, hpage, e]
  have u := s.uncounted_counts q c h
  have hstep : ((s.uncounted q c).hall h).step = (s.hall h).step := congrArg (·.1) u
  have hriser : ((s.uncounted q c).hall h).riser = (s.hall h).riser := congrArg (·.2.1) u
  have hsamp : ((s.uncounted q c).hall h).sampler = (s.hall h).sampler := congrArg (·.2.2) u
  exact ⟨by rw [hc.step, hstep], fun lane => by rw [hc.riser, hriser], fun lane => by rw [hc.sampler, hsamp]⟩

/-! ### The end of a command -/

theorem Part.value_releaseAll (p : Part) (who : Nat × Nat) (n : Nat) : ((p.releaseAll who).sem n).value = (p.sem n).value := by
  unfold Part.releaseAll Part.sem
  rw [tabGet_map Sem.reset (fun x => if x.holder = some who then { x with holder := none } else x) rfl]
  split <;> rfl

theorem recordBytes_length (j : Job) (c : Cmd) (status detail : Nat) (ok nc : Bool) (tst now : DWord) :
    (recordBytes j c status detail ok nc tst now).length = 32 := by
  unfold recordBytes
  simp only [List.length_append, natLE_length]

/-- TAG and STATUS of a record. -/
theorem recordBytes_head (j : Job) (c : Cmd) (status detail : Nat) (ok nc : Bool) (tst now : DWord) :
    ((recordBytes j c status detail ok nc tst now).drop 0).take 4 = natLE c.desc.tag.toNat 4
      ∧ ((recordBytes j c status detail ok nc tst now).drop 4).take 2 = natLE status 2 := by
  unfold recordBytes
  dsimp only
  simp only [List.append_assoc]
  refine ⟨?_, ?_⟩
  · exact List.take_left' (natLE_length ..)
  · rw [List.drop_left' (natLE_length ..)]
    exact List.take_left' (natLE_length ..)

/-- A record for a ring in host memory: its bytes there, and nothing of halls and partitions. -/
theorem State.postRecord_host (s : State) (q : Page) (c : Cmd) (status detail : Nat) (ok : Bool) (tst : DWord)
    (h : (s.job q).cqHbm = false) :
    (s.postRecord q c status detail ok tst).halls = s.halls ∧ (s.postRecord q c status detail ok tst).parts = s.parts
      ∧ ∃ nc, (s.postRecord q c status detail ok tst).host = memWrites s.host ((s.job q).cqBase + 32 * (s.job q).cqTail)
        (recordBytes (s.job q) c status detail ok nc tst s.time) := by
  unfold State.postRecord State.writeRing
  dsimp only
  have hb : ¬ (s.job q).cqHbm = true := by simp [h]
  rw [if_neg hb]
  split <;> exact ⟨rfl, rfl, _, rfl⟩

/-- The state whose record is posted: signals applied, semaphores released, host bytes written, COMMIT advanced. -/
def State.signalled (s : State) (q : Page) (c : Cmd) : State :=
  let s := s.modPart (pageFn q) fun p => ((p.signal c.desc).releaseAll (q, c.slot)).dropDigest (pageJob q) (s.job q).qseq
  let s := { s with host := c.att.hostOut.foldl (fun (m : Mem) (x : Nat × List Byte) => memWrites m x.1 x.2) s.host }
  s.modJob q fun j => { j with commits := (j.commits + 1) % 2 ^ 64 }

theorem State.finishCmd_posts (s : State) (q : Page) (c : Cmd) :
    s.finishCmd q c true = ((s.signalled q c).postRecord q c 0 0xFFFF true c.att.status).rehold (pageFn q) := rfl

theorem State.job_signalled (s : State) (q : Page) (c : Cmd) :
    (s.signalled q c).job q = { s.job q with commits := ((s.job q).commits + 1) % 2 ^ 64 } := by
  unfold State.signalled
  dsimp only
  rw [State.job_modJob_self]
  rfl

theorem State.part_signalled (s : State) (q : Page) (c : Cmd) : (s.signalled q c).part (pageFn q)
    = (((s.part (pageFn q)).signal c.desc).releaseAll (q, c.slot)).dropDigest (pageJob q) (s.job q).qseq :=
  s.part_modPart_self (pageFn q) fun p => ((p.signal c.desc).releaseAll (q, c.slot)).dropDigest (pageJob q) (s.job q).qseq

/-- A command whose queue is disabled and holds nothing else: after its record only the holder is chosen anew. -/
theorem State.finishCmd_last {s : State} {q : Page} {c : Cmd} (hs : (s.job q).cmds.map Cmd.slot = [c.slot]) (he : (s.job q).enable = false) :
    HolderFrame ((s.signalled q c).postRecord q c 0 0xFFFF true c.att.status) ((s.finishCmd q c true).fetchAll q)
      ∧ (((s.signalled q c).postRecord q c 0 0xFFFF true c.att.status).job q).cmds = [] := by
  have hj := (s.signalled q c).job_postRecord q c 0 0xFFFF true c.att.status
  rw [State.job_signalled] at hj
  generalize hp : (s.signalled q c).postRecord q c 0 0xFFFF true c.att.status = p at hj
  have hnone : (p.job q).cmds = [] := by
    rw [hj]
    refine List.filter_eq_nil_iff.mpr fun x hx => ?_
    have := List.mem_map_of_mem (f := Cmd.slot) hx
    rw [hs] at this
    simpa using this
  have fr : HolderFrame p (s.finishCmd q c true) := by
    rw [State.finishCmd_posts, hp]
    exact (HolderFrame.refl p).rehold _
  have hoff : ((s.finishCmd q c true).job q).enable = false := by
    have e : ((s.finishCmd q c true).job q).enable = (p.job q).enable := (congrArg Job.enable (fr.job q) :)
    rw [e, hj]
    exact he
  have hcmds : ((s.finishCmd q c true).job q).cmds = [] := (fr.cmds q).trans hnone
  refine ⟨?_, hnone⟩
  unfold State.fetchAll
  rw [State.fetchLoop_of_disabled hoff, State.drainFailed_nil hcmds]
  exact fr.rehold _

/-- What the end of a queue's only command leaves: its record in host memory, its semaphores free, the queue empty. -/
structure Posted (q : Page) (c : Cmd) (u t : State) : Prop where
  hall : ∀ k, t.hall k = u.hall k
  commits : (t.job q).commits = ((u.job q).commits + 1) % 2 ^ 64
  cmds : (t.job q).cmds = []
  sqHead : (t.job q).sqHead = (c.slot % 65536 + 1) % (u.job q).sqSize
  cqTail : (t.job q).cqTail = ((u.job q).cqTail + 1) % (u.job q).cqSize
  sem : ∀ n, (t.part (pageFn q)).sem n = (((u.part (pageFn q)).signal c.desc).releaseAll (q, c.slot)).sem n
  tag : leNat (memReads t.host ((u.job q).cqBase + 32 * (u.job q).cqTail) 4) = c.desc.tag.toNat
  status : leNat (memReads t.host ((u.job q).cqBase + 32 * (u.job q).cqTail + 4) 2) = 0
  outside : ∀ b, b < (u.job q).cqBase + 32 * (u.job q).cqTail ∨ (u.job q).cqBase + 32 * (u.job q).cqTail + 32 ≤ b →
    memRead t.host b = memRead (c.att.hostOut.foldl (fun m x => memWrites m x.1 x.2) u.host) b

/-- TAG and STATUS where a record was written, and the bytes beside it. -/
theorem memWrites_record {m m' : Mem} {a : Nat} {j : Job} {c : Cmd} {detail : Nat} {ok nc : Bool} {tst now : DWord}
    (h : m' = memWrites m a (recordBytes j c 0 detail ok nc tst now)) :
    leNat (memReads m' a 4) = c.desc.tag.toNat ∧ leNat (memReads m' (a + 4) 2) = 0
      ∧ ∀ b, b < a ∨ a + 32 ≤ b → memRead m' b = memRead m b := by
  have hlen := recordBytes_length j c 0 detail ok nc tst now
  obtain ⟨htag, hstat⟩ := recordBytes_head j c 0 detail ok nc tst now
  subst h
  generalize recordBytes j c 0 detail ok nc tst now = rb at hlen htag hstat
  refine ⟨?_, ?_, fun b hb => memRead_memWrites_outside m a b rb (by rw [hlen]; exact hb)⟩
  · have e := memReads_memWrites_inside (m := m) (a := a) (l := rb) (i := 0) (n := 4) (by omega)
    rw [Nat.add_zero] at e
    rw [e, htag]
    exact leNat_natLE_of_lt c.desc.tag.isLt
  · rw [memReads_memWrites_inside (by omega), hstat]
    exact leNat_natLE_of_lt (by decide)

theorem State.finishCmd_posted {u : State} {q : Page} {c : Cmd} (hs : (u.job q).cmds.map Cmd.slot = [c.slot])
    (he : (u.job q).enable = false) (hb : (u.job q).cqHbm = false) : Posted q c u ((u.finishCmd q c true).fetchAll q) := by
  obtain ⟨fr, hnone⟩ := State.finishCmd_last hs he
  have hjob := (u.signalled q c).job_postRecord q c 0 0xFFFF true c.att.status
  obtain ⟨hhalls, hparts, nc, hhost⟩ := (u.signalled q c).postRecord_host q c 0 0xFFFF true c.att.status
    (by rw [State.job_signalled]; exact hb)
  rw [State.job_signalled] at hhost hjob
  have hpart := State.part_of_parts hparts (pageFn q)
  rw [State.part_signalled] at hpart
  generalize (u.signalled q c).postRecord q c 0 0xFFFF true c.att.status = p at fr hnone hjob hhalls hpart hhost
  generalize (u.finishCmd q c true).fetchAll q = t at fr
  obtain ⟨htag, hstat, hout⟩ := memWrites_record (fr.host.trans hhost)
  exact {
    hall := fun k => by rw [fr.hall, State.hall, hhalls]; rfl
    commits := (congrArg Job.commits (fr.job q) :).trans (congrArg Job.commits hjob)
    cmds := (fr.cmds q).trans hnone
    sqHead := (congrArg Job.sqHead (fr.job q) :).trans (congrArg Job.sqHead hjob)
    cqTail := (congrArg Job.cqTail (fr.job q) :).trans (congrArg Job.cqTail hjob)
    sem := fun n => by rw [Part.sem, fr.sems, hpart]; rfl
    tag := htag
    status := hstat
    outside := hout }

/-! ### The commit point -/

theorem State.commitOldest_point {s : State} {q : Page} {c : Cmd} {rest : List Cmd} (h : (s.job q).cmds = c :: rest)
    (hw : c.phase = .window) (hh : c.att.hits = []) : s.commitOldest q = ((s.committed q c).finishCmd q c true).fetchAll q := by
  unfold State.commitOldest
  rw [h]
  dsimp only
  rw [if_pos (by rw [Cmd.inWindow, hw]; rfl), State.commitPoint, State.commitEffects_eq hh]

/-- Settles O12: each stage of the commit point changes its own fields, and the record ends the queue's only command. -/
theorem commitPointSignalsAndPosts : Obligations.CommitPointSignalsAndPosts := by
  unfold Obligations.CommitPointSignalsAndPosts
  intro s q c hz h hw hh hen hcq a
  have cf := CommitFrame.committed s q c
  have own {β : Type} (f : Job → β) (hf : ∀ j : Job, f { j with cmds := [] } = f j) :
      f ((s.committed q c).job q) = f (s.job q) := by rw [← hf, cf.own, hf]
  have posted := State.finishCmd_posted (c := c) (by rw [cf.slots, h]; rfl : ((s.committed q c).job q).cmds.map Cmd.slot = [c.slot])
    ((own Job.enable fun _ => rfl).trans hen) ((own Job.cqHbm fun _ => rfl).trans hcq)
  have ex : exec (.commit q .point) s = .next (s.commitOldest q) := next_live hz _
  rw [State.commitOldest_point h hw hh] at ex
  generalize ((s.committed q c).finishCmd q c true).fetchAll q = t at posted ex
  have ha : ((s.committed q c).job q).cqBase + 32 * ((s.committed q c).job q).cqTail = a :=
    own (fun j => j.cqBase + 32 * j.cqTail) fun _ => rfl
  have hpart := State.part_of_parts cf.parts (pageFn q)
  obtain ⟨hall, hcommits, hcmds, hhead, htail, hsem, htag, hstat, hout⟩ := posted
  rw [ha] at htag hstat hout
  rw [hpart] at hsem
  rw [cf.host] at hout
  rw [own Job.commits fun _ => rfl] at hcommits
  rw [own Job.sqSize fun _ => rfl] at hhead
  rw [own Job.cqTail fun _ => rfl, own Job.cqSize fun _ => rfl] at htail
  refine ⟨t, ex, hcommits, hcmds, hhead, htail, htag, hstat, hout, fun n => ?_, fun n => ?_, fun st hm hk hs hl => ?_,
    fun k pair hs => ?_, fun w hm hl ha hf => ?_, fun r hm p hp => ?_, fun k hk hb => ?_⟩
  · rw [hsem, Part.value_releaseAll]
  · rw [hsem]
    exact Part.holder_releaseAll _ _ n
  · rw [hall, s.committed_face q c hm hk hs hl, decide_eq_true_iff]
  · rw [hall, s.committed_face_other q c hs]
  · have stands := s.committed_twin q c hm hl ha hf
    rw [hall]
    exact ⟨stands.phys, stands.row⟩
  · rw [hall] at hp ⊢
    exact s.committed_freed q c hm hp
  · have counts := s.committed_counts q c hk hb
    rw [hall]
    exact ⟨counts.step, fun lane _ => ⟨counts.riser lane, counts.sampler lane⟩⟩

end Sys2Proof.Machine
end

section
/-! PROOFS. The work of a RUN, of a GANG and of a FENCE, and on what a CHECKPOINT of several halls depends. -/

namespace Sys2Proof.Machine

/-! ### The turns of a RUN's halls -/

/-- A row by its mode and the command of that mode do the same. -/
structure RowPair (e : Nat × (Site → Upset → State → Out)) (i : Nat × (Site → Upset → Instr)) : Prop where
  mode : i.1 = e.1
  does : ∀ a s, ∃ t, e.2 a Upset.none s = .next t ∧ exec (i.2 a Upset.none) s = .next t

/-- The command at a mode in a list of them. -/
def modeInstr (l : List (Nat × (Site → Upset → Instr))) (k : Nat) (a : Site) : Option Instr :=
  (l.find? (·.1 == k)).map fun e => e.2 a Upset.none

/-- What a command does where there is one. -/
def Instr.doesOr (c : Option Instr) (s t : State) : Prop :=
  match c with
  | some c => exec c s = .next t
  | none => t = s

theorem modeRow_does {es : List (Nat × (Site → Upset → State → Out))} {is : List (Nat × (Site → Upset → Instr))}
    (h : List.Forall₂ RowPair es is) (k : Nat) (a : Site) (s : State) :
    ∃ t, modeRow es k a s = .next t ∧ Instr.doesOr (modeInstr is k a) s t := by
  induction h with
  | nil => exact ⟨s, rfl, rfl⟩
  | @cons e i es is p _ ih =>
    by_cases hk : e.1 = k
    · obtain ⟨t, hrow, hdoes⟩ := p.does a s
      refine ⟨t, ?_, ?_⟩
      · rw [modeRow, List.find?_cons_of_pos (by simpa using hk)]
        exact hrow
      · rw [modeInstr, List.find?_cons_of_pos (by simpa [p.mode] using hk)]
        exact hdoes
    · rw [modeRow, modeInstr, List.find?_cons_of_neg (by simpa using hk), List.find?_cons_of_neg (by simpa [p.mode] using hk)]
      exact ih

theorem matRows_pair : List.Forall₂ RowPair matRows [(0, .matpassL), (1, .matpassWideSum), (2, .matpassT), (3, .matpassB)] := by
  refine .cons ?_ (.cons ?_ (.cons ?_ (.cons ?_ .nil))) <;>
    exact ⟨rfl, fun _ _ => ⟨_, rfl, rfl⟩⟩

theorem eRows_pair : List.Forall₂ RowPair eRows [(eMUL, .eMul), (eDIV, .eDiv), (eRECIP, .recip), (eSQRT, .eSqrt), (eRSQRT, .rsqrt), (ePOW, .pow),
    (eSCALE, .scale), (eEXP, .exp), (eLOG2, .log2), (eLN, .ln), (eABS, .abs), (eNEG, .neg), (eMAX, .eMax), (eMIN, .eMin),
    (eCMPGT, .cmpgt), (eCMPEQ, .cmpeq), (eFUNC, .func)] := by
  refine .cons ?_ (.cons ?_ (.cons ?_ (.cons ?_ (.cons ?_ (.cons ?_ (.cons ?_ (.cons ?_ (.cons ?_ (.cons ?_ (.cons ?_ (.cons ?_ (.cons ?_ (.cons ?_ (.cons ?_ (.cons ?_ (.cons ?_ .nil)))))))))))))))) <;>
    exact ⟨rfl, fun _ _ => ⟨_, rfl, rfl⟩⟩

theorem newelRows_pair : List.Forall₂ RowPair newelRows [(nADD, .newelAdd), (nMUL, .newelMul), (nFMA, .fma), (nDIV, .newelDiv), (nSQRT, .newelSqrt),
    (nMAXIMUM, .maximum), (nMINIMUM, .minimum), (nMAXNUM, .maxnum), (nMINNUM, .minnum), (nCMP, .cmp), (nROWMAX, .rowmax),
    (nXENT, .xent), (nSAMPLE, .sample), (nVERIFY, .verify)] := by
  refine .cons ?_ (.cons ?_ (.cons ?_ (.cons ?_ (.cons ?_ (.cons ?_ (.cons ?_ (.cons ?_ (.cons ?_ (.cons ?_ (.cons ?_ (.cons ?_ (.cons ?_ (.cons ?_ .nil))))))))))))) <;>
    exact ⟨rfl, fun _ _ => ⟨_, rfl, rfl⟩⟩

theorem reduceRows_pair : List.Forall₂ RowPair reduceRows [(0, fun a _ => .reduceToRiserHold a), (1, fun a _ => .reduceToOwnerRows a), (2, fun a _ => .allReduce a),
    (3, fun a _ => .normPacket a)] := by
  refine .cons ?_ (.cons ?_ (.cons ?_ (.cons ?_ .nil))) <;>
    exact ⟨rfl, fun _ _ => ⟨_, rfl, rfl⟩⟩

/-- The row that an operation's turn takes is the row of its kind. -/
theorem opRow_does (o : Op) (a : Site) (s : State) : ∃ t, opRow o a s = .next t ∧ o.does a s t := by
  cases o with
  | bayload => exact ⟨_, rfl, rfl⟩
  | matpass m => exact modeRow_does matRows_pair m.kind a s
  | epass e => exact modeRow_does eRows_pair e.mode a s
  | newel n => exact modeRow_does newelRows_pair n.mode a s
  | riser r =>
    unfold opRow Op.does Op.instr?
    by_cases h : r.apply = true
    · simp only [if_pos h]
      exact ⟨_, rfl, rfl⟩
    · simp only [if_neg h]
      exact ⟨_, rfl, rfl⟩
  | save v =>
    unfold opRow Op.does Op.instr?
    by_cases h : v.mode = 2
    · simp only [if_pos h]
      exact ⟨_, rfl, rfl⟩
    · simp only [if_neg h]
      exact ⟨_, rfl, rfl⟩
  | store => exact ⟨_, rfl, rfl⟩
  | hbmcopy => exact ⟨_, rfl, rfl⟩
  | send => exact ⟨_, rfl, rfl⟩
  | recv r =>
    unfold opRow Op.does Op.instr?
    by_cases h : r.mode < 2
    · simp only [if_pos h]
      exact ⟨_, rfl, rfl⟩
    · by_cases h2 : r.mode = 2
      · simp only [if_neg h, if_pos h2]
        exact ⟨_, rfl, rfl⟩
      · simp only [if_neg h, if_neg h2]
        exact ⟨_, rfl, rfl⟩
  | reduce r => exact modeRow_does reduceRows_pair r.mode a s
  | hallwait => exact ⟨_, rfl, rfl⟩
  | bad => exact ⟨s, rfl, rfl⟩

/-- Operations of a list take their turns until one has taken it. -/
theorem hallTurns_takes (a : Site) (l : List OpCtx) (s : State) : ∃ t, hallTurns a l s = .next t
    ∧ (Waits a l s t ∨ ∃ (w : List OpCtx) (x : OpCtx) (r : List OpCtx) (u : State),
      l = w ++ x :: r ∧ Waits a w s u ∧ x.op.does a u t ∧ tookTurn a u t = true) := by
  induction l generalizing s with
  | nil => exact ⟨s, rfl, Or.inl rfl⟩
  | cons x l ih =>
    obtain ⟨u, hrow, hdoes⟩ := opRow_does x.op a s
    rw [hallTurns, hrow]
    dsimp only
    by_cases htook : tookTurn a s u = true
    · rw [if_pos htook]
      exact ⟨u, rfl, Or.inr ⟨[], x, l, s, rfl, rfl, hdoes, htook⟩⟩
    · rw [if_neg htook]
      have hwait : tookTurn a s u = false := by simpa using htook
      obtain ⟨t, hturns, hw | ⟨w, y, r, v, hl, hw, hy, ht⟩⟩ := ih u
      · exact ⟨t, hturns, Or.inl ⟨u, hdoes, hwait, hw⟩⟩
      · exact ⟨t, hturns, Or.inr ⟨x :: w, y, r, v, by rw [hl]; rfl, ⟨u, hdoes, hwait, hw⟩, hy, ht⟩⟩

theorem runHalls_take (q : Page) (slot : Nat) (l : List Nat) (s : State) :
    ∃ t, runHalls q slot l s = .next t ∧ HallsTake q slot l s t := by
  induction l generalizing s with
  | nil => exact ⟨s, rfl, rfl⟩
  | cons h l ih =>
    obtain ⟨u, hturns, htakes⟩ := hallTurns_takes ⟨q, slot, h⟩ (s.opsAt ⟨q, slot, h⟩ fun _ _ => true) s
    obtain ⟨t, hruns, htake⟩ := ih u
    refine ⟨t, ?_, u, htakes, htake⟩
    rw [runHalls, hallStep, hturns]
    exact hruns

/-- The work of a RUN: its halls, one after the other. -/
theorem run_takes {s : State} (hz : s.frozen = false) (q : Page) (slot : Nat) :
    ∃ t, exec (.run q (.work slot)) s = .next t ∧ HallsTake q slot (s.pageHalls q) s t := by
  obtain ⟨t, hruns, htake⟩ := runHalls_take q slot (s.pageHalls q) s
  have e : exec (.run q (.work slot)) s = if s.frozen = true then .next s else runHalls q slot (s.pageHalls q) s := rfl
  exact ⟨t, by rw [e, if_neg (by simp [hz]), hruns], htake⟩

end Sys2Proof.Machine
end

section
/-! PROOFS. GANG and FENCE, and on what a CHECKPOINT of several halls depends. -/

namespace Sys2Proof.Machine

/-! ### GANG -/

/-- The row of a GANG's OP. -/
theorem gangRow_exec {op : Nat} {i : Page → CmdStep → Instr}
    (h : (op, i) ∈ [(1, Instr.gangReduceToOwner), (2, Instr.gangAllReduce), (3, Instr.gangGather), (4, Instr.gangBroadcast)])
    {s : State} (hz : s.frozen = false) (q : Page) (slot : Nat) : exec (i q (.work slot)) s = .next (s.gangWork q slot op) := by
  have rows : ∀ e ∈ [(1, Instr.gangReduceToOwner), (2, Instr.gangAllReduce), (3, Instr.gangGather), (4, Instr.gangBroadcast)],
      exec (e.2 q (.work slot)) s = whenRunning s fun s => s.gangWork q slot e.1 := by
    simp only [List.forall_mem_cons]
    refine ⟨?_, ?_, ?_, ?_, by simp⟩ <;> rfl
  rw [rows _ h]
  exact next_live hz _

/-- The state of a GANG whose collective is complete and whose result is staged. -/
def State.gangEnd (s : State) (q : Page) (c : Cmd) (g : GangCtx) (f : Face) (roots : List NodeVal) : State :=
  (((s.collDone g.c (0x80 + g.op) roots).countAbsent g.c roots).countGang q c.slot g f).modAtt q c.slot Attempt.finish

theorem State.gangStep_ends {s s1 t1 : State} {q : Page} {c : Cmd} {g : GangCtx} {f : Face} {roots : List NodeVal}
    (hf : s.gangFace g = .ok f) (ht : ((s.hall g.tgt.hall).job (pageJob q)).treeBad g.c.tree g.c.round = false)
    (hs : State.collStep g.c (g.own f) g.c.shards s = .ok (s1, true, roots))
    (hw : s1.gangWrite q c.slot g (if g.op = 2 ∨ g.op = 4 then roots
      else roots.filter fun v => g.c.tree.owner v.shard == g.rank) = .ok t1) :
    s.gangStep q c g = .ok (t1.gangEnd q c g f roots) := by
  unfold State.gangStep
  rw [hf]
  dsimp only
  rw [if_neg (by simp [ht]), hs]
  dsimp only
  rw [hw]
  rfl

theorem State.gangCtx_op {s : State} {q : Page} {c : Cmd} {g : GangCtx} (e : s.gangCtx q c = some g) : g.op = c.desc.gangOp := by
  unfold State.gangCtx at e
  split at e
  · obtain ⟨t, _, rfl⟩ := Option.map_eq_some_iff.mp e
    rfl
  · cases e

/-- A command's attempt after it has marked its work done. -/
theorem State.finished_modAtt {s : State} {q : Page} {slot : Nat} (h : (s.cmd? q slot).isSome = true) :
    ((s.modAtt q slot Attempt.finish).att q slot).finished = true := by
  rw [s.att_modAtt q slot Attempt.finish h]
  exact Attempt.finished_finish _

theorem gang_finishes {s s1 t1 : State} {q : Page} {slot : Nat} {c : Cmd} {op : Nat} {i : Page → CmdStep → Instr} {g : GangCtx}
    {f : Face} {roots : List NodeVal} (hz : s.frozen = false) (hc : s.cmd? q slot = some c) (hslot : c.slot = slot)
    (hi : (op, i) ∈ [(1, Instr.gangReduceToOwner), (2, Instr.gangAllReduce), (3, Instr.gangGather), (4, Instr.gangBroadcast)])
    (hp : c.phase = .running) (ho : c.opcode = opGANG) (hn : c.noWork = false) (hd : c.att.finished = false) (hop : c.desc.gangOp = op)
    (hg : s.gangCtx q c = some g) (hf : s.gangFace g = .ok f)
    (ht : ((s.hall g.tgt.hall).job (pageJob q)).treeBad g.c.tree g.c.round = false)
    (hs : State.collStep g.c (g.own f) g.c.shards s = .ok (s1, true, roots))
    (hw : s1.gangWrite q slot g (if op = 2 ∨ op = 4 then roots
      else roots.filter fun v => g.c.tree.owner v.shard == g.rank) = .ok t1) :
    ∃ t, exec (i q (.work slot)) s = .next t ∧ (t.att q slot).finished = true ∧ SameCommitted s t := by
  subst hslot
  have hgop : g.op = op := (State.gangCtx_op hg).trans hop
  have hstep := State.gangStep_ends hf ht hs (by rw [hgop]; exact hw)
  have frame := WorkFrame.gangStep hc hg _ hstep
  have hrow : s.gangWork q c.slot op = t1.gangEnd q c g f roots :=
    State.work_ok hc hp (by simp [ho, hop]) hn hd (by rw [hg]; exact hstep)
  refine ⟨t1.gangEnd q c g f roots, (gangRow_exec hi hz q c.slot).trans (by rw [hrow]), State.finished_modAtt ?_, frame.committed⟩
  rw [← State.cmd?_modAtt_isSome _ q c.slot Attempt.finish c.slot]
  exact frame.here.trans (by rw [hc]; rfl)

/-! ### FENCE -/

theorem fence_waits {s : State} (hz : s.frozen = false) (q : Page) (slot : Nat) {c : Cmd} (ho : c.opcode = opFENCE) :
    exec (.fence q (.work slot)) s = .next s ∧ (s.workDone q c = true ↔ c.desc.peer = false ∨ s.peersDone q = true) := by
  refine ⟨next_live hz s, ?_⟩
  unfold State.workDone
  rw [if_pos ho]
  simp

/-! ### CHECKPOINT where every free byte is the same -/

theorem mapE_congr {α β : Type} {f g : α → Except Nat β} (l : List α) (h : ∀ x ∈ l, f x = g x) : mapE f l = mapE g l := by
  induction l with
  | nil => rfl
  | cons x l ih => rw [mapE, mapE, h x List.mem_cons_self, ih fun y hy => h y (List.mem_cons_of_mem x hy)]

/-- The image of a hall is the same whatever free values come next. -/
theorem State.slotImage_free (s : State) (n : Nat) (q : Page) (c : Cmd) (h : Nat) :
    ({ s with free := n } : State).slotImage q c h = s.slotImage q c h := rfl

section
variable (hconst : ∀ i j, Config.freeByte i = Config.freeByte j)
include hconst

/-- Free bytes are the same wherever they are drawn. -/
theorem State.freeRuns_free (s : State) (n h : Nat) (l : List Span) :
    ∃ m, ({ s with free := n } : State).freeRuns h l = { s.freeRuns h l with free := m } := by
  induction l generalizing s n with
  | nil => exact ⟨n, rfl⟩
  | cons sp l ih =>
    have hdraw : (({ s with free := n } : State).freshList Config.freeByte sp.2).1 = (s.freshList Config.freeByte sp.2).1 :=
      List.map_congr_left fun i _ => hconst ..
    obtain ⟨m, e⟩ := ih ({ s with free := s.free + sp.2 }.modHall h fun H =>
      { H with hbm := memWrites H.hbm sp.1 (s.freshList Config.freeByte sp.2).1 }) (n + sp.2)
    refine ⟨m, Eq.trans ?_ e⟩
    unfold State.freeRuns
    rw [List.foldl_cons]
    dsimp only
    rw [hdraw]
    rfl

theorem State.unsure_free (s : State) (n : Nat) (c : Cmd) :
    ∃ m, ({ s with free := n } : State).unsure c = { s.unsure c with free := m } := by
  unfold State.unsure State.freeHits
  generalize c.att.hits = l
  induction l generalizing s n with
  | nil => exact ⟨n, rfl⟩
  | cons e l ih =>
    obtain ⟨m, e1⟩ := State.freeRuns_free hconst s n e.1 [e.2]
    rw [List.foldl_cons, List.foldl_cons, e1]
    exact ih _ m

theorem State.unsure_image (s : State) (n : Nat) (q : Page) (c : Cmd) (h : Nat) :
    (({ s with free := n } : State).unsure c).slotImage q c h = (s.unsure c).slotImage q c h := by
  obtain ⟨m, e⟩ := State.unsure_free hconst s n c
  rw [e, State.slotImage_free]

end

/-- What a hall's part of a CHECKPOINT needs to be over. -/
structure State.ImageSent (s : State) (q : Page) (c : Cmd) (p : Plan) (h : Nat) : Prop where
  image : ∀ n, ∃ img, (({ s with free := n } : State).unsure c).slotImage q c h = .ok img
  sent : (h, s.mezzId ⟨q, c.slot, h, h - (s.part (pageFn q)).base, p, c.seq⟩ kMEZZ 0) ∈ (s.att q c.slot).sent
  answered : (s.receiptOf ⟨q, c.slot, h, h - (s.part (pageFn q)).base, p, c.seq⟩
    (s.mezzId ⟨q, c.slot, h, h - (s.part (pageFn q)).base, p, c.seq⟩ kMEZZ 0)).isSome = true

theorem State.sendOnce_again {s : State} {k : LinkCtx} {id : XferId} (h : (k.hall, id) ∈ (s.att k.page k.slot).sent) (dest : Nat)
    (ports : List Nat) (vc : Nat) (data : List Byte) : s.sendOnce k id dest ports vc data = .ok s := by
  unfold State.sendOnce
  rw [if_pos (by simpa using h)]

/-- A hall whose image has been sent only draws free values. -/
theorem State.ckptHall_sent {s : State} {q : Page} {c : Cmd} {p : Plan} {h : Nat} (hs : s.ImageSent q c p h) (n : Nat) :
    ({ s with free := n } : State).ckptHall q c p h = .ok { s with free := (({ s with free := n } : State).unsure c).free } := by
  obtain ⟨img, himg⟩ := hs.image n
  unfold State.ckptHall
  dsimp only
  rw [himg]
  exact State.sendOnce_again (s := { s with free := (({ s with free := n } : State).unsure c).free }) hs.sent ..

theorem State.ckptHalls_sent {s : State} {q : Page} {c : Cmd} {p : Plan} (l : List Nat) (hl : ∀ h ∈ l, s.ImageSent q c p h) (n : Nat) :
    ∃ m, foldE (fun s h => s.ckptHall q c p h) ({ s with free := n } : State) l = .ok { s with free := m } := by
  induction l generalizing n with
  | nil => exact ⟨n, rfl⟩
  | cons h l ih =>
    rw [foldE, State.ckptHall_sent (hl h List.mem_cons_self) n]
    exact ih (fun k hk => hl k (List.mem_cons_of_mem h hk)) _

/-- What a CHECKPOINT counts of one of its tensors. -/
def State.countCkptUse (s : State) (q : Page) (c : Cmd) (u : Use) : State := match s.useFace u with
  | .ok f => if u.d.w.fmt = fmtZT2 then s.countRead q c.slot u ((List.range u.d.elems).map fun i => (i, f.elemCode i)) else s
  | .error _ => s

theorem State.countCkpt_eq (s : State) (q : Page) (c : Cmd) : s.countCkpt q c = c.att.uses.foldl (fun s u => s.countCkptUse q c u) s := rfl

theorem OpFrame.countCkptUse {q : Page} {c : Cmd} {s t : State} (h : OpFrame q c.slot [] s t) (u : Use) :
    OpFrame q c.slot [] s (t.countCkptUse q c u) := by
  unfold State.countCkptUse
  split
  · exact .ite (h.countRead ..) h
  · exact h

theorem State.halls_countCkptUse (s : State) (q : Page) (c : Cmd) (u : Use) : (s.countCkptUse q c u).halls = s.halls := by
  unfold State.countCkptUse State.countRead State.countInvalid
  split
  · split
    · dsimp only
      split <;> rfl
    · rfl
  · rfl

/-- Counting adds to the attempt alone. -/
theorem State.countCkpt_frame (s : State) (q : Page) (c : Cmd) :
    OpFrame q c.slot [] s (s.countCkpt q c) ∧ (s.countCkpt q c).halls = s.halls := by
  rw [State.countCkpt_eq]
  exact ⟨OpFrame.foldl (.refl s) (fun _ u h => h.countCkptUse u) _, List.foldl_keeps State.halls (fun t u => t.halls_countCkptUse q c u) _ s⟩

theorem State.outside_modAtt (s : State) (q : Page) (slot : Nat) (f : Attempt → Attempt) : SameOutside q s (s.modAtt q slot f) :=
  ⟨rfl, rfl, rfl, rfl, rfl, fun k hk => by rw [State.modAtt, State.modCmd, State.job_modJob, if_neg hk]⟩

/-- A CHECKPOINT whose images have all been sent and answered is finished. -/
theorem checkpoint_finishes {s : State} {q : Page} {slot : Nat} {c : Cmd} {p : Plan} (hz : s.frozen = false) (hc : s.cmd? q slot = some c)
    (hslot : c.slot = slot) (hp : c.phase = .running) (ho : c.opcode = opCHECKPOINT) (hn : c.noWork = false)
    (hd : c.att.finished = false) (hplan : s.plan? q = some p) (hs : ∀ h ∈ s.pageHalls q, s.ImageSent q c p h) :
    ∃ t, exec (.checkpoint q (.work slot)) s = .next t ∧ (t.att q slot).finished = true ∧ SameOutside q s t ∧ t.halls = s.halls := by
  subst hslot
  obtain ⟨m, e⟩ := State.ckptHalls_sent (s.pageHalls q) hs s.free
  have hall : ((({ s with free := m } : State).pageHalls q).all fun h =>
      let k : LinkCtx := ⟨q, c.slot, h, h - (s.part (pageFn q)).base, p, c.seq⟩
      (({ s with free := m } : State).receiptOf k (({ s with free := m } : State).mezzId k kMEZZ 0)).isSome) = true :=
    List.all_eq_true.mpr fun h hh => (hs h hh).answered
  have hwork : s.ckptWork q c = .ok ((({ s with free := m } : State).countCkpt q c).modAtt q c.slot Attempt.finish) := by
    unfold State.ckptWork
    rw [hplan]
    dsimp only
    rw [show foldE (fun s h => s.ckptHall q c p h) s (s.pageHalls q) = .ok { s with free := m } from e]
    dsimp only
    exact congrArg Except.ok (if_pos hall)
  have hrow : exec (.checkpoint q (.work c.slot)) s = .next (s.work q c.slot (·.opcode == opCHECKPOINT) fun c s => s.ckptWork q c) :=
    next_live hz _
  obtain ⟨frame, hhalls⟩ := ({ s with free := m } : State).countCkpt_frame q c
  rw [State.work_ok hc hp (by simp [ho]) hn hd hwork] at hrow
  have fresh : OpFrame q c.slot [] s { s with free := m } := ⟨rfl, fun _ => rfl, fun _ _ => rfl, rfl, .refl _, id, fun _ _ _ => rfl⟩
  refine ⟨_, hrow, State.finished_modAtt ?_, ?_, hhalls⟩
  · exact frame.here.trans (by rw [show ({ s with free := m } : State).cmd? q c.slot = s.cmd? q c.slot from rfl, hc]; rfl)
  · exact (fresh.trans frame).sameOutside.trans (State.outside_modAtt ..)

end Sys2Proof.Machine
end

section
/-! PROOFS. A CHECKPOINT of two halls, and the free bytes that its second hall meets. -/

namespace Sys2Proof.Machine

/-! ### A CHECKPOINT of two halls whose second image depends on a free byte -/

/-- A side list of two entries, with elements p and q. -/
def sidePair (p q : Byte) : List Byte :=
  [2, 0, 0, 0, 0, 0, 0, 0, p, 0, 0, 0, 0, 0, 0, 0, q, 0, 0, 0, 0, 0, 0, 0]

theorem memReads_slice {m : Mem} {a n i k : Nat} (h : i + k ≤ n) : memReads m (a + i) k = ((memReads m a n).drop i).take k := by
  refine List.ext_getElem ?_ fun j hj _ => ?_
  · rw [memReads_length, List.length_take, List.length_drop, memReads_length]
    omega
  · rw [memReads_getElem, List.getElem_take, List.getElem_drop, memReads_getElem, Nat.add_assoc]

/-- Such a list is well-formed where its elements rise. -/
theorem readSide_sidePair {m : Mem} {a : Nat} {p q : Byte} (h : memReads m a 24 = sidePair p q) :
    readSide m a 256 = if p.toNat < q.toNat then some [(p.toNat, 0), (q.toNat, 0)] else none := by
  have part (i k : Nat) (hk : i + k ≤ 24) : memReads m (a + i) k = ((sidePair p q).drop i).take k := by rw [memReads_slice hk, h]
  have hn : leNat (memReads m a 4) = 2 := (congrArg leNat (part 0 4 (by decide))).trans rfl
  have hr : leNat (memReads m (a + 4) 4) = 0 := (congrArg leNat (part 4 4 (by decide))).trans rfl
  have hp : leNat (memReads m (a + 8) 4) = p.toNat := (congrArg leNat (part 8 4 (by decide))).trans (by simp [sidePair, leNat])
  have hq : leNat (memReads m (a + 16) 4) = q.toNat := (congrArg leNat (part 16 4 (by decide))).trans (by simp [sidePair, leNat])
  have hv : leNat (memReads m (a + 12) 4) = 0 := (congrArg leNat (part 12 4 (by decide))).trans rfl
  have hw : leNat (memReads m (a + 20) 4) = 0 := (congrArg leNat (part 20 4 (by decide))).trans rfl
  have bounds : p.toNat < 256 ∧ q.toNat < 256 := ⟨p.isLt, q.isLt⟩
  unfold readSide
  dsimp only
  rw [hn, if_neg (by simp [hr])]
  simp [List.range_succ, hp, hq, hv, hw, bounds]

/-- A byte of written bytes that is written again. -/
theorem memReads_patched (m : Mem) (a i : Nat) (l : List Byte) (b : Byte) :
    memReads (memWrites (memWrites m a l) (a + i) [b]) a l.length = l.set i b := by
  refine List.ext_getElem (by rw [memReads_length, List.length_set]) fun j hj _ => ?_
  rw [memReads_length] at hj
  rw [memReads_getElem, memRead_memWrites, List.getElem_set]
  by_cases h : i = j
  · subst h
    rw [if_pos ⟨Nat.le_refl _, by simp⟩, if_pos rfl]
    simp
  · rw [if_neg (by simp; omega), if_neg h, memRead_memWrites, if_pos (by omega), Nat.add_sub_cancel_left, List.getD_eq_getElem _ _ hj]

/-- A tensor of 256 elements with a side list at byte 0x1000. -/
def ckptTensor : TDesc :=
  { fmtRaw := 128, affRaw := 0, tensor := 0xFFFF, host := false, dogleg := true, rsv := false, rows := 1, cols := 256, pitch := 256,
    addr0 := 0x10000, addr1 := 0x20000, plane := 0, side := 0x1000 }

/-- Its use in hall 1. -/
def ckptUse : Use := ⟨1, ckptTensor, 0, none, 0, 0, 0, 0, false, true, false⟩

/-- The transfer of an image, sent and answered. -/
def ckptId : XferId := ⟨kMEZZ, 0, 0, 0, 0, 0, 0⟩
def ckptTx : TxEnt := ⟨ckptId, 0x10, [0], 0, [], some (1, 0), false, 0, false, 0, false, false⟩

/-- The running CHECKPOINT whose images have been sent from both halls; a BAR2 write met byte a of hall 1 meanwhile. -/
def ckptCmd (a : Nat) : Cmd :=
  { slot := 0, seq := 0, opcode := opCHECKPOINT, desc := ⟨0, 0, 7, 0, 0, [0, 0, 0, 0], [0, 0, 0, 0, 1] ++ List.replicate 27 0⟩,
    tds := [], tens := [], known := true, phase := .running, kills := 0, faultKills := 0, race := false, absentF := false,
    firstT := none, mism := 0, evid := 0, evidP := 0, tauTest := false,
    att := { Attempt.empty with uses := [ckptUse], sent := [(0, ckptId), (1, ckptId)], hits := [(1, a, 1)] } }

def ckptSide (m : Mem) : Hall := { Hall.reset with hbm := m, jobs := [(0, { HJob.reset with tx := [ckptTx] })] }

/-- That command in a partition of two halls, with n free values drawn so far. -/
def ckptState (m : Mem) (a n : Nat) : State :=
  { State.reset with
    free := n,
    hallmap := 3,
    parts := [(1, { Part.reset with size := 1, bindReq := true, bound := true, plan := some stalePlan })],
    jobs := [(0, { Job.reset with cmds := [ckptCmd a] })],
    halls := [(0, ckptSide []), (1, ckptSide m)] }

theorem ckptState_halls (m : Mem) (a n : Nat) : (ckptState m a n).pageHalls 0 = [0, 1] := by rfl

/-- The memory of hall 1 as the command sees it. -/
theorem ckptState_unsure (m : Mem) (a n : Nat) :
    (((ckptState m a n).unsure (ckptCmd a)).hall 1).hbm = memWrites m a [Config.freeByte n] := by rfl

theorem ckptState_next (m : Mem) (a n : Nat) : ((ckptState m a n).unsure (ckptCmd a)).free = n + 1 := by rfl

/-- Hall 0 has an image without a tensor. -/
theorem ckptState_first (m : Mem) (a n : Nat) : ∃ img, ((ckptState m a n).unsure (ckptCmd a)).slotImage 0 (ckptCmd a) 0 = .ok img :=
  ⟨_, rfl⟩

/-- A face with a side list that reads well. -/
theorem State.useFace_side {s : State} {u : Use} {es : List (Nat × Nat)} (hw : u.d.w.side = true)
    (h : readSide (s.useMem u) (u.d.sideBase u.face) u.d.elems = some es) : s.useFace u = .ok { s.bareFace u with side := es } := by
  unfold State.useFace
  rw [if_pos hw, h]

/-- A malformed side list fails its reader (R30). -/
theorem State.useFace_malformed {s : State} {u : Use} (hw : u.d.w.side = true)
    (h : readSide (s.useMem u) (u.d.sideBase u.face) u.d.elems = none) : s.useFace u = .error errFmtSide := by
  unfold State.useFace
  rw [if_pos hw, h]

/-- The side list of hall 1 as the command sees it. -/
theorem ckptState_side {m : Mem} {a n : Nat} {p q : Byte} (h : memReads (memWrites m a [Config.freeByte n]) 0x1000 24 = sidePair p q) :
    readSide (((ckptState m a n).unsure (ckptCmd a)).useMem ckptUse) (ckptUse.d.sideBase ckptUse.face) ckptUse.d.elems
      = if p.toNat < q.toNat then some [(p.toNat, 0), (q.toNat, 0)] else none := by
  have hbase : ckptUse.d.sideBase ckptUse.face = 0x1000 := by decide
  have helems : ckptUse.d.elems = 256 := by decide
  have hmem : ((ckptState m a n).unsure (ckptCmd a)).useMem ckptUse = memWrites m a [Config.freeByte n] :=
    (if_neg (by decide)).trans (ckptState_unsure m a n)
  rw [hbase, helems, hmem, readSide_sidePair h]

/-- The image of hall 1 is there where its side list rises. -/
theorem ckptState_second {m : Mem} {a n : Nat} {p q : Byte} (h : memReads (memWrites m a [Config.freeByte n]) 0x1000 24 = sidePair p q)
    (hlt : p.toNat < q.toNat) : ∃ img, ((ckptState m a n).unsure (ckptCmd a)).slotImage 0 (ckptCmd a) 1 = .ok img := by
  have hside := ckptState_side h
  rw [if_pos hlt] at hside
  have hface := State.useFace_side rfl hside
  have himg : ∃ t, ((ckptState m a n).unsure (ckptCmd a)).imgOf 0 ckptUse = .ok t := by
    unfold State.imgOf
    rw [hface]
    exact ⟨_, rfl⟩
  obtain ⟨t, ht⟩ := himg
  unfold State.slotImage
  rw [show (ckptCmd a).att.uses.filter (fun u => u.hall == 1) = [ckptUse] from rfl, mapE, ht]
  exact ⟨_, rfl⟩

/-- Else the image fails. -/
theorem ckptState_second_malformed {m : Mem} {a n : Nat} {p q : Byte}
    (h : memReads (memWrites m a [Config.freeByte n]) 0x1000 24 = sidePair p q) (hge : ¬ p.toNat < q.toNat) :
    ((ckptState m a n).unsure (ckptCmd a)).slotImage 0 (ckptCmd a) 1 = .error errFmtSide := by
  have hside := ckptState_side h
  rw [if_neg hge] at hside
  have hface := State.useFace_malformed rfl hside
  have himg : ((ckptState m a n).unsure (ckptCmd a)).imgOf 0 ckptUse = .error errFmtSide := by
    unfold State.imgOf
    rw [hface]
    rfl
  unfold State.slotImage
  rw [show (ckptCmd a).att.uses.filter (fun u => u.hall == 1) = [ckptUse] from rfl, mapE, himg]

theorem ckptState_sent (m : Mem) (a n : Nat) : (ckptState m a n).ImageSent 0 (ckptCmd a) stalePlan 0 where
  image k := ckptState_first m a k
  sent := List.mem_cons_self
  answered := rfl

/-- The second hall's image is formed of free bytes further on, and its side list is malformed there. -/
theorem ckptState_work {m : Mem} {a n : Nat} {p q : Byte}
    (h : memReads (memWrites m a [Config.freeByte (n + 1)]) 0x1000 24 = sidePair p q) (hge : ¬ p.toNat < q.toNat) :
    (ckptState m a n).ckptWork 0 (ckptCmd a) = .error errFmtSide := by
  have first : (ckptState m a n).ckptHall 0 (ckptCmd a) stalePlan 0 = .ok (ckptState m a (n + 1)) :=
    (State.ckptHall_sent (ckptState_sent m a n) n).trans (by rw [← ckptState_next m a n]; rfl)
  have second : (ckptState m a (n + 1)).ckptHall 0 (ckptCmd a) stalePlan 1 = .error errFmtSide := by
    unfold State.ckptHall
    dsimp only
    rw [ckptState_second_malformed h hge]
  unfold State.ckptWork
  rw [show (ckptState m a n).plan? 0 = some stalePlan from rfl]
  dsimp only
  rw [ckptState_halls, foldE, first]
  dsimp only
  rw [foldE, second]

/-- Work that fails with a code other than poison's fails its command. -/
theorem State.work_error {s : State} {q : Page} {slot e : Nat} {c : Cmd} {want : Cmd → Bool} {f : Cmd → State → Except Nat State}
    (hc : s.cmd? q slot = some c) (hp : c.phase = .running) (hw : want c = true) (hn : c.noWork = false) (hf : c.att.finished = false)
    (h : f c s = .error e) (he : isPoison e = false) : s.work q slot want f = s.failCmd q c.slot (e % 65536) 0xFFFF := by
  unfold State.work
  rw [hc]
  dsimp only
  rw [if_pos ⟨hp, hw, by simp [hn], by simp [hf]⟩, h]
  dsimp only
  unfold State.failWork
  dsimp only
  rw [if_neg (by simp [he])]

theorem ckptState_fails {m : Mem} {a n : Nat} {p q : Byte}
    (h : memReads (memWrites m a [Config.freeByte (n + 1)]) 0x1000 24 = sidePair p q) (hge : ¬ p.toNat < q.toNat) :
    exec (.checkpoint 0 (.work 0)) (ckptState m a n) = .next ((ckptState m a n).failCmd 0 0 errFmtSide 0xFFFF) := by
  have hwork := State.work_error (s := ckptState m a n) (q := 0) (slot := 0) (c := ckptCmd a) (want := (·.opcode == opCHECKPOINT))
    (f := fun c s => s.ckptWork 0 c) rfl rfl rfl rfl rfl (ckptState_work h hge) rfl
  exact (next_live (s := ckptState m a n) rfl _).trans (congrArg _ hwork)

/-- A hall whose side list is malformed under the free bytes further on: the CHECKPOINT fails, and the statement has it finish. -/
theorem not_finishes_of_bytes {m : Mem} {a n : Nat} {p q p' q' : Byte}
    (h : memReads (memWrites m a [Config.freeByte n]) 0x1000 24 = sidePair p q) (hlt : p.toNat < q.toNat)
    (h' : memReads (memWrites m a [Config.freeByte (n + 1)]) 0x1000 24 = sidePair p' q') (hge : ¬ p'.toNat < q'.toNat) :
    ¬ Obligations.FenceCheckpointAndGangFinish := by
  unfold Obligations.FenceCheckpointAndGangFinish
  rintro ⟨-, all⟩
  obtain ⟨-, ckpt, -⟩ := all (ckptState m a n) 0 0 (ckptCmd a) rfl rfl rfl
  obtain ⟨t, hrun, hfin, -, -⟩ := ckpt stalePlan rfl rfl rfl rfl rfl (by
    rw [ckptState_halls, List.forall_mem_cons, List.forall_mem_singleton]
    exact ⟨⟨ckptState_first m a n, List.mem_cons_self, rfl⟩,
      ⟨ckptState_second h hlt, List.mem_cons_of_mem _ List.mem_cons_self, rfl⟩⟩)
  rw [ckptState_fails h' hge] at hrun
  obtain rfl := Host.Outcome.next.inj hrun
  have halted := State.job_failCmd_oldest (s := ckptState m a n) (q := 0) (c := ckptCmd a) (rest := []) errFmtSide 0xFFFF rfl rfl rfl
    (by decide)
  have hnone : (((ckptState m a n).failCmd 0 0 errFmtSide 0xFFFF).job 0).cmds = [] := (Job.offSlice_fields halted).1
  rw [State.att, State.cmd?, Job.cmd?, hnone] at hfin
  exact absurd hfin (by decide)

/-- Two free bytes in a row that differ: one of the two tells a rising side list from one that does not rise. -/
theorem not_finishes_of_ne {n : Nat} (h : Config.freeByte n ≠ Config.freeByte (n + 1)) :
    ¬ Obligations.FenceCheckpointAndGangFinish := by
  generalize hx : Config.freeByte n = x at h
  generalize hy : Config.freeByte (n + 1) = y at h
  have hne : x.toNat ≠ y.toNat := fun e => h (BitVec.eq_of_toNat_eq e)
  by_cases hlt : x.toNat < y.toNat
  · have patched (b : Byte) : memReads (memWrites (memWrites [] 0x1000 (sidePair 0 y)) (0x1000 + 8) [b]) 0x1000 24 = sidePair b y :=
      memReads_patched [] 0x1000 8 (sidePair 0 y) b
    exact not_finishes_of_bytes (by rw [hx]; exact patched x) hlt (by rw [hy]; exact patched y) (Nat.lt_irrefl _)
  · have patched (b : Byte) : memReads (memWrites (memWrites [] 0x1000 (sidePair y 0)) (0x1000 + 16) [b]) 0x1000 24 = sidePair y b :=
      memReads_patched [] 0x1000 16 (sidePair y 0) b
    exact not_finishes_of_bytes (by rw [hx]; exact patched x) (by omega) (by rw [hy]; exact patched y) (Nat.lt_irrefl _)

/-- The statement where every free byte is the same. -/
theorem finishes_of_const (hconst : ∀ i j, Config.freeByte i = Config.freeByte j) : Obligations.FenceCheckpointAndGangFinish := by
  unfold Obligations.FenceCheckpointAndGangFinish
  refine ⟨fun s q slot hz => ?_, fun s q slot c hz hc hslot => ⟨fun ho => ?_, ?_, ?_⟩⟩
  · exact run_takes hz q slot
  · exact fence_waits hz q slot ho
  · intro p hp ho hn hd hplan hs
    subst hslot
    refine checkpoint_finishes hz hc rfl hp ho hn hd hplan fun h hh => ?_
    obtain ⟨⟨img, himg⟩, hsent, hans⟩ := hs h hh
    exact ⟨fun n => ⟨img, (State.unsure_image hconst s n q c h).trans himg⟩, by rw [State.att_of_cmd? hc]; exact hsent, hans⟩
  · intro op i g f s1 t1 roots hi hp ho hn hd hop hg hf ht hs hw
    exact gang_finishes hz hc hslot hi hp ho hn hd hop hg hf ht hs hw

/-- Why O27 stays unsettled. The free bytes of R164 are drawn anew for each hall of a CHECKPOINT (`ckptHall`), and the statement's
hypothesis draws them once for all: it holds exactly where all free bytes are equal. `Config.freeByte` is opaque, "no proof can lean on
its value", so neither the statement nor its negation follows. -/
theorem fenceCheckpointAndGangFinish_iff :
    Obligations.FenceCheckpointAndGangFinish ↔ ∀ i j, Config.freeByte i = Config.freeByte j := by
  refine ⟨fun h => ?_, finishes_of_const⟩
  have next (n : Nat) : Config.freeByte n = Config.freeByte (n + 1) := by
    by_contra hne
    exact not_finishes_of_ne hne h
  have zero (n : Nat) : Config.freeByte n = Config.freeByte 0 := by
    induction n with
    | zero => rfl
    | succ n ih => exact (next n).symm.trans ih
  exact fun i j => (zero i).trans (zero j).symm

end Sys2Proof.Machine
end
